-- ==== Sys2Proof/Word.lean ====
section
/-! DEFINITION. The words of the machine and the numbers that name its units.

The device counts bits from 0, the least significant, and holds values of several bytes little-endian (R3).
Helpers that take words apart stand in `Sys2Proof/Decode.lean` and under `Sys2Proof/Machine/`. -/

namespace Sys2Proof

/-- One byte of memory. -/
abbrev Byte := BitVec 8
/-- One token's data, one PE local register. -/
abbrev Word := BitVec 32
/-- One instruction word, one task or action register. -/
abbrev DWord := BitVec 64

/-- A core's package number (R8): die in [7:6], cluster in [5:2], position in [1:0]. -/
abbrev CoreId := Fin 256
/-- A die, which is also a stack (R1, R8). -/
abbrev DieId := Fin 4
/-- A PE as COL × 8 + ROW (R389). -/
abbrev PeId := Fin 128
/-- A memory tile (R81). -/
abbrev MtId := Fin 32
/-- An address generator, or the edge router that serves it (R28). -/
abbrev AgId := Fin 16
/-- A parser of a core (R18). -/
abbrev ParserId := Fin 4
/-- A register bank of a task unit (R302). -/
abbrev BankId := Fin 4
/-- A router of a core: PE routers 0 to 127, MT routers 128 to 159, AG edge routers 160 to 175 (R354, R443). -/
abbrev RouterId := Fin 176

/-- The entry of a fixed table. -/
abbrev at' {α : Type} {n : Nat} (v : Vector α n) (i : Fin n) : α := v[i.val]

/-- A fixed table with one entry replaced. -/
def put {α : Type} {n : Nat} (v : Vector α n) (i : Fin n) (x : α) : Vector α n := v.set i.val x i.isLt

@[simp] theorem at_put_self {α : Type} {n : Nat} (v : Vector α n) (i : Fin n) (x : α) : at' (put v i x) i = x := by
  simp [put, at']

@[simp] theorem at_put_ne {α : Type} {n : Nat} (v : Vector α n) (i j : Fin n) (x : α) (h : i ≠ j) :
    at' (put v i x) j = at' v j := by
  have h' : i.val ≠ j.val := fun e => h (Fin.ext e)
  simp [put, at', h']

theorem put_at_self {α : Type} {n : Nat} (v : Vector α n) (i : Fin n) : put v i (at' v i) = v := by
  simp [put, at']

end Sys2Proof
end

