-- ==== Sys2Proof/Syntax.lean ====
section
/-! DEFINITION. The instruction words and the device's indivisible steps, as one inductive.

Every row of the opcode table is a constructor of `Instr`: the 139 opcodes that run as code (R223), whose
constructors carry the fields of their form (R210), and the device's other steps (95_what_each_step_holds),
whose constructors carry the unit at which the step happens and what the outside supplies. -/

namespace Sys2Proof

/-- What one 8-bit operand code names (R217). The codes and these names are in one-to-one correspondence. -/
inductive Operand where
  | x (i : Fin 32)      -- 0x00 to 0x1F: a task register
  | l (i : Fin 8)       -- 0x20 to 0x27: a PE local register
  | p (i : Fin 4)       -- 0x28 to 0x2B: a data input port
  | q (i : Fin 4)       -- 0x2C to 0x2F: a data output port
  | c (i : Fin 4)       -- 0x30 to 0x33: a condition input port
  | e (i : Fin 4)       -- 0x34 to 0x37: a condition output port
  | t (i : Fin 16)      -- 0x38 to 0x47: a tile register
  | a (i : Fin 16)      -- 0x48 to 0x57: an action register
  | reserved (i : Fin 40) -- 0x58 to 0x7F
  | imm (v : BitVec 7)  -- 0x80 to 0xFF: a constant from −64 to 63
  deriving DecidableEq, Repr

/-- F-REG and F-SYS (R210, R211): D, A, B, C, the modifier byte and X. -/
structure RegForm where
  d : Operand
  a : Operand
  b : Operand
  c : Operand
  m : BitVec 8
  x : BitVec 16
  deriving DecidableEq, Repr

/-- F-IMM (R210, R212). -/
structure ImmForm where
  d : Operand
  a : Operand
  m : BitVec 8
  imm : Word
  deriving DecidableEq, Repr

/-- F-BR (R210, R213). -/
structure BrForm where
  a : Operand
  b : Operand
  cc : BitVec 8
  off : Word
  deriving DecidableEq, Repr

/-- F-WAIT (R210, R214): five thresholds, the continuation channel and the byte that must be zero. -/
structure WaitForm where
  ld : BitVec 8
  st : BitVec 8
  cp : BitVec 8
  tl : BitVec 8
  gx : BitVec 8
  chan : BitVec 8
  z : BitVec 8
  deriving DecidableEq, Repr

/-- F-ENG (R210, R215). -/
structure EngForm where
  d : Operand
  a : Operand
  b : Operand
  c : Operand
  acq : Bool
  rel : Bool
  scope : BitVec 3
  follow : Bool
  cfl : BitVec 10
  k : BitVec 8
  deriving DecidableEq, Repr

/-- The parser commands of F-GRM (R349). -/
structure GrmForm where
  d : Operand
  a : Operand
  n : BitVec 3
  fin : Bool          -- END
  s : BitVec 2        -- START[1:0] of GSTART
  p : BitVec 2
  oedge : BitVec 4
  ovc : BitVec 2
  z : BitVec 26
  deriving DecidableEq, Repr

/-- GSKIP (R59). -/
structure SkipForm where
  a : Operand
  b : Operand
  cc : BitVec 8
  z : BitVec 29
  n : BitVec 3
  deriving DecidableEq, Repr

/-- The two command ports (R422). -/
inductive Port where
  | A | B
  deriving DecidableEq, Repr

/-- An accepted command: its header fields, its payload and its Frieze sequence number (R422, R423). -/
structure Cmd where
  port : Port
  rid : Word
  ctx : BitVec 10
  q : BitVec 4
  d0 : DWord
  d1 : DWord
  d2 : DWord
  d3 : DWord
  d4 : DWord
  seq : Nat
  deriving DecidableEq, Repr

/-- A bank of one die's CSM (R121). -/
structure Bank where
  die : DieId
  n : Fin 1024
  deriving DecidableEq, Repr

/-- An element that freezes in a drain (R397). -/
inductive Elem where
  | ag (k : AgId)
  | node (pe : PeId)
  | mt (m : MtId)
  | filter (r : RouterId) (entry : Nat)
  | lane (h : Fin 4)
  | parser (p : ParserId)
  | task
  | engine
  | ring (n : Nat)
  deriving DecidableEq, Repr

/-- One entry of a peer package's change set, as the outside supplies it: key and contents (R184, R191). -/
structure PeerEntry where
  key : Nat
  bytes : List Byte
  deriving DecidableEq, Repr

/-- What the outside supplies of a Chisel peer that is another package (R191): its class values and its change
set and its agreement word. A peer on this package is read from the state instead. -/
structure PeerSide where
  count : Nat
  lesz : Nat
  fb : Bool
  win : Bool
  size : Nat
  growth : Nat
  rounds : Nat
  entries : List PeerEntry
  ok : Bool
  deriving DecidableEq, Repr

/-- What came back for a remote copy burst (R421). -/
inductive RemoteReply where
  | ok (data : List Byte)
  | error
  | lost              -- exhausted transport retries
  deriving DecidableEq, Repr

/-- What the scrubber visits (R437): a word of memory by its location, an entry of the Frieze by its slot, a context's
descriptor. -/
inductive ScrubAt where
  | word (loc : Nat)
  | frieze (slot : Fin 65536)
  | context (n : Nat)
  deriving DecidableEq, Repr

/-- What the check bits of a visited word say (R437). -/
inductive ScrubFind where
  | clean | corrected | uncorrectable
  deriving DecidableEq, Repr

/-- The instruction words and the steps of the device, one constructor for each row of the opcode table. -/
inductive Instr where
  -- integer and bit (R239, R240)
  | add (f : RegForm)
  | addi (f : ImmForm)
  | sub (f : RegForm)
  | mul (f : RegForm)
  | mulh (f : RegForm)
  | muli (f : ImmForm)
  | div (f : RegForm)
  | rem (f : RegForm)
  | and (f : RegForm)
  | andi (f : ImmForm)
  | or (f : RegForm)
  | ori (f : ImmForm)
  | xor (f : RegForm)
  | xori (f : ImmForm)
  | andn (f : RegForm)
  | shl (f : RegForm)
  | shli (f : ImmForm)
  | shr (f : RegForm)
  | shri (f : ImmForm)
  | sar (f : RegForm)
  | sari (f : ImmForm)
  | min (f : RegForm)
  | max (f : RegForm)
  | clz (f : RegForm)
  | popc (f : RegForm)
  | bfx (f : RegForm)
  | bfi (f : RegForm)
  | cmp (f : RegForm)
  | cmpi (f : ImmForm)
  | mov (f : RegForm)
  | movi (f : ImmForm)
  -- floating point (R252)
  | fadd (f : RegForm)
  | fsub (f : RegForm)
  | fmul (f : RegForm)
  | fma (f : RegForm)
  | fmin (f : RegForm)
  | fmax (f : RegForm)
  | fcmp (f : RegForm)
  | fsgn (f : RegForm)
  | frcp (f : RegForm)
  | frsq (f : RegForm)
  | fexp2 (f : RegForm)
  | flog2 (f : RegForm)
  | frnd (f : RegForm)
  | cvt (f : RegForm)
  | cvts (f : RegForm)
  | fcls (f : RegForm)
  -- node flow (R266)
  | selt (f : RegForm)
  | steer (f : RegForm)
  | gate (f : RegForm)
  | merge (f : RegForm)
  | emit (f : RegForm)
  | mark (f : RegForm)
  | acc (f : RegForm)
  | tagset (f : RegForm)
  | tagchk (f : RegForm)
  | pushp (f : RegForm)
  | popp (f : RegForm)
  | bnd (f : RegForm)
  | sphdr (f : RegForm)
  | isect (f : RegForm)
  | cturn (f : RegForm)
  | void (f : RegForm)
  -- memory (R286)
  | ld (f : RegForm)
  | ldi (f : ImmForm)
  | st (f : RegForm)
  | sti (f : ImmForm)
  | ldv (f : RegForm)
  | stv (f : RegForm)
  | advv (f : RegForm)
  | reclv (f : RegForm)
  | atom (f : RegForm)
  | cas (f : RegForm)
  | append (f : RegForm)
  | ticket (f : RegForm)
  | gath (f : RegForm)
  | scat (f : RegForm)
  | fence (f : RegForm)
  | shape (f : RegForm)
  -- tasks and control (R308 to R327)
  | br (f : BrForm)
  | brc (f : BrForm)
  | call (f : BrForm)
  | ret (f : RegForm)
  | jtab (f : RegForm)
  | tend (f : RegForm)
  | done (f : RegForm)
  | tpost (f : RegForm)
  | msend (f : RegForm)
  | wait (f : WaitForm)
  | bara (f : RegForm)
  | barw (f : RegForm)
  | gbar (f : RegForm)
  | mfs (f : ImmForm)
  | mts (f : ImmForm)
  | range (f : RegForm)
  | trap (f : ImmForm)
  | nop (f : RegForm)
  | seqwt (f : RegForm)
  | cntrd (f : RegForm)
  -- engines (R335)
  | sspec (f : EngForm)
  | sarm (f : EngForm)
  | copy (f : EngForm)
  | copyc (f : EngForm)
  | tld (f : EngForm)
  | tst (f : EngForm)
  | tclr (f : EngForm)
  | mldb (f : EngForm)
  | spld (f : EngForm)
  | mma (f : EngForm)
  | mnorm (f : EngForm)
  | gload (f : EngForm)
  | gbind (f : EngForm)
  | gfree (f : EngForm)
  | gqry (f : EngForm)
  | skbld (f : EngForm)
  | skxch (f : EngForm)
  | sksub (f : EngForm)
  | skpeel (f : EngForm)
  | skrecon (f : EngForm)
  | skfix (f : EngForm)
  -- grammar (R349, R59)
  | gstart (f : GrmForm)
  | gstop (f : GrmForm)
  | gskip (f : SkipForm)
  | gmask (f : GrmForm)
  | gfeed (f : GrmForm)
  | gstat (f : GrmForm)
  -- system (R405)
  | ctxsv (f : RegForm)
  | ctxld (f : RegForm)
  | freeze (f : RegForm)
  | rmark (f : RegForm)
  | tlbi (f : RegForm)
  | cfgld (f : RegForm)
  | jrnl (f : RegForm)
  | sema (f : RegForm)
  | sret (f : RegForm)
  | haltc (f : RegForm)
  | attest (f : RegForm)
  | pgver (f : RegForm)
  | partset (f : RegForm)
  -- accesses to special registers with behaviour of their own (R304, R110, R112, R325, R196, R145, R72, R197)
  | chtabWrite (c : CoreId) (n : Fin 64) (v : DWord)
  | chtabUpdate (c : CoreId) (n : Fin 64)
  | flagsClear (c : CoreId) (v : DWord)
  | amaxWrite (c : CoreId) (v : DWord)
  | cntWrite (c : CoreId) (v : DWord)
  | sksizeWrite (c : CoreId) (r : Fin 3) (v : DWord)
  | idxdropRead (c : CoreId) (b : BankId) (d : Fin 32)
  | pstatRead (c : CoreId) (p : ParserId) (b : BankId) (d : Fin 32)
  | skstatRead (c : CoreId) (b : BankId) (d : Fin 32)
  | registerWrite (c : CoreId) (r : BitVec 12) (v : DWord)
  -- memory and ordering (R124, R135, R137, R82, R84, R384)
  | memPropagate (acc : Nat)
  | memPerform (acc : Nat)
  | bankWaitWake (b : Bank)
  | waitStoreResend (b : Bank)
  | stvDeadlock (b : Bank)
  | mtAccept (c : CoreId) (m : MtId) (bank : Fin 4)
  | mtResponse (c : CoreId) (m : MtId) (port : Fin 5)
  | pageWalk (die : DieId)
  -- fabric (R74, R35, R80, R89, R86)
  | peFire (c : CoreId) (pe : PeId)
  | routerHop (c : CoreId) (r : RouterId) (port : Fin 5) (vc : Fin 4)
  | controlHop (c : CoreId) (r : RouterId) (port : Fin 5) (sub : Fin 4)
  | ctrlPost (c : CoreId) (k : AgId)
  | ringStep (c : CoreId) (n : Nat)
  | queueEnlarge (c : CoreId)
  -- streams and parsers (R30, R336, R46, R48, R68, R61, R34)
  | agEmit (c : CoreId) (k : AgId)
  | agWalkEnd (c : CoreId) (k : AgId)
  | tapItem (c : CoreId) (p : ParserId)
  | parseStep (c : CoreId) (p : ParserId)
  | recoveryDiscard (c : CoreId) (p : ParserId)
  | actionFire (c : CoreId) (p : ParserId)
  | gateRelease (c : CoreId) (p : ParserId)
  -- tasks, barriers, engines (R303, R301, R313, R317, R330 to R332, R159, R174, R176)
  | messageAccept (src : CoreId)
  | taskStart (c : CoreId)
  | continuationPost (c : CoreId) (n : Nat)
  | barrierRelease (c : CoreId) (b : Fin 1024)
  | engineCommandAccept (c : CoreId) (n : Nat)
  | engineCommandStart (c : CoreId) (id : Nat)
  | engineCommandComplete (c : CoreId) (id : Nat)
  | followOnMmaIssue (c : CoreId) (id : Nat)
  | vectorAccept (c : CoreId) (h : Fin 4)
  | vectorResult (c : CoreId) (h : Fin 4)
  -- ranges, stages, sessions (R377, R378, R191 to R194)
  | rangeServe (die : DieId) (q : Fin 64)
  | stageAppend (launch : Nat) (c : CoreId)
  | sessionPair (die : DieId) (slot : Fin 16) (peer : Option PeerSide)
  | sketchRound (die : DieId) (peer : Option PeerSide)
  | sessionFallback (die : DieId) (peer : Option PeerSide)
  | sessionAbort (die : DieId)
  -- launches (R365 to R376, R392, R393)
  | recordCandidate (ctx : Nat) (q : Fin 16)
  | dependenceResolve (ctx : Nat) (q : Fin 16)
  | admitLaunch (part : Fin 16)
  | launchLoad (launch : Nat)
  | teamEnd (launch : Nat) (c : CoreId)
  | statusWrite (launch : Nat)
  | statusHeldWrite (ctx : Nat) (q : Fin 16)
  | launchTeardown (launch : Nat)
  | coreReturn (c : CoreId)
  | watchdog (launch : Nat)
  -- pre-emption and code pages (R396 to R400)
  | elementDrainFreeze (c : CoreId) (e : Elem)
  | drainComplete (launch : Nat)
  | drainTimeout (launch : Nat)
  | freezeComplete (launch : Nat)
  | restoreResume (ctx : Nat)
  | pageCheckComplete (ctx : Nat)
  -- host attachment (R419 to R423)
  | rmaWrite (job : BitVec 12) (va : DWord) (data : List Byte)
  | rmaRead (job : BitVec 12) (va : DWord) (n : Nat)
  | unsupportedPacket
  | remoteAck (c : CoreId) (id : Nat) (r : RemoteReply)
  | commandAccept (port : Port) (header : DWord) (d0 d1 d2 d3 d4 : DWord)
  -- commands (R425)
  | cmdNop (k : Cmd)
  | cmdSema (k : Cmd)
  | cmdDevid (k : Cmd)
  | cmdAttest (k : Cmd)
  | cmdJread (k : Cmd)
  | cmdDevstat (k : Cmd)
  | cmdCtxnew (k : Cmd)
  | cmdCtxset (k : Cmd)
  | cmdCtxdel (k : Cmd)
  | cmdMap (k : Cmd)
  | cmdPtset (k : Cmd)
  | cmdQnew (k : Cmd)
  | cmdQset (k : Cmd)
  | cmdEnq (k : Cmd)
  | cmdCancel (k : Cmd)
  | cmdClsreg (k : Cmd)
  | cmdClsfree (k : Cmd)
  | cmdTlbi (k : Cmd)
  | cmdFreeze (k : Cmd)
  | cmdDrain (k : Cmd)
  | cmdRestore (k : Cmd)
  | cmdCfg (k : Cmd)
  | cmdPart (k : Cmd)
  | cmdSlots (k : Cmd)
  | cmdHaltc (k : Cmd)
  | cmdKeyset (k : Cmd)
  | cmdFwupd (k : Cmd)
  | cmdJobset (k : Cmd)
  | cmdPeerset (k : Cmd)
  | cmdSysrt (k : Cmd)
  -- leases, errors, heat, bring-up (R428, R437, R439 to R441)
  | cpsemLeaseExpiry
  | linkRetryExhausted (acc : Nat)
  | scrub (place : ScrubAt) (found : ScrubFind)
  | thermalStepDown (die : DieId) (temp : BitVec 8)
  | thermalStepUp (die : DieId) (temp : BitVec 8)
  | thermalTrip (die : DieId) (temp : BitVec 8)
  | powerOnReset
  | bringUpStep (ok : Bool)
  | coreResetDone (c : CoreId)
  deriving DecidableEq, Repr

end Sys2Proof
end

