-- ==== Sys2Proof/Machine/Checks.lean ====
section
/-! DEFINITION. The fault codes, the four contexts, and the checks of a word that need no register value
(R225, checks 2 to 6, and the register-field checks of check 8). A task unit makes them on a fetched word; the
loader makes them on the words of an image, with IMAGE_INVALID in place of each code. -/

namespace Sys2Proof.Machine
open Sys2Proof

/-- The fault codes (R391 and the rules that raise each of them). -/
inductive FaultCode where
  | illegalOp | illegalOperand | tagMismatch | align | translation | protection | parseMismatch | parseStack
  | sparseMeta | graphCapacity | graphWidth | queuePool | version | boundary | codeHash | handler | sketchPeel
  | poison | barrier | watchdog | uncorrectable | trap | privilege | pendingRead
  deriving DecidableEq, Repr

/-- The 8-bit CODE of a fault record (R388). -/
def faultNumber : FaultCode → Nat
  | .illegalOp => 0x01 | .illegalOperand => 0x02 | .tagMismatch => 0x03 | .align => 0x04
  | .translation => 0x05 | .protection => 0x06 | .parseMismatch => 0x07 | .parseStack => 0x08
  | .sparseMeta => 0x09 | .graphCapacity => 0x0A | .graphWidth => 0x0B | .queuePool => 0x0C
  | .version => 0x0D | .boundary => 0x0E | .codeHash => 0x0F | .handler => 0x10 | .sketchPeel => 0x11
  | .poison => 0x12 | .barrier => 0x13 | .watchdog => 0x14 | .uncorrectable => 0x15 | .trap => 0x16
  | .privilege => 0x17 | .pendingRead => 0x18

/-- The context in which an instruction runs (R220). -/
inductive ExecCtx where
  | task | node | action | system
  deriving DecidableEq, Repr

/-- The format tags (R96). CSP is never a register tag and is no constructor. -/
inductive Fmt where
  | raw | i8 | i16 | i32 | fp16 | bf16 | fp32 | t8 | t6 | idx | mask
  deriving DecidableEq, Repr

/-- The tag of a 4-bit FMT field; 0xB to 0xF name no register format (R96, R97). -/
def fmtOf (v : BitVec 4) : Option Fmt :=
  match v.toNat with
  | 0 => some .raw | 1 => some .i8 | 2 => some .i16 | 3 => some .i32 | 4 => some .fp16 | 5 => some .bf16
  | 6 => some .fp32 | 7 => some .t8 | 8 => some .t6 | 9 => some .idx | 10 => some .mask | _ => none

/-- The 4-bit code of a tag (R96). -/
def fmtCode : Fmt → BitVec 4
  | .raw => 0 | .i8 => 1 | .i16 => 2 | .i32 => 3 | .fp16 => 4 | .bf16 => 5 | .fp32 => 6 | .t8 => 7 | .t6 => 8
  | .idx => 9 | .mask => 10

/-- M[7:4] (R219). -/
def mFmt (m : BitVec 8) : BitVec 4 := m.extractLsb' 4 4
/-- M[3:2], the rounding mode field (R219, R105). -/
def mRnd (m : BitVec 8) : BitVec 2 := m.extractLsb' 2 2
/-- M[1] (R219). -/
def mSat (m : BitVec 8) : Bool := m.getLsbD 1
/-- M[0] (R219). -/
def mU (m : BitVec 8) : Bool := m.getLsbD 0
/-- M[3:0] of CMP, CMPI and FCMP (R239, R252). -/
def mCc (m : BitVec 8) : BitVec 4 := m.extractLsb' 0 4

/-- ACQ of the memory modifier (R281). -/
def memAcq (m : BitVec 8) : Bool := m.getLsbD 7
/-- REL of the memory modifier (R281). -/
def memRel (m : BitVec 8) : Bool := m.getLsbD 6
/-- SCOPE of the memory modifier (R281). -/
def memScope (m : BitVec 8) : BitVec 3 := m.extractLsb' 3 3
/-- U of the memory modifier (R281). -/
def memU (m : BitVec 8) : Bool := m.getLsbD 2
/-- SZ of the memory modifier (R281): an access is of 2^SZ bytes. -/
def memSz (m : BitVec 8) : BitVec 2 := m.extractLsb' 0 2

/-- The width in bytes of a format as R281 pairs it with SZ; T6 uses a byte (R284). -/
def fmtSz : Fmt → Nat
  | .i8 | .t8 | .t6 => 0
  | .i16 | .fp16 | .bf16 => 1
  | .i32 | .fp32 | .idx | .mask | .raw => 2

/-- How an entry uses an operand field. -/
inductive Role where
  | zero        -- unused: 0x00 (R211)
  | src         -- a source of the context
  | dst         -- a destination of the context
  | both        -- read and written: x, l or a (R248)
  | xreg        -- an x register
  | ximm        -- an x register or an imm7
  | reg         -- the context's own register, x or a
  | regImm      -- the context's own register or an imm7
  | reg0        -- the context's own register, or 0x00
  | regImm0     -- the same, or an imm7
  | qport | pport | lreg | imm7
  | lqe         -- l, q or e (R266)
  | qe          -- q or e (R266)
  | pc          -- p or c (R266)
  | anyEng      -- an engine operand, whose kind check 8 of R333 settles
  deriving DecidableEq, Repr

/-- Whether the operand code may be read in the context (R217). -/
def readable (k : ExecCtx) : Operand → Bool
  | .x _ => k == .task || k == .system
  | .l _ | .p _ | .c _ => k == .node
  | .a _ => k == .action
  | .imm _ => true
  | .q _ | .e _ | .t _ | .reserved _ => false

/-- Whether the operand code may be written in the context (R217). -/
def writable (k : ExecCtx) : Operand → Bool
  | .x _ => k == .task || k == .system
  | .l _ | .q _ | .e _ => k == .node
  | .a _ => k == .action
  | .p _ | .c _ | .t _ | .imm _ | .reserved _ => false

/-- The code 0x00, which an unused field holds (R211). -/
def isZero (o : Operand) : Bool := o == .x 0

/-- Whether an operand suits its role in the context (R217, R211). -/
def roleOk (k : ExecCtx) (r : Role) (o : Operand) : Bool :=
  match r, o with
  | .zero, o => isZero o
  | .src, o => readable k o
  | .dst, o => writable k o
  | .both, .x _ => k == .task || k == .system
  | .both, .l _ => k == .node
  | .both, .a _ => k == .action
  | .both, _ => false
  | .xreg, .x _ => k == .task || k == .system
  | .xreg, _ => false
  | .ximm, .x _ => k == .task || k == .system
  | .ximm, .imm _ => true
  | .ximm, _ => false
  | .reg, .x _ => k == .task || k == .system
  | .reg, .a _ => k == .action
  | .reg, _ => false
  | .regImm, .x _ => k == .task || k == .system
  | .regImm, .a _ => k == .action
  | .regImm, .imm _ => true
  | .regImm, _ => false
  | .reg0, .x i => k == .task || k == .system || i == 0
  | .reg0, .a _ => k == .action
  | .reg0, _ => false
  | .regImm0, .x i => k == .task || k == .system || i == 0
  | .regImm0, .a _ => k == .action
  | .regImm0, .imm _ => true
  | .regImm0, _ => false
  | .qport, .q _ => true
  | .qport, _ => false
  | .pport, .p _ => true
  | .pport, _ => false
  | .lreg, .l _ => true
  | .lreg, _ => false
  | .imm7, .imm _ => true
  | .imm7, _ => false
  | .lqe, .l _ | .lqe, .q _ | .lqe, .e _ => true
  | .lqe, _ => false
  | .qe, .q _ | .qe, .e _ => true
  | .qe, _ => false
  | .pc, .p _ | .pc, .c _ => true
  | .pc, _ => false
  | .anyEng, .x i => k == .task || k == .system || i == 0
  | .anyEng, .a _ => k == .action
  | .anyEng, .t _ | .anyEng, .imm _ => true
  | .anyEng, _ => false

/-- The classes of R98, with the classes of ACC (R273). -/
inductive FmtClass where
  | arith | bit | fp | cvt | accAll
  deriving DecidableEq, Repr

/-- Whether FMT lies in the set its class accepts (R98). -/
def classAccepts (k : ExecCtx) (c : FmtClass) (f : Fmt) : Bool :=
  match c, f with
  | .arith, .i8 | .arith, .i16 | .arith, .i32 | .arith, .idx => true
  | .arith, .raw => k != .node
  | .arith, _ => false
  | .bit, _ => true
  | .fp, .fp16 | .fp, .bf16 | .fp, .fp32 => true
  | .fp, _ => false
  | .cvt, .raw | .cvt, .idx | .cvt, .mask => false
  | .cvt, _ => true
  | .accAll, .t8 | .accAll, .t6 => false
  | .accAll, _ => true

/-- How an entry uses M (R219, R239, R252, R281). -/
inductive MUse where
  | zero
  | num (c : FmtClass) (rnd sat u : Bool)
  | cc (c : FmtClass)
  | fmtOnly (c : FmtClass)
  | orBit               -- SPHDR: bit 0 alone
  | mem (u : Bool)      -- a memory word; whether it uses U
  deriving DecidableEq, Repr

/-- Check 5 on M: a subfield that the entry does not use is zero (R219, R286), and SCOPE is 0 to 5. -/
def mZeroOk (u : MUse) (m : BitVec 8) : Bool :=
  match u with
  | .zero => m == 0
  | .num _ rnd sat uu => (rnd || mRnd m == 0) && (sat || !mSat m) && (uu || !mU m)
  | .cc _ => true
  | .fmtOnly _ => mCc m == 0
  | .orBit => m.extractLsb' 1 7 == 0
  | .mem uu => (memScope m).toNat ≤ 5 && (uu || !memU m)

/-- Check 6 on FMT (R98). -/
def mFmtOk (k : ExecCtx) (u : MUse) (m : BitVec 8) : Bool :=
  match u with
  | .num c _ _ _ | .cc c | .fmtOnly c =>
    match fmtOf (mFmt m) with
    | some f => classAccepts k c f
    | none => false
  | .zero | .orBit | .mem _ => true

/-- What an F-REG entry asks of its word. -/
structure RegShape where
  ctxs : List ExecCtx
  d : Role
  a : Role
  b : Role
  c : Role
  m : MUse
  x : BitVec 16       -- the bits of X that may be set
  deriving DecidableEq, Repr

/-- Checks 2 to 6 of R225 on an F-REG word. -/
def checkReg (k : ExecCtx) (s : RegShape) (f : RegForm) : Option FaultCode :=
  if !s.ctxs.contains k then some .illegalOp
  else if !(roleOk k s.d f.d && roleOk k s.a f.a && roleOk k s.b f.b && roleOk k s.c f.c) then some .illegalOperand
  else if f.x &&& ~~~ s.x != 0 then some .illegalOperand
  else if !mZeroOk s.m f.m then some .illegalOperand
  else if !mFmtOk k s.m f.m then some .tagMismatch
  else none

/-- Checks 2 to 6 of R225 on an F-IMM word. -/
def checkImm (k : ExecCtx) (ctxs : List ExecCtx) (d a : Role) (m : MUse) (f : ImmForm) : Option FaultCode :=
  if !ctxs.contains k then some .illegalOp
  else if !(roleOk k d f.d && roleOk k a f.a) then some .illegalOperand
  else if !mZeroOk m f.m then some .illegalOperand
  else if !mFmtOk k m f.m then some .tagMismatch
  else none

/-- All four contexts (R223). -/
def ctxTNAS : List ExecCtx := [.task, .node, .action, .system]
/-- Task, node and system (R223). -/
def ctxTNS : List ExecCtx := [.task, .node, .system]
/-- Task, action and system (R223). -/
def ctxTAS : List ExecCtx := [.task, .action, .system]
/-- Task and system (R223). -/
def ctxTS : List ExecCtx := [.task, .system]

/-- The integer and bit instructions with two sources (R239, R240). -/
def shInt (c : FmtClass) (sat : Bool) : RegShape := ⟨ctxTNAS, .dst, .src, .src, .zero, .num c false sat true, 0⟩
/-- CLZ, POPC and MOV (R239). -/
def shInt1 : RegShape := ⟨ctxTNAS, .dst, .src, .zero, .zero, .num .bit false false true, 0⟩
/-- The floating-point instructions with two sources (R252). -/
def shFp2 (rnd sat : Bool) : RegShape := ⟨ctxTNS, .dst, .src, .src, .zero, .num .fp rnd sat false, 0⟩
/-- The floating-point instructions with one source (R252). -/
def shFp1 (rnd sat : Bool) : RegShape := ⟨ctxTNS, .dst, .src, .zero, .zero, .num .fp rnd sat false, 0⟩
/-- A node flow instruction (R266). -/
def shFlow (d a b c : Role) (m : MUse) (x : BitVec 16) : RegShape := ⟨[.node], d, a, b, c, m, x⟩
/-- A system instruction (R402, R405). -/
def shSys (d a b c : Role) (x : BitVec 16) : RegShape := ⟨[.system], d, a, b, c, .zero, x⟩
/-- A control instruction of tasks (R308 to R325). -/
def shCtl (d a b c : Role) (x : BitVec 16) : RegShape := ⟨ctxTS, d, a, b, c, .zero, x⟩

/-- The bits of X that a memory instruction may set in the context (R282): AOP for ATOM; LOC, SEG and TFMT in a
node (TFMT where there is a destination); SEG for GATH and SCAT everywhere. -/
def memX (k : ExecCtx) (aop slot dest : Bool) : BitVec 16 :=
  (if aop then 0x0F00 else 0) |||
  (if k == .node && !slot then 0x00F0 else 0) |||
  (if slot then 0x0070 else 0) |||
  (if k == .node && dest then 0x000F else 0)

/-- Whether the ordering bits stand: a SCOPE has an ACQ or a REL (R281). -/
def memOrderOk (m : BitVec 8) : Bool := memAcq m || memRel m || memScope m == 0

/-- R298 check 1 that needs no register: the sizes an entry allows, the ordering bits and the TFMT pairing (R281, R284,
R286). -/
def memEntryOk (k : ExecCtx) (szs : List Nat) (dest : Bool) (m : BitVec 8) (x : BitVec 16) : Bool :=
  szs.contains (memSz m).toNat && memOrderOk m &&
  (k != .node || !dest ||
    match fmtOf (x.extractLsb' 0 4) with
    | some f => fmtSz f == (memSz m).toNat
    | none => false)

/-- A check of the entry itself (R225 check 8), made when `ent` says so: check 7 comes before it. -/
def onEntry (ent : Bool) (x : Option FaultCode) : Option FaultCode := if ent then x else none

/-- The checks of a memory word: R225 checks 2 to 6 by its shape, then R298 check 1. -/
def checkMem (k : ExecCtx) (ent : Bool) (s : RegShape) (szs : List Nat) (dest : Bool) (f : RegForm) : Option FaultCode :=
  (checkReg k s f).or <| onEntry ent (if memEntryOk k szs dest f.m f.x then none else some .illegalOperand)

/-- The sizes allowed: 8-byte accesses are refused in a node (R281). -/
def szAny (k : ExecCtx) : List Nat := if k == .node then [0, 1, 2] else [0, 1, 2, 3]

/-- The checks of LD to SHAPE (R281 to R296). -/
def checkMemory (k : ExecCtx) (ent : Bool) : Instr → Option FaultCode
  | .ld f => checkMem k ent ⟨ctxTNAS, .dst, .src, .src, .zero, .mem true, memX k false false true⟩ (szAny k) true f
  | .ldi f =>
    (checkImm k ctxTNAS .dst .src (.mem true) f).or <| onEntry ent
      (if (szAny k).contains (memSz f.m).toNat && memOrderOk f.m then none else some .illegalOperand)
  | .st f => checkMem k ent ⟨ctxTNAS, .zero, .src, .src, .src, .mem false, memX k false false false⟩ (szAny k) false f
  | .sti f =>
    (checkImm k ctxTNAS .src .src (.mem false) f).or <| onEntry ent
      (if (szAny k).contains (memSz f.m).toNat && memOrderOk f.m then none else some .illegalOperand)
  | .ldv f =>
    let task := k == .task || k == .system
    (checkMem k ent ⟨ctxTNAS, if task then .zero else .dst, .src, .src, .zero, .mem true,
        if task then 0x3F00 else memX k false false true⟩ [2] (!task) f).or <| onEntry ent
      (if memRel f.m then some .illegalOperand else none)
  | .stv f =>
    (checkMem k ent ⟨ctxTNAS, .zero, .src, .src, .src, .mem false, memX k false false false⟩ [2] false f).or <| onEntry ent
      (if memAcq f.m then some .illegalOperand else none)
  | .advv f =>
    (checkMem k ent ⟨ctxTNAS, .zero, .src, .src, .zero, .mem false, memX k false false false⟩ [2] false f).or <| onEntry ent
      (if memAcq f.m then some .illegalOperand else none)
  | .reclv f =>
    (checkMem k ent ⟨ctxTNAS, .zero, .src, .src, .zero, .mem false, memX k false false false⟩ [2] false f).or <| onEntry ent
      (if memAcq f.m || memRel f.m || memScope f.m != 0 then some .illegalOperand else none)
  | .atom f =>
    (checkMem k ent ⟨ctxTNAS, .dst, .src, .src, .zero, .mem true, memX k true false true⟩
        (if k == .node then [2] else [2, 3]) true f).or <| onEntry ent
      (let aop := (f.x.extractLsb' 8 4).toNat
       if aop > 0xB || ((memSz f.m).toNat == 3 && 0x9 ≤ aop) then some .illegalOperand else none)
  | .cas f => checkMem k ent ⟨ctxTNAS, .dst, .src, .src, .src, .mem true, memX k false false true⟩
      (if k == .node then [2] else [2, 3]) true f
  | .append f => checkMem k ent ⟨ctxTNAS, .dst, .src, .src, .zero, .mem true, memX k false false true⟩
      (if k == .node then [2] else [3]) true f
  | .ticket f => checkMem k ent ⟨ctxTNAS, .dst, .src, .src, .src, .mem true, memX k false false true⟩
      (if k == .node then [2] else [3]) true f
  | .gath f => checkMem k ent ⟨ctxTNS, .dst, .src, .zero, .zero, .mem true, memX k false true true⟩ (szAny k) true f
  | .scat f => checkMem k ent ⟨ctxTNS, .zero, .src, .src, .zero, .mem false, memX k false true false⟩ (szAny k) false f
  | .fence f =>
    if !ctxTNAS.contains k then some .illegalOp
    else if !(isZero f.d && isZero f.a && isZero f.b && isZero f.c) then some .illegalOperand
    else if f.x != 0 || memAcq f.m || memRel f.m || memU f.m || memSz f.m != 0 || (memScope f.m).toNat > 5 then
      some .illegalOperand
    else none
  | .shape f => checkMem k ent ⟨ctxTAS, .zero, .src, .src, .zero, .mem false, 0⟩ [0] false f
  | _ => none

/-- Whether ACC's FMT suits its op (R273). -/
def accFmtOk (op : Nat) (f : Fmt) : Bool :=
  match f with
  | .i8 | .i16 | .i32 | .idx => true
  | .fp16 | .bf16 | .fp32 => op != 3
  | .raw | .mask => op == 3
  | .t8 | .t6 => false

/-- An imm7 that holds a level or a block size within the range (R266). -/
def immWithin (o : Operand) (lo hi : Int) : Bool :=
  match o with
  | .imm v => lo ≤ v.toInt && v.toInt ≤ hi
  | _ => false

/-- The checks of the node flow instructions (R265 to R280). -/
def checkFlow (k : ExecCtx) (ent : Bool) : Instr → Option FaultCode
  | .selt f => checkReg k (shFlow .lqe .src .src .src (.fmtOnly .bit) 0) f
  | .steer f => (checkReg k (shFlow .qport .src .src .qport (.fmtOnly .bit) 0) f).or <| onEntry ent
      (if f.d == f.c then some .illegalOperand else none)
  | .gate f => checkReg k (shFlow .qport .src .src .zero (.fmtOnly .bit) 0) f
  | .merge f => (checkReg k (shFlow .qport .src .pport .pport (.fmtOnly .bit) 0) f).or <| onEntry ent
      (if f.b == f.c then some .illegalOperand else none)
  | .emit f => (checkReg k (shFlow .qport .src .imm7 .zero (.fmtOnly .bit) 1) f).or <| onEntry ent
      (if immWithin f.b 1 6 then none else some .illegalOperand)
  | .mark f =>
    if k == .action then
      checkReg k ⟨[.node, .action], .zero, .src, if isZero f.b then .zero else .src, .zero, .zero, 0⟩ f
    else (checkReg k ⟨[.node, .action], .qport, .src, .zero, .zero, .zero, 0⟩ { f with b := .x 0 }).or <| onEntry ent
      (if isZero f.b || readable k f.b then none else some .illegalOperand)
  | .acc f => (checkReg k (shFlow .qport .src .lreg .imm7 (.num .accAll true true true) 0x0301) f).or <| onEntry ent
      (if !immWithin f.c 1 6 then some .illegalOperand
       else match fmtOf (mFmt f.m) with
        | some g => if accFmtOk (f.x.extractLsb' 8 2).toNat g then none else some .tagMismatch
        | none => some .tagMismatch)
  | .tagset f => checkReg k (shFlow .qport .src .zero .zero .zero 0) f
  | .tagchk f => checkReg k (shFlow .lqe .pport .src .zero .zero 0) f
  | .pushp f => checkReg k (shFlow .zero .src .zero .zero .zero 0) f
  | .popp f => checkReg k (shFlow .zero .zero .zero .zero .zero 0) f
  | .bnd f => (checkReg k (shFlow .qe .pc .zero .zero .zero 0) f).or <| onEntry ent
      (match f.d, f.a with
       | .q _, .p _ => none
       | .e _, .c _ => none
       | _, _ => some .illegalOperand)
  | .sphdr f => checkReg k (shFlow .qport .pport .pport .zero .orBit 0) f
  | .isect f => (checkReg k (shFlow .qport .pport .pport .zero .zero 0) f).or <| onEntry ent
      (if f.d == .q 0 then none else some .illegalOperand)
  | .cturn f => (checkReg k (shFlow .qport .pport .imm7 .zero .zero 0) f).or <| onEntry ent
      (if immWithin f.b 2 16 then none else some .illegalOperand)
  | .void f => checkReg k (shFlow .qport .zero .zero .zero .zero 0) f
  | _ => none

/-- A CC of 6 to 15 (R249, R255). -/
def checkCc (f : RegForm) : Option FaultCode := if (mCc f.m).toNat > 5 then some .illegalOperand else none

/-- The checks of the integer, bit and floating-point instructions (R239 to R261), the entry checks of R248,
R249, R255, R259 and R260 among them. -/
def checkScalar (k : ExecCtx) (ent : Bool) : Instr → Option FaultCode
  | .add f | .sub f | .mul f => checkReg k (shInt .arith true) f
  | .mulh f | .div f | .rem f | .min f | .max f => checkReg k (shInt .arith false) f
  | .and f | .or f | .xor f | .andn f | .shl f | .shr f | .sar f => checkReg k (shInt .bit false) f
  | .addi f | .muli f => checkImm k ctxTNAS .dst .src (.num .arith false true true) f
  | .andi f | .ori f | .xori f | .shli f | .shri f | .sari f =>
    checkImm k ctxTNAS .dst .src (.num .bit false false true) f
  | .clz f | .popc f | .mov f => checkReg k shInt1 f
  | .bfx f => checkReg k ⟨ctxTNAS, .dst, .src, .src, .src, .num .bit false false true, 0⟩ f
  | .bfi f => checkReg k ⟨ctxTNAS, .both, .src, .src, .src, .num .bit false false true, 0⟩ f
  | .cmp f => (checkReg k ⟨ctxTNAS, .dst, .src, .src, .zero, .cc .arith, 0⟩ f).or <| onEntry ent (checkCc f)
  | .cmpi f => (checkImm k ctxTNAS .dst .src (.cc .arith) f).or <| onEntry ent
      (if (mCc f.m).toNat > 5 then some .illegalOperand else none)
  | .movi f => checkImm k ctxTNAS .dst .zero (.num .bit false false true) f
  | .fadd f | .fsub f | .fmul f => checkReg k (shFp2 true true) f
  | .fma f => checkReg k ⟨ctxTNS, .dst, .src, .src, .src, .num .fp true true false, 0⟩ f
  | .fmin f | .fmax f => checkReg k (shFp2 false false) f
  | .fcmp f => (checkReg k ⟨ctxTNS, .dst, .src, .src, .zero, .cc .fp, 0⟩ f).or <| onEntry ent (checkCc f)
  | .fsgn f => (checkReg k ⟨ctxTNS, .dst, .src, if f.x.extractLsb' 0 2 == 3 then .zero else .src, .zero,
      .num .fp false false false, 3⟩ f)
  | .frcp f | .frsq f | .fexp2 f | .flog2 f => checkReg k (shFp1 true true) f
  | .frnd f => checkReg k (shFp1 true false) f
  | .cvt f => (checkReg k ⟨ctxTNS, .dst, .src, .zero, .zero, .num .cvt true true true, 0x00F1⟩ f).or <| onEntry ent
      (cvtEntry f)
  | .cvts f => (checkReg k ⟨ctxTNS, .dst, .src, .src, .zero, .num .cvt true true true, 0x00F1⟩ f).or <| onEntry ent
      (cvtEntry f)
  | .fcls f => checkReg k (shFp1 false false) f
  | _ => none
where
  /-- R259: SFMT outside 0x1 to 0x8; an imm7 source with a source format that is no integer. -/
  cvtEntry (f : RegForm) : Option FaultCode :=
    match fmtOf (f.x.extractLsb' 4 4) with
    | some .raw | some .idx | some .mask | none => some .tagMismatch
    | some .i8 | some .i16 | some .i32 => none
    | some _ => match f.a with
      | .imm _ => some .illegalOperand
      | _ => none

/-- F-BR words (R308). -/
def checkBr (k : ExecCtx) (ent : Bool) (a b : Role) (cc : Nat) (f : BrForm) : Option FaultCode :=
  if !ctxTS.contains k then some .illegalOp
  else if !(roleOk k a f.a && roleOk k b f.b) then some .illegalOperand
  else if ent && f.cc.toNat > cc then some .illegalOperand
  else none

/-- The checks of the task instructions that need no register value (R308 to R327). -/
def checkTask (k : ExecCtx) (ent : Bool) : Instr → Option FaultCode
  | .br f => checkBr k ent .zero .zero 0 f
  | .brc f => checkBr k ent .ximm .ximm 5 f
  | .call f => checkBr k ent .xreg .zero 0 f
  | .ret f => (checkReg k (shCtl .zero .ximm .zero .zero 0) f).or <| onEntry ent (register f.a)
  | .jtab f => (checkReg k (shCtl .zero .ximm .ximm .ximm 0xFFFF) f).or <| onEntry ent ((register f.a).or (register f.b))
  | .tend f | .done f => checkReg k (shCtl .zero .zero .zero .zero 0) f
  | .tpost f => (checkReg k ⟨ctxTAS, .zero, .zero, .regImm, .regImm0, .zero, 7⟩ f).or <| onEntry ent (words f)
  | .msend f => (checkReg k ⟨ctxTAS, .zero, .regImm, .regImm, .regImm0, .zero, 7⟩ f).or <|
      onEntry ent ((register f.a).or (words f))
  | .wait f =>
    if !ctxTS.contains k then some .illegalOp
    else if f.chan.toNat > 63 || f.z != 0 then some .illegalOperand
    else none
  | .bara f => checkReg k ⟨ctxTAS, .reg0, .regImm, .regImm, .regImm, .zero, 0⟩ f
  | .barw f | .gbar f => checkReg k (shCtl .zero .ximm .ximm .zero 0x3F00) f
  | .mfs f => (checkImm k ctxTS .xreg .zero .zero f).or <| onEntry ent (index f)
  | .mts f => (checkImm k ctxTS .zero .ximm .zero f).or <| onEntry ent (index f)
  | .range f => checkReg k (shCtl .zero .ximm .zero .zero 0x3F00) f
  | .trap f => checkImm k ctxTS .zero .zero .zero f
  | .nop f => checkReg k ⟨ctxTNAS, .zero, .zero, .zero, .zero, .zero, 0⟩ f
  | .seqwt f => checkReg k (shCtl .zero .ximm .ximm .zero 0x3F00) f
  | .cntrd f => checkReg k (shCtl .xreg .ximm .zero .zero 0) f
  | _ => none
where
  /-- A field that only a register suits, which an entry checks after R225's check 7: an imm7 may be read, so that check 4
  passes it. -/
  register : Operand → Option FaultCode
    | .imm _ => some .illegalOperand
    | _ => none
  /-- R312: the word count and the run of word registers. -/
  words (f : RegForm) : Option FaultCode :=
    let n := f.x.toNat
    if n > 4 then some .illegalOperand
    else if n = 0 then if isZero f.c then none else some .illegalOperand
    else match f.c with
      | .x i => if k == .action || i.val + n > 32 then some .illegalOperand else none
      | .a i => if i.val + n > 16 then some .illegalOperand else none
      | _ => some .illegalOperand
  /-- R321: a nonzero IMM32[31:12]. -/
  index (f : ImmForm) : Option FaultCode :=
    if f.imm.extractLsb' 12 20 != 0 then some .illegalOperand else none

/-- How an engine entry uses its fields (R335). -/
inductive EngRole where
  | none | val | valImm | val0 | tile | valTile
  deriving DecidableEq, Repr

/-- Whether an operand is of the kind an engine field takes (R329, R333 check 8). `val` is R of R335; `val0` also
takes 0x00 as "absent". In action context 0x00 is no register, so it suits only a field that may be absent. -/
def engKind (k : ExecCtx) (r : EngRole) (o : Operand) : Bool :=
  match r, o with
  | .none, o => isZero o
  | .val, .x _ => k != .action
  | .val, .a _ => k == .action
  | .val, _ => false
  | .valImm, .x _ => k != .action
  | .valImm, .a _ => k == .action
  | .valImm, .imm _ => true
  | .valImm, _ => false
  | .val0, .x i => k != .action || i == 0
  | .val0, .a _ => k == .action
  | .val0, _ => false
  | .tile, .t _ => true
  | .tile, _ => false
  | .valTile, .x _ => k != .action
  | .valTile, .a _ => k == .action
  | .valTile, .t _ => true
  | .valTile, _ => false

/-- What an F-ENG entry asks of its word (R335). -/
structure EngShape where
  d : EngRole
  a : EngRole
  b : EngRole
  c : EngRole
  cfl : BitVec 10      -- the CFL bits the entry defines
  ord : Bool           -- whether ACQ, REL and SCOPE are accepted (R334)
  follow : Bool        -- whether FOLLOW is accepted (R215)
  kmax : Nat           -- largest K
  out : Bool           -- whether D is a destination: a tile or a register that the command writes
  deriving DecidableEq, Repr

/-- Check 4 of R225 on an engine field (R217): a code that is legal in the context, so that in an action 0x00 stands only for
a field that is absent; and no imm7 as a destination. -/
def engCode (k : ExecCtx) (r : EngRole) (out : Bool) (o : Operand) : Bool :=
  roleOk k .anyEng o && !(k == .action && isZero o && r != .none && r != .val0) &&
    !(out && match o with | .imm _ => true | _ => false)

/-- The same on every field of an F-ENG word. -/
def engCodes (k : ExecCtx) (s : EngShape) (f : EngForm) : Bool :=
  engCode k s.d s.out f.d && engCode k s.a false f.a && engCode k s.b false f.b && engCode k s.c false f.c

/-- R333: check 5 on the fields that must be zero, check 6 on a tag field, check 8 on operand kinds (an unused operand field
that is not 0x00 among them) and K. -/
def checkEng (k : ExecCtx) (ent : Bool) (s : EngShape) (tag : Bool) (f : EngForm) : Option FaultCode :=
  if !ctxTAS.contains k then some .illegalOp
  else if !engCodes k s f then some .illegalOperand
  else if f.cfl &&& ~~~ s.cfl != 0 then some .illegalOperand
  else if f.follow && !s.follow then some .illegalOperand
  else if !s.ord && (f.acq || f.rel || f.scope != 0) then some .illegalOperand
  else if f.scope.toNat > 5 then some .illegalOperand
  else if s.kmax = 0 && f.k != 0 then some .illegalOperand
  else if tag && (f.cfl.extractLsb' 2 4).toNat > 0xA then some .tagMismatch
  else if !ent then none
  else if !(engKind k s.d f.d && engKind k s.a f.a && engKind k s.b f.b && engKind k s.c f.c) then
    some .illegalOperand
  else if f.k.toNat > s.kmax then some .illegalOperand
  else none

/-- The entry of an engine instruction in the table of R335. CFL bits are numbered from instruction bit 8. -/
def engShape : Instr → Option (EngShape × Bool × EngForm)
  | .sspec f => some (⟨.none, .val, .none, .none, 0x01F, true, false, 15, false⟩, false, f)
  | .sarm f => some (⟨.none, .val0, .none, .none, 0, true, false, 15, false⟩, false, f)
  | .copy f => some (⟨.valTile, .valTile, .valImm, if f.follow then .val else .none, 0x3FC, true, true, 3, false⟩, true, f)
  | .copyc f => some (⟨.none, .val, .valImm, if f.follow then .val else .none, 0, true, true, 3, false⟩, false, f)
  | .tld f => some (⟨.tile, .val, .valImm, .valImm, 0x03C, true, false, 3, true⟩, true, f)
  | .tst f => some (⟨.val, .tile, .valImm, .valImm, 0, true, false, 3, false⟩, false, f)
  | .tclr f => some (⟨.tile, .none, .none, .none, 0, false, false, 3, true⟩, false, f)
  | .mldb f => some (⟨.val, .val, .valImm, .none, 0x03C, true, false, 3, false⟩, true, f)
  | .spld f => some (⟨.val, .val, .none, .none, 0x001, true, false, 3, false⟩, false, f)
  | .mma f => some (⟨.none, .val, .none, .none, 0, false, false, 0, false⟩, false, f)
  | .mnorm f => some (⟨.none, .val, .val0, .val0, 0, true, false, 0, false⟩, false, f)
  | .gload f => some (⟨.none, .val, .none, .none, 0, true, false, 3, false⟩, false, f)
  | .gbind f => some (⟨.none, .val, .none, .none, 0, true, false, 3, false⟩, false, f)
  | .gfree f => some (⟨.none, .none, .none, .none, 0, false, false, 3, false⟩, false, f)
  | .gqry f => some (⟨.val, .none, .none, .none, 0, false, false, 3, true⟩, false, f)
  | .skbld f => some (⟨.none, .val, .valImm, .none, 0, true, false, 15, false⟩, false, f)
  | .skxch f => some (⟨.none, .val, .val, .valImm, 0, true, false, 15, false⟩, false, f)
  | .sksub f => some (⟨.val, .val, .val, .valImm, 0, true, false, 0, false⟩, false, f)
  | .skpeel f => some (⟨.val, .val, .val, .valImm, 0, true, false, 0, true⟩, false, f)
  | .skrecon f => some (⟨.none, .none, .none, .none, 0, true, false, 15, false⟩, false, f)
  | .skfix f => some (⟨.val, .val, .valImm, .none, 0x003, true, false, 15, true⟩, false, f)
  | _ => none

/-- The checks of the parser commands (R349, R216): a field that a command does not use is zero; operand kinds. -/
def checkGrm (k : ExecCtx) (ent : Bool) : Instr → Option FaultCode
  | .gstart f => grm .val0 .valImm false true true true f
  | .gstop f => grm .none .none false false true false f
  | .gmask f => grm .val .val true false false false f
  | .gfeed f => grm .val .val true true true false f
  | .gstat f => grm .val .none true false false false f
  | .gskip f =>
    if k != .action then some .illegalOp
    else match f.a with
      | .a _ => match f.b with
        | .a _ | .imm _ => if f.cc.toNat > 5 || f.z != 0 || f.n == 0 then some .illegalOperand else none
        | _ => some .illegalOperand
      | _ => some .illegalOperand
  | _ => none
where
  /-- One parser command: the kinds of D and A, whether D is a destination, and which of N, END and START's low bits with the output it uses. -/
  grm (d a : EngRole) (out n e start : Bool) (f : GrmForm) : Option FaultCode :=
    if !ctxTAS.contains k then some .illegalOp
    else if !(engCode k d out f.d && engCode k a false f.a) then some .illegalOperand
    else if f.z != 0 || (!n && f.n != 0) || (!e && f.fin) || (!start && (f.s != 0 || f.oedge != 0 || f.ovc != 0)) then
      some .illegalOperand
    else if ent && !(engKind k d f.d && engKind k a f.a) then some .illegalOperand
    else none

/-- The checks of the system instructions (R402, R405); outside system context PRIVILEGE (R224, R225 check 2). -/
def checkSys (k : ExecCtx) (ent : Bool) : Instr → Option FaultCode
  | .ctxsv f => sys (shSys .xreg .ximm .ximm .zero 0) f
  | .ctxld f => sys (shSys .xreg .ximm .ximm .zero 0) f
  | .freeze f => sys (shSys .xreg .ximm .ximm .zero 0) f
  | .rmark f => sys (shSys .xreg .ximm .ximm .ximm 0) f
  | .tlbi f => match (f.x.extractLsb' 0 2).toNat with
    | 0 => sys (shSys .zero .ximm .ximm .zero 3) f
    | 1 => sys (shSys .zero .ximm .zero .zero 3) f
    | 2 => sys (shSys .zero .zero .zero .zero 3) f
    | _ => (sys (shSys .zero .ximm .ximm .zero 3) f).or (onEntry ent (some .illegalOperand))
  | .cfgld f => sys (shSys .xreg .ximm .ximm .zero 0) f
  | .jrnl f => sys (shSys .xreg .ximm .ximm .zero 0) f
  | .sema f => sys (shSys .xreg .ximm .zero .zero 0) f
  | .sret f => sys (shSys .zero .ximm .ximm .zero 0) f
  | .haltc f => sys (shSys .xreg .ximm .ximm .zero 0) f
  | .attest f => sys (shSys .zero .ximm .ximm .ximm 0) f
  | .pgver f => sys (shSys .xreg .ximm .ximm .zero 0) f
  | .partset f => sys (shSys .xreg .ximm .ximm .zero 0) f
  | _ => none
where
  /-- PRIVILEGE comes before every other check of a system word. -/
  sys (s : RegShape) (f : RegForm) : Option FaultCode :=
    if k != .system then some .privilege else checkReg k s f

/-- The checks of a word that need no register value, in the order of R225: checks 2 to 6, and with `ent` those of
check 8; `none` when it passes. A step of the device that is no word has none. -/
def checkStage (k : ExecCtx) (ent : Bool) (i : Instr) : Option FaultCode :=
  (checkScalar k ent i).or <| (checkFlow k ent i).or <| (checkMemory k ent i).or <| (checkTask k ent i).or <|
  (match engShape i with
   | some (s, tag, f) => checkEng k ent s tag f
   | none => none).or <| (checkGrm k ent i).or (checkSys k ent i)

/-- The unit and the element of the engine that a command's fault names (R333, R389). -/
def engUnit : Instr → Option (Nat × Nat)
  | .sspec f | .sarm f => some (4, f.k.toNat)
  | .copy f | .copyc f | .tld f | .tst f | .tclr f | .mldb f | .spld f => some (6, f.k.toNat)
  | .mma _ | .mnorm _ => some (7, 0)
  | .gload f | .gbind f | .gfree f | .gqry f => some (8, f.k.toNat)
  | .skbld f | .skxch f | .skrecon f | .skfix f => some (9, f.k.toNat)
  | .sksub _ | .skpeel _ => some (9, 0)
  | .gstart f | .gstop f | .gmask f | .gfeed f | .gstat f => some (5, f.p.toNat)
  | _ => none

/-- Whether the operand codes of a command pass check 4 (R217): what fails after that is the engine's (R333). -/
def engCodesOk (k : ExecCtx) (i : Instr) : Bool :=
  match engShape i with
  | some (s, _, f) => engCodes k s f
  | none => match i with
    | .gstart f => engCode k .val0 false f.d && engCode k .valImm false f.a
    | .gstop f => engCode k .none false f.d && engCode k .none false f.a
    | .gmask f | .gfeed f => engCode k .val true f.d && engCode k .val false f.a
    | .gstat f => engCode k .val true f.d && engCode k .none false f.a
    | _ => false

/-- The engine that a fault found at issue names: that of a command that fails check 5, 6 or 8 (R333). -/
def issueUnit (k : ExecCtx) (code : FaultCode) (i : Instr) : Option (Nat × Nat) :=
  if (code == .illegalOperand || code == .tagMismatch) && engCodesOk k i then engUnit i else none

/-- Every check of a word that needs no register value (R225). -/
def checkWord (k : ExecCtx) (i : Instr) : Option FaultCode := checkStage k true i

end Sys2Proof.Machine
end

