-- ==== Sys2Proof/Machine/State.lean ====
section
/-! DEFINITION. The state of the package as plain data, the two ways a step can stop, and the state after
power-on. INVENTORY.md lists each field with the rule that names it and its reset value. Fields that the model adds
for itself (`agenda`, `focus`, `ticks`, the identity counters and the stamps that order things) say so. -/

namespace Sys2Proof.Machine
open Sys2Proof

/-! ## Stops -/

/-- Why a step of the model cannot be taken. Every fault of the spec's own (R391) is a next state instead. -/
inductive Fault where
  /-- Raised by `step` alone, when the package has lost power (R439) and the move is not the power-on. Safe: an
  unpowered package does nothing. -/
  | noPower
  deriving DecidableEq, Repr

/-- Why a step has no meaning. -/
inductive Refusal where
  /-- Raised by an arm of `exec` whose instruction has no meaning yet. Safe: nothing is claimed of it. -/
  | notModelled (mnemonic : String)
  deriving DecidableEq, Repr

/-! ## Tokens -/

/-- A token's fields (R25). -/
structure Token where
  mark : BitVec 3
  void : Bool
  tag : BitVec 4
  data : Word
  deriving DecidableEq, Repr

/-- What a data link carries: a token, or a round marker of a drain (R397). -/
inductive Flit where
  | tok (t : Token)
  | marker
  deriving DecidableEq, Repr

/-- What a control link carries: one bit (R80), or a round marker (R397). -/
inductive CFlit where
  | bit (b : Bool)
  | marker
  deriving DecidableEq, Repr

/-! ## Agents, accesses -/

/-- An agent of the ordering machine (R122). -/
inductive Agent where
  | bank (b : BankId)
  | node (pe : PeId)
  | ag (k : AgId)
  | parser (p : ParserId)
  | engine (cmd : Nat)
  | outside               -- a host, a peer (R420)
  deriving DecidableEq, Repr

/-- The unit and element that a fault record names (R389), with the work the fault stopped. -/
structure Who where
  launch : Nat
  core : CoreId
  unit : Nat
  elem : Nat
  wid : DWord
  pc : DWord
  instr : DWord
  deriving DecidableEq, Repr

/-- Where the value of a reading access goes. -/
inductive Dest where
  | none
  | xreg (b : BankId) (r : Fin 32) (sz : BitVec 2) (u : Bool)
  | lreg (pe : PeId) (r : Fin 8) (f : Fmt) (u : Bool) (word : Nat)   -- and the firing's word that asked
  | qport (pe : PeId) (slot : Nat) (f : Fmt) (u : Bool) (word : Nat)   -- the firing's output slot that waits for it
  | areg (p : ParserId) (r : Fin 16) (sz : BitVec 2) (u : Bool)
  | cont (n : Nat)                                        -- the continuation of a task's LDV
  | agSlot (k : AgId) (n : Nat)                           -- the walk position of a READ walk
  | shape (slot : Fin 8)
  | jtab (b : BankId)
  deriving DecidableEq, Repr

/-- The kinds of access (R124, R139 to R142, R134, R136, R128). -/
inductive AccKind where
  | load | store | atom | cas | append | ticket | ldv | stv | advv | reclv | fence | shape
  deriving DecidableEq, Repr

/-- One access of the ordering machine. `stage` 0 is the agent's issue queue and 1 to 4 the buffer of that level;
`entered` orders the accesses of one buffer; `waiting` marks a request in a bank's wait store. An access to a memory
tile stands at the tile's steering port from `port` on, and its response waits there with `got` (R443, R84). A store with
`exc` is a whole slot of a COMPRESS page and says whether its address enters the exception table (R147). -/
structure Access where
  id : Nat
  who : Who
  agent : Agent
  ctx : Nat
  kind : AccKind
  va : DWord
  loc : Nat
  size : Nat
  data : List Byte
  a : DWord
  b : DWord
  aop : BitVec 4
  u : Bool
  acq : Bool
  rel : Bool
  scope : Nat
  stage : Nat
  entered : Nat
  waiting : Bool
  again : Bool          -- sent back by a full wait store (R135)
  woken : Bool          -- a versioned change has woken it (R135)
  word : Option BankId  -- the bank whose outstanding count holds it
  act : Option Nat      -- the action whose word it is
  port : Option Nat     -- when it reached the steering port of its memory tile
  got : Option (DWord × DWord)  -- it has performed there, and its response has not left
  exc : Option Bool
  cls : Option (Fin 16)         -- a Chisel engine's access: the class of its command (R184)
  dest : Dest
  deriving DecidableEq, Repr

/-! ## Translation -/

/-- The rights and attributes of a leaf (R383). -/
structure Rights where
  rd : Bool
  wr : Bool
  ex : Bool
  ver : Bool
  cmp : Bool
  deriving DecidableEq, Repr

/-- One cached translation (R386): the page at `va` of 2^`bits` bytes lies at `pa`. -/
structure TlbEntry where
  ctx : Nat
  va : Nat
  bits : Nat
  pa : Nat
  rights : Rights
  deriving DecidableEq, Repr

/-- Who waits for a walk: an element, which runs its word again; an engine command; a system instruction of a core's task. -/
inductive WalkFor where
  | element
  | engine (id : Nat)
  | system (c : CoreId)
  deriving DecidableEq, Repr

/-- A miss (R386): the cycle it arrived in, and the walker that resolves it. -/
structure Walk where
  ctx : Nat
  va : Nat
  who : Who
  asker : WalkFor
  since : Nat
  walker : Option (Fin 256)
  deriving DecidableEq, Repr

/-! ## Tasks -/

/-- A register bank of the task unit (R302): `pend` marks pending registers, `come` those whose value has arrived;
the counts are those of R314. `sysq` holds the system instructions that have not completed, in issue order: number,
register, and the value once the Plinth has answered (R403). -/
structure RegBank where
  x : Vector DWord 32
  pend : BitVec 32
  come : BitVec 32
  ld : Nat
  st : Nat
  cp : Nat
  tl : Nat
  gx : Nat
  sysq : List (Nat × Fin 32 × Option DWord)
  deriving DecidableEq, Repr

/-- The action word that founded a chain (R307): parser, action, and the chain's own number. -/
structure Chain where
  parser : ParserId
  core : CoreId
  act : Nat
  n : Nat
  deriving DecidableEq, Repr

/-- A message (R303). `stamp` is the first access that its sender issued after it, for the release of R306. -/
structure Msg where
  kind : BitVec 3       -- 0 POST, 1 SEND, 2 CONT, 3 CTRL, 4 REDIR
  och : BitVec 6
  chan : BitVec 6
  words : List DWord
  wid : DWord
  src : CoreId
  chain : Option Chain
  deriving DecidableEq, Repr

/-- A message in an outgoing queue (R303). -/
structure OutMsg where
  msg : Msg
  target : CoreId
  agent : Agent
  launch : Nat
  stamp : Nat
  deriving DecidableEq, Repr

/-- What a reserved continuation waits for (R313). -/
inductive Awaits where
  | counts (ld st cp tl gx : BitVec 8)
  | barrier (b : Fin 1024) (ph : Word)
  | seq (cls : Fin 4) (v : Word)
  | answer                                -- an LDV or a range that has not answered
  | ready (words : List DWord)
  deriving DecidableEq, Repr

/-- A reserved continuation (R303, R313). -/
structure Cont where
  n : Nat
  bank : BankId
  chan : BitVec 6
  wid : DWord
  chain : Option Chain
  awaits : Awaits
  deriving DecidableEq, Repr

/-- The running task (R301, R302, R324). -/
structure Task where
  bank : BankId
  pc : DWord
  wid : DWord
  mstat : DWord
  chain : Option Chain
  deriving DecidableEq, Repr

/-- A channel-table entry (R304): its value, and a rewrite with the cycle from which it holds. -/
structure Chan where
  val : DWord
  next : Option (DWord × Nat)
  deriving DecidableEq, Repr

/-- One phase of a barrier on one core (R317). -/
structure Phase where
  cnt : Nat
  e : Nat
  s : Nat
  deriving DecidableEq, Repr

/-- A barrier of one core (R317): the current phase's counts and the next one's. -/
structure Barrier where
  phase : Word
  cur : Phase
  nxt : Phase
  deriving DecidableEq, Repr

/-- A shape slot (R143). -/
structure Shape where
  esz : BitVec 2
  base : BitVec 52
  count : Word
  deriving DecidableEq, Repr

/-- The registers held per core and context (R322, R394). -/
structure RegBlock where
  flags : BitVec 6
  policy : BitVec 3
  amax : DWord
  en : BitVec 8
  ctr : Vector DWord 8
  idxdrop : DWord
  skstat : DWord
  seqIss : Vector Word 4
  seqCmp : Vector Word 4
  deriving DecidableEq, Repr

/-! ## Streams and fabric -/

/-- A walk position whose element has been asked for (R30, R31). -/
structure AgSlot where
  n : Nat
  tok : Token
  wid : DWord
  ready : Bool
  deriving DecidableEq, Repr

/-- The walk of an address generator (R30, R33, R355). -/
structure AgWalk where
  cmd : Nat
  idx : List Nat          -- i1 upward, up to field T for a ranged walk
  fin : Bool              -- every position has been issued or consumed
  grp : Nat               -- level-T groups of the range in hand already walked (R33)
  next : Nat              -- number of the next position
  slots : List AgSlot
  deriving DecidableEq, Repr

/-- An address generator (R28 to R33, R336). -/
structure Ag where
  armed : Bool
  desc : Vector DWord 8
  base : Nat              -- walk base of R32, for fields LVLS + 1 to T
  vc : BitVec 2
  gov : Option ParserId
  walk : Option AgWalk
  stop : Bool             -- in a drain, the token before its marker has left (R397)
  drop : Bool             -- the rest of the stream is discarded (R352)
  skip : Option (Nat × Nat)  -- a WRITE walk under poison: level and number of the group being skipped (R27)
  rix : Nat               -- which of the ranges that its team has drawn it walks (R33)
  tlb : List TlbEntry
  deriving DecidableEq, Repr

/-- Which queue an enlargement or a token belongs to (R86). -/
inductive QKey where
  | pe (pe : PeId) (port : Fin 4)
  | pec (pe : PeId) (port : Fin 4)
  | mt (m : MtId) (port : Fin 4)
  | edge (k : AgId) (vc : Fin 4)               -- tokens at an edge router for its AG or its Armature lane
  | link (r : RouterId) (port : Fin 5) (vc : Fin 4)
  | post (k : AgId)                            -- control tokens that wait to post a message (R80)
  | ctl (r : RouterId) (port : Fin 5) (sub : Fin 4)
  deriving DecidableEq, Repr

/-- What a filter or a stream node holds (R40 to R43): the token held back, the block being filled, tokens ready to
leave with their output port, word and position counters, last coordinates, and a group being discarded. -/
structure Shaper where
  held : Option Token
  fill : List Token
  out : List (Fin 4 × Token)
  w : Nat
  posA : Nat
  posB : Nat
  lastA : Option Word
  lastB : Option Word
  endA : Option (BitVec 3)    -- ISECT: A's group has closed with this mark
  endB : Option (BitVec 3)
  hit : Option (Token × Token × Token)  -- ISECT: a match held until its group's mark is known
  drop : Option (Bool × Nat)  -- discard: side (false: A's tokens, true: B's), level
  bad : Bool                  -- ISECT: the groups in hand end in poison
  deriving DecidableEq, Repr

/-- One output of a firing in the order of writing (R75): ports 0 to 3 are q and 4 to 7 are e. -/
structure OutSlot where
  port : Fin 8
  tok : Token
  ready : Bool
  deriving DecidableEq, Repr

/-- A firing in progress (R74 to R78). -/
structure Firing where
  idx : Nat
  preds : List Bool
  mark : BitVec 3
  tag : BitVec 4
  poison : Option Nat
  marks : List (Fin 4 × BitVec 3 × Nat)   -- MARK: port, code, level
  tags : List (Fin 4 × BitVec 4)
  touch : List (Fin 4)                    -- ports that a MARK or a TAGSET names
  outs : List OutSlot
  took : List (Fin 8)                     -- ports to consume at the end: 0 to 3 p, 4 to 7 c
  plain : Bool                            -- its work ID is that of a stream with RNG = 0 (R32)
  picked : List (Nat × Fin 4)             -- MERGE: words that chose late, and their ports (R271)
  redo : Nat                              -- the words below it have run before in this firing (R76)
  memo : List (Nat × Word × Fmt)          -- what the reads of the firing have brought, by word
  l0 : Vector Word 8                      -- l registers, tags and seen bits as the firing began
  tag0 : Vector Fmt 8
  seen0 : BitVec 8
  deriving DecidableEq, Repr

/-- The place of an element's next token in its team's walk (R25): the fields 1 to T, the level-T groups that have gone by, and,
where the token before it was poison of a level above T (R27), that level and the team value at which it stood. -/
structure Place where
  low : Nat
  groups : Nat
  past : Option (Nat × Nat)
  deriving DecidableEq, Repr

/-- A PE node (R74). -/
structure Node where
  pe : PeId
  words : List DWord
  l : Vector Word 8
  tag : Vector Fmt 8
  init : Vector (Word × Fmt) 8
  seen : BitVec 8                          -- by instruction index (R273)
  dom : Fin 8
  daz : Bool
  ftz : Bool
  nanp : Bool
  wid : Vector Place 4                     -- place of the head token of each data port in the team's walk (R25)
  firing : Option Firing
  shaper : Shaper
  bndWait : List (Fin 8 × Nat)             -- BND: port, first access not covered by its release (R90)
  frozen : Bool
  deriving DecidableEq, Repr

/-- A router's tables and the state of its filter chains (R36, R39, R93). -/
structure Router where
  id : RouterId
  sw : List Word
  filt : Vector (List Word) 4
  ctl : List Word
  state : List (Nat × Shaper)              -- by filter: switch entry × 5 + place; place 4 keeps what leaves
  deriving DecidableEq, Repr

/-- A loop ring (R89, R94). -/
structure Ring where
  n : Nat
  head : PeId
  hport : Fin 4
  tail : PeId
  tport : Fin 4
  vc : Fin 4
  slots : List (Option Token)
  deriving DecidableEq, Repr

/-- A memory tile's ports (R81 to R84). -/
structure Mt where
  rob : Vector (List Token) 4
  wid : Vector Place 4      -- place of the head token of each stream port in the team's walk (R25)
  turn : Vector (Fin 5) 4   -- the port that each bank served last (R82)
  frozen : Bool
  deriving DecidableEq, Repr

/-! ## Parsers -/

/-- A frame of a parser's stack (R48), with the number of its production instance (R64) and the count of accepted
items at which its current iteration began. -/
structure Frame where
  prod : Nat
  pos : Nat
  iter : Bool
  inst : Nat
  accAt : Nat
  deriving DecidableEq, Repr

/-- A token in a gate with its work ID; `act` names the action whose MARK word it is (R274). -/
structure GTok where
  tok : Token
  wid : DWord
  act : Option Nat
  deriving DecidableEq, Repr

/-- An item (R46): its terminal and its tokens. A round marker, which has no terminal (R73), is no item: it stands
behind every item once the generator has stopped. -/
structure Item where
  term : Nat
  toks : List GTok
  deriving DecidableEq, Repr

/-- An action that has fired and is not known to be done (R63, R64): the instances above it and the words not yet
done. -/
structure ActRec where
  id : Nat
  path : List Nat
  left : Nat
  deriving DecidableEq, Repr

/-- An action that waits for its permit (R61). -/
structure PendAct where
  word : Nat
  recovery : Bool
  completes : Option Nat    -- the instance whose completion action it is
  path : List Nat
  a15 : DWord
  deriving DecidableEq, Repr

/-- The action being executed: the word that runs next, the first word past it, and whether it is parked (R61, R285). -/
structure ActRun where
  id : Nat
  word : Nat
  stop : Nat
  parked : Bool
  wid : DWord               -- the work ID that a15 receives at firing (R61, R312)
  deriving DecidableEq, Repr

/-- A parser's status (R72). -/
inductive PState where
  | idle | run | permit | discard | faulted
  deriving DecidableEq, Repr

/-- What a GFEED or a GSTOP asks of a parser's procedure (R204, R352). -/
structure Feed where
  cmd : Nat
  bytes : List Byte
  eos : Bool
  nacc : Nat
  st : BitVec 2
  deriving DecidableEq, Repr

/-- A parser (R18, R48, R62, R72, R207). -/
structure Parser where
  state : PState
  stopped : Bool            -- a stop string was completed (R207)
  start : Nat
  la2 : Bool
  byte : Bool
  recn : Nat
  recNow : Nat × Nat        -- the cycle of the latest recovery, and how many it had (R7)
  seqn : Nat
  stack : List Frame        -- top first
  nextInst : Nat
  a : Vector DWord 16
  mismatch : DWord
  acts : List ActRec
  nextAct : Nat
  fence : Nat               -- actions below this number are done before a new permit (R69)
  pend : Option PendAct
  run : Option ActRun
  accepted : Nat            -- items accepted, for emptyIter
  tokens : Nat              -- tokens accepted in the sequence
  lastWid : DWord           -- work ID of the last accepted token
  anyTok : Bool             -- a token has been accepted since GSTART
  opened : Bool             -- a sequence has begun and not ended
  ag : Option AgId          -- the governed stream's generator
  eos : Bool                -- the stream has ended at the tap
  fresh : List GTok         -- tokens the tap has not formed into an item
  items : List Item         -- formed and not accepted
  rel : List GTok           -- accepted and not released
  feed : Option Feed
  stopping : Option Nat     -- a GSTOP that waits for the fired actions
  hold : List Byte          -- hold-back buffer
  late : List (Nat × GTok)  -- tokens of MARK words behind that many of its bytes (R274)
  stops : List (List Byte)  -- stop strings
  outEdge : AgId
  outVc : BitVec 2
  out : List (GTok × AgId × BitVec 2)   -- tokens of a byte-mode parser, each with the emit port of its parse
  frozen : Bool
  deriving DecidableEq, Repr

/-- A grammar image as loaded (R52 to R59). -/
structure Grammar where
  la2 : Bool
  byte : Bool
  nnt : Nat
  prods : List DWord
  rhs : List DWord
  table : List (BitVec 12)
  recov : Option DWord
  acts : List DWord
  classes : List Byte
  deriving DecidableEq, Repr

/-! ## Engines -/

/-- The queues that engine commands enter (R330). -/
inductive EngQ where
  | ag (k : AgId)
  | chain (k : Fin 4)
  | matrix
  | graph
  | chisel
  | parser (p : ParserId)
  deriving DecidableEq, Repr

/-- How far a command has come. -/
inductive EngStage where
  | offered        -- at issue, its engine has not accepted it
  | queued
  | started
  | landed         -- its own work is done; its writes may still be on their way
  | complete
  deriving DecidableEq, Repr

/-- An engine command with the operand values captured for it (R329, R332). -/
structure Eng where
  id : Nat
  order : Nat               -- place in the order of acceptance
  who : Who
  agent : Agent
  ctx : Nat
  q : EngQ
  i : Instr
  d : DWord
  a : DWord
  b : DWord
  c : DWord
  desc : List DWord         -- a binding descriptor read at acceptance (R329)
  stamp : Nat               -- first access its issuer issued after it (R129)
  stage : EngStage
  follow : Option Nat       -- its follow-on MMA
  leader : Option Nat       -- the COPY that a follow-on MMA rides on
  flags : BitVec 6
  result : DWord
  act : Option Nat
  seqNo : Nat               -- its number in its SEQ class (R315)
  mute : Bool               -- its result goes nowhere: a task start has taken the register over (R302)
  deriving DecidableEq, Repr

/-- A region (R157). -/
inductive Region where
  | tile (t : Fin 16)
  | weight (n : Nat)
  | every                   -- of a command that cannot name its regions yet (log entry 75)
  deriving DecidableEq, Repr

/-- A claim on a region (R331), in the order in which claims were made. -/
structure Claim where
  cmd : Nat
  region : Region
  writer : Bool
  deriving DecidableEq, Repr

/-- One accumulator entry (R113 to R116). -/
structure AccEntry where
  val : BitVec 128
  anch : BitVec 32
  empty : Bool
  nan : Bool
  ninf : Bool
  pinf : Bool
  deriving DecidableEq, Repr

/-- One accumulator row (R152, R342): its format (0 when no command has set it), its chain count and its entries. -/
structure AccRow where
  fmt : BitVec 4
  count : BitVec 128        -- R161 needs more than the 64 bits of R152 (log 52)
  entries : List AccEntry
  deriving DecidableEq, Repr

/-- A vector on its way through the Armature (R174 to R176): results not yet delivered and what they carry. -/
structure Vec where
  n : Nat
  out : List Word
  sent : Nat                -- results already delivered
  tag : BitVec 4
  mark : BitVec 3
  void : Bool
  deriving DecidableEq, Repr

/-- A binding in force (R171, R178). -/
structure Bind where
  cmd : Nat
  desc : Vector DWord 4
  next : Nat                -- next vector of a TILE run
  group : List Token        -- tokens of the group being gathered from a lane
  full : List (List Token)  -- groups that the quantiser holds complete (R173)
  wid : Place               -- place of the next lane token in the team's walk (R25)
  closing : Bool            -- it takes no further group (R178)
  fly : List Vec
  deriving DecidableEq, Repr

/-- A resident graph (R163 to R170). -/
structure Graph where
  image : List DWord
  nnode : Nat
  nin : Nat
  ntap : Nat
  i16 : Bool
  bay0 : Nat
  nbay : Nat
  xing : Nat
  depth : Nat
  bind : Option Bind
  deriving DecidableEq, Repr

/-- A core (R10). -/
structure Core where
  holder : Option Nat       -- the launch
  halted : Bool
  resetting : Bool
  guardV : Byte
  team : Nat
  inTeam : Bool
  finished : Bool           -- no further team will run here (R317)
  stage : Nat
  inRange : Option (Nat × Nat)  -- range in hand of a pipelined core (R378)
  blk : RegBlock
  seqLate : Vector (List Nat) 4 -- commands completed ahead of CMP (R315)
  banks : Vector RegBank 4
  task : Option Task
  lastPc : DWord
  chtab : Vector Chan 64
  store : List Msg
  conts : List Cont
  outq : List OutMsg
  doneChains : List Nat     -- chains whose done token has been sent (R307)
  barriers : List (Fin 1024 × Barrier)
  arrivals : List (ParserId × Nat × Fin 1024 × Word) -- an action's BARA and the phase it joined (R63)
  shapes : Vector Shape 8
  ags : Vector Ag 16
  drawn : List (Fin 64 × List (Nat × Nat) × Bool)  -- ranges that the core's team has drawn, by queue; exhausted (R33)
  nodes : List Node
  routers : List Router
  dscope : BitVec 24
  mts : Vector Mt 32
  queues : List (QKey × List Flit)
  cqueues : List (QKey × List CFlit)
  rings : List Ring
  extra : List (QKey × Nat)
  pool : Nat
  grammar : Option Grammar
  parsers : Vector Parser 4
  tiles : Vector Fmt 16     -- tile tags
  accum : Vector AccRow 128
  sparse : List (Nat × Nat) -- sparse-valid marks: block, N (R156)
  claims : List Claim
  graphs : Vector (Option Graph) 4
  armTurn : Fin 4           -- the handle whose vector the Armature took last (R176)
  lastAct : Nat             -- the latest cycle at which a unit of the core took a step (R86)
  frozen : List Elem        -- elements frozen in a drain (R397)
  flagsNow : Nat × BitVec 6 -- the latest cycle in which flags were raised, and those raised in it (R7)
  dropNow : Nat × Nat × Nat -- the same of IDXDROP: gather and scatter indices
  cntNow : Nat × Vector DWord 8 -- the latest cycle in which counters counted, and their events in it (R325)
  confAt : Option Nat       -- the cycle in which CONF of SKSTAT was set (R7)
  tabTurn : ParserId        -- the parser that the table port served last (R50)
  actTurn : ParserId        -- the parser that the action unit served last
  folded : Bool             -- a generation-3 record runs folded (R432)
  foldLast : List PeId      -- of each folded PE, the node that fired last
  deriving DecidableEq, Repr

/-! ## Dies -/

/-- A registered update-set class (R183). -/
structure Cls where
  ctx : Nat
  desc : Vector DWord 4
  deriving DecidableEq, Repr

/-- A side of a session that waits for its peer or has been paired (R191). -/
structure Side where
  slot : Fin 16
  cmd : Nat
  who : Who
  expert : Bool
  s : Nat
  g : Nat
  rounds : Nat
  paired : Bool
  appl : Nat                -- entries that its session has written to the local table (R197)
  deriving DecidableEq, Repr

/-- The session an engine is running (R192, R198). -/
structure Session where
  side : Side
  round : Nat
  s : Nat
  fallback : Bool           -- the rounds are over and R193 runs or has run
  committed : Bool          -- its commit point is passed
  conf : Bool               -- a conflict ended its rounds
  deriving DecidableEq, Repr

/-- A range queue of a die's range server (R377), with the requests that wait at it. -/
structure RangeQ where
  launch : Nat
  ranges : List (Nat × Nat)
  asks : List (Nat × CoreId × Option Nat) -- cycle of arrival; core; a continuation, or a team's address generators
  deriving DecidableEq, Repr

/-- Event counts of a die (R425, DEVSTAT). -/
structure DevStat where
  drops : Word
  sram : Word
  dram : Word
  retries : Word
  deriving DecidableEq, Repr

/-- A die (R1). -/
structure Die where
  slotTable : DWord
  queueMap : DWord
  stepped : Bool
  temp : BitVec 8
  tempAt : Option Nat       -- the cycle in which it was measured (R439)
  stat : DevStat
  tlb : List TlbEntry
  walks : List Walk
  rqs : List (Fin 64 × RangeQ)
  classes : Vector (Option Cls) 16
  sides : List Side
  session : Option Session
  excs : List Nat           -- compression exception table (R147)
  deriving DecidableEq, Repr

/-! ## Launches, contexts, the Plinth -/

/-- The statuses (R367). -/
inductive Status where
  | complete | faulted | resource | imageInvalid | scopeChannel | loopLatency | signature | cancelled | partition
  deriving DecidableEq, Repr

/-- A fault chosen for a launch's record (R21, R388), with the cycle it was raised in and the faults of that cycle
discarded. -/
structure FaultRec where
  code : FaultCode
  who : Who
  addr : DWord
  extra : DWord
  ndisc : Nat
  cycle : Nat
  deriving DecidableEq, Repr

/-- Who asked the Plinth for something, and where the answer goes. -/
inductive Asker where
  | task (c : CoreId) (b : BankId) (n : Nat)
  | port (seq : Nat)
  | saved (ctx i : Nat) (b : BankId) (n : Nat)   -- a task of a held launch, on its core of that index (R395)
  | nobody                                          -- the launch that asked has ended
  deriving DecidableEq, Repr

/-- The life of an launch that has been let in. -/
inductive LPhase where
  | loading
  | running
  | freezing
  | draining (k : Nat) (since : Nat)
  | ending             -- its status is chosen; it is being taken down or has completed
  | torn               -- taken down; its status entry is to be written
  | written            -- its status entry is written; cores are going back
  deriving DecidableEq, Repr

/-- An launch that has been let in (R21, R368, R376 to R379, R393). -/
structure Launch where
  id : Nat
  ctx : Nat
  q : Fin 16
  seq : Nat
  recd : Vector DWord 16
  grant : Nat
  cores : List CoreId       -- in ascending order at admission; a gang stands together
  phase : LPhase
  status : Option Status
  endedAt : Nat             -- the cycle in which its status was chosen
  fault : Option FaultRec
  raisers : List (CoreId × Nat × Nat)  -- core, unit and element of each that has raised a fault in the cycle of `fault`
  nextTeam : Nat
  rdie : DieId
  stageQs : List (List (Nat × Nat))    -- input queues of stages 1 upward
  roomWaits : List (CoreId × Nat × Nat × Nat × Nat)  -- completed ranges waiting for room: core, stage, start, count, request
  progress : Nat            -- the latest cycle of a progress event (R393)
  stoppers : List (Asker × Bool)       -- who waits for its freeze or drain; false for a FREEZE that stopped it
  pages : List (Nat × Nat)  -- pages of its code object: first page VA, pages
  deriving DecidableEq, Repr

/-- What a core image's private part stands for: the number of the core it was saved from, its state, and the accesses and
commands of its agents (R394, R396). -/
structure CoreImage where
  home : CoreId
  core : Core
  accs : List Access
  engs : List Eng
  deriving DecidableEq, Repr

/-- A held launch (R394, R396): the launch with its cores' state and its accesses in the wait stores. `mem` holds
the bytes of each core's scratchpad, tiles and weight-store slice by their offset in the core image. -/
structure Held where
  launch : Launch
  cores : List (CoreId × Core)
  mem : List (List (Nat × Byte))
  accs : List Access
  engs : List Eng
  deriving DecidableEq, Repr

/-- A launch queue (R364), its candidate (R365), and records already given a status or cancelled (R371, R380). -/
structure Queue where
  v : Bool
  halt : Bool
  lsize : Nat
  rbase : BitVec 52
  sbase : BitVec 52
  tail : Nat
  head : Nat
  done : Nat
  cand : Option (Vector DWord 16)
  candRanges : List (Nat × Nat)    -- the candidate's range table
  depOk : Bool                     -- the candidate waits for no dependence
  cancels : List Nat
  given : List (Nat × Status)
  heldStatus : Option (Nat × Status × Nat)  -- a status not yet written: sequence, status, grant (R366)
  deriving DecidableEq, Repr

/-- A loaded code object of a context (R222, R400, R435): manifest VA, first page, pages, and its manifest's bytes with
the page hashes. -/
structure CodeObj where
  va : Nat
  first : Nat
  npage : Nat
  manifest : List Byte
  untrusted : Bool
  deriving DecidableEq, Repr

/-- A context (R362, R364, R394). -/
structure Ctx where
  n : Nat
  sys : Bool
  part : Fin 16
  root : Nat
  save : Nat
  qtab : Nat
  kmask : BitVec 8
  pmin : Nat
  maxc : Nat
  skcells : BitVec 4
  skgrow : BitVec 2
  skrnd : BitVec 3
  queues : Vector Queue 16
  blocks : List (CoreId × RegBlock)
  ring : List (Nat × List DWord)   -- slot, record
  fhead : Nat
  held : Option Held
  restore : Option Asker           -- its held launch is a candidate (R407)
  restored : Option Nat            -- granted again: the launch whose restore is to be resumed
  objs : List CodeObj
  checked : List (Nat × Nat)       -- pages that have passed, each with where it then lay (R400, R222)
  checks : List (Nat × Who)        -- pages whose check is awaited
  svcQ : Fin 16                    -- its queue pointer (R372)
  deriving DecidableEq, Repr

/-- A page the Plinth owns for a context (R427). -/
structure PageRec where
  ctx : Option Nat
  table : Bool
  base : Nat
  len : Nat
  ver : Bool
  cmp : Bool
  deriving DecidableEq, Repr

/-- The holder of CPSEM (R413). -/
inductive Holder where
  | free
  | port (p : Port)
  | sys (ctx : Nat)
  deriving DecidableEq, Repr

/-- The state of a Frieze entry (R429). -/
inductive FzState where
  | accepted | done | failed | corrupt
  deriving DecidableEq, Repr

/-- A Frieze entry (R429). -/
structure FzEntry where
  seq : Nat
  code : Nat
  state : FzState
  srck : Nat
  ctx : Nat
  q : Nat
  rid : Word
  result : DWord
  payload : List DWord
  deriving DecidableEq, Repr

/-- A response to a host (R422), or the reply to an RMA packet (R420). -/
inductive Reply where
  | command (port : Port) (rid : Word) (seq : Nat) (result : DWord) (block : List Byte)
  | rmaAck
  | rmaData (data : List Byte)
  | unsupported
  | error
  deriving DecidableEq, Repr

/-- A request to the Plinth that has been taken and not answered (R403, R406, R407, R414, R415). -/
inductive SysWork where
  | halt (c : CoreId)
  | setGuard (c : CoreId) (v : Byte)
  | classFree (die : DieId) (slot : Fin 16)
  | sysrt
  | cfg (item v : Nat)      -- CFGLD behind an unfinished word of its bank (R410)
  deriving DecidableEq, Repr

/-- An entry of the peer table (R425). -/
structure Peer where
  pkg : Nat
  addr : DWord
  dom : BitVec 8
  deriving DecidableEq, Repr

/-- A key slot in flash (R436). -/
inductive KeySlot where
  | empty
  | active (key : List Byte)
  | revoked
  deriving DecidableEq, Repr

/-! ## The model's own -/

/-- Which agent moves: an event of the device, a running task, a node's next instruction, the next action word of a
parser, or the next accepted command. The model's own (log entry 1). -/
inductive Move where
  | event (i : Instr)
  | task (c : CoreId)
  | node (c : CoreId) (pe : PeId)
  | action (c : CoreId) (p : ParserId)
  | command
  deriving DecidableEq, Repr, Inhabited

/-- The agent for which an instruction word runs. The model's own (log entry 2). -/
inductive Focus where
  | task (c : CoreId)
  | node (c : CoreId) (pe : PeId)
  | action (c : CoreId) (p : ParserId)
  deriving DecidableEq, Repr

/-- Memory: (location, byte) pairs, locations strictly rising, no entry 0 (an unlisted location reads 0). -/
abbrev Memory := List Host.Cell

/-- The package. -/
structure State where
  -- the model's own
  agenda : List Move
  focus : Option Focus
  ticks : Nat
  nextId : Nat              -- numbers accesses, commands, continuations, launches and chains in order
  -- package
  now : Nat
  bootStep : Nat            -- 1 to 8 the step to take, 9 the ports are open, 10 stopped
  powered : Bool
  lastTrip : Bool
  bootCount : DWord
  fwBanks : List (List Byte)
  fwFirst : Nat             -- the bank that step 1 of bring-up reads first
  portsUp : Vector Bool 8   -- the Ethernet ports, two on each die, that have trained (R1, R440)
  fwDigest : List Byte
  keySlots : Vector KeySlot 8
  wdp : BitVec 6
  scrub : BitVec 6
  cpsem : Holder
  cpsemAt : Nat
  tookAt : Vector (Option Nat) 2      -- the cycle in which each command port last took a command (R423)
  lastReach : Nat × Nat               -- the latest cycle in which a request reached the master Plinth; its place in it (R403)
  cmds : List (Nat × Cmd)             -- accepted, not executed: code and command, in sequence order
  frieze : List FzEntry
  fzseq : Nat
  repeats : List (Port × Word × Nat)  -- commands sent again while their entry is not done (R424)
  jobs : List (Nat × Nat)
  peers : List Peer
  ownPkg : Nat
  pages : List PageRec
  replies : List Reply
  sysWork : List (Asker × SysWork)
  svcCtx : List (Nat × Nat × Nat)     -- partition, level, context the pointer stands at (R372)
  bad : List Nat                      -- locations of words with bad check bits (R437)
  walked : List (WalkFor × Nat × Nat) -- pages (context, number) whose walk has answered its asker (R386)
  streams : List (List Byte × CoreImage)  -- readout streams that the device has written, and what they hold (R394, R399)
  -- dies, cores, contexts, launches
  dies : Vector Die 4
  cores : Vector Core 256
  ctxs : List Ctx
  launches : List Launch
  -- memory and ordering
  mem : Memory
  accs : List Access
  engs : List Eng
  deriving DecidableEq, Repr

/-! ## Reset -/

/-- A register bank after its core's configuration (R392). -/
def RegBank.zero : RegBank := ⟨Vector.replicate 32 0, 0, 0, 0, 0, 0, 0, 0, []⟩

/-- The register block at a context's creation (R110, R325): zero, with every counter enabled. -/
def RegBlock.zero : RegBlock :=
  ⟨0, 0, 0, 0xFF, Vector.replicate 8 0, 0, 0, Vector.replicate 4 0, Vector.replicate 4 0⟩

/-- A stream node or filter that holds nothing. -/
def Shaper.zero : Shaper := ⟨none, [], [], 0, 0, 0, none, none, none, none, none, none, false⟩

/-- An address generator that no SSPEC has armed. -/
def Ag.zero : Ag := ⟨false, Vector.replicate 8 0, 0, 0, none, none, false, false, none, 0, []⟩

/-- The start of a team's walk. -/
def Place.zero : Place := ⟨0, 0, none⟩

/-- A memory tile whose ports hold nothing; each bank looks at port 0 first (log entry 17). -/
def Mt.zero : Mt := ⟨Vector.replicate 4 [], Vector.replicate 4 Place.zero, Vector.replicate 4 4, false⟩

/-- An idle parser (R351, R392). -/
def Parser.zero : Parser where
  state := .idle
  stopped := false
  start := 0
  la2 := false
  byte := false
  recn := 0
  recNow := (0, 0)
  seqn := 0
  stack := []
  nextInst := 1
  a := Vector.replicate 16 0
  mismatch := 0
  acts := []
  nextAct := 1
  fence := 0
  pend := none
  run := none
  accepted := 0
  tokens := 0
  lastWid := 0
  anyTok := false
  opened := false
  ag := none
  eos := false
  fresh := []
  items := []
  rel := []
  feed := none
  stopping := none
  hold := []
  late := []
  stops := []
  outEdge := 0
  outVc := 0
  out := []
  frozen := false

/-- An accumulator row of format 0 (R342, R392). -/
def AccRow.zero : AccRow := ⟨0, 0, []⟩

/-- A core as configuration for a launch begins (R392), with no image; each round-robin looks at number 0 first (log entry 17). -/
def Core.zero : Core where
  holder := none
  halted := false
  resetting := false
  guardV := 0
  team := 0
  inTeam := false
  finished := false
  stage := 0
  inRange := none
  blk := RegBlock.zero
  seqLate := Vector.replicate 4 []
  banks := Vector.replicate 4 RegBank.zero
  task := none
  lastPc := 0
  chtab := Vector.replicate 64 ⟨0, none⟩
  store := []
  conts := []
  outq := []
  doneChains := []
  barriers := []
  arrivals := []
  shapes := Vector.replicate 8 ⟨0, 0, 0⟩
  ags := Vector.replicate 16 Ag.zero
  drawn := []
  nodes := []
  routers := []
  dscope := 0
  mts := Vector.replicate 32 Mt.zero
  queues := []
  cqueues := []
  rings := []
  extra := []
  pool := 4096
  grammar := none
  parsers := Vector.replicate 4 Parser.zero
  tiles := Vector.replicate 16 .raw
  accum := Vector.replicate 128 AccRow.zero
  sparse := []
  claims := []
  graphs := Vector.replicate 4 none
  armTurn := 3
  lastAct := 0
  frozen := []
  flagsNow := (0, 0)
  dropNow := (0, 0, 0)
  cntNow := (0, Vector.replicate 8 0)
  confAt := none
  tabTurn := 3
  actTurn := 3
  folded := false
  foldLast := []

/-- A die at boot (R440 step 7). -/
def Die.zero : Die :=
  ⟨0, 0, false, 0, none, ⟨0, 0, 0, 0⟩, [], [], [], Vector.replicate 16 none, [], none, []⟩

/-- A queue that is not valid (R364). -/
def Queue.zero : Queue := ⟨false, false, 0, 0, 0, 0, 0, 0, none, [], false, [], [], none⟩

/-- The package at power-on: nothing brought up yet (R440). Values the spec does not give are named in log
entries 1 to 6. -/
def State.reset : State where
  agenda := []
  focus := none
  ticks := 0
  nextId := 1
  now := 0
  bootStep := 1
  powered := true
  lastTrip := false
  bootCount := 0
  fwBanks := [[], []]
  fwFirst := 0
  portsUp := Vector.replicate 8 false
  fwDigest := []
  keySlots := Vector.replicate 8 .empty
  wdp := 26
  scrub := 32
  cpsem := .free
  cpsemAt := 0
  tookAt := Vector.replicate 2 none
  lastReach := (0, 0)
  cmds := []
  frieze := []
  fzseq := 0
  repeats := []
  jobs := []
  peers := []
  ownPkg := 0
  pages := []
  replies := []
  sysWork := []
  svcCtx := []
  bad := []
  walked := []
  streams := []
  dies := Vector.replicate 4 Die.zero
  cores := Vector.replicate 256 Core.zero
  ctxs := []
  launches := []
  mem := []
  accs := []
  engs := []

end Sys2Proof.Machine
end

