-- ==== Sys2Proof/Config.lean ====
section
/-! DEFINITION. What the spec leaves to the implementation or leaves open, as constants without a body: nothing can
evaluate them, so a claim holds whatever they are. Each is named in a log entry (notes/assumptions). -/

namespace Sys2Proof.Config
open Sys2Proof Sys2Proof.Machine

/-- The move the device makes at a tick when the agenda is empty (log entry 1). -/
opaque freeMove : Nat → Move
/-- How many cycles pass before the move of a tick (log entry 3). -/
opaque elapse : Nat → Nat
/-- A free choice among alternatives that the spec does not order: TLB victim (R386), the walk that ends next (R386), pages
and context number (R425), token chosen; by tick, and by the number of the choice within it (log entry 2). -/
opaque choice : Nat → Nat → Nat
/-- The compression marker of a die in the boot of that count (R147, log entry 7). -/
opaque marker : DWord → DieId → DWord
/-- The readout stream of a core image: its private bytes (R394, log entry 8). -/
opaque readout : CoreImage → Nat → Byte
/-- What a readout stream stands for, when its CRC and tags are good (R394, R407, log entry 8). -/
opaque readin : List Byte → Option CoreImage
/-- The signature that the device identity key makes over a digest (R416, log entry 9). -/
opaque sign : List Byte → List Byte
/-- The identity certificate's bytes that the spec does not fix: public point, serial number, vendor signature
(R436, log entry 9). -/
opaque certificate : Nat → Byte
/-- Whether a firmware image of a bank is one that the fused vendor key has signed: the spec gives no image format
(R425, R440, log entry 9). -/
opaque firmwareGood : List Byte → Bool
/-- The length of the firmware image at an address, from its first bytes (R425, log entry 9). -/
opaque firmwareLength : List Byte → Nat
/-- The channel table that the .channel directives of a code object give, from its manifest: the spec gives no place for
it in the object (R304, log entry 23). -/
opaque channelTable : List Byte → Nat → DWord
/-- What a token of an MT's stream port asks of the tile (R81 gives no format, log entry 10): offset in the tile,
whether it stores, its atomic operation if any, and its operand. -/
opaque mtRequest : Token → BitVec 16 × Bool × Option (BitVec 4) × Word
/-- Whether an MT sends its done token when it has served a request: R80 names the token and no rule says when it is sent
(log entry 10). -/
opaque mtDone : Token → Bool
/-- The slot of R434 in which a cycle falls: the spec gives a frame 16 slots and a slot no length (log entry 73). -/
opaque slotAt : Nat → Fin 16
/-- The junction temperature that a die measures in a cycle, in °C (R439, log entry 74). -/
opaque temp : DieId → Nat → BitVec 8
/-- The flits that a die's links have sent again by a cycle, beside those of links that gave up: the spec gives no rate (R425, R437,
log entry 30). -/
opaque retries : DieId → Nat → Word
/-- A value the spec leaves undefined, fresh at each tick (log entry 2). -/
opaque freeWord : Nat → DWord

end Sys2Proof.Config
end

