-- ==== Sys2Proof/Decode.lean ====
section
/-! DEFINITION. Instruction words and command codes: the decoder, total on all words, and the encoder written from
the same tables (R210, R213 to R217, R223, R349, R59, R425). An unassigned opcode, and a record that does not run as
code (R224), decode to nothing. -/

namespace Sys2Proof

/-! ## Bytes and bit fields -/

/-- The upper `n` bits of a word of `n + m`. -/
def hiBits (n m : Nat) (w : BitVec (n + m)) : BitVec n := w.extractLsb' m n
/-- The lower `m` bits of a word of `n + m`. -/
def loBits (n m : Nat) (w : BitVec (n + m)) : BitVec m := w.extractLsb' 0 m

/-- `n` bytes of a number, little-endian (R3). -/
def bytesLE : Nat → Nat → List Byte
  | 0, _ => []
  | n + 1, v => BitVec.ofNat 8 v :: bytesLE n (v / 256)

/-- The number that bytes hold, little-endian (R3). -/
def natLE : List Byte → Nat
  | [] => 0
  | b :: bs => b.toNat + 256 * natLE bs

/-- A dword held in 8 bytes (R3). -/
def dwordLE (bs : List Byte) : DWord := BitVec.ofNat 64 (natLE bs)

/-- Bits [hi:lo] of a dword as a number (R3). -/
def field (w : DWord) (hi lo : Nat) : Nat := (w.toNat / 2 ^ lo) % 2 ^ (hi + 1 - lo)

/-- One bit of a dword. -/
def bitOf (w : DWord) (i : Nat) : Bool := w.getLsbD i

/-- The dwords of a byte list, as long as 8 bytes are left. -/
def dwordsLE : Nat → List Byte → List DWord
  | 0, _ => []
  | n + 1, bs => if bs.length < 8 then [] else dwordLE (bs.take 8) :: dwordsLE n (bs.drop 8)

/-! ## Operand codes (R217) -/

/-- The operand that an 8-bit code names. -/
def Operand.ofCode (v : BitVec 8) : Operand :=
  let n := v.toNat
  if h : n < 0x20 then .x ⟨n, h⟩
  else if h : n - 0x20 < 8 then .l ⟨n - 0x20, h⟩
  else if h : n - 0x28 < 4 then .p ⟨n - 0x28, h⟩
  else if h : n - 0x2C < 4 then .q ⟨n - 0x2C, h⟩
  else if h : n - 0x30 < 4 then .c ⟨n - 0x30, h⟩
  else if h : n - 0x34 < 4 then .e ⟨n - 0x34, h⟩
  else if h : n - 0x38 < 16 then .t ⟨n - 0x38, h⟩
  else if h : n - 0x48 < 16 then .a ⟨n - 0x48, h⟩
  else if h : n - 0x58 < 40 then .reserved ⟨n - 0x58, h⟩
  else .imm (BitVec.ofNat 7 n)

/-- The 8-bit code of an operand. -/
def Operand.toCode : Operand → BitVec 8
  | .x i => BitVec.ofNat 8 i.val
  | .l i => BitVec.ofNat 8 (0x20 + i.val)
  | .p i => BitVec.ofNat 8 (0x28 + i.val)
  | .q i => BitVec.ofNat 8 (0x2C + i.val)
  | .c i => BitVec.ofNat 8 (0x30 + i.val)
  | .e i => BitVec.ofNat 8 (0x34 + i.val)
  | .t i => BitVec.ofNat 8 (0x38 + i.val)
  | .a i => BitVec.ofNat 8 (0x48 + i.val)
  | .reserved i => BitVec.ofNat 8 (0x58 + i.val)
  | .imm v => BitVec.ofNat 8 (0x80 + v.toNat)

/-! ## Forms (R210): bits [55:0] -/

/-- F-REG and F-SYS. -/
def regOfBits (w : BitVec 56) : RegForm :=
  let r1 := loBits 8 48 w
  let r2 := loBits 8 40 r1
  let r3 := loBits 8 32 r2
  let r4 := loBits 8 24 r3
  ⟨.ofCode (hiBits 8 48 w), .ofCode (hiBits 8 40 r1), .ofCode (hiBits 8 32 r2), .ofCode (hiBits 8 24 r3),
    hiBits 8 16 r4, loBits 8 16 r4⟩

/-- The bits of F-REG and F-SYS. -/
def regBits (f : RegForm) : BitVec 56 :=
  f.d.toCode ++ (f.a.toCode ++ (f.b.toCode ++ (f.c.toCode ++ (f.m ++ f.x : BitVec 24) : BitVec 32) : BitVec 40) : BitVec 48)

/-- F-IMM. -/
def immOfBits (w : BitVec 56) : ImmForm :=
  let r1 := loBits 8 48 w
  let r2 := loBits 8 40 r1
  ⟨.ofCode (hiBits 8 48 w), .ofCode (hiBits 8 40 r1), hiBits 8 32 r2, loBits 8 32 r2⟩

/-- The bits of F-IMM. -/
def immBits (f : ImmForm) : BitVec 56 :=
  f.d.toCode ++ (f.a.toCode ++ (f.m ++ f.imm : BitVec 40) : BitVec 48)

/-- F-BR. -/
def brOfBits (w : BitVec 56) : BrForm :=
  let r1 := loBits 8 48 w
  let r2 := loBits 8 40 r1
  ⟨.ofCode (hiBits 8 48 w), .ofCode (hiBits 8 40 r1), hiBits 8 32 r2, loBits 8 32 r2⟩

/-- The bits of F-BR. -/
def brBits (f : BrForm) : BitVec 56 :=
  f.a.toCode ++ (f.b.toCode ++ (f.cc ++ f.off : BitVec 40) : BitVec 48)

/-- F-WAIT. -/
def waitOfBits (w : BitVec 56) : WaitForm :=
  let r1 := loBits 8 48 w
  let r2 := loBits 8 40 r1
  let r3 := loBits 8 32 r2
  let r4 := loBits 8 24 r3
  let r5 := loBits 8 16 r4
  ⟨hiBits 8 48 w, hiBits 8 40 r1, hiBits 8 32 r2, hiBits 8 24 r3, hiBits 8 16 r4, hiBits 8 8 r5, loBits 8 8 r5⟩

/-- The bits of F-WAIT. -/
def waitBits (f : WaitForm) : BitVec 56 :=
  f.ld ++ (f.st ++ (f.cp ++ (f.tl ++ (f.gx ++ (f.chan ++ f.z : BitVec 16) : BitVec 24) : BitVec 32) : BitVec 40) : BitVec 48)

/-- A one-bit field as a Boolean. -/
def boolOf (b : BitVec 1) : Bool := b == 1
/-- A Boolean as a one-bit field. -/
def bitFor (b : Bool) : BitVec 1 := BitVec.ofBool b

/-- F-ENG (R215). -/
def engOfBits (w : BitVec 56) : EngForm :=
  let r1 := loBits 8 48 w
  let r2 := loBits 8 40 r1
  let r3 := loBits 8 32 r2
  let r4 := loBits 8 24 r3
  let r5 := loBits 1 23 r4
  let r6 := loBits 1 22 r5
  let r7 := loBits 3 19 r6
  let r8 := loBits 1 18 r7
  ⟨.ofCode (hiBits 8 48 w), .ofCode (hiBits 8 40 r1), .ofCode (hiBits 8 32 r2), .ofCode (hiBits 8 24 r3),
    boolOf (hiBits 1 23 r4), boolOf (hiBits 1 22 r5), hiBits 3 19 r6, boolOf (hiBits 1 18 r7), hiBits 10 8 r8,
    loBits 10 8 r8⟩

/-- The bits of F-ENG. -/
def engBits (f : EngForm) : BitVec 56 :=
  f.d.toCode ++ (f.a.toCode ++ (f.b.toCode ++ (f.c.toCode ++ (bitFor f.acq ++ (bitFor f.rel ++ (f.scope ++
    (bitFor f.follow ++ (f.cfl ++ f.k : BitVec 18) : BitVec 19) : BitVec 22) : BitVec 23) : BitVec 24) : BitVec 32)
    : BitVec 40) : BitVec 48)

/-- The parser commands of F-GRM (R349). -/
def grmOfBits (w : BitVec 56) : GrmForm :=
  let r1 := loBits 8 48 w
  let r2 := loBits 8 40 r1
  let r3 := loBits 3 37 r2
  let r4 := loBits 1 36 r3
  let r5 := loBits 2 34 r4
  let r6 := loBits 2 32 r5
  let r7 := loBits 4 28 r6
  ⟨.ofCode (hiBits 8 48 w), .ofCode (hiBits 8 40 r1), hiBits 3 37 r2, boolOf (hiBits 1 36 r3), hiBits 2 34 r4,
    hiBits 2 32 r5, hiBits 4 28 r6, hiBits 2 26 r7, loBits 2 26 r7⟩

/-- The bits of a parser command. -/
def grmBits (f : GrmForm) : BitVec 56 :=
  f.d.toCode ++ (f.a.toCode ++ (f.n ++ (bitFor f.fin ++ (f.s ++ (f.p ++ (f.oedge ++ (f.ovc ++ f.z : BitVec 28)
    : BitVec 32) : BitVec 34) : BitVec 36) : BitVec 37) : BitVec 40) : BitVec 48)

/-- GSKIP (R59). -/
def skipOfBits (w : BitVec 56) : SkipForm :=
  let r1 := loBits 8 48 w
  let r2 := loBits 8 40 r1
  let r3 := loBits 8 32 r2
  ⟨.ofCode (hiBits 8 48 w), .ofCode (hiBits 8 40 r1), hiBits 8 32 r2, hiBits 29 3 r3, loBits 29 3 r3⟩

/-- The bits of GSKIP. -/
def skipBits (f : SkipForm) : BitVec 56 :=
  f.a.toCode ++ (f.b.toCode ++ (f.cc ++ (f.z ++ f.n : BitVec 32) : BitVec 40) : BitVec 48)

/-! ## Words (R209, R223) -/

/-- The instruction of an opcode and bits [55:0]; none for an unassigned opcode and for a record that does not run
as code (R224). -/
def decodeOp (op : Nat) (r : BitVec 56) : Option Instr :=
  match op with
  | 0x01 => some (.add (regOfBits r))
  | 0x02 => some (.addi (immOfBits r))
  | 0x03 => some (.sub (regOfBits r))
  | 0x04 => some (.mul (regOfBits r))
  | 0x05 => some (.mulh (regOfBits r))
  | 0x06 => some (.muli (immOfBits r))
  | 0x07 => some (.div (regOfBits r))
  | 0x08 => some (.rem (regOfBits r))
  | 0x09 => some (.and (regOfBits r))
  | 0x0A => some (.andi (immOfBits r))
  | 0x0B => some (.or (regOfBits r))
  | 0x0C => some (.ori (immOfBits r))
  | 0x0D => some (.xor (regOfBits r))
  | 0x0E => some (.xori (immOfBits r))
  | 0x0F => some (.andn (regOfBits r))
  | 0x10 => some (.shl (regOfBits r))
  | 0x11 => some (.shli (immOfBits r))
  | 0x12 => some (.shr (regOfBits r))
  | 0x13 => some (.shri (immOfBits r))
  | 0x14 => some (.sar (regOfBits r))
  | 0x15 => some (.sari (immOfBits r))
  | 0x16 => some (.min (regOfBits r))
  | 0x17 => some (.max (regOfBits r))
  | 0x18 => some (.clz (regOfBits r))
  | 0x19 => some (.popc (regOfBits r))
  | 0x1A => some (.bfx (regOfBits r))
  | 0x1B => some (.bfi (regOfBits r))
  | 0x1C => some (.cmp (regOfBits r))
  | 0x1D => some (.cmpi (immOfBits r))
  | 0x1E => some (.mov (regOfBits r))
  | 0x1F => some (.movi (immOfBits r))
  | 0x20 => some (.fadd (regOfBits r))
  | 0x21 => some (.fsub (regOfBits r))
  | 0x22 => some (.fmul (regOfBits r))
  | 0x23 => some (.fma (regOfBits r))
  | 0x24 => some (.fmin (regOfBits r))
  | 0x25 => some (.fmax (regOfBits r))
  | 0x26 => some (.fcmp (regOfBits r))
  | 0x27 => some (.fsgn (regOfBits r))
  | 0x28 => some (.frcp (regOfBits r))
  | 0x29 => some (.frsq (regOfBits r))
  | 0x2A => some (.fexp2 (regOfBits r))
  | 0x2B => some (.flog2 (regOfBits r))
  | 0x2C => some (.frnd (regOfBits r))
  | 0x2D => some (.cvt (regOfBits r))
  | 0x2E => some (.cvts (regOfBits r))
  | 0x2F => some (.fcls (regOfBits r))
  | 0x30 => some (.selt (regOfBits r))
  | 0x31 => some (.steer (regOfBits r))
  | 0x32 => some (.gate (regOfBits r))
  | 0x33 => some (.merge (regOfBits r))
  | 0x34 => some (.emit (regOfBits r))
  | 0x35 => some (.mark (regOfBits r))
  | 0x36 => some (.acc (regOfBits r))
  | 0x37 => some (.tagset (regOfBits r))
  | 0x38 => some (.tagchk (regOfBits r))
  | 0x39 => some (.pushp (regOfBits r))
  | 0x3A => some (.popp (regOfBits r))
  | 0x3B => some (.bnd (regOfBits r))
  | 0x3C => some (.sphdr (regOfBits r))
  | 0x3D => some (.isect (regOfBits r))
  | 0x3E => some (.cturn (regOfBits r))
  | 0x3F => some (.void (regOfBits r))
  | 0x40 => some (.ld (regOfBits r))
  | 0x41 => some (.ldi (immOfBits r))
  | 0x42 => some (.st (regOfBits r))
  | 0x43 => some (.sti (immOfBits r))
  | 0x44 => some (.ldv (regOfBits r))
  | 0x45 => some (.stv (regOfBits r))
  | 0x46 => some (.advv (regOfBits r))
  | 0x47 => some (.reclv (regOfBits r))
  | 0x48 => some (.atom (regOfBits r))
  | 0x49 => some (.cas (regOfBits r))
  | 0x4A => some (.append (regOfBits r))
  | 0x4B => some (.ticket (regOfBits r))
  | 0x4C => some (.gath (regOfBits r))
  | 0x4D => some (.scat (regOfBits r))
  | 0x4E => some (.fence (regOfBits r))
  | 0x4F => some (.shape (regOfBits r))
  | 0x50 => some (.br (brOfBits r))
  | 0x51 => some (.brc (brOfBits r))
  | 0x52 => some (.call (brOfBits r))
  | 0x53 => some (.ret (regOfBits r))
  | 0x54 => some (.jtab (regOfBits r))
  | 0x55 => some (.tend (regOfBits r))
  | 0x56 => some (.tpost (regOfBits r))
  | 0x57 => some (.msend (regOfBits r))
  | 0x58 => some (.wait (waitOfBits r))
  | 0x59 => some (.bara (regOfBits r))
  | 0x5A => some (.barw (regOfBits r))
  | 0x5B => some (.gbar (regOfBits r))
  | 0x5C => some (.mfs (immOfBits r))
  | 0x5D => some (.mts (immOfBits r))
  | 0x5E => some (.range (regOfBits r))
  | 0x5F => some (.trap (immOfBits r))
  | 0x60 => some (.nop (regOfBits r))
  | 0x61 => some (.done (regOfBits r))
  | 0x62 => some (.seqwt (regOfBits r))
  | 0x63 => some (.cntrd (regOfBits r))
  | 0x68 => some (.sspec (engOfBits r))
  | 0x69 => some (.sarm (engOfBits r))
  | 0x6A => some (.copy (engOfBits r))
  | 0x6B => some (.tld (engOfBits r))
  | 0x6C => some (.tst (engOfBits r))
  | 0x6D => some (.mldb (engOfBits r))
  | 0x6E => some (.mma (engOfBits r))
  | 0x6F => some (.mnorm (engOfBits r))
  | 0x70 => some (.gload (engOfBits r))
  | 0x71 => some (.gbind (engOfBits r))
  | 0x72 => some (.gfree (engOfBits r))
  | 0x73 => some (.skbld (engOfBits r))
  | 0x74 => some (.skxch (engOfBits r))
  | 0x75 => some (.sksub (engOfBits r))
  | 0x76 => some (.skpeel (engOfBits r))
  | 0x77 => some (.skrecon (engOfBits r))
  | 0x78 => some (.skfix (engOfBits r))
  | 0x79 => some (.tclr (engOfBits r))
  | 0x7A => some (.spld (engOfBits r))
  | 0x7B => some (.copyc (engOfBits r))
  | 0x7C => some (.gqry (engOfBits r))
  | 0x84 => some (.gstart (grmOfBits r))
  | 0x85 => some (.gstop (grmOfBits r))
  | 0x87 => some (.gskip (skipOfBits r))
  | 0x88 => some (.gmask (grmOfBits r))
  | 0x89 => some (.gfeed (grmOfBits r))
  | 0x8A => some (.gstat (grmOfBits r))
  | 0x90 => some (.ctxsv (regOfBits r))
  | 0x91 => some (.ctxld (regOfBits r))
  | 0x92 => some (.freeze (regOfBits r))
  | 0x93 => some (.rmark (regOfBits r))
  | 0x94 => some (.tlbi (regOfBits r))
  | 0x95 => some (.cfgld (regOfBits r))
  | 0x96 => some (.jrnl (regOfBits r))
  | 0x97 => some (.sema (regOfBits r))
  | 0x98 => some (.sret (regOfBits r))
  | 0x99 => some (.haltc (regOfBits r))
  | 0x9A => some (.attest (regOfBits r))
  | 0x9B => some (.pgver (regOfBits r))
  | 0x9C => some (.partset (regOfBits r))
  | _ => none

/-- The instruction that a word stands for. -/
def decodeWord (w : DWord) : Option Instr := decodeOp (hiBits 8 56 w).toNat (loBits 8 56 w)

/-- The word of an opcode and its lower bits. -/
def wordOf (op : BitVec 8) (r : BitVec 56) : DWord := op ++ r

/-- The word of an instruction; none for a step of the device that is no word. -/
def encode : Instr → Option DWord
  | .add f => some (wordOf 0x01 (regBits f))
  | .addi f => some (wordOf 0x02 (immBits f))
  | .sub f => some (wordOf 0x03 (regBits f))
  | .mul f => some (wordOf 0x04 (regBits f))
  | .mulh f => some (wordOf 0x05 (regBits f))
  | .muli f => some (wordOf 0x06 (immBits f))
  | .div f => some (wordOf 0x07 (regBits f))
  | .rem f => some (wordOf 0x08 (regBits f))
  | .and f => some (wordOf 0x09 (regBits f))
  | .andi f => some (wordOf 0x0A (immBits f))
  | .or f => some (wordOf 0x0B (regBits f))
  | .ori f => some (wordOf 0x0C (immBits f))
  | .xor f => some (wordOf 0x0D (regBits f))
  | .xori f => some (wordOf 0x0E (immBits f))
  | .andn f => some (wordOf 0x0F (regBits f))
  | .shl f => some (wordOf 0x10 (regBits f))
  | .shli f => some (wordOf 0x11 (immBits f))
  | .shr f => some (wordOf 0x12 (regBits f))
  | .shri f => some (wordOf 0x13 (immBits f))
  | .sar f => some (wordOf 0x14 (regBits f))
  | .sari f => some (wordOf 0x15 (immBits f))
  | .min f => some (wordOf 0x16 (regBits f))
  | .max f => some (wordOf 0x17 (regBits f))
  | .clz f => some (wordOf 0x18 (regBits f))
  | .popc f => some (wordOf 0x19 (regBits f))
  | .bfx f => some (wordOf 0x1A (regBits f))
  | .bfi f => some (wordOf 0x1B (regBits f))
  | .cmp f => some (wordOf 0x1C (regBits f))
  | .cmpi f => some (wordOf 0x1D (immBits f))
  | .mov f => some (wordOf 0x1E (regBits f))
  | .movi f => some (wordOf 0x1F (immBits f))
  | .fadd f => some (wordOf 0x20 (regBits f))
  | .fsub f => some (wordOf 0x21 (regBits f))
  | .fmul f => some (wordOf 0x22 (regBits f))
  | .fma f => some (wordOf 0x23 (regBits f))
  | .fmin f => some (wordOf 0x24 (regBits f))
  | .fmax f => some (wordOf 0x25 (regBits f))
  | .fcmp f => some (wordOf 0x26 (regBits f))
  | .fsgn f => some (wordOf 0x27 (regBits f))
  | .frcp f => some (wordOf 0x28 (regBits f))
  | .frsq f => some (wordOf 0x29 (regBits f))
  | .fexp2 f => some (wordOf 0x2A (regBits f))
  | .flog2 f => some (wordOf 0x2B (regBits f))
  | .frnd f => some (wordOf 0x2C (regBits f))
  | .cvt f => some (wordOf 0x2D (regBits f))
  | .cvts f => some (wordOf 0x2E (regBits f))
  | .fcls f => some (wordOf 0x2F (regBits f))
  | .selt f => some (wordOf 0x30 (regBits f))
  | .steer f => some (wordOf 0x31 (regBits f))
  | .gate f => some (wordOf 0x32 (regBits f))
  | .merge f => some (wordOf 0x33 (regBits f))
  | .emit f => some (wordOf 0x34 (regBits f))
  | .mark f => some (wordOf 0x35 (regBits f))
  | .acc f => some (wordOf 0x36 (regBits f))
  | .tagset f => some (wordOf 0x37 (regBits f))
  | .tagchk f => some (wordOf 0x38 (regBits f))
  | .pushp f => some (wordOf 0x39 (regBits f))
  | .popp f => some (wordOf 0x3A (regBits f))
  | .bnd f => some (wordOf 0x3B (regBits f))
  | .sphdr f => some (wordOf 0x3C (regBits f))
  | .isect f => some (wordOf 0x3D (regBits f))
  | .cturn f => some (wordOf 0x3E (regBits f))
  | .void f => some (wordOf 0x3F (regBits f))
  | .ld f => some (wordOf 0x40 (regBits f))
  | .ldi f => some (wordOf 0x41 (immBits f))
  | .st f => some (wordOf 0x42 (regBits f))
  | .sti f => some (wordOf 0x43 (immBits f))
  | .ldv f => some (wordOf 0x44 (regBits f))
  | .stv f => some (wordOf 0x45 (regBits f))
  | .advv f => some (wordOf 0x46 (regBits f))
  | .reclv f => some (wordOf 0x47 (regBits f))
  | .atom f => some (wordOf 0x48 (regBits f))
  | .cas f => some (wordOf 0x49 (regBits f))
  | .append f => some (wordOf 0x4A (regBits f))
  | .ticket f => some (wordOf 0x4B (regBits f))
  | .gath f => some (wordOf 0x4C (regBits f))
  | .scat f => some (wordOf 0x4D (regBits f))
  | .fence f => some (wordOf 0x4E (regBits f))
  | .shape f => some (wordOf 0x4F (regBits f))
  | .br f => some (wordOf 0x50 (brBits f))
  | .brc f => some (wordOf 0x51 (brBits f))
  | .call f => some (wordOf 0x52 (brBits f))
  | .ret f => some (wordOf 0x53 (regBits f))
  | .jtab f => some (wordOf 0x54 (regBits f))
  | .tend f => some (wordOf 0x55 (regBits f))
  | .tpost f => some (wordOf 0x56 (regBits f))
  | .msend f => some (wordOf 0x57 (regBits f))
  | .wait f => some (wordOf 0x58 (waitBits f))
  | .bara f => some (wordOf 0x59 (regBits f))
  | .barw f => some (wordOf 0x5A (regBits f))
  | .gbar f => some (wordOf 0x5B (regBits f))
  | .mfs f => some (wordOf 0x5C (immBits f))
  | .mts f => some (wordOf 0x5D (immBits f))
  | .range f => some (wordOf 0x5E (regBits f))
  | .trap f => some (wordOf 0x5F (immBits f))
  | .nop f => some (wordOf 0x60 (regBits f))
  | .done f => some (wordOf 0x61 (regBits f))
  | .seqwt f => some (wordOf 0x62 (regBits f))
  | .cntrd f => some (wordOf 0x63 (regBits f))
  | .sspec f => some (wordOf 0x68 (engBits f))
  | .sarm f => some (wordOf 0x69 (engBits f))
  | .copy f => some (wordOf 0x6A (engBits f))
  | .tld f => some (wordOf 0x6B (engBits f))
  | .tst f => some (wordOf 0x6C (engBits f))
  | .mldb f => some (wordOf 0x6D (engBits f))
  | .mma f => some (wordOf 0x6E (engBits f))
  | .mnorm f => some (wordOf 0x6F (engBits f))
  | .gload f => some (wordOf 0x70 (engBits f))
  | .gbind f => some (wordOf 0x71 (engBits f))
  | .gfree f => some (wordOf 0x72 (engBits f))
  | .skbld f => some (wordOf 0x73 (engBits f))
  | .skxch f => some (wordOf 0x74 (engBits f))
  | .sksub f => some (wordOf 0x75 (engBits f))
  | .skpeel f => some (wordOf 0x76 (engBits f))
  | .skrecon f => some (wordOf 0x77 (engBits f))
  | .skfix f => some (wordOf 0x78 (engBits f))
  | .tclr f => some (wordOf 0x79 (engBits f))
  | .spld f => some (wordOf 0x7A (engBits f))
  | .copyc f => some (wordOf 0x7B (engBits f))
  | .gqry f => some (wordOf 0x7C (engBits f))
  | .gstart f => some (wordOf 0x84 (grmBits f))
  | .gstop f => some (wordOf 0x85 (grmBits f))
  | .gskip f => some (wordOf 0x87 (skipBits f))
  | .gmask f => some (wordOf 0x88 (grmBits f))
  | .gfeed f => some (wordOf 0x89 (grmBits f))
  | .gstat f => some (wordOf 0x8A (grmBits f))
  | .ctxsv f => some (wordOf 0x90 (regBits f))
  | .ctxld f => some (wordOf 0x91 (regBits f))
  | .freeze f => some (wordOf 0x92 (regBits f))
  | .rmark f => some (wordOf 0x93 (regBits f))
  | .tlbi f => some (wordOf 0x94 (regBits f))
  | .cfgld f => some (wordOf 0x95 (regBits f))
  | .jrnl f => some (wordOf 0x96 (regBits f))
  | .sema f => some (wordOf 0x97 (regBits f))
  | .sret f => some (wordOf 0x98 (regBits f))
  | .haltc f => some (wordOf 0x99 (regBits f))
  | .attest f => some (wordOf 0x9A (regBits f))
  | .pgver f => some (wordOf 0x9B (regBits f))
  | .partset f => some (wordOf 0x9C (regBits f))
  | _ => none

/-- The instruction held in 8 bytes, least significant first (R209). -/
def decodeBytes (bs : List Byte) : Option Instr := decodeWord (dwordLE bs)

/-- The instruction whose bits are `w`, numbered from the least significant bit of its one 64-bit word: its eight
bytes as memory holds them, given to the decoder. -/
def decodeTableWord (_nbits w : Nat) : Option Instr := decodeBytes (bytesLE 8 w)

/-- The form, as the bits of the word, that an instruction is recorded with in a fault record (R388): 0 for a step
that is no word. -/
def instrWord (i : Instr) : DWord := (encode i).getD 0

/-! ## Commands (R425) -/

/-- The step that carries out a command of the code; none for a code that R425 does not name. -/
def decodeCommand (code : Nat) (k : Cmd) : Option Instr :=
  match code with
  | 0x01 => some (.cmdNop k)
  | 0x02 => some (.cmdSema k)
  | 0x03 => some (.cmdDevid k)
  | 0x04 => some (.cmdAttest k)
  | 0x05 => some (.cmdJread k)
  | 0x06 => some (.cmdDevstat k)
  | 0x10 => some (.cmdCtxnew k)
  | 0x11 => some (.cmdCtxdel k)
  | 0x12 => some (.cmdMap k)
  | 0x13 => some (.cmdQnew k)
  | 0x14 => some (.cmdEnq k)
  | 0x15 => some (.cmdCancel k)
  | 0x16 => some (.cmdClsreg k)
  | 0x17 => some (.cmdClsfree k)
  | 0x20 => some (.cmdCtxset k)
  | 0x21 => some (.cmdPtset k)
  | 0x22 => some (.cmdQset k)
  | 0x23 => some (.cmdTlbi k)
  | 0x24 => some (.cmdFreeze k)
  | 0x25 => some (.cmdDrain k)
  | 0x26 => some (.cmdRestore k)
  | 0x27 => some (.cmdCfg k)
  | 0x28 => some (.cmdPart k)
  | 0x29 => some (.cmdSlots k)
  | 0x2A => some (.cmdHaltc k)
  | 0x2B => some (.cmdKeyset k)
  | 0x2C => some (.cmdFwupd k)
  | 0x2D => some (.cmdJobset k)
  | 0x2E => some (.cmdPeerset k)
  | 0x2F => some (.cmdSysrt k)
  | _ => none

/-- The command code of a step, with its command. -/
def encodeCommand : Instr → Option (Nat × Cmd)
  | .cmdNop k => some (0x01, k)
  | .cmdSema k => some (0x02, k)
  | .cmdDevid k => some (0x03, k)
  | .cmdAttest k => some (0x04, k)
  | .cmdJread k => some (0x05, k)
  | .cmdDevstat k => some (0x06, k)
  | .cmdCtxnew k => some (0x10, k)
  | .cmdCtxdel k => some (0x11, k)
  | .cmdMap k => some (0x12, k)
  | .cmdQnew k => some (0x13, k)
  | .cmdEnq k => some (0x14, k)
  | .cmdCancel k => some (0x15, k)
  | .cmdClsreg k => some (0x16, k)
  | .cmdClsfree k => some (0x17, k)
  | .cmdCtxset k => some (0x20, k)
  | .cmdPtset k => some (0x21, k)
  | .cmdQset k => some (0x22, k)
  | .cmdTlbi k => some (0x23, k)
  | .cmdFreeze k => some (0x24, k)
  | .cmdDrain k => some (0x25, k)
  | .cmdRestore k => some (0x26, k)
  | .cmdCfg k => some (0x27, k)
  | .cmdPart k => some (0x28, k)
  | .cmdSlots k => some (0x29, k)
  | .cmdHaltc k => some (0x2A, k)
  | .cmdKeyset k => some (0x2B, k)
  | .cmdFwupd k => some (0x2C, k)
  | .cmdJobset k => some (0x2D, k)
  | .cmdPeerset k => some (0x2E, k)
  | .cmdSysrt k => some (0x2F, k)
  | _ => none

end Sys2Proof
end

