-- ==== Sys2Proof/Machine/Flags.lean ====
section
/-! DEFINITION. The sticky flags (R110) and the integer arithmetic with its one flag (R99, R237 to R250). Every
value here is a number or a dword; how it is read from operands and written stands in `Operands.lean`. -/

namespace Sys2Proof.Machine
open Sys2Proof

/-- NV, DZ, OF, UF, NX and SAT of FLAGS (R110). -/
abbrev FlagBits := BitVec 6
/-- Invalid operation. -/
def flNV : FlagBits := 1
/-- Division by zero. -/
def flDZ : FlagBits := 2
/-- Overflow. -/
def flOF : FlagBits := 4
/-- Underflow. -/
def flUF : FlagBits := 8
/-- Inexact. -/
def flNX : FlagBits := 16
/-- A value clamped under a SAT modifier. -/
def flSAT : FlagBits := 32

/-- A flag that is raised when the condition holds. -/
def flagIf (b : Bool) (f : FlagBits) : FlagBits := if b then f else 0

/-- The width W of a format in task, system and action context, and in a node (R237). -/
def widthOf (node : Bool) : Fmt → Nat
  | .raw => if node then 32 else 64
  | .i8 | .t8 => 8
  | .i16 | .fp16 | .bf16 => 16
  | .i32 | .fp32 | .idx | .mask => 32
  | .t6 => 6

/-- Whether sources are read as unsigned (R237). -/
def readsUnsigned (f : Fmt) (u : Bool) : Bool := u || f == .idx

/-- Whether a result is sign-extended (R238). -/
def extendsSigned (f : Fmt) (u : Bool) : Bool :=
  !u && (f == .raw || f == .i8 || f == .i16 || f == .i32)

/-- The low `w` bits of a source as a number (R237). -/
def lowBits (w : Nat) (v : DWord) : Nat := v.toNat % 2 ^ w

/-- Bits read as two's complement of width `w`. -/
def signedOf (w n : Nat) : Int := if 2 * n < 2 ^ w then (n : Int) else (n : Int) - 2 ^ w

/-- A reduced source as an exact number (R237). -/
def reduced (w : Nat) (uns : Bool) (v : DWord) : Int :=
  if uns then (lowBits w v : Int) else signedOf w (lowBits w v)

/-- An integer modulo 2^`w`. -/
def wrapTo (w : Nat) (x : Int) : Nat := (x % (2 ^ w : Int)).toNat

/-- W bits extended to 64 (R238); a 32-bit destination keeps the low half. -/
def extend (w : Nat) (signed : Bool) (n : Nat) : DWord :=
  if signed then BitVec.ofInt 64 (signedOf w n) else BitVec.ofNat 64 n

/-- The least and the greatest number of width `w` (R99, R241). -/
def rangeOf (w : Nat) (uns : Bool) : Int × Int :=
  if uns then (0, 2 ^ w - 1) else (-(2 ^ (w - 1) : Int), 2 ^ (w - 1) - 1)

/-- An exact result reduced to W bits: wrapped, or clamped with the flag SAT (R99, R241). -/
def finishInt (w : Nat) (uns sat : Bool) (x : Int) : Nat × FlagBits :=
  let r := rangeOf w uns
  if sat && decide (x < r.1) then (wrapTo w r.1, flSAT)
  else if sat && decide (r.2 < x) then (wrapTo w r.2, flSAT)
  else (wrapTo w x, 0)

/-- What an integer or bit instruction needs to know (R237): the context's kind, FMT, U and SAT. -/
structure IntMode where
  node : Bool
  f : Fmt
  u : Bool
  sat : Bool
  deriving DecidableEq, Repr

/-- The width of the mode. -/
def IntMode.w (k : IntMode) : Nat := widthOf k.node k.f
/-- Whether the mode reads sources as unsigned. -/
def IntMode.uns (k : IntMode) : Bool := readsUnsigned k.f k.u
/-- A result of W bits, extended (R238). -/
def IntMode.put (k : IntMode) (n : Nat) : DWord := extend k.w (extendsSigned k.f k.u) n

/-- ADD, SUB and MUL (R241): the exact result of the reduced sources, finished. -/
def intExact (op : Int → Int → Int) (k : IntMode) (a b : DWord) : DWord × FlagBits :=
  let r := finishInt k.w k.uns k.sat (op (reduced k.w k.uns a) (reduced k.w k.uns b))
  (k.put r.1, r.2)

/-- MULH (R241): bits [2W−1:W] of the exact product. -/
def intMulh (k : IntMode) (a b : DWord) : DWord :=
  k.put (wrapTo k.w ((reduced k.w k.uns a * reduced k.w k.uns b) / 2 ^ k.w))

/-- The quotient of R242. -/
def intQuot (w : Nat) (a b : Int) : Int := if b = 0 then 2 ^ w - 1 else Int.tdiv a b
/-- The remainder of R242. -/
def intRem (a b : Int) : Int := if b = 0 then a else Int.tmod a b

/-- DIV (R242). −2^(W−1) divided by −1 leaves 2^(W−1), whose W bits are those of −2^(W−1). -/
def intDiv (k : IntMode) (a b : DWord) : DWord :=
  k.put (wrapTo k.w (intQuot k.w (reduced k.w k.uns a) (reduced k.w k.uns b)))

/-- REM (R242). -/
def intMod (k : IntMode) (a b : DWord) : DWord :=
  k.put (wrapTo k.w (intRem (reduced k.w k.uns a) (reduced k.w k.uns b)))

/-- AND, OR, XOR and ANDN (R243). -/
def intBits (op : DWord → DWord → DWord) (k : IntMode) (a b : DWord) : DWord := k.put (lowBits k.w (op a b))

/-- SHL (R244). -/
def intShl (k : IntMode) (a c : DWord) : DWord :=
  if c.toNat ≥ k.w then k.put 0 else k.put ((lowBits k.w a * 2 ^ c.toNat) % 2 ^ k.w)

/-- SHR (R244). -/
def intShr (k : IntMode) (a c : DWord) : DWord :=
  if c.toNat ≥ k.w then k.put 0 else k.put (lowBits k.w a / 2 ^ c.toNat)

/-- SAR (R244). -/
def intSar (k : IntMode) (a c : DWord) : DWord :=
  k.put (wrapTo k.w (signedOf k.w (lowBits k.w a) / 2 ^ (min c.toNat k.w)))

/-- MIN (R245). -/
def intMin (k : IntMode) (a b : DWord) : DWord :=
  k.put (wrapTo k.w (min (reduced k.w k.uns a) (reduced k.w k.uns b)))

/-- MAX (R245). -/
def intMax (k : IntMode) (a b : DWord) : DWord :=
  k.put (wrapTo k.w (max (reduced k.w k.uns a) (reduced k.w k.uns b)))

/-- How many bits a number needs; 0 for 0. -/
def bitLen (n : Nat) : Nat := if n = 0 then 0 else Nat.log2 n + 1

/-- The set bits among the low `w`. -/
def popCount : Nat → Nat → Nat
  | 0, _ => 0
  | w + 1, n => n % 2 + popCount w (n / 2)

/-- CLZ (R246). -/
def intClz (k : IntMode) (a : DWord) : DWord := k.put (k.w - bitLen (lowBits k.w a))

/-- POPC (R246). -/
def intPopc (k : IntMode) (a : DWord) : DWord := k.put (popCount k.w (lowBits k.w a))

/-- BFX (R247). -/
def intBfx (k : IntMode) (a p n : DWord) : DWord :=
  if n.toNat = 0 ∨ p.toNat ≥ k.w then k.put 0
  else
    let len := min n.toNat (k.w - p.toNat)
    let f := (lowBits k.w a / 2 ^ p.toNat) % 2 ^ len
    if extendsSigned k.f k.u then k.put (wrapTo k.w (signedOf len f)) else k.put f

/-- BFI (R248). -/
def intBfi (k : IntMode) (base a p n : DWord) : DWord :=
  let v := lowBits k.w base
  if n.toNat = 0 ∨ p.toNat ≥ k.w then k.put v
  else
    let len := min n.toNat (k.w - p.toNat)
    let lo := v % 2 ^ p.toNat
    let hi := v / 2 ^ (p.toNat + len)
    k.put (lo + (a.toNat % 2 ^ len) * 2 ^ p.toNat + hi * 2 ^ (p.toNat + len))

/-- A condition code on 64-bit values (R59, R308): EQ, NE, LT, GE signed, LTU, GEU unsigned. -/
def condHolds (cc : Nat) (a b : DWord) : Bool :=
  match cc with
  | 0 => a == b
  | 1 => a != b
  | 2 => a.slt b
  | 3 => !a.slt b
  | 4 => a.ult b
  | 5 => !a.ult b
  | _ => false

/-- The condition of CMP and CMPI on reduced sources (R249). -/
def cmpHolds (k : IntMode) (cc : Nat) (a b : DWord) : Bool :=
  let sa := reduced k.w (k.f == .idx) a
  let sb := reduced k.w (k.f == .idx) b
  let ua := lowBits k.w a
  let ub := lowBits k.w b
  match cc with
  | 0 => ua == ub
  | 1 => ua != ub
  | 2 => decide (sa < sb)
  | 3 => decide (sb ≤ sa)
  | 4 => decide (ua < ub)
  | 5 => decide (ub ≤ ua)
  | _ => false

/-- CMP (R249): 1 or 0. -/
def intCmp (k : IntMode) (cc : Nat) (a b : DWord) : DWord := if cmpHolds k cc a b then 1 else 0

/-- The value that MOV and MOVI leave (R250): reduced and extended. -/
def intMov (k : IntMode) (a : DWord) : DWord := k.put (lowBits k.w a)

end Sys2Proof.Machine
end

