-- ==== Sys2Proof/Machine/Ops.lean ====
section
/-! DEFINITION. The named operations over the state: cores, dies, launches, contexts, memory bytes, registers,
raising a fault (the spec's taking of an exception), and running one instruction word for the agent in focus. -/

namespace Sys2Proof.Machine
open Sys2Proof

/-- What a meaning answers. -/
abbrev Out := Host.Outcome State Fault Refusal

/-! ## Numbers of units (R8, R354, R443) -/

/-- The die of a core. -/
def dieOf (c : CoreId) : DieId := ⟨c.val / 64, by omega⟩
/-- A core's cluster, counted over the package. -/
def clusterOf (c : CoreId) : Nat := c.val / 4
/-- A core's position in its cluster. -/
def posOf (c : CoreId) : Nat := c.val % 4
/-- The core at a position of the same cluster. -/
def siblingAt (c : CoreId) (p : Fin 4) : CoreId := ⟨c.val / 4 * 4 + p.val, by omega⟩
/-- A PE's router. -/
def peRouter (pe : PeId) : RouterId := ⟨pe.val, by omega⟩
/-- An MT's router. -/
def mtRouter (m : MtId) : RouterId := ⟨128 + m.val, by omega⟩
/-- An AG's edge router. -/
def agRouter (k : AgId) : RouterId := ⟨160 + k.val, by omega⟩
/-- The PE of a router's number. -/
def peOf (n : Nat) : PeId := Fin.ofNat 128 n
/-- The number of a p port as a firing lists it. -/
def pIndex (r : Fin 4) : Fin 8 := ⟨r.val, by omega⟩

/-! ## Parts of the state -/

/-- A core's state. -/
def coreAt (s : State) (c : CoreId) : Core := at' s.cores c
/-- A core changed. -/
def modCore (s : State) (c : CoreId) (f : Core → Core) : State :=
  { s with cores := put s.cores c (f (at' s.cores c)) }
/-- A die's state. -/
def dieAt (s : State) (d : DieId) : Die := at' s.dies d
/-- A die changed. -/
def modDie (s : State) (d : DieId) (f : Die → Die) : State := { s with dies := put s.dies d (f (at' s.dies d)) }
/-- The launch of a number. -/
def launchBy (s : State) (id : Nat) : Option Launch := s.launches.find? (·.id == id)
/-- A launch changed. -/
def modLaunch (s : State) (id : Nat) (f : Launch → Launch) : State :=
  { s with launches := s.launches.map fun l => if l.id = id then f l else l }
/-- The context of a number (R362). -/
def ctxBy (s : State) (n : Nat) : Option Ctx := s.ctxs.find? (·.n == n)
/-- A context changed. -/
def modCtx (s : State) (n : Nat) (f : Ctx → Ctx) : State :=
  { s with ctxs := s.ctxs.map fun x => if x.n = n then f x else x }
/-- The launch that holds a core (R363). -/
def holderOf (s : State) (c : CoreId) : Option Launch := (coreAt s c).holder.bind (launchBy s)
/-- The node of a PE. -/
def nodeAt (k : Core) (pe : PeId) : Option Node := k.nodes.find? (·.pe == pe)
/-- A node changed. -/
def modNode (k : Core) (pe : PeId) (f : Node → Node) : Core :=
  { k with nodes := k.nodes.map fun n => if n.pe = pe then f n else n }
/-- A parser changed. -/
def modParser (k : Core) (p : ParserId) (f : Parser → Parser) : Core :=
  { k with parsers := put k.parsers p (f (at' k.parsers p)) }
/-- An address generator changed. -/
def modAg (k : Core) (a : AgId) (f : Ag → Ag) : Core := { k with ags := put k.ags a (f (at' k.ags a)) }
/-- A register bank changed. -/
def modBank (k : Core) (b : BankId) (f : RegBank → RegBank) : Core :=
  { k with banks := put k.banks b (f (at' k.banks b)) }
/-- A queue of a context changed. -/
def modQueue (x : Ctx) (q : Fin 16) (f : Queue → Queue) : Ctx := { x with queues := put x.queues q (f (at' x.queues q)) }

/-- A fresh number. -/
def fresh (s : State) : Nat × State := (s.nextId, { s with nextId := s.nextId + 1 })

/-- One of the alternatives, as the free choice of this tick has it. -/
def pickFree {α : Type} (s : State) (xs : List α) : Option α := xs[Config.choice s.ticks 0 % xs.length]?

/-- Round-robin: the first after `last`, in cyclic order, that a test accepts (R22, R50, R82). -/
def nextTurn {n : Nat} (last : Fin (n + 1)) (ok : Fin (n + 1) → Bool) : Option (Fin (n + 1)) :=
  ((List.range (n + 1)).map fun i => Fin.ofNat (n + 1) (last.val + 1 + i)).find? ok

/-! ## Fields of a launch record (R368) -/

/-- The width of field k of the work ID, k from 1 (R12). -/
def widthField (r : Vector DWord 16) (k : Nat) : Nat := if 1 ≤ k ∧ k ≤ 6 then field r[4] (6 * k - 1) (6 * k - 6) else 0
/-- The number of levels L (R12). -/
def levels (r : Vector DWord 16) : Nat := ((List.range 6).filter fun i => widthField r (i + 1) != 0).length
/-- The lowest bit of field k: w1 + … + w(k−1). -/
def fieldBase (r : Vector DWord 16) (k : Nat) : Nat := ((List.range (k - 1)).map fun i => widthField r (i + 1)).sum
/-- The team level T (R14). -/
def teamLevel (r : Vector DWord 16) : Nat := field r[4] 38 36
/-- The team's first work ID: team << (w1 + … + wT) (R375). -/
def teamWid (r : Vector DWord 16) (team : Nat) : DWord := BitVec.ofNat 64 (team * 2 ^ fieldBase r (teamLevel r + 1))
/-- Persistent (R368). -/
def isPersist (r : Vector DWord 16) : Bool := bitOf r[4] 41
/-- The gang size in cores (R15). -/
def gangSize (r : Vector DWord 16) : Nat := 2 ^ field r[4] 40 39
/-- The range queue. -/
def rqField (r : Vector DWord 16) : Fin 64 := Fin.ofNat 64 (field r[4] 53 48)
/-- The number of stages. -/
def nStages (r : Vector DWord 16) : Nat := field r[6] 21 18
/-- The number of teams (R369). -/
def teamCount (r : Vector DWord 16) : Nat :=
  2 ^ (((List.range 6).map fun i => if i + 1 > teamLevel r then widthField r (i + 1) else 0).sum)

/-- A level kept within 1 to L (R27). -/
def clampLevel (L k : Nat) : Nat := if 1 ≤ k ∧ k ≤ L then k else L
/-- The level that a poison token's DATA names. -/
def poisonOf (L : Nat) (t : Token) : Nat := clampLevel L (t.data.toNat % 8)
/-- A mark's or poison's level kept within 1 to L (R27). -/
def poisonLevel (l : Launch) (k : Nat) : Nat := clampLevel (levels l.recd) k

/-! ## Work IDs at an element (R25, R32)

An element counts its place in its team's walk from the marks it has consumed: the fields 1 to T, and above them how many
level-T groups have gone by. -/

/-- The level-T groups that follow the first n of the ranges that a team has drawn: team values and counts (R33). -/
def fromGroup : List (Nat × Nat) → Nat → List (Nat × Nat)
  | [], _ => []
  | (st, n) :: rs, i => if i < n then (st + i, n - i) :: rs else fromGroup rs (i - n)

/-- The number of the first group, from number `o` on, behind the end of group q of `w` team values: the team value that ends it
closes it, and a range that begins in another group has left it (R33). -/
def pastGroup (w q : Nat) : List (Nat × Nat) → Nat → Nat
  | [], o => o
  | (st, n) :: rs, o =>
    if st / w ≠ q then o
    else if (q + 1) * w ≤ st + n then o + ((q + 1) * w - st)
    else pastGroup w q rs (o + n)

/-- The ranges that a core's team has drawn. -/
def rangesOf (k : Core) : List (Nat × Nat) :=
  match k.drawn with
  | (_, rs, _) :: _ => rs
  | [] => []

/-- The level-T groups before a place. Poison of a level above T stands for the rest of the larger group (R27), as far as its
team's ranges have been drawn. -/
def groupsAt (r : Vector DWord 16) (k : Core) (x : Place) : Nat :=
  match x.past with
  | some (j, v) =>
    let w := 2 ^ (fieldBase r (j + 1) - fieldBase r (teamLevel r + 1))
    pastGroup w (v / w) (fromGroup (rangesOf k) x.groups) x.groups
  | none => x.groups

/-- The place after a token (R13): its mark ends groups and counts one up in the field above them, or, from level T on, in the
groups that have gone by. -/
def placeAfter (l : Launch) (k : Core) (x : Place) (t : Token) : Place :=
  let r := l.recd
  let n := groupsAt r k x
  let j := if t.mark = 7 then poisonOf (levels r) t else min t.mark.toNat (teamLevel r)
  if j < teamLevel r then
    let b := 2 ^ fieldBase r (j + 1)
    let top := 2 ^ fieldBase r (teamLevel r + 1)
    let low := (x.low / b + 1) * b
    ⟨low % top, n + low / top, none⟩
  else match fromGroup (rangesOf k) n with
    | (v, _) :: _ => if j = teamLevel r then ⟨0, n + 1, none⟩ else ⟨0, n, some (j, v)⟩
    | [] => ⟨0, n + 1, none⟩

/-- The team value at an element that n level-T groups have passed: of a ranged stream that of the group, of a stream with
RNG = 0 the running team's (R32, R33). -/
def groupTeam (k : Core) (plain : Bool) (n : Nat) : Nat :=
  match fromGroup (rangesOf k) n with
  | (v, _) :: _ => if plain then k.team else v
  | [] => k.team

/-- The work ID that an element presents at a place of its team's walk (R25, R32). -/
def elemWid (l : Launch) (k : Core) (plain : Bool) (x : Place) : DWord :=
  BitVec.ofNat 64 (x.low + groupTeam k plain (groupsAt l.recd k x) * 2 ^ fieldBase l.recd (teamLevel l.recd + 1))

/-- The place that a firing's work ID is read from: that of the lowest data port consumed, which gives its sideband too
(R76). -/
def nodePlace (n : Node) : Place :=
  match n.firing with
  | some f => match (List.finRange 4).find? fun p => f.took.contains (p.castLE (by omega)) with
    | some p => at' n.wid p
    | none => Place.zero
  | none => at' n.wid 0

/-- Whether a node's work ID is that of a stream with RNG = 0. -/
def nodePlain (n : Node) : Bool := match n.firing with | some f => f.plain | none => false

/-! ## Memory (R119 to R121) -/

/-- The byte at a location: 0 where none is listed. -/
def memGet : Memory → Nat → Byte
  | [], _ => 0
  | (k, v) :: r, a => if a < k then 0 else if a = k then v else memGet r a

/-- Memory with one byte written, in canonical form. -/
def memSet : Memory → Nat → Byte → Memory
  | [], a, v => if v = 0 then [] else [(a, v)]
  | (k, w) :: r, a, v =>
    if a < k then (if v = 0 then (k, w) :: r else (a, v) :: (k, w) :: r)
    else if a = k then (if v = 0 then r else (a, v) :: r)
    else (k, w) :: memSet r a v

/-- Every location of the list lies above `lo`. -/
def memAbove (lo : Nat) : Memory → Bool
  | [] => true
  | (k, _) :: _ => decide (lo < k)

/-- The canonical form: locations strictly rising, no entry 0. -/
def Memory.wf : Memory → Bool
  | [] => true
  | (k, v) :: r => v != 0 && memAbove k r && Memory.wf r

/-- `n` bytes from a location. -/
def memGetN (m : Memory) (a : Nat) : Nat → List Byte
  | 0 => []
  | n + 1 => memGet m a :: memGetN m (a + 1) n

/-- Bytes written from a location upward. -/
def memSetN (m : Memory) (a : Nat) : List Byte → Memory
  | [] => m
  | v :: vs => memSetN (memSet m a v) (a + 1) vs

/-- Memory with the locations from `lo` to `hi` − 1 zero. -/
def memZero (m : Memory) (lo hi : Nat) : Memory := m.filter fun e => e.1 < lo || hi ≤ e.1

/-- Where a core's scratchpad lies in the memory list. -/
def scratchLoc (c : CoreId) : Nat := 2 ^ 40 + c.val * 2 ^ 21
/-- Where a tile register lies. -/
def tileLoc (c : CoreId) (t : Fin 16) : Nat := 2 ^ 41 + c.val * 2 ^ 18 + t.val * 2 ^ 14
/-- Where a core's weight-store slice lies. -/
def weightLoc (c : CoreId) : Nat := 2 ^ 42 + c.val * 2 ^ 24

/-- Whether a physical address lies in the map of R121. -/
def paMapped (pa : Nat) : Bool := pa < 0x4000000000 || (0x4000000000 ≤ pa && pa < 0x4040000000)
/-- Whether a location is CSM (R121). -/
def isCsm (loc : Nat) : Bool := 0x4000000000 ≤ loc && loc < 0x4040000000
/-- Whether a location is DRAM. -/
def isDram (loc : Nat) : Bool := loc < 0x4000000000
/-- Whether a location is some core's scratchpad. -/
def isScratch (loc : Nat) : Bool := 2 ^ 40 ≤ loc && loc < 2 ^ 40 + 2 ^ 29
/-- The core whose scratchpad holds a location. -/
def scratchCore (loc : Nat) : CoreId := Fin.ofNat 256 ((loc - 2 ^ 40) / 2 ^ 21)
/-- The die of a physical location (R121). -/
def locDie (loc : Nat) : DieId :=
  if isCsm loc then Fin.ofNat 4 ((loc - 0x4000000000) / 0x10000000) else Fin.ofNat 4 (loc / 0x1000000000)
/-- The CSM bank of a location (R121). -/
def bankOf (loc : Nat) : Bank := ⟨locDie loc, Fin.ofNat 1024 (loc / 256)⟩

/-- The physical address of a location, in a record or an event; R121 gives core-local memory none, so there it is free
(log entry 2). -/
def physAddr (s : State) (loc : Nat) : DWord := if paMapped loc then BitVec.ofNat 64 loc else Config.freeWord s.ticks

/-- The start of the core-local window (R120). -/
def windowBase : Nat := 0xFFFFFFF000000
/-- Whether an address lies in the core-local window. -/
def inWindow (va : Nat) : Bool := windowBase ≤ va && va < 2 ^ 52

/-! ## Slots (R434) -/

/-- How many of a die's 16 slots name a partition. -/
def slotsOf (d : Die) (part : Nat) : Nat :=
  ((List.range 16).filter fun i => field d.slotTable (4 * i + 3) (4 * i) == part).length

/-- The partition of a context; the device's own requests are partition 0's. -/
def partOf (s : State) (ctx : Nat) : Nat := match ctxBy s ctx with | some x => x.part.val | none => 0

/-- Whether this cycle's slot of a die is one of a context's partition; where the table names no other, every slot is. -/
def slotOpen (s : State) (d : DieId) (ctx : Nat) : Bool :=
  let i := (Config.slotAt s.now).val
  slotsOf (dieAt s d) (partOf s ctx) == 16 || field (dieAt s d).slotTable (4 * i + 3) (4 * i) == partOf s ctx

/-! ## Progress (R86, R393) -/

/-- A progress event of a launch. -/
def progress (s : State) (launch : Nat) : State := modLaunch s launch fun l => { l with progress := s.now }
/-- A unit of the core has taken a step. -/
def active (s : State) (c : CoreId) : State := modCore s c fun k => { k with lastAct := s.now }
/-- A progress event of the launch that holds a core. -/
def progressOf (s : State) (c : CoreId) : State :=
  match (coreAt s c).holder with
  | some l => progress s l
  | none => s
/-- What a core waited for outside it has come: the cycles until now are none in which it was blocked (R86). The core may have
gone to another launch since. -/
def heard (s : State) (launch : Nat) (c : CoreId) : State :=
  if (coreAt s c).holder = some launch then active s c else s
/-- Both: a step that R393 lists as a progress event. -/
def moved (s : State) (c : CoreId) : State := progressOf (active s c) c

/-- The events that a core has counted in this cycle. -/
def countsNow (now : Nat) (k : Core) : Vector DWord 8 := if k.cntNow.1 = now then k.cntNow.2 else Vector.replicate 8 0

/-- Whether a request may reach the master Plinth in this cycle: those of one cycle come in the order of their places, port A 0,
port B 1 and system context n 2 + n (R403). -/
def mayReach (s : State) (place : Nat) : Bool := s.lastReach.1 != s.now || s.lastReach.2 ≤ place

/-- A request has reached the master Plinth. -/
def reached (s : State) (place : Nat) : State := { s with lastReach := (s.now, place) }

/-- One event of counter `n` on a core (R325). -/
def countEvent (s : State) (c : CoreId) (n : Fin 8) : State :=
  modCore s c fun k =>
    let v := countsNow s.now k
    if k.blk.en.getLsbD n.val then
      { k with
        blk := { k.blk with ctr := put k.blk.ctr n (at' k.blk.ctr n + 1) }
        cntNow := (s.now, put v n (at' v n + 1)) }
    else k

/-- What a set of bits of this cycle comes to, with those already set in it (R7). -/
def setNow (now : Nat) (old : Nat × BitVec 6) (f : BitVec 6) : Nat × BitVec 6 :=
  if old.1 = now then (now, old.2 ||| f) else (now, f)

/-- Flags merged into a core's FLAGS (R111). -/
def mergeFlags (s : State) (c : CoreId) (f : FlagBits) : State :=
  modCore s c fun k => { k with
    blk := { k.blk with flags := k.blk.flags ||| f }
    flagsNow := setNow s.now k.flagsNow f }

/-! ## Raising a fault: taking an exception (R21, R225, R388 to R391) -/

/-- The element of a fault: core, unit and element. -/
def raiserOf (w : Who) : CoreId × Nat × Nat := (w.core, w.unit, w.elem)

/-- The order of elements of R21 (a core's number leads with its die). -/
def beforeElem (a b : CoreId × Nat × Nat) : Bool :=
  a.1.val < b.1.val || (a.1 == b.1 && (a.2.1 < b.2.1 || (a.2.1 == b.2.1 && a.2.2 < b.2.2)))

/-- Whether the first element comes before the second in the order of R21. -/
def beforeWho (a b : Who) : Bool := beforeElem (raiserOf a) (raiserOf b)

/-- The elements that have raised a fault, and one more, in the order of R21. -/
def addRaiser (x : CoreId × Nat × Nat) : List (CoreId × Nat × Nat) → List (CoreId × Nat × Nat)
  | [] => [x]
  | y :: ys => if beforeElem x y then x :: y :: ys else y :: addRaiser x ys

/-- Whether a launch can still be ended. -/
def isLive : LPhase → Bool
  | .loading | .running | .freezing | .draining _ _ => true
  | _ => false

/-- What a raised fault makes of the launch it ends: the launch stops and the record holds the fault, unless an
element earlier in the order of R21 raised one in the same cycle; a fault raised later is discarded, and so is another one of
the same element. A fault in the cycle of a cancellation prevails (R380). -/
def takeFault (f : FaultRec) (now : Nat) (l : Launch) : Launch :=
  if isLive l.phase then
    { l with phase := .ending, status := some .faulted, endedAt := now, fault := some f, raisers := [raiserOf f.who] }
  else match l.phase, l.fault with
    | .ending, none =>
      if l.status = some .cancelled ∧ l.endedAt = now then
        { l with status := some .faulted, fault := some f, raisers := [raiserOf f.who] }
      else l
    | .ending, some g =>
      if g.cycle = now ∧ l.raisers.contains (raiserOf f.who) = false then
        let n := min 65535 (g.ndisc + 1)
        { l with
          fault := some (if beforeWho f.who g.who then { f with ndisc := n } else { g with ndisc := n })
          raisers := addRaiser (raiserOf f.who) l.raisers }
      else l
    | _, _ => l

/-- Fault(code) of an element: the launch ends under R21. The record keeps the element, its work ID and instruction
word, and the two fields of R391. -/
def raise (code : FaultCode) (w : Who) (addr extra : DWord) (s : State) : State :=
  modLaunch s w.launch (takeFault ⟨code, w, addr, extra, 0, s.now⟩ s.now)

/-! ## Journal (R429) -/

/-- An entry of the Frieze is appended; the ring keeps the latest 65,536. -/
def journal (s : State) (code : Nat) (st : FzState) (srck ctx q : Nat) (rid : Word) (result : DWord)
    (payload : List DWord) : State :=
  let e : FzEntry := ⟨s.fzseq, code, st, srck, ctx, q, rid, result, payload⟩
  let l := s.frieze ++ [e]
  { s with fzseq := s.fzseq + 1, frieze := if l.length ≤ 65536 then l else l.drop (l.length - 65536) }

/-- A device event (R429). -/
def deviceEvent (s : State) (event : Nat) (addr : DWord) (ctx : Nat) (q seq : DWord) : State :=
  journal s 0xF1 .done 3 ctx 0 (BitVec.ofNat 32 event) 0 [addr, BitVec.ofNat 64 ctx, q, seq, 0]

/-- A fault found by a read: a read of bad check bits is journalled too (R437). -/
def raiseRead (code : FaultCode) (w : Who) (addr extra : DWord) (ctx : Nat) (s : State) : State :=
  let s1 := raise code w addr extra s
  if code = .uncorrectable then deviceEvent s1 0x04 extra ctx 0 0 else s1

/-! ## The agent in focus -/

/-- Who runs a word (R220, R122). -/
structure Env where
  core : CoreId
  kind : ExecCtx
  agent : Agent
  launch : Launch
  who : Who
  deriving DecidableEq, Repr

/-- A stream node, which holds one of SPHDR, ISECT and CTURN alone, or a node of BND instructions (R267): it steps
without a firing. -/
def isStreamOp : Instr → Bool
  | .sphdr _ | .isect _ | .cturn _ | .bnd _ => true
  | _ => false

/-- Whether a node is one of those. -/
def isStreamNode (n : Node) : Bool :=
  match (n.words.head?).bind decodeWord with
  | some i => isStreamOp i
  | none => false

/-- Whether elements of the launch may step: it runs, or it drains (R396, R397). -/
def mayStep : LPhase → Bool
  | .running | .draining _ _ => true
  | _ => false

/-- Whether a fault or a cancellation has ended a launch in this very cycle: its elements still take their steps of the cycle,
and may raise faults of their own (R21, R380; log entry 99). -/
def endsNow (s : State) (l : Launch) : Bool :=
  l.phase == .ending && l.endedAt == s.now && (l.status == some .faulted || l.status == some .cancelled)

/-- Whether elements of a launch take steps in this cycle. -/
def maySteps (s : State) (l : Launch) : Bool := mayStep l.phase || endsNow s l

/-- The agent in focus, when it is running and its launch lets it step. -/
def envOf (s : State) (i : Instr) : Option Env :=
  match s.focus with
  | none => none
  | some (.task c) =>
    match (coreAt s c).task, holderOf s c with
    | some t, some l =>
      if maySteps s l then
        let sys := match ctxBy s l.ctx with | some x => x.sys | none => false
        some ⟨c, if sys then .system else .task, .bank t.bank, l,
          ⟨l.id, c, 1, t.bank.val, t.wid, t.pc, instrWord i⟩⟩
      else none
    | _, _ => none
  | some (.node c pe) =>
    match nodeAt (coreAt s c) pe, holderOf s c with
    | some n, some l =>
      if maySteps s l && !n.frozen && (n.firing.isSome || isStreamNode n) then
        some ⟨c, .node, .node pe, l, ⟨l.id, c, 2, pe.val, elemWid l (coreAt s c) (nodePlain n) (nodePlace n), 0, instrWord i⟩⟩
      else none
    | _, _ => none
  | some (.action c p) =>
    let z := at' (coreAt s c).parsers p
    match z.run, holderOf s c with
    | some r, some l =>
      if maySteps s l && !z.frozen && !r.parked then
        some ⟨c, .action, .parser p, l, ⟨l.id, c, 5, p.val, z.lastWid, 0, instrWord i⟩⟩
      else none
    | _, _ => none

/-- What a word's own meaning comes to: its effect, a fault, or a wait in which the agent takes no step. -/
inductive Eff where
  | done (s : State)
  | trap (code : FaultCode) (addr extra : DWord)
  | wait
  deriving DecidableEq, Repr

/-- The operand fields of a word (R210). -/
def operandsOf : Instr → List Operand
  | .addi f | .muli f | .andi f | .ori f | .xori f | .shli f | .shri f | .sari f | .cmpi f | .movi f | .ldi f | .sti f
  | .mfs f | .mts f | .trap f => [f.d, f.a]
  | .br f | .brc f | .call f => [f.a, f.b]
  | .gstart f | .gstop f | .gmask f | .gfeed f | .gstat f => [f.d, f.a]
  | .gskip f => [f.a, f.b]
  | .wait _ => []
  | i => match engShape i with
    | some (_, _, f) => [f.d, f.a, f.b, f.c]
    | none => match i with
      | .tpost f | .msend f =>
        [f.d, f.a, f.b] ++ match f.c with
          | .x r => ((List.finRange 32).filter fun k => r ≤ k && k.val < r.val + f.x.toNat % 8).map .x
          | o => [o]
      | i => regOperands i
where
  /-- The fields of an F-REG word. -/
  regOperands (i : Instr) : List Operand :=
    match encode i with
    | some w => let f := regOfBits (loBits 8 56 w); [f.d, f.a, f.b, f.c]
    | none => []

/-- Whether a word names a register whose load is pending (R218, R225 check 7). -/
def namesPending (b : RegBank) (i : Instr) : Bool :=
  (operandsOf i).any fun o => match o with
    | .x r => r.val != 0 && b.pend.getLsbD r.val
    | _ => false

/-- Check 7 for the agent in focus. -/
def pendingRead (s : State) (e : Env) (i : Instr) : Bool :=
  match e.agent with
  | .bank b => namesPending (at' (coreAt s e.core).banks b) i
  | _ => false

/-- Whether the access is the fetch of a jump table's entry for a bank (R310). -/
def isJtabFor (b : BankId) : Dest → Bool
  | .jtab b' => b' == b
  | _ => false

/-- Whether an agent of a core waits for an engine to accept its command, or for a GQRY's answer (R330, R332). -/
def heldByEngine (s : State) (c : CoreId) (a : Agent) : Bool :=
  s.engs.any fun g => g.who.core == c && g.agent == a &&
    (g.stage == .offered || (g.stage != .complete && match g.i with | .gqry _ => true | _ => false))

/-- Whether the agent is held at issue, by an engine or by the entry that its JTAB fetches (R310). -/
def heldAtIssue (s : State) (e : Env) : Bool :=
  (match e.agent with
   | .bank b => s.accs.any fun a => a.who.core == e.core && isJtabFor b a.dest
   | _ => false) || heldByEngine s e.core e.agent

/-- Whether a parser has an action word for the action unit (R50). -/
def actionReady (s : State) (c : CoreId) (p : ParserId) : Bool :=
  let z := at' (coreAt s c).parsers p
  match z.run with
  | some r => !z.frozen && !r.parked && !heldByEngine s c (.parser p)
  | none => false

/-- Whether the action unit's turn is a parser's, round-robin among those that are ready (R22, R50). -/
def actionTurn (s : State) (c : CoreId) (p : ParserId) : Bool :=
  nextTurn (coreAt s c).actTurn (actionReady s c) == some p

/-- The first of the checks of R225 that fails on a word in its agent's state: checks 2 to 6, check 7, then the checks
of its entry that need no value. -/
def wordFault (s : State) (e : Env) (i : Instr) : Option FaultCode :=
  (checkStage e.kind false i).or <| if pendingRead s e i then some .pendingRead else checkStage e.kind true i

/-- A raising element, or the engine in its place. -/
def onEngine (w : Who) : Option (Nat × Nat) → Who
  | some u => { w with unit := u.1, elem := u.2 }
  | none => w

/-- One instruction word for the agent in focus: the checks of R225 in their order, then its own meaning. A fault
changes nothing but the launch's end. -/
def runWord (i : Instr) (s : State) (body : Env → Eff) : Out :=
  match envOf s i with
  | none => .next s
  | some e =>
    if heldAtIssue s e then .next s
    else match wordFault s e i with
      | some code => .next (raise code (onEngine e.who (issueUnit e.kind code i)) e.who.pc 0 s)
      | none =>
        match body e with
        | .done s' => .next s'
        | .trap code a x => .next (raiseRead code e.who a x e.launch.ctx s)
        | .wait => .next s

/-! ## Actions being done (R63) -/

/-- One word of an action is done; an action with no word left is done. -/
def actDone (z : Parser) (id n : Nat) : Parser :=
  { z with acts := (z.acts.map fun r => if r.id = id then { r with left := r.left - n } else r).filter (·.left != 0) }

/-- One word of an action of a core is done. -/
def wordDone (s : State) (c : CoreId) (p : ParserId) (id : Nat) : State := modCore s c fun k => modParser k p (actDone · id 1)

/-- The next word of an action, or the end of its words. A parser that waits for a later action's permit goes on waiting
(R61, R64). -/
def actAdvance (z : Parser) (n : Nat) : Parser :=
  match z.run with
  | none => z
  | some r =>
    if r.word + n ≥ r.stop then { z with run := none }
    else { z with run := some { r with word := r.word + n, parked := false } }

/-- The agent goes to its next instruction. `done` says that an action's word is done as it executes (R63). -/
def advance (e : Env) (done : Bool) (s : State) : State :=
  match e.agent with
  | .bank _ => modCore s e.core fun k => { k with task := k.task.map fun t => { t with pc := t.pc + 8 } }
  | .node pe => modCore s e.core fun k => modNode k pe fun n =>
      { n with firing := n.firing.map fun f => { f with idx := f.idx + 1 } }
  | .parser p => modCore s e.core fun k => modParser k p fun z =>
      match z.run with
      | none => z
      | some r => actAdvance (if done then actDone z r.id 1 else z) 1
  | _ => s

/-- Tokens on their way to the emit port that a byte-mode parser has now (R207). -/
def Parser.emit (z : Parser) (ts : List GTok) : Parser := { z with out := z.out ++ ts.map (·, z.outEdge, z.outVc) }

/-- The action of the word being executed, if one is. -/
def currentAct (s : State) (e : Env) : Option Nat :=
  match e.agent with
  | .parser p => (at' (coreAt s e.core).parsers p).run.map (·.id)
  | _ => none

/-! ## Queues of the fabric (R35, R80, R86) -/

/-- The tokens in a queue. -/
def queueAt (k : Core) (q : QKey) : List Flit := ((k.queues.find? (·.1 == q)).map (·.2)).getD []
/-- The control tokens in a queue. -/
def cqueueAt (k : Core) (q : QKey) : List CFlit := ((k.cqueues.find? (·.1 == q)).map (·.2)).getD []

/-- An association list with one entry set; an empty list of tokens is not kept. -/
def assocSet {α : Type} [DecidableEq α] {β : Type} (xs : List (α × List β)) (a : α) (v : List β) : List (α × List β) :=
  if v.isEmpty then xs.filter (·.1 != a)
  else if xs.any (·.1 == a) then xs.map fun e => if e.1 = a then (a, v) else e
  else xs ++ [(a, v)]

/-- A queue's tokens set. -/
def setQueue (k : Core) (q : QKey) (v : List Flit) : Core := { k with queues := assocSet k.queues q v }
/-- A control queue's tokens set. -/
def setCqueue (k : Core) (q : QKey) (v : List CFlit) : Core := { k with cqueues := assocSet k.cqueues q v }

/-- The depth of a freshly configured queue (R35, R80). Of an edge router's queues for its AG and its messages and of a PE's
condition ports the spec gives none (log entry 70). -/
def baseDepth : QKey → Nat
  | .pe _ _ => 4
  | .pec _ _ => 4
  | .mt _ _ => 16
  | .edge _ _ => 2
  | .link _ _ _ => 2
  | .post _ => 4
  | .ctl _ _ _ => 4

/-- A queue's capacity with its enlargements (R86). -/
def capacity (k : Core) (q : QKey) : Nat :=
  baseDepth q + ((k.extra.filter (·.1 == q)).map (·.2)).sum

/-- Whether a queue has room for one more token. -/
def hasRoom (k : Core) (q : QKey) : Bool := (queueAt k q).length < capacity k q
/-- A control queue as R80 counts it: a router's input port has one buffer for all its local sub-ports. -/
def ctlBuffer : QKey → QKey
  | .ctl r p _ => .ctl r p 0
  | q => q
/-- The control tokens in the buffer of a queue. -/
def ctlUsed (k : Core) : QKey → Nat
  | .ctl r p _ => ((List.finRange 4).map fun v => (cqueueAt k (.ctl r p v)).length).sum
  | q => (cqueueAt k q).length
/-- Whether a control queue has room. -/
def hasCroom (k : Core) (q : QKey) : Bool := ctlUsed k q < capacity k (ctlBuffer q)

/-- A token at the end of a queue. -/
def pushTok (k : Core) (q : QKey) (t : Flit) : Core := setQueue k q (queueAt k q ++ [t])
/-- A control token at the end of a queue. -/
def pushCtl (k : Core) (q : QKey) (t : CFlit) : Core := setCqueue k q (cqueueAt k q ++ [t])
/-- A queue without its head. -/
def popTok (k : Core) (q : QKey) : Core := setQueue k q (queueAt k q).tail
/-- A control queue without its head. -/
def popCtl (k : Core) (q : QKey) : Core := setCqueue k q (cqueueAt k q).tail

/-! ## Fields of stream descriptors (R28) and of bindings (R171) -/

/-- MODE of a stream descriptor: 0 READ, 1 WRITE, 2 INDEX. -/
def sdMode (d : Vector DWord 8) : Nat := field d[1] 63 61
/-- RNG of a stream descriptor. -/
def sdRng (d : Vector DWord 8) : Bool := bitOf d[1] 46
/-- ISRC of a binding: 0 STREAM, 1 TILE. -/
def bdSrc (d : Vector DWord 4) : Nat := field d[0] 63 62
/-- ODST of a binding: 0 STREAM, 1 TILE, 2 MEMORY. -/
def bdDst (d : Vector DWord 4) : Nat := field d[0] 61 60
/-- EDGE of a binding. -/
def bdEdge (d : Vector DWord 4) : AgId := Fin.ofNat 16 (field d[0] 58 55)
/-- OEDGE of a binding. -/
def bdOedge (d : Vector DWord 4) : AgId := Fin.ofNat 16 (field d[0] 54 51)

/-- The router of a core, if the image configures it. -/
def routerAt (k : Core) (r : RouterId) : Option Router := k.routers.find? (·.id == r)
/-- A router changed. -/
def modRouter (k : Core) (r : RouterId) (f : Router → Router) : Core :=
  { k with routers := k.routers.map fun x => if x.id = r then f x else x }

/-- Whether a switch entry is valid for an input port and VC (R36). -/
def swMatches (w : Word) (port vc : Nat) : Bool :=
  w.getLsbD 31 && (w.extractLsb' 28 3).toNat == port && (w.extractLsb' 26 2).toNat == vc

/-- Whether a token that an element writes as input L on a VC finds an entry there; else it is discarded as it is
written (R37). -/
def wanted (k : Core) (r : RouterId) (vc : Nat) : Bool :=
  match routerAt k r with
  | some x => x.sw.any (swMatches · 4 vc)
  | none => false

/-- Whether an element may write a token into its router on a VC. -/
def canWrite (k : Core) (r : RouterId) (vc : Fin 4) : Bool := !wanted k r vc.val || hasRoom k (.link r 4 vc)

/-- A token written by an element into its router on a VC. -/
def writeLocal (k : Core) (r : RouterId) (vc : Fin 4) (t : Flit) : Core :=
  if wanted k r vc.val then pushTok k (.link r 4 vc) t else k

/-- Whether a control entry is valid for an input port and sub-port (R93). -/
def ctMatches (w : Word) (port sub : Nat) : Bool :=
  w.getLsbD 31 && (w.extractLsb' 28 3).toNat == port && (port != 4 || (w.extractLsb' 26 2).toNat == sub)

/-- Whether a local sub-port has an entry (R93). -/
def ctWanted (k : Core) (r : RouterId) (sub : Nat) : Bool :=
  match routerAt k r with
  | some x => x.ctl.any (ctMatches · 4 sub)
  | none => false

/-- Whether a control token may be sent from a local sub-port. -/
def canSend (k : Core) (r : RouterId) (sub : Fin 4) : Bool := !ctWanted k r sub.val || hasCroom k (.ctl r 4 sub)

/-- A control token sent from a local sub-port; discarded where no entry takes it (R93). -/
def sendLocal (k : Core) (r : RouterId) (sub : Fin 4) (t : CFlit) : Core :=
  if ctWanted k r sub.val then pushCtl k (.ctl r 4 sub) t else k

end Sys2Proof.Machine
end

