-- ==== Sys2Proof/Machine/Float.lean ====
section
/-! DEFINITION. Floating-point, tapered and converted values (R100 to R112, R251 to R261). A finite value is held
exactly as (−1)^s · m · 2^e; each result is rounded once. -/

namespace Sys2Proof.Machine
open Sys2Proof

/-- A value of any of the formats 0x1 to 0x8. `nan` carries its sign, its fraction left-aligned to 23 bits and
whether it is signalling; NaR of a tapered format is `nar`. -/
inductive FVal where
  | fin (s : Bool) (m : Nat) (e : Int)
  | inf (s : Bool)
  | nan (s : Bool) (frac : Nat) (sig : Bool)
  | nar
  deriving DecidableEq, Repr

/-- How special values are treated (R106, R107, R110). -/
structure FpMode where
  daz : Bool
  ftz : Bool
  nanp : Bool
  deriving DecidableEq, Repr

/-- The three bits clear (R88, R139). -/
def FpMode.plain : FpMode := ⟨false, false, false⟩

/-- Exponent and fraction widths (R100). -/
def ieeeDims : Fmt → Nat × Nat
  | .fp16 => (5, 10)
  | .bf16 => (8, 7)
  | _ => (8, 23)

/-- The exponent bias (R100). -/
def ieeeBias (f : Fmt) : Nat := 2 ^ ((ieeeDims f).1 - 1) - 1

/-- An IEEE pattern as a value (R100). -/
def ieeeOf (f : Fmt) (bits : Nat) : FVal :=
  let eb := (ieeeDims f).1
  let fb := (ieeeDims f).2
  let s := (bits / 2 ^ (eb + fb)) % 2 == 1
  let ex := (bits / 2 ^ fb) % 2 ^ eb
  let fr := bits % 2 ^ fb
  if ex = 2 ^ eb - 1 then
    if fr = 0 then .inf s else .nan s (fr * 2 ^ (23 - fb)) (fr < 2 ^ (fb - 1))
  else if ex = 0 then .fin s fr (1 - (ieeeBias f : Int) - fb)
  else .fin s (2 ^ fb + fr) ((ex : Int) - ieeeBias f - fb)

/-- Whether a pattern is subnormal (R106). -/
def ieeeSubnormal (f : Fmt) (bits : Nat) : Bool :=
  let eb := (ieeeDims f).1
  let fb := (ieeeDims f).2
  (bits / 2 ^ fb) % 2 ^ eb == 0 && bits % 2 ^ fb != 0

/-- A source under DAZ (R106). -/
def ieeeSource (md : FpMode) (f : Fmt) (bits : Nat) : FVal :=
  match ieeeOf f bits with
  | .fin s m e => if md.daz && ieeeSubnormal f bits then .fin s 0 0 else .fin s m e
  | v => v

/-- Bits of sign, biased exponent and fraction. -/
def ieeePack (f : Fmt) (s : Bool) (ex fr : Nat) : Nat :=
  let eb := (ieeeDims f).1
  let fb := (ieeeDims f).2
  (if s then 2 ^ (eb + fb) else 0) + ex * 2 ^ fb + fr

/-- ±∞. -/
def ieeeInf (f : Fmt) (s : Bool) : Nat := ieeePack f s (2 ^ (ieeeDims f).1 - 1) 0
/-- ± the largest finite number. -/
def ieeeMax (f : Fmt) (s : Bool) : Nat := ieeePack f s (2 ^ (ieeeDims f).1 - 2) (2 ^ (ieeeDims f).2 - 1)
/-- ±0. -/
def ieeeZero (f : Fmt) (s : Bool) : Nat := ieeePack f s 0 0
/-- The canonical NaN (R100). -/
def ieeeNaN (f : Fmt) : Nat := ieeePack f false (2 ^ (ieeeDims f).1 - 1) (2 ^ ((ieeeDims f).2 - 1))

/-- A quotient by 2^`sh` rounded to an integer under RND (R105), for a magnitude whose sign is `s`; `sticky` says
that the exact value lies above `m` by less than one. Answers the integer and whether it is inexact. -/
def roundShift (rnd : BitVec 2) (s : Bool) (m sh : Nat) (sticky : Bool) : Nat × Bool :=
  let k := m / 2 ^ sh
  let r := m % 2 ^ sh
  let inexact := r != 0 || sticky
  let half := if sh = 0 then 1 else 2 ^ (sh - 1)
  let up := match rnd.toNat with
    | 0 => if sh = 0 then false else decide (r > half) || (r == half && (sticky || k % 2 == 1))
    | 1 => false
    | 2 => inexact && !s
    | _ => inexact && s
  (if up then k + 1 else k, inexact)

/-- An exact value m · 2^e rounded to a unit of 2^q. -/
def roundUnit (rnd : BitVec 2) (s : Bool) (m : Nat) (e q : Int) (sticky : Bool) : Nat × Bool :=
  if q ≤ e then (m * 2 ^ (e - q).toNat, sticky) else roundShift rnd s m (q - e).toNat sticky

/-- What an overflow leaves (R108). -/
def ieeeOverflow (f : Fmt) (rnd : BitVec 2) (sat s : Bool) : Nat × FlagBits :=
  let toMax := sat || rnd == 1 || (rnd == 2 && s) || (rnd == 3 && !s)
  (if toMax then ieeeMax f s else ieeeInf f s, flOF ||| flNX ||| flagIf sat flSAT)

/-- A nonzero or zero finite value rounded once to an IEEE format (R101, R106, R108). A tiny inexact value that rounds to zero or
to the smallest normal number sets UF and NX under FTZ too (log entry 89). -/
def roundIeee (md : FpMode) (f : Fmt) (rnd : BitVec 2) (sat s : Bool) (m : Nat) (e : Int) (sticky : Bool) :
    Nat × FlagBits :=
  if m = 0 then (ieeeZero f s, 0)
  else
    let fb := (ieeeDims f).2
    let emin : Int := 1 - (ieeeBias f : Int)
    let top : Int := e + bitLen m - 1
    let q : Int := max (top - fb) (emin - fb)
    let r := roundUnit rnd s m e q sticky
    let carry := decide (r.1 ≥ 2 ^ (fb + 1))
    let k := if carry then r.1 / 2 else r.1
    let q' := if carry then q + 1 else q
    if k < 2 ^ fb then
      -- subnormal or zero after rounding
      if md.ftz && k != 0 then (ieeeZero f s, flUF ||| flNX)
      else (ieeePack f s 0 k, flagIf r.2 (flUF ||| flNX))
    else
      let ex : Int := q' + fb + ieeeBias f
      if ex ≥ 2 ^ (ieeeDims f).1 - 1 then ieeeOverflow f rnd sat s
      else
        -- tiny after rounding with an unbounded exponent, though the delivered result is the smallest normal
        let tiny := decide (top < emin) &&
          decide ((roundUnit rnd s m e (top - fb) sticky).1 < 2 ^ (fb + 1))
        (ieeePack f s ex.toNat (k - 2 ^ fb), flagIf r.2 flNX ||| flagIf (r.2 && tiny) flUF)

/-- A NaN operand quieted in a format (R107). -/
def quietNaN (f : Fmt) (s : Bool) (frac : Nat) : Nat :=
  let fb := (ieeeDims f).2
  let fr := (frac / 2 ^ (23 - fb)) % 2 ^ (fb - 1)
  ieeePack f s (2 ^ (ieeeDims f).1 - 1) (2 ^ (fb - 1) + fr)

/-- The first NaN of a list of operands. -/
def firstNaN : List FVal → Option (Bool × Nat)
  | [] => none
  | .nan s fr _ :: _ => some (s, fr)
  | _ :: vs => firstNaN vs

/-- Whether an operand is a signalling NaN. -/
def isSignalling : FVal → Bool
  | .nan _ _ sig => sig
  | _ => false

/-- Whether an operand is a NaN. -/
def isNaN : FVal → Bool
  | .nan _ _ _ => true
  | _ => false

/-- The NaN that an operation on these operands gives, with NV for a signalling one (R107). -/
def nanOf (md : FpMode) (f : Fmt) (ops : List FVal) (invalid : Bool) : Nat × FlagBits :=
  let bits := match firstNaN ops with
    | some (s, fr) => if md.nanp then quietNaN f s fr else ieeeNaN f
    | none => ieeeNaN f
  (bits, flagIf (invalid || ops.any isSignalling) flNV)

/-- The signed mantissa of a finite value at exponent `q` no greater than its own. -/
def mantAt (s : Bool) (m : Nat) (e q : Int) : Int :=
  let k : Int := (m * 2 ^ (e - q).toNat : Nat)
  if s then -k else k

/-- a + b, exact, rounded once (R253). -/
def fpSum (md : FpMode) (f : Fmt) (rnd : BitVec 2) (sat : Bool) (s1 : Bool) (m1 : Nat) (e1 : Int) (s2 : Bool)
    (m2 : Nat) (e2 : Int) : Nat × FlagBits :=
  if m1 = 0 ∧ m2 = 0 then (ieeeZero f (if s1 = s2 then s1 else rnd == 3), 0)
  else
    let q := if m1 = 0 then e2 else if m2 = 0 then e1 else min e1 e2
    let x := (if m1 = 0 then 0 else mantAt s1 m1 e1 q) + (if m2 = 0 then 0 else mantAt s2 m2 e2 q)
    if x = 0 then (ieeeZero f (rnd == 3), 0)
    else roundIeee md f rnd sat (decide (x < 0)) x.natAbs q false

/-- FADD on values (R253). -/
def fpAdd (md : FpMode) (f : Fmt) (rnd : BitVec 2) (sat : Bool) (a b : FVal) : Nat × FlagBits :=
  match a, b with
  | .fin s1 m1 e1, .fin s2 m2 e2 => fpSum md f rnd sat s1 m1 e1 s2 m2 e2
  | .inf s1, .inf s2 => if s1 = s2 then (ieeeInf f s1, 0) else nanOf md f [a, b] true
  | .inf s, .fin _ _ _ | .fin _ _ _, .inf s => (ieeeInf f s, 0)
  | _, _ => nanOf md f [a, b] false

/-- The value with its sign turned over; a NaN is left as it is. -/
def fpNegate : FVal → FVal
  | .fin s m e => .fin (!s) m e
  | .inf s => .inf (!s)
  | v => v

/-- FMUL on values (R253). -/
def fpMul (md : FpMode) (f : Fmt) (rnd : BitVec 2) (sat : Bool) (a b : FVal) : Nat × FlagBits :=
  match a, b with
  | .fin s1 m1 e1, .fin s2 m2 e2 => roundIeee md f rnd sat (s1 != s2) (m1 * m2) (e1 + e2) false
  | .inf s1, .inf s2 => (ieeeInf f (s1 != s2), 0)
  | .inf s1, .fin s2 m _ | .fin s2 m _, .inf s1 =>
    if m = 0 then nanOf md f [a, b] true else (ieeeInf f (s1 != s2), 0)
  | _, _ => nanOf md f [a, b] false

/-- FMA on values: one rounding (R253). 0 × ∞ plus a quiet NaN sets NV. -/
def fpFma (md : FpMode) (f : Fmt) (rnd : BitVec 2) (sat : Bool) (a b c : FVal) : Nat × FlagBits :=
  let zeroInf := match a, b with
    | .inf _, .fin _ m _ | .fin _ m _, .inf _ => m == 0
    | _, _ => false
  if isNaN a || isNaN b || isNaN c || zeroInf then nanOf md f [a, b, c] zeroInf
  else
    match a, b with
    | .fin s1 m1 e1, .fin s2 m2 e2 =>
      match c with
      | .fin s3 m3 e3 => fpSum md f rnd sat (s1 != s2) (m1 * m2) (e1 + e2) s3 m3 e3
      | .inf s => (ieeeInf f s, 0)
      | _ => nanOf md f [c] false
    | .inf s1, .fin s2 _ _ | .fin s2 _ _, .inf s1 | .inf s1, .inf s2 =>
      match c with
      | .inf s => if s = (s1 != s2) then (ieeeInf f s, 0) else nanOf md f [a, b, c] true
      | _ => (ieeeInf f (s1 != s2), 0)
    | _, _ => nanOf md f [a, b, c] false

/-- −1, 0 or 1 as a is below, equal to or above b; a finite value against an infinity included. -/
def fpOrder (a b : FVal) : Int :=
  match a, b with
  | .fin s1 m1 e1, .fin s2 m2 e2 =>
    let q := min e1 e2
    let x := mantAt s1 m1 e1 q - mantAt s2 m2 e2 q
    if x < 0 then -1 else if x = 0 then 0 else 1
  | .inf s1, .inf s2 => if s1 = s2 then 0 else if s1 then -1 else 1
  | .inf s, _ => if s then -1 else 1
  | _, .inf s => if s then 1 else -1
  | _, _ => 0

/-- The pattern of a finite or infinite value of the format, unrounded (R254). -/
def fpBits (f : Fmt) : FVal → Nat
  | .fin s m e => (roundIeee .plain f 0 false s m e false).1
  | .inf s => ieeeInf f s
  | _ => ieeeNaN f

/-- The sign bit of a value. -/
def fpSign : FVal → Bool
  | .fin s _ _ | .inf s | .nan s _ _ => s
  | .nar => false

/-- FMIN, or FMAX when `mx` (R108, R254). -/
def fpMinMax (mx : Bool) (md : FpMode) (f : Fmt) (a b : FVal) : Nat × FlagBits :=
  let nv := flagIf (isSignalling a || isSignalling b) flNV
  if isNaN a && isNaN b then nanOf md f [a, b] false
  else if isNaN a then (fpBits f b, nv)
  else if isNaN b then (fpBits f a, nv)
  else
    let o := fpOrder a b
    let pickA := if o = 0 then (if mx then !fpSign a else fpSign a) else if mx then decide (o > 0) else decide (o < 0)
    (fpBits f (if pickA then a else b), nv)

/-- FCMP (R255). -/
def fpCmp (cc : Nat) (a b : FVal) : Bool × FlagBits :=
  let un := isNaN a || isNaN b
  let o := fpOrder a b
  let holds := match cc with
    | 0 => !un && o == 0
    | 1 => un || o != 0
    | 2 => !un && decide (o < 0)
    | 3 => !un && decide (o ≥ 0)
    | 4 => un || decide (o < 0)
    | _ => un || decide (o ≥ 0)
  (holds, flagIf (isSignalling a || isSignalling b || (un && (cc == 2 || cc == 3))) flNV)

/-- The integer square root, bit by bit from bit `n` down. -/
def isqrtFrom : Nat → Nat → Nat → Nat
  | 0, x, r => if (r + 1) * (r + 1) ≤ x then r + 1 else r
  | n + 1, x, r =>
    let r' := r + 2 ^ (n + 1)
    isqrtFrom n x (if r' * r' ≤ x then r' else r)

/-- The greatest number whose square is at most `x`. -/
def isqrt (x : Nat) : Nat := isqrtFrom (bitLen x / 2 + 1) x 0

/-- FRCP (R257). -/
def fpRcp (md : FpMode) (f : Fmt) (rnd : BitVec 2) (sat : Bool) (a : FVal) : Nat × FlagBits :=
  match a with
  | .fin s m e =>
    if m = 0 then (ieeeInf f s, flDZ)
    else
      let n := bitLen m + 32
      roundIeee md f rnd sat s (2 ^ n / m) (-(n : Int) - e) (2 ^ n % m != 0)
  | .inf s => (ieeeZero f s, 0)
  | _ => nanOf md f [a] false

/-- FRSQ (R257). -/
def fpRsq (md : FpMode) (f : Fmt) (rnd : BitVec 2) (sat : Bool) (a : FVal) : Nat × FlagBits :=
  match a with
  | .fin s m e =>
    if m = 0 then (ieeeInf f s, flDZ)
    else if s then nanOf md f [] true
    else
      let odd := e % 2 != 0
      let m' := if odd then 2 * m else m
      let h := (if odd then e - 1 else e) / 2
      let n := bitLen m' + 32
      let r := isqrt (2 ^ (2 * n) / m')
      roundIeee md f rnd sat false r (-(n : Int) - h) (r * r * m' != 2 ^ (2 * n))
  | .inf s => if s then nanOf md f [] true else (ieeeZero f false, 0)
  | _ => nanOf md f [a] false

/-- Fraction bits that the exponential and the logarithm are formed with: past every rounding boundary that a
24-bit result of these functions can come near. -/
def fpGuard : Nat := 320

/-- 2^f to `fpGuard` bits for the fraction whose bits, most significant first, are the low `n` bits of `fr`:
`root` is 2^(2^−i), `p` the product so far. -/
def exp2Frac : Nat → Nat → Nat → Nat → Nat
  | 0, _, _, p => p
  | n + 1, fr, root, p =>
    let root' := isqrt (root * 2 ^ fpGuard)
    let p' := if (fr / 2 ^ n) % 2 = 1 then p * root' / 2 ^ fpGuard else p
    exp2Frac n fr root' p'

/-- FEXP2 (R257). An integer a is exact; any other a gives an irrational number. -/
def fpExp2 (md : FpMode) (f : Fmt) (rnd : BitVec 2) (sat : Bool) (a : FVal) : Nat × FlagBits :=
  match a with
  | .fin s m e =>
    if m = 0 then roundIeee md f rnd sat false 1 0 false
    else
      let top : Int := e + bitLen m - 1
      if top ≥ 12 then
        if s then roundIeee md f rnd sat false 1 (-5000) false else roundIeee md f rnd sat false 1 5000 false
      else
        let n := (-e).toNat                    -- fraction bits
        let x : Int := if e ≥ 0 then mantAt s m e 0 else mantAt s m e e
        let ip := x / 2 ^ n
        let fr := (x % 2 ^ n).toNat
        if fr = 0 then roundIeee md f rnd sat false 1 ip false
        else
          let p := exp2Frac n fr (2 * 2 ^ fpGuard) (2 ^ fpGuard)
          roundIeee md f rnd sat false (p / 2 ^ 16) (ip - (fpGuard - 16 : Nat)) true
  | .inf s => (if s then ieeeZero f false else ieeeInf f false, 0)
  | _ => nanOf md f [a] false

/-- `n` bits of log2 of y / 2^`k`, y in [2^k, 2^(k+1)): square, and take a bit when the square reaches 2. -/
def log2Bits : Nat → Nat → Nat → Nat → Nat
  | 0, _, _, acc => acc
  | n + 1, k, y, acc =>
    let y' := y * y / 2 ^ k
    if y' ≥ 2 ^ (k + 1) then log2Bits n k (y' / 2) (2 * acc + 1) else log2Bits n k y' (2 * acc)

/-- FLOG2 (R257). A power of two is exact; any other number has an irrational logarithm. -/
def fpLog2 (md : FpMode) (f : Fmt) (rnd : BitVec 2) (sat : Bool) (a : FVal) : Nat × FlagBits :=
  match a with
  | .fin s m e =>
    if m = 0 then (ieeeInf f true, flDZ)
    else if s then nanOf md f [] true
    else
      let l := bitLen m - 1
      let ip : Int := e + l
      if m = 2 ^ l then
        if ip = 0 then (ieeeZero f false, 0) else roundIeee md f rnd sat (decide (ip < 0)) ip.natAbs 0 false
      else
        let n := 200
        let k := 480
        let fr : Int := log2Bits n k (m * 2 ^ (k - l)) 0
        let x := ip * 2 ^ n + fr
        if x ≥ 0 then roundIeee md f rnd sat false x.natAbs (-(n : Int)) true
        else roundIeee md f rnd sat true (x.natAbs - 1) (-(n : Int)) true
  | .inf s => if s then nanOf md f [] true else (ieeeInf f false, 0)
  | _ => nanOf md f [a] false

/-- FRND (R258). -/
def fpRnd (md : FpMode) (f : Fmt) (rnd : BitVec 2) (a : FVal) : Nat × FlagBits :=
  match a with
  | .fin s m e =>
    if m = 0 then (ieeeZero f s, 0)
    else
      let r := roundUnit rnd s m e 0 false
      if e ≥ 0 then ((roundIeee md f rnd false s m e false).1, 0)
      else ((roundIeee md f rnd false s r.1 0 false).1, flagIf r.2 flNX)
  | .inf s => (ieeeInf f s, 0)
  | _ => nanOf md f [a] false

/-- FCLS (R261): bits 0 to 9. -/
def fpClass (f : Fmt) (bits : Nat) : Nat :=
  match ieeeOf f bits with
  | .inf s => if s then 2 ^ 0 else 2 ^ 7
  | .nan _ _ sig => if sig then 2 ^ 8 else 2 ^ 9
  | .fin s m _ =>
    if m = 0 then (if s then 2 ^ 3 else 2 ^ 4)
    else if ieeeSubnormal f bits then (if s then 2 ^ 2 else 2 ^ 5)
    else if s then 2 ^ 1 else 2 ^ 6
  | .nar => 0

/-- FSGN (R256) on a pattern of `w` bits. -/
def fpSgn (w : Nat) (mode : Nat) (a b : Nat) : Nat :=
  let top := 2 ^ (w - 1)
  let sa := (a / top) % 2
  let sb := (b / top) % 2
  let s := match mode with
    | 0 => sb
    | 1 => 1 - sb
    | 2 => (sa + sb) % 2
    | _ => 0
  a % top + s * top

/-! ## Tapered formats (R102 to R104) -/

/-- The bits of a magnitude code. -/
def tapBits : Fmt → Nat
  | .t6 => 5
  | _ => 7

/-- The length of the run of bits equal to `b` at the top of the low `n` bits of `c`. -/
def runLen (b : Nat) : Nat → Nat → Nat
  | 0, _ => 0
  | n + 1, c => if (c / 2 ^ n) % 2 = b then 1 + runLen b n c else 0

/-- A nonzero magnitude code as m · 2^e (R102). -/
def tapValue (f : Fmt) (c : Nat) : Nat × Int :=
  let n := tapBits f
  let b := (c / 2 ^ (n - 1)) % 2
  let k := runLen b n c
  let r : Int := if b = 1 then (k : Int) - 1 else -(k : Int)
  let rest := n - k - 1                           -- bits after the ending bit
  if n ≤ k + 1 then (1, 2 * r)
  else
    let ex : Int := ((c / 2 ^ (rest - 1)) % 2 : Nat)
    let nf := rest - 1
    (2 ^ nf + c % 2 ^ nf, 2 * r + ex - nf)

/-- A tapered code as a value (R102). -/
def tapOf (f : Fmt) (bits : Nat) : FVal :=
  let n := tapBits f
  let s := (bits / 2 ^ n) % 2 == 1
  let c := bits % 2 ^ n
  if c = 0 then (if s then .nar else .fin false 0 0)
  else let v := tapValue f c; .fin s v.1 v.2

/-- Whether the value of a magnitude code is at most m · 2^e (with `sticky`, a little more than m · 2^e). -/
def tapLe (f : Fmt) (c m : Nat) (e : Int) : Bool :=
  let v := tapValue f c
  let q := min v.2 e
  decide (v.1 * 2 ^ (v.2 - q).toNat ≤ m * 2 ^ (e - q).toNat)

/-- The largest magnitude code, counting down from `c`, whose value is at most m · 2^e; 0 when none is. -/
def tapFloor (f : Fmt) : Nat → Nat → Int → Nat
  | 0, _, _ => 0
  | c + 1, m, e => if tapLe f (c + 1) m e then c + 1 else tapFloor f c m e

/-- A finite value rounded to a tapered format (R104). -/
def roundTapered (f : Fmt) (rnd : BitVec 2) (sat s : Bool) (m : Nat) (e : Int) : Nat × FlagBits :=
  let n := tapBits f
  let top := 2 ^ n - 1
  let sg := if s then 2 ^ n else 0
  if m = 0 then (0, 0)
  else
    let c := tapFloor f top m e
    if c = 0 then (sg + 1, flUF ||| flNX)
    else
      let v := tapValue f c
      let q := min v.2 e
      let lo := v.1 * 2 ^ (v.2 - q).toNat
      let x := m * 2 ^ (e - q).toNat
      if lo = x then (sg + c, 0)
      else if c = top then (sg + top, flOF ||| flNX ||| flagIf sat flSAT)
      else
        let u := tapValue f (c + 1)
        let q2 := min q u.2
        let lo2 := lo * 2 ^ (q - q2).toNat
        let x2 := x * 2 ^ (q - q2).toNat
        let hi2 := u.1 * 2 ^ (u.2 - q2).toNat
        let up := match rnd.toNat with
          | 0 => decide (hi2 - x2 < x2 - lo2) || (hi2 - x2 == x2 - lo2 && c % 2 == 1)
          | 1 => false
          | 2 => !s
          | _ => s
        (sg + (if up then c + 1 else c), flNX)

/-! ## Conversions (R109, R112, R259, R260) -/

/-- Whether a format is one of the integer formats of CVT. -/
def isIntFmt : Fmt → Bool
  | .i8 | .i16 | .i32 => true
  | _ => false
/-- Whether a format is IEEE. -/
def isIeeeFmt : Fmt → Bool
  | .fp16 | .bf16 | .fp32 => true
  | _ => false
/-- Whether a format is tapered. -/
def isTapFmt : Fmt → Bool
  | .t8 | .t6 => true
  | _ => false

/-- A source of a conversion as a value, DAZ applied to IEEE sources (R109). -/
def cvtSource (md : FpMode) (src : Fmt) (u : Bool) (v : DWord) : FVal :=
  let w := widthOf true src
  if isIntFmt src then
    let x := reduced w u v
    .fin (decide (x < 0)) x.natAbs 0
  else if isTapFmt src then tapOf src (lowBits w v)
  else ieeeSource md src (lowBits w v)

/-- The indefinite value of an integer target (R109). -/
def indefinite (w : Nat) (uns : Bool) : Nat := if uns then 2 ^ w - 1 else 2 ^ (w - 1)

/-- A value to an integer of W bits (R109). `wraps` says that the source is an integer, which R99 governs. -/
def toInteger (w : Nat) (uns sat wraps : Bool) (rnd : BitVec 2) (v : FVal) : Nat × FlagBits :=
  match v with
  | .fin s m e =>
    let r := roundUnit rnd s m e 0 false
    let x : Int := if s then -(r.1 : Int) else r.1
    let rg := rangeOf w uns
    let inR := decide (rg.1 ≤ x) && decide (x ≤ rg.2)
    if wraps then
      let k := finishInt w uns sat x
      (k.1, k.2 ||| flagIf r.2 flNX)
    else if inR then (wrapTo w x, flagIf r.2 flNX)
    else if sat then (wrapTo w (if x < rg.1 then rg.1 else rg.2), flSAT ||| flagIf r.2 flNX)
    else (indefinite w uns, flNV)
  | .inf s =>
    let rg := rangeOf w uns
    if sat then (wrapTo w (if s then rg.1 else rg.2), flSAT) else (indefinite w uns, flNV)
  | _ => if sat then (0, flNV) else (indefinite w uns, flNV)

/-- A value to an IEEE format (R109). -/
def toIeee (md : FpMode) (f : Fmt) (rnd : BitVec 2) (sat : Bool) (v : FVal) : Nat × FlagBits :=
  match v with
  | .fin s m e => roundIeee md f rnd sat s m e false
  | .inf s => (ieeeInf f s, 0)
  | .nan _ _ _ => nanOf md f [v] false
  | .nar => (ieeeNaN f, 0)

/-- A value to a tapered format (R104, R109). -/
def toTapered (f : Fmt) (rnd : BitVec 2) (sat : Bool) (v : FVal) : Nat × FlagBits :=
  let n := tapBits f
  match v with
  | .fin s m e => roundTapered f rnd sat s m e
  | .inf s => if sat then ((if s then 2 ^ n else 0) + (2 ^ n - 1), flSAT) else (2 ^ n, flNV)
  | .nan _ _ sig => (2 ^ n, flagIf sig flNV)
  | .nar => (2 ^ n, 0)

/-- A conversion to format `f` (R109), and how it is extended (R259). -/
def convertTo (md : FpMode) (f src : Fmt) (rnd : BitVec 2) (sat u : Bool) (v : FVal) : DWord × FlagBits :=
  let w := widthOf true f
  if isIntFmt f then
    let r := toInteger w u sat (isIntFmt src) rnd v
    (extend w (!u) r.1, r.2)
  else if isTapFmt f then
    let r := toTapered f rnd sat v
    (BitVec.ofNat 64 r.1, r.2)
  else
    let r := toIeee md f rnd sat v
    (BitVec.ofNat 64 r.1, r.2)

/-- A value scaled by 2^k, exactly (R260). -/
def scaleBy (k : Int) : FVal → FVal
  | .fin s m e => .fin s m (if m = 0 then e else e + k)
  | v => v

/-- The scale of CVTS: the low 32 bits of B, signed, clamped to −1,024 to 1,023 (R260). -/
def scaleOf (b : DWord) : Int := max (-1024) (min 1023 (signedOf 32 (lowBits 32 b)))

/-- AMAX after a conversion saw the value (R112). -/
def amaxUpdate (amax : DWord) (v : FVal) : DWord :=
  let n := amax.toNat / 2 ^ 63
  let mag := amax.toNat % 2 ^ 31
  match v with
  | .fin _ m e =>
    let r := (roundIeee .plain .fp32 2 false false m e false).1
    BitVec.ofNat 64 (n * 2 ^ 63 + max mag r)
  | .inf _ => BitVec.ofNat 64 (n * 2 ^ 63 + 0x7F800000)
  | _ => BitVec.ofNat 64 (2 ^ 63 + mag)

/-- AMAX as an MTS leaves it: reserved bits ignored, MAG no more than +∞ (R112, R6). -/
def amaxStored (v : DWord) : DWord :=
  BitVec.ofNat 64 ((v.toNat / 2 ^ 63) * 2 ^ 63 + min (v.toNat % 2 ^ 31) 0x7F800000)

/-- An operand of a floating-point instruction: an imm7 stands for its integer value (R251). -/
def fpOperand (md : FpMode) (f : Fmt) (isImm : Bool) (v : DWord) : FVal :=
  if isImm then .fin (decide (v.toInt < 0)) v.toInt.natAbs 0 else ieeeSource md f (lowBits (widthOf true f) v)

/-- The pattern that an imm7 stands for in a format (R251). -/
def fpImmBits (f : Fmt) (v : DWord) : Nat := fpBits f (.fin (decide (v.toInt < 0)) v.toInt.natAbs 0)

/-- The special functions, by name (R257). -/
inductive Special where
  | rcp | rsq | exp2 | log2
  deriving DecidableEq, Repr

/-- A special function on a value (R257). -/
def fpSpecial (k : Special) (md : FpMode) (f : Fmt) (rnd : BitVec 2) (sat : Bool) (a : FVal) : Nat × FlagBits :=
  match k with
  | .rcp => fpRcp md f rnd sat a
  | .rsq => fpRsq md f rnd sat a
  | .exp2 => fpExp2 md f rnd sat a
  | .log2 => fpLog2 md f rnd sat a

end Sys2Proof.Machine
end

