-- ==== Sys2Proof/Machine/Operands.lean ====
section
/-! DEFINITION. Reading sources and writing destinations in each context (R74 to R78, R217, R237, R238), the firing
of a node as its outputs see it, and the shared shape of the instructions that compute a value. -/

namespace Sys2Proof.Machine
open Sys2Proof

/-- A source as an instruction reads it: its bits, whether it is void, the mark and tag of the token it came from,
and the format tag of an l register. -/
structure Src where
  v : DWord
  void : Bool
  mark : BitVec 3
  tag : BitVec 4
  fmt : Option Fmt
  deriving DecidableEq, Repr

/-- A plain value. -/
def Src.plain (v : DWord) : Src := ⟨v, false, 0, 0, none⟩

/-- An x register of a bank; x0 reads zero (R217). -/
def readX (b : RegBank) (r : Fin 32) : DWord := if r = 0 then 0 else at' b.x r
/-- A write to an x register; to x0 it is discarded (R217). -/
def writeX (b : RegBank) (r : Fin 32) (v : DWord) : RegBank := if r = 0 then b else { b with x := put b.x r v }

/-- A token as a source. A poison token is void (R27). -/
def srcOfToken (t : Token) : Src := ⟨t.data.setWidth 64, t.void, t.mark, t.tag, none⟩

/-- The head of a data port (R74). -/
def portHead (k : Core) (pe : PeId) (p : Fin 4) : Option Token :=
  match queueAt k (.pe pe p) with
  | .tok t :: _ => some t
  | _ => none

/-- The head of a condition port. -/
def condHead (k : Core) (pe : PeId) (p : Fin 4) : Option Bool :=
  match cqueueAt k (.pec pe p) with
  | .bit b :: _ => some b
  | _ => none

/-- The value of a source operand for the agent of the environment (R217, R237). -/
def readSrc (s : State) (e : Env) (o : Operand) : Src :=
  let k := coreAt s e.core
  match o with
  | .imm v => .plain (v.signExtend 64)
  | .x r => match e.agent with
    | .bank b => .plain (readX (at' k.banks b) r)
    | _ => .plain 0
  | .a r => match e.agent with
    | .parser p => .plain (at' (at' k.parsers p).a r)
    | _ => .plain 0
  | .l r => match e.agent with
    | .node pe => match nodeAt k pe with
      | some n => ⟨(at' n.l r).setWidth 64, false, 0, 0, some (at' n.tag r)⟩
      | none => .plain 0
    | _ => .plain 0
  | .p r => match e.agent with
    | .node pe => match portHead k pe r with
      | some t => srcOfToken t
      | none => .plain 0
    | _ => .plain 0
  | .c r => match e.agent with
    | .node pe => match condHead k pe r with
      | some b => .plain (if b then 1 else 0)
      | none => .plain 0
    | _ => .plain 0
  | _ => .plain 0

/-- A source's value alone. -/
def srcVal (s : State) (e : Env) (o : Operand) : DWord := (readSrc s e o).v

/-- Whether the context is a node. -/
def isNode (e : Env) : Bool := e.kind == .node

/-- The firing of a node. -/
def firingOf (s : State) (e : Env) : Option Firing :=
  match e.agent with
  | .node pe => (nodeAt (coreAt s e.core) pe).bind (·.firing)
  | _ => none

/-- The predicate of R78: true outside a node and on an empty stack. -/
def predicate (s : State) (e : Env) : Bool :=
  match firingOf s e with
  | some f => f.preds.all id
  | none => true

/-- A value as DATA of a token (R26): the results of this model are already extended to 32 bits or more. -/
def tokenOf (f : Firing) (void : Bool) (v : Word) : Token := ⟨f.mark, void, f.tag, if void then 0 else v⟩

/-- A poison token of a level (R27). -/
def poisonTok (tag : BitVec 4) (k : Nat) : Token := ⟨7, true, tag, BitVec.ofNat 32 k⟩

/-- An output added to a firing. -/
def addOut (f : Firing) (o : OutSlot) : Firing := { f with outs := f.outs ++ [o] }

/-- One destination written in a node's firing: nothing under poison but poison, nothing for a suppressed write but
a void token or a condition of 0 (R27, R77, R78). -/
def nodeWrite (n : Node) (o : Operand) (void : Bool) (v : Word) (fmt : Fmt) : Node :=
  match n.firing with
  | none => n
  | some f =>
    match o with
    | .l r => if void || f.poison.isSome then n else { n with l := put n.l r v, tag := put n.tag r fmt }
    | .q r =>
      let t := match f.poison with
        | some k => poisonTok f.tag k
        | none => tokenOf f void v
      { n with firing := some (addOut f ⟨⟨r.val, by omega⟩, t, true⟩) }
    | .e r =>
      let b := if void || f.poison.isSome then 0 else v &&& 1
      { n with firing := some (addOut f ⟨⟨4 + r.val, by omega⟩, ⟨0, false, 0, b⟩, true⟩) }
    | _ => n

/-- A destination written by the agent (R217, R238). -/
def writeDst (s : State) (e : Env) (o : Operand) (void : Bool) (v : DWord) (fmt : Fmt) : State :=
  match e.agent with
  | .bank b => match o with
    | .x r => modCore s e.core fun k => modBank k b (writeX · r v)
    | _ => s
  | .parser p => match o with
    | .a r => modCore s e.core fun k => modParser k p fun z => { z with a := put z.a r v }
    | _ => s
  | .node pe => modCore s e.core fun k => modNode k pe (nodeWrite · o void (v.setWidth 32) fmt)
  | _ => s

/-- Whether every l source holds the tag (R98). The loader has found it so (R221); in task and action context there
is no l source. -/
def tagsOk (xs : List Src) (f : Fmt) : Bool := xs.all fun x => match x.fmt with | some g => g == f | none => true

/-- The operand of a node that waits for a load of the firing: later instructions that read the value wait for it
(R285). -/
def lPending (s : State) (e : Env) (o : Operand) : Bool :=
  match e.agent, o with
  | .node pe, .l r => s.accs.any fun a => a.who.core == e.core && a.agent == .node pe &&
      (match a.dest with | .lreg _ r' _ _ _ => r' == r | _ => false)
  | _, _ => false

/-- An instruction that computes a value from its sources and writes one destination, with flags (R237, R238,
R77, R78, R111). -/
def execValue (i : Instr) (s : State) (d : Operand) (srcs : List Operand) (fmt : Fmt)
    (compute : Env → List Src → DWord × FlagBits) : Out :=
  runWord i s fun e =>
    if (d :: srcs).any (lPending s e) then .wait
    else
      let xs := srcs.map (readSrc s e)
      let void := xs.any (·.void) || !predicate s e
      let r := compute e xs
      let s1 := writeDst s e d void r.1 fmt
      let s2 := if void then s1 else mergeFlags s1 e.core r.2
      .done (advance e true s2)

/-- The n-th source's bits. -/
def nthSrc (xs : List Src) (n : Nat) : DWord := ((xs[n]?).map (·.v)).getD 0

/-- The format of an FMT field; check 6 has refused the others. -/
def fmtField (m : BitVec 8) : Fmt := (fmtOf (mFmt m)).getD .raw

/-- The mode of an integer or bit instruction. -/
def intMode (e : Env) (m : BitVec 8) : IntMode := ⟨isNode e, fmtField m, mU m, mSat m⟩

/-- IMM32 extended under R212: to 32 bits in a node, which `reduced` then narrows, and to 64 elsewhere. -/
def immExt (e : Env) (imm : Word) : DWord := if isNode e then imm.setWidth 64 else imm.signExtend 64

/-- A register form with two sources. -/
def execInt2 (i : Instr) (f : RegForm) (s : State) (op : IntMode → DWord → DWord → DWord × FlagBits) : Out :=
  execValue i s f.d [f.a, f.b] (fmtField f.m) fun e xs => op (intMode e f.m) (nthSrc xs 0) (nthSrc xs 1)

/-- An immediate form. -/
def execIntI (i : Instr) (f : ImmForm) (s : State) (op : IntMode → DWord → DWord → DWord × FlagBits) : Out :=
  execValue i s f.d [f.a] (fmtField f.m) fun e xs => op (intMode e f.m) (nthSrc xs 0) (immExt e f.imm)

/-- A register form with one source. -/
def execInt1 (i : Instr) (f : RegForm) (s : State) (op : IntMode → DWord → DWord) : Out :=
  execValue i s f.d [f.a] (fmtField f.m) fun e xs => (op (intMode e f.m) (nthSrc xs 0), 0)

/-- An operation without a flag. -/
def noFlag (op : IntMode → DWord → DWord → DWord) (k : IntMode) (a b : DWord) : DWord × FlagBits := (op k a b, 0)

/-- DAZ, FTZ and NANP of the agent: the node's header, or POLICY (R88, R106, R110). -/
def fpMode (s : State) (e : Env) : FpMode :=
  match e.agent with
  | .node pe => match nodeAt (coreAt s e.core) pe with
    | some n => ⟨n.daz, n.ftz, n.nanp⟩
    | none => .plain
  | _ => let p := (coreAt s e.core).blk.policy; ⟨p.getLsbD 0, p.getLsbD 1, p.getLsbD 2⟩

/-- Whether an operand is an imm7. -/
def isImm : Operand → Bool
  | .imm _ => true
  | _ => false

/-- A floating-point instruction of up to three sources (R251): `op` gives the pattern and the flags. -/
def execFp (i : Instr) (f : RegForm) (s : State) (srcs : List Operand)
    (op : FpMode → Fmt → BitVec 2 → Bool → List FVal → Nat × FlagBits) : Out :=
  let fmt := fmtField f.m
  execValue i s f.d srcs fmt fun e xs =>
    let md := fpMode s e
    let vs := (srcs.zip xs).map fun ox => fpOperand md fmt (isImm ox.1) ox.2.v
    let r := op md fmt (mRnd f.m) (mSat f.m) vs
    (BitVec.ofNat 64 r.1, r.2)

/-- The n-th value. -/
def nthVal (vs : List FVal) (n : Nat) : FVal := (vs[n]?).getD (.fin false 0 0)

end Sys2Proof.Machine
end

