-- ==== Sys2Proof/WellFormed.lean ====
section
/-! DEFINITION. When an instruction word is well formed in a context: it passes every check that R225 and the
loader make on the word alone. The checks themselves stand in `Machine/Checks.lean`. -/

namespace Sys2Proof
open Sys2Proof.Machine

/-- The word may run in the context (R225, checks 2 to 6). -/
def Instr.wf (k : ExecCtx) (i : Instr) : Bool := (checkWord k i).isNone

/-- The word may run in some context. -/
def Instr.wfSome (i : Instr) : Bool := i.wf .task || i.wf .system || i.wf .node || i.wf .action

end Sys2Proof
end

