-- ==== Sys2Proof/Machine/Translate.lean ====
section
/-! DEFINITION. Translation (R120, R121, R382 to R387), rights (R385), and fetching a task's words (R209, R400). -/

namespace Sys2Proof.Machine
open Sys2Proof

/-! ## Looking up (R386) -/

/-- Whether an entry covers an address of a context. -/
def tlbCovers (t : TlbEntry) (ctx va : Nat) : Bool := t.ctx == ctx && t.va == va / 2 ^ t.bits * 2 ^ t.bits

/-- The cached translation of an address. -/
def tlbFind (ts : List TlbEntry) (ctx va : Nat) : Option TlbEntry := ts.find? (tlbCovers · ctx va)

/-- What a lookup comes to: a location with its rights, a fault, or a miss that waits for a walk. -/
inductive Tr where
  | hit (loc : Nat) (r : Rights)
  | trap (code : FaultCode)
  | miss
  deriving DecidableEq, Repr

/-- The rights of the core-local window: data only (R120). -/
def windowRights : Rights := ⟨true, true, false, false, false⟩

/-- The location of an address in the core-local window, for an access from core `c` (R120). -/
def windowLoc (c : CoreId) (va : Nat) : Tr :=
  let o := va - windowBase
  if o / 2 ^ 23 % 2 = 1 then .trap .protection
  else .hit (scratchLoc (siblingAt c (Fin.ofNat 4 (o / 2 ^ 21))) + o % 2 ^ 21) windowRights

/-- The location of an address for an access from core `c`, with the TLBs to look in (R120, R386). -/
def lookup (tlb : List TlbEntry) (c : CoreId) (ctx va : Nat) : Tr :=
  if va ≥ 2 ^ 52 then .trap .translation
  else if inWindow va then windowLoc c va
  else match tlbFind tlb ctx va with
    | some t => .hit (t.pa + va % 2 ^ t.bits) t.rights
    | none => .miss

/-- The TLB of a core's die. -/
def dieTlb (s : State) (c : CoreId) : List TlbEntry := (dieAt s (dieOf c)).tlb

/-- A lookup by an agent of a core other than an AG. -/
def translate (s : State) (c : CoreId) (ctx va : Nat) : Tr := lookup (dieTlb s c) c ctx va

/-- Whether two misses are for one page of one context. -/
def samePage (x y : Walk) : Bool := x.ctx == y.ctx && x.va / 65536 == y.va / 65536

/-- Whether a walker is resolving the page of a miss, which then joins that walk (R386). -/
def joined (ws : List Walk) (x : Walk) : Bool := ws.any fun y => y.walker.isSome && samePage x y

/-- A die's walkers of a partition, in proportion to its slots (R434). -/
def walkShare (d : Die) (part : Nat) : Nat := 16 * slotsOf d part

/-- The walker that the next miss of a partition takes, if its share has one left: the lowest that is free. -/
def freeWalker (s : State) (d : Die) (ws : List Walk) (part : Nat) : Option (Fin 256) :=
  if (ws.filter fun y => y.walker.isSome && partOf s y.ctx == part).length < walkShare d part then
    (List.finRange 256).find? fun n => ws.all (·.walker != some n)
  else none

/-- The misses of a die in order, each that came before a cycle with a walker where one is free for it: first those before, then
the rest. The misses of the running cycle wait until it is over, so that their order is known. -/
def giveWalkers (s : State) (d : Die) (before : Nat) : List Walk → List Walk → List Walk
  | ws, [] => ws
  | ws, x :: xs =>
    let x' := if x.walker.isSome || decide (before ≤ x.since) || joined (ws ++ xs) x then x
      else { x with walker := freeWalker s d (ws ++ xs) (partOf s x.ctx) }
    giveWalkers s d before (ws ++ [x']) xs

/-- A miss placed behind those that arrived before it, and in one cycle behind those of lower cores (R386). -/
def insertWalk (x : Walk) : List Walk → List Walk
  | [] => [x]
  | y :: ys => if y.since < x.since || y.who.core.val ≤ x.who.core.val then y :: insertWalk x ys else x :: y :: ys

/-- A miss joins the walks of the agent's die, once for each asker, element and page; a full walk queue holds the agent
(R386). -/
def addMiss (s : State) (asker : WalkFor) (w : Who) (ctx va : Nat) : State :=
  modDie s (dieOf w.core) fun d =>
    let x : Walk := ⟨ctx, va, w, asker, s.now, none⟩
    let ws := giveWalkers s d (s.now + 1) [] d.walks
    if ws.any fun y => samePage x y && y.asker == asker && y.who.core == w.core && y.who.unit == w.unit &&
        y.who.elem == w.elem then d
    else if !joined ws x && (freeWalker s d ws (partOf s ctx)).isNone &&
        (ws.filter fun y => y.walker.isNone && !joined ws y).length ≥ 4096 then d
    else { d with walks := insertWalk x (giveWalkers s d s.now [] d.walks) }

/-- A miss of an element, which runs its word again. -/
def recordMiss (s : State) (w : Who) (ctx va : Nat) : State := addMiss s .element w ctx va

/-! ## Walking (R382 to R384) -/

/-- The leaf that a walk found, the entry and level at which it failed, or the table word with bad check bits that it
read (R437). -/
inductive WalkEnd where
  | leaf (t : TlbEntry)
  | bad (entry : DWord) (level : Nat)
  | spoilt (loc : Nat)
  deriving DecidableEq, Repr

/-- A table entry: its 8 bytes in physical memory. -/
def tableEntry (m : Memory) (page i : Nat) : DWord := dwordLE (memGetN m (page + 8 * i) 8)

/-- Whether an entry may be read at a level (R384): valid, no reserved bit, no reserved size. -/
def entryPlain (e : DWord) : Bool :=
  bitOf e 0 && field e 11 1 == 0 && field e 52 40 == 0 && field e 63 61 == 0 && field e 55 54 != 3

/-- The bits of a page of each size (R383). -/
def pageBits (size : Nat) : Nat := if size = 0 then 16 else if size = 1 then 21 else 30

/-- The rights and attributes of a leaf (R383). -/
def leafRights (e : DWord) : Rights := ⟨bitOf e 56, bitOf e 57, bitOf e 58, bitOf e 60, bitOf e 59⟩

/-- Whether a leaf may stand at its level (R384). -/
def leafOk (e : DWord) (level : Nat) : Bool :=
  let size := field e 55 54
  let pa := field e 39 12 * 4096
  let r := leafRights e
  (if level = 1 then size == 2 else if level = 0 then size == 0 || size == 1 else false) &&
  pa % 2 ^ pageBits size == 0 && paMapped pa && paMapped (pa + 2 ^ pageBits size - 1) &&
  (!r.ver || isCsm pa) && (!r.cmp || isDram pa) && !(r.ver && r.cmp)

/-- Whether the 32 entries of a group are identical (R384). -/
def groupSame (m : Memory) (page i : Nat) : Bool :=
  let b := i / 32 * 32
  (List.range 32).all fun j => tableEntry m page (b + j) == tableEntry m page b

/-- The walk from a level downward (R382, R384). -/
def walkFrom (m : Memory) (spoilt : List Nat) (ctx va : Nat) : Nat → Nat → WalkEnd
  | 0, page => step 0 page fun e _ => .bad e 0
  | level + 1, page => step (level + 1) page fun _ next => walkFrom m spoilt ctx va level next
where
  /-- One level: the entry is read and followed, taken as a leaf, or refused. -/
  step (level page : Nat) (down : DWord → Nat → WalkEnd) : WalkEnd :=
    let i := va / 2 ^ (16 + 9 * level) % 512
    let e := tableEntry m page i
    let next := field e 39 12 * 4096
    if spoilt.contains (page + 8 * i) then .spoilt (page + 8 * i)
    else if !paMapped page || !entryPlain e then .bad e level
    else if bitOf e 53 then
      if leafOk e level && (field e 55 54 == 0 || groupSame m page i) then
        let b := pageBits (field e 55 54)
        .leaf ⟨ctx, va / 2 ^ b * 2 ^ b, b, next, leafRights e⟩
      else .bad e level
    else if level = 0 || !paMapped next then .bad e level
    else down e next

/-- The walk of an address of a context (R382). -/
def walk (s : State) (ctx va : Nat) : WalkEnd :=
  match ctxBy s ctx with
  | some x => walkFrom s.mem s.bad ctx va 3 x.root
  | none => .bad 0 3

/-- EXTRA of a TRANSLATION record: the failing entry in [63:2], its level in [1:0] (R391). -/
def walkExtra (e : DWord) (level : Nat) : DWord := BitVec.ofNat 64 (e.toNat / 4 * 4 + level)

/-- The physical location of a translated address of a context, by its tables. -/
def tablePhys (s : State) (ctx va : Nat) : Option Nat :=
  match walk s ctx va with
  | .leaf t => some (t.pa + va % 2 ^ t.bits)
  | _ => none

/-- The address within `[base, base + size)` of a context at which a location lies. -/
def vaOfLoc (s : State) (ctx base size loc : Nat) : Option Nat :=
  let p0 := base / 65536
  (List.range ((base + size + 65535) / 65536 - p0)).findSome? fun i =>
    let va0 := (p0 + i) * 65536
    match tablePhys s ctx va0 with
    | some pp =>
      if pp ≤ loc && loc < pp + 65536 then
        let va := va0 + (loc - pp)
        if base ≤ va && va < base + size then some va else none
      else none
    | none => none

/-- A TLB with one entry more; where it is full a free choice of entry gives way (R386). -/
def tlbFill (s : State) (cap : Nat) (ts : List TlbEntry) (t : TlbEntry) : List TlbEntry :=
  let ts' := ts.filter fun x => !(x.ctx == t.ctx && x.va == t.va && x.bits == t.bits)
  if ts'.length < cap then ts' ++ [t] else ts'.eraseIdx (Config.choice s.ticks 0 % ts'.length) ++ [t]

/-! ## Rights (R385) -/

/-- What an access asks of a page. -/
inductive Want where
  | read | write | both | fetch | versioned
  deriving DecidableEq, Repr

/-- Whether an address lies on a page of a loaded code object of its context (R222). -/
def onCodePage (s : State) (ctx va : Nat) : Bool :=
  match ctxBy s ctx with
  | some x => x.objs.any fun o => o.first ≤ va && va < o.first + 65536 * o.npage
  | none => false

/-- Whether a location lies on a page of a loaded code object of any context, whichever address names it, or where a page that
has passed its check lay then (R222). -/
def onCodeLoc (s : State) (loc : Nat) : Bool :=
  paMapped loc && s.ctxs.any fun x => x.checked.any (fun p => p.2 ≤ loc && loc < p.2 + 65536) ||
    x.objs.any fun o => (vaOfLoc s x.n o.first (65536 * o.npage) loc).isSome

/-- Whether the leaf grants what the access wants (R385, R132, R148). -/
def grants (w : Want) (r : Rights) : Bool :=
  match w with
  | .read => r.rd && !r.ver && !r.cmp
  | .write => r.wr && !r.ver && !r.cmp
  | .both => r.rd && r.wr && !r.ver && !r.cmp
  | .fetch => r.ex && !r.ver && !r.cmp
  | .versioned => r.rd && r.wr && r.ver

/-- Whether the access may go on: rights, and no write to a loaded code page (R222). -/
def allowed (s : State) (w : Want) (loc : Nat) (r : Rights) : Bool :=
  grants w r && !((w == .write || w == .both || w == .versioned) && onCodeLoc s loc)

/-! ## Fetching (R209, R225 check 1, R400) -/

/-- What fetching comes to: a word, a fault, or a wait that changes the state (a miss, an unchecked page). -/
inductive Fetch where
  | word (w : DWord)
  | trap (code : FaultCode) (extra : DWord)
  | wait (s : State)
  deriving DecidableEq, Repr

/-- Who is running on a task unit. -/
def taskWho (c : CoreId) (l : Launch) (t : Task) (instr : DWord) : Who :=
  ⟨l.id, c, 1, t.bank.val, t.wid, t.pc, instr⟩

/-- The fetch of a running task's next word: its alignment, its translation, EX, its page's check, a slot of its partition where
the word lies (R434), and bad check bits, in that order. A versioned or COMPRESS page holds no code (R132, R148), and a
page that a table change has moved is checked anew (R222). A page of no loaded code object has no hash to pass, and its fetch raises PROTECTION (log entry
22). -/
def fetchTask (s : State) (c : CoreId) (l : Launch) (t : Task) : Fetch :=
  let va := t.pc.toNat
  let w := taskWho c l t 0
  if va % 8 ≠ 0 then .trap .align 0
  else match translate s c l.ctx va with
    | .trap code => .trap code 0
    | .miss => .wait (recordMiss s w l.ctx va)
    | .hit loc r =>
      if !grants .fetch r then .trap .protection 0
      else
        let page := va / 65536 * 65536
        match ctxBy s l.ctx with
        | none => .wait s
        | some x =>
          if !x.checked.contains (page, loc - va % 65536) then
            if !onCodePage s l.ctx va then .trap .protection 0
            else if x.checks.any fun y => y.1 == page && y.2.core == c then .wait s
            else .wait (modCtx s l.ctx fun x => { x with checks := x.checks ++ [(page, w)] })
          else if !slotOpen s (locDie loc) l.ctx then .wait s
          else if s.bad.contains (loc / 8 * 8) then .trap .uncorrectable (physAddr s loc)
          else .word (dwordLE (memGetN s.mem loc 8))

/-- The word that a node executes next: of a firing the next in order, of a stream node its one word, and of a BND
node, whose instructions act each on its own, a free choice. -/
def nodeWord (s : State) (c : CoreId) (pe : PeId) : Option DWord :=
  match nodeAt (coreAt s c) pe with
  | none => none
  | some n =>
    if isStreamNode n then match n.words with
      | [w] => some w
      | ws => pickFree s ws
    else match n.firing with
      | some f => n.words[f.idx]?
      | none => none

/-- The action word that a parser's action executes next. -/
def actionWord (s : State) (c : CoreId) (p : ParserId) : Option DWord :=
  let k := coreAt s c
  match (at' k.parsers p).run, k.grammar with
  | some r, some g => g.acts[r.word]?
  | _, _ => none

end Sys2Proof.Machine
end

