-- ==== Sys2Proof/Machine/Order.lean ====
section
/-! DEFINITION. The ordering machine (R119 to R142): issue queues, propagation buffers, when an access may leave its
queue, and what performing does to memory, to versioned words and to the agent that waits. -/

namespace Sys2Proof.Machine
open Sys2Proof

/-! ## Paths (R123) -/

/-- The home level of a location for an access from a core (R123). -/
def homeLevel (c : CoreId) (loc : Nat) : Nat :=
  if isScratch loc then (if scratchCore loc = c then 1 else 2)
  else if locDie loc = dieOf c then 3 else 4

/-- The scope instance of a level that holds a core (R122). -/
def scopeInst (level : Nat) (c : CoreId) : Nat :=
  if level = 1 then c.val else if level = 2 then c.val / 4 else if level = 3 then c.val / 64 else 0

/-- Whether two accesses stand in one propagation buffer. -/
def sameBuffer (a b : Access) : Bool :=
  a.stage == b.stage && a.stage != 0 && scopeInst a.stage a.who.core == scopeInst b.stage b.who.core

/-- Whether two accesses overlap. -/
def overlaps (a b : Access) : Bool := a.loc < b.loc + b.size && b.loc < a.loc + a.size

/-- Whether two accesses are of one agent (R122). -/
def sameAgent (a b : Access) : Bool := a.who.launch == b.who.launch && a.who.core == b.who.core && a.agent == b.agent

/-- Kinds that read and write at the home in one step (R124). -/
def isAtomicKind : AccKind → Bool
  | .atom | .cas | .append | .ticket | .stv | .advv | .reclv => true
  | _ => false

/-- Kinds that travel through the propagation buffers (R124). -/
def isWriteKind (k : AccKind) : Bool := k == .store || isAtomicKind k

/-- Kinds that bring no value back: their agent does not wait for them (R285). -/
def isPosted : AccKind → Bool
  | .store | .stv | .advv | .reclv | .fence => true
  | _ => false

/-- Whether an access that has not performed qualifies for a release at a scope (R126, R127): a write that sits in a
buffer of that level or higher. -/
def qualifies (scope : Nat) (a : Access) : Bool :=
  isWriteKind a.kind && !a.waiting && scope ≤ 4 && a.stage ≥ scope && a.stage ≥ 1

/-- Whether an access has performed and only its response is on its way (R84). -/
def performed (a : Access) : Bool := a.got.isSome

/-- Whether every access of an agent before number `n` qualifies at a scope or has performed (R127). -/
def allQualify (s : State) (launch : Nat) (c : CoreId) (g : Agent) (n scope : Nat) : Bool :=
  s.accs.all fun b => !(b.who.launch == launch && b.who.core == c && b.agent == g && b.id < n) || performed b ||
    qualifies scope b

/-- Whether an access holds the later ones of its agent in the queue (R128): an acquire, an LDV, a FENCE. -/
def isAcquire (a : Access) : Bool := a.kind == .ldv || (a.kind == .fence && a.scope != 0) || (a.acq && a.scope != 0)

/-- Whether an access may leave its issue queue (R125, R127, R128). -/
def canLeave (s : State) (a : Access) : Bool :=
  !a.again && s.accs.all fun b =>
    !(sameAgent a b && b.id < a.id) || performed b ||
      (!(overlaps a b && (b.stage == 0 || isAtomicKind b.kind)) && !isAcquire b &&
        (!((a.rel || a.kind == .fence) && a.scope != 0) || qualifies a.scope b))

/-- Whether an access may leave the buffer it stands in (R125); a request in a wait store (R135) or at a steering port has
left it. -/
def canMoveOn (s : State) (a : Access) : Bool :=
  s.accs.all fun b =>
    !(sameBuffer a b && !b.waiting && b.port.isNone && b.entered < a.entered && overlaps a b && isWriteKind b.kind)

/-! ## Issuing -/

/-- ISSUE (R124): an access joins its agent's queue under the next number. -/
def issue (s : State) (a : Access) : State :=
  { s with nextId := s.nextId + 1, accs := s.accs ++ [{ a with id := s.nextId, stage := 0 }] }

/-- An access removed. -/
def dropAcc (s : State) (id : Nat) : State := { s with accs := s.accs.filter (·.id != id) }

/-- An access changed. -/
def modAcc (s : State) (id : Nat) (f : Access → Access) : State :=
  { s with accs := s.accs.map fun a => if a.id = id then f a else a }

/-! ## Classes under reconciliation (R183 to R185) -/

/-- BASE, BMAP, COUNT and LESZ of a class (R183). -/
def clsBase (c : Cls) : Nat := field (at' c.desc 0) 51 0
/-- BMAP. -/
def clsBmap (c : Cls) : Nat := field (at' c.desc 1) 51 0
/-- COUNT. -/
def clsCount (c : Cls) : Nat := field (at' c.desc 2) 63 32
/-- LESZ. -/
def clsLesz (c : Cls) : Nat := field (at' c.desc 2) 31 28

/-- The key of the entry that holds a location. -/
def entryKey (s : State) (c : Cls) (loc : Nat) : Option Nat :=
  (vaOfLoc s c.ctx (clsBase c) (clsCount c * 2 ^ clsLesz c) loc).map fun va => (va - clsBase c) / 2 ^ clsLesz c

/-- Whether a location lies in a class's change bitmap. -/
def inBitmap (s : State) (c : Cls) (loc : Nat) : Bool :=
  (vaOfLoc s c.ctx (clsBmap c) ((clsCount c + 7) / 8) loc).isSome

/-- The registered classes of the package, with die and slot. -/
def allClasses (s : State) : List (DieId × Fin 16 × Cls) :=
  (List.finRange 4).flatMap fun d => (List.finRange 16).filterMap fun k =>
    (at' (dieAt s d).classes k).map fun c => (d, k, c)

/-- Whether a class is in session (R185). -/
def inSession (s : State) (d : DieId) (k : Fin 16) : Bool :=
  let die := dieAt s d
  die.sides.any (fun x => x.slot == k && x.paired) ||
    (match die.session with | some x => x.side.slot == k | none => false)

/-- The locations of an access at which a new entry can begin: its first, and each multiple of 8 after it. -/
def probeLocs (loc n : Nat) : List Nat :=
  ((List.range n).map (loc + ·)).filter fun x => x == loc || x % 8 == 0

/-- Whether an access is one of a Chisel engine's for a class (R184); a step that names no class (R346) has none. -/
def ownClass (a : Access) (d : DieId) (k : Fin 16) : Bool := a.cls == some k && dieOf a.who.core == d

/-- Whether a write waits at its home because a class in session holds the place (R185); `own` names the classes
whose engine writes. -/
def sessionHolds (s : State) (own : DieId → Fin 16 → Bool) (loc n : Nat) : Bool :=
  (allClasses s).any fun x => inSession s x.1 x.2.1 && !own x.1 x.2.1 &&
    (probeLocs loc n).any fun l => (entryKey s x.2.2 l).isSome || inBitmap s x.2.2 l

/-! ## Bytes at the home -/

/-- Bytes written at a location, with the check bits of the words made good (R437). -/
def rawStore (s : State) (loc : Nat) (bs : List Byte) : State :=
  { s with
    mem := memSetN s.mem loc bs
    bad := s.bad.filter fun w => !(w < loc + bs.length && loc < w + 8) }

/-- One change bit set, in memory; a bitmap on a page of a loaded code object is not written (R222; log entry 100). -/
def setChangeBit (s : State) (c : Cls) (key : Nat) : State :=
  match tablePhys s c.ctx (clsBmap c + key / 8) with
  | some p => if onCodeLoc s p then s else rawStore s p [memGet s.mem p ||| BitVec.ofNat 8 (2 ^ (key % 8))]
  | none => s

/-- The change bits of a write that has performed (R184); a Chisel engine's write to its own class sets none. -/
def setChangeBits (s : State) (own : DieId → Fin 16 → Bool) (loc n : Nat) : State :=
  (allClasses s).foldl (fun s x => if own x.1 x.2.1 then s else
    ((probeLocs loc n).filterMap (entryKey s x.2.2)).foldl (fun s k => setChangeBit s x.2.2 k) s) s

/-- Whether a write to CSM changes a word of a bank. -/
def touchesBank (b : Bank) (loc n : Nat) : Bool :=
  isCsm loc && (List.range ((loc + n - 1) / 256 + 1 - loc / 256)).any fun i => bankOf ((loc / 256 + i) * 256) == b

/-- Whether a location lies on a page with the versioned attribute. -/
def onVersioned (s : State) (loc : Nat) : Bool := s.pages.any fun p => p.ver && p.base ≤ loc && loc < p.base + p.len

/-- What a write wakes beside the records of R134: a TICKET that waits on the pair written (R142), whoever writes, and
with `all` any request that waits on the bytes; and what a changed bank has sent back (R135), but for an engine's write to a
versioned window, a copy's, which takes no part in this (R132). -/
def wakeWrites (s : State) (all : Bool) (loc n : Nat) : State :=
  { s with accs := s.accs.map fun b =>
      if n = 0 then b
      else if b.again && touchesBank (bankOf b.loc) loc n && (all || !onVersioned s loc) then { b with woken := true }
      else if b.waiting && (all || b.kind == .ticket) && b.loc < loc + n && loc < b.loc + b.size then
        { b with woken := true }
      else b }

/-- A write that performs, with the change bits that it sets (R184) and the requests that it wakes. -/
def homeWrite (s : State) (own : DieId → Fin 16 → Bool) (all : Bool) (loc : Nat) (bs : List Byte) : State :=
  wakeWrites (setChangeBits (rawStore s loc bs) own loc bs.length) all loc bs.length

/-- A write of an operation at its bank. -/
def homeStore (s : State) (loc : Nat) (bs : List Byte) : State := homeWrite s (fun _ _ => false) false loc bs

/-- The lowest word with bad check bits that meets a range of locations. -/
def firstBad (s : State) (loc n : Nat) : Option Nat :=
  (s.bad.filter fun w => w < loc + n && loc < w + 8).foldl (fun m w => some ((m.map (min w)).getD w)) none

/-- Whether some word of a range has bad check bits. -/
def badRange (s : State) (loc n : Nat) : Bool := s.bad.any fun w => w < loc + n && loc < w + 8

/-- The bytes of a value. -/
def valueBytes (n : Nat) (v : DWord) : List Byte := bytesLE n v.toNat

/-- A value of `n` bytes at the home. -/
def homeLoad (s : State) (loc n : Nat) : Nat := natLE (memGetN s.mem loc n)

/-- The store that a load takes a byte from: the youngest in the first buffer on its path that holds one (R124). -/
def storeFor (s : State) (a : Access) (loc : Nat) : Option Access :=
  let stores := s.accs.filter fun b => b.kind == .store && b.stage != 0 && b.loc ≤ loc && loc < b.loc + b.size &&
    b.stage ≤ homeLevel a.who.core loc && scopeInst b.stage b.who.core == scopeInst b.stage a.who.core
  stores.foldl (fun (m : Option Access) b =>
    match m with
    | none => some b
    | some x => if b.stage < x.stage || (b.stage == x.stage && x.entered ≤ b.entered) then some b else some x) none

/-- The byte that a load takes, from such a store or from the home. -/
def loadByte (s : State) (a : Access) (loc : Nat) : Byte :=
  match storeFor s a loc with
  | some b => (b.data[loc - b.loc]?).getD 0
  | none => memGet s.mem loc

/-- The bytes that a load takes. -/
def loadBytes (s : State) (a : Access) : List Byte := (List.range a.size).map fun i => loadByte s a (a.loc + i)

/-! ## Atomics (R139) -/

/-- New value and flags of an ATOM: operation, size in bytes, U, old value and operand. -/
def atomNew (op n : Nat) (u : Bool) (old a : Nat) : Nat × FlagBits :=
  let w := 8 * n
  let m := 2 ^ w
  let less (x y : Nat) : Bool := if u then x < y else decide (signedOf w x < signedOf w y)
  let fp (x : Nat) : FVal := ieeeOf .fp32 x
  match op with
  | 0 => ((old + a) % m, 0)
  | 1 => (min (old + a) (m - 1), 0)
  | 2 => (if less a old then a else old, 0)
  | 3 => (if less old a then a else old, 0)
  | 4 => (old &&& a, 0)
  | 5 => (old ||| a, 0)
  | 6 => (old ^^^ a, 0)
  | 7 => ((old + popCount w a) % m, 0)
  | 8 => (a, 0)
  | 9 => fpAdd .plain .fp32 0 false (fp old) (fp a)
  | 10 => fpMinMax false .plain .fp32 (fp old) (fp a)
  | _ => fpMinMax true .plain .fp32 (fp old) (fp a)

/-! ## Versioned words (R132 to R136) -/

/-- After(a, b) over 24 bits (R133). -/
def verAfter (a b : Nat) : Bool := let d := (a + 2 ^ 24 - b) % 2 ^ 24; 0 < d && d < 2 ^ 23
/-- The pair that no operation can compare (R133). -/
def verTie (a b : Nat) : Bool := (a + 2 ^ 24 - b) % 2 ^ 24 == 2 ^ 23
/-- a is at or below b (R133). -/
def verAtOrBelow (a b : Nat) : Bool := a == b || verAfter b a

/-- A slot of a record (R132). -/
structure VerSlot where
  live : Bool
  ver : Nat
  value : Word
  deriving DecidableEq, Repr

/-- A record as the bank unit reads it. -/
structure VerRec where
  horizon : Nat
  floor : Nat
  slots : List VerSlot
  deriving DecidableEq, Repr

/-- A dword of a record in memory. -/
def recDword (m : Memory) (loc i : Nat) : DWord := dwordLE (memGetN m (loc + 8 * i) 8)

/-- A record read from memory; `none` where it is malformed (R132). A record of zeros has slot 0 live. -/
def readRec (m : Memory) (loc : Nat) : Option VerRec :=
  let ds := (List.range 8).map (recDword m loc)
  let d0 := recDword m loc 0
  if ds.all (· == 0) then
    some ⟨0, 0, [⟨true, 0, 0⟩, ⟨false, 0, 0⟩, ⟨false, 0, 0⟩, ⟨false, 0, 0⟩]⟩
  else
    let slots := (List.range 4).map fun i =>
      let d := recDword m loc (i + 1)
      (⟨bitOf d0 (12 + i), field d 63 40, BitVec.ofNat 32 (field d 31 0)⟩ : VerSlot)
    let h := field d0 63 40
    let f := field d0 39 16
    let live := slots.filter (·.live)
    if live.isEmpty || field d0 11 0 != 0 ||
        (List.range 4).any (fun i => field (recDword m loc (i + 1)) 39 32 != 0) ||
        (List.range 3).any (fun i => recDword m loc (i + 5) != 0) ||
        (live.map (·.ver)).eraseDups.length != live.length ||
        live.any (fun x => !verAtOrBelow f x.ver || !verAtOrBelow x.ver h) then none
    else some ⟨h, f, slots⟩

/-- The bytes of a record. -/
def recBytes (r : VerRec) : List Byte :=
  let valid := (((List.range 4).zip r.slots).map fun x => if x.2.live then 2 ^ x.1 else 0).sum
  let d0 := r.horizon * 2 ^ 40 + r.floor * 2 ^ 16 + valid * 2 ^ 12
  bytesLE 8 d0 ++ (r.slots.map fun x => bytesLE 8 (x.ver * 2 ^ 40 + x.value.toNat)).flatten ++ List.replicate 24 0

/-- The newest live version at or below v. -/
def newestAt (r : VerRec) (v : Nat) : Option VerSlot :=
  (r.slots.filter fun x => x.live && verAtOrBelow x.ver v).foldl (fun (m : Option VerSlot) x =>
    match m with
    | none => some x
    | some y => if (v + 2 ^ 24 - x.ver) % 2 ^ 24 < (v + 2 ^ 24 - y.ver) % 2 ^ 24 then some x else some y) none

/-- What a versioned operation comes to at the bank. -/
inductive VerEnd where
  | done (r : Option VerRec) (value : DWord) (ver : DWord)   -- a new record, where the operation changes it
  | wait
  | trap
  deriving DecidableEq, Repr

/-- STV, ADVV, LDV and RECLV (R134, R136); an STV fills the lowest free slot (R356). -/
def verOp (kind : AccKind) (r : VerRec) (v : Nat) (val : Word) (open' : DWord) : VerEnd :=
  match kind with
  | .stv =>
    if !verAfter v r.horizon || (v + 2 ^ 24 - r.floor) % 2 ^ 24 ≥ 2 ^ 23 then .trap
    else
      let free := (List.range 4).filter fun i => !(((r.slots[i]?).map (·.live)).getD true)
      match free.head? with   -- R356
      | none => .wait
      | some i => .done (some { r with horizon := v, slots := r.slots.set i ⟨true, v, val⟩ }) 0 0
  | .advv =>
    if v = r.horizon then .done none 0 0
    else if !verAfter v r.horizon || (v + 2 ^ 24 - r.floor) % 2 ^ 24 ≥ 2 ^ 23 then .trap
    else .done (some { r with horizon := v }) 0 0
  | .reclv =>
    if !verAtOrBelow v r.horizon || verTie r.floor v then .trap
    else if verAfter r.floor v then .done none 0 0
    else match newestAt r v with
      | none => .done none 0 0
      | some n => .done (some { r with
          floor := n.ver
          slots := r.slots.map fun x => if x.live && verAfter n.ver x.ver then { x with live := false } else x }) 0 0
  | _ =>
    if verTie v r.horizon then .trap
    else if !verAtOrBelow v r.horizon then .wait
    else if verAfter r.floor v || verTie r.floor v then .trap
    else match newestAt r v with
      | none => .done none open' open'
      | some x => .done none (x.value.setWidth 64) (BitVec.ofNat 64 x.ver)

/-! ## Delivering (R284, R285) -/

/-- The width in bits of an access size code. -/
def szBits (sz : BitVec 2) : Nat := 8 * 2 ^ sz.toNat

/-- A loaded value extended to 64 bits (R284). -/
def loadExt (sz : BitVec 2) (u : Bool) (v : DWord) : DWord := extend (szBits sz) (!u) (lowBits (szBits sz) v)

/-- A value placed in 32 bits by its format (R26). -/
def placeFmt (f : Fmt) (u : Bool) (v : DWord) : Word :=
  let w := widthOf true f
  (extend w (extendsSigned f u) (lowBits w v)).setWidth 32

/-- A shape record checked and taken apart (R143). -/
def shapeOf (d0 d1 : DWord) : Shape ⊕ FaultCode :=
  let esz := field d0 63 62
  if field d0 61 52 != 0 || field d1 63 32 != 0 then .inr .illegalOperand
  else if field d0 51 0 % 2 ^ esz != 0 then .inr .align
  else .inl ⟨BitVec.ofNat 2 esz, BitVec.ofNat 52 (field d0 51 0), BitVec.ofNat 32 (field d1 31 0)⟩

/-- A value arrives in a register of a bank; a pending register is marked as arrived (R218, R314). -/
def arriveX (b : RegBank) (r : Fin 32) (v : DWord) : RegBank :=
  if r = 0 then b
  else { b with x := put b.x r v, come := if b.pend.getLsbD r.val then b.come ||| (1#32 <<< r.val) else b.come }

/-- A firing that notes what the read of a word has brought. -/
def Firing.noteRead (g : Firing) (word : Nat) (v : Word) (f : Fmt) : Firing := { g with memo := g.memo ++ [(word, v, f)] }

/-- A value arrives at its destination. -/
def deliver (s : State) (a : Access) (v v2 : DWord) : State :=
  let c := a.who.core
  match a.dest with
  | .none => s
  | .xreg b r sz u => modCore s c fun k => modBank k b (arriveX · r (loadExt sz u v))
  | .lreg pe r f u word => modCore s c fun k => modNode k pe fun n =>
      { n with
        l := put n.l r (placeFmt f u v)
        tag := put n.tag r f
        firing := n.firing.map fun g => g.noteRead word (placeFmt f u v) f }
  | .qport pe slot f u word => modCore s c fun k => modNode k pe fun n =>
      { n with firing := n.firing.map fun g =>
          { g.noteRead word (placeFmt f u v) f with outs := g.outs.modify slot fun o =>
              { o with tok := { o.tok with data := placeFmt f u v }, ready := true } } }
  | .areg p r sz u => modCore s c fun k => modParser k p fun z =>
      let z' := { z with a := put z.a r (loadExt sz u v) }
      match z'.run with
      | some g => if g.parked && some g.id = a.act then actAdvance z' 1 else z'
      | none => z'
  | .cont n => modCore s c fun k => { k with
      conts := k.conts.map fun x => if x.n = n then { x with awaits := .ready [v, v2] } else x }
  | .agSlot ag n => modCore s c fun k => modAg k ag fun g =>
      let f := (fmtOf (BitVec.ofNat 4 (field (at' g.desc 1) 58 55))).getD .raw
      { g with walk := g.walk.map fun w => { w with
          slots := w.slots.map fun x =>
            if x.n = n then { x with ready := true, tok := { x.tok with data := placeFmt f (bitOf (at' g.desc 1) 54) v } }
            else x } }
  | .shape slot => match shapeOf v v2 with
      | .inl h => modCore s c fun k => { k with shapes := put k.shapes slot h }
      | .inr code => raise code a.who (if code = .align then a.va else a.who.pc) 0 s
  | .jtab b => modCore s c fun k => { k with
      task := k.task.map fun t =>
        if t.bank = b then { t with pc := t.pc + 8 * loadExt 2 false v } else t }

/-- The outstanding count of a bank goes down (R314). -/
def countDown (s : State) (a : Access) : State :=
  match a.word with
  | none => s
  | some b => modCore s a.who.core fun k => modBank k b fun r =>
      match a.kind with
      | .load | .atom | .cas | .append | .ticket | .shape => { r with ld := r.ld - 1 }
      | .store | .stv | .advv | .reclv => { r with st := r.st - 1 }
      | _ => r

/-- An access is over: it leaves the machine, its count goes down, the word of its action is done, and the launch has
progressed (R63, R393). A SHAPE that is parked goes on. -/
def finishAccess (s : State) (a : Access) : State :=
  let s1 := heard (progress (countDown (dropAcc s a.id) a) a.who.launch) a.who.launch a.who.core
  match a.agent, a.act with
  | .parser p, some id =>
    let s2 := wordDone s1 a.who.core p id
    match a.dest with
    | .shape _ => modCore s2 a.who.core fun k => modParser k p fun z =>
        match z.run with
        | some g => if g.parked && g.id == id then actAdvance z 1 else z
        | none => z
    | _ => s2
  | _, _ => s1

/-! ## Performing (R124) -/

/-- The CSM bank that a fault at the home names (R389). -/
def bankWho (a : Access) : Who := { a.who with unit := 0x0B, elem := (bankOf a.loc).n.val }

/-- A fault raised at the home for an access. -/
def homeFault (code : FaultCode) (w : Who) (a : Access) (extra : DWord) (s : State) : State :=
  raise code w a.va extra (dropAcc s a.id)

/-- A read of a word with bad check bits: the launch ends and the event is journalled (R437). -/
def readBad (s : State) (a : Access) : State :=
  let s1 := homeFault .uncorrectable a.who a (physAddr s a.loc) s
  deviceEvent s1 0x04 (physAddr s a.loc) a.ctx 0 0

/-- A versioned change at a record wakes what waits there: LDVs that it satisfies, STVs that wait for a slot; and
every request that this bank sent back (R135). -/
def wakeRecord (s : State) (loc : Nat) (horizon : Nat) (moved' : Bool) : State :=
  { s with accs := s.accs.map fun b =>
      if b.again && bankOf b.loc == bankOf loc then { b with woken := true }
      else if b.waiting && b.loc == loc then
        match b.kind with
        | .ldv => if moved' && (verAtOrBelow b.a.toNat horizon || verTie b.a.toNat horizon) then { b with woken := true } else b
        | .stv => { b with woken := true }
        | _ => b
      else b }

/-- A ticket taken wakes the request that waits for the next number, and what this bank sent back (R142, R135). -/
def wakeTicket (s : State) (loc : Nat) (next : DWord) : State :=
  { s with accs := s.accs.map fun b =>
      if b.again && bankOf b.loc == bankOf loc then { b with woken := true }
      else if b.waiting && b.kind == .ticket && b.loc == loc && b.a == next then { b with woken := true } else b }

/-- Whether the launch of an access has not ended. -/
def ofLiveLaunch (s : State) (a : Access) : Bool :=
  match launchBy s a.who.launch with
  | some l => isLive l.phase
  | none => false

/-- A request that must wait enters the bank's wait store of 256 entries, or goes back to its agent (R135); a request of
a launch that has ended is withdrawn (R392). -/
def waitAtBank (s : State) (a : Access) : State :=
  if !ofLiveLaunch s a then dropAcc s a.id
  else if a.waiting then modAcc s a.id fun x => { x with woken := false }
  else if (s.accs.filter fun b => b.waiting && bankOf b.loc == bankOf a.loc).length ≥ 256 then
    modAcc s a.id fun x => { x with again := true, woken := false, stage := 0 }
  else modAcc s a.id fun x =>
    { x with waiting := true, woken := false, stage := homeLevel a.who.core a.loc, entered := s.ticks }

/-- A versioned operation performs at its bank. -/
def performVersioned (s : State) (a : Access) : State :=
  let v := a.a.toNat % 2 ^ 24
  let extra (h : Nat) : DWord := BitVec.ofNat 64 (h * 2 ^ 24 + v)
  match readRec s.mem a.loc with
  | none => homeFault .version (bankWho a) a (extra (field (recDword s.mem a.loc 0) 63 40)) s
  | some r =>
    match verOp a.kind r v (a.b.setWidth 32) (Config.freeWord s.ticks) with
    | .trap => homeFault .version (bankWho a) a (extra r.horizon) s
    | .wait => waitAtBank s a
    | .done r' value ver =>
      let s1 := match r' with
        | some r' => wakeRecord (homeStore s a.loc (recBytes r')) a.loc r'.horizon (decide (r'.horizon ≠ r.horizon))
        | none => s
      finishAccess (deliver s1 a value ver) a

/-- A ticket performs at its bank (R142); one that waits has been compared once and waits for its number. -/
def performTicket (s : State) (a : Access) : State :=
  let next := recDword s.mem a.loc 0
  let base := recDword s.mem a.loc 1
  if !a.waiting ∧ a.a.toNat < next.toNat then homeFault .version (bankWho a) a (Config.freeWord s.ticks) s
  else if a.a ≠ next then waitAtBank s a
  else
    let s1 := homeStore s a.loc (valueBytes 8 (next + 1) ++ valueBytes 8 (base + a.b))
    finishAccess (deliver (wakeTicket s1 a.loc (next + 1)) a base 0) a

/-- ATOM, CAS and APPEND at the home: the state and the old value (R124, R139 to R141). A CAS whose compare fails writes nothing
and sets no change bit (log entry 97). -/
def atomicStep (s : State) (a : Access) : State × DWord :=
  let old := homeLoad s a.loc a.size
  let x := lowBits (8 * a.size) a.a
  let r : Nat × FlagBits := match a.kind with
    | .cas => (if old = x then lowBits (8 * a.size) a.b else old, 0)
    | .append => ((old + x) % 2 ^ (8 * a.size), 0)
    | _ => atomNew a.aop.toNat a.size a.u old x
  let writes := match a.kind with | .cas => old == x | _ => true
  let s1 := if writes then homeStore s a.loc (bytesLE a.size r.1) else s
  (mergeFlags s1 a.who.core r.2, BitVec.ofNat 64 old)

/-- Whether a write of this kind may not perform while a session holds its place (R185). -/
def heldAtHome (s : State) (a : Access) : Bool := isWriteKind a.kind && sessionHolds s (ownClass a) a.loc a.size

/-- Whether a bank owes its next turn to a request that a change has woken (R135). -/
def bankOwes (s : State) (a : Access) : Bool :=
  isCsm a.loc && s.accs.any fun b => b.waiting && b.woken && bankOf b.loc == bankOf a.loc && b.id != a.id

/-- Whether an access reads at its home. -/
def readsHome (k : AccKind) : Bool := k == .load || k == .shape || isAtomicKind k || k == .ldv

/-- Whether an access is an engine's: its write is no versioned operation and wakes none (R132). -/
def byEngine (a : Access) : Bool := match a.agent with | .engine _ => true | _ => false

/-- The part of PERFORM that a load, a store or an atomic does at its home (R124): a load takes its bytes, a store appends
to its location, an atomic does both. What it brings back stands beside the state. -/
def homeStep (s : State) (a : Access) : State × DWord × DWord :=
  match a.kind with
  | .load => (s, BitVec.ofNat 64 (natLE (loadBytes s a)), 0)
  | .shape => let bs := loadBytes s a; (s, dwordLE (bs.take 8), dwordLE (bs.drop 8))
  | .store => (homeWrite s (ownClass a) (!byEngine a) a.loc a.data, 0, 0)
  | .atom | .cas | .append => let r := atomicStep s a; (r.1, r.2, 0)
  | _ => (s, 0, 0)

/-- A die's exception table changed (R147). -/
def modExcs (s : State) (d : DieId) (f : List Nat → List Nat) : State := modDie s d fun x => { x with excs := f x.excs }

/-- A slot of a COMPRESS page performs: its bytes and its place in the exception table change in one step; a full table ends
the launch, with a journal entry (R147). -/
def performSlot (s : State) (a : Access) (listed : Bool) : State :=
  let d := locDie a.loc
  let s1 := modExcs s d fun xs => xs.filter (· != a.loc)
  if listed && (dieAt s1 d).excs.length ≥ 1024 then
    deviceEvent (raise .uncorrectable a.who a.va (BitVec.ofNat 64 a.loc) (dropAcc s1 a.id)) 0x05 (BitVec.ofNat 64 a.loc) a.ctx 0 0
  else
    let s2 := if listed then modExcs s1 d (· ++ [a.loc]) else s1
    finishAccess (homeStep s2 a).1 a

/-- PERFORM (R124). A write that reaches a page of a code object loaded since its issue raises PROTECTION (R222). -/
def performAccess (s : State) (a : Access) : State :=
  if isWriteKind a.kind && onCodeLoc s a.loc then homeFault .protection a.who a 0 s
  else if readsHome a.kind && badRange s a.loc a.size then readBad s a
  else match a.kind with
    | .ticket => performTicket s a
    | .ldv | .stv | .advv | .reclv => performVersioned s a
    | _ => match a.exc with
      | some listed => performSlot s a listed
      | none => let r := homeStep s a; finishAccess (deliver r.1 a r.2.1 r.2.2) a

/-- Whether an access is of an engine command that still stands. -/
def ofEngine (s : State) (a : Access) : Bool :=
  match a.agent with
  | .engine id => s.engs.any (·.id == id)
  | _ => false

/-- Whether the launch of an access still lets it leave its issue queue: it runs, or what it has issued completes under a
freeze (R396), or a Chisel session past its commit point completes (R392). -/
def launchIssues (s : State) (a : Access) : Bool :=
  match launchBy s a.who.launch with
  | some l => maySteps s l || l.phase == .freezing || (l.phase == .torn && ofEngine s a)
  | none => false

/-- The partition that a core belongs to: of both halves, or of its owner half, columns 0 to 7 (R433). -/
def corePart (k : Core) : Nat := k.guardV.toNat % 16
/-- Whether a core's halves name two partitions. -/
def isSplit (k : Core) : Bool := k.guardV.toNat / 16 != k.guardV.toNat % 16

/-- Whether a guard stands between a context's agents and a location: an MT of a core of another partition, or of the half
of a split core that does not own it, MTs 16 to 31 (R433). -/
def guardStands (s : State) (ctx loc : Nat) : Bool :=
  isScratch loc && match ctxBy s ctx with
    | some x =>
      let k := coreAt s (scratchCore loc)
      corePart k != x.part.val || (isSplit k && (loc - 2 ^ 40) / 65536 % 32 ≥ 16)
    | none => false

/-- Whether an access crosses a guard. -/
def crossesGuard (s : State) (a : Access) : Bool := guardStands s a.ctx a.loc

/-- One boundary drop of a core's die. -/
def countBoundary (s : State) (c : CoreId) : State :=
  modDie s (dieOf c) fun d => { d with stat := { d.stat with drops := d.stat.drops + 1 } }

/-- An access that crosses a guard is dropped and counted, and its launch ends (R433). -/
def dropAtGuard (s : State) (a : Access) : State := homeFault .boundary a.who a 0 (countBoundary s a.who.core)

/-- Whether the shared path to a location serves a context's partition in this cycle: CSM banks, DRAM channels and the
cluster's way to a core (R434). -/
def homeOpen (s : State) (ctx loc : Nat) : Bool :=
  if isScratch loc then slotOpen s (dieOf (scratchCore loc)) ctx else !paMapped loc || slotOpen s (locDie loc) ctx

/-- The same for an access of a core, whose way to its own scratchpad is not shared. -/
def pathOpen (s : State) (c : CoreId) (ctx loc : Nat) : Bool :=
  (isScratch loc && scratchCore loc == c) || homeOpen s ctx loc

/-- The die whose shared paths lead to a location for a core's request, or for one from outside; none for the core's own
scratchpad. -/
def pathDie (c : Option CoreId) (loc : Nat) : Option DieId :=
  if isScratch loc then (if c = some (scratchCore loc) then none else some (dieOf (scratchCore loc)))
  else if paMapped loc then some (locDie loc) else none

/-- Whether a request that a set of dies serves acts in this cycle (R434; log entry 73): each of them has slots for the context's
partition, and this cycle's slot of one, the last to serve it, is among them. -/
def diesOpen (s : State) (ctx : Nat) (ds : List DieId) : Bool :=
  ds.all (fun d => slotsOf (dieAt s d) (partOf s ctx) != 0) && (ds.isEmpty || ds.any (slotOpen s · ctx))

/-! ## A new translation (R387) -/

/-- Whether a page's rights let an access perform there. An engine's reach the windows and pages that its command may
(R132, R148). -/
def pageGrants (a : Access) (r : Rights) : Bool :=
  if byEngine a then (if isWriteKind a.kind then r.wr else r.rd)
  else match a.kind with
    | .ldv | .stv | .advv | .reclv => grants .versioned r
    | .load | .shape => grants .read r
    | .store => grants .write r
    | _ => grants .both r

/-- An access at its new location: one that waits at a bank it no longer goes to is sent again. -/
def movedTo (a : Access) (loc : Nat) : Access :=
  if a.loc = loc then a
  else if a.waiting || a.again then { a with loc := loc, waiting := false, again := false, woken := false, stage := 0 }
  else { a with loc := loc }

/-- An access that has not performed takes the translation that the tables give now; its launch ends where they give none or
lack the right. -/
def retranslate (s : State) (a : Access) : State :=
  if performed a || a.kind == .fence || inWindow a.va.toNat then s
  else match walk s a.ctx a.va.toNat with
    | .leaf t =>
      if pageGrants a t.rights then modAcc s a.id (movedTo · (t.pa + a.va.toNat % 2 ^ t.bits)) else homeFault .protection a.who a 0 s
    | .bad entry level => homeFault .translation a.who a (walkExtra entry level) s
    | .spoilt loc => deviceEvent (homeFault .uncorrectable a.who a (BitVec.ofNat 64 loc) s) 0x04 (BitVec.ofNat 64 loc) a.ctx 0 0

/-- The same for every access that a test picks. -/
def retranslateAll (s : State) (mine : Access → Bool) : State := (s.accs.filter mine).foldl retranslate s

/-! ## Steering ports (R443) -/

/-- The memory tile of a scratchpad location. -/
def tileOfLoc (loc : Nat) : CoreId × MtId := (scratchCore loc, Fin.ofNat 32 ((loc - 2 ^ 40) / 65536))

/-- The requests that stand at a tile's steering port. -/
def atSteer (s : State) (t : CoreId × MtId) : List Access :=
  s.accs.filter fun a => a.port.isSome && a.got.isNone && tileOfLoc a.loc == t

/-- The responses in the reorder buffer of a tile's steering port. -/
def steerRob (s : State) (t : CoreId × MtId) : List Access :=
  s.accs.filter fun a => a.port.isSome && a.got.isSome && tileOfLoc a.loc == t

/-- The oldest of accesses at a steering port. -/
def oldest (xs : List Access) : Option Access :=
  xs.foldl (fun (m : Option Access) a =>
    match m with
    | none => some a
    | some y => if a.port.getD 0 < y.port.getD 0 then some a else some y) none

/-- An access reaches its tile over the memory network and queues at the steering port, which holds 16. -/
def enterSteer (s : State) (a : Access) : State :=
  if a.port.isSome || (atSteer s (tileOfLoc a.loc)).length ≥ 16 then s
  else modAcc s a.id fun x => { x with port := some s.ticks }

/-- A bank of a tile takes an access from the steering port: a store performs; what brings a value back performs and leaves
its response in the port's reorder buffer (R84). -/
def steerServe (s : State) (a : Access) : State :=
  if a.kind == .store || (readsHome a.kind && badRange s a.loc a.size) then performAccess s a
  else
    let r := homeStep s a
    modAcc r.1 a.id fun x => { x with got := some r.2, stage := 0 }

/-- A response of a steering port returns to its agent. -/
def steerReturn (s : State) (a : Access) : State :=
  match a.got with
  | some r => finishAccess (deliver s a r.1 r.2) a
  | none => s

/-- An access reaches its home: at a memory tile it queues at the steering port, elsewhere it performs, in a slot of its
partition. -/
def reachHome (s : State) (a : Access) : State :=
  if !pathOpen s a.who.core a.ctx a.loc then s
  else if isScratch a.loc then enterSteer s a
  else performAccess s a

/-- MEM_PROPAGATE (R124): a write or an atomic moves to its next buffer, or, with none left, to its home. -/
def propagateAccess (s : State) (a : Access) : State :=
  if !isWriteKind a.kind || a.waiting || performed a then s
  else if a.stage = 0 then
    if !launchIssues s a || !canLeave s a then s
    else if crossesGuard s a then dropAtGuard s a
    else modAcc s a.id fun x => { x with stage := 1, entered := s.ticks }
  else if !canMoveOn s a then s
  else if a.stage < homeLevel a.who.core a.loc then
    modAcc s a.id fun x => { x with stage := a.stage + 1, entered := s.ticks }
  else if heldAtHome s a || bankOwes s a then s
  else reachHome s a

/-- MEM_PERFORM (R124): a load, an LDV or a FENCE leaves the queue and performs, and a write at the end of its path
performs. -/
def performNext (s : State) (a : Access) : State :=
  if a.waiting || performed a then s
  else if isWriteKind a.kind then
    if a.stage ≠ 0 ∧ homeLevel a.who.core a.loc ≤ a.stage then propagateAccess s a else s
  else if !launchIssues s a || !canLeave s a || bankOwes s a then s
  else if a.kind == .fence then performAccess s a
  else if crossesGuard s a then dropAtGuard s a
  else reachHome s a

end Sys2Proof.Machine
end

