-- ==== Sys2Proof/Machine/Route.lean ====
section
/-! DEFINITION. How routers join (R354, R358, R443), what a switch or control table says, and the filters (R36 to
R41, R80, R93). -/

namespace Sys2Proof.Machine
open Sys2Proof

/-! ## The grid (R354, R443). Directions: 0 N, 1 E, 2 S, 3 W. -/

/-- The router and input port that an output port joins, if any. -/
def neighbour (r : RouterId) (dir : Nat) : Option (RouterId × Fin 5) :=
  let n := r.val
  let go (m : Nat) (p : Fin 5) : Option (RouterId × Fin 5) := some (Fin.ofNat 176 m, p)
  if n < 128 then
    let c := n / 8
    let row := n % 8
    match dir with
    | 0 => if row = 0 then go (128 + c) 2 else go (n - 1) 2
    | 1 => if c = 15 then go (160 + 8 + row) 3 else go (n + 8) 3
    | 2 => if row = 7 then go (144 + c) 0 else go (n + 1) 0
    | 3 => if c = 0 then go (160 + row) 1 else go (n - 8) 1
    | _ => none
  else if n < 160 then
    let m := n - 128
    match dir with
    | 0 => if m ≥ 16 then go ((m - 16) * 8 + 7) 2 else none
    | 1 => if m % 16 = 15 then none else go (n + 1) 3
    | 2 => if m < 16 then go (m * 8) 0 else none
    | 3 => if m % 16 = 0 then none else go (n - 1) 1
    | _ => none
  else
    let a := n - 160
    match dir with
    | 1 => if a < 8 then go a 3 else none
    | 3 => if a ≥ 8 then go (120 + (a - 8)) 1 else none
    | _ => none

/-- The queue into which a router delivers at its local port on a VC (R354, R358, R443). -/
def localKey (r : RouterId) (vc : Fin 4) : QKey :=
  if r.val < 128 then .pe (Fin.ofNat 128 r.val) vc
  else if r.val < 160 then .mt (Fin.ofNat 32 (r.val - 128)) vc
  else .edge (Fin.ofNat 16 (r.val - 160)) vc

/-- The control queue into which a router delivers at a local sub-port (R80). -/
def localCkey (r : RouterId) (sub : Fin 4) : QKey :=
  if r.val < 128 then .pec (Fin.ofNat 128 r.val) sub
  else .post (Fin.ofNat 16 (r.val - 160))

/-! ## Table entries -/

/-- The outputs of a switch entry: 0 to 3 the neighbours, 4 the local port (R36). -/
def swOuts (w : Word) : List Nat :=
  (if w.getLsbD 17 then [0] else []) ++ (if w.getLsbD 16 then [1] else []) ++ (if w.getLsbD 15 then [2] else []) ++
  (if w.getLsbD 14 then [3] else []) ++ (if w.getLsbD 13 then [4] else [])
/-- OVC. -/
def swOvc (w : Word) : Fin 4 := Fin.ofNat 4 (w.extractLsb' 11 2).toNat
/-- FSTART. -/
def swFstart (w : Word) : Nat := (w.extractLsb' 7 4).toNat
/-- FLEN. -/
def swFlen (w : Word) : Nat := (w.extractLsb' 4 3).toNat
/-- Whether an entry takes a tag (R36). -/
def swTakes (w : Word) (tag : BitVec 4) : Bool := tag &&& w.extractLsb' 18 4 == w.extractLsb' 22 4

/-- The entries of a router that match a port and VC, with their places. -/
def swFor (x : Router) (port : Fin 5) (vc : Fin 4) : List (Nat × Word) :=
  ((List.range x.sw.length).zip x.sw).filter fun e => swMatches e.2 port.val vc.val

/-- The entry that routes a tag: the first that matches (R36). -/
def swEntry (x : Router) (port : Fin 5) (vc : Fin 4) (tag : BitVec 4) : Option (Nat × Word) :=
  (swFor x port vc).find? fun e => swTakes e.2 tag

/-- The outputs of a control entry (R93). -/
def ctOuts (w : Word) : List Nat :=
  (if w.getLsbD 25 then [0] else []) ++ (if w.getLsbD 24 then [1] else []) ++ (if w.getLsbD 23 then [2] else []) ++
  (if w.getLsbD 22 then [3] else []) ++ (if w.getLsbD 21 then [4] else [])
/-- OLOC. -/
def ctOloc (w : Word) : Fin 4 := Fin.ofNat 4 (w.extractLsb' 19 2).toNat

/-- The control entry that routes a token: the first that matches (R93). -/
def ctEntry (x : Router) (port : Fin 5) (sub : Fin 4) : Option Word := x.ctl.find? (ctMatches · port.val sub.val)

/-- Where an output of a router leads: the queue that receives. -/
def outKey (r : RouterId) (out : Nat) (vc : Fin 4) : Option QKey :=
  if out = 4 then some (localKey r vc) else (neighbour r out).map fun x => .link x.1 x.2 vc

/-- Where a control output leads. A neighbour's port has one buffer, whatever the local sub-port. -/
def outCkey (r : RouterId) (out : Nat) (oloc : Fin 4) : Option QKey :=
  if out = 4 then some (localCkey r oloc) else (neighbour r out).map fun x => .ctl x.1 x.2 0

/-- The queues that every output of a switch entry leads to. -/
def swKeys (r : RouterId) (w : Word) : List QKey := (swOuts w).filterMap fun o => outKey r o (swOvc w)

/-- The consumers that a token of a tag reaches from a router's input: local deliveries with their VC. -/
def routeFrom (k : Core) (tag : BitVec 4) : Nat → RouterId → Fin 5 → Fin 4 → List (RouterId × Fin 4)
  | 0, _, _, _ => []
  | fuel + 1, r, port, vc =>
    match (routerAt k r).bind fun x => swEntry x port vc tag with
    | none => []
    | some (_, w) => (swOuts w).flatMap fun o =>
        if o = 4 then [(r, swOvc w)]
        else match neighbour r o with
          | some (r', p') => routeFrom k tag fuel r' p' (swOvc w)
          | none => []

/-- The consumers of every tag that an element writes into its router on a VC. -/
def routeAll (k : Core) (r : RouterId) (vc : Fin 4) : List (RouterId × Fin 4) :=
  ((List.range 16).flatMap fun t => routeFrom k (BitVec.ofNat 4 t) 3520 r 4 vc).eraseDups

/-- The local endpoints that a control token reaches from a router's input. -/
def ctlFrom (k : Core) : Nat → RouterId → Fin 5 → Fin 4 → List (RouterId × Fin 4)
  | 0, _, _, _ => []
  | fuel + 1, r, port, sub =>
    match (routerAt k r).bind fun x => ctEntry x port sub with
    | none => []
    | some w => (ctOuts w).flatMap fun o =>
        if o = 4 then [(r, ctOloc w)]
        else match neighbour r o with
          | some (r', p') => ctlFrom k fuel r' p' 0
          | none => []

/-! ## What elements write, and what it reaches -/

/-- The words of a node, decoded. -/
def nodeInstrs (n : Node) : List Instr := n.words.filterMap decodeWord

/-- The output ports that an instruction writes, MARK and TAGSET apart, which only set a sideband (R43, R269). -/
def portsWritten : Instr → List Operand
  | .mark _ | .tagset _ => []
  | .steer f => [f.d, f.c]
  | .isect _ => [.q 0, .q 1, .q 2]
  | i => match (operandsOf i).head? with
    | some (.q r) => [.q r]
    | some (.e r) => [.e r]
    | _ => []

/-- The output ports that an instruction names: those it writes, and that of MARK and TAGSET (R274, R275). -/
def portsNamed : Instr → List Operand
  | .mark f | .tagset f => match f.d with | .q r => [.q r] | _ => []
  | i => portsWritten i

/-- The endpoints that the element of a router reaches from a port, from 4 on by control routes. -/
def reachesBy (k : Core) (r : RouterId) (p : Fin 8) : List (RouterId × Nat) :=
  if h : p.val < 4 then (routeAll k r ⟨p.val, h⟩).map fun y => (y.1, y.2.val)
  else (ctlFrom k 704 r 4 ⟨p.val - 4, by omega⟩).map fun y => (y.1, 4 + y.2.val)

/-- The endpoints that a node reaches from the ports that it names. -/
def nodeReaches (k : Core) (n : Node) : List (RouterId × Nat) :=
  ((nodeInstrs n).flatMap portsNamed).flatMap fun o => match o with
    | .q r => reachesBy k (peRouter n.pe) (pIndex r)
    | .e r => reachesBy k (peRouter n.pe) ⟨4 + r.val, by omega⟩
    | _ => []

/-- The endpoints that an AG, an MT or an engine reaches from its router. -/
def elementReaches (k : Core) (r : RouterId) : List (RouterId × Nat) := (List.finRange 8).flatMap (reachesBy k r)

/-- What a list reaches. -/
def closure {α : Type} [DecidableEq α] (next : α → List α) : Nat → List α → List α
  | 0, xs => xs
  | fuel + 1, xs =>
    let ys := (xs ++ xs.flatMap next).eraseDups
    if ys.length = xs.length then xs else closure next fuel ys

/-- The data ports of elements that a port's tokens reach through its element: those of a node from its lowest data port, which
gives its outputs their sideband (R76), of a memory tile on the port's VC (R84), and of a lane at its output (R172). -/
def plainNext (k : Core) (x : RouterId × Nat) : List (RouterId × Nat) :=
  (if x.1.val < 128 then match nodeAt k (peOf x.1.val) with
    | none => []
    | some n =>
      if (List.finRange 4).find? (fun p => ((nodeInstrs n).flatMap operandsOf).contains (.p p)) = some (Fin.ofNat 4 x.2) then
        nodeReaches k n
      else []
  else if x.1.val < 160 then reachesBy k x.1 (Fin.ofNat 8 x.2)
  else k.graphs.toList.flatMap fun g => match g.bind (·.bind) with
    | some b =>
      if bdSrc b.desc = 0 ∧ bdDst b.desc = 0 ∧ agRouter (bdEdge b.desc) = x.1 ∧ x.2 = 3 then
        reachesBy k (agRouter (bdOedge b.desc)) 3
      else []
    | none => []).filter (·.2 < 4)

/-- The data ports that streams of address generators with RNG = 0 reach. A stream of MNORM is not among them: where its team
has drawn ranges, its consumers count its groups as theirs (log entry 94). -/
def plainPorts (k : Core) : List (RouterId × Nat) :=
  closure (plainNext k) 704 ((List.finRange 16).flatMap fun a =>
    let g := at' k.ags a
    if g.armed && !sdRng g.desc && sdMode g.desc != 1 then
      reachesBy k (agRouter a) (Fin.ofNat 8 g.vc.toNat)
    else [])

/-- Whether a data port takes a stream with RNG = 0, in a team that draws ranges (R32, R33). -/
def plainPort (k : Core) (r : RouterId) (p : Nat) : Bool := !k.drawn.isEmpty && (plainPorts k).contains (r, p)

/-! ## Filters (R39 to R41) -/

/-- The state of a filter or of what leaves a chain, by its key. -/
def shaperAt (x : Router) (key : Nat) : Shaper := ((x.state.find? (·.1 == key)).map (·.2)).getD Shaper.zero
/-- A router with one such state replaced. -/
def setShaper (x : Router) (key : Nat) (h : Shaper) : Router :=
  { x with state := (x.state.filter (·.1 != key)) ++ (if h = Shaper.zero then [] else [(key, h)]) }

/-- Whether a value is zero in a format (R40). -/
def isZeroIn (f : Fmt) (v : Word) : Bool :=
  if isIeeeFmt f || isTapFmt f then
    match cvtSource .plain f false (v.setWidth 64) with
    | .fin _ m _ => m == 0
    | _ => false
  else lowBits (widthOf true f) (v.setWidth 64) == 0

/-- CONVERT of one token (R40). -/
def convertTok (w : Word) (t : Token) : Token × FlagBits :=
  let src := (fmtOf (w.extractLsb' 24 4)).getD .raw
  let dst := (fmtOf (w.extractLsb' 20 4)).getD .raw
  let u := w.getLsbD 16
  let r := convertTo .plain dst src (w.extractLsb' 18 2) (w.getLsbD 17) u
    (cvtSource .plain src u (t.data.setWidth 64))
  ({ t with data := placeFmt dst u r.1 }, r.2)

/-- DROPVOID on one token (R40). -/
def dropVoid (h : Shaper) (t : Token) : List Token × Shaper :=
  let keep (x : Option Token) : Shaper := { h with held := x }
  let out := h.held.toList
  if t.mark = 7 then (out ++ [t], keep none)
  else if !t.void then if t.mark = 0 then (out, keep (some t)) else (out ++ [t], keep none)
  else if t.mark = 0 then ([], h)
  else match h.held with
    | some x => ([{ x with mark := t.mark }], keep none)
    | none => ([t], h)

/-- The highest mark among tokens, poison apart; 0 when none carries one. -/
def highestMark (ts : List Token) : Nat := (ts.map fun t => if t.mark = 7 then 0 else t.mark.toNat).foldl max 0

/-- CTURN K on one token (R41). A row that lacks its mark in a block that has shown none gives a poison of level 1, and the
poison takes the tag of the token that spoils its block (log entry 12). -/
def cturnStep (L K : Nat) (h : Shaper) (t : Token) : List Token × Shaper :=
  let pos := h.fill.length
  let blk := h.fill ++ [t]
  let rowEnd := pos % K + 1 = K
  let last := pos + 1 = K * K
  let good : Bool := t.mark != 7 &&
    (if last then decide (1 ≤ t.mark.toNat) else if rowEnd then t.mark == 1 else t.mark == 0)
  if !good then
    let m := max (highestMark blk) (if t.mark = 7 then poisonOf L t else 0)
    ([poisonTok t.tag (if m = 0 then 1 else m)], { h with fill := [] })
  else if last then
    let out := (List.range K).flatMap fun c => (List.range K).map fun r =>
      let x := (blk[r * K + c]?).getD t
      if r + 1 = K then { x with mark := if c + 1 = K then t.mark else 1 } else { x with mark := 0 }
    (out, { h with fill := [] })
  else ([], { h with fill := blk })

/-- One filter on one token: what leaves, its new state, its flags (R40). -/
def filterStep (L : Nat) (w : Word) (h : Shaper) (t : Token) : List Token × Shaper × FlagBits :=
  match (w.extractLsb' 28 4).toNat with
  | 1 => if t.void then ([t], h, 0) else let r := convertTok w t; ([r.1], h, r.2)
  | 2 =>
    if t.void then ([t], h, 0)
    else if isZeroIn ((fmtOf (w.extractLsb' 24 4)).getD .raw) t.data then ([{ t with void := true, data := 0 }], h, 0)
    else ([t], h, 0)
  | 3 => let r := dropVoid h t; (r.1, r.2, 0)
  | 4 => let r := cturnStep L (w.extractLsb' 11 5).toNat h t; (r.1, r.2, 0)
  | _ => ([t], h, 0)

/-- One filter of a chain on the tokens that reach it. -/
def filterMany (L : Nat) (w : Word) (h : Shaper) : List Token → List Token × Shaper × FlagBits
  | [] => ([], h, 0)
  | t :: ts =>
    let r := filterStep L w h t
    let q := filterMany L w r.2.1 ts
    (r.1 ++ q.1, q.2.1, r.2.2 ||| q.2.2)

/-- The filters of a chain, in order: the places of their states, and the filter words. Each switch entry has the state of its
own chain, also where two name one filter (log entry 84). -/
def chainOf (x : Router) (vc : Fin 4) (idx : Nat) (w : Word) : List (Nat × Word) :=
  (List.range (swFlen w)).map fun j => (idx * 5 + j, ((at' x.filt vc)[swFstart w + j]?).getD 0)

/-- Tokens through a chain: what leaves, the router, the flags. -/
def runChain (L : Nat) : List (Nat × Word) → Router → List Token → List Token × Router × FlagBits
  | [], x, ts => (ts, x, 0)
  | (key, w) :: rest, x, ts =>
    let r := filterMany L w (shaperAt x key) ts
    let q := runChain L rest (setShaper x key r.2.1) r.1
    (q.1, q.2.1, r.2.2 ||| q.2.2)

/-- Whether a chain holds blocks of tokens: it has a CTURN (R41). -/
def holdsBlocks (ch : List (Nat × Word)) : Bool := ch.any fun e => (e.2.extractLsb' 28 4).toNat == 4

/-- Whether a chain can take one more token while tokens wait to leave it: a CTURN holds two blocks, one of them draining
(R41). -/
def chainTakes (ch : List (Nat × Word)) (waiting : Nat) : Bool :=
  ch.any fun e => (e.2.extractLsb' 28 4).toNat == 4 &&
    decide (waiting ≤ (e.2.extractLsb' 11 5).toNat * (e.2.extractLsb' 11 5).toNat)

end Sys2Proof.Machine
end

