-- ==== Sys2Proof/Machine/Memory.lean ====
section
/-! DEFINITION. The meanings of the memory instructions, opcodes 0x40 to 0x4F (R281 to R298), and of the steps of
the ordering machine, the bank units, the memory tiles and the page walkers. -/

namespace Sys2Proof.Machine
open Sys2Proof

/-! ## Ending a task, reserving a continuation (R301, R303) -/

/-- The entries of a core's message store that are taken (R303). -/
def storeUsed (k : Core) : Nat := k.store.length + k.conts.length

/-- The running task of a core. -/
def taskOf (s : State) (c : CoreId) : Option Task := (coreAt s c).task

/-- The running task of a core ends (R301). -/
def endTask (s : State) (c : CoreId) : State :=
  modCore s c fun k => match k.task with
    | some t => { k with task := none, lastPc := t.pc }
    | none => k

/-- A store entry is reserved for a continuation of the running task (R303, R313); `none` when the store is full or
no task runs. -/
def reserveCont (s : State) (c : CoreId) (chan : BitVec 6) (aw : Awaits) : Option (Nat × State) :=
  let k := coreAt s c
  match k.task with
  | none => none
  | some t =>
    if storeUsed k ≥ 256 then none
    else
      let n := s.nextId
      some (n, modCore { s with nextId := n + 1 } c fun k =>
        { k with conts := k.conts ++ [⟨n, t.bank, chan, t.wid, t.chain, aw⟩] })

/-! ## Addresses (R283) -/

/-- What forming an address comes to. -/
inductive AddrEnd where
  | va (a : Nat)
  | outside (a : Nat)   -- above the core-local window, from a node
  deriving DecidableEq, Repr

/-- An address in the core-local window from a node's 32-bit sum (R283). -/
def localAddr (sum : Nat) : AddrEnd := if sum / 2 ^ 23 ≠ 0 then .outside (windowBase + sum) else .va (windowBase + sum)

/-- The effective address of an F-REG word. -/
def effAddr (s : State) (e : Env) (x : BitVec 16) (a off : DWord) : AddrEnd :=
  if isNode e then
    let sum := (a.toNat + off.toNat) % 2 ^ 32
    if x.getLsbD 7 then localAddr sum
    else .va ((at' (coreAt s e.core).shapes (Fin.ofNat 8 (x.extractLsb' 4 3).toNat)).base.toNat + sum)
  else .va (a + off).toNat

/-- The effective address of an F-IMM word. -/
def effAddrImm (e : Env) (a : DWord) (imm : Word) : AddrEnd :=
  if isNode e then localAddr ((a.toNat + imm.toNat) % 2 ^ 32) else .va (a + imm.signExtend 64).toNat

/-- Address checks in the order of R298: outside the window, misaligned, no translation, rights and home. `home` says
which homes the entry accepts. A miss records its walk and leaves the word to run again. -/
def resolve (s : State) (e : Env) (ad : AddrEnd) (align : Nat) (want : Want) (home : Nat → Bool)
    (body : Nat → Nat → Eff) : Eff :=
  match ad with
  | .outside a => .trap .protection (BitVec.ofNat 64 a) 0
  | .va va =>
    let w := BitVec.ofNat 64 va
    if va ≥ 2 ^ 52 then .trap .translation w 0
    else if inWindow va && (va - windowBase) / 2 ^ 23 % 2 == 1 then .trap .protection w 0
    else if va % align ≠ 0 then .trap .align w 0
    else match translate s e.core e.launch.ctx va with
      | .trap code => .trap code w 0
      | .miss => .done (recordMiss s e.who e.launch.ctx va)
      | .hit loc r =>
        if allowed s want loc r && home loc then body va loc else .trap .protection w 0

/-! ## Issuing (R285) -/

/-- An access of the agent in focus, plain and with no destination. -/
def baseAccess (s : State) (e : Env) (kind : AccKind) (va loc size : Nat) : Access where
  id := 0
  who := e.who
  agent := e.agent
  ctx := e.launch.ctx
  kind := kind
  va := BitVec.ofNat 64 va
  loc := loc
  size := size
  data := []
  a := 0
  b := 0
  aop := 0
  u := false
  acq := false
  rel := false
  scope := 0
  stage := 0
  entered := 0
  waiting := false
  again := false
  woken := false
  port := none
  got := none
  exc := none
  cls := none
  word := match e.agent with | .bank b => some b | _ => none
  act := currentAct s e
  dest := .none

/-- The ordering bits of M on an access (R281). -/
def withOrder (m : BitVec 8) (a : Access) : Access :=
  { a with acq := memAcq m, rel := memRel m, scope := (memScope m).toNat }

/-- Whether the agent is held at issue because its outstanding reads are at their limit (R285). -/
def loadsFull (s : State) (e : Env) : Bool :=
  match e.agent with
  | .bank b => (at' (coreAt s e.core).banks b).ld ≥ 64
  | _ => false

/-- Whether it is held because its outstanding writes are at their limit: 64 for a bank, 4 for a PE (R285). -/
def storesFull (s : State) (e : Env) : Bool :=
  match e.agent with
  | .bank b => (at' (coreAt s e.core).banks b).st ≥ 64
  | .node pe => (s.accs.filter fun a =>
      a.who.core == e.core && a.agent == .node pe && isWriteKind a.kind && isPosted a.kind).length ≥ 4
  | _ => false

/-- A register of a bank becomes pending. -/
def setPending (b : RegBank) (r : Fin 32) : RegBank :=
  if r = 0 then b else { b with pend := b.pend ||| (1#32 <<< r.val), come := b.come &&& ~~~ (1#32 <<< r.val) }

/-- How a value is extended when it arrives: its size code and U, and in a node its format. -/
structure Placing where
  sz : BitVec 2
  u : Bool
  fmt : Fmt
  deriving DecidableEq, Repr

/-- A reading access issues: its destination waits for the value, in the way of the agent's context (R285). Where a
node's write is void or under poison, nothing waits. -/
def issueRead (s : State) (e : Env) (d : Operand) (p : Placing) (a : Access) : Eff :=
  match e.agent with
  | .bank b =>
    let r : Fin 32 := match d with | .x r => r | _ => 0
    let s1 := modCore s e.core fun k => modBank k b fun g => setPending { g with ld := g.ld + 1 } r
    .done (advance e false (issue s1 { a with dest := if r = 0 then .none else .xreg b r p.sz p.u }))
  | .node pe =>
    let poisoned := match firingOf s e with | some f => f.poison.isSome | none => false
    let word := match firingOf s e with | some f => f.idx | none => 0
    match d with
    | .l r => .done (advance e false (issue s { a with dest := if poisoned then .none else .lreg pe r p.fmt p.u word }))
    | _ =>
      let slot := match firingOf s e with | some f => f.outs.length | none => 0
      let s1 := writeDst s e d false 0 p.fmt
      if poisoned then .done (advance e false (issue s1 a))
      else
        let s2 := modCore s1 e.core fun k => modNode k pe fun n =>
          { n with firing := n.firing.map fun f =>
              { f with outs := f.outs.modify slot fun o => { o with ready := false } } }
        .done (advance e false (issue s2 { a with dest := .qport pe slot p.fmt p.u word }))
  | .parser z =>
    let dest := match d with | .a r => Dest.areg z r p.sz p.u | _ => .none
    let s1 := issue s { a with dest := dest }
    .done (modCore s1 e.core fun k => modParser k z fun y =>
      { y with run := y.run.map fun g => { g with parked := true } })
  | _ => .wait

/-- A writing access issues and is posted (R285). -/
def issueWrite (s : State) (e : Env) (a : Access) : Eff :=
  let s1 := match e.agent with
    | .bank b => modCore s e.core fun k => modBank k b fun g => { g with st := g.st + 1 }
    | _ => s
  .done (advance e false (issue s1 a))

/-- A node's memory word that performs nothing: its destination is written void (R77, R78). -/
def performNothing (s : State) (e : Env) (d : Option Operand) : Eff :=
  .done (advance e true (match d with | some d => writeDst s e d true 0 .raw | none => s))

/-- The node's word in focus has run before in its firing, which has begun again (R76). -/
def redone (s : State) (e : Env) : Bool :=
  match firingOf s e with
  | some f => f.idx < f.redo
  | none => false

/-- A memory word that has run before in its firing: it does not reach memory again, and its destination takes what its read
has brought, or, where it performed nothing, void. -/
def performAgain (s : State) (e : Env) (d : Option Operand) : Eff :=
  let got := (firingOf s e).bind fun f => (f.memo.find? (·.1 == f.idx)).map (·.2)
  match d, got with
  | some d, some x => .done (advance e true (writeDst s e d false (x.1.setWidth 64) x.2))
  | d, _ => performNothing s e d

/-- The frame of a memory word: it waits for values still on their way, and with a void source or a false predicate
performs nothing. -/
def memWord (i : Instr) (s : State) (d : Option Operand) (srcs : List Operand)
    (body : Env → List Src → Eff) : Out :=
  runWord i s fun e =>
    if (d.toList ++ srcs).any (lPending s e) then .wait
    else if redone s e then performAgain s e d
    else
      let xs := srcs.map (readSrc s e)
      if xs.any (·.void) || !predicate s e then performNothing s e d
      else body e xs

/-- TFMT of X (R282). -/
def tfmt (x : BitVec 16) : Fmt := (fmtOf (x.extractLsb' 0 4)).getD .raw

/-- The tag of a node's LDI (R284). -/
def ldiFmt (m : BitVec 8) : Fmt :=
  match (memSz m).toNat with
  | 0 => .i8
  | 1 => .i16
  | _ => .i32

/-- The size in bytes that M names. -/
def mBytes (m : BitVec 8) : Nat := 2 ^ (memSz m).toNat

/-- Every home. -/
def anyHome (_ : Nat) : Bool := true
/-- A home with a bank unit: CSM or a memory tile (R119). -/
def unitHome (loc : Nat) : Bool := isCsm loc || isScratch loc

/-! ## The instructions -/

/-- LD (R287). -/
def execLd (f : RegForm) (s : State) : Out :=
  memWord (.ld f) s (some f.d) [f.a, f.b] fun e xs =>
    if loadsFull s e then .wait
    else resolve s e (effAddr s e f.x (nthSrc xs 0) (nthSrc xs 1)) (mBytes f.m) .read anyHome fun va loc =>
      issueRead s e f.d ⟨memSz f.m, memU f.m, tfmt f.x⟩ (withOrder f.m (baseAccess s e .load va loc (mBytes f.m)))

/-- LDI (R287, R284). -/
def execLdi (f : ImmForm) (s : State) : Out :=
  memWord (.ldi f) s (some f.d) [f.a] fun e xs =>
    if loadsFull s e then .wait
    else resolve s e (effAddrImm e (nthSrc xs 0) f.imm) (mBytes f.m) .read anyHome fun va loc =>
      issueRead s e f.d ⟨memSz f.m, memU f.m, ldiFmt f.m⟩ (withOrder f.m (baseAccess s e .load va loc (mBytes f.m)))

/-- ST (R288). -/
def execSt (f : RegForm) (s : State) : Out :=
  memWord (.st f) s none [f.a, f.b, f.c] fun e xs =>
    if storesFull s e then .wait
    else resolve s e (effAddr s e f.x (nthSrc xs 0) (nthSrc xs 1)) (mBytes f.m) .write anyHome fun va loc =>
      issueWrite s e (withOrder f.m
        { baseAccess s e .store va loc (mBytes f.m) with data := valueBytes (mBytes f.m) (nthSrc xs 2) })

/-- STI (R288): the value source is D. -/
def execSti (f : ImmForm) (s : State) : Out :=
  memWord (.sti f) s none [f.a, f.d] fun e xs =>
    if storesFull s e then .wait
    else resolve s e (effAddrImm e (nthSrc xs 0) f.imm) (mBytes f.m) .write anyHome fun va loc =>
      issueWrite s e (withOrder f.m
        { baseAccess s e .store va loc (mBytes f.m) with data := valueBytes (mBytes f.m) (nthSrc xs 1) })

/-- LDV (R293): split-phase in a task. -/
def execLdv (f : RegForm) (s : State) : Out :=
  memWord (.ldv f) s (some f.d) [f.a, f.b] fun e xs =>
    resolve s e (effAddr s e f.x (nthSrc xs 0) 0) 64 .versioned anyHome fun va loc =>
      let a := withOrder f.m { baseAccess s e .ldv va loc 64 with a := nthSrc xs 1 &&& 0xFFFFFF }
      match e.agent with
      | .bank _ =>
        match reserveCont s e.core (f.x.extractLsb' 8 6) .answer with
        | none => .wait
        | some (n, s1) => .done (endTask (issue s1 { a with word := none, dest := .cont n }) e.core)
      | _ => issueRead s e f.d ⟨2, memU f.m, tfmt f.x⟩ a

/-- STV (R294). -/
def execStv (f : RegForm) (s : State) : Out :=
  memWord (.stv f) s none [f.a, f.b, f.c] fun e xs =>
    if storesFull s e then .wait
    else resolve s e (effAddr s e f.x (nthSrc xs 0) 0) 64 .versioned anyHome fun va loc =>
      issueWrite s e (withOrder f.m
        { baseAccess s e .stv va loc 64 with a := nthSrc xs 1 &&& 0xFFFFFF, b := nthSrc xs 2 &&& 0xFFFFFFFF })

/-- ADVV (R294). -/
def execAdvv (f : RegForm) (s : State) : Out :=
  memWord (.advv f) s none [f.a, f.b] fun e xs =>
    if storesFull s e then .wait
    else resolve s e (effAddr s e f.x (nthSrc xs 0) 0) 64 .versioned anyHome fun va loc =>
      issueWrite s e (withOrder f.m { baseAccess s e .advv va loc 64 with a := nthSrc xs 1 &&& 0xFFFFFF })

/-- RECLV (R294). -/
def execReclv (f : RegForm) (s : State) : Out :=
  memWord (.reclv f) s none [f.a, f.b] fun e xs =>
    if storesFull s e then .wait
    else resolve s e (effAddr s e f.x (nthSrc xs 0) 0) 64 .versioned anyHome fun va loc =>
      issueWrite s e (withOrder f.m { baseAccess s e .reclv va loc 64 with a := nthSrc xs 1 &&& 0xFFFFFF })

/-- Whether an address, where it is formed, lies in the core-local window. -/
def addrLocal : AddrEnd → Bool
  | .va a => inWindow a
  | .outside _ => true

/-- ATOM (R289). -/
def execAtom (f : RegForm) (s : State) : Out :=
  memWord (.atom f) s (some f.d) [f.a, f.b] fun e xs =>
    let ad := effAddr s e f.x (nthSrc xs 0) 0
    if mBytes f.m = 8 ∧ addrLocal ad then .trap .illegalOperand e.who.pc 0
    else if loadsFull s e then .wait
    else resolve s e ad (mBytes f.m) .both unitHome fun va loc =>
      issueRead s e f.d ⟨memSz f.m, memU f.m, tfmt f.x⟩ (withOrder f.m
        { baseAccess s e .atom va loc (mBytes f.m) with
          a := nthSrc xs 1, aop := f.x.extractLsb' 8 4, u := memU f.m })

/-- CAS (R290). -/
def execCas (f : RegForm) (s : State) : Out :=
  memWord (.cas f) s (some f.d) [f.a, f.b, f.c] fun e xs =>
    let ad := effAddr s e f.x (nthSrc xs 0) 0
    if mBytes f.m = 8 ∧ addrLocal ad then .trap .illegalOperand e.who.pc 0
    else if loadsFull s e then .wait
    else resolve s e ad (mBytes f.m) .both unitHome fun va loc =>
      issueRead s e f.d ⟨memSz f.m, memU f.m, tfmt f.x⟩ (withOrder f.m
        { baseAccess s e .cas va loc (mBytes f.m) with a := nthSrc xs 1, b := nthSrc xs 2 })

/-- APPEND (R291): the counter has 8 bytes in CSM and 4 in the scratchpad. -/
def execAppend (f : RegForm) (s : State) : Out :=
  memWord (.append f) s (some f.d) [f.a, f.b] fun e xs =>
    let ad := effAddr s e f.x (nthSrc xs 0) 0
    let n := if addrLocal ad then 4 else 8
    if loadsFull s e then .wait
    else resolve s e ad n .both unitHome fun va loc =>
      issueRead s e f.d ⟨3, true, tfmt f.x⟩ (withOrder f.m
        { baseAccess s e .append va loc n with a := nthSrc xs 1 })

/-- TICKET (R292). -/
def execTicket (f : RegForm) (s : State) : Out :=
  memWord (.ticket f) s (some f.d) [f.a, f.b, f.c] fun e xs =>
    if loadsFull s e then .wait
    else resolve s e (effAddr s e f.x (nthSrc xs 0) 0) 16 .both isCsm fun va loc =>
      issueRead s e f.d ⟨3, true, tfmt f.x⟩ (withOrder f.m
        { baseAccess s e .ticket va loc 16 with
          a := if isNode e then nthSrc xs 1 &&& 0xFFFFFFFF else nthSrc xs 1
          b := if isNode e then nthSrc xs 2 &&& 0xFFFFFFFF else nthSrc xs 2 })

/-- The shape slot that SEG names (R295). -/
def slotOf (s : State) (e : Env) (x : BitVec 16) : Shape :=
  at' (coreAt s e.core).shapes (Fin.ofNat 8 (x.extractLsb' 4 3).toNat)

/-- Whether a SHAPE of the agent to the slot has not performed; the agent's GATH or SCAT waits for it (R296). -/
def shapeOnItsWay (s : State) (e : Env) (x : BitVec 16) : Bool :=
  s.accs.any fun a => a.who.core == e.core && a.agent == e.agent &&
    a.dest == .shape (Fin.ofNat 8 (x.extractLsb' 4 3).toNat)

/-- The indices that a core has dropped in this cycle, gathers and scatters. -/
def dropsNow (now : Nat) (k : Core) : Nat × Nat := if k.dropNow.1 = now then k.dropNow.2 else (0, 0)

/-- One half of IDXDROP counts an index, saturating (R145). -/
def countDrop (s : State) (c : CoreId) (scat : Bool) : State :=
  modCore s c fun k =>
    let v := k.blk.idxdrop.toNat
    let g := v % 2 ^ 32
    let h := v / 2 ^ 32
    let v' := if scat then (min (h + 1) (2 ^ 32 - 1)) * 2 ^ 32 + g else h * 2 ^ 32 + min (g + 1) (2 ^ 32 - 1)
    let n := dropsNow s.now k
    { k with
      blk := { k.blk with idxdrop := BitVec.ofNat 64 v' }
      dropNow := (s.now, if scat then (n.1, n.2 + 1) else (n.1 + 1, n.2)) }

/-- A GATH outside its slot's bounds: zero in its format. A task's register is pending all the same, with its value
arrived, until a WAIT (R285). -/
def gathZero (s : State) (e : Env) (d : Operand) (f : Fmt) : State :=
  match e.agent, d with
  | .bank b, .x r => modCore s e.core fun k => modBank k b fun g => arriveX (setPending g r) r 0
  | .node pe, _ => modCore (writeDst s e d false 0 f) e.core fun k => modNode k pe fun n =>
      { n with firing := n.firing.map fun g => g.noteRead g.idx 0 f }
  | _, _ => writeDst s e d false 0 f

/-- GATH (R295, R144). -/
def execGath (f : RegForm) (s : State) : Out :=
  memWord (.gath f) s (some f.d) [f.a] fun e xs =>
    if shapeOnItsWay s e f.x || loadsFull s e then .wait
    else
      let h := slotOf s e f.x
      let idx := (nthSrc xs 0).toNat % 2 ^ 32
      if memSz f.m ≠ h.esz then .trap .illegalOperand e.who.pc 0
      else if idx ≥ h.count.toNat then .done (advance e true (countDrop (gathZero s e f.d (tfmt f.x)) e.core false))
      else resolve s e (.va (h.base.toNat + idx * mBytes f.m)) (mBytes f.m) .read anyHome fun va loc =>
        issueRead s e f.d ⟨memSz f.m, memU f.m, tfmt f.x⟩ (withOrder f.m (baseAccess s e .load va loc (mBytes f.m)))

/-- SCAT (R295, R144). -/
def execScat (f : RegForm) (s : State) : Out :=
  memWord (.scat f) s none [f.a, f.b] fun e xs =>
    if shapeOnItsWay s e f.x || storesFull s e then .wait
    else
      let h := slotOf s e f.x
      let idx := (nthSrc xs 0).toNat % 2 ^ 32
      if memSz f.m ≠ h.esz then .trap .illegalOperand e.who.pc 0
      else if idx ≥ h.count.toNat then .done (advance e true (countDrop s e.core true))
      else resolve s e (.va (h.base.toNat + idx * mBytes f.m)) (mBytes f.m) .write anyHome fun va loc =>
        issueWrite s e (withOrder f.m
          { baseAccess s e .store va loc (mBytes f.m) with data := valueBytes (mBytes f.m) (nthSrc xs 1) })

/-- FENCE (R297, R128): scope 0 does nothing. -/
def execFence (f : RegForm) (s : State) : Out :=
  memWord (.fence f) s none [] fun e _ =>
    if (memScope f.m).toNat = 0 then .done (advance e true s)
    else .done (advance e false (issue s
      { baseAccess s e .fence 0 0 0 with scope := (memScope f.m).toNat, word := none }))

/-- SHAPE (R296). -/
def execShape (f : RegForm) (s : State) : Out :=
  memWord (.shape f) s none [f.a, f.b] fun e xs =>
    if (nthSrc xs 1).toNat > 7 then .trap .illegalOperand e.who.pc 0
    else if loadsFull s e then .wait
    else resolve s e (.va (nthSrc xs 0).toNat) 16 .read anyHome fun va loc =>
      let a := withOrder f.m { baseAccess s e .shape va loc 16 with dest := .shape (Fin.ofNat 8 (nthSrc xs 1).toNat) }
      match e.agent with
      | .bank b =>
        let s1 := modCore s e.core fun k => modBank k b fun g => { g with ld := g.ld + 1 }
        .done (advance e false (issue s1 a))
      | .parser z => .done (modCore (issue s a) e.core fun k => modParser k z fun y =>
          { y with run := y.run.map fun g => { g with parked := true } })
      | _ => .wait

/-! ## The ordering machine's steps -/

/-- An access by its number. -/
def accBy (s : State) (id : Nat) : Option Access := s.accs.find? (·.id == id)

/-- MEM_PROPAGATE (R124). -/
def execMemPropagate (acc : Nat) (s : State) : Out :=
  .next (match accBy s acc with | some a => propagateAccess s a | none => s)

/-- MEM_PERFORM (R124). -/
def execMemPerform (acc : Nat) (s : State) : Out :=
  .next (match accBy s acc with | some a => performNext s a | none => s)

/-- The request that reached a bank earliest, of those a test accepts. -/
def earliest (xs : List Access) : Option Access :=
  xs.foldl (fun (m : Option Access) a =>
    match m with
    | none => some a
    | some y => if a.entered < y.entered then some a else some y) none

/-- BANK_WAIT_WAKE (R135): the woken request that reached the bank first performs. -/
def execBankWaitWake (b : Bank) (s : State) : Out :=
  .next (match earliest (s.accs.filter fun a => a.waiting && a.woken && isCsm a.loc && bankOf a.loc == b) with
    | some a => if heldAtHome s a || !slotOpen s b.die a.ctx then s else performAccess s a
    | none => s)

/-- WAIT_STORE_RESEND (R135): the requests that the bank sent back go out again after a change at that bank. -/
def execWaitStoreResend (b : Bank) (s : State) : Out :=
  .next { s with accs := s.accs.map fun a =>
      if a.again && a.woken && bankOf a.loc == b then { a with again := false, woken := false } else a }

/-! ## Memory tiles (R81 to R85) -/

/-- The head of an MT's request port. -/
def mtHead (k : Core) (m : MtId) (p : Fin 4) : Option Token :=
  match queueAt k (.mt m p) with
  | .tok t :: _ => some t
  | _ => none

/-- Whether a port presents a request for a bank and has room for its response and its done token (R80, R81, R84). -/
def mtWants (k : Core) (m : MtId) (bank : Fin 4) (p : Fin 4) : Bool :=
  match mtHead k m p with
  | none => false
  | some t => (at' (at' k.mts m).rob p).length < 16 && (!Config.mtDone t || canSend k (mtRouter m) 0) &&
      (t.void || ((Config.mtRequest t).1.toNat / 4) % 4 == bank.val)

/-- The access at the head of a tile's steering port, where it is one for a bank with room for its response (R83, R443). One
wider than a word asks only for the bank of its first word (log entry 88). -/
def steerWants (s : State) (c : CoreId) (m : MtId) (bank : Fin 4) : Option Access :=
  match oldest (atSteer s (c, m)) with
  | none => none
  | some a => if a.loc / 4 % 4 == bank.val && (a.kind == .store || (steerRob s (c, m)).length < 16) then some a else none

/-- An element of a core named in a fault record, with the work ID of a place in its team's walk at a data port (R25, R389). -/
def unitAt (s : State) (c : CoreId) (unit elem : Nat) (port : RouterId × Nat) (place : Place) : Who :=
  match holderOf s c with
  | some l =>
    let k := coreAt s c
    ⟨l.id, c, unit, elem, elemWid l k (plainPort k port.1 port.2) place, 0, 0⟩
  | none => ⟨0, c, unit, elem, 0, 0, 0⟩

/-- An element that consumes no tokens, at the start of its team's walk. -/
def unitWho (s : State) (c : CoreId) (unit elem : Nat) : Who :=
  match holderOf s c with
  | some l => ⟨l.id, c, unit, elem, elemWid l (coreAt s c) true Place.zero, 0, 0⟩
  | none => ⟨0, c, unit, elem, 0, 0, 0⟩

/-- Whether the elements of a core may step: its launch runs or drains. -/
def coreSteps (s : State) (c : CoreId) : Bool :=
  match holderOf s c with
  | some l => maySteps s l
  | none => false

/-- A memory tile changed. -/
def modMt (k : Core) (m : MtId) (f : Mt → Mt) : Core := { k with mts := put k.mts m (f (at' k.mts m)) }

/-- A response joins a port's reorder buffer. -/
def pushRob (k : Core) (m : MtId) (p : Fin 4) (t : Token) : Core :=
  modMt k m fun x => { x with rob := put x.rob p (at' x.rob p ++ [t]) }

/-- A request leaves the head of a stream port: the port's place moves on (R25), and the done token goes out where there is
one (R80, log entry 10). -/
def mtTake (l : Launch) (k : Core) (m : MtId) (p : Fin 4) (t : Token) : Core :=
  let k1 := modMt (popTok k (.mt m p)) m fun x => { x with wid := put x.wid p (placeAfter l k (at' x.wid p) t) }
  if Config.mtDone t then sendLocal k1 (mtRouter m) 0 (.bit true) else k1

/-- An MT serves the request at a stream port's head (R81, R83). A load or an atomic answers with the request's mark and tag;
a store answers nothing; a void request touches no memory and is answered by itself (log entry 10). Poison raises POISON
(R27). -/
def mtServe (s : State) (l : Launch) (c : CoreId) (m : MtId) (p : Fin 4) (t : Token) : State :=
  let who := unitAt s c 3 m.val (mtRouter m, p.val) (at' (at' (coreAt s c).mts m).wid p)
  let s1 := modCore (if t.void then active s c else moved s c) c (mtTake l · m p t)
  if t.mark = 7 then raise .poison who 0 (BitVec.ofNat 64 (poisonOf (levels l.recd) t)) s
  else if t.void then modCore s1 c (pushRob · m p t)
  else
    let q := Config.mtRequest t
    let loc := scratchLoc c + m.val * 65536 + q.1.toNat / 4 * 4
    if badRange s loc 4 && !q.2.1 then raiseRead .uncorrectable who 0 (physAddr s loc) l.ctx s
    else
    let old := homeLoad s loc 4
    let resp (k : Core) : Core := pushRob k m p { t with data := BitVec.ofNat 32 old }
    match q.2.1, q.2.2.1 with
    | true, _ => homeStore s1 loc (bytesLE 4 q.2.2.2.toNat)
    | false, some op =>
      let r := atomNew op.toNat 4 false old q.2.2.2.toNat
      mergeFlags (modCore (homeStore s1 loc (bytesLE 4 r.1)) c resp) c r.2
    | false, none => modCore s1 c resp

/-- Whether a port of an MT presents a request to a bank: stream ports 0 to 3 while the tile's launch steps, and the steering
port, 4. -/
def portWants (s : State) (c : CoreId) (m : MtId) (bank : Fin 4) (p : Fin 5) : Bool :=
  if h : p.val < 4 then coreSteps s c && !(at' (coreAt s c).mts m).frozen && mtWants (coreAt s c) m bank ⟨p.val, h⟩
  else (steerWants s c m bank).isSome

/-- A bank serves the request that a port presents. -/
def servePort (s : State) (c : CoreId) (m : MtId) (bank : Fin 4) (p : Fin 5) : State :=
  if h : p.val < 4 then
    match holderOf s c, mtHead (coreAt s c) m ⟨p.val, h⟩ with
    | some l, some t => mtServe s l c m ⟨p.val, h⟩ t
    | _, _ => s
  else match steerWants s c m bank with
    | some a => steerServe s a
    | none => s

/-- MT_ACCEPT (R82): a bank of an MT takes one request, round-robin among the ports that present one. -/
def execMtAccept (c : CoreId) (m : MtId) (bank : Fin 4) (s : State) : Out :=
  .next (match nextTurn (at' (at' (coreAt s c).mts m).turn bank) (portWants s c m bank) with
    | some p => modCore (servePort s c m bank p) c fun k => modMt k m fun x => { x with turn := put x.turn bank p }
    | none => s)

/-- MT_RESPONSE (R84): the oldest response of a port leaves, of a stream port on the port's VC, of the steering port over
the memory network. -/
def execMtResponse (c : CoreId) (m : MtId) (port : Fin 5) (s : State) : Out :=
  .next (
    if h : port.val < 4 then
      let p : Fin 4 := ⟨port.val, h⟩
      let k := coreAt s c
      match at' (at' k.mts m).rob p with
      | [] => s
      | t :: ts =>
        if coreSteps s c && canWrite k (mtRouter m) p then
          modCore (active s c) c fun k => writeLocal (modMt k m fun x => { x with rob := put x.rob p ts }) (mtRouter m) p (.tok t)
        else s
    else match oldest (steerRob s (c, m)) with
      | some a => steerReturn s a
      | none => s)

/-! ## Page walks (R382 to R386) -/

/-- Whether a translation answers a miss. -/
def answersWalk (t : TlbEntry) (x : Walk) : Bool := tlbCovers t x.ctx x.va

/-- Misses leave the die, and the engine commands and system words among them learn that their page has been walked. -/
def walksDone (s : State) (die : DieId) (mine : List Walk) : State :=
  let s0 := modDie s die fun d => { d with walks := d.walks.filter (!mine.contains ·) }
  let s1 := mine.foldl (fun s x => heard s x.who.launch x.who.core) s0
  { s1 with walked := s1.walked ++ (mine.filter (·.asker != .element)).map fun x => (x.asker, x.ctx, x.va / 65536) }

/-- A walk that fails ends the launches of the elements that asked; an engine command or a system word looks again and finds
the failure itself. -/
def failWalks (s : State) (die : DieId) (w : Walk) (mine : List Walk) (f : Who → Walk → State → State) : State :=
  (mine.filter (·.asker == .element)).foldl (fun s x =>
    f { x.who with unit := 0x0C, elem := ((w.walker.map (·.val)).getD 0) } x s) (walksDone s die mine)

/-- PAGE_WALK (R384, R386): waiting misses of earlier cycles take the walkers that are free, and a walker in a slot of its partition ends its
walk, with every miss that has joined it. A failing walk caches nothing. -/
def execPageWalk (die : DieId) (s : State) : Out :=
  .next (
    let s1 := modDie s die fun d => { d with walks := giveWalkers s d s.now [] d.walks }
    match pickFree s ((dieAt s1 die).walks.filter fun x => x.walker.isSome && slotOpen s die x.ctx) with
    | none => s1
    | some w =>
      let mine := (dieAt s1 die).walks.filter (samePage w)
      match walk s w.ctx w.va with
      | .leaf t =>
        walksDone (modDie s1 die fun d => { d with tlb := tlbFill s 16384 d.tlb t }) die
          ((dieAt s1 die).walks.filter fun x => x == w || answersWalk t x)
      | .bad entry level =>
        failWalks s1 die w mine fun who x s => raise .translation who (BitVec.ofNat 64 x.va) (walkExtra entry level) s
      | .spoilt loc =>
        failWalks s1 die w mine fun who x s =>
          raiseRead .uncorrectable who (BitVec.ofNat 64 x.va) (BitVec.ofNat 64 loc) x.ctx s)

end Sys2Proof.Machine
end

