-- ==== Sys2Proof/Machine/Registers.lean ====
section
/-! DEFINITION. The special registers (R5 to R7, R321 to R325, R418): reading, writing, and what each of them holds. -/

namespace Sys2Proof.Machine
open Sys2Proof

/-- WIDW of a launch record (R15). -/
def widwOf (r : Vector DWord 16) : DWord :=
  BitVec.ofNat 64 (field r[4] 40 39 * 2 ^ 45 + teamLevel r * 2 ^ 42 +
    ((List.range 6).map fun i => widthField r (i + 1) * 2 ^ (7 * i)).sum)

/-- A parser's PSTAT (R72). A parser that a stop string has stopped reads RUN (log entry 93). -/
def pstatOf (z : Parser) : DWord :=
  let st := match z.state with | .idle => 0 | .run => 1 | .permit => 2 | .discard => 3 | .faulted => 4
  BitVec.ofNat 64 (st * 2 ^ 61 + min z.stack.length 128 * 2 ^ 53 + z.start % 64 * 2 ^ 47 +
    (if z.la2 then 2 ^ 46 else 0) + (if z.byte then 2 ^ 45 else 0) + min z.recn 8191 * 2 ^ 32 +
    min z.seqn (2 ^ 32 - 1))

/-- A SEQ register (R315). -/
def seqOf (k : Core) (i : Fin 4) : DWord :=
  BitVec.ofNat 64 ((at' k.blk.seqIss i).toNat * 2 ^ 32 + (at' k.blk.seqCmp i).toNat)

/-- The code of CPSEM's holder (R413). -/
def holderCode : Holder → DWord
  | .free => 0
  | .port .A => 1
  | .port .B => 2
  | .sys n => BitVec.ofNat 64 (0x400 + n)

/-- CTX (R323). -/
def ctxReg (e : Env) : DWord := BitVec.ofNat 64 ((if e.kind = .system then 2 ^ 16 else 0) + e.launch.ctx % 2 ^ 16)

/-- A channel-table entry as MFS reads it (R304). -/
def chanRead (h : Chan) : DWord := if h.next.isSome then h.val ||| (1#64 <<< 62) else h.val

/-- The writable fields of a channel-table entry (R304, R6). -/
def chanMask : DWord := 0xBE0FFFFFFFFFFFFF
/-- The bits of MSTAT that hold something (R324). -/
def mstatMask : DWord := 0xFFF80000000000FF

/-- The system registers (R418). -/
def sysReg (s : State) (c : CoreId) (i : Nat) : Option DWord :=
  let d := dieAt s (dieOf c)
  match i with
  | 0x800 => some (BitVec.ofNat 64 s.fzseq)
  | 0x801 => some s.bootCount
  | 0x802 => some (holderCode s.cpsem)
  | 0x803 => some (s.wdp.setWidth 64)
  | 0x804 => some (s.scrub.setWidth 64)
  | 0x805 => some ((coreAt s c).guardV.setWidth 64)
  | 0x806 => some d.slotTable
  | 0x807 => some d.queueMap
  | 0x808 => some (BitVec.ofNat 64 ((if d.stepped then 1 else 0) + d.temp.toNat * 256))
  | _ => none

/-- The block of a core changed. -/
def modBlk (s : State) (c : CoreId) (f : RegBlock → RegBlock) : State :=
  modCore s c fun k => { k with blk := f k.blk }

/-- A die measures its junction temperature: at 100 °C or above its core clock is 470 MHz, below 95 °C it is 940 MHz again, and
at 110 °C every die loses power and nothing is written (R439). -/
def noteTemp (s : State) (d : DieId) (t : BitVec 8) : State :=
  let s1 := modDie s d fun x => { x with
    temp := t, tempAt := some s.now, stepped := if 100 ≤ t.toNat then true else if t.toNat < 95 then false else x.stepped }
  if 110 ≤ t.toNat then { s1 with powered := false } else s1

/-- A die whose temperature in this cycle is known; else it measures it (log entry 74). -/
def measured (s : State) (d : DieId) : State :=
  if (dieAt s d).tempAt = some s.now then s else noteTemp s d (Config.temp d s.now)

/-- FLAGS written: a 1 clears, but for a bit that was set in this cycle (R110, R5, R7). -/
def writeFlags (s : State) (c : CoreId) (v : DWord) : State :=
  modCore s c fun k =>
    let just := if k.flagsNow.1 = s.now then k.flagsNow.2 else 0
    { k with blk := { k.blk with flags := k.blk.flags &&& ~~~ (v.setWidth 6 &&& ~~~ just) } }

/-- IDXDROP cleared by its read; what this cycle has dropped stays (R145, R7). -/
def clearDrops (now : Nat) (k : Core) : Core :=
  let n := dropsNow now k
  { k with blk := { k.blk with idxdrop := BitVec.ofNat 64 (min n.2 (2 ^ 32 - 1) * 2 ^ 32 + min n.1 (2 ^ 32 - 1)) } }

/-- CONF of SKSTAT cleared by its read, unless it was set in this cycle (R197, R7). -/
def clearConf (now : Nat) (k : Core) : Core :=
  if k.confAt = some now then k else { k with blk := { k.blk with skstat := k.blk.skstat &&& ~~~ (1#64 <<< 58) } }

/-- RECN cleared by its read; the recoveries of this cycle stay (R72, R7). -/
def clearRecn (now : Nat) (z : Parser) : Parser := { z with recn := if z.recNow.1 = now then min 8191 z.recNow.2 else 0 }

/-- The register of an index as MFS reads it, and the state once its RC fields are cleared (R5, R322); `none` for an
index that names none. -/
def readSpecial (s : State) (e : Env) (i : Nat) : Option (DWord × State) :=
  let k := coreAt s e.core
  let x := ctxBy s e.launch.ctx
  match i with
  | 0x000 => some (e.who.wid, s)
  | 0x001 => some (widwOf e.launch.recd, s)
  | 0x002 => some (BitVec.ofNat 64 k.team, s)
  | 0x003 => some (BitVec.ofNat 64 e.core.val, s)
  | 0x004 => some (ctxReg e, s)
  | 0x005 => some ((match k.task with | some t => t.mstat | none => 0), s)
  | 0x010 => some (k.blk.flags.setWidth 64, s)
  | 0x011 => some (k.blk.policy.setWidth 64, s)
  | 0x012 => some (k.blk.amax, s)
  | 0x020 => some (seqOf k 0, s)
  | 0x021 => some (seqOf k 1, s)
  | 0x022 => some (seqOf k 2, s)
  | 0x023 => some (seqOf k 3, s)
  | 0x030 => some (k.blk.en.setWidth 64, s)
  | 0x031 => some (k.blk.idxdrop, modCore s e.core (clearDrops s.now))
  | 0x040 => some ((match x with | some x => x.skcells.setWidth 64 | none => 0), s)
  | 0x041 => some ((match x with | some x => x.skgrow.setWidth 64 | none => 0), s)
  | 0x042 => some ((match x with | some x => x.skrnd.setWidth 64 | none => 0), s)
  | 0x043 => some (k.blk.skstat, modCore s e.core (clearConf s.now))
  | n =>
    if 0x050 ≤ n ∧ n ≤ 0x053 then
      let p : ParserId := Fin.ofNat 4 (n - 0x050)
      some (pstatOf (at' k.parsers p), modCore s e.core fun k => modParser k p (clearRecn s.now))
    else if 0x100 ≤ n ∧ n ≤ 0x13F then some (chanRead (at' k.chtab (Fin.ofNat 64 (n - 0x100))), s)
    else none

/-- What an MTS comes to. -/
inductive WriteEnd where
  | ok (s : State)
  | bad            -- ILLEGAL_OPERAND
  | busy           -- it waits at issue
  deriving DecidableEq, Repr

/-- AMAX written (R112). -/
def writeAmax (s : State) (c : CoreId) (v : DWord) : State := modBlk s c fun b => { b with amax := amaxStored v }

/-- CNT written: the enables, and each counter that CLR names cleared before the events of its cycle (R325). -/
def writeCnt (s : State) (c : CoreId) (v : DWord) : State :=
  modCore s c fun k => { k with blk := { k.blk with
    en := v.setWidth 8
    ctr := Vector.ofFn fun (i : Fin 8) => if v.getLsbD (8 + i.val) then at' (countsNow s.now k) i else at' k.blk.ctr i } }

/-- A sizing register of a context written, if the value is in range (R196). -/
def writeSk (s : State) (ctx : Nat) (r : Nat) (v : DWord) : Option State :=
  match r with
  | 0 => let n := field v 3 0
    if 1 ≤ n ∧ n ≤ 14 then some (modCtx s ctx fun x => { x with skcells := BitVec.ofNat 4 n }) else none
  | 1 => let n := field v 1 0
    if 1 ≤ n ∧ n ≤ 2 then some (modCtx s ctx fun x => { x with skgrow := BitVec.ofNat 2 n }) else none
  | _ => let n := field v 2 0
    if 1 ≤ n ∧ n ≤ 4 then some (modCtx s ctx fun x => { x with skrnd := BitVec.ofNat 3 n }) else none

/-- A channel-table entry written: the value holds from 4 cycles on, and the entry is busy until then (R304); `none`
where it is busy already. -/
def writeChan (s : State) (c : CoreId) (n : Fin 64) (v : DWord) : Option State :=
  let h := at' (coreAt s c).chtab n
  if h.next.isSome then none
  else some (modCore s c fun k =>
    { k with chtab := put k.chtab n { h with next := some (v &&& chanMask, s.now + 4) } })

/-- A special register written under R5: read-only registers ignore it. -/
def writeSpecial (s : State) (c : CoreId) (ctx i : Nat) (v : DWord) : WriteEnd :=
  match i with
  | 0x000 | 0x001 | 0x002 | 0x003 | 0x004 | 0x005 | 0x020 | 0x021 | 0x022 | 0x023 | 0x031 | 0x043 => .ok s
  | 0x010 => .ok (writeFlags s c v)
  | 0x011 => .ok (modBlk s c fun b => { b with policy := v.setWidth 3 })
  | 0x012 => .ok (writeAmax s c v)
  | 0x030 => .ok (writeCnt s c v)
  | 0x040 => match writeSk s ctx 0 v with | some s' => .ok s' | none => .bad
  | 0x041 => match writeSk s ctx 1 v with | some s' => .ok s' | none => .bad
  | 0x042 => match writeSk s ctx 2 v with | some s' => .ok s' | none => .bad
  | n =>
    if 0x050 ≤ n ∧ n ≤ 0x053 then .ok s
    else if 0x100 ≤ n ∧ n ≤ 0x13F then
      match writeChan s c (Fin.ofNat 64 (n - 0x100)) v with | some s' => .ok s' | none => .busy
    else .bad

/-- MFS (R321, R418). -/
def execMfs (f : ImmForm) (s : State) : Out :=
  runWord (.mfs f) s fun e =>
    let i := f.imm.toNat
    let dst (s : State) (v : DWord) : Eff := .done (advance e true (writeDst s e f.d false v .raw))
    if i ≥ 0x800 then
      if e.kind ≠ .system then .trap .privilege e.who.pc 0
      else
        let s1 := if i = 0x808 then measured s (dieOf e.core) else s
        match sysReg s1 e.core i with
        | some v => dst s1 v
        | none => .trap .illegalOperand e.who.pc 0
    else match readSpecial s e i with
      | some (v, s1) => dst s1 v
      | none => .trap .illegalOperand e.who.pc 0

/-- MTS (R321, R418). -/
def execMts (f : ImmForm) (s : State) : Out :=
  runWord (.mts f) s fun e =>
    let i := f.imm.toNat
    if i ≥ 0x800 then
      if e.kind ≠ .system then .trap .privilege e.who.pc 0
      else if i ≥ 0x809 then .trap .illegalOperand e.who.pc 0
      else .done (advance e true s)
    else match writeSpecial s e.core e.launch.ctx i (srcVal s e f.a) with
      | .ok s1 => .done (advance e true s1)
      | .bad => .trap .illegalOperand e.who.pc 0
      | .busy => .wait

/-! ## The accesses as steps of their own -/

/-- Whether a core is held by a launch, so that its registers are those of a context (R322). -/
def isHeld (s : State) (c : CoreId) : Bool := (holderOf s c).isSome

/-- CHTAB_WRITE (R304). -/
def execChtabWrite (c : CoreId) (n : Fin 64) (v : DWord) (s : State) : Out :=
  .next (if isHeld s c then (writeChan s c n v).getD s else s)

/-- CHTAB_UPDATE (R304): the rewrite takes effect 4 cycles after the MTS. -/
def execChtabUpdate (c : CoreId) (n : Fin 64) (s : State) : Out :=
  .next (match (at' (coreAt s c).chtab n).next with
    | some (v, t) => if t ≤ s.now then modCore s c fun k => { k with chtab := put k.chtab n ⟨v, none⟩ } else s
    | none => s)

/-- FLAGS_CLEAR (R110, R5). -/
def execFlagsClear (c : CoreId) (v : DWord) (s : State) : Out := .next (if isHeld s c then writeFlags s c v else s)

/-- AMAX_WRITE (R112). -/
def execAmaxWrite (c : CoreId) (v : DWord) (s : State) : Out := .next (if isHeld s c then writeAmax s c v else s)

/-- CNT_WRITE (R325). -/
def execCntWrite (c : CoreId) (v : DWord) (s : State) : Out := .next (if isHeld s c then writeCnt s c v else s)

/-- SKSIZE_WRITE (R196): 0 SKCELLS, 1 SKGROW, 2 SKRND of the context that holds the core; a value out of range raises
ILLEGAL_OPERAND and changes nothing. -/
def execSksizeWrite (c : CoreId) (r : Fin 3) (v : DWord) (s : State) : Out :=
  .next (match holderOf s c with
    | some l => match writeSk s l.ctx r.val v with
      | some s' => s'
      | none => match taskOf s c with
        | some t => raise .illegalOperand (taskWho c l t 0) t.pc 0 s
        | none => s
    | none => s)

/-- IDXDROP_READ (R145): the read clears it in one step. -/
def execIdxdropRead (c : CoreId) (b : BankId) (d : Fin 32) (s : State) : Out :=
  .next (modCore s c fun k => clearDrops s.now (modBank k b (writeX · d k.blk.idxdrop)))

/-- PSTAT_READ (R72): RECN is cleared in the same step. -/
def execPstatRead (c : CoreId) (p : ParserId) (b : BankId) (d : Fin 32) (s : State) : Out :=
  .next (modCore s c fun k =>
    modParser (modBank k b (writeX · d (pstatOf (at' k.parsers p)))) p (clearRecn s.now))

/-- SKSTAT_READ (R197): CONF is cleared in the same step. -/
def execSkstatRead (c : CoreId) (b : BankId) (d : Fin 32) (s : State) : Out :=
  .next (modCore s c fun k => clearConf s.now (modBank k b (writeX · d k.blk.skstat)))

/-- REGISTER_WRITE (R5, R6, R321): any special register, of the context that holds the core. -/
def execRegisterWrite (c : CoreId) (i : BitVec 12) (v : DWord) (s : State) : Out :=
  .next (match holderOf s c with
    | some l => match writeSpecial s c l.ctx i.toNat v with
      | .ok s' => s'
      | _ => s
    | none => s)

end Sys2Proof.Machine
end

