-- ==== Sys2Proof/Machine/Task.lean ====
section
/-! DEFINITION. The task and control instructions, opcodes 0x50 to 0x63 but for MFS and MTS (R308 to R327), and the
steps of the task unit and the barrier unit (R301 to R307, R313, R317). -/

namespace Sys2Proof.Machine
open Sys2Proof

/-! ## Branches (R308 to R310) -/

/-- A task's pc set. -/
def setPc (s : State) (e : Env) (pc : DWord) : State :=
  modCore s e.core fun k => { k with task := k.task.map fun t => { t with pc := pc } }

/-- The target of a branch: offsets count words (R308). -/
def branchTarget (e : Env) (off : Word) : DWord := e.who.pc + 8 * off.signExtend 64

/-- BR (R308). -/
def execBr (f : BrForm) (s : State) : Out := runWord (.br f) s fun e => .done (setPc s e (branchTarget e f.off))

/-- BRC (R308). -/
def execBrc (f : BrForm) (s : State) : Out :=
  runWord (.brc f) s fun e =>
    if condHolds f.cc.toNat (srcVal s e f.a) (srcVal s e f.b) then .done (setPc s e (branchTarget e f.off))
    else .done (advance e true s)

/-- CALL (R308): with x0 it branches without a link. -/
def execCall (f : BrForm) (s : State) : Out :=
  runWord (.call f) s fun e => .done (setPc (writeDst s e f.a false (e.who.pc + 8) .raw) e (branchTarget e f.off))

/-- RET (R309). -/
def execRet (f : RegForm) (s : State) : Out :=
  runWord (.ret f) s fun e =>
    let v := srcVal s e f.a
    if v.toNat % 8 ≠ 0 then .trap .align v 0 else .done (setPc s e v)

/-- JTAB (R310): the entry's fetch is a load of the task, which waits for it. -/
def execJtab (f : RegForm) (s : State) : Out :=
  runWord (.jtab f) s fun e =>
    let i := srcVal s e f.a
    let n := srcVal s e f.c
    if n.toNat ≤ i.toNat then .done (setPc s e (e.who.pc + 8 * f.x.signExtend 64))
    else
      let t := srcVal s e f.b
      if t.toNat % 4 ≠ 0 then .trap .align t 0
      else match e.agent with
        | .bank b => resolve s e (.va (t + 4 * i).toNat) 4 .read anyHome fun va loc =>
            .done (issue s { baseAccess s e .load va loc 4 with word := none, dest := .jtab b })
        | _ => .wait

/-! ## Ending and posting (R311, R312) -/

/-- The task of a core ends with its chain not done: the core that founded the chain hears no more of it from here (R86). -/
def dropChain (s : State) (c : CoreId) : State :=
  match (taskOf s c).bind (·.chain) with
  | some h => if (coreAt s h.core).doneChains.contains h.n then s else active s h.core
  | none => s

/-- TEND (R311). -/
def execTend (f : RegForm) (s : State) : Out := runWord (.tend f) s fun e => .done (endTask (dropChain s e.core) e.core)

/-- The done token of a chain's founding action word, once for each chain (R307). -/
def sendChainDone (s : State) (h : Chain) : State :=
  if (coreAt s h.core).doneChains.contains h.n then s
  else active (wordDone (modCore s h.core fun k => { k with doneChains := k.doneChains ++ [h.n] }) h.core h.parser h.act) h.core

/-- Whether the agent's accesses so far qualify at a scope (R127). -/
def released (s : State) (e : Env) (scope : Nat) : Bool := allQualify s e.launch.id e.core e.agent s.nextId scope

/-- DONE (R311): a release at core scope, the chain's done token, and the end of the task. -/
def execDone (f : RegForm) (s : State) : Out :=
  runWord (.done f) s fun e =>
    if !released s e 1 then .wait
    else
      let s1 := match (taskOf s e.core).bind (·.chain) with
        | some h => sendChainDone s h
        | none => s
      .done (endTask s1 e.core)

/-- The words of a message: a run of registers from C (R312). -/
def messageWords (s : State) (e : Env) (o : Operand) (n : Nat) : List DWord :=
  (List.range n).map fun j => match o with
    | .x r => srcVal s e (.x (Fin.ofNat 32 (r.val + j)))
    | .a r => srcVal s e (.a (Fin.ofNat 16 (r.val + j)))
    | _ => 0

/-- The work ID and the chain of a message: the task's, or, of an action word, the work ID that a15 received as its action
fired and a new chain (R61, R312). `n` numbers the chain. -/
def messageOrigin (s : State) (e : Env) (n : Nat) : DWord × Option Chain :=
  match e.agent with
  | .parser p =>
    let wid := ((at' (coreAt s e.core).parsers p).run.map (·.wid)).getD 0
    (wid, (currentAct s e).map fun a => ⟨p, e.core, a, n⟩)
  | _ => match taskOf s e.core with
    | some t => (t.wid, t.chain)
    | none => (0, none)

/-- A message placed in the sender's outgoing queue of 16 (R303); `none` when it is full. Its release covers the
accesses that the sender has issued (R306). -/
def sendMessage (s : State) (e : Env) (kind : BitVec 3) (target : CoreId) (chan : BitVec 6) (words : List DWord) :
    Option State :=
  if (coreAt s e.core).outq.length ≥ 16 then none
  else
    let o := messageOrigin s e s.nextId
    let m : Msg := ⟨kind, chan, chan, words, o.1, e.core, o.2⟩
    some (modCore { s with nextId := s.nextId + 1 } e.core fun k =>
      { k with outq := k.outq ++ [⟨m, target, e.agent, e.launch.id, s.nextId⟩] })

/-- TPOST (R312). -/
def execTpost (f : RegForm) (s : State) : Out :=
  runWord (.tpost f) s fun e =>
    let ch := srcVal s e f.b
    if ch.toNat > 63 then .trap .illegalOperand e.who.pc 0
    else match sendMessage s e 0 e.core (ch.setWidth 6) (messageWords s e f.c f.x.toNat) with
      | some s1 => .done (advance e false s1)
      | none => .wait

/-- MSEND (R312). -/
def execMsend (f : RegForm) (s : State) : Out :=
  runWord (.msend f) s fun e =>
    let ch := srcVal s e f.b
    let t := srcVal s e f.a
    if ch.toNat > 63 ∨ t.toNat > 255 then .trap .illegalOperand e.who.pc 0
    else
      let target : CoreId := Fin.ofNat 256 t.toNat
      if !e.launch.cores.contains target then .trap .protection e.who.pc 0
      else match sendMessage s e 1 target (ch.setWidth 6) (messageWords s e f.c f.x.toNat) with
        | some s1 => .done (advance e false s1)
        | none => .wait

/-! ## Split-phase instructions (R313 to R316) -/

/-- A barrier of a core; one not used yet is zero. -/
def barrierAt (k : Core) (b : Fin 1024) : Barrier :=
  ((k.barriers.find? (·.1 == b)).map (·.2)).getD ⟨0, ⟨0, 0, 0⟩, ⟨0, 0, 0⟩⟩
/-- A barrier of a core set. -/
def setBarrier (k : Core) (b : Fin 1024) (x : Barrier) : Core :=
  { k with barriers := (k.barriers.filter (·.1 != b)) ++ [(b, x)] }

/-- Whether phase `ph` has released on a barrier (R319). -/
def hasReleased (x : Barrier) (ph : Word) : Bool :=
  let d := (x.phase - ph).toNat
  decide (1 ≤ d) && decide (d ≤ 2 ^ 31)

/-- A message accepted into a core's store (R303, R325). -/
def acceptMsg (s : State) (c : CoreId) (m : Msg) : State :=
  countEvent (modCore s c fun k => { k with store := k.store ++ [m] }) c 1

/-- The words of a continuation whose condition holds. -/
def contWords (k : Core) (x : Cont) : Option (List DWord) :=
  let b := at' k.banks x.bank
  match x.awaits with
  | .counts ld st cp tl gx =>
    if b.ld ≤ ld.toNat ∧ b.st ≤ st.toNat ∧ b.cp ≤ cp.toNat ∧ b.tl ≤ tl.toNat ∧ b.gx ≤ gx.toNat then some [] else none
  | .barrier n ph => if hasReleased (barrierAt k n) ph then some [(barrierAt k n).phase.setWidth 64] else none
  | .seq c v =>
    let cmp := at' k.blk.seqCmp c
    if (cmp - v).toNat < 2 ^ 31 then some [cmp.setWidth 64, (at' k.blk.seqIss c).setWidth 64] else none
  | .answer => none
  | .ready ws => some ws

/-- A continuation whose condition holds becomes a CONT message (R313); that of a WAIT clears the pending bits of the registers
that have arrived (R314). -/
def postCont (s : State) (c : CoreId) (x : Cont) (ws : List DWord) : State :=
  let s1 := modCore s c fun k => { k with conts := k.conts.filter (·.n != x.n) }
  let s2 := match x.awaits with
    | .counts _ _ _ _ _ => modCore s1 c fun k => modBank k x.bank fun b =>
        { b with pend := b.pend &&& ~~~ b.come, come := 0 }
    | _ => s1
  active (countEvent (acceptMsg s2 c ⟨2, x.chan, x.chan, ws, x.wid, c, x.chain⟩) c 7) c

/-- A continuation is posted if its condition holds. -/
def postIfReady (s : State) (c : CoreId) (n : Nat) : State :=
  match (coreAt s c).conts.find? (·.n == n) with
  | none => s
  | some x => match contWords (coreAt s c) x with
    | none => s
    | some ws => postCont s c x ws

/-- A split-phase instruction with its condition: it reserves its continuation and ends the task; a condition that holds
already posts the continuation at once (R313). -/
def splitPhase (s : State) (e : Env) (chan : BitVec 6) (aw : Awaits) : Eff :=
  match reserveCont s e.core chan aw with
  | none => .wait
  | some (n, s1) => .done (postIfReady (endTask s1 e.core) e.core n)

/-- CHAN of X (R211). -/
def chanOf (x : BitVec 16) : BitVec 6 := x.extractLsb' 8 6

/-- WAIT (R314). -/
def execWait (f : WaitForm) (s : State) : Out :=
  runWord (.wait f) s fun e => splitPhase s e (f.chan.setWidth 6) (.counts f.ld f.st f.cp f.tl f.gx)

/-- SEQWT (R315). -/
def execSeqwt (f : RegForm) (s : State) : Out :=
  runWord (.seqwt f) s fun e =>
    let c := (srcVal s e f.a).toNat
    if c > 3 then .trap .illegalOperand e.who.pc 0
    else splitPhase s e (chanOf f.x) (.seq (Fin.ofNat 4 c) ((srcVal s e f.b).setWidth 32))

/-- A range queue of a die changed. -/
def modRq (d : Die) (q : Fin 64) (f : RangeQ → RangeQ) : Die :=
  { d with rqs := d.rqs.map fun e => if e.1 = q then (q, f e.2) else e }

/-- A completed range of a pipelined core goes to the next stage's queue, or waits for room there with the request that
completed it (R378). -/
def completeRange (s : State) (l : Launch) (c : CoreId) (own : Nat) : State :=
  let k := coreAt s c
  match k.inRange with
  | none => s
  | some (st, n) =>
    let s1 := modCore s c fun k => { k with inRange := none }
    if k.stage + 1 ≥ nStages l.recd then s1
    else
      let cap := field (l.recd[8 + (k.stage + 1)]?.getD 0) 25 10
      let q := (l.stageQs[k.stage]?).getD []
      if q.length < cap then modLaunch s1 l.id fun l => { l with stageQs := l.stageQs.set k.stage (q ++ [(st, n)]) }
      else modLaunch s1 l.id fun l => { l with roomWaits := l.roomWaits ++ [(c, k.stage, st, n, own)] }

/-- RANGE (R316, R378). -/
def execRange (f : RegForm) (s : State) : Out :=
  runWord (.range f) s fun e =>
    let q := (srcVal s e f.a).toNat
    if q > 63 then .trap .illegalOperand e.who.pc 0
    else
      let rq : Fin 64 := Fin.ofNat 64 q
      let owns := (dieAt s e.launch.rdie).rqs.any fun x => x.1 == rq && x.2.launch == e.launch.id
      if !owns then .trap .protection e.who.pc 0
      else if nStages e.launch.recd ≠ 0 ∧ !released s e 4 then .wait
      else match reserveCont s e.core (chanOf f.x) .answer with
        | none => .wait
        | some (n, s1) =>
          let s2 := endTask s1 e.core
          let s3 := if nStages e.launch.recd ≠ 0 then completeRange s2 e.launch e.core n else s2
          .done (modDie s3 e.launch.rdie fun d =>
            modRq d rq fun r => { r with asks := r.asks ++ [(s.now, e.core, some n)] })

/-- CNTRD (R325). -/
def execCntrd (f : RegForm) (s : State) : Out :=
  runWord (.cntrd f) s fun e =>
    let k := (srcVal s e f.a).toNat
    if k > 7 then .trap .illegalOperand e.who.pc 0
    else .done (advance e true (writeDst s e f.d false (at' (coreAt s e.core).blk.ctr (Fin.ofNat 8 k)) .raw))

/-- TRAP (R326). -/
def execTrap (f : ImmForm) (s : State) : Out := runWord (.trap f) s fun _ => .trap .trap 0 (f.imm.setWidth 64)

/-- NOP (R327). -/
def execNop (f : RegForm) (s : State) : Out := runWord (.nop f) s fun e => .done (advance e true s)

/-! ## Barriers (R317 to R320) -/

/-- Whether a core's part of a phase is complete. -/
def partDone (p : Phase) : Bool := p.e != 0 && p.cnt == p.e

/-- The cores that a barrier of a scope joins (R317). -/
def participants (l : Launch) (c : CoreId) (scope : Nat) : List CoreId :=
  l.cores.filter fun x => scopeInst scope x == scopeInst scope c

/-- The phase counts of a barrier at an absolute phase number, if they are held. -/
def phaseAt (x : Barrier) (ph : Word) : Option Phase :=
  if ph = x.phase then some x.cur else if ph = x.phase + 1 then some x.nxt else none

/-- Whether an arrival at a scope meets another core's arrival at the same phase with a different scope (R318). -/
def scopesClash (s : State) (l : Launch) (c : CoreId) (b : Fin 1024) (ph : Word) (scope : Nat) : Bool :=
  l.cores.any fun c' =>
    c' != c &&
    let x := barrierAt (coreAt s c') b
    ((participants l c scope).contains c' && !(coreAt s c').finished && hasReleased x ph) ||
    match phaseAt x ph with
    | some p => p.cnt != 0 && p.s != scope &&
        ((participants l c scope).contains c' || (participants l c' p.s).contains c)
    | none => false

/-- What an arrival comes to: the state and the phase joined, or BARRIER with the phase. -/
inductive Arrival where
  | joined (s : State) (ph : Word)
  | clash (ph : Word)
  deriving DecidableEq, Repr

/-- An arrival at barrier b (R318). -/
def arrive (s : State) (l : Launch) (c : CoreId) (b : Fin 1024) (e scope : Nat) : Arrival :=
  let x := barrierAt (coreAt s c) b
  let join (ph : Word) (p : Phase) (put' : Phase → Barrier) : Arrival :=
    if p.cnt ≠ 0 ∧ (p.e ≠ e ∨ p.s ≠ scope) then .clash ph
    else if scopesClash s l c b ph scope then .clash ph
    else .joined (modCore s c fun k => setBarrier k b (put' ⟨p.cnt + 1, e, scope⟩)) ph
  if !partDone x.cur then join x.phase x.cur fun p => { x with cur := p }
  else if !partDone x.nxt then join (x.phase + 1) x.nxt fun p => { x with nxt := p }
  else .clash (x.phase + 2)

/-- A BARRIER fault names the barrier unit (R389, R391). -/
def barrierFault (s : State) (e : Env) (b : Fin 1024) (ph : Word) : State :=
  raise .barrier { e.who with unit := 0x0A, elem := b.val } (BitVec.ofNat 64 b.val) (ph.setWidth 64) s

/-- Whether a barrier number, an expected count and a scope are in range (R318). -/
def barrierArgsOk (b e scope : Nat) : Bool :=
  decide (1 ≤ b) && decide (b ≤ 1023) && decide (1 ≤ e) && decide (e ≤ 65535) && decide (1 ≤ scope) && decide (scope ≤ 4)

/-- BARA (R318). -/
def execBara (f : RegForm) (s : State) : Out :=
  runWord (.bara f) s fun e =>
    let b := (srcVal s e f.a).toNat
    let n := (srcVal s e f.b).toNat
    let scope := (srcVal s e f.c).toNat
    if !barrierArgsOk b n scope then .trap .illegalOperand e.who.pc 0
    else if !released s e scope then .wait
    else
      let bn : Fin 1024 := Fin.ofNat 1024 b
      match arrive s e.launch e.core bn n scope with
      | .clash ph => .done (barrierFault s e bn ph)
      | .joined s1 ph =>
        let s2 := writeDst s1 e f.d false (ph.setWidth 64) .raw
        let s3 := match e.agent, currentAct s e with
          | .parser p, some a => modCore s2 e.core fun k => { k with arrivals := k.arrivals ++ [(p, a, bn, ph)] }
          | _, _ => s2
        .done (advance e false s3)

/-- BARW (R319). -/
def execBarw (f : RegForm) (s : State) : Out :=
  runWord (.barw f) s fun e =>
    let b := (srcVal s e f.a).toNat
    if b = 0 ∨ b > 1023 then .trap .illegalOperand e.who.pc 0
    else splitPhase s e (chanOf f.x) (.barrier (Fin.ofNat 1024 b) ((srcVal s e f.b).setWidth 32))

/-- GBAR (R320): an arrival at package scope and the wait for its phase in one step. -/
def execGbar (f : RegForm) (s : State) : Out :=
  runWord (.gbar f) s fun e =>
    let b := (srcVal s e f.a).toNat
    let n := (srcVal s e f.b).toNat
    if !barrierArgsOk b n 4 then .trap .illegalOperand e.who.pc 0
    else if !released s e 4 then .wait
    else
      let bn : Fin 1024 := Fin.ofNat 1024 b
      match arrive s e.launch e.core bn n 4 with
      | .clash ph => .done (barrierFault s e bn ph)
      | .joined s1 ph => splitPhase s1 e (chanOf f.x) (.barrier bn ph)

/-- The release of a phase on one core: the next phase's counts become the current ones, and the BARA words of
actions that joined it are done (R317, R63). -/
def releaseOn (s : State) (b : Fin 1024) (c : CoreId) : State :=
  let x := barrierAt (coreAt s c) b
  let joined (a : ParserId × Nat × Fin 1024 × Word) : Bool := a.2.2.1 == b && a.2.2.2 == x.phase
  let mine := (coreAt s c).arrivals.filter joined
  let s1 := modCore s c fun k =>
    { setBarrier k b ⟨x.phase + 1, x.nxt, ⟨0, 0, 0⟩⟩ with
      arrivals := k.arrivals.filter (!joined ·) }
  mine.foldl (fun s a => active (wordDone s c a.1 a.2.1) c) s1

/-- BARRIER_RELEASE (R317): the current phase of a barrier releases on every participating core once each one's part
is complete; a core with no further team to run counts as complete at scope 2 or above. -/
def execBarrierRelease (c : CoreId) (b : Fin 1024) (s : State) : Out :=
  .next (match holderOf s c with
    | none => s
    | some l =>
      let x := barrierAt (coreAt s c) b
      if !maySteps s l || !partDone x.cur then s
      else
        let ps := participants l c x.cur.s
        let ready := ps.all fun c' =>
          let y := barrierAt (coreAt s c') b
          (y.phase == x.phase && partDone y.cur && y.cur.s == x.cur.s) ||
            ((coreAt s c').finished && decide (2 ≤ x.cur.s))
        if ready then progress (ps.foldl (releaseOn · b) s) l.id else s)

/-! ## Messages (R303 to R306) -/

/-- Whether two messages leave by one unit for one core, in the order of issue (R306). -/
def sameLane (a b : OutMsg) : Bool :=
  a.target == b.target && (match a.agent, b.agent with
    | .bank _, .bank _ => true
    | .parser _, .parser _ => true
    | _, _ => false)

/-- The smallest scope that holds two cores (R306). -/
def scopeOfPair (a b : CoreId) : Nat :=
  if a = b then 1 else if scopeInst 2 a = scopeInst 2 b then 2 else if scopeInst 3 a = scopeInst 3 b then 3 else 4

/-- A message in the outgoing queue that may be accepted now: the first of its lane, room at the target, its release
performed, and, to another core, in a slot of its partition (R303, R306, R434). -/
def deliverable (s : State) (src : CoreId) : List OutMsg → List OutMsg → List OutMsg
  | _, [] => []
  | before, m :: ms =>
    let ok := !before.any (sameLane m) && decide (storeUsed (coreAt s m.target) < 256) &&
      (coreAt s m.target).holder == some m.launch && (m.target == src || (launchBy s m.launch).all fun l => slotOpen s (dieOf src) l.ctx) &&
      allQualify s m.launch src m.agent m.stamp (scopeOfPair src m.target)
    (if ok then [m] else []) ++ deliverable s src (before ++ [m]) ms

/-- MESSAGE_ACCEPT (R303, R306): a target's store accepts a message of a core's outgoing queue. -/
def execMessageAccept (src : CoreId) (s : State) : Out :=
  .next (if !coreSteps s src then s
    else match pickFree s (deliverable s src [] (coreAt s src).outq) with
      | some m => active (active (acceptMsg (modCore s src fun k => { k with outq := k.outq.erase m }) m.target m.msg) m.target) src
      | none => s)

/-- The team work ID that a CTRL post takes; a core between teams gives 0 (R303). -/
def ctrlWid (s : State) (c : CoreId) : DWord :=
  match holderOf s c with
  | some l => if (coreAt s c).inTeam then teamWid l.recd (coreAt s c).team else 0
  | none => 0

/-- CTRL_POST (R80, R303): a control token at sub-port 2 of an AG edge router posts a message with no words on that
AG's channel; a round marker posts nothing. -/
def execCtrlPost (c : CoreId) (k : AgId) (s : State) : Out :=
  .next (match cqueueAt (coreAt s c) (.post k) with
    | .bit _ :: _ =>
      if coreSteps s c && decide (storeUsed (coreAt s c) < 256) then
        let ch : BitVec 6 := BitVec.ofNat 6 k.val
        active (acceptMsg (modCore s c fun x => popCtl x (.post k)) c ⟨3, ch, ch, [], ctrlWid s c, c, none⟩) c
      else s
    | .marker :: _ => if coreSteps s c then modCore s c fun x => popCtl x (.post k) else s
    | [] => s)

/-! ## Continuations (R313 to R315, R319) -/

/-- CONTINUATION_POST (R313): a continuation whose condition has come to hold is posted. -/
def execContinuationPost (c : CoreId) (n : Nat) (s : State) : Out :=
  .next (if coreSteps s c then postIfReady s c n else s)

/-! ## Starting a task (R301, R302, R305) -/

/-- How the entry of a message's channel stands at selection (R305). -/
inductive Ready where
  | busy
  | go (entry : DWord) (redirected : Bool)
  | noHandler
  deriving DecidableEq, Repr

/-- A message's channel at selection: busy, valid, redirected to channel 0, or without a handler. -/
def readiness (k : Core) (m : Msg) : Ready :=
  let h := at' k.chtab (Fin.ofNat 64 m.chan.toNat)
  let h0 := at' k.chtab 0
  if h.next.isSome then .busy
  else if bitOf h.val 63 then .go h.val false
  else if m.chan = 0 then .noHandler
  else if h0.next.isSome then .busy
  else if bitOf h0.val 63 then .go h0.val true
  else .noHandler

/-- MSTAT of a task that a message starts (R324). -/
def mstatOf (m : Msg) (redirected : Bool) : DWord :=
  BitVec.ofNat 64 ((if redirected then 4 else m.kind.toNat) * 2 ^ 61 + m.och.toNat * 2 ^ 55 + m.words.length * 2 ^ 52 +
    (if m.chain.isSome then 2 ^ 51 else 0) + m.src.val)

/-- The ready message that is selected: the most urgent priority, the earliest among equals (R301). -/
def selectMsg (k : Core) : Option (Msg × DWord × Bool) :=
  k.store.foldl (fun (best : Option (Msg × DWord × Bool)) m =>
    match readiness k m with
    | .go h r => match best with
      | none => some (m, h, r)
      | some (_, h', _) => if field h 61 59 < field h' 61 59 then some (m, h, r) else best
    | _ => best) none

/-- x1 to x4 receive a message's words; a pending one stops being pending (R302). -/
def loadWords (b : RegBank) (ws : List DWord) : RegBank :=
  { b with
    x := Vector.ofFn fun (i : Fin 32) =>
      if 1 ≤ i.val ∧ i.val ≤ 4 then (ws[i.val - 1]?).getD 0 else at' b.x i
    pend := b.pend &&& ~~~ 0x1E#32
    come := b.come &&& ~~~ 0x1E#32
    sysq := b.sysq.map fun e => if 1 ≤ e.2.1.val ∧ e.2.1.val ≤ 4 then (e.1, 0, e.2.2) else e }

/-- The x register that a command's result goes to (R332). -/
def resultX (g : Eng) : Option (Fin 32) :=
  match g.i with
  | .skpeel f | .skfix f => match f.d with | .x r => some r | _ => none
  | .gmask f | .gfeed f | .gstat f => match f.d with | .x r => some r | _ => none
  | _ => none

/-- Loads to x1 to x4 of a bank, and commands with a result there, go on and deliver nothing (R302). -/
def discardLoads (s : State) (c : CoreId) (b : BankId) : State :=
  { s with
    engs := s.engs.map fun g =>
      match resultX g with
      | some r => if g.who.core == c && g.agent == .bank b && decide (1 ≤ r.val) && decide (r.val ≤ 4) then
          { g with mute := true } else g
      | none => g
    accs := s.accs.map fun a =>
      match a.dest with
      | .xreg b' r _ _ =>
        if a.who.core == c && b' == b && decide (1 ≤ r.val) && decide (r.val ≤ 4) then { a with dest := .none } else a
      | _ => a }

/-- TASK_START (R301, R302, R305): with no task running, the most urgent ready message starts its task. A message that
reaches an invalid channel 0 ends the launch. -/
def execTaskStart (c : CoreId) (s : State) : Out :=
  .next (match holderOf s c with
    | none => s
    | some l =>
      let k := coreAt s c
      if (l.phase ≠ .running ∧ endsNow s l = false) ∨ k.task.isSome then s
      else match k.store.find? fun m => readiness k m == .noHandler with
        | some m =>
          raise .handler ⟨l.id, c, 1, 0, m.wid, 0, 0⟩ (m.och.setWidth 64) (mstatOf m (m.chan != 0)) s
        | none => match selectMsg k with
          | none => s
          | some (m, h, redirected) =>
            let bank : BankId := Fin.ofNat 4 (field h 58 57)
            let t : Task := ⟨bank, BitVec.ofNat 64 (field h 51 0), m.wid, mstatOf m redirected, m.chain⟩
            let s1 := modCore (discardLoads s c bank) c fun k =>
              { modBank k bank (loadWords · m.words) with store := k.store.erase m, task := some t }
            let s2 := countEvent s1 c 0
            moved (if redirected then countEvent s2 c 2 else s2) c)

end Sys2Proof.Machine
end

