-- ==== Sys2Proof/Machine/Command.lean ====
section
/-! DEFINITION. What every engine command shares (R329 to R334): queues, counts, claims, how an instruction word hands a
command to its engine, how the engine accepts it and how its completion is reported; and the engine and parser
instructions themselves, opcodes 0x68 to 0x8A, whose meaning in the agent that runs them is that handing over. -/

namespace Sys2Proof.Machine
open Sys2Proof

/-! ## Classes of commands (R314, R315, R330) -/

/-- The queue that a command enters. -/
def engQueue : Instr → Option EngQ
  | .sspec f | .sarm f => some (.ag (Fin.ofNat 16 f.k.toNat))
  | .copy f | .copyc f | .tld f | .tst f | .tclr f | .mldb f | .spld f => some (.chain (Fin.ofNat 4 f.k.toNat))
  | .mma _ | .mnorm _ => some .matrix
  | .gload _ | .gbind _ | .gfree _ | .gqry _ => some .graph
  | .skbld _ | .skxch _ | .sksub _ | .skpeel _ | .skrecon _ | .skfix _ => some .chisel
  | .gstart f | .gstop f | .gmask f | .gfeed f | .gstat f => some (.parser (Fin.ofNat 4 f.p.toNat))
  | _ => none

/-- The depth of a queue (R330). -/
def queueDepth : EngQ → Nat
  | .ag _ => 4
  | .chain _ => 16
  | .matrix => 16
  | .graph => 8
  | .chisel => 64
  | .parser _ => 4

/-- The WAIT categories of commands (R314). -/
inductive WaitCat where
  | cp | tl | gx | none
  deriving DecidableEq, Repr

/-- The category that counts a command. -/
def waitCat : Instr → WaitCat
  | .copy _ | .copyc _ | .sspec _ | .sarm _ => .cp
  | .tld _ | .tst _ | .tclr _ | .mldb _ | .spld _ | .mma _ | .mnorm _ => .tl
  | .gload _ | .gbind _ | .gfree _ | .skbld _ | .skxch _ | .sksub _ | .skpeel _ | .skrecon _ | .skfix _ |
    .gstart _ | .gstop _ | .gmask _ | .gfeed _ | .gstat _ => .gx
  | _ => .none

/-- The SEQ class of a command (R315). -/
def seqClass : Instr → Option (Fin 4)
  | .copy _ | .copyc _ | .sspec _ | .sarm _ => some 0
  | .tld _ | .tst _ | .tclr _ | .mldb _ | .spld _ | .mma _ | .mnorm _ => some 1
  | .gload _ | .gbind _ | .gfree _ | .gstart _ | .gstop _ | .gmask _ | .gfeed _ | .gstat _ => some 2
  | .skbld _ | .skxch _ | .sksub _ | .skpeel _ | .skrecon _ | .skfix _ => some 3
  | _ => none

/-- A bank's count of a category. -/
def catCount (b : RegBank) : WaitCat → Nat
  | .cp => b.cp
  | .tl => b.tl
  | .gx => b.gx
  | .none => 0

/-- A bank's count of a category changed. -/
def modCat (b : RegBank) (k : WaitCat) (f : Nat → Nat) : RegBank :=
  match k with
  | .cp => { b with cp := f b.cp }
  | .tl => { b with tl := f b.tl }
  | .gx => { b with gx := f b.gx }
  | .none => b

/-- The ordering fields of a command: ACQ, REL, SCOPE. -/
def engOrder (i : Instr) : Bool × Bool × Nat :=
  match engShape i with
  | some (_, _, f) => (f.acq, f.rel, f.scope.toNat)
  | none => (false, false, 0)

/-- The operand that receives a result at completion (R332). -/
def resultOperand : Instr → Option Operand
  | .skpeel f | .skfix f => some f.d
  | .gmask f | .gfeed f | .gstat f => some f.d
  | _ => none

/-- A command changed. -/
def modEng (s : State) (id : Nat) (f : Eng → Eng) : State :=
  { s with engs := s.engs.map fun g => if g.id = id then f g else g }

/-- A command by its number. -/
def engBy (s : State) (id : Nat) : Option Eng := s.engs.find? (·.id == id)

/-! ## Handing a command over (R329, R332, R333) -/

/-- The command of an instruction word, with the values of its sources. -/
def newEng (s : State) (e : Env) (i : Instr) (q : EngQ) (d a b c : Operand) : Eng where
  id := s.nextId
  order := 0
  who := onEngine e.who (engUnit i)
  agent := e.agent
  ctx := e.launch.ctx
  q := q
  i := i
  d := srcVal s e d
  a := srcVal s e a
  b := srcVal s e b
  c := srcVal s e c
  desc := []
  stamp := s.nextId
  stage := .offered
  follow := none
  leader := none
  flags := 0
  result := 0
  act := currentAct s e
  seqNo := 0
  mute := false

/-- A command offered to its engine. The issuer goes on to its next word, where it is held until the engine accepts;
an action parks at a word with a result. An issue that finds its category at capacity waits. -/
def issueCommand (s : State) (e : Env) (i : Instr) (d a b c : Operand) : Eff :=
  match engQueue i with
  | none => .wait
  | some q =>
    let s1 := { s with nextId := s.nextId + 1, engs := s.engs ++ [newEng s e i q d a b c] }
    match e.agent with
    | .bank k =>
      if catCount (at' (coreAt s e.core).banks k) (waitCat i) ≥ 64 then .wait
      else
        let r : Fin 32 := match resultOperand i with | some (.x r) => r | _ => 0
        .done (advance e false (modCore s1 e.core fun x => modBank x k fun y =>
          setPending (modCat y (waitCat i) (· + 1)) r))
    | .parser z =>
      if (resultOperand i).isSome then
        .done (modCore s1 e.core fun k => modParser k z fun y =>
          { y with run := y.run.map fun g => { g with parked := true } })
      else .done (advance e false s1)
    | _ => .wait

/-- An F-ENG word. -/
def engWord (i : Instr) (f : EngForm) (s : State) : Out := runWord i s fun e => issueCommand s e i f.d f.a f.b f.c

/-- A parser command. -/
def grmWord (i : Instr) (f : GrmForm) (s : State) : Out := runWord i s fun e => issueCommand s e i f.d f.a (.x 0) (.x 0)

/-- SSPEC (R336). -/
def execSspec (f : EngForm) (s : State) : Out := engWord (.sspec f) f s
/-- SARM (R336). -/
def execSarm (f : EngForm) (s : State) : Out := engWord (.sarm f) f s
/-- COPY (R337). -/
def execCopy (f : EngForm) (s : State) : Out := engWord (.copy f) f s
/-- COPYC (R338). -/
def execCopyc (f : EngForm) (s : State) : Out := engWord (.copyc f) f s
/-- TLD (R339). -/
def execTld (f : EngForm) (s : State) : Out := engWord (.tld f) f s
/-- TST (R339). -/
def execTst (f : EngForm) (s : State) : Out := engWord (.tst f) f s
/-- TCLR (R339). -/
def execTclr (f : EngForm) (s : State) : Out := engWord (.tclr f) f s
/-- MLDB (R339). -/
def execMldb (f : EngForm) (s : State) : Out := engWord (.mldb f) f s
/-- SPLD (R340). -/
def execSpld (f : EngForm) (s : State) : Out := engWord (.spld f) f s
/-- MMA (R341, R342). -/
def execMma (f : EngForm) (s : State) : Out := engWord (.mma f) f s
/-- MNORM (R343, R344). -/
def execMnorm (f : EngForm) (s : State) : Out := engWord (.mnorm f) f s
/-- GLOAD (R345). -/
def execGload (f : EngForm) (s : State) : Out := engWord (.gload f) f s
/-- GBIND (R345). -/
def execGbind (f : EngForm) (s : State) : Out := engWord (.gbind f) f s
/-- GFREE (R345). -/
def execGfree (f : EngForm) (s : State) : Out := engWord (.gfree f) f s
/-- GQRY (R345). -/
def execGqry (f : EngForm) (s : State) : Out := engWord (.gqry f) f s
/-- SKBLD (R346). -/
def execSkbld (f : EngForm) (s : State) : Out := engWord (.skbld f) f s
/-- SKXCH (R346). -/
def execSkxch (f : EngForm) (s : State) : Out := engWord (.skxch f) f s
/-- SKSUB (R346). -/
def execSksub (f : EngForm) (s : State) : Out := engWord (.sksub f) f s
/-- SKPEEL (R346). -/
def execSkpeel (f : EngForm) (s : State) : Out := engWord (.skpeel f) f s
/-- SKRECON (R346). -/
def execSkrecon (f : EngForm) (s : State) : Out := engWord (.skrecon f) f s
/-- SKFIX (R346). -/
def execSkfix (f : EngForm) (s : State) : Out := engWord (.skfix f) f s
/-- GSTART (R351). -/
def execGstart (f : GrmForm) (s : State) : Out := grmWord (.gstart f) f s
/-- GSTOP (R352). -/
def execGstop (f : GrmForm) (s : State) : Out := grmWord (.gstop f) f s
/-- GMASK (R353). -/
def execGmask (f : GrmForm) (s : State) : Out := grmWord (.gmask f) f s
/-- GFEED (R353). -/
def execGfeed (f : GrmForm) (s : State) : Out := grmWord (.gfeed f) f s
/-- GSTAT (R353). -/
def execGstat (f : GrmForm) (s : State) : Out := grmWord (.gstat f) f s

/-- GSKIP (R348): the words that it skips are done with it. -/
def execGskip (f : SkipForm) (s : State) : Out :=
  runWord (.gskip f) s fun e =>
    match e.agent with
    | .parser p =>
      let skip := condHolds f.cc.toNat (srcVal s e f.a) (srcVal s e f.b)
      let n := if skip then 1 + f.n.toNat else 1
      .done (modCore s e.core fun k => modParser k p fun z =>
        match z.run with
        | some r => actAdvance (actDone z r.id n) n
        | none => z)
    | _ => .wait

/-! ## What an engine reads and writes -/

/-- What an engine's translation comes to. -/
inductive EngAddr where
  | ok (loc : Nat) (r : Rights)
  | bad (code : FaultCode) (extra : DWord)
  | miss
  deriving DecidableEq, Repr

/-- The translation of an engine's access, or of a system word's: a TLB's entry; else, once a walker has walked its page for the
asker, what the tables say (R386). -/
def engAddr (s : State) (asker : WalkFor) (c : CoreId) (ctx va : Nat) : EngAddr :=
  match translate s c ctx va with
  | .hit loc r => .ok loc r
  | .trap code => .bad code 0
  | .miss =>
    if s.walked.contains (asker, ctx, va / 65536) then
      match walk s ctx va with
      | .leaf t => .ok (t.pa + va % 2 ^ t.bits) t.rights
      | .bad e level => .bad .translation (walkExtra e level)
      | .spoilt loc => .bad .uncorrectable (BitVec.ofNat 64 loc)
    else .miss

/-- Why an engine does not go on: a fault, a page that no walk has resolved for it yet, or a path or a bank that serves it
later. -/
inductive EngHold where
  | fault | miss | busy
  deriving DecidableEq, Repr

/-- What stops an engine: a fault with its code and the two fields of R391, or something that it waits for; of a miss, the
address. -/
structure EngFault where
  code : FaultCode
  addr : DWord
  extra : DWord
  hold : EngHold
  deriving DecidableEq, Repr

/-- A contiguous piece of a virtual range: its address, its location, its length, its page's rights. -/
structure Piece where
  va : Nat
  loc : Nat
  len : Nat
  r : Rights
  deriving DecidableEq, Repr

/-- The pieces of a virtual range, cut at 64 KiB; `ok` accepts a piece's address, rights and location. -/
def spanFrom (s : State) (asker : WalkFor) (c : CoreId) (ctx : Nat) (ok : Nat → Rights → Nat → Bool) :
    Nat → Nat → Nat → List Piece ⊕ EngFault
  | 0, _, _ => .inl []
  | fuel + 1, va, n =>
    if n = 0 then .inl []
    else
      let here := min n (65536 - va % 65536)
      match engAddr s asker c ctx va with
      | .miss => .inr ⟨.translation, BitVec.ofNat 64 va, 0, .miss⟩
      | .bad code extra => .inr ⟨code, BitVec.ofNat 64 va, extra, .fault⟩
      | .ok loc r =>
        if !ok va r loc then .inr ⟨.protection, BitVec.ofNat 64 va, 0, .fault⟩
        else match spanFrom s asker c ctx ok fuel (va + here) (n - here) with
          | .inl xs => .inl (⟨va, loc, here, r⟩ :: xs)
          | .inr f => .inr f

/-- The locations of a range that an engine accesses, each page with the rights that the access wants (R385). -/
def engSpan (s : State) (g : Eng) (want : Want) (va n : Nat) : List Piece ⊕ EngFault :=
  spanFrom s (.engine g.id) g.who.core g.ctx (fun _ r loc => allowed s want loc r) (n / 65536 + 2) va n

/-- A plain access of an agent that is no bank, no node and no parser. -/
def plainAccess (who : Who) (agent : Agent) (ctx : Nat) (kind : AccKind) (va loc : Nat) (bs : List Byte) : Access where
  id := 0
  who := who
  agent := agent
  ctx := ctx
  kind := kind
  va := BitVec.ofNat 64 va
  loc := loc
  size := bs.length
  data := bs
  a := 0
  b := 0
  aop := 0
  u := false
  acq := false
  rel := false
  scope := 0
  stage := 0
  entered := 0
  waiting := false
  again := false
  woken := false
  word := none
  act := none
  port := none
  got := none
  exc := none
  cls := none
  dest := .none

/-- The class that a Chisel command names (R346). -/
def classOf : Instr → Option (Fin 16)
  | .skbld f | .skxch f | .skrecon f | .skfix f => some (Fin.ofNat 16 f.k.toNat)
  | _ => none

/-- An access of a command, for forwarding and for its writes. -/
def engAccess (g : Eng) (kind : AccKind) (va loc : Nat) (bs : List Byte) : Access :=
  { plainAccess g.who (.engine g.id) g.ctx kind va loc bs with cls := classOf g.i }

/-- A command's own youngest store that covers a location and has not performed. -/
def ownStore (s : State) (g : Eng) (loc : Nat) : Option Access :=
  s.accs.reverse.find? fun a => a.kind == .store && a.agent == .engine g.id && a.loc ≤ loc && loc < a.loc + a.size

/-- The store that a load of a command takes a location from: its own (R338: a list of copies is performed in its order), or
that of R124. -/
def storeSeen (s : State) (g : Eng) (loc : Nat) : Option Access :=
  (ownStore s g loc).or (storeFor s (engAccess g .load 0 loc []) loc)

/-- The bytes at a location as a load of the command's core takes them. -/
def engBytes (s : State) (g : Eng) (loc n : Nat) : List Byte :=
  (List.range n).map fun i => match storeSeen s g (loc + i) with
    | some a => (a.data[loc + i - a.loc]?).getD 0
    | none => memGet s.mem (loc + i)

/-- Whether a bank of a range owes its next turn to a request that a change has woken (R135). -/
def rangeOwes (s : State) (loc n : Nat) : Bool :=
  s.accs.any fun b => b.waiting && b.woken && touchesBank (bankOf b.loc) loc n

/-- What keeps an engine from reading the pieces of a range, whatever the slot: a guard in the way (R433), a bank that owes a
turn, or a word with bad check bits (R437). -/
def piecesBad (s : State) (ctx : Nat) (xs : List Piece) : Option EngFault :=
  match xs.find? fun x => guardStands s ctx x.loc with
  | some x => some ⟨.boundary, BitVec.ofNat 64 x.va, 0, .fault⟩
  | none =>
    if xs.any fun x => rangeOwes s x.loc x.len then some ⟨.protection, 0, 0, .busy⟩
    else xs.findSome? fun x => (firstBad s x.loc x.len).map fun w =>
      ⟨.uncorrectable, BitVec.ofNat 64 (x.va + (w - x.loc)), physAddr s w, .fault⟩

/-- Whether the dies that serve a core's request for a set of pieces are closed to the context in this cycle (R434). -/
def slotShut (s : State) (c : CoreId) (ctx : Nat) (xs : List Piece) : Bool :=
  !diesOpen s ctx (xs.filterMap fun x => pathDie (some c) x.loc)

/-- What keeps an engine from reading the pieces of a range. -/
def piecesHeld (s : State) (c : CoreId) (ctx : Nat) (xs : List Piece) : Option EngFault :=
  if slotShut s c ctx xs then some ⟨.protection, 0, 0, .busy⟩ else piecesBad s ctx xs

/-- Bytes read by an engine, all at once (log entry 21). -/
def engRead (s : State) (g : Eng) (va n : Nat) : List Byte ⊕ EngFault :=
  match engSpan s g .read va n with
  | .inr f => .inr f
  | .inl xs =>
    match piecesHeld s g.who.core g.ctx xs with
    | some f => .inr f
    | none => .inl (xs.flatMap fun x => engBytes s g x.loc x.len)

/-- What stopped an engine: its fault ends the launch, with a boundary drop counted (R433); a miss joins the walks of its die
(R386); else nothing changes. -/
def engRaise (s : State) (g : Eng) (f : EngFault) : State :=
  match f.hold with
  | .fault =>
    raiseRead f.code g.who f.addr f.extra g.ctx (if f.code = .boundary then countBoundary s g.who.core else s)
  | .miss => addMiss s (.engine g.id) g.who g.ctx f.addr.toNat
  | .busy => s

/-- Bytes cut into bursts that end at multiples of 64 (R330). -/
def bursts : Nat → Nat → List Byte → List (Nat × List Byte)
  | 0, _, _ => []
  | fuel + 1, va, bs =>
    if bs.isEmpty then []
    else
      let n := 64 - va % 64
      (va, bs.take n) :: bursts fuel (va + n) (bs.drop n)

/-- Bytes written by an engine: store accesses in bursts (R330, R124). The span has been found writable before. -/
def engWrite (s : State) (g : Eng) (va : Nat) (bs : List Byte) : State :=
  (bursts (bs.length + 1) va bs).foldl (fun s x =>
    match engAddr s (.engine g.id) g.who.core g.ctx x.1 with
    | .ok loc _ => issue s (engAccess g .store x.1 loc x.2)
    | _ => s) s

/-- Dwords of a byte string. -/
def dwordsOf (bs : List Byte) : List DWord :=
  (List.range (bs.length / 8)).map fun i => dwordLE ((bs.drop (8 * i)).take 8)

/-- The dword at an index, 0 past the end. -/
def dw (ds : List DWord) (i : Nat) : DWord := (ds[i]?).getD 0

/-- What starting a command comes to. -/
inductive Start where
  | go (s : State)
  | wait
  | trap (f : EngFault)
  deriving DecidableEq, Repr

/-- A check of R333 that fails on a value: ILLEGAL_OPERAND, or another code, at an address. -/
def badStart (code : FaultCode) (addr : Nat) : Start := .trap ⟨code, BitVec.ofNat 64 addr, 0, .fault⟩

/-- A command whose own work is done. -/
def landed (s : State) (id : Nat) : State := modEng s id fun g => { g with stage := .landed }
/-- A command whose own work is done, with its result and flags. -/
def landedWith (s : State) (id : Nat) (r : DWord) (f : FlagBits) : State :=
  modEng s id fun g => { g with stage := .landed, result := r, flags := g.flags ||| f }
/-- A command under way. -/
def startedOn (s : State) (id : Nat) : State := modEng s id fun g => { g with stage := .started }

/-! ## Claims (R331) -/

/-- The claims that a command makes in the order of its descriptor: region and whether it writes. -/
def addClaims (s : State) (c : CoreId) (id : Nat) (rs : List (Region × Bool)) : State :=
  modCore s c fun k => { k with claims := k.claims ++ rs.map fun r => ⟨id, r.1, r.2⟩ }

/-- The claims of a command end. -/
def endClaims (s : State) (c : CoreId) (id : Nat) : State :=
  modCore s c fun k => { k with claims := k.claims.filter (·.cmd != id) }

/-- The claims of a command as a reader end. -/
def endReads (s : State) (c : CoreId) (id : Nat) : State :=
  modCore s c fun k => { k with claims := k.claims.filter fun x => !(x.cmd == id && !x.writer) }

/-- Whether two regions meet. -/
def regionsMeet (x y : Region) : Bool := x == y || x == .every || y == .every

/-- Whether every claim of a command may start, in the order of claims. -/
def claimsOk (id : Nat) : List Claim → List Claim → Bool
  | _, [] => true
  | before, x :: xs =>
    (x.cmd != id || !before.any fun y => y.cmd != id && regionsMeet y.region x.region && (x.writer || y.writer)) &&
    claimsOk id (before ++ [x]) xs

/-- The claim on every region that a command made before it could name its own gives way, in its place, to those (R331, log
entry 75). -/
def narrowClaims (s : State) (c : CoreId) (id : Nat) (rs : List (Region × Bool)) : State :=
  modCore s c fun k => { k with claims := k.claims.flatMap fun x =>
    if x.cmd = id ∧ x.region = .every then rs.map fun r => ⟨id, r.1, r.2⟩ else [x] }

/-- Whether a command holds such a claim. -/
def claimsAll (k : Core) (id : Nat) : Bool := k.claims.any fun x => x.cmd == id && x.region == .every

/-- The 16 KiB blocks of the weight store that a byte range touches. -/
def blocksOf (off n : Nat) : List Region :=
  if n = 0 then [] else (List.range ((off + n - 1) / 16384 - off / 16384 + 1)).map fun i => .weight (off / 16384 + i)

/-! ## Completion (R129, R332) -/

/-- Whether the writes of a command let it report completion (R129); TST waits until they have performed (R339). -/
def writesDone (s : State) (g : Eng) : Bool :=
  let mine := s.accs.filter fun a => a.agent == .engine g.id
  let o := engOrder g.i
  match g.i with
  | .tst _ => mine.isEmpty
  | _ => if o.2.1 && o.2.2 != 0 then mine.all (qualifies o.2.2) else mine.all (·.stage != 0)

/-- Whether the accesses that its issuer made before a command let it read (R129). -/
def acquired (s : State) (g : Eng) : Bool :=
  let o := engOrder g.i
  !(o.1 && o.2.2 != 0) || allQualify s g.who.launch g.who.core g.agent g.stamp o.2.2

/-- A class's CMP moved on over the commands that have completed in a row (R315). -/
def bumpCmp : Nat → Word → List Nat → Word × List Nat
  | 0, c, xs => (c, xs)
  | fuel + 1, c, xs =>
    let next := (c + 1).toNat
    if xs.contains next then bumpCmp fuel (c + 1) (xs.erase next) else (c, xs)

/-- A completed command counted in its SEQ class. -/
def seqDone (s : State) (c : CoreId) (cls : Fin 4) (n : Nat) : State :=
  modCore s c fun k =>
    let late := at' k.seqLate cls ++ [n]
    let r := bumpCmp late.length (at' k.blk.seqCmp cls) late
    { k with
      blk := { k.blk with seqCmp := put k.blk.seqCmp cls r.1 }
      seqLate := put k.seqLate cls r.2 }

/-- A command issued in its SEQ class: its number there (R315). -/
def seqIssue (s : State) (c : CoreId) (i : Instr) : Nat × State :=
  match seqClass i with
  | none => (0, s)
  | some cls =>
    let n := at' (coreAt s c).blk.seqIss cls + 1
    (n.toNat, modCore s c fun k => { k with blk := { k.blk with seqIss := put k.blk.seqIss cls n } })

/-- A result that reaches its register (R332). In an action the word goes on. -/
def deliverResult (s : State) (g : Eng) : State :=
  let c := g.who.core
  match g.i, g.agent with
  | .gqry f, .bank b => match f.d with
    | .x r => modCore s c fun k => modBank k b (writeX · r g.result)
    | _ => s
  | .gqry f, .parser p => match f.d with
    | .a r => modCore s c fun k => modParser k p fun z => { z with a := put z.a r g.result }
    | _ => s
  | i, .bank b => match resultOperand i with
    | some (.x r) => if g.mute then s else modCore s c fun k => modBank k b (arriveX · r g.result)
    | _ => s
  | i, .parser p => match resultOperand i with
    | some (.a r) => modCore s c fun k => modParser k p fun z =>
        let z' := { z with a := put z.a r g.result }
        match z'.run with
        | some q => if q.parked && some q.id == g.act then actAdvance z' 1 else z'
        | none => z'
    | _ => s
  | _, _ => s

/-- The completion of a command (R332, R325): flags, result, counts, the action's word, and the end of its claims. -/
def completeCommand (s : State) (g : Eng) : State :=
  let c := g.who.core
  let s0 := { s with
    engs := s.engs.filter (·.id != g.id)
    walked := s.walked.filter (·.1 != .engine g.id) }
  let s1 := endClaims (deliverResult (mergeFlags s0 c g.flags) g) c g.id
  let s2 := match g.agent with
    | .bank b => if g.leader.isSome then s1 else modCore s1 c fun k => modBank k b (modCat · (waitCat g.i) (· - 1))
    | _ => s1
  let s3 := match seqClass g.i with | some cls => seqDone s2 c cls g.seqNo | none => s2
  let s4 := match g.agent, g.act with
    | .parser p, some a => if g.leader.isSome then s3 else wordDone s3 c p a
    | _, _ => s3
  moved (countEvent s4 c 6) c

end Sys2Proof.Machine
end

