-- ==== Sys2Proof/Machine/Stream.lean ====
section
/-! DEFINITION. Address generators: descriptors (R28, R29), walks, work IDs and marks (R13, R30 to R33, R355), SSPEC and
SARM when they start (R336), AG_EMIT and AG_WALK_END. -/

namespace Sys2Proof.Machine
open Sys2Proof

/-! ## Descriptors (R28, R29) -/

/-- BASE; SARM may put any value in its place (R336). -/
def sdBase (d : Vector DWord 8) : Nat := d[0].toNat
/-- The element size in bytes. -/
def sdSize (d : Vector DWord 8) : Nat := 2 ^ field d[1] 60 59
/-- FMT. -/
def sdFmt (d : Vector DWord 8) : Fmt := (fmtOf (BitVec.ofNat 4 (field d[1] 58 55))).getD .raw
/-- U. -/
def sdU (d : Vector DWord 8) : Bool := bitOf d[1] 54
/-- TAG. -/
def sdTag (d : Vector DWord 8) : BitVec 4 := BitVec.ofNat 4 (field d[1] 53 50)
/-- LVLS. -/
def sdLvls (d : Vector DWord 8) : Nat := field d[1] 49 47
/-- RQ. -/
def sdRq (d : Vector DWord 8) : Fin 64 := Fin.ofNat 64 (field d[1] 45 40)
/-- Whether level k has extent 0. -/
def sdEmpty (d : Vector DWord 8) (k : Nat) : Bool := bitOf d[1] (33 + k)
/-- The dword of level k. -/
def sdLevel (d : Vector DWord 8) (k : Nat) : DWord := (d[k + 1]?).getD 0
/-- STRIDE of level k. -/
def sdStride (d : Vector DWord 8) (k : Nat) : Int := signedOf 32 (field (sdLevel d k) 63 32)
/-- The extent of level k, where it is not 0. -/
def sdExtent (d : Vector DWord 8) (k : Nat) : Nat := field (sdLevel d k) 31 0 + 1

/-- The nest levels of a descriptor. -/
def sdLevels (d : Vector DWord 8) : List Nat := (List.range (sdLvls d)).map (· + 1)

/-- Whether an extent exceeds its level's width (R13, R29). -/
def nestTooBig (r : Vector DWord 16) (d : Vector DWord 8) : Bool :=
  (sdLevels d).any fun k => !sdEmpty d k && decide (2 ^ widthField r k < sdExtent d k)

/-- The checks of R29, R32 and R378 on a descriptor at an address. No image holds a nest, so a nest too large for its levels is
found here alone, and ALIGN looks at the STRIDEs of levels 1 to LVLS (log entry 78). -/
def descFault (r : Vector DWord 16) (d : Vector DWord 8) (addr : Nat) : Option EngFault :=
  let bad (code : FaultCode) (a : Nat) : Option EngFault := some ⟨code, BitVec.ofNat 64 a, 0, .fault⟩
  if field d[0] 63 52 != 0 || field d[1] 33 0 != 0 || sdMode d > 2 || field d[1] 60 59 == 3 || field d[1] 58 55 > 10 then
    bad .illegalOperand addr
  else if sdLvls d = 0 || sdLvls d > levels r then bad .illegalOperand addr
  else if nestTooBig r d then bad .illegalOperand addr
  else if (!sdRng d && sdLvls d > teamLevel r) || (sdRng d && nStages r != 0) then bad .illegalOperand addr
  else if sdBase d % sdSize d != 0 || (sdLevels d).any (fun k => sdStride d k % (sdSize d : Int) != 0) then bad .align addr
  else none

/-! ## Positions (R30, R32, R355) -/

/-- The levels that a walk's own indices run through: LVLS, or T for a ranged walk. -/
def walkDepth (r : Vector DWord 16) (d : Vector DWord 8) : Nat := if sdRng d then teamLevel r else sdLvls d

/-- The last index of level k of a walk. -/
def lastIndex (r : Vector DWord 16) (d : Vector DWord 8) (k : Nat) : Nat :=
  if k ≤ sdLvls d then (if sdEmpty d k then 0 else sdExtent d k - 1) else 2 ^ widthField r k - 1

/-- The highest level of extent 0 among a walk's own; below it no index runs. -/
def emptyTop (r : Vector DWord 16) (d : Vector DWord 8) : Nat :=
  ((List.range (walkDepth r d)).map (· + 1)).foldl (fun m k => if k ≤ sdLvls d && sdEmpty d k then k else m) 0

/-- Index k of a position, from 1. -/
def idxAt (idx : List Nat) (k : Nat) : Nat := (idx[k - 1]?).getD 0

/-- The indices after a position, and whether the nest has run out: those of levels up to `e` stay 0. -/
def nextIdx (r : Vector DWord 16) (d : Vector DWord 8) (e : Nat) : Nat → List Nat → List Nat × Bool
  | _, [] => ([], true)
  | k, i :: is =>
    if k > e ∧ i < lastIndex r d k then ((i + 1) :: is, false)
    else let q := nextIdx r d e (k + 1) is; (0 :: q.1, q.2)

/-- The ranges that a team has drawn from a queue, and whether the queue is exhausted (R33). -/
def drawnOf (k : Core) (q : Fin 64) : List (Nat × Nat) × Bool := ((k.drawn.find? (·.1 == q)).map (·.2)).getD ([], false)

/-- The range that a ranged walk is in. -/
def rangeInHand (k : Core) (g : Ag) : Option (Nat × Nat) := (drawnOf k (sdRq g.desc)).1[g.rix]?

/-- The work ID of a walk's position (R32, R355). -/
def posWid (l : Launch) (k : Core) (g : Ag) (w : AgWalk) : Nat :=
  let own := ((List.range (walkDepth l.recd g.desc)).map fun i => idxAt w.idx (i + 1) * 2 ^ fieldBase l.recd (i + 1)).sum
  if sdRng g.desc then
    match rangeInHand k g with
    | some (st, _) => own + (st + w.grp) * 2 ^ fieldBase l.recd (teamLevel l.recd + 1)
    | none => own
  else own + g.base * 2 ^ fieldBase l.recd (sdLvls g.desc + 1) + (teamWid l.recd k.team).toNat

/-- Field k of a work ID. -/
def widField (r : Vector DWord 16) (wid k : Nat) : Nat := wid / 2 ^ fieldBase r k % 2 ^ widthField r k

/-- How many of the fields from k upward are full, one after another. -/
def fullRun (r : Vector DWord 16) (wid : Nat) : Nat → Nat → Nat
  | 0, _ => 0
  | fuel + 1, k => if widField r wid k = 2 ^ widthField r k - 1 then 1 + fullRun r wid fuel (k + 1) else 0

/-- The highest level whose group a position ends; 0 when it ends none (R13, R32, R355). -/
def posMark (r : Vector DWord 16) (d : Vector DWord 8) (wid : Nat) (idx : List Nat) : Nat :=
  let depth := walkDepth r d
  let e := emptyTop r d
  let own := ((List.range depth).takeWhile fun i => i + 1 ≤ e || idxAt idx (i + 1) == lastIndex r d (i + 1)).length
  if own < depth then own else depth + fullRun r wid (levels r - depth) (depth + 1)

/-- Whether a position is a group without elements. -/
def posVoid (r : Vector DWord 16) (d : Vector DWord 8) : Bool := emptyTop r d != 0

/-- The element's offset from BASE: the index of a ranged walk's level is field k of the work ID (R355). -/
def posOffset (r : Vector DWord 16) (d : Vector DWord 8) (wid : Nat) (idx : List Nat) : Int :=
  ((sdLevels d).map fun k =>
    (((if sdRng d then widField r wid k else idxAt idx k) : Nat) : Int) * sdStride d k).sum

/-- The address of a position, as a 64-bit sum. -/
def posAddr (r : Vector DWord 16) (d : Vector DWord 8) (wid : Nat) (idx : List Nat) : Nat :=
  ((((sdBase d : Int) + posOffset r d wid idx) % (2 ^ 64 : Int))).toNat

/-- A fresh walk of an armed generator. -/
def freshWalk (r : Vector DWord 16) (g : Ag) (cmd : Nat) : AgWalk :=
  ⟨cmd, List.replicate (walkDepth r g.desc) 0, false, 0, 0, []⟩

/-- A walk past one position: on in its nest, and of a ranged walk into the next group or range. -/
def stepWalk (r : Vector DWord 16) (k : Core) (g : Ag) (w : AgWalk) (idx : List Nat) : Ag :=
  let q := nextIdx r g.desc (emptyTop r g.desc) 1 idx
  if !q.2 then { g with walk := some { w with idx := q.1, next := w.next + 1 } }
  else if sdRng g.desc then
    match rangeInHand k g with
    | some (_, n) =>
      if w.grp + 1 < n then { g with walk := some { w with idx := q.1, grp := w.grp + 1, next := w.next + 1 } }
      else { g with rix := g.rix + 1, walk := some { w with idx := q.1, grp := 0, next := w.next + 1 } }
    | none => g
  else { g with walk := some { w with idx := q.1, fin := true, next := w.next + 1 } }

/-! ## Ranges (R33) -/

/-- Whether a team asks for its next range: it has walked into the last group of the last range drawn, or has none. -/
def wantsRange (k : Core) (g : Ag) (w : AgWalk) : Bool :=
  let d := drawnOf k (sdRq g.desc)
  !d.2 && match rangeInHand k g with
    | none => true
    | some (_, n) => g.rix + 1 == d.1.length && w.grp + 1 ≥ n

/-- The cores of the team that runs on a core: its gang (R14). -/
def teamCores (l : Launch) (c : CoreId) : List CoreId :=
  let n := gangSize l.recd
  match l.cores.findIdx? (· == c) with
  | some i => (l.cores.drop (i / n * n)).take n
  | none => [c]

/-- The request of a team for its next range joins the queue's, once for the team. -/
def askRange (s : State) (l : Launch) (c : CoreId) (q : Fin 64) : State :=
  modDie s l.rdie fun d => modRq d q fun r =>
    if r.asks.any fun a => a.2.2.isNone && (teamCores l c).contains a.2.1 then r
    else { r with asks := r.asks ++ [(s.now, c, none)] }

/-! ## Starting (R336) -/

/-- Whether a parser may govern a new stream: it governs none, and nothing of an earlier one is left. -/
def tapFree (z : Parser) : Bool := z.ag.isNone && z.fresh.isEmpty && z.items.isEmpty && z.rel.isEmpty

/-- Whether a core's parsers decode bytes: they govern no stream and no tap feeds them, so a stream with GOV = 1 enters the
fabric as one with GOV = 0 does (R44, log entry 78). -/
def byteMode (k : Core) : Bool := match k.grammar with | some g => g.byte | none => false

/-- A walk starts on an armed generator; `none` while its parser still governs an earlier stream. -/
def startWalk (s : State) (l : Launch) (c : CoreId) (k : AgId) (id : Nat) : Option State :=
  let g := at' (coreAt s c).ags k
  match g.gov with
  | some p =>
    if tapFree (at' (coreAt s c).parsers p) then
      some (startedOn (modCore s c fun x =>
        modParser (modAg x k fun g => { g with walk := some (freshWalk l.recd g id), drop := false }) p fun z =>
          { z with ag := some k, eos := false, outEdge := k, outVc := g.vc }) id)
    else none
  | none => some (startedOn (modCore s c fun x => modAg x k fun g => { g with walk := some (freshWalk l.recd g id) }) id)

/-- A queue that does not belong to the launch raises PROTECTION (R316). -/
def rqFault (s : State) (l : Launch) (d : Vector DWord 8) (addr : Nat) : Option EngFault :=
  if sdRng d && !(dieAt s l.rdie).rqs.any fun x => x.1 == sdRq d && x.2.launch == l.id then
    some ⟨.protection, BitVec.ofNat 64 addr, 0, .fault⟩
  else none

/-- SSPEC starts: it reads and checks its descriptor, arms its generator and starts the walk. -/
def startSspec (f : EngForm) (s : State) (l : Launch) (g : Eng) : Start :=
  let c := g.who.core
  let k : AgId := Fin.ofNat 16 f.k.toNat
  let addr := g.a.toNat
  let gov : Bool := f.cfl.getLsbD 2
  let p : ParserId := Fin.ofNat 4 (f.cfl.extractLsb' 0 2).toNat
  match engRead s g addr 64 with
  | .inr e => .trap e
  | .inl bs =>
    let d : Vector DWord 8 := Vector.ofFn fun i => dw (dwordsOf bs) i.val
    if (f.cfl.extractLsb' 3 2).toNat = 3 ∨ (!gov ∧ p ≠ 0) then badStart .illegalOperand addr
    else match (descFault l.recd d addr).or (rqFault s l d addr) with
      | some e => .trap e
      | none =>
        if gov && sdMode d == 1 then badStart .illegalOperand addr
        else
          let s1 := modCore s c fun x => modAg x k fun y =>
            { y with
              armed := true
              desc := d
              base := 0
              vc := f.cfl.extractLsb' 3 2
              gov := if gov && !byteMode x then some p else none
              skip := none }
          match startWalk s1 l c k g.id with
          | some s2 => .go s2
          | none => .wait

/-- SARM starts: a new walk of the descriptor that the generator holds, at the next walk base (R32). -/
def startSarm (f : EngForm) (s : State) (l : Launch) (g : Eng) : Start :=
  let c := g.who.core
  let k : AgId := Fin.ofNat 16 f.k.toNat
  let a := at' (coreAt s c).ags k
  if !a.armed then badStart .illegalOperand 0
  else
    let d := if isZero f.a then a.desc
      else put a.desc 0 g.a
    let base := if !sdRng a.desc && sdLvls a.desc < teamLevel l.recd then a.base + 1 else a.base
    let room := ((List.range (teamLevel l.recd - sdLvls a.desc)).map fun i => widthField l.recd (sdLvls a.desc + i + 1)).sum
    if sdBase d % sdSize d ≠ 0 then badStart .align g.a.toNat
    else if base ≥ 2 ^ room ∧ sdLvls a.desc < teamLevel l.recd ∧ !sdRng a.desc then badStart .illegalOperand 0
    else match startWalk (modCore s c fun x => modAg x k fun y => { y with desc := d, base := base }) l c k g.id with
      | some s2 => .go s2
      | none => .wait

/-! ## Emitting and consuming (R30, R31) -/

/-- The record of a generator for a fault, at a position's work ID. -/
def agWho (s : State) (c : CoreId) (k : AgId) (wid : Nat) : Who := { unitWho s c 4 k.val with wid := BitVec.ofNat 64 wid }

/-- What an AG's address comes to; a miss may bring an entry into the AG's own TLB. -/
inductive AgAddr where
  | ok (loc : Nat) (r : Rights)
  | bad (code : FaultCode)
  | later (s : State)
  deriving DecidableEq, Repr

/-- A lookup in the generator's own TLB of 64 entries, then in its die's (R386). -/
def agTranslate (s : State) (c : CoreId) (k : AgId) (w : Who) (ctx va : Nat) : AgAddr :=
  match lookup (at' (coreAt s c).ags k).tlb c ctx va with
  | .hit loc r => .ok loc r
  | .trap code => .bad code
  | .miss => match tlbFind (dieTlb s c) ctx va with
    | some t => .later (modCore s c fun x => modAg x k fun g => { g with tlb := tlbFill s 64 g.tlb t })
    | none => .later (recordMiss s w ctx va)

/-- The tokens that a parser's gate and tap hold (R34). -/
def gateCount (z : Parser) : Nat := z.fresh.length + (z.items.map (·.toks.length)).sum + z.rel.length

/-- Whether a token of a generator can leave it: into its router, or into its parser's gate of 128 tokens. -/
def agCanSend (k : Core) (a : AgId) (g : Ag) : Bool :=
  match g.gov with
  | some p => g.drop || decide (gateCount (at' k.parsers p) < 128)
  | none => canWrite k (agRouter a) (Fin.ofNat 4 g.vc.toNat)

/-- A token leaves a generator: into its router as input L on its VC, or into its parser's tap. -/
def agSend (k : Core) (a : AgId) (g : Ag) (t : Token) (wid : DWord) : Core :=
  match g.gov with
  | some p => if g.drop then k else modParser k p fun z => { z with fresh := z.fresh ++ [⟨t, wid, none⟩] }
  | none => writeLocal k (agRouter a) (Fin.ofNat 4 g.vc.toNat) (.tok t)

/-- The level of the drain that a launch is in. -/
def drainLevel (l : Launch) : Option Nat :=
  match l.phase with
  | .draining k _ => some k
  | _ => none

/-- The oldest element that has come leaves; behind one that carries a mark of the drain's level or higher the generator
stops, to place its marker (R397). -/
def agSendHead (s : State) (l : Launch) (c : CoreId) (a : AgId) (g : Ag) (w : AgWalk) (x : AgSlot) : State :=
  let g1 := { g with walk := some { w with slots := w.slots.tail } }
  let stop := match drainLevel l with | some k => decide (k ≤ x.tok.mark.toNat) && x.tok.mark != 7 | none => false
  moved (modCore s c fun k => agSend (modAg k a fun _ => { g1 with stop := stop }) a g x.tok x.wid) c

/-- The element of the position in hand is asked for: of a READ walk by a load, of an INDEX walk at once; a void
position has no element. -/
def agIssue (s : State) (l : Launch) (c : CoreId) (a : AgId) (g : Ag) (w : AgWalk) : State :=
  let k := coreAt s c
  let wid := posWid l k g w
  let mark : BitVec 3 := BitVec.ofNat 3 (posMark l.recd g.desc wid w.idx)
  let place (s : State) (t : Token) (ready : Bool) : State := modCore s c fun x => modAg x a fun y =>
    stepWalk l.recd x y { w with slots := w.slots ++ [⟨w.next, t, BitVec.ofNat 64 wid, ready⟩] } w.idx
  let tok (v : Bool) (d : Word) : Token := ⟨mark, v, sdTag g.desc, d⟩
  if posVoid l.recd g.desc then place s (tok true 0) true
  else if sdMode g.desc = 2 then place s (tok false (BitVec.ofInt 32 (posOffset l.recd g.desc wid w.idx))) true
  else
    let va := posAddr l.recd g.desc wid w.idx
    let who := agWho s c a wid
    match agTranslate s c a who l.ctx va with
    | .later s1 => s1
    | .bad code => raise code who (BitVec.ofNat 64 va) 0 s
    | .ok loc r =>
      if !allowed s .read loc r then raise .protection who (BitVec.ofNat 64 va) 0 s
      else
        let acc : Access := { plainAccess who (.ag a) l.ctx .load va loc [] with
          size := sdSize g.desc, dest := .agSlot a w.next }
        active (place (issue s acc) (tok false 0) false) c

/-- The generator takes one token of its circuit for the position in hand (R27, R31). A token under poison, or with a
mark that the walk does not expect, ends the group of its level: the positions that remain of it are skipped. At a position
of extent 0 a token with a value is stored as at any other (log entry 78). -/
def agConsume (s : State) (l : Launch) (c : CoreId) (a : AgId) (g : Ag) (w : AgWalk) : State :=
  let k := coreAt s c
  let L := levels l.recd
  let wid := posWid l k g w
  let mark := posMark l.recd g.desc wid w.idx
  let key := QKey.edge a (Fin.ofNat 4 g.vc.toNat)
  let go (s : State) : State := moved (modCore s c fun x => popTok (modAg x a fun y => stepWalk l.recd x y w w.idx) key) c
  match queueAt k key with
  | .tok t :: _ =>
    if t.mark = 7 ∨ t.mark.toNat ≠ mark then
      let lv := if t.mark = 7 then poisonOf L t else max t.mark.toNat mark
      moved (modCore s c fun x => popTok (modAg x a fun y =>
        { y with skip := some (lv, wid / 2 ^ fieldBase l.recd (lv + 1)) }) key) c
    else if t.void then go s
    else
      let va := posAddr l.recd g.desc wid w.idx
      let who := agWho s c a wid
      match agTranslate s c a who l.ctx va with
      | .later s1 => s1
      | .bad code => raise code who (BitVec.ofNat 64 va) 0 s
      | .ok loc r =>
        if !allowed s .write loc r then raise .protection who (BitVec.ofNat 64 va) 0 s
        else
          let acc := plainAccess who (.ag a) l.ctx .store va loc (bytesLE (sdSize g.desc) t.data.toNat)
          go (issue s acc)
  | _ => s

/-- Positions of a group under poison are passed over: the rest of its nest at once, and the skip ends with the group
(R27). -/
def agSkip (s : State) (l : Launch) (c : CoreId) (a : AgId) (g : Ag) (w : AgWalk) (lv gid : Nat) : State :=
  let k := coreAt s c
  let wid := posWid l k g w
  if wid / 2 ^ fieldBase l.recd (lv + 1) ≠ gid then modCore s c fun x => modAg x a fun y => { y with skip := none }
  else
    let idx := (List.range w.idx.length).map fun i =>
      if i + 1 ≤ lv ∧ emptyTop l.recd g.desc < i + 1 then lastIndex l.recd g.desc (i + 1) else idxAt w.idx (i + 1)
    let endLv := posMark l.recd g.desc (posWid l k g { w with idx := idx }) idx
    active (modCore s c fun x => modAg x a fun y =>
      let y1 := stepWalk l.recd x y w idx
      if lv ≤ endLv then { y1 with skip := none } else y1) c

/-- AG_EMIT (R30, R31, R33): a walk emits its oldest element, or asks for its next one; a WRITE walk takes a token. -/
def execAgEmit (c : CoreId) (k : AgId) (s : State) : Out :=
  .next (match holderOf s c with
    | none => s
    | some l =>
      let x := coreAt s c
      let g := at' x.ags k
      match g.walk with
      | none => s
      | some w =>
        if !maySteps s l || g.stop || x.frozen.contains (.ag k) then s
        else
          let s1 := if sdRng g.desc && wantsRange x g w then askRange s l c (sdRq g.desc) else s
          let here := !w.fin && (!sdRng g.desc || (rangeInHand x g).isSome)
          if sdMode g.desc = 1 then
            if !here then s1
            else match g.skip with
              | some (lv, gid) => agSkip s1 l c k g w lv gid
              | none => agConsume s1 l c k g w
          else match w.slots with
            | y :: _ =>
              if y.ready && agCanSend x k g then agSendHead s1 l c k g w y
              else if here then agIssue s1 l c k g w
              else s1
            | [] => if here then agIssue s1 l c k g w else s1)

/-- Whether a generator's walk has ended (R336): every position has passed, nothing waits to leave, every store has
performed. -/
def walkOver (s : State) (c : CoreId) (k : AgId) (g : Ag) (w : AgWalk) : Bool :=
  let done := w.fin || (sdRng g.desc && (drawnOf (coreAt s c) (sdRq g.desc)).2 && (rangeInHand (coreAt s c) g).isNone)
  done && w.slots.isEmpty && !s.accs.any fun a => a.who.core == c && a.agent == .ag k

/-- AG_WALK_END (R33, R336): the done token goes out on sub-port 0, the tap presents EOS, and the command has landed. -/
def execAgWalkEnd (c : CoreId) (k : AgId) (s : State) : Out :=
  .next (
    let x := coreAt s c
    let g := at' x.ags k
    match g.walk with
    | none => s
    | some w =>
      if !coreSteps s c || !walkOver s c k g w || !canSend x (agRouter k) 0 then s
      else
        let s1 := modCore s c fun x =>
          let x1 := sendLocal (modAg x k fun g => { g with walk := none, drop := false }) (agRouter k) 0 (.bit true)
          match g.gov with
          | some p => modParser x1 p fun z => if g.drop then { z with ag := none, eos := false } else { z with eos := true }
          | none => x1
        active (landed s1 w.cmd) c)

end Sys2Proof.Machine
end

