-- ==== Sys2Proof/Machine/Ranges.lean ====
section
/-! DEFINITION. Quiet cores (R376), the messages that the device itself posts (R375), the range server (R377) and the
stages of a pipelined launch (R378, R379). -/

namespace Sys2Proof.Machine
open Sys2Proof

/-! ## Posting (R375) -/

/-- A POST on a core's own channel, with no chain and SRC the core itself. -/
def postOwn (s : State) (c : CoreId) (chan : BitVec 6) (words : List DWord) (wid : DWord) : State :=
  acceptMsg s c ⟨0, chan, chan, words, wid, c, none⟩

/-- START of a launch record. -/
def startChan (r : Vector DWord 16) : BitVec 6 := BitVec.ofNat 6 (field r[4] 59 54)
/-- A stage's entry of the stage table (R368). -/
def stageEntry (r : Vector DWord 16) (i : Nat) : DWord := (r[8 + i]?).getD 0
/-- SSTART of a stage. -/
def stageChan (r : Vector DWord 16) (i : Nat) : BitVec 6 := BitVec.ofNat 6 (field (stageEntry r i) 5 0)
/-- SMIN of a stage. -/
def stageMin (r : Vector DWord 16) (i : Nat) : Nat := field (stageEntry r i) 9 6
/-- QCAP of a stage. -/
def stageCap (r : Vector DWord 16) (i : Nat) : Nat := field (stageEntry r i) 25 10

/-- The stage-start message of a core's stage. -/
def postStage (s : State) (l : Launch) (c : CoreId) (stage : Nat) : State :=
  postOwn s c (stageChan l.recd stage) [BitVec.ofNat 64 stage] 0

/-! ## Quiet cores (R376) -/

/-- Whether a stream node, a filter or a firing holds nothing. -/
def shaperEmpty (x : Shaper) : Bool := x.held.isNone && x.fill.isEmpty && x.out.isEmpty && x.hit.isNone

/-- Whether no token stands in a core's fabric. -/
def fabricEmpty (k : Core) : Bool :=
  k.queues.isEmpty && k.cqueues.isEmpty &&
  k.nodes.all (fun n => n.firing.isNone && shaperEmpty n.shaper) &&
  k.routers.all (fun r => r.state.all fun x => shaperEmpty x.2) &&
  (k.mts.toList.all fun m => m.rob.toList.all (·.isEmpty)) &&
  k.rings.all (fun r => r.slots.all (·.isNone))

/-- Whether a parser is IDLE (R72). -/
def parserIdle (z : Parser) : Bool := (z.state == .idle || z.stopped) && z.run.isNone && z.rel.isEmpty && z.out.isEmpty

/-- Whether a message for a core is in transit. -/
def inTransit (s : State) (l : Launch) (c : CoreId) : Bool :=
  l.cores.any fun c' => (coreAt s c').outq.any (·.target == c)

/-- Whether a core is quiet, the continuation `own` apart. -/
def quietBut (s : State) (l : Launch) (c : CoreId) (own : Option Nat) : Bool :=
  let k := coreAt s c
  k.task.isNone && k.store.isEmpty && k.outq.isEmpty && k.conts.all (fun x => some x.n == own) && !inTransit s l c &&
  s.accs.all (fun a => !(a.who.launch == l.id && a.who.core == c)) &&
  s.engs.all (fun g => !(g.who.launch == l.id && g.who.core == c)) &&
  (k.ags.toList.all (·.walk.isNone)) && k.parsers.toList.all parserIdle && fabricEmpty k &&
  (k.graphs.toList.all fun g => match g.bind (·.bind) with
    | some b => b.group.isEmpty && b.full.isEmpty && b.fly.isEmpty
    | none => true)

/-- Whether a core is quiet. -/
def quiet (s : State) (l : Launch) (c : CoreId) : Bool := quietBut s l c none

/-! ## Stages (R378, R379) -/

/-- The ranges in the input queue of a stage. -/
def stageInput (s : State) (l : Launch) (i : Nat) : List (Nat × Nat) :=
  if i = 0 then (((dieAt s l.rdie).rqs.find? fun x => x.1 == rqField l.recd).map (·.2.ranges)).getD []
  else (l.stageQs[i - 1]?).getD []

/-- The first range of a stage's input queue is taken. -/
def popStage (s : State) (l : Launch) (i : Nat) : State :=
  if i = 0 then modDie s l.rdie fun d => modRq d (rqField l.recd) fun r => { r with ranges := r.ranges.tail }
  else modLaunch s l.id fun l => { l with stageQs := l.stageQs.set (i - 1) ((l.stageQs[i - 1]?).getD []).tail }

/-- Whether a stage is exhausted. -/
def exhausted (s : State) (l : Launch) (a : Nat) : Bool :=
  ((List.range (a + 1)).all fun i => (stageInput s l i).isEmpty) &&
  (l.cores.all fun c => decide (a ≤ (coreAt s c).stage) || (coreAt s c).inRange.isNone) &&
  l.roomWaits.all fun w => decide (a ≤ w.2.1)

/-- The stage with the most pending ranges, the lowest on a tie; none where no range is pending. -/
def fullest (s : State) (l : Launch) : Option Nat :=
  (List.range (nStages l.recd)).foldl (fun (m : Option Nat) i =>
    let n := (stageInput s l i).length
    if n = 0 then m
    else match m with
      | none => some i
      | some j => if (stageInput s l j).length < n then some i else m) none

/-- Whether the range that a core's request completed waits for room in the next stage. -/
def waitsForRoom (l : Launch) (c : CoreId) (own : Nat) : Bool := l.roomWaits.any fun w => w.1 == c && w.2.2.2.2 == own

/-- The stage to which the scheduler moves a core at its request, if it moves it (R379). -/
def moveTo (s : State) (l : Launch) (c : CoreId) (own : Nat) : Option Nat :=
  let a := (coreAt s c).stage
  let left := (l.cores.filter fun c' => c' != c && (coreAt s c').stage == a).length
  if !quietBut s l c (some own) || left < stageMin l.recd a then none
  else if waitsForRoom l c own then some (a + 1)
  else if (stageInput s l a).isEmpty then fullest s l
  else none

/-- A move: the continuation is withdrawn and a stage-start message is posted. -/
def moveCore (s : State) (l : Launch) (c : CoreId) (own b : Nat) : State :=
  postStage (modCore s c fun k => { k with conts := k.conts.filter (·.n != own), stage := b }) l c b

/-- A core of a persistent team has drawn a range: it runs that team, and TEAM reads the range's start (R303, R322); a team
that is not persistent keeps its own. -/
def drawTeam (l : Launch) (k : Core) (start : Nat) : Core :=
  if isPersist l.recd then { k with team := start, inTeam := true, finished := false } else k

/-- The answer of a RANGE: start and count. -/
def answerRange (s : State) (l : Launch) (c : CoreId) (n : Nat) (start count : Nat) : State :=
  modCore s c fun k => { (if count = 0 then k else drawTeam l k start) with
    conts := k.conts.map fun x =>
      if x.n = n then { x with awaits := .ready [BitVec.ofNat 64 start, BitVec.ofNat 64 count] } else x }

/-- What a request comes to at the server: the state it leaves, or a wait. -/
def serveStage (s : State) (l : Launch) (c : CoreId) (n : Nat) : Option State :=
  let a := (coreAt s c).stage
  match moveTo s l c n with
  | some b => some (moveCore s l c n b)
  | none =>
    if waitsForRoom l c n then none
    else match stageInput s l a with
      | (st, m) :: _ =>
        some (progress (modCore (answerRange (popStage s l a) l c n st m) c fun k => { k with inRange := some (st, m) }) l.id)
      | [] => if exhausted s l a && (fullest s l).isNone then some (answerRange s l c n 0 0) else none

/-! ## The range server (R377, R33, R316) -/

/-- A range handed to the generators of a team: every core of the gang walks it (R33). -/
def giveTeam (s : State) (l : Launch) (c : CoreId) (q : Fin 64) (r : Option (Nat × Nat)) : State :=
  (teamCores l c).foldl (fun s c' => modCore s c' fun k =>
    let d := drawnOf k q
    let d' := match r with
      | some x => (d.1 ++ [x], d.2)
      | none => (d.1, true)
    { (match r with | some x => drawTeam l k x.1 | none => k) with
      lastAct := s.now
      drawn := (k.drawn.filter (·.1 != q)) ++ [(q, d')] }) s

/-- A request that waits at a range queue: its cycle, its core, and its continuation where it has one. -/
abbrev Ask := Nat × CoreId × Option Nat

/-- A request placed behind those of earlier cycles, and of its own cycle behind those of lower cores (R377). -/
def insertAsk (a : Ask) : List Ask → List Ask
  | [] => [a]
  | b :: bs => if b.1 < a.1 || (b.1 == a.1 && b.2.1.val ≤ a.2.1.val) then b :: insertAsk a bs else a :: b :: bs

/-- The requests of a queue in the order in which the server takes them. -/
def asksInOrder (asks : List Ask) : List Ask := asks.foldl (fun xs a => insertAsk a xs) []

/-- The first request of a queue that can be served now is served; those of the running cycle wait until it is over, so that
their order is known. -/
def serveFirst (s : State) (l : Launch) (die : DieId) (q : Fin 64) (x : RangeQ) : List Ask → List Ask → State
  | _, [] => s
  | before, r :: rest =>
    let drop (s : State) : State := modDie s die fun d => modRq d q fun y => { y with asks := before ++ rest }
    if r.1 ≥ s.now then s
    else match r.2.2 with
    | none => match x.ranges with
      | y :: ys =>
        let s1 := modDie (drop s) die fun d => modRq d q fun z => { z with ranges := ys }
        progress (giveTeam s1 l r.2.1 q (some y)) l.id
      | [] => giveTeam (drop s) l r.2.1 q none
    | some n =>
      if nStages l.recd ≠ 0 then
        match serveStage s l r.2.1 n with
        | some s1 => drop s1
        | none => serveFirst s l die q x (before ++ [r]) rest
      else match x.ranges with
        | y :: ys =>
          let s1 := modDie (drop s) die fun d => modRq d q fun z => { z with ranges := ys }
          progress (answerRange s1 l r.2.1 n y.1 y.2) l.id
        | [] => answerRange (drop s) l r.2.1 n 0 0

/-- RANGE_SERVE (R377): the range server of a die hands the next range of a queue to a requester, in a slot of its
partition (R434). -/
def execRangeServe (die : DieId) (q : Fin 64) (s : State) : Out :=
  .next (match (dieAt s die).rqs.find? (·.1 == q) with
    | none => s
    | some x => match launchBy s x.2.launch with
      | none => s
      | some l => 
        if maySteps s l && slotOpen s die l.ctx then serveFirst s l die q x.2 [] (asksInOrder x.2.asks) else s)

/-- Whether the input queue of the stage behind a stage has room (R378). -/
def stageRoom (l : Launch) (i : Nat) : Bool := ((l.stageQs[i]?).getD []).length < stageCap l.recd (i + 1)

/-- STAGE_APPEND (R378, R379): a completed range of a core that waited for room enters the next stage's queue. -/
def execStageAppend (launch : Nat) (c : CoreId) (s : State) : Out :=
  .next (match launchBy s launch with
    | none => s
    | some l => match l.roomWaits.find? fun w => w.1 == c && stageRoom l w.2.1 with
      | none => s
      | some w =>
        if maySteps s l then
          modLaunch s l.id fun l => { l with
            stageQs := l.stageQs.modify w.2.1 (· ++ [(w.2.2.1, w.2.2.2.1)]), roomWaits := l.roomWaits.erase w }
        else s)

end Sys2Proof.Machine
end

