-- ==== Sys2Proof/Machine/Context.lean ====
section
/-! DEFINITION. What the device reads and writes for itself in a context: its memory through its tables, the statuses of its
queues (R366, R367), the fields of a launch record (R368 to R370, R375), code objects and manifests (R435), and the node
records of a fabric image (R92). -/

namespace Sys2Proof.Machine
open Sys2Proof

/-! ## Context memory through its tables -/

/-- The pieces of a range of a context as no core sees it: the core-local window names none (R420). -/
def ctxSpan (s : State) (ctx : Nat) (want : Want) : Nat → Nat → Nat → Option (List (Nat × Nat))
  | 0, _, n => if n = 0 then some [] else none
  | fuel + 1, va, n =>
    if n = 0 then some []
    else if va ≥ 2 ^ 52 || inWindow va then none
    else
      let here := min n (65536 - va % 65536)
      match walk s ctx va with
      | .leaf t =>
        let loc := t.pa + va % 2 ^ t.bits
        if !allowed s want loc t.rights then none
        else (ctxSpan s ctx want fuel (va + here) (n - here)).map fun xs => (loc, here) :: xs
      | _ => none

/-- The first word with bad check bits that the device meets as it reads a range of a context (R437): of the tables, or of
the range itself. -/
def ctxBad (s : State) (ctx : Nat) : Nat → Nat → Nat → Option Nat
  | 0, _, _ => none
  | fuel + 1, va, n =>
    if n = 0 || va ≥ 2 ^ 52 || inWindow va then none
    else
      let here := min n (65536 - va % 65536)
      match walk s ctx va with
      | .leaf t => (firstBad s (t.pa + va % 2 ^ t.bits) here).or (ctxBad s ctx fuel (va + here) (n - here))
      | .spoilt loc => some loc
      | .bad _ _ => none

/-- The same, of a range of a length. -/
def rangeBad (s : State) (ctx va n : Nat) : Option Nat := ctxBad s ctx (n / 65536 + 2) va n

/-- Bytes of a context read at their home; `none` where one does not translate or lacks RD. -/
def ctxRead (s : State) (ctx va n : Nat) : Option (List Byte) :=
  (ctxSpan s ctx .read (n / 65536 + 2) va n).map fun xs => xs.flatMap fun x => memGetN s.mem x.1 x.2

/-- Bytes written to pieces of memory, in order. -/
def writeSpan (s : State) : List (Nat × Nat) → List Byte → State
  | [], _ => s
  | x :: xs, bs => writeSpan (homeStore s x.1 (bs.take x.2)) xs (bs.drop x.2)

/-- Whether a write of the outside or of the device itself waits at its home for a class in session (R185). -/
def outsideHeld (s : State) (xs : List (Nat × Nat)) : Bool := xs.any fun x => sessionHolds s (fun _ _ => false) x.1 x.2

/-- Bytes of a context written at their home; `none` where one does not translate or lacks WR. -/
def ctxWrite (s : State) (ctx va : Nat) (bs : List Byte) : Option State :=
  (ctxSpan s ctx .write (bs.length / 65536 + 2) va bs.length).map fun xs => writeSpan s xs bs

/-! ## Statuses (R366, R367) -/

/-- A context's register block for a core (R394). -/
def blockOf (x : Ctx) (c : CoreId) : RegBlock := ((x.blocks.find? (·.1 == c)).map (·.2)).getD RegBlock.zero

/-- The code of a status. -/
def statusCode : Status → Nat
  | .complete => 1
  | .faulted => 2
  | .resource => 3
  | .imageInvalid => 4
  | .scopeChannel => 5
  | .loopLatency => 6
  | .signature => 7
  | .cancelled => 8
  | .partition => 9

/-- A status entry. -/
def statusBytes (seq : Nat) (st : Status) (grant : Nat) : List Byte :=
  bytesLE 8 seq ++ bytesLE 8 (grant * 256 + statusCode st)

/-- A record has its status: DONE and HEAD move past it. -/
def passRecord (s : State) (ctx : Nat) (q : Fin 16) (seq : Nat) (st : Status) : State :=
  modCtx s ctx fun x => modQueue x q fun y => { y with
    done := seq + 1, head := seq + 1, cand := none, candRanges := [], depOk := false
    cancels := y.cancels.filter (· != seq), given := y.given ++ [(seq, st)], heldStatus := none }

/-- The address of the status entry of a sequence number. -/
def statusVa (y : Queue) (seq : Nat) : Nat := y.sbase.toNat + 16 * (seq % 2 ^ y.lsize)

/-- Whether a status entry waits at its home for a class in session (R185). -/
def statusHeld (s : State) (ctx : Nat) (q : Fin 16) (seq : Nat) : Bool :=
  match ctxBy s ctx with
  | none => false
  | some x => match ctxSpan s ctx .write 2 (statusVa (at' x.queues q) seq) 16 with
    | some xs => outsideHeld s xs
    | none => false

/-- A status is written for a record, or held: with the queue halted and event 0x07 where the entry cannot be written (R366), and
until STATUS_HELD_WRITE where a class in session holds its place (R185). -/
def giveStatus (s : State) (ctx : Nat) (q : Fin 16) (seq : Nat) (st : Status) (grant : Nat) : State :=
  match ctxBy s ctx with
  | none => s
  | some x =>
    let y := at' x.queues q
    let va := statusVa y seq
    let hold (halt : Bool) : State := modCtx s ctx fun x => modQueue x q fun y => { y with
      halt := y.halt || halt, heldStatus := some (seq, st, grant), cand := none, candRanges := [] }
    if statusHeld s ctx q seq then hold false
    else match ctxWrite s ctx va (statusBytes seq st grant) with
    | some s1 => passRecord s1 ctx q seq st
    | none =>
      deviceEvent (hold true)
        0x07 (BitVec.ofNat 64 va) ctx (BitVec.ofNat 64 q.val) (BitVec.ofNat 64 seq)

/-- The launch of a queue that has been let in and has no status entry yet, running or held. -/
def queueBusy (s : State) (x : Ctx) (q : Fin 16) : Bool :=
  s.launches.any (fun l => l.ctx == x.n && l.q == q && l.phase != .written) ||
  (match x.held with | some h => h.launch.q == q | none => false)

/-! ## The fields of a record (R368) -/

/-- GEN, with 0 taken as 1. -/
def recGen (r : Vector DWord 16) : Nat := if field r[5] 59 56 = 0 then 1 else field r[5] 59 56
/-- FOLD. -/
def recFold (r : Vector DWord 16) : Bool := bitOf r[4] 60
/-- PERDIE. -/
def recPerDie (r : Vector DWord 16) : Bool := bitOf r[4] 61
/-- PRIO. -/
def recPrio (r : Vector DWord 16) : Nat := field r[4] 47 42
/-- CORES. -/
def recCores (r : Vector DWord 16) : Nat := field r[6] 8 0
/-- NRANGE. -/
def recNrange (r : Vector DWord 16) : Nat := field r[6] 37 22
/-- The address of an image: 0 grammar, 1 fabric, 2 task, 3 graph. -/
def recImage (r : Vector DWord 16) (i : Fin 4) : Nat := field (at' r (i.castLE (by omega))) 51 0

/-- The cores that a record asks for (R369), before any cap: PERDIE counts one core per team where CORES is 0. -/
def recWant (r : Vector DWord 16) : Nat :=
  if recCores r ≠ 0 then recCores r
  else if isPersist r then gangSize r
  else teamCount r * gangSize r

/-- The fewest cores that a record accepts, as its field says: 0 means CORES, or one gang where that is 0 (R368). -/
def recMin (r : Vector DWord 16) : Nat :=
  if field r[6] 17 9 ≠ 0 then field r[6] 17 9
  else if recCores r ≠ 0 then recCores r else gangSize r

/-- What a record asks for in whole gangs, at least one: cores are granted by the gang (R373; log entry 80). -/
def recGangs (r : Vector DWord 16) : Nat := max 1 (recWant r / gangSize r)

/-- The cores that must be free for a record to be admitted: its CMIN, and where that stands for CORES, what CORES makes in
whole gangs (log entry 80). -/
def recNeed (r : Vector DWord 16) : Nat :=
  if field r[6] 17 9 ≠ 0 then field r[6] 17 9
  else if recCores r ≠ 0 then recGangs r * gangSize r else gangSize r

/-- Whether the widths keep R12. -/
def widthsOk (r : Vector DWord 16) : Bool :=
  let ws := (List.range 6).map fun i => widthField r (i + 1)
  ws.all (· ≤ 32) && ws.sum ≤ 64 && ws.headD 0 != 0 &&
  (List.range 5).all fun i => (ws[i]?).getD 0 != 0 || (ws[i + 1]?).getD 0 == 0

/-- Whether a stage entry keeps its map. -/
def stageOk (r : Vector DWord 16) (i : Nat) : Bool :=
  let d := stageEntry r i
  if i ≥ nStages r then d == 0
  else field d 63 26 == 0 && ((field d 25 10 == 0) == (i == 0))

/-- Whether the record's own fields pass check 1 of R370. -/
def recordPlain (x : Ctx) (q : Fin 16) (seq : Nat) (r : Vector DWord 16) : Bool :=
  field r[0] 63 52 == 0 && field r[1] 63 52 == 0 && field r[2] 63 52 == 0 && field r[3] 63 52 == 0 &&
  field r[7] 63 52 == 0 && field r[4] 63 62 == 0 && field r[5] 63 60 == 0 && field r[5] 55 53 == 0 &&
  field r[6] 63 54 == 0 && widthsOk r && 1 ≤ teamLevel r && teamLevel r ≤ levels r && field r[4] 40 39 != 3 &&
  recPrio r ≤ 47 && x.pmin ≤ recPrio r && nStages r ≤ 8 && !(nStages r != 0 && !isPersist r) &&
  !(bitOf r[5] 52 && field r[5] 51 48 == q.val && field r[5] 47 0 ≥ seq) &&
  (recNrange r == 0 || field r[7] 51 0 % 16 == 0) && (List.range 8).all (stageOk r)

/-- The range table of a record (R375); `none` where it cannot be read or an entry is bad. -/
def rangeTable (s : State) (ctx : Nat) (r : Vector DWord 16) : Option (List (Nat × Nat)) :=
  if recNrange r = 0 then some []
  else match ctxRead s ctx (field r[7] 51 0) (16 * recNrange r) with
    | none => none
    | some bs =>
      let ds := dwordsOf bs
      let xs := (List.range (recNrange r)).map fun i => ((dw ds (2 * i)).toNat, (dw ds (2 * i + 1)).toNat)
      if xs.all fun x => x.2 != 0 && x.1 + x.2 ≤ teamCount r then some xs else none

/-- The generated ranges of a record (R375): RCHUNK teams each, from team 0 upward. -/
def madeRanges (r : Vector DWord 16) : List (Nat × Nat) :=
  let c := if field r[6] 53 38 = 0 then 1 else field r[6] 53 38
  let n := teamCount r
  (List.range ((n + c - 1) / c)).map fun i => (i * c, min c (n - i * c))

/-! ## Manifests (R435) -/

/-- The bytes of a manifest; `none` where it cannot be read. One whose head is wrong is read no further. -/
def manifestAt (s : State) (ctx va : Nat) : Option (List Byte) :=
  match ctxRead s ctx va 64 with
  | none => none
  | some h => if manifestHead h then ctxRead s ctx va (64 + 48 * natLE ((h.drop 8).take 8) + 96) else some h
where
  /-- Whether the first 64 bytes are those of a manifest. -/
  manifestHead (h : List Byte) : Bool :=
    natLE (h.take 4) == 0x314D5348 && natLE ((h.drop 4).take 2) == 1 && natLE ((h.drop 6).take 1) < 8 &&
    natLE ((h.drop 7).take 1) == 0 && 1 ≤ natLE ((h.drop 8).take 8) && natLE ((h.drop 8).take 8) ≤ 65536 &&
    natLE ((h.drop 16).take 8) % 65536 == 0 && (h.drop 24).all (· == 0)

/-- The signed part and the signature of a manifest check against the key of its slot (R435, R436). -/
def manifestGood (s : State) (x : Ctx) (m : List Byte) : Bool :=
  manifestAt.manifestHead (m.take 64) &&
    let slot := natLE ((m.drop 6).take 1)
    x.kmask.getLsbD slot &&
    match at' s.keySlots (Fin.ofNat 8 slot) with
    | .active key => ecdsaOk key (m.take (m.length - 96)) (m.drop (m.length - 96))
    | _ => false

/-- The code object of a manifest. -/
def objectOf (va : Nat) (m : List Byte) : CodeObj :=
  ⟨va, natLE ((m.drop 16).take 8), natLE ((m.drop 8).take 8), m, false⟩

/-- A code object loaded into a context: the one loaded there with the same bytes stays as it is, and another takes its
place with no page checked (log entry 24). -/
def loadObject (x : Ctx) (o : CodeObj) : Ctx :=
  match x.objs.find? (·.va == o.va) with
  | some y =>
    if y.manifest = o.manifest then x
    else { x with
      objs := x.objs.map fun z => if z.va = o.va then o else z
      checked := x.checked.filter fun p => !(o.first ≤ p.1 && p.1 < o.first + 65536 * o.npage) &&
        !(y.first ≤ p.1 && p.1 < y.first + 65536 * y.npage) }
  | none => { x with objs := x.objs ++ [o] }

/-- Whether the object that is loaded at an address with these bytes is untrusted (R401). -/
def isUntrusted (x : Ctx) (va : Nat) (m : List Byte) : Bool :=
  x.objs.any fun o => o.va == va && o.manifest == m && o.untrusted

/-- The dwords of a length from an address of a context. -/
def ctxDwords (s : State) (ctx va n : Nat) : Option (List DWord) := (ctxRead s ctx va (8 * n)).map dwordsOf

/-- The node records of a fabric image, each with its PE and its dwords; `none` where the image cannot be read. -/
def fabricNodes (s : State) (ctx va : Nat) : Option (List (Nat × List DWord)) :=
  match ctxDwords s ctx va 1 with
  | none => none
  | some h => go (field (dw h 0) 55 48) (va + 16)
where
  /-- The node records from an address. -/
  go : Nat → Nat → Option (List (Nat × List DWord))
    | 0, _ => some []
    | n + 1, a => match ctxDwords s ctx a 1 with
      | none => none
      | some h =>
        let len := 2 + field (dw h 0) 45 42 + field (dw h 0) 48 46
        match ctxDwords s ctx a len with
        | none => none
        | some ds => (go n (a + 8 * len)).map fun xs => (field (dw h 0) 55 49, ds) :: xs

/-- The instruction words of a node record. -/
def recordWords (ds : List DWord) : List DWord := ds.drop (1 + field (dw ds 0) 45 42)

/-- The length of a node: a special function counts as two (R74). -/
def nodeLength (ws : List DWord) : Nat :=
  (ws.map fun w => match decodeWord w with
    | some (.frcp _) | some (.frsq _) | some (.fexp2 _) | some (.flog2 _) => 2
    | _ => 1).sum

end Sys2Proof.Machine
end

