-- ==== Sys2Proof/Machine/Flow.lean ====
section
/-! DEFINITION. The fabric: the node flow instructions, opcodes 0x30 to 0x3F (R265 to R280), firings (R74 to R78),
the routers' hops, loop rings and queue enlargement (R35 to R43, R80, R86, R89, R90). -/

namespace Sys2Proof.Machine
open Sys2Proof

/-! ## Outputs of a firing -/

/-- The node in focus changed. -/
def modFocusNode (s : State) (e : Env) (f : Node → Node) : State :=
  match e.agent with
  | .node pe => modCore s e.core fun k => modNode k pe f
  | _ => s

/-- The firing in focus changed. -/
def modFiring (s : State) (e : Env) (f : Firing → Firing) : State :=
  modFocusNode s e fun n => { n with firing := n.firing.map f }

/-- A token written to a q port with its own sideband; in a firing under poison, poison with its tag (R27). -/
def writeTok (s : State) (e : Env) (o : Operand) (t : Token) : State :=
  match o with
  | .q r => modFiring s e fun f =>
      addOut f ⟨⟨r.val, by omega⟩, match f.poison with | some k => poisonTok t.tag k | none => t, true⟩
  | _ => s

/-- A void token with the sideband of R76 (R77). -/
def writeVoid (s : State) (e : Env) (o : Operand) : State := writeDst s e o true 0 .raw

/-- The frame of a flow instruction: it waits for values on their way, then acts and counts as done. -/
def flowWord (i : Instr) (s : State) (srcs : List Operand) (body : Env → Firing → State) : Out :=
  runWord i s fun e =>
    if srcs.any (lPending s e) then .wait
    else match firingOf s e with
      | some f => .done (advance e true (body e f))
      | none => .wait

/-- Bit 0 of a condition operand (R265). -/
def condBit (x : Src) : Bool := x.v.getLsbD 0

/-! ## SELT to VOID -/

/-- SELT (R268). -/
def execSelt (f : RegForm) (s : State) : Out :=
  flowWord (.selt f) s [f.d, f.a, f.b, f.c] fun e _ =>
    let cnd := readSrc s e f.a
    let v := readSrc s e (if condBit cnd then f.b else f.c)
    writeDst s e f.d (cnd.void || v.void || !predicate s e) v.v (fmtField f.m)

/-- STEER (R269): under a false predicate both outputs are void (R78). -/
def execSteer (f : RegForm) (s : State) : Out :=
  flowWord (.steer f) s [f.a, f.b] fun e g =>
    let cnd := readSrc s e f.b
    let v := readSrc s e f.a
    let other (s : State) (o : Operand) : State :=
      if g.mark != 0 || g.poison.isSome || !predicate s e then writeVoid s e o else s
    if cnd.void || !predicate s e then other (other s f.d) f.c
    else
      let s1 := writeDst s e (if condBit cnd then f.d else f.c) v.void v.v (fmtField f.m)
      other s1 (if condBit cnd then f.c else f.d)

/-- Whether an operand is a data port. -/
def isPort : Operand → Bool
  | .p _ => true
  | _ => false

/-- GATE (R270, R79): a token that passes, and a void token in its place, keep the value token's mark and tag. -/
def execGate (f : RegForm) (s : State) : Out :=
  flowWord (.gate f) s [f.a, f.b] fun e g =>
    let v := readSrc s e f.a
    let cnd := readSrc s e f.b
    if !predicate s e then writeVoid s e f.d
    else
      let shut := v.void || cnd.void || !condBit cnd
      writeTok s e f.d ⟨if isPort f.a then v.mark else g.mark, shut, if isPort f.a then v.tag else g.tag,
        if shut then 0 else v.v.setWidth 32⟩

/-- The sideband of a firing from the ports it consumes (R76). -/
def sidebandOf (k : Core) (pe : PeId) (took : List (Fin 8)) : BitVec 3 × BitVec 4 :=
  match (List.finRange 4).find? fun p => took.contains (pIndex p) with
  | some p => match portHead k pe p with
    | some t => (t.mark, t.tag)
    | none => (0, 0)
  | none => (0, 0)

/-- The poison that a firing consumes (R27); of several levels the highest (log entry 87). -/
def poisonFrom (L : Nat) (k : Core) (pe : PeId) (took : List (Fin 8)) : Option Nat :=
  (((List.finRange 4).filter fun p => took.contains (pIndex p)).filterMap fun p =>
    (portHead k pe p).bind fun t => if t.mark = 7 then some (poisonOf L t) else none).max?

/-- Whether the work ID of a firing is that of a stream with RNG = 0: that of the lowest data port consumed. -/
def plainFrom (k : Core) (pe : PeId) (took : List (Fin 8)) : Bool :=
  match (List.finRange 4).find? fun p => took.contains (pIndex p) with
  | some p => plainPort k (peRouter pe) p.val
  | none => false

/-- A firing that takes one more port. -/
def takePort (L : Nat) (k : Core) (pe : PeId) (p : Fin 4) (f : Firing) : Firing :=
  if f.took.contains (pIndex p) then f
  else
    let took := f.took ++ [pIndex p]
    let sb := sidebandOf k pe took
    { f with took := took, plain := plainFrom k pe took, mark := sb.1, tag := sb.2, poison := poisonFrom L k pe took }

/-- Whether two firings give their outputs the same sideband and poison (R27, R76). -/
def sameSideband (f g : Firing) : Bool := f.mark == g.mark && f.tag == g.tag && f.poison == g.poison

/-- A node whose firing `g` has taken port r late, so that what its outputs carry has changed: its words run again from the
first, with the l registers as the firing began. Words that have reached memory do not reach it again (log entry 41). -/
def beginAgain (r : Fin 4) (g : Firing) (n : Node) : Node :=
  { n with
    l := g.l0
    tag := g.tag0
    seen := g.seen0
    firing := some { g with
      idx := 0, preds := [], marks := [], tags := [], touch := [], outs := [], picked := g.picked ++ [(g.idx, r)]
      redo := max g.redo g.idx } }

/-- The port that a MERGE chooses: the one that its firing has noted, or that of its condition. -/
def mergePort (f : RegForm) (g : Firing) (cnd : Src) : Operand :=
  match g.picked.find? (·.1 == g.idx) with
  | some x => .p x.2
  | none => if condBit cnd then f.b else f.c

/-- Whether a node waits for a read of its firing (R285). -/
def nodeReads (s : State) (c : CoreId) (pe : PeId) : Bool :=
  s.accs.any fun a => a.who.core == c && a.agent == .node pe && !isPosted a.kind

/-- MERGE (R271). The chosen port was taken as the firing began, or is taken here where the condition came from an
earlier instruction of the firing; where that changes the firing's sideband or poison, the firing begins again with it. -/
def execMerge (f : RegForm) (s : State) : Out :=
  runWord (.merge f) s fun e =>
    if lPending s e f.a then .wait
    else match firingOf s e with
      | none => .wait
      | some g =>
        let cnd := readSrc s e f.a
        if cnd.void then
          .done (advance e true (writeTok s e f.d
            ⟨if isPort f.a then cnd.mark else g.mark, true, if isPort f.a then cnd.tag else g.tag, 0⟩))
        else match mergePort f g cnd, e.agent with
          | .p r, .node pe =>
            let k := coreAt s e.core
            match portHead k pe r with
            | none => .wait
            | some t =>
              let g1 := takePort (levels e.launch.recd) k pe r g
              if !sameSideband g g1 then
                if nodeReads s e.core pe then .wait else .done (modFocusNode s e (beginAgain r g1))
              else
                let s1 := modFiring s e fun _ => g1
                .done (advance e true
                  (if predicate s e then writeTok s1 e f.d { t with data := if t.void then 0 else t.data }
                   else writeVoid s1 e f.d))
          | _, _ => .wait

/-- Whether a mark ends a level-k group (R272). -/
def endsGroup (k : Nat) (mark : BitVec 3) : Bool := decide (k ≤ mark.toNat) && decide (mark.toNat ≤ 6)

/-- The mark that EMIT and ACC put on the token they emit (R272). -/
def emitMark (lo : Bool) (k : Nat) (mark : BitVec 3) : BitVec 3 := if lo then mark - BitVec.ofNat 3 k else mark

/-- The level that an imm7 names. -/
def levelOf (o : Operand) : Nat :=
  match o with
  | .imm v => v.toNat
  | _ => 0

/-- EMIT (R272). -/
def execEmit (f : RegForm) (s : State) : Out :=
  flowWord (.emit f) s [f.a] fun e g =>
    let k := levelOf f.b
    let v := readSrc s e f.a
    if g.poison.isSome then writeVoid s e f.d
    else if !endsGroup k g.mark then s
    else
      let void := v.void || !predicate s e
      writeTok s e f.d ⟨emitMark (f.x.getLsbD 0) k g.mark, void, g.tag, if void then 0 else v.v.setWidth 32⟩

/-- MARK (R274). A void code, or a void level that code 7 reads, marks nothing (R77). In an action the token takes its place behind every accepted token, on its way to the emit port; a
parser in mark mode that governs no stream discards it. -/
def execMark (f : RegForm) (s : State) : Out :=
  runWord (.mark f) s fun e =>
    if [f.a, f.b].any (lPending s e) then .wait
    else
      let code := readSrc s e f.a
      let lvl := clampLevel (levels e.launch.recd) ((srcVal s e f.b).toNat % 8)
      let c := code.v.setWidth 3
      let void := code.void || (c == 7 && (readSrc s e f.b).void)
      match e.agent, f.d with
      | .parser p, _ =>
        let z := at' (coreAt s e.core).parsers p
        let t : Token := if c = 7 then poisonTok 0 lvl else ⟨c, true, 0, 0⟩
        let g : GTok := ⟨t, z.lastWid, currentAct s e⟩
        if z.byte then .done (advance e false (modCore s e.core fun k => modParser k p fun z =>
            if z.hold.isEmpty then z.emit [g] else { z with late := z.late ++ [(z.hold.length, g)] }))
        else if z.ag.isNone then .done (advance e true s)
        else .done (advance e false (modCore s e.core fun k => modParser k p fun z => { z with rel := z.rel ++ [g] }))
      | _, .q r => .done (advance e true (modFiring s e fun g =>
          { g with
            touch := g.touch ++ [r]
            marks := if void || !predicate s e then g.marks else g.marks ++ [(r, c, lvl)] }))
      | _, _ => .wait

/-- The identity of an ACC operation (R273). -/
def accIdentity (op : Nat) (f : Fmt) (u : Bool) : Word :=
  let w := widthOf true f
  let rg := rangeOf w (readsUnsigned f u)
  let int (x : Int) : Word := (extend w (extendsSigned f u) (wrapTo w x)).setWidth 32
  if isIeeeFmt f then
    BitVec.ofNat 32 (match op with
      | 0 => ieeeZero f true
      | 1 => ieeeInf f false
      | _ => ieeeInf f true)
  else match op with
    | 1 => int rg.2
    | 2 => int rg.1
    | _ => 0

/-- One fold of an ACC (R273). -/
def accFold (md : FpMode) (k : IntMode) (rnd : BitVec 2) (op : Nat) (old v : DWord) : DWord × FlagBits :=
  if op = 3 then (intBits (· ||| ·) k old v, 0)
  else if isIeeeFmt k.f then
    let a := fpOperand md k.f false old
    let b := fpOperand md k.f false v
    let r := match op with
      | 0 => fpAdd md k.f rnd k.sat a b
      | 1 => fpMinMax false md k.f a b
      | _ => fpMinMax true md k.f a b
    (BitVec.ofNat 64 r.1, r.2)
  else match op with
    | 0 => intExact (· + ·) k old v
    | 1 => (intMin k old v, 0)
    | _ => (intMax k old v, 0)

/-- The register of an ACC and its seen bit set. -/
def accSet (s : State) (e : Env) (r : Fin 8) (fmt : Fmt) (idx : Nat) (v : Word) (seen : Bool) : State :=
  modFocusNode s e fun n =>
    { n with
      l := put n.l r v
      tag := put n.tag r fmt
      seen := if seen then n.seen ||| (1#8 <<< idx) else n.seen &&& ~~~ (1#8 <<< idx) }

/-- Whether the ACC at an index has seen a value. -/
def accSeen (s : State) (e : Env) (idx : Nat) : Bool :=
  match e.agent with
  | .node pe => match nodeAt (coreAt s e.core) pe with
    | some n => n.seen.getLsbD idx
    | none => false
  | _ => false

/-- ACC (R273). -/
def execAcc (f : RegForm) (s : State) : Out :=
  flowWord (.acc f) s [f.a, f.b] fun e g =>
    let k := levelOf f.c
    let op := (f.x.extractLsb' 8 2).toNat
    let fmt := fmtField f.m
    let u := mU f.m
    let mark := emitMark (f.x.getLsbD 0) k g.mark
    match f.b with
    | .l r =>
      let reset (s : State) : State := accSet s e r fmt g.idx (accIdentity op fmt u) false
      if g.poison.isSome then writeVoid (reset s) e f.d
      else if !predicate s e then
        if endsGroup k g.mark then writeTok (reset s) e f.d ⟨mark, true, g.tag, 0⟩ else s
      else
        let v := readSrc s e f.a
        let old := readSrc s e f.b
        let q := accFold (fpMode s e) (intMode e f.m) (mRnd f.m) op old.v v.v
        let seen := accSeen s e g.idx || !v.void
        let l := if v.void then old.v else q.1
        let s1 := if v.void then s
          else mergeFlags (accSet s e r fmt g.idx (q.1.setWidth 32) true) e.core q.2
        if endsGroup k g.mark then
          writeTok (reset s1) e f.d ⟨mark, !seen, g.tag, if seen then l.setWidth 32 else 0⟩
        else s1
    | _ => s

/-- TAGSET (R275). -/
def execTagset (f : RegForm) (s : State) : Out :=
  flowWord (.tagset f) s [f.a] fun e _ =>
    let t := readSrc s e f.a
    match f.d with
    | .q r => modFiring s e fun g =>
        { g with
          touch := g.touch ++ [r]
          tags := if t.void || !predicate s e then g.tags else g.tags ++ [(r, t.v.setWidth 4)] }
    | _ => s

/-- TAGCHK (R276): a void head is compared by its tag. -/
def execTagchk (f : RegForm) (s : State) : Out :=
  flowWord (.tagchk f) s [f.d, f.b] fun e _ =>
    let h := readSrc s e f.a
    let t := readSrc s e f.b
    writeDst s e f.d (t.void || !predicate s e) (if h.tag == t.v.setWidth 4 then 1 else 0) .i32

/-- PUSHP (R278): a void condition pushes 0. -/
def execPushp (f : RegForm) (s : State) : Out :=
  flowWord (.pushp f) s [f.a] fun e _ =>
    let x := readSrc s e f.a
    modFiring s e fun g => { g with preds := (!x.void && condBit x) :: g.preds }

/-- POPP (R278). -/
def execPopp (f : RegForm) (s : State) : Out :=
  flowWord (.popp f) s [] fun e _ => modFiring s e fun g => { g with preds := g.preds.tail }

/-- VOID (R277): whether the predicate is true or false. -/
def execVoid (f : RegForm) (s : State) : Out := flowWord (.void f) s [] fun e _ => writeVoid s e f.d

/-! ## Firing (R74 to R78, R271) -/

/-- The l registers that an instruction writes; D of STI is its value source (R286). -/
def lWritten (i : Instr) : List (Fin 8) :=
  match i with
  | .acc f => match f.b with | .l r => [r] | _ => []
  | .sti _ => []
  | i => match (operandsOf i).head? with | some (.l r) => [r] | _ => []

/-- A port operand as a firing numbers it: 0 to 3 p, 4 to 7 c. -/
def portIndex : Operand → Option (Fin 8)
  | .p r => some (pIndex r)
  | .c r => some ⟨4 + r.val, by omega⟩
  | _ => none

/-- The ports that an instruction consumes in every firing: those it names, but for the two of a MERGE. -/
def portsOf (i : Instr) : List (Fin 8) :=
  match i with
  | .merge f => [f.a].filterMap portIndex
  | i => (operandsOf i).filterMap portIndex

/-- The ports that a node names outside MERGE's choice. -/
def basePorts (n : Node) : List (Fin 8) := ((nodeInstrs n).flatMap portsOf).eraseDups

/-- The choice of a MERGE before the firing: the port of its choice, no port (a void condition), or not yet known. -/
inductive Choice where
  | port (p : Fin 4)
  | noPort
  | later
  deriving DecidableEq, Repr

/-- A condition before the firing, as the heads of the ports stand: its bit, void, or not yet known; `written` are the l
registers that earlier instructions of the firing write. -/
inductive Cond where
  | bit (b : Bool)
  | void
  | later
  deriving DecidableEq, Repr

/-- The condition that an operand gives. -/
def condBefore (k : Core) (n : Node) (written : List (Fin 8)) : Operand → Cond
  | .c r => match condHead k n.pe r with | some b => .bit b | none => .later
  | .p r => match portHead k n.pe r with
    | some t => if t.void then .void else .bit (t.data.getLsbD 0)
    | none => .later
  | .l r => if written.contains r then .later else .bit ((at' n.l r).getLsbD 0)
  | .imm v => .bit (v.getLsbD 0)
  | _ => .later

/-- What a MERGE chooses. -/
def mergeChoice (k : Core) (n : Node) (written : List (Fin 8)) (f : RegForm) : Choice :=
  match condBefore k n written f.a with
  | .bit b => match (if b then f.b else f.c) with | .p r => .port r | _ => .later
  | .void => .noPort
  | .later => .later

/-- The choices of a node's MERGEs. -/
def mergeChoices (k : Core) (n : Node) : List (Fin 8) → List Instr → List Choice
  | _, [] => []
  | w, i :: is =>
    let rest := mergeChoices k n (lWritten i ++ w) is
    match i with
    | .merge f => mergeChoice k n w f :: rest
    | _ => rest

/-- Whether a port holds a token or a condition at its head. -/
def portReady (k : Core) (pe : PeId) (p : Fin 8) : Bool :=
  if h : p.val < 4 then (portHead k pe ⟨p.val, h⟩).isSome
  else (condHead k pe ⟨p.val - 4, by omega⟩).isSome

/-- The output ports that an instruction is certain to write in a firing of a mark, under poison or not (R269, R272). -/
def sureOuts (k : Core) (n : Node) (written : List (Fin 8)) (mark : BitVec 3) (poison : Bool) (i : Instr) : List Operand :=
  match i with
  | .emit f => if poison || endsGroup (levelOf f.b) mark then [f.d] else []
  | .acc f => if poison || endsGroup (levelOf f.c) mark then [f.d] else []
  | .steer f =>
    if poison || mark != 0 then [f.d, f.c]
    else match condBefore k n written f.b with
      | .bit b => [if b then f.d else f.c]
      | _ => []
  | i => portsNamed i

/-- The ports that a firing's instructions are certain to write. -/
def firingOuts (k : Core) (n : Node) (mark : BitVec 3) (poison : Bool) : List (Fin 8) → List Instr → List Operand
  | _, [] => []
  | w, i :: is => sureOuts k n w mark poison i ++ firingOuts k n mark poison (lWritten i ++ w) is

/-- The ring whose tail writes a port. -/
def ringOf (k : Core) (pe : PeId) (p : Fin 4) : Option Ring := k.rings.find? fun r => r.tail == pe && r.tport == p

/-- Whether an output port's queue has room; a ring takes what its tail writes as its slots turn (R22, R89). -/
def outRoom (k : Core) (pe : PeId) : Operand → Bool
  | .q r => (ringOf k pe r).isSome || canWrite k (peRouter pe) r
  | .e r => canSend k (peRouter pe) r
  | _ => true

/-- A firing of a node that takes these ports, before its first word. -/
def freshFiring (L : Nat) (k : Core) (n : Node) (took : List (Fin 8)) : Firing where
  idx := 0
  preds := []
  mark := (sidebandOf k n.pe took).1
  tag := (sidebandOf k n.pe took).2
  poison := poisonFrom L k n.pe took
  marks := []
  tags := []
  touch := []
  outs := []
  took := took
  plain := plainFrom k n.pe took
  picked := []
  redo := 0
  memo := []
  l0 := n.l
  tag0 := n.tag
  seen0 := n.seen

/-- Whether a MERGE finds a token at one of its ports: a node whose only ports are those of a MERGE that chooses within the firing
starts one for it (R271). -/
def lateReady (k : Core) (n : Node) : Bool :=
  (nodeInstrs n).any fun i => match i with
    | .merge f => [f.b, f.c].any fun o => match o with | .p r => (portHead k n.pe r).isSome | _ => false
    | _ => false

/-- The firing that a node can start, once every port it consumes holds a token and every output queue that it is certain to
write has room (R22, R74, R271). -/
def newFiring (L : Nat) (k : Core) (n : Node) : Option Firing :=
  let chosen := (mergeChoices k n [] (nodeInstrs n)).filterMap fun c => match c with | .port p => some (pIndex p) | _ => none
  let took := (basePorts n ++ chosen).eraseDups
  let f := freshFiring L k n took
  if took.all (portReady k n.pe) && (!took.isEmpty || lateReady k n) &&
      (firingOuts k n f.mark f.poison.isSome [] (nodeInstrs n)).all (outRoom k n.pe) then some f
  else none

/-- The ports of a firing consumed, each once, and the places of the data ports moved on (R25, R74). -/
def consume (l : Launch) (pe : PeId) (took : List (Fin 8)) (k : Core) : Core :=
  took.foldl (fun k p =>
    if h : p.val < 4 then
      let q : Fin 4 := ⟨p.val, h⟩
      let k1 := match portHead k pe q with
        | some t => modNode k pe fun n =>
            { n with wid := put n.wid q (placeAfter l k (at' n.wid q) t) }
        | none => k
      popTok k1 (.pe pe q)
    else popCtl k (.pec pe ⟨p.val - 4, by omega⟩)) k

/-- MARK and TAGSET applied to a firing's outputs, and the void token of a port that they name and nothing else
wrote (R274, R275). Poison keeps its mark (R27) and takes the tag (R76). -/
def settleOuts (f : Firing) : List OutSlot :=
  let outs := f.touch.foldl (fun (os : List OutSlot) r =>
    if os.any (·.port == pIndex r) then os
    else os ++ [⟨pIndex r, match f.poison with | some k => poisonTok f.tag k | none => tokenOf f true 0, true⟩]) f.outs
  outs.map fun o =>
    let o1 := (f.marks.filter fun m => f.poison.isNone && pIndex m.1 == o.port).foldl (fun (o : OutSlot) (m : Fin 4 × BitVec 3 × Nat) =>
      { o with tok := if m.2.1 = 7 then poisonTok o.tok.tag m.2.2 else { o.tok with mark := m.2.1 } }) o
    (f.tags.filter fun m => pIndex m.1 == o.port).foldl (fun (o : OutSlot) (m : Fin 4 × BitVec 4) =>
      { o with tok := { o.tok with tag := m.2 } }) o1

/-- A ring changed. -/
def modRing (k : Core) (n : Nat) (f : Ring → Ring) : Core :=
  { k with rings := k.rings.mapIdx fun i r => if i = n then f r else r }

/-- A token as it comes out of the filters on its ring's route, with their flags: the loader lays out no ring through a
filter that holds tokens (R40, R89). -/
def ringFilters (k : Core) : Nat → RouterId → Fin 5 → Fin 4 → Token → Token × FlagBits
  | 0, _, _, _, t => (t, 0)
  | fuel + 1, r, port, vc, t =>
    match (routerAt k r).bind fun x => (swEntry x port vc t.tag).map fun e => (e.2, chainOf x vc e.1 e.2) with
    | none => (t, 0)
    | some (w, ch) =>
      let a := ch.foldl (fun (a : Token × FlagBits) e =>
        let q := filterStep 6 e.2 Shaper.zero a.1
        ((q.1.head?).getD a.1, a.2 ||| q.2.2)) (t, 0)
      match (swOuts w).filterMap fun o => if o = 4 then none else neighbour r o with
      | y :: _ =>
        let b := ringFilters k fuel y.1 y.2 (swOvc w) a.1
        (b.1, a.2 ||| b.2)
      | [] => a

/-- A token sent from a q port: into its ring, or into the router as input L on the port's VC; `none` when there is
no room (R354, R89). -/
def sendData (now : Nat) (k : Core) (pe : PeId) (p : Fin 4) (t : Token) : Option Core :=
  match ringOf k pe p with
  | some r =>
    if r.slots.head? = some none then
      let q := ringFilters k 704 (peRouter pe) 4 p t
      some { k with
        rings := k.rings.map fun x => if x = r then { x with slots := some q.1 :: x.slots.tail } else x
        blk := { k.blk with flags := k.blk.flags ||| q.2 }
        flagsNow := setNow now k.flagsNow q.2 }
    else none
  | none => if canWrite k (peRouter pe) p then some (writeLocal k (peRouter pe) p (.tok t)) else none

/-- An output sent from a node, if there is room. -/
def sendOut (now : Nat) (k : Core) (pe : PeId) (o : OutSlot) : Option Core :=
  if h : o.port.val < 4 then sendData now k pe ⟨o.port.val, h⟩ o.tok
  else
    let sub : Fin 4 := ⟨o.port.val - 4, by omega⟩
    if canSend k (peRouter pe) sub then some (sendLocal k (peRouter pe) sub (.bit (o.tok.data.getLsbD 0))) else none

/-- Every ready output sent that has room; those that have none stay. -/
def sendAll (now : Nat) (pe : PeId) : List OutSlot → Core → List OutSlot × Core
  | [], k => ([], k)
  | o :: os, k =>
    match (if o.ready then sendOut now k pe o else none) with
    | some k1 => sendAll now pe os k1
    | none => let r := sendAll now pe os k; (o :: r.1, r.2)

/-- The end of a firing: its ports are consumed once its last instruction is done and every read has come, and its
outputs leave as they find room (R74, R75). -/
def endFiring (s : State) (c : CoreId) (l : Launch) (n : Node) (f : Firing) : State :=
  if f.idx < n.words.length || nodeReads s c n.pe then s
  else
    let s1 := if f.took.isEmpty then s
      else countEvent (modCore s c (consume l n.pe f.took)) c 3
    let outs := if f.took.isEmpty then f.outs else settleOuts f
    let r := sendAll s.now n.pe outs (coreAt s1 c)
    let s2 := modCore s1 c fun _ => modNode r.2 n.pe fun n =>
      { n with firing := if r.1.isEmpty then none else some { f with took := [], touch := [], outs := r.1 } }
    moved s2 c

/-! ## Folding (R432) -/

/-- The other node of a folded PE: virtual columns 2p and 2p + 1 stand on physical column p. -/
def foldPartner (pe : PeId) : PeId := Fin.ofNat 128 (if pe.val / 8 % 2 = 0 then pe.val + 8 else pe.val - 8)

/-- Whether a node can start a firing now. -/
def fireReady (L : Nat) (k : Core) (n : Node) : Bool :=
  !n.frozen && !isStreamNode n && n.firing.isNone && (newFiring L k n).isSome

/-- Whether a node of a folded PE may fire: of two that are ready, the one that did not fire last. -/
def foldTurn (L : Nat) (k : Core) (pe : PeId) : Bool :=
  !k.folded || !k.foldLast.contains pe || match nodeAt k (foldPartner pe) with
    | some m => !fireReady L k m
    | none => true

/-- A node begins a firing. -/
def beginFiring (k : Core) (pe : PeId) (f : Firing) : Core :=
  let k1 := modNode k pe fun n => { n with firing := some f }
  if k.folded then { k1 with foldLast := pe :: k.foldLast.filter fun x => x != pe && x != foldPartner pe } else k1

/-- PE_FIRE (R74): a node that is idle starts a firing once its inputs are there, and a node whose instructions are
done ends its firing. -/
def execPeFire (c : CoreId) (pe : PeId) (s : State) : Out :=
  .next (match holderOf s c, nodeAt (coreAt s c) pe with
    | some l, some n =>
      if !maySteps s l || n.frozen || isStreamNode n then s
      else match n.firing with
        | some f => endFiring s c l n f
        | none =>
          if !foldTurn (levels l.recd) (coreAt s c) pe then s
          else match newFiring (levels l.recd) (coreAt s c) n with
            | some f => moved (modCore s c (beginFiring · pe f)) c
            | none => s
    | _, _ => s)

/-! ## Stream nodes (R42, R43, R90, R267, R279, R280) -/

/-- The first token of each port among tokens ready to leave. -/
def firstOuts : List (Fin 4) → List (Fin 4 × Token) → List (Nat × Fin 4 × Token)
  | _, [] => []
  | seen, (p, t) :: r =>
    let rest := (firstOuts (p :: seen) r).map fun x => (x.1 + 1, x.2)
    if seen.contains p then rest else (0, p, t) :: rest

/-- A token ready to leave a stream node is sent, if one finds room. -/
def streamSend (now : Nat) (k : Core) (n : Node) : Option Core :=
  (firstOuts [] n.shaper.out).findSome? fun x =>
    (sendData now k n.pe x.2.1 x.2.2).map fun k1 =>
      modNode k1 n.pe fun n => { n with shaper := { n.shaper with out := n.shaper.out.eraseIdx x.1 } }

/-- One step of a stream node: a token leaves, or, with nothing waiting to leave (or while `room` says that more may
be taken in), it takes from its inputs. -/
def streamStep (i : Instr) (s : State) (room : Shaper → Bool) (take : Env → Core → Node → Option Core) : Out :=
  runWord i s fun e =>
    match e.agent with
    | .node pe =>
      let k := coreAt s e.core
      match nodeAt k pe with
      | none => .wait
      | some n =>
        let r := (streamSend s.now k n).or (if n.shaper.out.isEmpty || room n.shaper then take e k n else none)
        match r with
        | some k1 => .done (moved (modCore s e.core fun _ => k1) e.core)
        | none => .wait
    | _ => .wait

/-- The port number of an operand. -/
def portNum : Operand → Fin 4
  | .p r => r
  | .q r => r
  | .c r => r
  | .e r => r
  | _ => 0

/-- A head consumed from a data port of a stream node, its work ID moved on. -/
def takeHead (l : Launch) (k : Core) (pe : PeId) (p : Fin 4) : Core := consume l pe [pIndex p] k

/-- The indices of the set bits of a mask word. -/
def setBits (w : Nat) : List Nat := (List.range 32).filter fun b => w / 2 ^ b % 2 == 1

/-- The tokens that SPHDR makes of a word (R42): `base` is 32 times the words before it. -/
def sphdrTokens (tag : BitVec 4) (mark : BitVec 3) (base w : Nat) : List Token :=
  let m : BitVec 3 := if mark = 0 then 1 else mark + 1
  match (setBits w).reverse with
  | [] => [⟨m, true, tag, 0⟩]
  | last :: rest =>
    (rest.reverse.map fun b => (⟨0, false, tag, BitVec.ofNat 32 (base + b)⟩ : Token)) ++
      [⟨m, false, tag, BitVec.ofNat 32 (base + last)⟩]

/-- SPHDR's step on both heads, or on one while it discards (R42). -/
def sphdrTake (or' : Bool) (pa pb q : Fin 4) (e : Env) (k : Core) (n : Node) : Option Core :=
  let L := levels e.launch.recd
  let emit (k : Core) (h : Shaper) (ts : List Token) : Core :=
    modNode k n.pe fun n => { n with shaper := { h with out := ts.map fun t => (q, t) } }
  let h := n.shaper
  match h.drop with
  | some (side, lvl) =>
    let p := if side then pb else pa
    match portHead k n.pe p with
    | none => none
    | some t =>
      let k1 := takeHead e.launch k n.pe p
      let tag := match h.held with | some x => x.tag | none => 0
      let ends := if t.mark = 7 then poisonOf L t else t.mark.toNat
      if t.mark = 7 || lvl ≤ t.mark.toNat then
        some (emit k1 { h with drop := none, held := none } [poisonTok tag (clampLevel L (max lvl ends + 1))])
      else some (emit k1 h [])
  | none =>
    match portHead k n.pe pa, portHead k n.pe pb with
    | some a, some b =>
      let k1 := takeHead e.launch (takeHead e.launch k n.pe pa) n.pe pb
      let h0 := { h with w := 0 }
      if a.mark = 7 ∨ b.mark = 7 then
        let lvl := if a.mark = 7 then poisonOf L a else poisonOf L b
        let o := if a.mark = 7 then b else a
        let ends := if o.mark = 7 then poisonOf L o else o.mark.toNat
        if o.mark = 7 || lvl ≤ o.mark.toNat then
          some (emit k1 h0 [poisonTok a.tag (clampLevel L (max lvl ends + 1))])
        else some (emit k1 { h0 with drop := some (decide (a.mark = 7), lvl), held := some a } [])
      else if a.mark ≠ b.mark then
        some (emit k1 h0 [poisonTok a.tag (clampLevel L (max a.mark.toNat b.mark.toNat + 1))])
      else
        let x := if a.void then 0 else a.data
        let y := if b.void then 0 else b.data
        let r := if or' then x ||| y else x &&& y
        some (emit k1 { h with w := if a.mark = 0 then h.w + 1 else 0 } (sphdrTokens a.tag a.mark (32 * h.w) r.toNat))
    | _, _ => none

/-- SPHDR (R42, R280). -/
def execSphdr (f : RegForm) (s : State) : Out :=
  streamStep (.sphdr f) s (fun _ => false) (sphdrTake (f.m.getLsbD 0) (portNum f.a) (portNum f.b) (portNum f.d))

/-- A token consumed on one side of an ISECT (R43): positions, order, poison and the end of its group. `side` is
true for B. -/
def isectSide (L : Nat) (h : Shaper) (side : Bool) (t : Token) : Shaper :=
  let h := if side then { h with posB := h.posB + 1 } else { h with posA := h.posA + 1, held := some t }
  let close (h : Shaper) (m : Nat) : Shaper :=
    if side then { h with endB := some (BitVec.ofNat 3 m) } else { h with endA := some (BitVec.ofNat 3 m) }
  if t.mark = 7 then
    let k := poisonOf L t
    let h1 := close { h with bad := true } k
    match h.drop with
    | some _ => h1
    | none =>
      let other := if side then h.endA else h.endB
      let short := match other with | some m => decide (m.toNat < k) | none => false
      let h2 := { h1 with drop := some (!side, k) }
      if short then (if side then { h2 with endA := none } else { h2 with endB := none }) else h2
  else
    let last := if side then h.lastB else h.lastA
    let rises := match last with | some x => decide (x.toNat < t.data.toNat) | none => true
    let h1 := if t.void then h
      else
        let h' := { h with bad := h.bad || !rises }
        if side then { h' with lastB := some t.data } else { h' with lastA := some t.data }
    let need := match h.drop with
      | some (sd, k) => if sd == side then k else 1
      | none => 1
    if t.mark ≠ 0 ∧ need ≤ t.mark.toNat then close h1 t.mark.toNat else h1

/-- The three outputs of an ISECT. -/
def isectOut (a b c : Token) : List (Fin 4 × Token) := [(0, a), (1, b), (2, c)]

/-- ISECT's step (R43). Its output tokens take the tag of A's head, or, where none stands, of the last token taken from A, 0
before the first; with closing marks of two levels nothing is discarded beyond the two marks (log entry 71). -/
def isectTake (pa pb : Fin 4) (e : Env) (k : Core) (n : Node) : Option Core :=
  let L := levels e.launch.recd
  let h := n.shaper
  let put' (k : Core) (h : Shaper) : Core := modNode k n.pe fun n => { n with shaper := h }
  let take (side : Bool) (h : Shaper) (t : Token) (k : Core) : Core × Shaper :=
    (takeHead e.launch k n.pe (if side then pb else pa), isectSide L h side t)
  let one (side : Bool) (t : Token) : Option Core := let r := take side h t k; some (put' r.1 r.2)
  let headA := portHead k n.pe pa
  let headB := portHead k n.pe pb
  match h.endA, h.endB with
  | some ma, some mb =>
    let tag := match h.held with | some t => t.tag | none => 0
    let mark := if ma.toNat < mb.toNat then mb else ma
    let hit := match h.hit with | some (a, b, c) => isectOut a b c | none => []
    let outs :=
      if h.bad || ma != mb then
        hit ++ (let t := poisonTok tag (clampLevel L mark.toNat); isectOut t t t)
      else match h.hit with
        | some (a, b, c) => isectOut { a with mark := mark } { b with mark := mark } { c with mark := mark }
        | none => let t : Token := ⟨mark, true, tag, 0⟩; isectOut t t t
    some (put' k { Shaper.zero with out := outs })
  | some _, none => headB.bind (one true)
  | none, some _ => headA.bind (one false)
  | none, none =>
    if h.bad then match headA with
      | some t => one false t
      | none => headB.bind (one true)
    else match headA, headB with
      | some a, some b =>
        if a.void then one false a
        else if b.void then one true b
        else if a.data.toNat < b.data.toNat then one false a
        else if b.data.toNat < a.data.toNat then one true b
        else
          let r := take false h a k
          let q := take true r.2 b r.1
          if q.2.bad then some (put' q.1 q.2)
          else
            let tok (v : Word) : Token := ⟨0, false, a.tag, v⟩
            let outs := match h.hit with | some (x, y, z) => isectOut x y z | none => []
            some (put' q.1 { q.2 with
              hit := some (tok a.data, tok (BitVec.ofNat 32 h.posA), tok (BitVec.ofNat 32 h.posB)), out := outs })
      | some a, none => if a.void then one false a else none
      | none, some b => if b.void then one true b else none
      | none, none => none

/-- ISECT (R43, R280). -/
def execIsect (f : RegForm) (s : State) : Out :=
  streamStep (.isect f) s (fun _ => false) (isectTake (portNum f.a) (portNum f.b))

/-- CTURN in a node: the filter of R41 (R280); it holds two blocks, so that it takes tokens while one block at most drains. -/
def execCturn (f : RegForm) (s : State) : Out :=
  let K := levelOf f.b
  streamStep (.cturn f) s (fun h => h.out.length ≤ K * K) fun e k n =>
    match portHead k n.pe (portNum f.a) with
    | none => none
    | some t =>
      let r := cturnStep (levels e.launch.recd) K n.shaper t
      some (modNode (takeHead e.launch k n.pe (portNum f.a)) n.pe fun n =>
        { n with shaper := { r.2 with out := n.shaper.out ++ r.1.map fun t => (portNum f.d, t) } })

/-- The scope code of a domain (R91). -/
def domainScope (k : Core) (d : Nat) : Nat := (k.dscope.extractLsb' (3 * d) 3).toNat

/-- Whether a node holds BND instructions. -/
def isBnd (n : Node) : Bool := (nodeInstrs n).any fun i => match i with | .bnd _ => true | _ => false

/-- The nodes that an element other than a node connects to: an AG, an MT, or an engine at an edge router (R90). A control token
that ends at an edge router posts a message to the task unit, and joins no element (R80). -/
def connected (k : Core) (r : RouterId) : List Node :=
  k.nodes.filter fun n => (elementReaches k r).any (·.1 == peRouter n.pe) ||
    (nodeReaches k n).any fun y => y.1 == r && y.2 < 4

/-- The domain of such an element: that of the first node it connects to, a BND node only where there is no other (R90). -/
def elementDomain (k : Core) (r : RouterId) : Option Nat :=
  let ns := connected k r
  ((ns.find? fun n => !isBnd n).or ns.head?).map (·.dom.val)

/-- The domain of the element that feeds a port of a PE: the node, or the AG, MT or engine, whose circuit or route reaches
it; else the PE's own (R90). -/
def feederDomain (k : Core) (pe : PeId) (p : Fin 8) (own : Nat) : Nat :=
  match k.nodes.find? fun n => (nodeReaches k n).contains (peRouter pe, p.val) with
  | some n => n.dom.val
  | none => match (k.routers.map (·.id)).find? fun r => 128 ≤ r.val && (elementReaches k r).contains (peRouter pe, p.val) with
    | some r => (elementDomain k r).getD own
    | none => own

/-- The scope at which a BND of a node releases: the widest of its own domain's, that of the domain that feeds it, and those
of the domains it feeds (R90, R279). -/
def bndScope (k : Core) (n : Node) (p : Fin 8) (out : Fin 4) : Nat :=
  let ends := reachesBy k (peRouter n.pe) (if p.val < 4 then pIndex out else ⟨4 + out.val, by omega⟩)
  let fed := k.nodes.filter fun x => ends.any (·.1 == peRouter x.pe)
  (fed.map fun x => domainScope k x.dom.val).foldl max
    (max (domainScope k (feederDomain k n.pe p n.dom.val)) (domainScope k n.dom.val))

/-- The edge routers at which a binding's lanes stand (R171). -/
def laneEdges (k : Core) (cmd : Nat) : List AgId :=
  k.graphs.toList.flatMap fun g => match g.bind (·.bind) with
    | some b =>
      if b.cmd = cmd then
        (if bdSrc b.desc = 0 then [bdEdge b.desc] else []) ++ (if bdDst b.desc = 0 then [bdOedge b.desc] else [])
      else []
    | none => []

/-- Whether every write issued before access `n` by a member of a domain is visible at a scope (R90, R127). -/
def domainReleased (s : State) (c : CoreId) (dom n scope : Nat) : Bool :=
  let k := coreAt s c
  s.accs.all fun a =>
    let member := match a.agent with
      | .node pe => (match nodeAt k pe with | some x => x.dom.val == dom | none => false)
      | .ag g => elementDomain k (agRouter g) == some dom
      | .engine id => (laneEdges k id).any fun g => elementDomain k (agRouter g) == some dom
      | _ => false
    !(a.who.core == c && a.id < n && isWriteKind a.kind && member) || performed a || qualifies scope a

/-- A token or a condition forwarded by a BND from one port to the other, if there is room. -/
def bndForward (now : Nat) (l : Launch) (k : Core) (pe : PeId) (p : Fin 8) (out : Fin 4) : Option Core :=
  if h : p.val < 4 then
    (portHead k pe ⟨p.val, h⟩).bind fun t => (sendData now k pe out t).map fun k1 => consume l pe [p] k1
  else
    (condHead k pe ⟨p.val - 4, by omega⟩).bind fun b =>
      if canSend k (peRouter pe) out then some (consume l pe [p] (sendLocal k (peRouter pe) out (.bit b))) else none

/-- BND (R279, R90): it notes the token it has received, and forwards it once the writes of the feeding domain issued
before are visible at the widest scope of the domains it joins (log entry 16). -/
def execBnd (f : RegForm) (s : State) : Out :=
  runWord (.bnd f) s fun e =>
    match e.agent, portIndex f.a with
    | .node pe, some p =>
      let k := coreAt s e.core
      match nodeAt k pe with
      | none => .wait
      | some n =>
        if !portReady k pe p then .wait
        else match n.bndWait.find? (·.1 == p) with
          | none => .done (active (modCore s e.core fun k => modNode k pe fun n =>
              { n with bndWait := n.bndWait ++ [(p, s.nextId)] }) e.core)
          | some (_, seen) =>
            if !domainReleased s e.core (feederDomain k pe p n.dom.val) seen (bndScope k n p (portNum f.d)) then .wait
            else match bndForward s.now e.launch k pe p (portNum f.d) with
              | none => .wait
              | some k1 => .done (moved (modCore s e.core fun _ => modNode k1 pe fun n =>
                  { n with bndWait := n.bndWait.filter (·.1 != p) }) e.core)
    | _, _ => .wait

/-! ## Routers (R35 to R40, R80) -/

/-- Whether every queue of a list has room. -/
def allRoom (k : Core) (qs : List QKey) : Bool := qs.all (hasRoom k)
/-- A token sent to every queue of a list (R38). -/
def pushAll (k : Core) (qs : List QKey) (t : Flit) : Core := qs.foldl (fun k q => pushTok k q t) k

/-- The place of what waits to leave an entry's chain. -/
def outPlace (idx : Nat) : Nat := idx * 5 + 4

/-- A token that waits behind an entry's chain leaves on every output of the entry. -/
def hopPending (k : Core) (x : Router) (es : List (Nat × Word)) : Option Core :=
  es.findSome? fun e =>
    let h := shaperAt x (outPlace e.1)
    match h.fill with
    | [] => none
    | t :: ts =>
      let qs := swKeys x.id e.2
      if allRoom k qs then
        some (pushAll (modRouter k x.id fun x => setShaper x (outPlace e.1) { h with fill := ts }) qs (.tok t))
      else none

/-- Whether tokens wait behind the chain of another entry of the same input port and VC: they go first (R35). -/
def othersWait (x : Router) (port : Fin 5) (vc : Fin 4) (idx : Nat) : Bool :=
  (swFor x port vc).any fun e => e.1 != idx && !(shaperAt x (outPlace e.1)).fill.isEmpty

/-- A router whose chain of an entry has let tokens out that wait to leave. -/
def holdOut (x : Router) (idx : Nat) (ts : List Token) : Router :=
  let h := shaperAt x (outPlace idx)
  setShaper x (outPlace idx) { h with fill := h.fill ++ ts }

/-- The head of an input port and VC moves on: at once where its entry has no filter, else through the chain. What leaves the
chain must find room on every output, so that nothing behind it can pass; a chain that holds blocks keeps a finished block
until it has left (R38, R40, R41). -/
def hopHead (L : Nat) (k : Core) (x : Router) (port : Fin 5) (vc : Fin 4) (t : Token) : Option (Core × FlagBits) :=
  match swEntry x port vc t.tag with
  | none => none
  | some (idx, w) =>
    let ch := chainOf x vc idx w
    let qs := swKeys x.id w
    let key := QKey.link x.id port vc
    let waiting := (shaperAt x (outPlace idx)).fill.length
    let idle := waiting == 0
    if othersWait x port vc idx || (!idle && !chainTakes ch waiting) then none
    else if ch.isEmpty then if allRoom k qs then some (pushAll (popTok k key) qs (.tok t), 0) else none
    else
      let r := runChain L ch x [t]
      let next (x : Router) : Core := modRouter (popTok k key) x.id fun _ => x
      match r.1 with
      | [] => some (next r.2.1, r.2.2)
      | y :: ys =>
        if holdsBlocks ch then some (next (holdOut r.2.1 idx (y :: ys)), r.2.2)
        else if allRoom k qs then some (pushAll (next (holdOut r.2.1 idx ys)) qs (.tok y), r.2.2)
        else none

/-- A round marker moves on to every output of every entry of its port and VC, once the filters there are frozen and
nothing waits behind them (R397). -/
def hopMarker (k : Core) (x : Router) (port : Fin 5) (vc : Fin 4) (es : List (Nat × Word)) : Option Core :=
  let quiet := es.all fun e => (shaperAt x (outPlace e.1)).fill.isEmpty &&
    (swFlen e.2 == 0 || k.frozen.contains (.filter x.id e.1))
  let qs := (es.flatMap fun e => swKeys x.id e.2).eraseDups
  if quiet && allRoom k qs then some (pushAll (popTok k (.link x.id port vc)) qs .marker) else none

/-- ROUTER_HOP (R35): one token of an input port and VC moves. -/
def execRouterHop (c : CoreId) (r : RouterId) (port : Fin 5) (vc : Fin 4) (s : State) : Out :=
  .next (match holderOf s c, routerAt (coreAt s c) r with
    | some l, some x =>
      if !maySteps s l then s
      else
        let k := coreAt s c
        let es := swFor x port vc
        match hopPending k x es with
        | some k1 => active (modCore s c fun _ => k1) c
        | none => match queueAt k (.link r port vc) with
          | .tok t :: _ => match hopHead (levels l.recd) k x port vc t with
            | some (k1, fl) => mergeFlags (active (modCore s c fun _ => k1) c) c fl
            | none => s
          | .marker :: _ => match hopMarker k x port vc es with
            | some k1 => active (modCore s c fun _ => k1) c
            | none => s
          | [] => s
    | _, _ => s)

/-- CONTROL_HOP (R80): one control token of an input port moves to every output of its entry. -/
def execControlHop (c : CoreId) (r : RouterId) (port : Fin 5) (sub : Fin 4) (s : State) : Out :=
  .next (match routerAt (coreAt s c) r with
    | some x =>
      let k := coreAt s c
      let key := QKey.ctl r port (if port = 4 then sub else 0)
      match cqueueAt k key, ctEntry x port sub with
      | t :: _, some w =>
        let qs := (ctOuts w).filterMap fun o => outCkey r o (ctOloc w)
        if coreSteps s c && qs.all (hasCroom k) then
          active (modCore s c fun k => qs.foldl (fun k q => pushCtl k q t) (popCtl k key)) c
        else s
      | _, _ => s
    | none => s)

/-! ## Rings and enlargement (R86, R89) -/

/-- RING_STEP (R89): a ring advances one slot as one, or holds while the head cannot take the arriving token. -/
def execRingStep (c : CoreId) (n : Nat) (s : State) : Out :=
  .next (match (coreAt s c).rings[n]? with
    | some r =>
      let k := coreAt s c
      if !coreSteps s c || k.frozen.contains (.ring n) then s
      else
        let turn (k : Core) : Core := modRing k n fun x => { x with slots := none :: x.slots.dropLast }
        match r.slots.getLast? with
        | some (some t) =>
          let q := QKey.pe r.head r.hport
          if hasRoom k q then active (modCore s c fun k => pushTok (turn k) q (.tok t)) c else s
        | _ => if r.slots.any (·.isSome) then active (modCore s c turn) c else modCore s c turn
    | none => s)

/-- The place of a queue in the order of R86: PEs, MTs, AG edge routers; within one, ports and VCs ascending, of the
element's own data queues, its condition or message queues, its router's data buffers and its control buffers, in that order
(log entry 70). -/
def queueOrder : QKey → Nat
  | .pe pe p => pe.val * 100 + p.val
  | .pec pe p => pe.val * 100 + 4 + p.val
  | .link r p v => routerPlace r + 10 + p.val * 4 + v.val
  | .ctl r p v => routerPlace r + 40 + p.val * 4 + v.val
  | .mt m p => (128 + m.val) * 100 + p.val
  | .edge k v => (160 + k.val) * 100 + v.val
  | .post k => (160 + k.val) * 100 + 4
where
  /-- A router's element. -/
  routerPlace (r : RouterId) : Nat := r.val * 100

/-- The full queue of smallest capacity, the first in order among equals (R86). -/
def smallestFull (k : Core) : Option QKey :=
  let full := (k.queues.filter fun e => e.2.length ≥ capacity k e.1).map (·.1) ++
    (k.cqueues.map (·.1)).filterMap fun q => if hasCroom k q then none else some (ctlBuffer q)
  full.foldl (fun (m : Option QKey) q =>
    match m with
    | none => some q
    | some x =>
      if capacity k q < capacity k x || (capacity k q == capacity k x && queueOrder q < queueOrder x) then some q
      else some x) none

end Sys2Proof.Machine
end

