-- ==== Sys2Proof/Machine/Copy.lean ====
section
/-! DEFINITION. The copy engine (R146 to R151, R155 to R159, R337 to R340, R421): compressed pages, COPY and COPYC with
local and remote ends, TLD, TST, TCLR, MLDB and SPLD when they start, and the follow-on MMA. -/

namespace Sys2Proof.Machine
open Sys2Proof

/-! ## Compressed pages (R146 to R148) -/

/-- The words of 32 bits of a block. -/
def blockWords (bs : List Byte) : List Nat := (List.range (bs.length / 4)).map fun i => natLE ((bs.drop (4 * i)).take 4)

/-- Words at the set bits of a bitmap, in order; 0 elsewhere. -/
def spreadWords : List Bool → List Nat → List Nat
  | [], _ => []
  | false :: bs, ws => 0 :: spreadWords bs ws
  | true :: bs, [] => 0 :: spreadWords bs []
  | true :: bs, w :: ws => w :: spreadWords bs ws

/-- The 4 KiB that a slot stands for (R147). -/
def readSlot (marker : Nat) (listed : Bool) (slot : List Byte) : List Byte :=
  let last := natLE (slot.drop 4088)
  if last = marker then
    let bits := (slot.take 128).flatMap fun b => (List.range 8).map fun i => b.getLsbD i
    (spreadWords bits (blockWords ((slot.drop 128).take 3952))).flatMap (bytesLE 4)
  else if listed then slot.take 4088 ++ (slot.drop 4088).map (~~~ ·)
  else slot

/-- How a block is stored: its slot, and whether its address enters the exception table (R146, R147). -/
def writeSlot (marker : Nat) (block : List Byte) : List Byte × Bool :=
  let ws := blockWords block
  let nz := (ws.filter (· != 0)).length
  if nz ≤ 988 then
    let bitmap := (List.range 128).map fun i =>
      BitVec.ofNat 8 (((List.range 8).map fun b => if (ws[8 * i + b]?).getD 0 != 0 then 2 ^ b else 0).sum)
    let body := (ws.filter (· != 0)).flatMap (bytesLE 4)
    (bitmap ++ body ++ List.replicate (4080 - 128 - body.length) 0 ++ bytesLE 8 nz ++ bytesLE 8 marker, false)
  else if natLE (block.drop 4088) = marker then (block.take 4088 ++ (block.drop 4088).map (~~~ ·), true)
  else (block, false)

/-- The marker of the die that holds a location. -/
def markerOf (s : State) (loc : Nat) : Nat := (Config.marker s.bootCount (locDie loc)).toNat
/-- Whether a slot's address is in its die's exception table. -/
def excListed (s : State) (loc : Nat) : Bool := (dieAt s (locDie loc)).excs.contains loc

/-- Whether the slot that a load of a command sees is one of the exception table's: that of the store it takes the slot
from, or the table's own word on it. -/
def excSeen (s : State) (g : Eng) (slot : Nat) : Bool :=
  match storeSeen s g slot with
  | some a => a.exc.getD false
  | none => excListed s slot

/-- The bytes of a piece, through its page's compression. -/
def pieceBytes (s : State) (g : Eng) (x : Piece) : List Byte :=
  if x.r.cmp then
    let b0 := x.loc / 4096
    let blocks := (List.range ((x.loc + x.len - 1) / 4096 - b0 + 1)).flatMap fun i =>
      let slot := (b0 + i) * 4096
      readSlot (markerOf s slot) (excSeen s g slot) (engBytes s g slot 4096)
    (blocks.drop (x.loc % 4096)).take x.len
  else engBytes s g x.loc x.len

/-- Whether a command is a copy, which alone moves a versioned window's bytes (R132); COPYC runs a list of them (log entry
46). -/
def isCopy (g : Eng) : Bool :=
  match g.i with
  | .copy _ | .copyc _ => true
  | _ => false

/-- Whether the copy engine may read a page: it alone reaches a COMPRESS page (R148), and a copy a versioned window
(R132). -/
def copyReads (g : Eng) (r : Rights) : Bool := r.rd && (isCopy g || !r.ver)
/-- Whether it may write a page; no loaded code page (R222). -/
def copyWrites (s : State) (g : Eng) (loc : Nat) (r : Rights) : Bool :=
  r.wr && (isCopy g || !r.ver) && !onCodeLoc s loc

/-- What a read of a slot of a COMPRESS page transfers (R146): of a compressed block the last 64 bytes and the bursts that hold
its bitmap and its words, of any other all of it. -/
def slotBursts (marker : Nat) (slot : List Byte) : List (Nat × Nat) :=
  if natLE (slot.drop 4088) = marker then
    let n := (128 + 4 * natLE ((slot.drop 4080).take 8) + 63) / 64 * 64
    [(0, min n 4032), (4032, 64)]
  else [(0, 4096)]

/-- The pieces that reading a piece transfers, through its page's compression. -/
def pieceReads (s : State) (g : Eng) (x : Piece) : List Piece :=
  if x.r.cmp then
    let b0 := x.loc / 4096
    (List.range ((x.loc + x.len - 1) / 4096 - b0 + 1)).flatMap fun i =>
      let slot := (b0 + i) * 4096
      (slotBursts (markerOf s slot) (engBytes s g slot 4096)).map fun y => ⟨x.va + (slot + y.1) - x.loc, slot + y.1, y.2, x.r⟩
  else [x]

/-- Memory read by the copy engine. -/
def copyRead (s : State) (g : Eng) (va n : Nat) : List Byte ⊕ EngFault :=
  match spanFrom s (.engine g.id) g.who.core g.ctx (fun _ r _ => copyReads g r) (n / 65536 + 2) va n with
  | .inr f => .inr f
  | .inl xs =>
    match piecesHeld s g.who.core g.ctx (xs.flatMap (pieceReads s g)) with
    | some f => .inr f
    | none => .inl (xs.flatMap (pieceBytes s g))

/-- The pieces that the copy engine writes. -/
def copyTarget (s : State) (g : Eng) (va n : Nat) : List Piece ⊕ EngFault :=
  spanFrom s (.engine g.id) g.who.core g.ctx (fun _ r loc => copyWrites s g loc r) (n / 65536 + 2) va n

/-- The ALIGN of the first piece of a range on a COMPRESS page that does not cover whole blocks (R148), or the miss met
before it. -/
def blockMisfit (s : State) (g : Eng) : Nat → Nat → Nat → Option EngFault
  | 0, _, _ => none
  | fuel + 1, va, n =>
    if n = 0 then none
    else
      let here := min n (65536 - va % 65536)
      match engAddr s (.engine g.id) g.who.core g.ctx va with
      | .miss => some ⟨.translation, BitVec.ofNat 64 va, 0, .miss⟩
      | .ok _ r => if r.cmp && (va % 4096 != 0 || here % 4096 != 0) then some ⟨.align, BitVec.ofNat 64 va, 0, .fault⟩
        else blockMisfit s g fuel (va + here) (n - here)
      | .bad _ _ => blockMisfit s g fuel (va + here) (n - here)

/-- Stores of a command from a location, in bursts of 64 bytes. -/
def storeBytes (s : State) (g : Eng) (va loc : Nat) (bs : List Byte) : State :=
  (bursts (bs.length + 1) va bs).foldl (fun s x => issue s (engAccess g .store x.1 (loc + (x.1 - va)) x.2)) s

/-- One block written to a COMPRESS page: its slot leaves whole, as one store (R146, R147). -/
def writeBlock (s : State) (g : Eng) (va loc : Nat) (block : List Byte) : State :=
  let r := writeSlot (markerOf s loc) block
  issue s { engAccess g .store va loc r.1 with exc := some r.2 }

/-- The blocks of a piece written one after another. -/
def writeBlocks (s : State) (g : Eng) : Nat → Nat → Nat → List Byte → State
  | 0, _, _, _ => s
  | fuel + 1, va, loc, bs =>
    if bs.isEmpty then s
    else writeBlocks (writeBlock s g va loc (bs.take 4096)) g fuel (va + 4096) (loc + 4096) (bs.drop 4096)

/-- Bytes written over the pieces of a range. -/
def writePieces (g : Eng) : List Piece → List Byte → State → State
  | [], _, s => s
  | x :: xs, bs, s =>
    writePieces g xs (bs.drop x.len)
      (if x.r.cmp then writeBlocks s g (x.len / 4096 + 1) x.va x.loc (bs.take x.len)
       else storeBytes s g x.va x.loc (bs.take x.len))

/-! ## Tiles and the weight store (R150, R151, R156) -/

/-- A tile's bytes. -/
def tileBytes (s : State) (c : CoreId) (t : Fin 16) (n : Nat) : List Byte := memGetN s.mem (tileLoc c t) n

/-- Bytes written into a tile from byte 0, with its tag. -/
def writeTile (s : State) (c : CoreId) (t : Fin 16) (tag : Fmt) (bs : List Byte) : State :=
  modCore (rawStore s (tileLoc c t) bs) c fun k => { k with tiles := put k.tiles t tag }

/-- The sparse-valid marks without those whose block, or metadata half, a write touches (R156). -/
def clearSparse (marks : List (Nat × Nat)) (off n : Nat) : List (Nat × Nat) :=
  marks.filter fun m => n == 0 || !(m.1 * 16384 < off + n && off < m.1 * 16384 + 32768)

/-- Bytes written into the weight-store slice (R151, R156). -/
def writeWeight (s : State) (c : CoreId) (off : Nat) (bs : List Byte) : State :=
  modCore (rawStore s (weightLoc c + off) bs) c fun k =>
    { k with sparse := clearSparse k.sparse off bs.length }

/-! ## COPY and COPYC (R337, R338, R421) -/

/-- One copy: kinds 0 MEMORY, 1 TILE, 2 WEIGHT, 3 REMOTE. -/
structure CopyOp where
  sk : Nat
  src : Nat
  dk : Nat
  dst : Nat
  n : Nat
  tfmt : Nat
  deriving DecidableEq, Repr

/-- The number of a tile operand. -/
def tileOf : Operand → Option (Fin 16)
  | .t r => some r
  | _ => none

/-- The copy that a COPY word asks for. -/
def copyOf (f : EngForm) (g : Eng) : CopyOp where
  sk := (f.cfl.extractLsb' 6 2).toNat
  src := match tileOf f.a with | some t => t.val | none => g.a.toNat
  dk := (f.cfl.extractLsb' 8 2).toNat
  dst := match tileOf f.d with | some t => t.val | none => g.d.toNat
  n := g.b.toNat
  tfmt := (f.cfl.extractLsb' 2 4).toNat

/-- The copy of a COPYC descriptor. -/
def copyOfDesc (ds : List DWord) (i : Nat) : CopyOp where
  sk := field (dw ds (4 * i + 2)) 29 28
  src := if field (dw ds (4 * i + 2)) 29 28 = 1 then field (dw ds (4 * i)) 3 0 else field (dw ds (4 * i)) 51 0
  dk := field (dw ds (4 * i + 2)) 31 30
  dst := if field (dw ds (4 * i + 2)) 31 30 = 1 then field (dw ds (4 * i + 1)) 3 0 else field (dw ds (4 * i + 1)) 51 0
  n := field (dw ds (4 * i + 2)) 63 32
  tfmt := field (dw ds (4 * i + 2)) 27 24

/-- Whether a descriptor's reserved fields are zero. -/
def descPlain (ds : List DWord) (i : Nat) : Bool :=
  field (dw ds (4 * i)) 63 52 == 0 && field (dw ds (4 * i + 1)) 63 52 == 0 && field (dw ds (4 * i + 2)) 23 0 == 0 &&
  dw ds (4 * i + 3) == 0

/-- The remote descriptor at an address (R421): its fault, if it has one. Reserved bits are ignored (R6); that a JOB of 0
is an illegal operand is the model's choice (log entry 83). -/
def remoteFault (s : State) (g : Eng) (addr : Nat) : Option EngFault :=
  let bad : Option EngFault := some ⟨.illegalOperand, BitVec.ofNat 64 addr, 0, .fault⟩
  if addr % 32 ≠ 0 then some ⟨.align, BitVec.ofNat 64 addr, 0, .fault⟩
  else match engRead s g addr 32 with
    | .inr e => some e
    | .inl bs =>
      let ds := dwordsOf bs
      if field (dw ds 2) 11 0 != 0 && s.peers.any (·.pkg == field (dw ds 0) 63 48) then none else bad

/-- The checks of R337 on one copy, in their order. -/
def copyFault (s : State) (g : Eng) (follow : Bool) (o : CopyOp) : Option EngFault :=
  let bad : Option EngFault := some ⟨.illegalOperand, 0, 0, .fault⟩
  if o.sk = 2 ∨ (o.sk = 3 ∧ o.dk ≠ 0) ∨ (o.dk = 3 ∧ o.sk ≠ 0) then bad
  else if follow && o.dk != 1 && o.dk != 2 then bad
  else if ((o.sk = 1 ∨ o.dk = 1) ∧ o.n > 16384) ∨ (o.dk = 2 ∧ o.dst + o.n > 0xC00000) ∨ (o.dk ≠ 1 ∧ o.tfmt ≠ 0) then bad
  else if o.tfmt > 10 then some ⟨.tagMismatch, 0, 0, .fault⟩
  else match (if o.dk = 0 then blockMisfit s g (o.n / 65536 + 2) o.dst o.n else none) with
    | some e => some e
    | none =>
      let rd := if o.sk = 0 then (match copyRead s g o.src o.n with | .inr e => some e | .inl _ => none)
        else if o.sk = 3 then remoteFault s g o.src else none
      let wr := if o.dk = 0 then (match copyTarget s g o.dst o.n with | .inr e => some e | .inl _ => none)
        else if o.dk = 3 then remoteFault s g o.dst else none
      rd.or wr

/-- The source bytes of a copy whose checks have passed. -/
def copySource (s : State) (g : Eng) (o : CopyOp) : List Byte :=
  if o.sk = 1 then tileBytes s g.who.core (Fin.ofNat 16 o.src) o.n
  else match copyRead s g o.src o.n with
    | .inl bs => bs
    | .inr _ => []

/-- Bytes put at a copy's destination. -/
def copySink (s : State) (g : Eng) (o : CopyOp) (bs : List Byte) : State :=
  if o.dk = 1 then writeTile s g.who.core (Fin.ofNat 16 o.dst) ((fmtOf (BitVec.ofNat 4 o.tfmt)).getD .raw) bs
  else if o.dk = 2 then writeWeight s g.who.core o.dst bs
  else match copyTarget s g o.dst o.n with
    | .inl ps => writePieces g ps bs s
    | .inr _ => s

/-- A copy that waits for the answer of its remote end, as a command keeps it. -/
def keepCopy (o : CopyOp) : List DWord :=
  [BitVec.ofNat 64 o.src, BitVec.ofNat 64 o.dst, BitVec.ofNat 64 (o.dk * 2 ^ 30 + o.sk * 2 ^ 28 + o.tfmt * 2 ^ 24),
    BitVec.ofNat 64 o.n]

/-- The i-th of such copies. -/
def keptCopy (ds : List DWord) (i : Nat) : CopyOp where
  sk := field (dw ds (4 * i + 2)) 29 28
  src := (dw ds (4 * i)).toNat
  dk := field (dw ds (4 * i + 2)) 31 30
  dst := (dw ds (4 * i + 1)).toNat
  n := (dw ds (4 * i + 3)).toNat
  tfmt := field (dw ds (4 * i + 2)) 27 24

/-- The copies of a command in list order, up to a remote one, which waits for its acknowledgement with those behind it
kept; after the last the command has landed and its claims end. -/
def runCopies (g : Eng) : List CopyOp → State → State
  | [], s => endClaims (landed s g.id) g.who.core g.id
  | o :: os, s =>
    if o.sk = 3 ∨ o.dk = 3 then
      modEng s g.id fun g => { g with stage := .started, desc := (o :: os).flatMap keepCopy }
    else runCopies g os (copySink s g o (copySource s g o))

/-- A TILE kind goes with a t operand and a t operand with a TILE kind (R337 check 1). -/
def kindFits (o : Operand) (kind : Nat) : Bool := (tileOf o).isSome == (kind == 1)

/-- COPY starts (R337). -/
def startCopy (f : EngForm) (s : State) (g : Eng) : Start :=
  let o := copyOf f g
  if !kindFits f.a o.sk || !kindFits f.d o.dk then badStart .illegalOperand 0
  else match copyFault s g f.follow o with
    | some e => .trap e
    | none => .go (runCopies g [o] s)

/-- The dwords of a COPYC list, read and checked. -/
def copyList (s : State) (g : Eng) : List DWord ⊕ EngFault :=
  let addr := g.a.toNat
  let n := g.b.toNat
  if addr % 32 ≠ 0 then .inr ⟨.align, g.a, 0, .fault⟩
  else if n = 0 ∨ n > 64 then .inr ⟨.illegalOperand, g.a, 0, .fault⟩
  else match engRead s g addr (32 * n) with
    | .inr e => .inr e
    | .inl bs => .inl (dwordsOf bs)

/-- COPYC starts (R338): every descriptor of the list, which it has read under its acquire, is checked before any byte
moves. -/
def startCopyc (f : EngForm) (s : State) (g : Eng) : Start :=
  let n := g.b.toNat
  match (List.range n).find? fun i => !descPlain g.desc i with
  | some i => badStart .illegalOperand (g.a.toNat + 32 * i)
  | none =>
    let os := (List.range n).map (copyOfDesc g.desc)
    match os.findSome? (copyFault s g f.follow) with
    | some e => .trap e
    | none => .go (runCopies g os s)

/-- Whether an answer is one that a copy's remote end can give: of a read, as many bytes as it asked for. -/
def remoteFits (g : Eng) (r : RemoteReply) : Bool :=
  let o := keptCopy g.desc 0
  match r with
  | .ok data => o.dk == 3 || data.length == o.n
  | _ => true

/-- What a remote burst's answer brings (R421): data for a remote source, the end of a remote write, or a fault. -/
def remoteAnswer (s : State) (g : Eng) (r : RemoteReply) : State :=
  let o := keptCopy g.desc 0
  let rest := (List.range (g.desc.length / 4 - 1)).map fun i => keptCopy g.desc (i + 1)
  let addr := BitVec.ofNat 64 (if o.sk = 3 then o.src else o.dst)
  match r with
  | .error => engRaise s g ⟨.protection, addr, 0, .fault⟩
  | .lost => raise .uncorrectable g.who addr 0 s
  | .ok data =>
    if o.dk = 3 then runCopies g rest s else runCopies g rest (copySink s g o data)

/-- REMOTE_ACK (R421). The answer itself is no progress event (R393). -/
def execRemoteAck (c : CoreId) (id : Nat) (r : RemoteReply) (s : State) : Out :=
  .next (match engBy s id with
    | some g =>
      let chain := match g.q with | .chain _ => true | _ => false
      let live := match launchBy s g.who.launch with | some l => isLive l.phase | none => false
      if g.who.core == c && g.stage == .started && !g.desc.isEmpty && chain && live && remoteFits g r then
        active (remoteAnswer s g r) c
      else s
    | none => s)

/-! ## TLD, TST, TCLR, MLDB, SPLD (R339, R340) -/

/-- The address of row i: A + i · stride, as a 64-bit sum. -/
def rowAddr (a stride : DWord) (i : Nat) : Nat := (a + BitVec.ofNat 64 i * stride).toNat

/-- Rows read at a stride, in order; the first fault stops. -/
def readRows (s : State) (g : Eng) (stride : DWord) : Nat → Nat → List Byte ⊕ EngFault
  | 0, _ => .inl []
  | n + 1, i =>
    match copyRead s g (rowAddr g.a stride i) 128 with
    | .inr e => .inr e
    | .inl bs => match readRows s g stride n (i + 1) with
      | .inr e => .inr e
      | .inl more => .inl (bs ++ more)

/-- TLD starts (R339). -/
def startTld (f : EngForm) (s : State) (g : Eng) : Start :=
  let r := g.c.toNat
  let tag := (fmtOf (f.cfl.extractLsb' 2 4)).getD .raw
  match tileOf f.d with
  | none => badStart .illegalOperand 0
  | some t =>
    if r = 0 ∨ r > 128 then badStart .illegalOperand g.a.toNat
    else match readRows s g g.b r 0 with
      | .inr e => .trap e
      | .inl bs =>
        .go (endClaims (landed (writeTile s g.who.core t tag (bs ++ List.replicate (16384 - bs.length) 0)) g.id)
          g.who.core g.id)

/-- The pieces of every row that a TST writes; a COMPRESS page raises PROTECTION. -/
def tstRows (s : State) (g : Eng) : Nat → Nat → List Piece ⊕ EngFault
  | 0, _ => .inl []
  | n + 1, i =>
    match spanFrom s (.engine g.id) g.who.core g.ctx (fun _ r loc => copyWrites s g loc r && !r.cmp) 3 (rowAddr g.d g.b i) 128 with
    | .inr e => .inr e
    | .inl ps => match tstRows s g n (i + 1) with
      | .inr e => .inr e
      | .inl more => .inl (ps ++ more)

/-- TST starts (R339): the tile is read at once, and its rows go out as stores. -/
def startTst (f : EngForm) (s : State) (g : Eng) : Start :=
  let r := g.c.toNat
  match tileOf f.a with
  | none => badStart .illegalOperand 0
  | some t =>
    if r = 0 ∨ r > 128 then badStart .illegalOperand g.d.toNat
    else match tstRows s g r 0 with
      | .inr e => .trap e
      | .inl ps =>
        .go (endClaims (landed (writePieces g ps (tileBytes s g.who.core t (128 * r)) s) g.id) g.who.core g.id)

/-- TCLR starts (R339, R150). -/
def startTclr (f : EngForm) (s : State) (g : Eng) : Start :=
  match tileOf f.d with
  | none => badStart .illegalOperand 0
  | some t => .go (endClaims (landed (writeTile s g.who.core t .raw (List.replicate 16384 0)) g.id) g.who.core g.id)

/-- Whether a format is one of the matrix array's (R149). -/
def matrixFmt : Fmt → Bool
  | .i8 | .t8 | .t6 | .fp16 | .bf16 => true
  | _ => false

/-- Whether a matrix format is of 16 bits. -/
def wideFmt : Fmt → Bool
  | .fp16 | .bf16 => true
  | _ => false

/-- The bytes of a B block from rows of 128 bytes (R151, R339): element (k, n) at n · 128 + k, or + 2k. -/
def blockOfRows (wide : Bool) (rows : List Byte) : List Byte :=
  if wide then
    ((List.range 64).flatMap fun n => (List.range 64).flatMap fun k => (rows.drop (128 * k + 2 * n)).take 2) ++
      List.replicate 8192 0
  else (List.range 128).flatMap fun n => (List.range 128).map fun k => (rows[128 * k + n]?).getD 0

/-- MLDB starts (R339). -/
def startMldb (f : EngForm) (s : State) (g : Eng) : Start :=
  let w := g.d.toNat
  let fmt := (fmtOf (f.cfl.extractLsb' 2 4)).getD .raw
  if !matrixFmt fmt then badStart .illegalOperand 0
  else if w + 16384 > 0xC00000 then badStart .illegalOperand w
  else if w % 16384 ≠ 0 then badStart .align w
  else match readRows s g g.b (if wideFmt fmt then 64 else 128) 0 with
    | .inr e => .trap e
    | .inl rows =>
      .go (endClaims (landed (writeWeight s g.who.core w (blockOfRows (wideFmt fmt) rows)) g.id) g.who.core g.id)

/-- A metadata code: entry j of column n (R155). -/
def metaCode (md : List Byte) (n j : Nat) : Nat :=
  let b := ((md[n * 64 + j / 2]?).getD 0).toNat
  if j % 2 = 0 then b % 16 else b / 16

/-- The first entry at which a group of N codes fails (R156): `prev` is the last position, none before the first. -/
def groupFail (md : List Byte) (n : Nat) : Nat → Nat → Option Nat → Bool → Option Nat
  | 0, _, _, _ => none
  | k + 1, j, prev, gap =>
    let c := metaCode md n j
    if c > 8 then some j
    else if c = 8 then groupFail md n k (j + 1) prev true
    else if gap then some j
    else match prev with
      | some p => if c ≤ p then some j else groupFail md n k (j + 1) (some c) false
      | none => groupFail md n k (j + 1) (some c) false

/-- The first metadata byte that fails the check of R156. -/
def metaFail (md : List Byte) (N : Nat) : Option Nat :=
  (List.range 128).findSome? fun n => (List.range (128 / N)).findSome? fun gr =>
    (groupFail md n N (gr * N) none false).map fun j => n * 64 + j / 2

/-- SPLD starts (R340). -/
def startSpld (f : EngForm) (s : State) (g : Eng) : Start :=
  let w := g.d.toNat
  let N := if f.cfl.getLsbD 0 then 4 else 2
  if w % 16384 ≠ 0 then badStart .align w
  else if w + 32768 > 0xC00000 then badStart .illegalOperand w
  else match copyRead s g g.a.toNat 32768 with
    | .inr e => .trap e
    | .inl bs => match metaFail ((bs.drop 16384).take 8192) N with
      | some i => .trap ⟨.sparseMeta, BitVec.ofNat 64 (g.a.toNat + 16384 + i), BitVec.ofNat 64 w, .fault⟩
      | none =>
        let s1 := modCore (writeWeight s g.who.core w bs) g.who.core fun k =>
          { k with sparse := k.sparse ++ [(w / 16384, N)] }
        .go (endClaims (landed s1 g.id) g.who.core g.id)

end Sys2Proof.Machine
end

