-- ==== Sys2Proof/Machine/Matrix.lean ====
section
/-! DEFINITION. The matrix array (R113 to R117, R149 to R162, R341 to R344): exact accumulation, the normaliser, raw
images, and MMA and MNORM when they start. -/

namespace Sys2Proof.Machine
open Sys2Proof

/-! ## Accumulators (R113 to R115) -/

/-- The columns of a format, which are also its k per tile row (R152). -/
def matCols (f : Fmt) : Nat := if wideFmt f then 64 else 128

/-- The weight exponent of bit 0 of a fixed accumulator (R113). -/
def fixedAnchor : Fmt → Int
  | .t8 => -24
  | .t6 => -16
  | .fp16 => -48
  | _ => 0

/-- The largest product in units of bit 0 (R161). -/
def largestProduct : Fmt → Nat
  | .i8 => 2 ^ 14
  | .t8 => 2 ^ 48
  | .t6 => 2 ^ 32
  | _ => 2 ^ 80

/-- The limit on a row's count; BF16 has none (R161). -/
def countLimit : Fmt → Option Nat
  | .i8 => some (2 ^ 112)
  | .t8 => some (2 ^ 78)
  | .t6 => some (2 ^ 94)
  | .fp16 => some (2 ^ 46)
  | _ => none

/-- An entry that holds nothing. -/
def AccEntry.zeroOf (f : Fmt) : AccEntry :=
  ⟨0, BitVec.ofInt 32 (fixedAnchor f), f == .bf16, false, false, false⟩

/-- An element of an operand as a value; T6 uses the low six bits of its byte (R150). -/
def matValue (f : Fmt) (bits : Nat) : FVal :=
  match f with
  | .i8 => let x := signedOf 8 (bits % 256); .fin (decide (x < 0)) x.natAbs 0
  | .t8 => tapOf .t8 (bits % 256)
  | .t6 => tapOf .t6 (bits % 64)
  | f => ieeeOf f (bits % 65536)

/-- What one product brings: a finite value v · 2^e, or a special. -/
inductive Product where
  | fin (v : Int) (e : Int)
  | nan (nv : Bool)
  | inf (neg : Bool)
  deriving DecidableEq, Repr

/-- One product (R114). -/
def product (a b : FVal) : Product :=
  if isNaN a || isNaN b || a == .nar || b == .nar then .nan (isSignalling a || isSignalling b)
  else match a, b with
    | .fin s m e, .fin t n d => .fin (if s == t then (m * n : Nat) else -((m * n : Nat) : Int)) (e + d)
    | .inf s, .fin t n _ => if n = 0 then .nan true else .inf (s != t)
    | .fin s m _, .inf t => if m = 0 then .nan true else .inf (s != t)
    | .inf s, .inf t => .inf (s != t)
    | _, _ => .nan false

/-- v · 2^k rounded down to an integer. -/
def scaleFloor (v k : Int) : Int := if k ≥ 0 then v * 2 ^ k.toNat else v / 2 ^ (-k).toNat

/-- The sticky bits of a special (R114). -/
def accSpecial (x : AccEntry) : Product → AccEntry × FlagBits
  | .nan nv => ({ x with nan := true }, flagIf nv flNV)
  | .inf neg => (if neg then { x with ninf := true } else { x with pinf := true }, 0)
  | .fin _ _ => (x, 0)

/-- A value added to a fixed accumulator (R113). -/
def accFixed (f : Fmt) (x : AccEntry) (v e : Int) : AccEntry :=
  { x with val := x.val + BitVec.ofInt 128 (scaleFloor v (e - fixedAnchor f)) }

/-- A group of value v · 2^e entered into a floating accumulator (R115); an anchor is kept modulo 2^32 (log entry 89). -/
def accGroup (x : AccEntry) (v e : Int) : AccEntry :=
  if v = 0 then x
  else
    let a : Int := (Nat.log2 v.natAbs : Int) + e - 100
    let A := x.anch.toInt
    let V := x.val.toInt
    let r : Int × Int := if x.empty then (0, a) else if a > A then (scaleFloor V (A - a), a) else (V, A)
    let V' := r.1 + scaleFloor v (e - r.2)
    if V'.natAbs ≥ 2 ^ 126 then { x with val := BitVec.ofInt 128 (V' / 2), anch := BitVec.ofInt 32 (r.2 + 1), empty := false }
    else { x with val := BitVec.ofInt 128 V', anch := BitVec.ofInt 32 r.2, empty := false }

/-- The finite products of a list summed over a common exponent, and their specials entered. -/
def sumProducts (e0 : Int) : List Product → AccEntry → Int → AccEntry × Int × FlagBits
  | [], x, v => (x, v, 0)
  | .fin m e :: ps, x, v => sumProducts e0 ps x (v + scaleFloor m (e - e0))
  | p :: ps, x, v =>
    let r := accSpecial x p
    let q := sumProducts e0 ps r.1 v
    (q.1, q.2.1, r.2 ||| q.2.2)

/-- Groups of eight consecutive products, the last perhaps shorter. -/
def groupsOf8 : Nat → List Product → List (List Product)
  | 0, _ => []
  | fuel + 1, ps => if ps.isEmpty then [] else ps.take 8 :: groupsOf8 fuel (ps.drop 8)

/-- The exponent of the smallest BF16 product. -/
def bfUnit : Int := -266

/-- One column's products in ascending k added to its entry (R113 to R115). -/
def accumulate (f : Fmt) (x : AccEntry) (ps : List Product) : AccEntry × FlagBits :=
  if f == .bf16 then
    (groupsOf8 (ps.length + 1) ps).foldl (fun (r : AccEntry × FlagBits) g =>
      let q := sumProducts bfUnit g r.1 0
      (accGroup q.1 q.2.1 bfUnit, r.2 ||| q.2.2)) (x, 0)
  else
    let q := sumProducts (fixedAnchor f) ps x 0
    (accFixed f q.1 q.2.1 (fixedAnchor f), q.2.2)

/-- A row cleared for a format (R342). -/
def AccRow.clear (f : Fmt) : AccRow := ⟨fmtCode f, 0, []⟩

/-- A row as a command of a format finds it: one of another format is cleared first (R342). -/
def rowFor (f : Fmt) (r : AccRow) : AccRow := if r.fmt = fmtCode f then r else AccRow.clear f

/-- The chain count that a row holds, wide enough for the limits of R161 (log 52); only BF16, which has none, could fill it. -/
def chainCount (n : Nat) : BitVec 128 := BitVec.ofNat 128 (min n (2 ^ 128 - 1))

/-- A row with the entries of its first columns set; those of the columns beyond are not changed (R152). -/
def AccRow.set (r : AccRow) (f : Fmt) (count : Nat) (cells : List AccEntry) : AccRow :=
  ⟨fmtCode f, chainCount count, cells ++ r.entries.drop cells.length⟩

/-- A row's entry of a column. -/
def rowEntry (f : Fmt) (r : AccRow) (n : Nat) : AccEntry := (r.entries[n]?).getD (AccEntry.zeroOf f)

/-! ## MMA (R152, R153, R341, R342) -/

/-- An MMA descriptor taken apart. -/
structure MmaDesc where
  fmt : Option Fmt
  m : Nat
  ta : Nat
  bt : Bool
  tb : Nat
  wb : Nat
  sp : Bool
  n : Nat
  zero : Bool
  plain : Bool           -- the field checks of R342 pass
  deriving DecidableEq, Repr

/-- The descriptor of R341. -/
def mmaDesc (d : DWord) : MmaDesc where
  fmt := fmtOf (BitVec.ofNat 4 (field d 63 60))
  m := field d 59 53 + 1
  ta := field d 52 49
  bt := bitOf d 48
  tb := field d 47 44
  wb := field d 43 20
  sp := bitOf d 19
  n := field d 18 16
  zero := bitOf d 15
  plain := field d 14 0 == 0 && (bitOf d 48 || field d 47 44 == 0) && (!bitOf d 48 || field d 43 20 == 0) &&
    (bitOf d 19 || field d 18 16 == 0)

/-- The A tiles of an MMA (R152); with SP for an N that does not divide 8 into 2 or 4, the quotient, and 1 for N = 0 (log entry 90). -/
def MmaDesc.tiles (x : MmaDesc) : Nat := if x.sp then (if x.n = 0 then 1 else 8 / x.n) else 1

/-- The regions that an MMA reads (R331). -/
def mmaRegions (d : DWord) : List (Region × Bool) :=
  let x := mmaDesc d
  let ts := (List.range x.tiles).filterMap fun i => if x.ta + i < 16 then some (Region.tile (Fin.ofNat 16 (x.ta + i))) else none
  let b := if x.bt then [Region.tile (Fin.ofNat 16 x.tb)] else blocksOf x.wb (if x.sp then 32768 else 16384)
  (ts ++ b).map fun r => (r, false)

/-- The logical k of an MMA. -/
def mmaDepth (x : MmaDesc) (f : Fmt) : Nat := if x.sp then matCols f * 8 / x.n else matCols f

/-- The first check of R342 and R153 that fails. -/
def mmaFault (k : Core) (x : MmaDesc) : Option EngFault :=
  let bad (c : FaultCode) : Option EngFault := some ⟨c, 0, 0, .fault⟩
  if !x.plain then bad .illegalOperand
  else match x.fmt with
    | none => bad .tagMismatch
    | some f =>
      if !matrixFmt f then bad .tagMismatch
      else if (List.range x.tiles).any (fun i => x.ta + i < 16 && at' k.tiles (Fin.ofNat 16 (x.ta + i)) != f) ||
          (x.bt && at' k.tiles (Fin.ofNat 16 x.tb) != f) then bad .tagMismatch
      else if x.ta + x.tiles - 1 > 15 then bad .illegalOperand
      else if x.sp && (f == .t6 || x.bt || (x.n != 2 && x.n != 4)) then bad .illegalOperand
      else if !x.bt && (x.wb > 0xBFFFFF || x.wb + (if x.sp then 32768 else 16384) > 0xC00000) then bad .illegalOperand
      else if !x.bt && x.wb % 16384 != 0 then bad .align
      else if x.sp && !k.sparse.contains (x.wb / 16384, x.n) then some ⟨.sparseMeta, 0, BitVec.ofNat 64 x.wb, .fault⟩
      else
        let past (r : AccRow) : Bool := match countLimit f with
          | some lim => decide (lim < (if x.zero then 0 else (rowFor f r).count.toNat) + mmaDepth x f)
          | none => false
        if (List.finRange 128).any fun i => decide (i.val < x.m) && past (at' k.accum i) then bad .illegalOperand
        else none

/-- An element of `sz` bytes in a byte string. -/
def elemAt (bs : List Byte) (off sz : Nat) : Nat := natLE ((bs.drop off).take sz)

/-- B(k, n) of an MMA from its block's bytes (R151, R152, R155): `md` is the metadata image of a sparse block. -/
def bElem (x : MmaDesc) (f : Fmt) (blk md : List Byte) (k n : Nat) : Nat :=
  let sz := if wideFmt f then 2 else 1
  if x.bt then elemAt blk (128 * k + sz * n) sz
  else if !x.sp then elemAt blk (128 * n + sz * k) sz
  else
    let g := k / 8
    match (List.range x.n).find? fun i => metaCode md n (g * x.n + i) == k % 8 with
    | some i => elemAt blk (128 * n + sz * (g * x.n + i)) sz
    | none => 0

/-- A(m, k): the tile of k, its row m. -/
def aElem (f : Fmt) (ts : List (List Byte)) (m k : Nat) : Nat :=
  let sz := if wideFmt f then 2 else 1
  elemAt ((ts[k / matCols f]?).getD []) (128 * m + sz * (k % matCols f)) sz

/-- The rows of an MMA after it, with the flags it raises (R152). -/
def mmaRows (s : State) (c : CoreId) (x : MmaDesc) (f : Fmt) : Vector AccRow 128 × FlagBits :=
  let k := coreAt s c
  let ts := (List.range x.tiles).map fun i => tileBytes s c (Fin.ofNat 16 (x.ta + i)) 16384
  let blk := if x.bt then tileBytes s c (Fin.ofNat 16 x.tb) 16384 else memGetN s.mem (weightLoc c + x.wb) 16384
  let md := if x.sp then memGetN s.mem (weightLoc c + x.wb + 16384) 16384 else []
  let kl := mmaDepth x f
  (List.finRange 128).foldl (fun (r : Vector AccRow 128 × FlagBits) m =>
    if m.val ≥ x.m then r
    else
      let row := if x.zero then AccRow.clear f else rowFor f (at' k.accum m)
      let cells := (List.range (matCols f)).map fun n =>
        accumulate f (rowEntry f row n) ((List.range kl).map fun j =>
          product (matValue f (aElem f ts m.val j)) (matValue f (bElem x f blk md j n)))
      (put r.1 m ((at' k.accum m).set f (row.count.toNat + kl) (cells.map (·.1))), cells.foldl (fun fl e => fl ||| e.2) r.2)) (k.accum, 0)

/-- MMA starts (R342): the descriptor is A's value, or of a follow-on the one captured with its COPY. -/
def startMma (s : State) (g : Eng) : Start :=
  let c := g.who.core
  let x := mmaDesc g.a
  match mmaFault (coreAt s c) x with
  | some e => .trap e
  | none =>
    let f := x.fmt.getD .i8
    let r := mmaRows s c x f
    .go (endClaims (landedWith (modCore s c fun k => { k with accum := r.1 }) g.id 0 r.2) c g.id)

/-! ## The normaliser (R116) and raw images (R117) -/

/-- The value of an entry, V · 2^anchor. -/
def entryValue (x : AccEntry) : Int × Int := (x.val.toInt, x.anch.toInt)

/-- An entry rounded to FP32 (R114, R116): an empty one gives +0. -/
def normFp32 (x : AccEntry) : Nat × FlagBits :=
  if x.nan then (ieeeNaN .fp32, 0)
  else if x.pinf && x.ninf then (ieeeNaN .fp32, flNV)
  else if x.pinf || x.ninf then (ieeeInf .fp32 x.ninf, 0)
  else
    let v := entryValue x
    if x.empty || v.1 = 0 then (0, 0)
    else roundIeee .plain .fp32 0 false (decide (v.1 < 0)) v.1.natAbs v.2 false

/-- An entry as I32 with saturation (R116); the sticky bits play no part in it (log entry 89). -/
def normI32 (x : AccEntry) : Nat × FlagBits := finishInt 32 false true x.val.toInt

/-- A raw image (R116). -/
def imageOf (f : Fmt) (x : AccEntry) : List Byte :=
  bytesLE 16 x.val.toNat ++ bytesLE 4 x.anch.toNat ++
    bytesLE 12 ((if x.pinf then 1 else 0) + (if x.ninf then 2 else 0) + (if x.nan then 4 else 0) +
      (if x.empty then 8 else 0) + (fmtCode f).toNat * 16)

/-- A raw image read back; `none` where R116 refuses it. EMPTY is BF16's alone. -/
def imageEntry (f : Fmt) (bs : List Byte) : Option AccEntry :=
  let top := natLE (bs.drop 20)
  let anch := BitVec.ofNat 32 (natLE ((bs.drop 16).take 4))
  if top / 256 ≠ 0 ∨ top / 16 % 16 ≠ (fmtCode f).toNat ∨ (f ≠ .bf16 ∧ anch ≠ BitVec.ofInt 32 (fixedAnchor f)) then none
  else some ⟨BitVec.ofNat 128 (natLE (bs.take 16)), anch, f == .bf16 && top / 8 % 2 == 1, top / 4 % 2 == 1, top / 2 % 2 == 1, top % 2 == 1⟩

/-- Two images of one format combined, the second entering the first (R117). A BF16 image that is EMPTY enters nothing,
whatever its VAL (log entry 52). -/
def combineImages (f : Fmt) (x y : AccEntry) : AccEntry :=
  let v := entryValue y
  let z := if f == .bf16 then (if y.empty then x else accGroup x v.1 v.2) else { x with val := x.val + y.val }
  { z with nan := x.nan || y.nan, ninf := x.ninf || y.ninf, pinf := x.pinf || y.pinf }

/-- What a row's images count (R161). -/
def imageCount (f : Fmt) (xs : List AccEntry) : Nat :=
  if f == .bf16 then 0
  else (xs.map fun x => (x.val.toInt.natAbs + largestProduct f - 1) / largestProduct f).foldl max 0

/-! ## MNORM (R343, R344) -/

/-- An MNORM descriptor taken apart. -/
structure NormDesc where
  fmt : Option Fmt
  mode : Nat             -- 0 FP32, 1 I32, 2 CSP, 3 LOAD, 4 ADD
  dk : Nat               -- 0 TILE, 1 MEMORY, 2 STREAM
  row0 : Nat
  m : Nat
  td : Nat
  edge : Nat
  vc : Nat
  plain : Bool
  deriving DecidableEq, Repr

/-- The descriptor of R343. -/
def normDesc (d : DWord) : NormDesc where
  fmt := fmtOf (BitVec.ofNat 4 (field d 63 60))
  mode := field d 59 57
  dk := field d 56 55
  row0 := field d 54 48
  m := field d 47 41 + 1
  td := field d 40 37
  edge := field d 36 33
  vc := field d 32 31
  plain := field d 30 0 == 0 && field d 59 57 ≤ 4 && field d 56 55 != 3 &&
    (field d 56 55 == 0 || field d 40 37 == 0) && (field d 56 55 == 2 || (field d 36 33 == 0 && field d 32 31 == 0)) &&
    field d 32 31 != 3

/-- The tiles that an MNORM fills. -/
def normTiles (x : NormDesc) : Nat := (x.m + 31) / 32

/-- The regions that an MNORM writes (R331). -/
def normRegions (d : DWord) : List (Region × Bool) :=
  let x := normDesc d
  if x.dk ≠ 0 then []
  else (List.range (normTiles x)).filterMap fun i =>
    if x.td + i < 16 then some (Region.tile (Fin.ofNat 16 (x.td + i)), true) else none

/-- The bytes of one element in memory. -/
def normSize (x : NormDesc) : Nat := if x.mode ≥ 2 then 32 else 4

/-- The rows that an MNORM names. -/
def normRowsOf (k : Core) (x : NormDesc) : List AccRow :=
  (List.finRange 128).filterMap fun i => if x.row0 ≤ i.val ∧ i.val < x.row0 + x.m then some (at' k.accum i) else none

/-- The first check of R344 that fails. -/
def normFault (k : Core) (f : EngForm) (g : Eng) (x : NormDesc) : Option EngFault :=
  let bad (c : FaultCode) : Option EngFault := some ⟨c, 0, 0, .fault⟩
  if !x.plain then bad .illegalOperand
  else match x.fmt with
    | none => bad .tagMismatch
    | some t =>
      if !matrixFmt t || (x.mode < 3 && (normRowsOf k x).any fun r => r.fmt != 0 && r.fmt != fmtCode t) then bad .tagMismatch
      else if x.row0 + x.m > 128 || (x.mode == 1 && t != .i8) || (x.mode ≥ 2 && x.dk != 1) ||
          (x.dk != 1 && (!isZero f.b || !isZero f.c)) then bad .illegalOperand
      else if x.dk == 0 && x.td + normTiles x - 1 > 15 then bad .illegalOperand
      else if x.dk == 1 && (g.b.toNat % normSize x != 0 || g.c.toNat % normSize x != 0) then
        some ⟨.align, if g.b.toNat % normSize x != 0 then g.b else g.c, 0, .fault⟩
      else none

/-- A row's elements in FP32 or I32 mode. -/
def normWords (t : Fmt) (mode : Nat) (r : AccRow) : List (Nat × FlagBits) :=
  (List.range (matCols t)).map fun n =>
    let e := rowEntry t (if r.fmt = 0 then AccRow.clear t else r) n
    if mode = 1 then normI32 e else normFp32 e

/-- One tile of 32 rows, 512 bytes to a row. -/
def normTileBytes (rows : List (List Nat)) : List Byte :=
  let bs := rows.flatMap fun r => let b := r.flatMap (bytesLE 4); b ++ List.replicate (512 - b.length) 0
  bs

/-- The address of accumulator row m of a memory form. -/
def normAddr (g : Eng) (m : Nat) : Nat := (g.b + BitVec.ofNat 64 m * g.c).toNat

/-- The pieces of every row of a memory form: `want` reads or writes. -/
def normPieces (s : State) (g : Eng) (want : Want) (n : Nat) : Nat → Nat → List (List Piece) ⊕ EngFault
  | 0, _ => .inl []
  | k + 1, m =>
    match engSpan s g want (normAddr g m) n with
    | .inr e => .inr e
    | .inl ps => match normPieces s g want n k (m + 1) with
      | .inr e => .inr e
      | .inl more => .inl (ps :: more)

/-- Rows of bytes stored at a memory form's addresses. -/
def storeRows (s : State) (g : Eng) (rows : List (List Byte)) : State :=
  ((List.range rows.length).zip rows).foldl (fun s r => engWrite s g (normAddr g r.1) r.2) s

/-- LOAD and ADD from images that have passed (R344). -/
def loadRows (k : Core) (x : NormDesc) (t : Fmt) (imgs : List (List AccEntry)) : Option (Vector AccRow 128) :=
  let rows := (List.range x.m).map fun m =>
    let es := (imgs[m]?).getD []
    let old := rowFor t (at' k.accum (Fin.ofNat 128 (x.row0 + m)))
    if x.mode = 3 then (imageCount t es, es)
    else (old.count.toNat + imageCount t es,
      ((List.range es.length).zip es).map fun e => combineImages t (rowEntry t old e.1) e.2)
  let past := rows.any fun r => match countLimit t with | some lim => decide (lim < r.1) | none => false
  if past then none
  else some (((List.range x.m).zip rows).foldl (fun v r =>
    let i : Fin 128 := Fin.ofNat 128 (x.row0 + r.1)
    put v i ((at' v i).set t r.2.1 r.2.2)) k.accum)

/-- LOAD and ADD start: all images are read and checked before a row changes. -/
def startLoad (s : State) (g : Eng) (x : NormDesc) (t : Fmt) : Start :=
  let c := g.who.core
  let nc := matCols t
  match normPieces s g .read (32 * nc) x.m 0 with
  | .inr e => .trap e
  | .inl ps => match piecesHeld s c g.ctx ps.flatten with
   | some f => .trap f
   | none =>
    let rows := ps.map fun row => row.flatMap fun p => engBytes s g p.loc p.len
    let imgs := rows.map fun bs => (List.range nc).map fun n => imageEntry t ((bs.drop (32 * n)).take 32)
    match imgs.mapM fun r => r.mapM id with
    | none => badStart .tagMismatch g.b.toNat
    | some es => match loadRows (coreAt s c) x t es with
      | none => badStart .illegalOperand g.b.toNat
      | some v => .go (landed (modCore s c fun k => { k with accum := v }) g.id)

/-- FP32, I32 and CSP to memory. -/
def startNormMem (s : State) (g : Eng) (x : NormDesc) (t : Fmt) : Start :=
  let rows := normRowsOf (coreAt s g.who.core) x
  match normPieces s g .write (normSize x * matCols t) x.m 0 with
  | .inr e => .trap e
  | .inl _ =>
    if x.mode = 2 then
      .go (landed (storeRows s g (rows.map fun r => (List.range (matCols t)).flatMap fun n =>
        imageOf t (rowEntry t (if r.fmt = 0 then AccRow.clear t else r) n))) g.id)
    else
      let ws := rows.map (normWords t x.mode)
      let fl := (ws.flatten.map (·.2)).foldl (· ||| ·) 0
      .go (landedWith (storeRows s g (ws.map fun r => r.flatMap fun w => bytesLE 4 w.1)) g.id 0 fl)

/-- FP32 and I32 to tiles (R162). -/
def startNormTile (s : State) (g : Eng) (x : NormDesc) (t : Fmt) : Start :=
  let c := g.who.core
  let ws := (normRowsOf (coreAt s c) x).map (normWords t x.mode)
  let fl := (ws.flatten.map (·.2)).foldl (· ||| ·) 0
  let s1 := (List.range (normTiles x)).foldl (fun s i =>
    writeTile s c (Fin.ofNat 16 (x.td + i)) (if x.mode = 1 then .i32 else .fp32)
      (normTileBytes (((ws.drop (32 * i)).take 32).map fun r => r.map (·.1)))) s
  .go (endClaims (landedWith s1 g.id 0 fl) c g.id)

/-- FP32 and I32 as a stream: the elements that remain stand in the command until they have left. -/
def startNormStream (s : State) (g : Eng) (x : NormDesc) (t : Fmt) : Start :=
  let ws := ((normRowsOf (coreAt s g.who.core) x).map (normWords t x.mode)).flatten
  let fl := (ws.map (·.2)).foldl (· ||| ·) 0
  .go (modEng s g.id fun g => { g with
    stage := .started, flags := fl, desc := ws.map fun w => BitVec.ofNat 64 w.1 })

/-- MNORM starts (R344). -/
def startMnorm (f : EngForm) (s : State) (g : Eng) : Start :=
  let x := normDesc g.a
  match normFault (coreAt s g.who.core) f g x with
  | some e => .trap e
  | none =>
    let t := x.fmt.getD .i8
    if x.mode ≥ 3 then startLoad s g x t
    else if x.dk = 1 then startNormMem s g x t
    else if x.dk = 0 then startNormTile s g x t
    else startNormStream s g x t

/-- One element of an MNORM's stream leaves, row-major, with M1 at a row's end and M2 at the last (R162); after the last
the command has landed. -/
def normEmit (s : State) (g : Eng) : State :=
  let c := g.who.core
  let x := normDesc g.a
  let nc := matCols (x.fmt.getD .i8)
  let r := agRouter (Fin.ofNat 16 x.edge)
  let vc : Fin 4 := Fin.ofNat 4 x.vc
  match g.desc with
  | [] => landed s g.id
  | v :: vs =>
    if !canWrite (coreAt s c) r vc then s
    else
      let mark : BitVec 3 := if vs.isEmpty then 2 else if vs.length % nc = 0 then 1 else 0
      let s1 := active (modCore s c fun k => writeLocal k r vc (.tok ⟨mark, false, 0, v.setWidth 32⟩)) c
      modEng s1 g.id fun g => { g with desc := vs, stage := if vs.isEmpty then .landed else .started }

end Sys2Proof.Machine
end

