-- ==== Sys2Proof/Machine/Graph.lean ====
section
/-! DEFINITION. The Armature (R118, R163 to R182): graph images and their checks, GLOAD, GBIND, GFREE and GQRY when they
start, vectors in and results out. CRC-32C stands here too (R52). -/

namespace Sys2Proof.Machine
open Sys2Proof

/-! ## CRC-32C (R52) -/

/-- One bit of the reflected Castagnoli division. -/
def crcBit (c : Word) : Word := if c.getLsbD 0 then (c >>> 1) ^^^ 0x82F63B78 else c >>> 1

/-- One byte. -/
def crcByte (c : Word) (b : Byte) : Word :=
  let x := c ^^^ b.setWidth 32
  crcBit (crcBit (crcBit (crcBit (crcBit (crcBit (crcBit (crcBit x)))))))

/-- CRC-32C of a byte string. -/
def crc32c (bs : List Byte) : Word := ~~~ (bs.foldl crcByte 0xFFFFFFFF)

/-- Whether CHK in dword 1 [63:32] of an image matches, with CHK itself taken as zero. -/
def chkOk (ds : List DWord) : Bool :=
  let zeroed := ds.set 1 (dw ds 1 &&& 0xFFFFFFFF)
  (crc32c (zeroed.flatMap fun d => bytesLE 8 d.toNat)).toNat == field (dw ds 1) 63 32

/-! ## The image (R166 to R169) -/

/-- NNODE. -/
def giNodes (ds : List DWord) : Nat := field (dw ds 0) 63 50
/-- NIN. -/
def giIns (ds : List DWord) : Nat := field (dw ds 0) 49 39
/-- NTAP. -/
def giTaps (ds : List DWord) : Nat := field (dw ds 0) 38 29
/-- IFMT: whether inputs are I16. -/
def giWide (ds : List DWord) : Bool := bitOf (dw ds 0) 28
/-- The length of an image in dwords. -/
def giLen (ds : List DWord) : Nat := 2 + giNodes ds + giTaps ds
/-- Node word n. -/
def giNode (ds : List DWord) (n : Nat) : DWord := dw ds (2 + n)
/-- Tap word j. -/
def giTap (ds : List DWord) (j : Nat) : DWord := dw ds (2 + giNodes ds + j)
/-- OP of a node. -/
def gnOp (d : DWord) : Nat := field d 63 62
/-- SRCA. -/
def gnA (d : DWord) : Nat := field d 45 32
/-- SRCB. -/
def gnB (d : DWord) : Nat := field d 31 18

/-- Whether a source field may stand: an input below NIN, or a node below `n`. -/
def sourceOk (ds : List DWord) (n src : Nat) : Bool :=
  if src ≥ 0x2000 then src - 0x2000 < giIns ds else src < n

/-- Whether an image is well formed (R169). -/
def graphOk (ds : List DWord) : Bool :=
  ds.length == giLen ds && chkOk ds &&
  decide (1 ≤ giNodes ds) && decide (giNodes ds ≤ 8192) && decide (1 ≤ giIns ds) && decide (giIns ds ≤ 1024) &&
  decide (1 ≤ giTaps ds) && decide (giTaps ds ≤ 512) && field (dw ds 0) 27 0 == 0 && field (dw ds 1) 31 0 == 0 &&
  ((List.range (giNodes ds)).all fun n =>
    let d := giNode ds n
    let w := field d 61 56
    field d 17 0 == 0 && decide (8 ≤ w) && decide (w ≤ 48) && sourceOk ds n (gnA d) &&
    (if gnOp d ≥ 2 then field d 50 46 == 0 && gnB d == 0 else sourceOk ds n (gnB d))) &&
  ((List.range (giTaps ds)).all fun j =>
    let d := giTap ds j
    field d 41 0 == 0 && sourceOk ds (giNodes ds) (field d 63 50))

/-! ## Capacity and width (R164, R165, R170) -/

/-- The pairs of a source node and a reading bay that differ from the node's own (R164). -/
def crossings (ds : List DWord) : Nat :=
  let pairs := (List.range (giNodes ds)).flatMap fun n =>
    let d := giNode ds n
    let srcs := if gnOp d ≥ 2 then [gnA d] else [gnA d, gnB d]
    srcs.filterMap fun x => if x < 0x2000 ∧ x / 256 ≠ n / 256 then some (x, n / 256) else none
  pairs.eraseDups.length

/-- The depths of the nodes in order (R165). -/
def nodeDepths (ds : List DWord) : Array Nat :=
  (List.range (giNodes ds)).foldl (fun (v : Array Nat) n =>
    let d := giNode ds n
    let of (x : Nat) : Nat := if x ≥ 0x2000 then 0 else (v[x]?).getD 0 + (if x / 256 ≠ n / 256 then 2 else 0)
    v.push (1 + (if gnOp d ≥ 2 then of (gnA d) else max (of (gnA d)) (of (gnB d))))) #[]

/-- D (R165). -/
def graphDepth (ds : List DWord) : Nat :=
  let v := nodeDepths ds
  ((List.range (giTaps ds)).map fun j =>
    let x := field (giTap ds j) 63 50
    if x ≥ 0x2000 then 0 else (v[x]?).getD 0).foldl max 0

/-- The least width that holds an interval (R170). -/
def needWidth : Nat → Nat → Int → Int → Nat
  | 0, v, _, _ => v
  | fuel + 1, v, lo, hi =>
    if -(2 ^ (v - 1) : Int) ≤ lo ∧ hi ≤ 2 ^ (v - 1) - 1 then v else needWidth fuel (v + 1) lo hi

/-- The bounds of a node from those of its sources (R170). -/
def nodeBounds (d : DWord) (a b : Int × Int) : Int × Int :=
  let sa : Int := 2 ^ field d 55 51
  let sb : Int := 2 ^ field d 50 46
  match gnOp d with
  | 0 => (a.1 * sa + b.1 * sb, a.2 * sa + b.2 * sb)
  | 1 => (a.1 * sa - b.2 * sb, a.2 * sa - b.1 * sb)
  | 2 => (a.1 * sa, a.2 * sa)
  | _ => (-(a.2 * sa), -(a.1 * sa))

/-- The first node whose required width exceeds its declared one, with that width. -/
def widthFault (ds : List DWord) : Option (Nat × Nat) :=
  let w := if giWide ds then 16 else 8
  let inp : Int × Int := (-(2 ^ (w - 1) : Int), 2 ^ (w - 1) - 1)
  ((List.range (giNodes ds)).foldl (fun (r : Array (Int × Int) × Option (Nat × Nat)) n =>
    let d := giNode ds n
    let of (x : Nat) : Int × Int := if x ≥ 0x2000 then inp else (r.1[x]?).getD inp
    let bd := nodeBounds d (of (gnA d)) (of (gnB d))
    let need := needWidth 8192 1 bd.1 bd.2
    (r.1.push bd, r.2.or (if need > field d 61 56 then some (n, need) else none))) (#[], none)).2

/-- The resident graphs of a core. -/
def residents (k : Core) : List Graph := (List.finRange 4).filterMap fun h => at' k.graphs h

/-- Whether a bay is free. -/
def bayFree (k : Core) (b : Nat) : Bool := (residents k).all fun g => b < g.bay0 || g.bay0 + g.nbay ≤ b

/-- The bays that a launch may use: bays 0 to 15 of a split core, the half that its owner holds (R433). -/
def bayCount (k : Core) : Nat := if isSplit k then 16 else 32

/-- The lowest run of free bays. -/
def freeRun (k : Core) (n : Nat) : Option Nat :=
  (List.range 32).find? fun b => b + n ≤ bayCount k && (List.range n).all fun i => bayFree k (b + i)

/-- What placing an image comes to. -/
inductive Placed where
  | ok (g : Graph)
  | bad (f : EngFault)
  deriving DecidableEq, Repr

/-- An image that is well formed placed on a core (R170). -/
def placeGraph (k : Core) (ds : List DWord) : Placed :=
  let n := (giNodes ds + 255) / 256
  let rs := residents k
  let used := (rs.map (·.xing)).sum
  let free := ((List.range (bayCount k)).filter (bayFree k)).length
  let x := crossings ds
  let capFault : EngFault := ⟨.graphCapacity, 0, BitVec.ofNat 64 (free * 2 ^ 32 + (512 - used)), .fault⟩
  match freeRun k n with
  | none => .bad capFault
  | some b =>
    if (rs.map (·.nin)).sum + giIns ds > 1024 || (rs.map (·.ntap)).sum + giTaps ds > 512 || used + x > 512 ||
        graphDepth ds > 1023 then .bad capFault
    else match widthFault ds with
      | some (node, need) => .bad ⟨.graphWidth, BitVec.ofNat 64 node, BitVec.ofNat 64 need, .fault⟩
      | none => .ok ⟨ds, giNodes ds, giIns ds, giTaps ds, giWide ds, b, n, x, graphDepth ds, none⟩

/-! ## GLOAD, GFREE, GQRY (R178, R180) -/

/-- The handle of a graph command. -/
def handleOf (f : EngForm) : Fin 4 := Fin.ofNat 4 f.k.toNat

/-- A handle of a core set. -/
def setGraph (s : State) (c : CoreId) (h : Fin 4) (g : Option Graph) : State :=
  modCore s c fun k => { k with graphs := put k.graphs h g }

/-- A binding changed. -/
def modBind (s : State) (c : CoreId) (h : Fin 4) (f : Bind → Bind) : State :=
  modCore s c fun k => { k with graphs := put k.graphs h ((at' k.graphs h).map fun g => { g with bind := g.bind.map f }) }

/-- GLOAD starts (R178). -/
def startGload (f : EngForm) (s : State) (g : Eng) : Start :=
  let c := g.who.core
  let k := coreAt s c
  let h := handleOf f
  let addr := g.a.toNat
  if (at' k.graphs h).isSome then badStart .illegalOperand 0
  else match engRead s g addr 16 with
    | .inr e => .trap e
    | .inl hd => match engRead s g addr (8 * giLen (dwordsOf hd)) with
      | .inr e => .trap e
      | .inl bs =>
        let ds := dwordsOf bs
        if !graphOk ds then badStart .illegalOperand addr
        else match placeGraph k ds with
          | .bad e => .trap e
          | .ok x => .go (landed (setGraph s c h (some x)) g.id)

/-- Whether nothing of a binding is under way. -/
def bindQuiet (b : Bind) : Bool := b.group.isEmpty && b.full.isEmpty && b.fly.isEmpty

/-- GFREE starts (R178): the binding takes no further group. -/
def startGfree (f : EngForm) (s : State) (g : Eng) : Start :=
  .go (startedOn (modBind s g.who.core (handleOf f) fun b => { b with closing := true }) g.id)

/-- A GFREE under way frees its handle once no vector is in flight. -/
def freeGraph (f : EngForm) (s : State) (g : Eng) : State :=
  let h := handleOf f
  let quiet := match (at' (coreAt s g.who.core).graphs h).bind (·.bind) with | some b => bindQuiet b | none => true
  if quiet then landed (setGraph s g.who.core h none) g.id else s

/-- The status word of a handle (R180). -/
def graphStatus (g : Option Graph) : DWord :=
  match g with
  | none => 0
  | some x => BitVec.ofNat 64 (2 ^ 63 + (if x.bind.isSome then 2 ^ 62 else 0) + x.bay0 * 2 ^ 57 + x.nbay * 2 ^ 51 +
      x.xing * 2 ^ 41 + x.depth * 2 ^ 31 + x.ntap * 2 ^ 21 + x.nin * 2 ^ 10)

/-- GQRY starts. -/
def startGqry (f : EngForm) (s : State) (g : Eng) : Start :=
  .go (landedWith s g.id (graphStatus (at' (coreAt s g.who.core).graphs (handleOf f))) 0)

/-! ## GBIND (R171, R172, R175, R179) -/

/-- QZ. -/
def bdQz (d : Vector DWord 4) : Bool := bitOf d[0] 59
/-- TI. -/
def bdTi (d : Vector DWord 4) : Nat := field d[0] 50 47
/-- TE. -/
def bdTe (d : Vector DWord 4) : Nat := field d[0] 46 43
/-- TO. -/
def bdTo (d : Vector DWord 4) : Nat := field d[0] 42 39
/-- NVEC. -/
def bdNvec (d : Vector DWord 4) : Nat := field d[0] 38 31
/-- DST. -/
def bdAddr (d : Vector DWord 4) : DWord := d[1]
/-- STRIDE. -/
def bdStride (d : Vector DWord 4) : Int := signedOf 32 (field d[2] 31 0)

/-- The input tiles of a TILE source (R172). -/
def inTiles (nin : Nat) (wide : Bool) : Nat := if wide then (nin + 63) / 64 else (nin + 127) / 128

/-- A list of tiles from one upward, as far as there are tiles. -/
def tileRun (t n : Nat) : List (Fin 16) := (List.range n).filterMap fun i => if t + i < 16 then some (Fin.ofNat 16 (t + i)) else none

/-- The regions of a TILE run (R331). -/
def bindRegions (d : Vector DWord 4) (x : Graph) : List (Region × Bool) :=
  if bdSrc d ≠ 1 then []
  else
    (tileRun (bdTi d) (inTiles x.nin x.i16)).map (fun t => (Region.tile t, false)) ++
    [(.tile (Fin.ofNat 16 (bdTe d)), false)] ++
    (if bdDst d = 1 then (tileRun (bdTo d) ((x.ntap + 31) / 32)).map fun t => (Region.tile t, true) else [])

/-- A binding descriptor from the dwords read at acceptance. -/
def bindDesc (ds : List DWord) : Vector DWord 4 := Vector.ofFn fun i => dw ds i.val

/-- Whether another handle has bound a lane. -/
def laneTaken (k : Core) (h : Fin 4) (e : AgId) : Bool :=
  (List.finRange 4).any fun j => j != h && match (at' k.graphs j).bind (·.bind) with
    | some b => bdSrc b.desc == 0 && bdEdge b.desc == e
    | none => false

/-- The checks of R179 that are made at the start. TO is checked where the destination is TILE, which alone uses it (log
entry 96). -/
def bindFault (k : Core) (h : Fin 4) (d : Vector DWord 4) (addr : DWord) : Option EngFault :=
  let bad (c : FaultCode) : Option EngFault := some ⟨c, addr, 0, .fault⟩
  match at' k.graphs h with
  | none => bad .illegalOperand
  | some x =>
    let pairOk := (bdSrc d == 1 && bdDst d ≤ 2) || (bdSrc d == 0 && bdDst d == 0)
    let g := inTiles x.nin x.i16
    let o := (x.ntap + 31) / 32
    let outs := if bdDst d = 1 then tileRun (bdTo d) o else []
    let ins := tileRun (bdTi d) g
    let want : Fmt := if x.i16 then .i16 else .i8
    if field d[0] 30 0 != 0 || field d[1] 63 52 != 0 || field d[2] 63 32 != 0 || d[3] != 0 || !pairOk then
      bad .illegalOperand
    else if bdSrc d == 0 && laneTaken k h (bdEdge d) then bad .illegalOperand
    else if bdSrc d == 1 && (bdNvec d == 0 || bdNvec d > 128 || bdTi d + g - 1 > 15 ||
        (bdDst d == 1 && bdTo d + o - 1 > 15) || outs.any fun t => ins.contains t || t.val == bdTe d) then
      bad .illegalOperand
    else if bdSrc d == 1 && (ins.any (fun t => at' k.tiles t != want) || at' k.tiles (Fin.ofNat 16 (bdTe d)) != .i16) then
      bad .tagMismatch
    else if bdDst d == 2 && ((bdAddr d).toNat % 4 != 0 || bdStride d % 4 != 0) then bad .align
    else none

/-- A binding that has taken nothing yet. -/
def freshBind (cmd : Nat) (d : Vector DWord 4) : Bind where
  cmd := cmd
  desc := d
  next := 0
  group := []
  full := []
  wid := Place.zero
  closing := false
  fly := []

/-- GBIND starts (R178): once its checks have passed, a binding in force finishes its group first. -/
def startGbind (f : EngForm) (s : State) (g : Eng) : Start :=
  let c := g.who.core
  let h := handleOf f
  let k := coreAt s c
  let d := bindDesc g.desc
  match bindFault k h d g.a with
  | some e => .trap e
  | none => match (at' k.graphs h).bind (·.bind) with
    | some b =>
      if bindQuiet b then .go (setGraph s c h ((at' k.graphs h).map fun x => { x with bind := none }))
      else if b.closing then .wait
      else .go (modBind s c h fun b => { b with closing := true })
    | none =>
      let s1 := setGraph s c h ((at' k.graphs h).map fun x => { x with bind := some (freshBind g.id d) })
      .go (if bdSrc d = 0 then landed s1 g.id else startedOn s1 g.id)

/-! ## Vectors (R118, R172 to R176) -/

/-- The mantissas of a graph's nodes on an input vector (R163). -/
def nodeValues (ds : List DWord) (xs : List Int) : Array Int :=
  (List.range (giNodes ds)).foldl (fun (v : Array Int) n =>
    let d := giNode ds n
    let of (x : Nat) : Int := if x ≥ 0x2000 then (xs[x - 0x2000]?).getD 0 else (v[x]?).getD 0
    let a := of (gnA d) * 2 ^ field d 55 51
    let b := of (gnB d) * 2 ^ field d 50 46
    v.push (match gnOp d with | 0 => a + b | 1 => a - b | 2 => a | _ => -a)) #[]

/-- The results of a vector: each tap rounded once to FP32 at 2^(S + WEXP) (R174). -/
def tapResults (ds : List DWord) (xs : List Int) (sc : Int) : List (Nat × FlagBits) :=
  let v := nodeValues ds xs
  (List.range (giTaps ds)).map fun j =>
    let d := giTap ds j
    let x := field d 63 50
    let t : Int := if x ≥ 0x2000 then (xs[x - 0x2000]?).getD 0 else (v[x]?).getD 0
    if t = 0 then (0, 0)
    else roundIeee .plain .fp32 0 false (decide (t < 0)) t.natAbs (sc + signedOf 8 (field d 49 42)) false

/-- Floor(Log2) of a positive finite value. -/
def floorLog2 (m : Nat) (e : Int) : Int := (Nat.log2 m : Int) + e

/-- Whether m · 2^e is less than n · 2^d. -/
def magLess (m : Nat) (e : Int) (n : Nat) (d : Int) : Bool :=
  let q := min e d
  decide (m * 2 ^ (e - q).toNat < n * 2 ^ (d - q).toNat)

/-- One element rounded under an exponent, with NX (R118). -/
def quantOne (S : Int) (x : FVal) : Int × FlagBits :=
  match x with
  | .fin s m e =>
    let r := roundUnit 0 s m e S false
    (if s then -(r.1 : Int) else r.1, flagIf r.2 flNX)
  | _ => (0, flNV)

/-- The quantiser (R118): mantissas, S and flags; `none` is a void element, which counts as 0 and sets no flag. NaN and infinity
set NV also where M = 0 (log entry 89). -/
def quantise (w : Nat) (xs : List (Option FVal)) : List Int × Int × FlagBits :=
  let mx := xs.foldl (fun (m : Nat × Int) x =>
    match x with
    | some (.fin _ k e) => if magLess m.1 m.2 k e then (k, e) else m
    | _ => m) (0, 0)
  let at' (S : Int) : List (Int × FlagBits) := xs.map fun x => match x with | some v => quantOne S v | none => (0, 0)
  let done (S : Int) (r : List (Int × FlagBits)) : List Int × Int × FlagBits :=
    (r.map (·.1), S, r.foldl (fun f x => f ||| x.2) 0)
  if mx.1 = 0 then
    (xs.map fun _ => 0, 0, xs.foldl (fun f x => match x with | some (.fin _ _ _) | none => f | _ => f ||| flNV) 0)
  else
    let S := floorLog2 mx.1 mx.2 - ((w : Int) - 2)
    let r := at' S
    if r.any fun x => x.1.natAbs = 2 ^ (w - 1) then done (S + 1) (at' (S + 1)) else done S r

/-- The most vectors that a graph holds on their way: its pipeline and its output buffer of 8 (R176). -/
def flyMax (x : Graph) : Nat := x.depth + 3 + 8

/-- Vector v of a TILE source: its mantissas and S (R172). -/
def tileVector (s : State) (c : CoreId) (x : Graph) (d : Vector DWord 4) (v : Nat) : List Int × Int :=
  let per := if x.i16 then 64 else 128
  let sz := if x.i16 then 2 else 1
  let xs := (List.range x.nin).map fun i =>
    let t : Fin 16 := Fin.ofNat 16 (bdTi d + i / per)
    signedOf (8 * sz) (homeLoad s (tileLoc c t + 128 * v + sz * (i % per)) sz)
  (xs, signedOf 16 (homeLoad s (tileLoc c (Fin.ofNat 16 (bdTe d)) + 128 * v) 2))

/-- A vector enters the graph. -/
def enterVector (s : State) (c : CoreId) (h : Fin 4) (v : Vec) : State :=
  modCore (modBind s c h fun b => { b with fly := b.fly ++ [v], next := b.next + 1 }) c fun k => { k with armTurn := h }

/-- Whether a binding has a vector ready for its graph: the next one of its tiles, or one that the quantiser holds. -/
def vectorReady (x : Graph) (b : Bind) : Bool :=
  decide (b.fly.length < flyMax x) && if bdSrc b.desc = 1 then decide (b.next < bdNvec b.desc) else !b.full.isEmpty

/-- Whether the graph of a handle has a vector ready. -/
def handleReady (k : Core) (h : Fin 4) : Bool :=
  match at' k.graphs h with
  | some x => match x.bind with
    | some b => vectorReady x b
    | none => false
  | none => false

/-- Vector `b.next` of a TILE run enters; after the last the input regions are open again (R181). -/
def acceptTile (s : State) (c : CoreId) (h : Fin 4) (x : Graph) (b : Bind) : State :=
    let q := tileVector s c x b.desc b.next
    let r := tapResults x.image q.1 q.2
    let last := b.next + 1 = bdNvec b.desc
    let s1 := enterVector s c h ⟨b.next, r.map fun y => BitVec.ofNat 32 y.1, 0, 0, if last then 2 else 1, false⟩
    let s2 := modEng s1 b.cmd fun g => { g with flags := r.foldl (fun f y => f ||| y.2) g.flags }
    active (if last then endReads s2 c b.cmd else s2) c

/-- A POISON fault at an Armature input, at a token of a place of the walk (R27, R173). -/
def armPoison (s : State) (c : CoreId) (h : Fin 4) (edge : AgId) (place : Place) (level : Nat) : State :=
  raise .poison (unitAt s c 8 h.val (agRouter edge, 3) place) 0 (BitVec.ofNat 64 level) s

/-- A group that the quantiser holds runs as one vector (R173). -/
def runGroup (s : State) (c : CoreId) (h : Fin 4) (x : Graph) (b : Bind) (ts : List Token) : State :=
  let last := (ts.getLast?).getD ⟨0, true, 0, 0⟩
  if ts.length = 1 ∧ last.void then active (enterVector s c h ⟨b.next, [], 0, last.tag, last.mark, true⟩) c
  else
    let w := if x.i16 then 16 else 8
    let q : List Int × Int × FlagBits :=
      if bdQz b.desc then quantise w (ts.map fun t => if t.void then none else some (ieeeOf .fp32 t.data.toNat))
      else (ts.map fun t => if t.void then 0 else signedOf w (t.data.toNat % 2 ^ w), 0, 0)
    let r := tapResults x.image q.1 q.2.1
    let fl := r.foldl (fun f y => f ||| y.2) q.2.2
    active (mergeFlags (enterVector s c h ⟨b.next, r.map fun y => BitVec.ofNat 32 y.1, 0, last.tag, last.mark, false⟩) c fl) c

/-- The vectors that the quantiser holds (R173). -/
def quantMax : Nat := 2

/-- The quantiser takes the next token of its lane, while the binding has fewer than two complete vectors there (R173). A group
of a wrong length raises POISON with level 0 (log entry 95). -/
def acceptLane (s : State) (l : Launch) (c : CoreId) (h : Fin 4) (x : Graph) (b : Bind) : State :=
  let key := QKey.edge (bdEdge b.desc) 3
  match queueAt (coreAt s c) key with
  | .tok t :: _ =>
    if b.full.length ≥ quantMax || (b.closing && b.group.isEmpty) then s
    else
      let place := placeAfter l (coreAt s c) b.wid t
      let take (group : List Token) (full : List (List Token)) : State :=
        active (modBind (modCore s c fun k => popTok k key) c h fun b =>
          { b with group := group, full := full, wid := place }) c
      if t.mark = 7 then armPoison s c h (bdEdge b.desc) b.wid (poisonOf (levels l.recd) t)
      else
        let ts := b.group ++ [t]
        if t.mark ≠ 0 then
          if (ts.length = 1 ∧ t.void) ∨ ts.length = x.nin then take [] (b.full ++ [ts]) else armPoison s c h (bdEdge b.desc) b.wid 0
        else if ts.length ≥ x.nin then armPoison s c h (bdEdge b.desc) b.wid 0
        else take ts b.full
  | _ => s

/-- The vector that is ready at a handle enters its graph: of a TILE run, or the oldest that the quantiser holds. -/
def takeVector (s : State) (c : CoreId) (h : Fin 4) (x : Graph) (b : Bind) : State :=
  if bdSrc b.desc = 1 then acceptTile s c h x b
  else match b.full with
    | ts :: rest => runGroup (modBind s c h fun b => { b with full := rest }) c h x b ts
    | [] => s

/-- VECTOR_ACCEPT (R172, R173, R176): the graph takes its next vector, round-robin among the graphs that have one ready, or
else the quantiser the next token of its lane. -/
def execVectorAccept (c : CoreId) (h : Fin 4) (s : State) : Out :=
  .next (match holderOf s c, at' (coreAt s c).graphs h with
    | some l, some x => match x.bind with
      | none => s
      | some b =>
        if !maySteps s l then s
        else if vectorReady x b && nextTurn (coreAt s c).armTurn (handleReady (coreAt s c)) == some h then
          takeVector s c h x b
        else if bdSrc b.desc = 0 then acceptLane s l c h x b
        else s
    | _, _ => s)

/-- A TILE run whose last result has landed (R178). -/
def runDone (s : State) (c : CoreId) (h : Fin 4) (b : Bind) : State :=
  if bdSrc b.desc = 1 ∧ b.next ≥ bdNvec b.desc ∧ b.fly.isEmpty then
    let s1 := modCore s c fun k => { k with graphs := put k.graphs h ((at' k.graphs h).map fun x => { x with bind := none }) }
    endClaims (landed s1 b.cmd) c b.cmd
  else s

/-- The oldest vector has left. -/
def dropVec (s : State) (c : CoreId) (h : Fin 4) : State :=
  let s1 := active (modBind s c h fun b => { b with fly := b.fly.tail }) c
  match (at' (coreAt s1 c).graphs h).bind (·.bind) with
  | some b => runDone s1 c h b
  | none => s1

/-- A vector's results into the output tiles (R175). -/
def resultTile (s : State) (c : CoreId) (d : Vector DWord 4) (v : Vec) : State :=
  ((List.range ((v.out.length + 31) / 32))).foldl (fun s i =>
    let t : Fin 16 := Fin.ofNat 16 (bdTo d + i)
    let bs := ((v.out.drop (32 * i)).take 32).flatMap fun w => bytesLE 4 w.toNat
    modCore (rawStore s (tileLoc c t + 128 * v.n) bs) c fun k => { k with tiles := put k.tiles t .fp32 }) s

/-- A vector's results into memory: stores of the command, or the fault of their addresses (R175). -/
def resultMem (s : State) (g : Eng) (d : Vector DWord 4) (v : Vec) : State ⊕ EngFault :=
  let va := (bdAddr d + BitVec.ofInt 64 (v.n * bdStride d)).toNat
  match engSpan s g .write va (4 * v.out.length) with
  | .inr e => .inr e
  | .inl _ => .inl (engWrite s g va (v.out.flatMap fun w => bytesLE 4 w.toNat))

/-- The next token of a vector's stream (R173, R175): the result, or the void token of an empty group. -/
def resultTok (v : Vec) : Token :=
  if v.void then ⟨v.mark, true, v.tag, 0⟩
  else
    let last := v.sent + 1 ≥ v.out.length
    ⟨if last then v.mark else 0, false, v.tag, (v.out[v.sent]?).getD 0⟩

/-- VECTOR_RESULT (R174 to R176): the oldest vector's results reach their destination, token by token to a stream. -/
def execVectorResult (c : CoreId) (h : Fin 4) (s : State) : Out :=
  .next (match at' (coreAt s c).graphs h with
    | none => s
    | some x => match x.bind with
      | none => s
      | some b => match b.fly with
        | [] => s
        | v :: _ =>
          if !coreSteps s c then s
          else if bdDst b.desc = 1 then dropVec (resultTile s c b.desc v) c h
          else if bdDst b.desc = 2 then
            match engBy s b.cmd with
            | none => s
            | some g => match resultMem s g b.desc v with
              | .inl s1 => dropVec s1 c h
              | .inr e => engRaise s g e
          else
            let r := agRouter (bdOedge b.desc)
            if !canWrite (coreAt s c) r 3 then s
            else
              let s1 := active (modCore s c fun k => writeLocal k r 3 (.tok (resultTok v))) c
              if v.void || v.sent + 1 ≥ v.out.length then dropVec s1 c h
              else modBind s1 c h fun b => { b with fly := match b.fly with
                | y :: ys => { y with sent := y.sent + 1 } :: ys
                | [] => [] })

end Sys2Proof.Machine
end

