-- ==== Sys2Proof/Machine/Parse.lean ====
section
/-! DEFINITION. The parse sequencer (R44 to R73, R200 to R208, R350 to R353): the tap, the pushdown procedure, actions and
permits, recovery, the gate, byte mode, and the parser commands when they start. -/

namespace Sys2Proof.Machine
open Sys2Proof

/-! ## Records of a grammar image (R54 to R58) -/

/-- A production's record. -/
def prodAt (g : Grammar) (p : Nat) : DWord := dw g.prods p
/-- MODE of a production. -/
def prodMode (d : DWord) : Nat := field d 49 48
/-- The PIPE depth. -/
def prodDepth (d : DWord) : Nat := field d 47 45 + 1
/-- The number of items. -/
def prodItems (d : DWord) : Nat := field d 44 40
/-- The expansion action. -/
def prodExpansion (d : DWord) : Option Nat := if bitOf d 15 then some (field d 27 16) else none
/-- The completion action. -/
def prodCompletion (d : DWord) : Option Nat := if bitOf d 2 then some (field d 14 3) else none
/-- The item record at a position of a production. -/
def itemAt (g : Grammar) (p pos : Nat) : DWord := dw g.rhs (field (prodAt g p) 39 28 + pos)
/-- Whether an item is a nonterminal. -/
def itemIsNt (d : DWord) : Bool := bitOf d 55
/-- An item's symbol. -/
def itemSym (d : DWord) : Nat := field d 54 49
/-- An item's quantifier: 0 one, 1 star, 2 plus. -/
def itemQ (d : DWord) : Nat := field d 48 47
/-- The recovery level. -/
def recLevel (d : DWord) : Nat := field d 55 53
/-- The recovery action. -/
def recAction (d : DWord) : Option Nat := if bitOf d 40 then some (field d 52 41) else none
/-- The number of words of the action whose header stands at an index. -/
def actWords (g : Grammar) (i : Nat) : Nat := field (dw g.acts i) 55 53 + 1
/-- AUTO of an action. -/
def actAuto (g : Grammar) (i : Nat) : Bool := bitOf (dw g.acts i) 52
/-- GREL of an action. -/
def actGrel (g : Grammar) (i : Nat) : Bool := bitOf (dw g.acts i) 51

/-- EOS as a look-ahead (R44, R200): column 8 of a mark-mode table, and no column in byte mode. -/
def eosTerm : Nat := 256

/-- The table's entry for a nonterminal under a look-ahead (R47, R200). -/
def tableAt (g : Grammar) (n t1 t2 : Nat) : Nat :=
  let col (t : Nat) : Nat := if t = eosTerm then 8 else t
  if g.byte then if t1 = eosTerm then 0xFFF else ((g.table[n * 64 + t1]?).getD 0xFFF).toNat
  else if g.la2 then ((g.table[n * 81 + col t1 * 9 + col t2]?).getD 0xFFF).toNat
  else ((g.table[n * 9 + col t1]?).getD 0xFFF).toNat

/-- Whether an item begins with the look-ahead (R48). -/
def begins (g : Grammar) (it : DWord) (t1 t2 : Nat) : Bool :=
  if itemIsNt it then tableAt g (itemSym it) t1 t2 != 0xFFF else itemSym it == t1

/-! ## Look-ahead -/

/-- The tap will bring no further item to a parser's gate. -/
def tapDry (z : Parser) : Bool := z.eos && z.fresh.isEmpty

/-- The terminal at a look-ahead position of a mark-mode parser; `none` while it is not known. -/
def markLook (z : Parser) (i : Nat) : Option Nat :=
  match z.items[i]? with
  | some x => some x.term
  | none => if tapDry z then some eosTerm else none

/-- The terminal of a byte-mode parser: the class of the next byte fed, or EOS. -/
def byteLook (g : Grammar) (z : Parser) : Option Nat :=
  match z.feed with
  | some f => match f.bytes with
    | v :: _ => some ((g.classes[v.toNat]?).getD 0).toNat
    | [] => if f.eos then some eosTerm else none
  | none => none

/-- t1 of R47. -/
def look1 (g : Grammar) (z : Parser) : Option Nat := if g.byte then byteLook g z else markLook z 0

/-- t1 and t2, as a table lookup needs them. -/
def lookBoth (g : Grammar) (z : Parser) : Option (Nat × Nat) :=
  match look1 g z with
  | none => none
  | some t1 => if !g.byte && g.la2 then (markLook z 1).map fun t2 => (t1, t2) else some (t1, eosTerm)

/-! ## The pushdown procedure as plain data (R48) -/

/-- Whether the last iteration of a frame's nonterminal item accepted nothing. -/
def emptyIter (it : DWord) (f : Frame) (accepted : Nat) : Bool := itemIsNt it && f.iter && f.accAt == accepted

/-- What one step of the procedure comes to on a stack, before any action or token moves. -/
inductive ParseMove where
  | finish                               -- the end of the stream on an empty stack
  | openSeq (p : Nat)                    -- a new sequence opens with a production
  | close                                -- the top instance is complete
  | leave (stack : List Frame)           -- a star or plus item ends
  | accept (stack : List Frame)
  | open' (stack : List Frame) (p sym : Nat)
  | mismatch (kind : Bool) (sym : Nat)   -- true: a terminal was expected
  | blocked                              -- a look-ahead that it needs is not known
  deriving DecidableEq, Repr

/-- One step of R48. -/
def parseMove (g : Grammar) (start : Nat) (stack : List Frame) (accepted : Nat) (t1 : Option Nat)
    (both : Option (Nat × Nat)) : ParseMove :=
  match stack with
  | [] =>
    match t1 with
    | none => .blocked
    | some t =>
      if t = eosTerm then .finish
      else match both with
        | none => .blocked
        | some (a, b) => let e := tableAt g start a b; if e = 0xFFF then .mismatch false start else .openSeq e
  | f :: fs =>
    if f.pos ≥ prodItems (prodAt g f.prod) then .close
    else
      let it := itemAt g f.prod f.pos
      let known : Option (Nat × Nat) := if itemIsNt it then both else t1.map fun t => (t, eosTerm)
      match known with
      | none => .blocked
      | some (a, b) =>
        let more := begins g it a b
        let must := itemQ it = 0 || (itemQ it = 2 && !f.iter)
        if must && !more then .mismatch (!itemIsNt it) (itemSym it)
        else if !must && (!more || emptyIter it f accepted) then .leave ({ f with pos := f.pos + 1, iter := false } :: fs)
        else
          let f' := if itemQ it = 0 then { f with pos := f.pos + 1 } else { f with iter := true, accAt := accepted }
          if itemIsNt it then .open' (f' :: fs) (tableAt g (itemSym it) a b) (itemSym it) else .accept (f' :: fs)

/-- Whether a terminal would be accepted from a stack (R201); `fuel` exceeds the steps of any dry run. -/
def dryRun (g : Grammar) (start t : Nat) : Nat → List Frame → Bool
  | 0, _ => false
  | fuel + 1, stack =>
    match parseMove g start stack 0 (some t) (some (t, eosTerm)) with
    | .finish => true
    | .openSeq p => dryRun g start t fuel [⟨p, 0, false, 0, 0⟩]
    | .close => match stack with
      | _ :: fs => if fs.isEmpty && t == eosTerm then true else dryRun g start t fuel fs
      | [] => false
    | .leave st => dryRun g start t fuel st
    | .accept _ => true
    | .open' st p _ => if st.length ≥ 128 then false else dryRun g start t fuel (⟨p, 0, false, 0, 0⟩ :: st)
    | .mismatch _ _ => false
    | .blocked => false

/-- A bound on the steps of a dry run: 128 frames of at most 31 items each. -/
def dryFuel : Nat := 64 ^ 130

/-! ## Mismatch (R67 to R70) -/

/-- The mismatch word (R67). -/
def mismatchWord (p : ParserId) (kind : Bool) (sym t depth count : Nat) (byte : Bool) : DWord :=
  let eos := t == eosTerm
  BitVec.ofNat 64 ((if kind then 2 ^ 63 else 0) + sym % 64 * 2 ^ 57 +
    (if eos then (if byte then 0 else 8) else t % 64) * 2 ^ 51 + depth * 2 ^ 43 + p.val * 2 ^ 41 +
    (if eos then 2 ^ 40 else 0) + min count (2 ^ 32 - 1))

/-- Who a parser's fault names. -/
def parserWho (s : State) (c : CoreId) (p : ParserId) : Who :=
  { unitWho s c 5 p.val with wid := (at' (coreAt s c).parsers p).lastWid }

/-- A parser of a core changed. -/
def onParser (s : State) (c : CoreId) (p : ParserId) (f : Parser → Parser) : State := modCore s c fun k => modParser k p f

/-- A parse fault (R70). -/
def parseFault (s : State) (c : CoreId) (p : ParserId) (code : FaultCode) (word : DWord) : State :=
  raise code (parserWho s c p) 0 word (onParser s c p fun z => { z with state := .faulted, mismatch := word })

/-- The work ID of the offending token: of none at EOS or in byte mode, the last accepted token's (R61). -/
def offendingWid (z : Parser) (t : Nat) : DWord :=
  let last := if z.anyTok then z.lastWid else 0
  if t = eosTerm || z.byte then last
  else match (z.items.head?).bind (·.toks.head?) with
    | some k => k.wid
    | none => last

/-- The feed of a byte-mode parser after a mismatch: the rest of its bytes is not fed (R204). -/
def cutFeed (f : Feed) : Feed := { f with bytes := [], st := 2 }

/-- A mismatch (R67): the word is recorded, with COUNT 0 where no sequence is open. With a recovery record the stack empties and
the parser discards; without one the launch ends. -/
def parseMismatch (s : State) (c : CoreId) (p : ParserId) (g : Grammar) (kind : Bool) (sym t : Nat) : State :=
  let z := at' (coreAt s c).parsers p
  let word := mismatchWord p kind sym t z.stack.length (if z.stack.isEmpty then 0 else z.tokens) g.byte
  match g.recov with
  | none => parseFault s c p .parseMismatch word
  | some r => onParser s c p fun z =>
      let pend := (recAction r).map fun w => (⟨w, true, none, [], offendingWid z t⟩ : PendAct)
      let rest := if g.byte || t = eosTerm then (if pend.isSome then PState.permit else .run) else .discard
      { z with
        mismatch := word
        recn := min 8191 (z.recn + 1)
        recNow := (s.now, if z.recNow.1 = s.now then z.recNow.2 + 1 else 1)
        stack := []
        opened := false
        fence := z.nextAct
        pend := pend
        state := rest
        feed := z.feed.map cutFeed }

/-! ## Byte mode: hold-back (R207) -/

/-- A token of an accepted byte. -/
def byteTok (v : Byte) : GTok := ⟨⟨0, false, 0, v.setWidth 32⟩, 0, none⟩
/-- The void token with M1 that closes an output. -/
def closeTok : GTok := ⟨⟨1, true, 0, 0⟩, 0, none⟩

/-- Whether a string ends another. -/
def endsWith (xs ys : List Byte) : Bool := ys.length ≤ xs.length && xs.drop (xs.length - ys.length) == ys

/-- The longest stop string that ends the buffer. -/
def stopHit (stops : List (List Byte)) (buf : List Byte) : Option (List Byte) :=
  (stops.filter (endsWith buf)).foldl (fun (m : Option (List Byte)) x =>
    match m with
    | none => some x
    | some y => if y.length < x.length then some x else some y) none

/-- How many bytes of the buffer's end stay held: its longest suffix that properly begins a stop string. -/
def heldLen (stops : List (List Byte)) (buf : List Byte) : Nat :=
  ((List.range (buf.length + 1)).filter fun n =>
    stops.any fun x => n < x.length && x.take n == buf.drop (buf.length - n)).foldl max 0

/-- The first bytes of a buffer as tokens, with the tokens of MARK words at their places among them (R274). -/
def interleave (late : List (Nat × GTok)) (bs : List Byte) : List GTok :=
  (List.range (bs.length + 1)).flatMap fun i =>
    (late.filter (·.1 == i)).map (·.2) ++ (bs[i]?).toList.map byteTok

/-- The first `n` bytes of a buffer released; the rest stays held, with the MARKs behind it. -/
def releaseBytes (z : Parser) (buf : List Byte) (n : Nat) : Parser :=
  { z.emit (interleave z.late (buf.take n)) with
    hold := buf.drop n
    late := (z.late.filter (n < ·.1)).map fun x => (x.1 - n, x.2) }

/-- The held bytes and MARKs released, and the output closed. -/
def closeOut (z : Parser) : Parser :=
  let z1 := releaseBytes z z.hold z.hold.length
  { z1.emit (z1.late.map (·.2) ++ [closeTok]) with late := [] }

/-- A byte accepted (R207): it joins the hold-back buffer, whose free part is released; a stop string ends the feed. -/
def acceptByte (z : Parser) (f : Feed) (v : Byte) (rest : List Byte) : Parser :=
  let buf := z.hold ++ [v]
  let f1 := { f with bytes := rest, nacc := f.nacc + 1 }
  match stopHit z.stops buf with
  | some x =>
    let z1 := releaseBytes z buf (buf.length - x.length)
    { closeOut { z1 with hold := [], late := z1.late.map fun y => (0, y.2) } with
      stopped := true
      feed := some { f1 with bytes := [], eos := false, st := 1 } }
  | none =>
    { releaseBytes z buf (buf.length - heldLen z.stops buf) with feed := some f1 }

/-! ## PARSE_STEP (R48) -/

/-- The path of instances above the stack's top. -/
def stackPath (st : List Frame) : List Nat := st.map (·.inst)

/-- A production opened: its frame, and its expansion action waiting (R48). -/
def openProd (g : Grammar) (z : Parser) (p : Nat) : Parser :=
  let st := ⟨p, 0, false, z.nextInst, z.accepted⟩ :: z.stack
  let z1 := { z with stack := st, nextInst := z.nextInst + 1 }
  match prodExpansion (prodAt g p) with
  | some w => { z1 with state := .permit, pend := some ⟨w, false, none, stackPath st, 0⟩ }
  | none => z1

/-- The top instance popped; an empty stack ends a sequence (R46, R72). -/
def popFrame (z : Parser) : Parser :=
  let z1 := { z with stack := z.stack.tail }
  if z1.stack.isEmpty then { z1 with seqn := min (2 ^ 32 - 1) (z1.seqn + 1), opened := false } else z1

/-- The item in front accepted: the gate may release its tokens, and the look-ahead moves on (R49). -/
def acceptItem (z : Parser) : Parser :=
  match z.items with
  | [] => z
  | x :: xs =>
    { z with
      items := xs
      rel := z.rel ++ x.toks
      accepted := z.accepted + 1
      tokens := z.tokens + x.toks.length
      lastWid := match x.toks.getLast? with | some t => t.wid | none => z.lastWid
      anyTok := true }

/-- The next terminal accepted. -/
def acceptNext (z : Parser) : Parser :=
  if z.byte then match z.feed with
    | some f => match f.bytes with
      | v :: rest => { acceptByte z f v rest with accepted := z.accepted + 1, tokens := z.tokens + 1 }
      | [] => z
    | none => z
  else acceptItem z

/-- The done token of a parser can go out, on sub-port 1 of its edge router (R80). -/
def canSendDone (k : Core) (p : ParserId) : Bool := canSend k (agRouter (Fin.ofNat 16 p.val)) 1
/-- The parser's done token. -/
def sendDone (k : Core) (p : ParserId) : Core := sendLocal k (agRouter (Fin.ofNat 16 p.val)) 1 (.bit true)

/-- A feed's result word (R205). -/
def feedResult (f : Feed) : DWord := BitVec.ofNat 64 (f.st.toNat * 2 ^ 62 + f.nacc)

/-- Whether a parser's feed is that of a GSTOP. -/
def ofGstop (s : State) (cmd : Nat) : Bool :=
  match (engBy s cmd).map fun g => g.i with
  | some i => (match i with | .gstop _ => true | _ => false)
  | none => false

/-- The end of the stream on an empty stack (R48): the parser goes idle and sends its done token. In byte mode the
output closes; a GFEED is then complete, and a GSTOP waits for the actions (R204, R352). -/
def parseEnd (s : State) (c : CoreId) (p : ParserId) (g : Grammar) : State :=
  let z := at' (coreAt s c).parsers p
  match (if g.byte then z.feed else none) with
  | some f =>
    if ofGstop s f.cmd then
      active (onParser s c p fun z => { closeOut z with feed := none, stopping := some f.cmd }) c
    else if !canSendDone (coreAt s c) p then s
    else
      let f1 := { f with eos := false, st := if f.st = 0 then 3 else f.st }
      let s1 := modCore s c fun k => sendDone (modParser k p fun z => { closeOut z with feed := none, state := .idle }) p
      active (landedWith s1 f.cmd (feedResult f1) 0) c
  | none =>
    if !canSendDone (coreAt s c) p then s
    else active (modCore s c fun k => sendDone (modParser k p fun z =>
      { z with state := .idle, ag := none, eos := false }) p) c

/-- A GSTOP whose parser's fired actions are all done (R352). -/
def stopDone (s : State) (c : CoreId) (p : ParserId) (cmd : Nat) : State :=
  let z := at' (coreAt s c).parsers p
  if !z.acts.isEmpty || z.run.isSome || !canSendDone (coreAt s c) p then s
  else
    let s1 := modCore s c fun k => sendDone (modParser k p fun z => { z with state := .idle, stopping := none }) p
    active (landed s1 cmd) c

/-- One step of a running parser. -/
def parseOn (s : State) (c : CoreId) (p : ParserId) (g : Grammar) : State :=
  let z := at' (coreAt s c).parsers p
  let put' (z : Parser) : State := active (onParser s c p fun _ => z) c
  let t1 := look1 g z
  let term := t1.getD eosTerm
  match parseMove g z.start z.stack z.accepted t1 (lookBoth g z) with
  | .finish => parseEnd s c p g
  | .openSeq e => put' (openProd g { z with tokens := 0, opened := true } e)
  | .close =>
    match z.stack with
    | f :: _ => match prodCompletion (prodAt g f.prod) with
      | some w => put' { z with state := .permit, pend := some ⟨w, false, some f.inst, stackPath z.stack, 0⟩ }
      | none => put' (popFrame z)
    | [] => s
  | .leave st => put' { z with stack := st }
  | .accept st => countEvent (progressOf (put' (acceptNext { z with stack := st })) c) c 5
  | .open' st e sym =>
    if st.length ≥ 128 then parseFault s c p .parseStack (mismatchWord p false sym term 128 z.tokens g.byte)
    else put' (openProd g { z with stack := st } e)
  | .mismatch kind sym => active (parseMismatch s c p g kind sym term) c
  | .blocked => s

/-- A GFEED whose bytes have been accepted, or whose feed has stopped, is complete (R204). -/
def feedOver (z : Parser) : Option Feed :=
  match z.feed with
  | some f => if f.bytes.isEmpty && !f.eos then some f else none
  | none => none

/-- Whether the next step of a parser looks up the table: to open a sequence, or at a nonterminal (R48, R50). -/
def needsTable (g : Grammar) (z : Parser) : Bool :=
  match z.stack with
  | [] => (look1 g z).any (· != eosTerm)
  | f :: _ => decide (f.pos < prodItems (prodAt g f.prod)) && itemIsNt (itemAt g f.prod f.pos)

/-- Whether a parser runs and knows the look-ahead that its next step needs. -/
def stepReady (g : Grammar) (z : Parser) : Bool :=
  z.state == .run && !z.frozen && z.stopping.isNone && (feedOver z).isNone &&
    parseMove g z.start z.stack z.accepted (look1 g z) (lookBoth g z) != .blocked

/-- Whether a parser has the table port, which goes round-robin to the parsers that are ready for a lookup (R22, R50). -/
def hasTable (k : Core) (g : Grammar) (p : ParserId) : Bool :=
  nextTurn k.tabTurn (fun q => let z := at' k.parsers q; stepReady g z && needsTable g z) == some p

/-- A step of a running parser: one that looks up the table takes its turn at the table's port. -/
def parseTurn (s : State) (c : CoreId) (p : ParserId) (g : Grammar) : State :=
  let k := coreAt s c
  if !needsTable g (at' k.parsers p) then parseOn s c p g
  else if hasTable k g p then parseOn (modCore s c fun k => { k with tabTurn := p }) c p g
  else s

/-- PARSE_STEP (R48). -/
def execParseStep (c : CoreId) (p : ParserId) (s : State) : Out :=
  .next (
    let k := coreAt s c
    let z := at' k.parsers p
    if !coreSteps s c || z.frozen then s
    else match z.stopping with
      | some cmd => stopDone s c p cmd
      | none => match k.grammar with
        | none => s
        | some g =>
          match feedOver z with
          | some f =>
            active (landedWith (onParser s c p fun z => { z with feed := none }) f.cmd (feedResult f) 0) c
          | none => if z.state = .run then parseTurn s c p g else s)

/-! ## The tap, the gate, recovery (R34, R46, R49, R68) -/

/-- The item that the tap can close (R46). -/
def nextItem (z : Parser) : Option (Item × List GTok) :=
  match z.fresh with
  | [] => none
  | t :: ts =>
    if t.tok.mark ≠ 0 then some (⟨t.tok.mark.toNat, [t]⟩, ts)
    else
      let run := (z.fresh.takeWhile fun x => x.tok.mark == 0).take 64
      let rest := z.fresh.drop run.length
      if run.length = 64 || !rest.isEmpty || z.eos then some (⟨0, run⟩, rest) else none

/-- TAP_ITEM (R46). -/
def execTapItem (c : CoreId) (p : ParserId) (s : State) : Out :=
  .next (if !coreSteps s c then s
    else match nextItem (at' (coreAt s c).parsers p) with
      | some (x, rest) => active (onParser s c p fun z => { z with items := z.items ++ [x], fresh := rest }) c
      | none => s)

/-- The discard is over: the recovery action waits to fire, or the parser runs on. -/
def endDiscard (z : Parser) : Parser := { z with state := if z.pend.isSome then .permit else .run }

/-- RECOVERY_DISCARD (R68): one item is discarded, up to the first of level k or higher; the stream's end ends it. -/
def execRecoveryDiscard (c : CoreId) (p : ParserId) (s : State) : Out :=
  .next (
    let k := coreAt s c
    let z := at' k.parsers p
    if !coreSteps s c || z.frozen || z.state ≠ .discard then s
    else match z.items with
      | [] => if tapDry z then active (onParser s c p endDiscard) c else s
      | x :: xs =>
        let L := match holderOf s c with | some l => levels l.recd | none => 6
        let level := if x.term = 7 then (match x.toks with | t :: _ => poisonOf L t.tok | [] => L) else x.term
        let k' := match k.grammar.bind (·.recov) with | some r => recLevel r | none => 1
        let z1 := { z with items := xs }
        active (onParser s c p fun _ => if k' ≤ level then endDiscard z1 else z1) c)

/-- GATE_RELEASE (R34, R49, R325): the oldest accepted token, or the oldest token of a byte-mode output, enters its circuit;
the word of a MARK is then done (R63), and its token is none that the gate released (R325). -/
def execGateRelease (c : CoreId) (p : ParserId) (s : State) : Out :=
  .next (
    let k := coreAt s c
    let z := at' k.parsers p
    let go (t : GTok) (edge : AgId) (vc : BitVec 2) (f : Parser → Parser) : State :=
      let r := agRouter edge
      let q : Fin 4 := Fin.ofNat 4 vc.toNat
      if !coreSteps s c || !canWrite k r q then s
      else
        let s1 := active (modCore s c fun k => writeLocal (modParser k p f) r q (.tok t.tok)) c
        match t.act with
        | some a => wordDone s1 c p a
        | none => if z.byte then s1 else countEvent s1 c 4
    if z.byte then match z.out with
      | (t, edge, vc) :: ts => go t edge vc fun z => { z with out := ts }
      | [] => s
    else match z.rel with
      | t :: ts => go t z.outEdge z.outVc fun z => { z with rel := ts }
      | [] => s)

/-! ## ACTION_FIRE (R61, R64, R69) -/

/-- Whether an instance permits an action that fires beneath it (R64). -/
def permits (g : Grammar) (acts : List ActRec) (x : PendAct) (f : Frame) : Bool :=
  let d := prodAt g f.prod
  let undone := (acts.filter fun a => a.path.contains f.inst).length
  match prodMode d with
  | 0 => undone == 0
  | 1 => if x.completes = some f.inst then undone == 0 else decide (undone < prodDepth d)
  | _ => true

/-- Whether an action may fire now: every permit up to the root, and the actions before the last mismatch done. A
recovery action waits for no permit (R68). -/
def mayFire (g : Grammar) (z : Parser) (x : PendAct) : Bool :=
  x.recovery || (z.stack.all (permits g z.acts x) && z.acts.all fun a => decide (z.fence ≤ a.id))

/-- The work ID that a15 receives as an action fires (R61): the last accepted token's, or the offending token's. -/
def firedWid (z : Parser) (x : PendAct) : DWord := if x.recovery then x.a15 else if z.anyTok then z.lastWid else 0

/-- The registers that AUTO writes (R61). -/
def autoRegs (z : Parser) (x : PendAct) : Parser :=
  let a15 := firedWid z x
  let a14 := if x.recovery then z.mismatch else BitVec.ofNat 64 z.tokens
  { z with a := put (put z.a 15 a15) 14 a14 }

/-- Whether the gate holds no accepted token; the tokens of MARK words are none (R61, R274). In byte mode these are the tokens
on their way out, and not the hold-back buffer (log entry 92). -/
def gateQuiet (z : Parser) : Bool := (if z.byte then z.out.map (·.1) else z.rel).all (·.act.isSome)

/-- ACTION_FIRE (R61): the waiting action gets its permit, waits for the gate where GREL asks for it, and begins, once
the words of the parser's earlier action have run. A completed instance is then popped. -/
def execActionFire (c : CoreId) (p : ParserId) (s : State) : Out :=
  .next (
    let k := coreAt s c
    let z := at' k.parsers p
    match z.pend, k.grammar with
    | some x, some g =>
      if !coreSteps s c || z.frozen || z.state ≠ .permit || z.run.isSome || !mayFire g z x || (actGrel g x.word && !gateQuiet z) then s
      else
        let n := actWords g x.word
        let z1 := if actAuto g x.word then autoRegs z x else z
        let z2 := { z1 with
          pend := none
          state := .run
          acts := z1.acts ++ [⟨z1.nextAct, x.path, n⟩]
          nextAct := z1.nextAct + 1
          run := some ⟨z1.nextAct, x.word + 1, x.word + 1 + n, false, firedWid z x⟩ }
        active (onParser s c p fun _ => if x.completes.isSome then popFrame z2 else z2) c
    | _, _ => s)

/-! ## The parser commands when they start (R350 to R353) -/

/-- The check of R350. -/
def grmOk (s : State) (g : Eng) (f : GrmForm) (stat : Bool) (byteOnly : Bool) (start : Bool) : Bool :=
  match (coreAt s g.who.core).grammar with
  | none => false
  | some x =>
    (stat || g.agent != .parser (Fin.ofNat 4 f.p.toNat)) && (!byteOnly || x.byte) &&
    (!start || x.byte || (isZero f.d && f.oedge == 0 && f.ovc == 0))

/-- Entry i of a stop table's dwords (R208): its string, or `none` where it is malformed. -/
def stopEntry (ds : List DWord) (i : Nat) : Option (List Byte) :=
  let n := (dw ds (1 + 5 * i)).toNat
  let bs := ((List.range 4).map fun j => bytesLE 8 (dw ds (2 + 5 * i + j)).toNat).flatten
  if n = 0 || n > 32 || (bs.drop n).any (· != 0) then none else some (bs.take n)

/-- Every string of a stop table; `none` where it is malformed. -/
def stopTable (ds : List DWord) : Option (List (List Byte)) :=
  let n := (dw ds 0).toNat
  if n > 8 then none else (List.range n).mapM (stopEntry ds)

/-- The stop table at an address: read, checked (R208). -/
def readStops (s : State) (g : Eng) (addr : Nat) : List (List Byte) ⊕ EngFault :=
  if addr % 8 ≠ 0 then .inr ⟨.align, BitVec.ofNat 64 addr, 0, .fault⟩
  else match engRead s g addr 8 with
    | .inr e => .inr e
    | .inl h =>
      let n := (dw (dwordsOf h) 0).toNat
      if n > 8 then .inr ⟨.illegalOperand, BitVec.ofNat 64 addr, 0, .fault⟩
      else match engRead s g addr (8 + 40 * n) with
        | .inr e => .inr e
        | .inl bs => match stopTable (dwordsOf bs) with
          | some xs => .inl xs
          | none => .inr ⟨.illegalOperand, BitVec.ofNat 64 addr, 0, .fault⟩

/-- START of a GSTART (R349). -/
def grmStart (f : GrmForm) : Nat := f.n.toNat * 8 + (if f.fin then 4 else 0) + f.s.toNat

/-- GSTART starts (R351). -/
def startGstart (f : GrmForm) (s : State) (g : Eng) : Start :=
  let c := g.who.core
  let p : ParserId := Fin.ofNat 4 f.p.toNat
  let z := at' (coreAt s c).parsers p
  match (coreAt s c).grammar with
  | none => badStart .illegalOperand 0
  | some x =>
    if !grmOk s g f false false true then badStart .illegalOperand 0
    else if z.state ≠ .idle ∧ !z.stopped then .wait
    else if grmStart f ≥ x.nnt ∨ (x.byte ∧ f.ovc = 3) then badStart .illegalOperand 0
    else match (if isZero f.d then .inl [] else readStops s g g.d.toNat) with
      | .inr e => .trap e
      | .inl stops =>
        .go (active (landed (onParser s c p fun z =>
          { z with
            state := .run, stopped := false, start := grmStart f, la2 := x.la2, byte := x.byte, recn := 0, recNow := (0, 0), seqn := 0
            stack := [], a := put (Vector.replicate 16 0) 0 g.a, mismatch := 0, pend := none
            accepted := 0, tokens := 0, lastWid := 0, anyTok := false, opened := false
            hold := [], late := [], stops := stops
            outEdge := if x.byte then Fin.ofNat 16 f.oedge.toNat else z.outEdge
            outVc := if x.byte then f.ovc else z.outVc }) g.id) c)

/-- Tokens thrown away unreleased: the words of the MARKs among them are done (R274). -/
def dropToks (s : State) (c : CoreId) (p : ParserId) (ts : List GTok) : State :=
  ts.foldl (fun s t => match t.act with | some a => wordDone s c p a | none => s) s

/-- GSTOP without END (R352): the parse is abandoned, and one poison token stands for all that was not released. -/
def abandonParse (s : State) (l : Launch) (c : CoreId) (p : ParserId) (cmd : Nat) : State :=
  let z := at' (coreAt s c).parsers p
  let s1 := dropToks s c p (z.rel ++ z.late.map (·.2))
  let L := levels l.recd
  let s2 := onParser s1 c p fun z =>
    let z1 := { z with
      stack := [], pend := none, opened := false, stopping := some cmd
      hold := [], late := [], state := .run }
    if z.byte then z1.emit [⟨poisonTok 0 1, 0, none⟩]
    else
      { z1 with
        fresh := [], items := [], eos := false
        rel := if z.ag.isSome then [⟨poisonTok 0 L, z.lastWid, none⟩] else []
        ag := if z.eos then none else z.ag }
  match z.ag with
  | some a => if z.byte || z.eos then s2 else modCore s2 c fun k => modAg k a fun g => { g with drop := true }
  | none => s2

/-- GSTOP starts (R352). -/
def startGstop (f : GrmForm) (s : State) (l : Launch) (g : Eng) : Start :=
  let c := g.who.core
  let p : ParserId := Fin.ofNat 4 f.p.toNat
  let z := at' (coreAt s c).parsers p
  if !grmOk s g f false f.fin false then badStart .illegalOperand 0
  else if z.state = .idle ∨ z.stopped then .go (landed s g.id)
  else if f.fin then
    .go (startedOn (onParser s c p fun z => { z with feed := some ⟨g.id, [], true, 0, 0⟩ }) g.id)
  else .go (startedOn (abandonParse s l c p g.id) g.id)

/-- The mask of the bytes that a parser would accept, and whether the end of text would be (R201). -/
def parserMask (g : Grammar) (z : Parser) : List Byte × Bool :=
  let stack := z.stack.map fun f => { f with accAt := if f.accAt = z.accepted then 0 else 1 }
  let ok (t : Nat) : Bool := dryRun g z.start t dryFuel stack
  let oks := (List.range 64).map ok
  let bit (v : Nat) : Bool := (oks[((g.classes[v]?).getD 0).toNat]?).getD false
  ((List.range 32).map fun i =>
    BitVec.ofNat 8 (((List.range 8).map fun b => if bit (8 * i + b) then 2 ^ b else 0).sum), ok eosTerm)

/-- GMASK starts (R353, R201, R202). It reports ST 0, on a stopped parser too (log entry 93). -/
def startGmask (f : GrmForm) (s : State) (g : Eng) : Start :=
  let c := g.who.core
  let p : ParserId := Fin.ofNat 4 f.p.toNat
  let addr := g.a.toNat
  match (coreAt s c).grammar with
  | none => badStart .illegalOperand 0
  | some x =>
    if !grmOk s g f false true false then badStart .illegalOperand 0
    else if addr % 32 ≠ 0 then badStart .align addr
    else match spanFrom s (.engine g.id) c g.ctx (fun _ r loc => allowed s .write loc r && unitHome loc) 3 addr 32 with
      | .inr e => .trap e
      | .inl _ =>
        let m := parserMask x (at' (coreAt s c).parsers p)
        .go (landedWith (engWrite s g addr m.1) g.id (if m.2 then 1#64 <<< 61 else 0) 0)

/-- GFEED starts (R353, R204): its bytes are handed to the parser's procedure. -/
def startGfeed (f : GrmForm) (s : State) (g : Eng) : Start :=
  let c := g.who.core
  let p : ParserId := Fin.ofNat 4 f.p.toNat
  let n := f.n.toNat
  if !grmOk s g f false true false then badStart .illegalOperand 0
  else if n = 0 ∨ n > 4 ∨ (at' (coreAt s c).parsers p).stopped then badStart .illegalOperand 0
  else .go (startedOn (onParser s c p fun z =>
    { z with feed := some ⟨g.id, (bytesLE 8 g.a.toNat).take n, f.fin, 0, 0⟩ }) g.id)

/-- GSTAT starts (R353): the parser's latest mismatch word. -/
def startGstat (f : GrmForm) (s : State) (g : Eng) : Start :=
  let p : ParserId := Fin.ofNat 4 f.p.toNat
  if !grmOk s g f true false false then badStart .illegalOperand 0
  else .go (landedWith s g.id (at' (coreAt s g.who.core).parsers p).mismatch 0)

end Sys2Proof.Machine
end

