-- ==== Sys2Proof/Machine/Load.lean ====
section
/-! DEFINITION. The relocating loader (R374): the checks of grammar images (R60) and fabric images (R37, R39, R74, R78, R90,
R95, R221, R299), the pages of images (R400), a configured core (R392) and the start of a launch (R375, R378). -/

namespace Sys2Proof.Machine
open Sys2Proof

/-! ## Grammar images (R52 to R60) -/

/-- The columns of a nonterminal's row (R47). -/
def laColumns (h : DWord) : Nat := if bitOf h 14 then 64 else if field h 16 15 = 2 then 81 else 9
/-- The LAROW records of an image. -/
def laRows (h : DWord) : Nat := (field h 23 17 * laColumns h + 3) / 4
/-- The length of a grammar image in dwords (R53). -/
def grammarLen (h : DWord) : Nat :=
  2 + field h 47 37 + field h 60 48 + laRows h + (if bitOf h 13 then 1 else 0) + field h 36 24 +
    (if bitOf h 14 then 32 else 0)

/-- Whether the header's counts and fields stand (R45, R52). -/
def grammarHead (ds : List DWord) : Bool :=
  let h := dw ds 0
  let la := field h 16 15
  field h 63 61 == 0 && field h 12 0 == 0 && field (dw ds 1) 31 0 == 0 && decide (field h 60 48 ≤ 4096) &&
  decide (1 ≤ field h 47 37) && decide (field h 47 37 ≤ 1024) && decide (field h 36 24 ≤ 4096) &&
  decide (1 ≤ field h 23 17) && decide (field h 23 17 ≤ 64) && (la == 1 || (la == 2 && !bitOf h 14)) &&
  ds.length == grammarLen h && chkOk ds

/-- Whether a PROD record stands, action indices apart (R54). -/
def prodOk (nnt nrhs : Nat) (d : DWord) : Bool :=
  field d 63 56 == 0x80 && field d 1 0 == 0 && field d 49 48 != 3 && (field d 47 45 == 0 || field d 49 48 == 1) &&
  decide (field d 55 50 < nnt) && decide (field d 39 28 + field d 44 40 ≤ nrhs)

/-- Whether an RHS record stands (R55). -/
def rhsOk (nnt : Nat) (byte : Bool) (d : DWord) : Bool :=
  field d 63 56 == 0x81 && field d 46 0 == 0 && itemQ d != 3 &&
  (if itemIsNt d then decide (itemSym d < nnt) else byte || decide (itemSym d < 8))

/-- The four entries of a LAROW record. -/
def rowEntries (d : DWord) : List (BitVec 12) := (List.range 4).map fun j => d.extractLsb' (12 * j) 12

/-- Whether a LAROW record's fixed fields stand (R56). -/
def rowOk (d : DWord) : Bool := field d 63 56 == 0x82 && field d 55 48 == 0

/-- Whether a table entry stands: an error, or a production of the entry's row. -/
def entryOk (h : DWord) (prods : List DWord) (ix : Nat) (v : BitVec 12) : Bool :=
  v == 0xFFF || (decide (ix < field h 23 17 * laColumns h) && decide (v.toNat < prods.length) &&
    field (dw prods v.toNat) 55 50 == ix / laColumns h)

/-- What an entry asks of its word in an image, beyond checks 1 to 6: no reserved OP of an ATOM (R139), no CC from 6 up (R249),
and a GSKIP that stays within its action, of which `after` words follow it. -/
def imageEntryOk (after : Nat) : Instr → Bool
  | .atom f => decide ((f.x.extractLsb' 8 4).toNat ≤ 0xB)
  | .cmp f => (checkCc f).isNone
  | .cmpi f => decide ((mCc f.m).toNat ≤ 5)
  | .gskip f => decide (f.n.toNat ≤ after)
  | _ => true

/-- Whether an action word stands: the loader makes checks 1 to 6 of R225, and those that entries give an image. Every other
entry check is made when the word runs. -/
def actionWordOk (after : Nat) (w : DWord) : Bool :=
  match decodeWord w with
  | some i => (checkStage .action false i).isNone && imageEntryOk after i
  | none => false

/-- The indices of the GACT headers, when the action words are actions one after another (R58). Words that no header covers
make the image bad: R60 does not name the case, and refusing them is the model's choice (log entry 79). -/
def actionHeads (acts : List DWord) : Nat → Nat → Option (List Nat)
  | 0, _ => none
  | fuel + 1, i =>
    if i = acts.length then some []
    else
      let h := dw acts i
      let n := field h 55 53 + 1
      if field h 63 56 == 0x86 && field h 50 0 == 0 && decide (i + 1 + n ≤ acts.length) &&
          ((List.range n).all fun j => actionWordOk (n - 1 - j) (dw acts (i + 1 + j))) then
        (actionHeads acts fuel (i + 1 + n)).map (i :: ·)
      else none

/-- Whether an action index, if there is one, points at a header. -/
def indexOk (heads : List Nat) (x : Option Nat) : Bool := match x with | some i => heads.contains i | none => true

/-- A grammar image that passes the checks of R60; `none` for one that is refused. A RECOV entry of LVL 0 or 7, which R60's
list does not name, is refused too (log entry 91). -/
def grammarOf (ds : List DWord) : Option Grammar :=
  let h := dw ds 0
  if !grammarHead ds then none
  else
    let nnt := field h 23 17
    let byte := bitOf h 14
    let a := 2 + field h 47 37
    let b := a + field h 60 48
    let c := b + laRows h
    let d := c + (if bitOf h 13 then 1 else 0)
    let prods := (ds.drop 2).take (field h 47 37)
    let rhs := (ds.drop a).take (field h 60 48)
    let rows := (ds.drop b).take (laRows h)
    let acts := (ds.drop d).take (field h 36 24)
    let classes := if byte then (ds.drop (d + acts.length)).flatMap fun x => bytesLE 8 x.toNat else []
    let recov := if bitOf h 13 then some (dw ds c) else none
    let table := rows.flatMap rowEntries
    match actionHeads acts 4097 0 with
    | none => none
    | some heads =>
      if prods.all (fun p => prodOk nnt rhs.length p && indexOk heads (prodExpansion p) && indexOk heads (prodCompletion p)) &&
          rhs.all (rhsOk nnt byte) && rows.all rowOk &&
          (((List.range table.length).zip table).all fun x => entryOk h prods x.1 x.2) &&
          (match recov with
            | some r => field r 63 56 == 0x83 && field r 39 0 == 0 && decide (1 ≤ recLevel r) && decide (recLevel r ≤ 6) &&
                indexOk heads (recAction r)
            | none => true) &&
          classes.all (fun v => decide (v.toNat < 64)) then
        some ⟨field h 16 15 == 2, byte, nnt, prods, rhs, table, recov, acts, classes⟩
      else none

/-! ## Nodes (R74, R78, R221, R267, R269, R271) -/

/-- How an instruction uses format tags: the l sources with the tag each must hold, its destination, the tag the
destination takes, and the source whose tag a MOV carries (R98). -/
structure TagUse where
  need : List (Operand × Fmt)
  dst : Operand
  tag : Fmt
  copy : Option Operand
  deriving DecidableEq, Repr

/-- The tags of an integer, bit or floating-point register form. -/
def regTags (f : RegForm) (need : List Operand) (tag : Fmt) : TagUse := ⟨need.map fun o => (o, fmtField f.m), f.d, tag, none⟩
/-- The tags of a memory form that reads. -/
def memTags (f : RegForm) : TagUse := ⟨[], f.d, tfmt f.x, none⟩
/-- The tags of an immediate form. -/
def immTags (f : ImmForm) (chk : Bool) : TagUse :=
  ⟨if chk then [(f.a, fmtField f.m)] else [], f.d, fmtField f.m, none⟩

/-- The tag use of a node instruction (R98, R250, R255, R259 to R261, R265, R284). -/
def tagUse : Instr → TagUse
  | .add f | .sub f | .mul f | .mulh f | .div f | .rem f | .min f | .max f | .cmp f
  | .fadd f | .fsub f | .fmul f | .fmin f | .fmax f | .fsgn f => regTags f [f.a, f.b] (fmtField f.m)
  | .addi f | .muli f | .cmpi f => immTags f true
  | .and f | .or f | .xor f | .andn f | .shl f | .shr f | .sar f | .clz f | .popc f | .bfx f | .bfi f =>
    regTags f [] (fmtField f.m)
  | .andi f | .ori f | .xori f | .shli f | .shri f | .sari f | .movi f => immTags f false
  | .mov f => ⟨[], f.d, fmtField f.m, some f.a⟩
  | .fma f => regTags f [f.a, f.b, f.c] (fmtField f.m)
  | .frcp f | .frsq f | .fexp2 f | .flog2 f | .frnd f => regTags f [f.a] (fmtField f.m)
  | .fcmp f => regTags f [f.a, f.b] .i32
  | .fcls f => regTags f [f.a] .i32
  | .cvt f => ⟨[(f.a, (fmtOf (f.x.extractLsb' 4 4)).getD .raw)], f.d, fmtField f.m, none⟩
  | .cvts f => ⟨[(f.a, (fmtOf (f.x.extractLsb' 4 4)).getD .raw), (f.b, .i32)], f.d, fmtField f.m, none⟩
  | .selt f => regTags f [f.b, f.c] (fmtField f.m)
  | .steer f | .gate f | .emit f => regTags f [f.a] (fmtField f.m)
  | .acc f => ⟨[(f.a, fmtField f.m), (f.b, fmtField f.m)], f.b, fmtField f.m, none⟩
  | .tagchk f => regTags f [] .i32
  | .ld f | .ldv f | .atom f | .cas f | .append f | .ticket f | .gath f => memTags f
  | .ldi f => ⟨[], f.d, ldiFmt f.m, none⟩
  | _ => ⟨[], .x 0, .raw, none⟩

/-- The sets of tags that the l registers may hold. -/
abbrev TagSets := Vector (List Fmt) 8

/-- The sets after an instruction whose write a false predicate or a void source may suppress. -/
def tagsAfter (st : TagSets) (u : TagUse) : TagSets :=
  match u.dst with
  | .l r =>
    let new := match u.copy with | some (.l q) => at' st q | _ => [u.tag]
    put st r ((at' st r ++ new).eraseDups)
  | _ => st

/-- Whether every l source holds exactly the tag that it must (R221): the sets only grow around the firing, so those
at which nothing changes hold at every point of it. -/
def nodeTagsOk (n : Node) (is : List Instr) : Bool :=
  let us := is.map tagUse
  let st := (List.range 90).foldl (fun st _ => us.foldl tagsAfter st) (Vector.ofFn fun i => [at' n.tag i])
  us.all fun u => u.need.all fun x => match x.1 with | .l r => at' st r == [x.2] | _ => true

/-- Whether pushes and pops balance within 0 to 8 entries (R78). -/
def predsOk : List Instr → Nat → Bool
  | [], d => d == 0
  | .pushp _ :: is, d => decide (d < 8) && predsOk is (d + 1)
  | .popp _ :: is, d => decide (0 < d) && predsOk is (d - 1)
  | _ :: is, d => predsOk is d

/-- Whether a list names nothing twice. -/
def noDup {α : Type} [DecidableEq α] (xs : List α) : Bool := xs.eraseDups.length == xs.length

/-- Whether the ports of every MERGE are two, and no other instruction names them (R271): its own condition may be one. -/
def mergesOk (is : List Instr) : Bool :=
  is.zipIdx.all fun x => match x.1 with
    | .merge f => f.b != f.c && is.zipIdx.all fun y =>
        y.2 == x.2 || !((operandsOf y.1).contains f.b || (operandsOf y.1).contains f.c)
    | _ => true

/-- Whether the instructions may stand together in a node of a launch of `L` levels (R74, R78, R267). -/
def nodeShapeOk (L : Nat) (is : List Instr) : Bool :=
  let isBnd (i : Instr) : Bool := match i with | .bnd _ => true | _ => false
  if is.any isBnd then
    is.all isBnd && decide (is.length ≤ 4) && noDup (is.flatMap fun i => (operandsOf i).take 1) &&
      noDup (is.flatMap fun i => ((operandsOf i).drop 1).take 1)
  else if is.any isStreamOp then
    is.length == 1 && (match is with | [.sphdr _] => decide (L < 6) | _ => true)
  else
    (is.flatMap operandsOf).any (fun o => (portIndex o).isSome) && noDup (is.flatMap portsWritten) && predsOk is 0 &&
      mergesOk is

/-- Whether a node passes the loader's checks. Its words and its length agree where the length, in which a special function
counts two, is at most 8 (R74, R95; log entry 72). -/
def nodeOk (L : Nat) (n : Node) : Bool :=
  let is := n.words.map decodeWord
  is.all (·.isSome) &&
    let js := is.filterMap id
    js.all (fun i => (checkWord .node i).isNone) && decide (nodeLength n.words ≤ 8) && nodeShapeOk L js && nodeTagsOk n js

/-- The operands that an instruction of a node reads: D only where it is a value source (R286), or a register of which the
instruction keeps bits (R248). -/
def sourcesOf : Instr → List Operand
  | .sti f => [f.d, f.a]
  | .bfi f => [f.d, f.a, f.b, f.c]
  | i => (operandsOf i).tail

/-- An instruction that issues and delivers: the cycle of the next issue, the cycles at which l registers are ready, and
the latest cycle so far in which a token enters an output's queue (R75). -/
def latencyStep (t : Nat × Vector Nat 8 × Nat) (i : Instr) : Nat × Vector Nat 8 × Nat :=
  let slow := match i with | .frcp _ | .frsq _ | .fexp2 _ | .flog2 _ => true | _ => false
  let start := (sourcesOf i).foldl (fun m o => match o with | .l r => max m (at' t.2.1 r) | _ => m) t.1
  let ready := start + (if slow then 6 else 1)
  (start + 1, (lWritten i).foldl (fun v r => put v r ready) t.2.1,
    if (portsNamed i).isEmpty then t.2.2 else max t.2.2 (ready + 1))

/-- A node's latency, from consuming its inputs to its last output (R75). -/
def nodeLatency (is : List Instr) : Nat := (is.foldl latencyStep (0, Vector.replicate 8 0, 0)).2.2

/-- Whether a node has an instruction that writes a q port (R95). -/
def writesPort (is : List Instr) (port : Fin 4) : Bool := is.any fun i => (portsNamed i).contains (.q port)

/-- Whether a node reads memory, so that its latency is not fixed (R299). -/
def nodeLoads (is : List Instr) : Bool :=
  is.any fun i => match i with
    | .ld _ | .ldi _ | .ldv _ | .atom _ | .cas _ | .append _ | .ticket _ | .gath _ => true
    | _ => false

/-! ## Records of a fabric image (R91 to R94) -/

/-- A fabric image taken apart. -/
structure FabImage where
  nodes : List Node
  routers : List Router
  rings : List Ring
  dscope : BitVec 24
  deriving DecidableEq, Repr


/-- The initial values of a node record: contents and tags of l0 to l7; `none` for a bad value. Of two dwords that name one
register the later one holds (log entry 84). -/
def initsOf (xs : List DWord) : Option (Vector (Word × Fmt) 8) :=
  xs.foldl (fun v x => match v, fmtOf (x.extractLsb' 35 4) with
    | some v, some f =>
      if field x 63 39 = 0 then some (put v (Fin.ofNat 8 (field x 34 32)) (x.setWidth 32, f)) else none
    | _, _ => none) (some (Vector.replicate 8 (0, .raw)))

/-- A node record (R92). -/
def nodeOf (ndom : Nat) (ds : List DWord) : Option Node :=
  let h := dw ds 0
  match initsOf ((ds.drop 1).take (field h 45 42)) with
  | none => none
  | some v =>
    if field h 63 60 = 1 ∧ field h 59 56 = 0 ∧ field h 35 0 = 0 ∧ field h 45 42 ≤ 8 ∧ field h 41 39 < ndom then
      some ⟨peOf (field h 55 49), recordWords ds, v.map (·.1), v.map (·.2), v, 0, Fin.ofNat 8 (field h 41 39),
        bitOf h 38, bitOf h 37, bitOf h 36, Vector.replicate 4 Place.zero, none, Shaper.zero, [], false⟩
    else none

/-- The router that KIND and IDX name. -/
def routerOf (kind idx : Nat) : Option RouterId :=
  match kind with
  | 0 => if idx < 128 then some (Fin.ofNat 176 idx) else none
  | 1 => if idx < 32 then some (Fin.ofNat 176 (128 + idx)) else none
  | 2 => if idx < 16 then some (Fin.ofNat 176 (160 + idx)) else none
  | _ => none

/-- The entries packed in dwords, the lower-addressed one in [31:0]. -/
def halves (ds : List DWord) : List Word := ds.flatMap fun d => [d.setWidth 32, d.extractLsb' 32 32]

/-- The route records in the dwords of the route section; `none` where they do not end with it. -/
def routersOf : Nat → List DWord → Option (List Router)
  | _, [] => some []
  | 0, _ => none
  | fuel + 1, h :: ds =>
    let nsw := field h 46 40
    let nf : List Nat := [field h 24 20, field h 29 25, field h 34 30, field h 39 35]
    let nct := field h 19 15
    let n := nsw + nf.sum + nct
    let len := (n + 1) / 2
    let es := halves (ds.take len)
    match routerOf (field h 55 54) (field h 53 47) with
    | none => none
    | some r =>
      if field h 63 60 = 2 ∧ field h 59 56 = 0 ∧ field h 14 0 = 0 ∧ nsw ≤ 64 ∧ nf.all (· ≤ 16) ∧ nct ≤ 16 ∧
          len ≤ ds.length ∧ (es.drop n).all (· == 0) then
        let filt (v : Nat) : List Word := (es.drop (nsw + (nf.take v).sum)).take ((nf[v]?).getD 0)
        (routersOf fuel (ds.drop len)).map
          (⟨r, es.take nsw, Vector.ofFn fun v => filt v.val, (es.drop (nsw + nf.sum)).take nct, []⟩ :: ·)
      else none

/-- A loop record (R94). -/
def ringRecord (d : DWord) : Option Ring :=
  if field d 63 60 = 3 ∧ field d 59 56 = 0 ∧ field d 28 0 = 0 ∧ 2 ≤ field d 55 49 ∧ field d 55 49 ≤ 64 then
    some ⟨field d 55 49, peOf (field d 48 42), Fin.ofNat 4 (field d 41 40), peOf (field d 39 33),
      Fin.ofNat 4 (field d 32 31), Fin.ofNat 4 (field d 30 29), List.replicate (field d 55 49) none⟩
  else none

/-- Whether the header's fields stand; scope codes lie below NDOM only (R91). -/
def fabricHead (ds : List DWord) : Bool :=
  let h := dw ds 0
  let nd := field h 23 20
  field h 63 56 == 0 && field h 19 0 == 0 && field (dw ds 1) 31 24 == 0 && decide (field h 55 48 ≤ 128) &&
  decide (field h 31 24 ≤ 64) && decide (1 ≤ nd) && decide (nd ≤ 8) && chkOk ds &&
  (List.range 8).all fun d =>
    let c := field (dw ds 1) (3 * d + 2) (3 * d)
    if d < nd then decide (1 ≤ c) && decide (c ≤ 5) else c == 0

/-- The length of a fabric image in dwords, from its header and its node records. -/
def fabricLen (h : DWord) (nodes : List (Nat × List DWord)) : Nat :=
  2 + (nodes.map fun x => x.2.length).sum + field h 47 32 + field h 31 24

/-- A fabric image taken apart; `none` where a record or the header is bad. -/
def fabricOf (ds : List DWord) (nodes : List (Nat × List DWord)) : Option FabImage :=
  let h := dw ds 0
  if !fabricHead ds then none
  else
    let at' := 2 + (nodes.map fun x => x.2.length).sum
    let route := (ds.drop at').take (field h 47 32)
    let ns := nodes.map fun x => nodeOf (field h 23 20) x.2
    let ls := (ds.drop (at' + field h 47 32)).map ringRecord
    match routersOf 65536 route with
    | none => none
    | some rs =>
      if ns.all (·.isSome) && ls.all (·.isSome) && noDup (nodes.map (·.1)) && noDup (rs.map (·.id)) then
        some ⟨ns.filterMap id, rs, ls.filterMap id, (dw ds 1).setWidth 24⟩
      else none

/-! ## Routes (R37, R39, R93, R95) -/

/-- Whether a filter entry, chained or not, has no reserved code and no reserved bit set (R95, R39). -/
def filterPlain (w : Word) : Bool :=
  decide ((w.extractLsb' 28 4).toNat ≤ 4) && decide ((w.extractLsb' 24 4).toNat ≤ 0xA) &&
  decide ((w.extractLsb' 20 4).toNat ≤ 0xA) && w.extractLsb' 0 11 == 0

/-- Whether a chained filter entry stands (R39). -/
def filterOk (w : Word) : Bool :=
  let op := (w.extractLsb' 28 4).toNat
  let a := (w.extractLsb' 24 4).toNat
  let b := (w.extractLsb' 20 4).toNat
  let k := (w.extractLsb' 11 5).toNat
  filterPlain w && (op != 1 || (decide (1 ≤ a) && decide (a ≤ 8) && decide (1 ≤ b) && decide (b ≤ 8))) &&
  (op != 4 || (decide (2 ≤ k) && decide (k ≤ 16)))

/-- Whether a switch entry, valid or not, has no reserved code and no reserved bit set (R95, R36). -/
def switchPlain (w : Word) : Bool := decide ((w.extractLsb' 28 3).toNat ≤ 4) && w.extractLsb' 0 4 == 0

/-- Whether a valid switch entry's own fields stand, its chain's filters with them. -/
def switchOk (x : Router) (w : Word) : Bool :=
  let vc : Fin 4 := Fin.ofNat 4 (w.extractLsb' 26 2).toNat
  !(swOuts w).isEmpty && decide (swFlen w ≤ 4) &&
  decide (swFstart w + swFlen w ≤ 16) &&
  (List.range (swFlen w)).all fun j => filterOk (((at' x.filt vc)[swFstart w + j]?).getD 0)

/-- Whether a control entry's own fields stand, be the entry valid or not (R93, R95). -/
def controlOk (r : RouterId) (w : Word) : Bool :=
  let inp := (w.extractLsb' 28 3).toNat
  let il := (w.extractLsb' 26 2).toNat
  let isMt := decide (128 ≤ r.val) && decide (r.val < 160)
  let isAg := decide (160 ≤ r.val)
  decide (inp ≤ 4) && (inp == 4 || il == 0) && w.extractLsb' 0 19 == 0 &&
  !(inp == 4 && ((isMt && il != 0) || (isAg && (il == 3 || (il == 1 && decide (164 ≤ r.val)))))) &&
  !((ctOuts w).contains 4 && (isMt || (isAg && (ctOloc w).val != 2)))

/-- Whether every neighbour that a switch entry sends to has a valid entry for the port and VC, and a PE that it
delivers to a node (R37). -/
def switchJoined (k : Core) (r : RouterId) (w : Word) : Bool :=
  (swOuts w).all fun o =>
    if o = 4 then decide (128 ≤ r.val) || (nodeAt k (peOf r.val)).isSome
    else match neighbour r o with
      | none => false
      | some (r', p) => match routerAt k r' with
        | some x => !(swFor x p (swOvc w)).isEmpty
        | none => false

/-- Whether every neighbour that a control entry sends to has a valid entry for the port (R95). -/
def controlJoined (k : Core) (r : RouterId) (w : Word) : Bool :=
  (ctOuts w).all fun o => o == 4 || match neighbour r o with
    | none => false
    | some (r', p) => match routerAt k r' with
      | some x => (ctEntry x p 0).isSome
      | none => false

/-- A router's input port and VC. -/
abbrev InKey := RouterId × Fin 5 × Fin 4

/-- Where a token of a tag goes from an input of a router, the switch entries alone. -/
def nextKeys (k : Core) (tag : BitVec 4) (x : InKey) : List InKey :=
  match (routerAt k x.1).bind fun r => swEntry r x.2.1 x.2.2 tag with
  | none => []
  | some (_, w) => (swOuts w).filterMap fun o =>
      if o = 4 then none else (neighbour x.1 o).map fun y => (y.1, y.2, swOvc w)

/-- The inputs for which some entry is valid. -/
def allKeys (k : Core) : List InKey :=
  (k.routers.flatMap fun x => x.sw.filterMap fun w =>
    let p := (w.extractLsb' 28 3).toNat
    if w.getLsbD 31 then some (x.id, Fin.ofNat 5 p, Fin.ofNat 4 (w.extractLsb' 26 2).toNat) else none).eraseDups

/-- Whether a relation has no cycle on a list: points with no successor left are taken away until none is left. -/
def acyclic {α : Type} [DecidableEq α] (next : α → List α) : Nat → List α → Bool
  | 0, xs => xs.isEmpty
  | fuel + 1, xs =>
    let ys := xs.filter fun x => (next x).any xs.contains
    if ys.length = xs.length then xs.isEmpty else acyclic next fuel ys

/-- The routers and VCs on which elements write: the q ports that nodes write, and the local entries of MT routers and
AG edge routers (R354, R358, R84). -/
def sources (k : Core) : List (RouterId × Fin 4) :=
  (k.nodes.flatMap fun n => ((nodeInstrs n).flatMap portsNamed).filterMap fun o =>
    match o with | .q r => some (peRouter n.pe, r) | _ => none).eraseDups ++
  (k.routers.filter fun x => 128 ≤ x.id.val).flatMap fun x => (List.finRange 4).map fun v => (x.id, v)

/-- The sources whose tokens find a valid entry. -/
def liveSources (k : Core) : List (RouterId × Fin 4) := (sources k).filter fun x => wanted k x.1 x.2.val

/-- Whether the entries of every input that a circuit uses cover all 16 tags. -/
def tagsCovered (k : Core) : Bool :=
  let next (x : InKey) : List InKey := ((List.range 16).flatMap fun t => nextKeys k (BitVec.ofNat 4 t) x).eraseDups
  let keys := closure next 2816 ((liveSources k).map fun x => (x.1, 4, x.2))
  keys.all fun x => (List.range 16).all fun t =>
    ((routerAt k x.1).bind fun r => swEntry r x.2.1 x.2.2 (BitVec.ofNat 4 t)).isSome

/-- The consumers of every circuit. -/
def feeds (k : Core) : List ((RouterId × Fin 4) × RouterId × Fin 4) :=
  (liveSources k).flatMap fun x => (routeAll k x.1 x.2).map fun y => (x, y)

/-- Whether no two circuits feed one consumer port and VC. -/
def feedsOk (fs : List ((RouterId × Fin 4) × RouterId × Fin 4)) : Bool :=
  fs.all fun a => fs.all fun b => a.2 != b.2 || a.1 == b.1

/-- Whether the routers of an image pass R37, R39 and R95. -/
def routesOk (k : Core) : Bool :=
  (k.routers.all fun x =>
    (x.sw.all fun w => switchPlain w && (!w.getLsbD 31 || (switchOk x w && switchJoined k x.id w))) &&
    (x.filt.toList.all fun fs => fs.all filterPlain) &&
    (x.ctl.all fun w => controlOk x.id w && (!w.getLsbD 31 || controlJoined k x.id w))) &&
  ((List.range 16).all fun t => acyclic (nextKeys k (BitVec.ofNat 4 t)) 45056 (allKeys k)) &&
  tagsCovered k && feedsOk (feeds k)

/-! ## Loops, scope domains, guards (R89, R90, R433) -/

/-- The instructions of a PE's node. -/
def instrsAt (k : Core) (pe : PeId) : List Instr := match nodeAt k pe with | some n => nodeInstrs n | none => []

/-- Whether a loop's PEs, ports and route stand (R95, R299). -/
def ringOk (k : Core) (r : Ring) : Bool :=
  (nodeAt k r.head).isSome && (nodeAt k r.tail).isSome && writesPort (instrsAt k r.tail) r.tport &&
  !nodeLoads (instrsAt k r.tail) &&
  (!wanted k (peRouter r.tail) r.tport.val ||
    (routeAll k (peRouter r.tail) r.tport).all fun y => y == (peRouter r.head, r.hport))

/-- Whether two loops share a port. -/
def ringsApart (rs : List Ring) : Bool :=
  noDup (rs.map fun r => (r.head, r.hport)) && noDup (rs.map fun r => (r.tail, r.tport))

/-- The cycles of a hop: none between two nodes of one folded PE, whose routers are one (R432; log entry 82). -/
def hopCost (k : Core) (r : RouterId) (o : Nat) : Nat :=
  if k.folded && o != 4 && decide (r.val < 128) && (match neighbour r o with
    | some (r', _) => r' == peRouter (foldPartner (peOf r.val))
    | none => false) then 0 else 1

/-- The longest path of a tag from an input to its deliveries: hops, one more for each CONVERT (R35, R40); `none` where
nothing is delivered or a filter holds tokens. -/
def pathLen (k : Core) (tag : BitVec 4) : Nat → RouterId → Fin 5 → Fin 4 → Option Nat
  | 0, _, _, _ => none
  | fuel + 1, r, port, vc =>
    match (routerAt k r).bind fun x => (swEntry x port vc tag).map fun e => (e, chainOf x vc e.1 e.2) with
    | none => none
    | some ((_, w), ch) =>
      let ops := ch.map fun e => (e.2.extractLsb' 28 4).toNat
      if ops.any (3 ≤ ·) then none
      else
        ((swOuts w).map fun o =>
          (if o = 4 then some 0
          else match neighbour r o with
            | some (r', p') => pathLen k tag fuel r' p' (swOvc w)
            | none => none).map (hopCost k r o + ops.count 1 + ·)).foldl (fun m x => match m, x with
              | some a, some b => some (max a b)
              | _, _ => none) (some 0)

/-- Whether a loop can be laid out in its latency (R89). -/
def ringFits (k : Core) (r : Ring) : Bool :=
  let lat := nodeLatency (instrsAt k r.tail)
  wanted k (peRouter r.tail) r.tport.val && (List.range 16).all fun t =>
    match pathLen k (BitVec.ofNat 4 t) 2816 (peRouter r.tail) 4 r.tport with
    | some d => decide (lat + d ≤ r.n)
    | none => false

/-- Whether two nodes may be joined: one domain, or a BND at one end (R90). -/
def domainsOk (x y : Node) : Bool := x.dom == y.dom || isBnd x || isBnd y

/-- Whether two elements that are no nodes count as members of one domain, or one of them of none (R90). -/
def sameDomain (k : Core) (a b : RouterId) : Bool :=
  match elementDomain k a, elementDomain k b with
  | some x, some y => x == y
  | _, _ => true

/-- Whether every data circuit and control route keeps R90: between nodes, and at an AG, an MT or an engine, which counts as a
member of one domain, that of the nodes it connects to without a BND. -/
def scopesOk (k : Core) : Bool :=
  (k.nodes.all fun x => k.nodes.all fun y =>
    domainsOk x y || !(nodeReaches k x).any (·.1 == peRouter y.pe)) &&
  k.routers.all fun r => r.id.val < 128 ||
    let ns := (connected k r.id).filter fun n => !isBnd n
    (ns.all fun x => ns.all fun y => x.dom == y.dom) &&
    ((elementReaches k r.id).all fun y => y.1.val < 128 || 4 ≤ y.2 || sameDomain k r.id y.1)

/-- Whether a router lies in the half of columns 8 to 15 (R433); a folded image lies on columns 0 to 7 (R432). -/
def otherHalf (folded : Bool) (r : RouterId) : Bool :=
  if r.val < 128 then !folded && 64 ≤ r.val
  else if r.val < 160 then 144 ≤ r.val
  else 168 ≤ r.val

/-- Whether an entry of the tables joins two halves. -/
def crossesHalf (folded : Bool) (k : Core) : Bool :=
  let joins (r : RouterId) (os : List Nat) : Bool := os.any fun o => o != 4 && match neighbour r o with
    | some (r', _) => otherHalf folded r != otherHalf folded r'
    | none => false
  k.routers.any fun x =>
    (x.sw.any fun w => w.getLsbD 31 && joins x.id (swOuts w)) || (x.ctl.any fun w => w.getLsbD 31 && joins x.id (ctOuts w))

/-! ## What the words of an image name (R431, R433) -/

/-- Whether an action or task word names an AG or its edge router, a parser or its PSTAT, or a tile register at or past a
bound. -/
def namesBeyond (ags parsers tiles : Nat) (w : DWord) : Bool :=
  match decodeWord w with
  | none => false
  | some i =>
    (match i with
      | .sspec f => decide (ags ≤ f.k.toNat) || (f.cfl.getLsbD 2 && decide (parsers ≤ (f.cfl.extractLsb' 0 2).toNat))
      | .sarm f => decide (ags ≤ f.k.toNat)
      | .gstart f => decide (parsers ≤ f.p.toNat) || decide (ags ≤ f.oedge.toNat)
      | .gstop f | .gmask f | .gfeed f | .gstat f => decide (parsers ≤ f.p.toNat)
      | .mfs f | .mts f => decide (0x050 + parsers ≤ f.imm.toNat) && decide (f.imm.toNat < 0x054)
      | _ => false) ||
    (match engShape i with
      | some (_, _, f) => [f.d, f.a, f.b, f.c].any fun o => match o with | .t r => decide (tiles ≤ r.val) | _ => false
      | none => false)

/-- The range of an image, as far as its headers give it: an address and a length in bytes. -/
def imageRange (s : State) (ctx : Nat) (i : Fin 4) (va : Nat) : Nat × Nat :=
  let head : DWord := match ctxDwords s ctx va 1 with | some ds => dw ds 0 | none => 0
  let len := if i = 0 then grammarLen head
    else if i = 1 then fabricLen head ((fabricNodes s ctx va).getD [])
    else giLen [head]
  (va, 8 * len)

/-- The ranges of a record's grammar, fabric and graph images. -/
def imageRanges (s : State) (ctx : Nat) (r : Vector DWord 16) : List (Nat × Nat) :=
  ([0, 1, 3].filter fun i => recImage r i != 0).map fun i => imageRange s ctx i (recImage r i)

/-- The words of a task object: the dwords of its pages that lie in none of the record's other images (log entry 57). -/
def taskWords (s : State) (ctx : Nat) (o : CodeObj) (others : List (Nat × Nat)) : List DWord :=
  (List.range o.npage).flatMap fun p =>
    let page := o.first + 65536 * p
    ((ctxDwords s ctx page 8192).getD []).zipIdx.filterMap fun x =>
      let va := page + 8 * x.2
      if others.any fun y => y.1 ≤ va && va < y.1 + y.2 then none else some x.1

/-- Whether the images of a record stay within generation 1: 96 PEs, 24 MTs, 12 AGs, 3 parsers, 12 tile registers. -/
def within1 (g : Option Grammar) (k : Core) (gr : Option (List DWord)) (task : List DWord) : Bool :=
  (match g with | some x => x.acts.all fun w => !namesBeyond 12 3 12 w | none => true) &&
  (task.all fun w => !namesBeyond 12 3 12 w) &&
  (k.nodes.all fun n => decide (n.pe.val < 96)) &&
  (k.routers.all fun x => let r := x.id.val
    decide (r < 96) || (decide (128 ≤ r) && decide (r < 152)) || (decide (160 ≤ r) && decide (r < 172))) &&
  (match gr with | some ds => decide (giNodes ds ≤ 6144) | none => true)

/-! ## Pages of images (R400) -/

/-- The pages of a code object that a range of addresses meets. -/
def pagesMet (o : CodeObj) (va n : Nat) : List Nat :=
  ((List.range ((va % 65536 + n + 65535) / 65536)).map fun i => (va / 65536 + i) * 65536).filter fun p =>
    o.first ≤ p && p < o.first + 65536 * o.npage

/-- Whether a page's bytes match its entry of the manifest; `none` where the page cannot be read. -/
def pageGood (s : State) (ctx : Nat) (o : CodeObj) (p : Nat) : Option Bool :=
  (ctxRead s ctx p 65536).map fun bs => sha384 bs == (o.manifest.drop (64 + 48 * ((p - o.first) / 65536))).take 48

/-- The status that the pages of a range give a launch, if they end it. -/
def pagesStatus (s : State) (ctx : Nat) (o : Option CodeObj) (va n : Nat) : Option Status :=
  match o with
  | none => none
  | some o =>
    let rs := (pagesMet o va n).map (pageGood s ctx o)
    if rs.any (·.isNone) then some .imageInvalid else if rs.contains (some false) then some .signature else none

/-! ## Reading a record's images -/

/-- An image that is absent, read, or ends the launch. -/
inductive Image (α : Type) where
  | absent
  | bad (st : Status)
  | ok (x : α)
  deriving DecidableEq, Repr

/-- An image as it is used. -/
def Image.get {α : Type} : Image α → Option α
  | .ok x => some x
  | _ => none

/-- The status of an image that ends the launch. -/
def Image.status {α : Type} : Image α → Option Status
  | .bad st => some st
  | _ => none

/-- An image's dwords with the check of their pages, taken apart by `f`. -/
def imageBy {α : Type} (s : State) (ctx : Nat) (o : Option CodeObj) (va n : Nat) (f : List DWord → Option α) : Image α :=
  match ctxDwords s ctx va n with
  | none => .bad .imageInvalid
  | some ds => match pagesStatus s ctx o va (8 * n) with
    | some st => .bad st
    | none => match f ds with
      | some x => .ok x
      | none => .bad .imageInvalid

/-- The grammar image of a record. -/
def readGrammar (s : State) (ctx : Nat) (o : Option CodeObj) (va : Nat) : Image Grammar :=
  if va = 0 then .absent
  else match ctxDwords s ctx va 1 with
    | none => .bad .imageInvalid
    | some h => imageBy s ctx o va (grammarLen (dw h 0)) grammarOf

/-- The fabric image of a record. -/
def readFabric (s : State) (ctx : Nat) (o : Option CodeObj) (va : Nat) : Image FabImage :=
  if va = 0 then .absent
  else match ctxDwords s ctx va 1, fabricNodes s ctx va with
    | some h, some ns => imageBy s ctx o va (fabricLen (dw h 0) ns) fun ds => fabricOf ds ns
    | _, _ => .bad .imageInvalid

/-- The graph image of a record. -/
def readGraph (s : State) (ctx : Nat) (o : Option CodeObj) (va : Nat) : Image (List DWord) :=
  if va = 0 then .absent
  else match ctxDwords s ctx va 1 with
    | none => .bad .imageInvalid
    | some h => imageBy s ctx o va (giLen h) fun ds => if graphOk ds then some ds else none

/-! ## Configuring (R374, R392) -/

/-- A core set to zero for a launch, its guard and its context's register block, which it took when it was granted, kept
apart (R392, R362). -/
def cleanCore (s : State) (l : Launch) (c : CoreId) : Core :=
  { Core.zero with
    holder := some l.id
    guardV := (coreAt s c).guardV
    lastPc := (coreAt s c).lastPc
    blk := (coreAt s c).blk
    lastAct := s.now }

/-- A core's configuration placed on it: what every core of the launch receives. -/
structure CoreConfig where
  chtab : Vector Chan 64
  grammar : Option Grammar
  fabric : Option FabImage
  graph : Option Graph
  folded : Bool
  deriving DecidableEq, Repr

/-- The fabric of an image placed on a core. -/
def withFabric (k : Core) (f : Option FabImage) : Core :=
  match f with
  | none => k
  | some x => { k with nodes := x.nodes, routers := x.routers, rings := x.rings, dscope := x.dscope }

/-- A core with its configuration. -/
def configure (k : Core) (g : CoreConfig) : Core :=
  withFabric { k with
    chtab := g.chtab, grammar := g.grammar, graphs := put k.graphs 0 g.graph, folded := g.folded } g.fabric

/-- The memory of a core's own zero: scratchpad, tiles and weight-store slice. -/
def zeroOwn (m : Memory) (c : CoreId) : Memory :=
  memZero (memZero (memZero m (scratchLoc c) (scratchLoc c + 2 ^ 21)) (tileLoc c 0) (tileLoc c 0 + 2 ^ 18))
    (weightLoc c) (weightLoc c + 2 ^ 24)

/-- Whether a location is a core's own. -/
def ownLoc (c : CoreId) (loc : Nat) : Bool :=
  (scratchLoc c ≤ loc && loc < scratchLoc c + 2 ^ 21) || (tileLoc c 0 ≤ loc && loc < tileLoc c 0 + 2 ^ 18) ||
    (weightLoc c ≤ loc && loc < weightLoc c + 2 ^ 24)

/-- A core's own memory written with zero, its check bits made good. -/
def zeroCore (s : State) (c : CoreId) : State :=
  { s with mem := zeroOwn s.mem c, bad := s.bad.filter fun w => !ownLoc c w }

/-- The first word with bad check bits that the loader reads for a launch, with the address of the range in which it meets it:
images, then the pages of the code object that they lie on (R437; log entry 81). -/
def loaderBad (s : State) (x : Ctx) (r : Vector DWord 16) : Option (Nat × Nat) :=
  let rs := imageRanges s x.n r
  let pages := match x.objs.find? (·.va == recImage r 2) with
    | some o => if recImage r 2 = 0 then [] else (rs.flatMap fun y => pagesMet o y.1 y.2).map fun p => (p, 65536)
    | none => []
  (rs ++ pages).findSome? fun y => (rangeBad s x.n y.1 y.2).map fun loc => (y.1, loc)

/-- The loader's checks of a fabric image, which end in IMAGE_INVALID. -/
def fabricOk (r : Vector DWord 16) (k : Core) : Bool :=
  k.nodes.all (nodeOk (levels r)) && routesOk k && k.rings.all (ringOk k) && ringsApart k.rings

/-- The status that placing gives one core, if it ends the launch: a guard crossed, a loop that cannot be laid out, a
channel between domains without a BND. -/
def placeStatus (r : Vector DWord 16) (k : Core) (guarded : Bool) : Option Status :=
  if guarded && crossesHalf (recGen r == 3) k then some .partition
  else if !k.rings.all (ringFits k) then some .loopLatency
  else if !scopesOk k then some .scopeChannel
  else none

/-- What loading comes to: a status, or the configuration of every core. No image holds an AG nest, so that R13's limit on one
is checked where SSPEC reads it (R29; log entry 79). -/
def loadImages (s : State) (x : Ctx) (l : Launch) : Status ⊕ CoreConfig :=
  let r := l.recd
  let o := if recImage r 2 = 0 then none else x.objs.find? (·.va == recImage r 2)
  let g := readGrammar s x.n o (recImage r 0)
  let f := readFabric s x.n o (recImage r 1)
  let gr := readGraph s x.n o (recImage r 3)
  match (g.status.or f.status).or gr.status with
  | some st => .inl st
  | none =>
    let k := withFabric { Core.zero with folded := recGen r == 3 } f.get
    let placed : Option (Option Graph) := match gr.get with
      | none => some none
      | some ds => match placeGraph Core.zero ds with
        | .ok y => some (some y)
        | .bad _ => none
    match placed with
    | none => .inl .imageInvalid
    | some pg =>
      if !fabricOk r k || (recGen r == 1 && !within1 g.get k gr.get (match o with
          | some y => taskWords s x.n y (imageRanges s x.n r)
          | none => [])) then .inl .imageInvalid
      else
        match l.cores.findSome? fun c => placeStatus r k (isSplit (coreAt s c)) with
        | some st => .inl st
        | none =>
          let ch : Vector Chan 64 := match o with
            | some y => Vector.ofFn fun i => ⟨Config.channelTable y.manifest i.val &&& chanMask, none⟩
            | none => Vector.replicate 64 ⟨0, none⟩
          .inr ⟨ch, g.get, f.get, pg, recGen r == 3⟩

/-! ## Starting (R375, R378) -/

/-- A team placed on the cores of a gang: each takes its work ID and a team-start message. -/
def placeTeam (s : State) (l : Launch) (g : List CoreId) (team : Nat) : State :=
  let wid := teamWid l.recd team
  g.foldl (fun s c =>
    postOwn (modCore s c fun k => { k with
      team := team, inTeam := true, lastAct := s.now, drawn := [], ags := k.ags.map fun g => { g with rix := 0 }
      nodes := k.nodes.map fun n => { n with wid := Vector.replicate 4 Place.zero }
      mts := k.mts.map fun m => { m with wid := Vector.replicate 4 Place.zero }
      graphs := k.graphs.map fun g => g.map fun g => { g with bind := g.bind.map fun b => { b with wid := Place.zero } } }) c
      (startChan l.recd) [] wid) s

/-- The gangs of a launch's cores, in order. -/
def gangsOf (g : Nat) (cs : List CoreId) : List (List CoreId) :=
  (List.range ((cs.length + g - 1) / g)).map fun i => (cs.drop (i * g)).take g

/-- The teams of a launch's start, in ascending order; a gang for which none is left has finished. -/
def startTeams (s : State) (l : Launch) : List (List CoreId) → Nat → State
  | [], n => modLaunch s l.id fun l => { l with nextTeam := n }
  | g :: gs, n =>
    if n < teamCount l.recd then startTeams (placeTeam s l g n) l gs (n + 1)
    else startTeams (g.foldl (fun s c => modCore s c fun k => { k with finished := true }) s) l gs n

/-- The stage of each core of a pipelined launch: SMIN of each stage in ascending order, the rest to stage 0. -/
def stageOfCore (r : Vector DWord 16) (i : Nat) : Nat :=
  ((List.range (nStages r)).findIdx? fun j => i < ((List.range (j + 1)).map (stageMin r)).sum).getD 0

/-- Every core's first message. A persistent team runs from its start message on, before it has drawn a range (R375). -/
def startLaunch (s : State) (l : Launch) : State :=
  if nStages l.recd ≠ 0 then
    ((List.range l.cores.length).zip l.cores).foldl (fun s x =>
      let st := stageOfCore l.recd x.1
      postStage (modCore s x.2 fun k => { k with stage := st, inTeam := true }) l x.2 st) s
  else if isPersist l.recd then
    l.cores.foldl (fun s c => postOwn (modCore s c fun k => { k with inTeam := true }) c (startChan l.recd) [] 0) s
  else startTeams s l (gangsOf (gangSize l.recd) l.cores) 0

/-- A launch ends with a status before any team starts. -/
def endLoad (s : State) (id : Nat) (st : Status) : State :=
  modLaunch s id fun l => { l with phase := .ending, status := some st, endedAt := s.now }

/-- LAUNCH_LOAD (R374): the loader configures every granted core and the launch starts, or it ends with a status. A held
launch that has been granted cores again is resumed by RESTORE_RESUME instead. A word with bad check bits ends the launch as
a read of its own does (R437; log entry 81). -/
def execLaunchLoad (launch : Nat) (s : State) : Out :=
  .next (match launchBy s launch with
    | none => s
    | some l =>
      if l.phase ≠ .loading || s.ctxs.any (fun x => x.restored == some launch) then s
      else match ctxBy s l.ctx with
        | none => s
        | some x => match loaderBad s x l.recd with
          | some (va, loc) =>
            raiseRead .uncorrectable ⟨l.id, (l.cores.head?).getD 0, 1, 0, 0, 0, 0⟩ (BitVec.ofNat 64 va) (physAddr s loc) l.ctx s
          | none => match loadImages s x l with
          | .inl st => endLoad s launch st
          | .inr g =>
            let s1 := l.cores.foldl (fun s c =>
              modCore (zeroCore s c) c fun _ => configure (cleanCore s l c) g) s
            startLaunch (modLaunch s1 launch fun l => { l with phase := .running, progress := s.now }) l)

end Sys2Proof.Machine
end

