-- ==== Sys2Proof/Machine/Admit.lean ====
section
/-! DEFINITION. The master Plinth's launch queues (R364 to R373, R380, R381, R400): candidates and their checks, dependences, and
admission. -/

namespace Sys2Proof.Machine
open Sys2Proof

/-! ## Cores of a partition (R433) -/

/-- Whether a router of the other half has a valid entry from or to its own element. -/
def endsBeyond (folded : Bool) (x : Router) : Bool :=
  otherHalf folded x.id &&
    ((x.sw.any fun w => w.getLsbD 31 && ((w.extractLsb' 28 3).toNat == 4 || (swOuts w).contains 4)) ||
      (x.ctl.any fun w => w.getLsbD 31 && ((w.extractLsb' 28 3).toNat == 4 || (ctOuts w).contains 4)))

/-- Whether a record's images use the half that a split core does not give (R433): a node in columns 8 to 15, where the
record is not folded onto columns 0 to 7 (R432), a route that ends at one of MTs 16 to 31 or AGs 8 to 15, a word that names
AGs 8 to 15, parsers 2 or 3 or tiles t8 to t15, or more Armature nodes than bays 0 to 15 hold. -/
def usesHalf (s : State) (ctx : Nat) (r : Vector DWord 16) : Bool :=
  let folded := recGen r == 3
  (match readFabric s ctx none (recImage r 1) with
    | .ok f => (f.nodes.any fun n => !folded && decide (64 ≤ n.pe.val)) || f.routers.any (endsBeyond folded)
    | _ => false) ||
  (match readGrammar s ctx none (recImage r 0) with
    | .ok g => g.acts.any (namesBeyond 8 2 8)
    | _ => false) ||
  (recImage r 2 != 0 && match manifestAt s ctx (recImage r 2) with
    | some m => (taskWords s ctx (objectOf (recImage r 2) m) (imageRanges s ctx r)).any (namesBeyond 8 2 8)
    | none => false) ||
  (recImage r 3 != 0 && match ctxRead s ctx (recImage r 3) 8 with
    | some b => field (dwordLE b) 63 50 > 4096
    | none => false)

/-- Whether a core may serve a record: its partition, and not a split one where the images use the other half. -/
def coreFits (s : State) (x : Ctx) (half : Bool) (c : CoreId) : Bool :=
  let k := coreAt s c
  corePart k == x.part.val && !(isSplit k && half)

/-- Whether a core is free to be granted. -/
def coreFree (s : State) (c : CoreId) : Bool :=
  let k := coreAt s c
  k.holder.isNone && !k.halted && !k.resetting

/-- The gang-aligned groups of cores that a test accepts, in ascending order (R373). -/
def gangs (g : Nat) (ok : CoreId → Bool) : List (List CoreId) :=
  ((List.finRange 256).filter fun c => c.val % g == 0).filterMap fun c =>
    let xs := (List.range g).map fun i => (Fin.ofNat 256 (c.val + i) : CoreId)
    if xs.all ok then some xs else none

/-- Whether a die's queue map gives a range queue to a partition (R434). -/
def queueGiven (s : State) (d : DieId) (rq : Fin 64) (part : Nat) : Bool :=
  field ((dieAt s d).queueMap) (4 * (rq.val / 4) + 3) (4 * (rq.val / 4)) == part

/-! ## Checks of a candidate (R370) -/

/-- Check 3: whether the record can ever be granted what it asks for. CMIN and SMIN are held against every core of the
partition; the cores that must be free make whole gangs (log entry 80). -/
def satisfiable (s : State) (x : Ctx) (r : Vector DWord 16) : Bool :=
  let half := usesHalf s x.n r
  let gs := gangs (gangSize r) (coreFits s x half)
  let n := ((List.finRange 256).filter (coreFits s x false)).length
  let smin := ((List.range (nStages r)).map (stageMin r)).sum
  let fold := recGen r ≤ 2 || (recGen r == 3 && recFold r &&
    (recImage r 1 == 0 || match fabricNodes s x.n (recImage r 1) with
      | some xs => xs.all fun y => nodeLength (recordWords y.2) ≤ 4
      | none => true))
  let given (d : DieId) : Bool := queueGiven s d (rqField r) x.part.val
  recMin r ≤ x.maxc && smin ≤ x.maxc && recMin r ≤ n && smin ≤ n && !gs.isEmpty && fold &&
  recNeed r ≤ gs.length * gangSize r && recNeed r ≤ x.maxc / gangSize r * gangSize r && gangSize r ≤ x.maxc &&
  (!recPerDie r || (recWant r ≤ 4 && gangSize r == 1 &&
    (List.finRange 4).all fun d => d.val ≥ recWant r || (List.finRange 256).any fun c =>
      dieOf c == d && coreFits s x half c)) &&
  (List.finRange 4).any fun d => given d && (List.finRange 256).any fun c => dieOf c == d && coreFits s x false c

/-- What checking a candidate comes to: a status, a word with bad check bits where the record is read (R437; log entry 81), or
a candidate. -/
inductive Checked where
  | status (st : Status)
  | spoilt (loc : Nat)
  | pass (r : Vector DWord 16) (ranges : List (Nat × Nat)) (obj : Option CodeObj)
  deriving DecidableEq, Repr

/-- The checks of R370 on the record at a queue's head. -/
def checkRecord (s : State) (x : Ctx) (q : Fin 16) : Checked :=
  let y := at' x.queues q
  let slot := y.rbase.toNat + 128 * (y.head % 2 ^ y.lsize)
  match rangeBad s x.n slot 128, ctxRead s x.n slot 128 with
  | some loc, _ => .spoilt loc
  | none, none => .status .imageInvalid
  | none, some bs =>
    let r : Vector DWord 16 := Vector.ofFn fun i => dw (dwordsOf bs) i.val
    if !recordPlain x q y.head r then .status .imageInvalid
    else match rangeBad s x.n (field r[7] 51 0) (16 * recNrange r), rangeTable s x.n r with
      | some loc, _ => .spoilt loc
      | none, none => .status .imageInvalid
      | none, some rs =>
        let va := recImage r 2
        if va = 0 then (if satisfiable s x r then .pass r rs none else .status .resource)
        else match manifestAt s x.n va with
          | none => match rangeBad s x.n va 64 with
            | some loc => .spoilt loc
            | none => .status .imageInvalid
          | some m => match rangeBad s x.n va m.length with
            | some loc => .spoilt loc
            | none => if !manifestGood s x m || isUntrusted x va m then .status .signature
            else if satisfiable s x r then .pass r rs (some (objectOf va m)) else .status .resource

/-- Whether the head of a queue may become a candidate (R365). -/
def headReady (s : State) (x : Ctx) (q : Fin 16) : Bool :=
  let y := at' x.queues q
  y.v && !y.halt && y.head == y.done && y.head < y.tail && y.cand.isNone && y.heldStatus.isNone && !queueBusy s x q

/-- Whether the command in turn destroys a context: it writes the statuses of the context's records itself, in queue and
sequence order (R380). -/
def goingAway (s : State) (ctx : Nat) : Bool :=
  match s.cmds.head? with
  | some k => k.1 == 0x11 && k.2.ctx.toNat == ctx
  | none => false

/-- RECORD_CANDIDATE (R365, R370, R380): a queue's head is read whole and checked, and becomes a candidate or ends with
its status; a record cancelled before it was let in ends CANCELLED. -/
def execRecordCandidate (ctx : Nat) (q : Fin 16) (s : State) : Out :=
  .next (match ctxBy s ctx with
    | none => s
    | some x =>
      let y := at' x.queues q
      if goingAway s ctx then s
      else if y.v && y.cancels.contains y.head && y.head < y.tail && y.heldStatus.isNone && !queueBusy s x q then
        giveStatus s ctx q y.head .cancelled 0
      else if !headReady s x q then s
      else match checkRecord s x q with
        | .status st => giveStatus s ctx q y.head st 0
        | .spoilt loc =>
          giveStatus (deviceEvent s 0x04 (physAddr s loc) ctx 0 0) ctx q y.head .imageInvalid 0
        | .pass r rs obj =>
          modCtx s ctx fun x =>
            let x1 := modQueue x q fun y => { y with cand := some r, candRanges := rs, depOk := !bitOf r[5] 52 }
            match obj with
            | some o => loadObject x1 o
            | none => x1)

/-- DEPENDENCE_RESOLVE (R371): the record that a candidate depends on has a status. -/
def execDependenceResolve (ctx : Nat) (q : Fin 16) (s : State) : Out :=
  .next (match ctxBy s ctx with
    | none => s
    | some x =>
      let y := at' x.queues q
      match y.cand with
      | none => s
      | some r =>
        let z := at' x.queues (Fin.ofNat 16 (field r[5] 51 48))
        if y.depOk then s
        else match z.given.find? (·.1 == field r[5] 47 0) with
          | none => s
          | some g =>
            if g.2 = .complete then modCtx s ctx fun x => modQueue x q fun y => { y with depOk := true }
            else giveStatus s ctx q y.head .cancelled 0)

/-! ## Admission (R372, R373) -/

/-- A candidate of a partition's service order. -/
structure Candidate where
  ctx : Ctx
  q : Fin 16
  recd : Vector DWord 16
  held : Option Held

/-- The candidates of a partition. -/
def candidates (s : State) (part : Fin 16) : List Candidate :=
  (s.ctxs.filter (·.part == part)).flatMap fun x =>
    ((List.finRange 16).filterMap fun q =>
      let y := at' x.queues q
      match y.cand with
      | some r => if y.v && !y.halt && y.depOk then some ⟨x, q, r, none⟩ else none
      | none => none) ++
    (match x.restore, x.held with
      | some _, some h => if x.restored.isNone then [⟨x, h.launch.q, h.launch.recd, some h⟩] else []
      | _, _ => [])

/-- A candidate's place in the order: priority, then the contexts after the level's pointer, then the queues after the
context's pointer. -/
def serviceKey (s : State) (part : Fin 16) (k : Candidate) : Nat :=
  let pr := recPrio k.recd
  let past := match s.svcCtx.find? fun p => p.1 == part.val && p.2.1 == pr with
    | some p => if k.ctx.n ≤ p.2.2 then 1 else 0
    | none => 0
  let qpast := if k.q ≤ k.ctx.svcQ then 1 else 0
  (((pr * 2 + past) * 1024 + k.ctx.n) * 2 + qpast) * 16 + k.q.val

/-- The first candidate in the order. -/
def firstCandidate (s : State) (part : Fin 16) : Option Candidate :=
  (candidates s part).foldl (fun (m : Option Candidate) k =>
    match m with
    | none => some k
    | some b => if serviceKey s part k < serviceKey s part b then some k else some b) none

/-- The cores of a record under R360, R369, R372 and R373: what it asks for in whole gangs, as far as free gangs and MAXC
reach, where its CMIN is free; `none` where it cannot be admitted. -/
def grantFor (s : State) (x : Ctx) (r : Vector DWord 16) : Option (List CoreId) :=
  let half := usesHalf s x.n r
  let ok (c : CoreId) : Bool := coreFree s c && coreFits s x half c
  let held (d : DieId) : Bool := (dieAt s d).rqs.any (·.1 == rqField r)
  let given (d : DieId) : Bool := queueGiven s d (rqField r) x.part.val
  if recPerDie r then
    let cs := (List.finRange 4).filterMap fun d =>
      if d.val < min (recWant r) x.maxc then (List.finRange 256).find? fun c => dieOf c == d && ok c else none
    if cs.length = min (recWant r) x.maxc ∧ recNeed r ≤ ((List.finRange 256).filter ok).length ∧ !held 0 ∧ given 0 then some cs
    else none
  else
    let gs := (gangs (gangSize r) ok).dropWhile fun g => match g.head? with | some c => !given (dieOf c) | none => true
    let cs := (gs.take (min (recGangs r) (x.maxc / gangSize r))).flatten
    match cs.head? with
    | none => none
    | some c => if recNeed r ≤ gs.length * gangSize r ∧ !held (dieOf c) then some cs else none

/-- Cores for a held launch (R398): each gang on free cores of one cluster at the positions it had, and under PERDIE on the
die it had (R360). -/
def restoreCores (s : State) (x : Ctx) (half perDie : Bool) (g : Nat) : List CoreId → List CoreId → Option (List CoreId)
  | [], _ => some []
  | c :: cs, taken =>
    if c.val % g ≠ 0 then restoreCores s x half perDie g cs taken
    else
      let ok (d : CoreId) : Bool := coreFree s d && coreFits s x half d && !taken.contains d
      match (gangs g ok).find? fun xs => match xs.head? with
          | some d => posOf d == posOf c && (!perDie || dieOf d == dieOf c)
          | none => false with
      | none => none
      | some xs => (restoreCores s x half perDie g cs (taken ++ xs)).map (xs ++ ·)

/-- The pointers after an admission (R372). -/
def movePointers (s : State) (part : Fin 16) (k : Candidate) : State :=
  let pr := recPrio k.recd
  let s1 := { s with svcCtx := (s.svcCtx.filter fun p => !(p.1 == part.val && p.2.1 == pr)) ++ [(part.val, pr, k.ctx.n)] }
  modCtx s1 k.ctx.n fun x => { x with svcQ := k.q }

/-- A core granted to a launch of a context, whose register block it takes (R362). -/
def takeCore (x : Ctx) (id : Nat) (s : State) (c : CoreId) : State :=
  modCore s c fun z => { z with holder := some id, blk := blockOf x c }

/-- A new launch on its cores, with its range queue loaded (R377). -/
def admitRecord (s : State) (k : Candidate) (cs : List CoreId) : State :=
  let y := at' k.ctx.queues k.q
  let id := s.nextId
  let rdie := match cs.head? with | some c => dieOf c | none => 0
  let ranges := if y.candRanges.isEmpty then madeRanges k.recd else y.candRanges
  let l : Launch := ⟨id, k.ctx.n, k.q, y.head, k.recd, cs.length, cs, .loading, none, 0, none, [], 0, rdie,
    List.replicate (nStages k.recd - 1) [], [], s.now, [],
    k.ctx.objs.flatMap fun o => if o.va = recImage k.recd 2 then [(o.first, o.npage)] else []⟩
  let s1 := { s with nextId := id + 1, launches := s.launches ++ [l] }
  let s2 := modDie s1 rdie fun d => { d with rqs := d.rqs ++ [(rqField k.recd, ⟨id, ranges, []⟩)] }
  let s3 := modCtx s2 k.ctx.n fun x => modQueue x k.q fun y => { y with cand := none, candRanges := [] }
  cs.foldl (takeCore k.ctx id) s3

/-- A held launch granted its cores: it is loaded by RESTORE_RESUME. -/
def admitHeld (s : State) (k : Candidate) (h : Held) (cs : List CoreId) : State :=
  let l := { h.launch with cores := cs, grant := cs.length, phase := .loading }
  let s1 := { s with launches := s.launches ++ [l] }
  let s2 := modCtx s1 k.ctx.n fun x => { x with restored := some l.id }
  cs.foldl (takeCore k.ctx l.id) s2

/-- Whether a candidate names a code object that has become untrusted since it was checked (R401). -/
def namesUntrusted (k : Candidate) : Bool :=
  recImage k.recd 2 != 0 && k.ctx.objs.any fun o => o.va == recImage k.recd 2 && o.untrusted

/-- ADMIT (R372, R401): the first candidate in a partition's order is granted its cores, or blocks those behind it; one whose
code object is untrusted ends with SIGNATURE. -/
def execAdmitLaunch (part : Fin 16) (s : State) : Out :=
  .next (match firstCandidate s part with
    | none => s
    | some k => match k.held with
      | none => if namesUntrusted k then giveStatus s k.ctx.n k.q (at' k.ctx.queues k.q).head .signature 0
        else match grantFor s k.ctx k.recd with
        | some cs => movePointers (admitRecord s k cs) part k
        | none => s
      | some h =>
        match restoreCores s k.ctx (usesHalf s k.ctx.n k.recd) (recPerDie k.recd) (gangSize k.recd) h.launch.cores [] with
        | some cs => movePointers (admitHeld s k h cs) part k
        | none => s)

end Sys2Proof.Machine
end

