-- ==== Sys2Proof/Machine/Answer.lean ====
section
/-! DEFINITION. Answers of the master Plinth: the completion of a command (R423, R424, R426) and of a system instruction
(R403), and what becomes of those who wait for one. -/

namespace Sys2Proof.Machine
open Sys2Proof

/-- The statuses of a result word (R426). -/
inductive CmdEnd where
  | done | nosem | badarg | busy | full | badsig
  deriving DecidableEq, Repr

/-- The code of a command's end. -/
def endCode : CmdEnd → Nat
  | .done => 0
  | .nosem => 1
  | .badarg => 2
  | .busy => 3
  | .full => 4
  | .badsig => 5

/-- A result word. -/
def resultWord (e : CmdEnd) (v : Nat) : DWord := BitVec.ofNat 64 (endCode e * 2 ^ 56 + v % 2 ^ 56)

/-- The Frieze entry of a sequence number, while the Frieze holds it. -/
def entryBy (s : State) (seq : Nat) : Option FzEntry := s.frieze.find? (·.seq == seq)

/-- The Frieze with one entry changed. -/
def modEntry (s : State) (seq : Nat) (f : FzEntry → FzEntry) : State :=
  { s with frieze := s.frieze.map fun e => if e.seq = seq then f e else e }

/-- An entry that is accepted takes its result word, and the response goes to the port and to every command sent again
meanwhile; a corrupt entry stays so (R437). -/
def settleEntry (s : State) (seq : Nat) (st : FzState) (w : DWord) (block : List Byte) : State :=
  match entryBy s seq with
  | none => s
  | some e =>
    let s1 := modEntry s seq fun e => { e with state := if e.state = .corrupt then .corrupt else st, result := w }
    let port : Port := if e.srck = 0 then .A else .B
    { s1 with
      replies := s1.replies ++ [.command port e.rid seq w block] ++
        ((s1.repeats.filter (·.2.2 == seq)).map fun x => .command x.1 x.2.1 seq w [])
      repeats := s1.repeats.filter (·.2.2 != seq) }

/-- A command ends. -/
def finishCmd (s : State) (seq : Nat) (e : CmdEnd) (v : Nat) (block : List Byte) : State :=
  settleEntry s seq (if e = .done then .done else .failed) (resultWord e v) block

/-- The system instructions at the head of a bank's order that have been answered complete: D takes its value, and the
count goes down (R403). -/
def completeSys : List (Nat × Fin 32 × Option DWord) → RegBank → RegBank
  | (_, d, some v) :: rest, x => let y := arriveX x d v; completeSys rest { y with ld := y.ld - 1 }
  | q, x => { x with sysq := q }

/-- A system instruction of a bank is answered; those of one bank complete in issue order (R403). -/
def bankAnswer (k : Core) (b : BankId) (n : Nat) (v : DWord) : Core :=
  modBank k b fun x => completeSys (x.sysq.map fun e => if e.1 = n then (n, e.2.1, some v) else e) x

/-- CFGLD: a device configuration item written, with its old value; `none` where the item or its value is out of range. -/
def cfgOp (s : State) (item v : Nat) : Option (DWord × State) :=
  if item = 0 ∧ 20 ≤ v ∧ v ≤ 34 then some (s.wdp.setWidth 64, { s with wdp := BitVec.ofNat 6 v })
  else if item = 1 ∧ 24 ≤ v ∧ v ≤ 40 then some (s.scrub.setWidth 64, { s with scrub := BitVec.ofNat 6 v })
  else none

/-- Whether the one who asked is the first of its bank that has not completed. -/
def isFirst (s : State) (a : Asker) : Bool :=
  let first (k : Core) (b : BankId) (n : Nat) : Bool := ((at' k.banks b).sysq.head?).any (·.1 == n)
  match a with
  | .task c b n => first (coreAt s c) b n
  | .saved ctx i b n => ((ctxBy s ctx).bind (·.held)).any fun h => (h.cores[i]?).any fun y => first y.2 b n
  | _ => false

/-- An answer reaches the one who asked, and no other. -/
def answerOne (s : State) (a : Asker) (v : DWord) : State :=
  match a with
  | .task c b n => active (modCore s c fun k => bankAnswer k b n v) c
  | .port seq => finishCmd s seq .done v.toNat []
  | .saved ctx i b n => modCtx s ctx fun x => { x with held := x.held.map fun h => { h with
      cores := h.cores.mapIdx fun j y => if j = i then (y.1, bankAnswer y.2 b n v) else y } }
  | .nobody => s

/-- The CFGLDs that have become the first of their banks act and complete, in the order of their issue (R403, R410). -/
def serveCfg (s : State) : State :=
  s.sysWork.foldl (fun s x => match x.2 with
    | .cfg i v => match if isFirst s x.1 then cfgOp s i v else none with
      | some (old, s1) => answerOne { s1 with sysWork := s1.sysWork.erase x } x.1 old
      | none => s
    | _ => s) s

/-- An answer reaches the one who asked. -/
def answer (s : State) (a : Asker) (v : DWord) : State := serveCfg (answerOne s a v)

/-- Everyone who waits for the Plinth, changed. -/
def mapAskers (s : State) (f : Asker → Asker) : State :=
  { s with
    sysWork := s.sysWork.map fun x => (f x.1, x.2)
    launches := s.launches.map fun l => { l with stoppers := l.stoppers.map fun x => (f x.1, x.2) }
    ctxs := s.ctxs.map fun x => { x with restore := x.restore.map f } }

/-- The tasks of a set of cores wait no more, and no CFGLD of theirs acts. -/
def forgetAskers (s : State) (cs : List CoreId) : State :=
  let s1 := mapAskers s fun a => match a with
    | .task c _ _ => if cs.contains c then .nobody else a
    | _ => a
  { s1 with sysWork := s1.sysWork.filter fun x => !(x.1 == .nobody && match x.2 with | .cfg _ _ => true | _ => false) }

/-- What the Plinth does to a core that no launch holds: HALTC takes it out of service, PARTSET sets its guard (R414,
R415). -/
def serveCore (s : State) (c : CoreId) : State :=
  s.sysWork.foldl (fun s x =>
    match x.2 with
    | .halt c' => if c' = c then
        answer (modCore { s with sysWork := s.sysWork.erase x } c fun k => { k with halted := true }) x.1
          (if (coreAt s c).halted then 1 else 0)
      else s
    | .setGuard c' v => if c' = c then
        answer (modCore { s with sysWork := s.sysWork.erase x } c fun k => { k with guardV := v }) x.1 ((coreAt s c).guardV.setWidth 64)
      else s
    | _ => s) s

/-- A side's SKSTAT, on the core that issued its command while the launch holds it; the cycle in which it sets CONF is kept
(R7, R197). -/
def modSk (s : State) (w : Who) (f : DWord → DWord) : State :=
  if (coreAt s w.core).holder = some w.launch then
    modCore s w.core fun k =>
      let v := f k.blk.skstat
      { k with
        blk := { k.blk with skstat := v }
        confAt := if bitOf v 58 && !bitOf k.blk.skstat 58 then some s.now else k.confAt }
  else s

/-- STATE and RES of SKSTAT set, the rest kept. -/
def skEnd (state res : Nat) (v : DWord) : DWord :=
  (v &&& BitVec.ofNat 64 (2 ^ 59 - 1)) ||| BitVec.ofNat 64 (state * 2 ^ 61 + res * 2 ^ 59)

/-- A class slot freed (R191): a side that waits in WAITPEER leaves the wait with ILLEGAL_OPERAND. -/
def freeClass (s : State) (d : DieId) (slot : Fin 16) : State :=
  ((dieAt s d).sides.filter fun x => x.slot == slot && !x.paired).foldl
    (fun s x => raise .illegalOperand x.who 0 0 (modSk s x.who (skEnd 0 3)))
    (modDie s d fun x => { x with
      classes := put x.classes slot none, sides := x.sides.filter fun y => y.slot != slot || y.paired })

/-- The class slots that CLSFREE has named and that are out of session are freed (R425). -/
def serveClasses (s : State) : State :=
  s.sysWork.foldl (fun s x =>
    match x.2 with
    | .classFree d slot =>
      if inSession s d slot then s else answer (freeClass { s with sysWork := s.sysWork.erase x } d slot) x.1 0
    | _ => s) s

end Sys2Proof.Machine
end

