-- ==== Sys2Proof/Machine/Sketch.lean ====
section
/-! DEFINITION. The Chisel engines (R183 to R199): hashes and sketches to the bit, peeling, the pairing of sides, the
rounds of a session, the fallback, the expert steps, and how a session ends. A Chisel command raises the faults of its
class when it starts. Both sides of a session on this package step together; what a peer on another package holds comes
in with the event. -/

namespace Sys2Proof.Machine
open Sys2Proof

/-! ## Hashes and digests (R187) -/

/-- The three cells of a key at size s. -/
def ckCells (key : DWord) (s : Nat) : List Nat :=
  let h0 := key * 0x9E3779B97F4A7C15
  let h := h0 ^^^ (h0 >>> 29)
  (List.range 3).map fun j => j * 2 ^ s + (h >>> (21 * j)).toNat % 2 ^ s

/-- The check of a key. -/
def ckCheck (key : DWord) : Word :=
  let g := (key ^^^ 0xC2B2AE3D27D4EB4F) * 0x9E3779B97F4A7C15
  g.extractLsb' 32 32 ^^^ g.setWidth 32

/-- The digest of a key and its entry. -/
def ckDigest (key : DWord) (entry : List Byte) : DWord :=
  (dwordsOf entry).foldl (fun d w => let e := (d ^^^ w) * 0xBF58476D1CE4E5B9; e ^^^ (e >>> 31)) key

/-! ## Sketches (R186, R188) and peeling (R189, R190) -/

/-- A cell. -/
structure SkCell where
  chkx : Word
  count : Word
  keyx : DWord
  valx : DWord
  deriving DecidableEq, Repr

/-- The number of cells at size s. -/
def ckSize (s : Nat) : Nat := 3 * 2 ^ s

/-- A key with its digest put into its cells, COUNT moved by `n`. -/
def ckToggle (s : Nat) (n : Word) (key dig : DWord) (sk : List SkCell) : List SkCell :=
  (ckCells key s).foldl (fun sk c => sk.modify c fun x =>
    ⟨x.chkx ^^^ ckCheck key, x.count + n, x.keyx ^^^ key, x.valx ^^^ dig⟩) sk

/-- The sketch of a set of keys with their digests. -/
def ckSketch (s : Nat) (xs : List (DWord × DWord)) : List SkCell :=
  xs.foldl (fun sk x => ckToggle s 1 x.1 x.2 sk) (List.replicate (ckSize s) ⟨0, 0, 0, 0⟩)

/-- The difference of two sketches. -/
def ckSub (a b : List SkCell) : List SkCell :=
  a.zipWith (fun x y => ⟨x.chkx ^^^ y.chkx, x.count - y.count, x.keyx ^^^ y.keyx, x.valx ^^^ y.valx⟩) b

/-- The bytes of a sketch. -/
def ckBytes (sk : List SkCell) : List Byte :=
  sk.flatMap fun x => bytesLE 8 (x.chkx.toNat * 2 ^ 32 + x.count.toNat) ++ bytesLE 8 x.keyx.toNat ++ bytesLE 8 x.valx.toNat

/-- The sketch of its bytes. -/
def ckOfBytes (s : Nat) (bs : List Byte) : List SkCell :=
  let ds := dwordsOf bs
  (List.range (ckSize s)).map fun i =>
    ⟨(dw ds (3 * i)).extractLsb' 32 32, (dw ds (3 * i)).setWidth 32, dw ds (3 * i + 1), dw ds (3 * i + 2)⟩

/-- An entry of a peel list. -/
structure Peeled where
  key : DWord
  dig : DWord
  neg : Bool
  deriving DecidableEq, Repr

/-- A peeling under way. -/
structure Peeling where
  cells : List SkCell
  list : List Peeled
  full : Bool
  deriving DecidableEq, Repr

/-- Whether a cell is pure. -/
def ckPure (x : SkCell) : Bool := (x.count == 1 || x.count == 0xFFFFFFFF) && x.chkx == ckCheck x.keyx
/-- Whether a cell is zero. -/
def ckZero (x : SkCell) : Bool := x.chkx == 0 && x.count == 0 && x.keyx == 0 && x.valx == 0

/-- The scan reaches a cell. -/
def peelCell (s : Nat) (p : Peeling) (i : Nat) : Peeling :=
  match p.cells[i]? with
  | none => p
  | some x =>
    if p.full || !ckPure x then p
    else if p.list.length ≥ ckSize s then { p with full := true }
    else ⟨ckToggle s (0 - x.count) x.keyx x.valx p.cells, p.list ++ [⟨x.keyx, x.valx, x.count != 1⟩], false⟩

/-- Passes until one peels nothing. -/
def peelPasses (s : Nat) : Nat → Peeling → Peeling
  | 0, p => p
  | n + 1, p =>
    let p' := (List.range (ckSize s)).foldl (peelCell s) p
    if p'.full || p'.list.length == p.list.length then p' else peelPasses s n p'

/-- The peel of a difference: a pass peels at least one entry or is the last. -/
def ckPeel (s : Nat) (d : List SkCell) : Peeling := peelPasses s (ckSize s + 2) ⟨d, [], false⟩
/-- Whether a peel succeeds. -/
def peelOk (p : Peeling) : Bool := !p.full && p.cells.all ckZero
/-- Whether what a peel left is the residue of a conflict (R192). -/
def peelConflict (p : Peeling) : Bool :=
  p.cells.any (fun x => !ckZero x) && p.cells.all fun x => ckZero x || (x.count == 0 && x.keyx == 0)

/-- The bytes of a peel list. -/
def peelBytes (xs : List Peeled) : List Byte :=
  xs.flatMap fun e => bytesLE 8 ((if e.neg then 2 ^ 63 else 0) + e.key.toNat % 2 ^ 63) ++ bytesLE 8 e.dig.toNat
/-- A peel list from memory. -/
def peelOfBytes (bs : List Byte) : List Peeled :=
  let ds := dwordsOf bs
  (List.range (ds.length / 2)).map fun i =>
    ⟨BitVec.ofNat 64 (field (dw ds (2 * i)) 62 0), dw ds (2 * i + 1), bitOf (dw ds (2 * i)) 63⟩

/-! ## Classes and sides (R183, R191) -/

/-- FB of a class. -/
def clsFb (c : Cls) : Bool := bitOf (at' c.desc 2) 27
/-- WIN. -/
def clsWin (c : Cls) : Bool := bitOf (at' c.desc 2) 26
/-- PPKG. -/
def clsPkg (c : Cls) : Nat := field (at' c.desc 3) 63 48
/-- PDIE. -/
def clsDie (c : Cls) : DieId := Fin.ofNat 4 (field (at' c.desc 3) 47 46)
/-- PCLS. -/
def clsSlot (c : Cls) : Fin 16 := Fin.ofNat 16 (field (at' c.desc 3) 45 42)
/-- The entry size in bytes. -/
def clsEntry (c : Cls) : Nat := 2 ^ clsLesz c

/-- A side as its engine sees it. -/
structure Half where
  die : DieId
  side : Side
  cls : Cls
  cmd : Nat                 -- the command that acts for it now
  deriving DecidableEq, Repr

/-- The other side of a session: on this package or beyond it. -/
inductive Other where
  | here (h : Half)
  | beyond (p : PeerSide)
  deriving DecidableEq, Repr

/-- The side that holds a class slot. -/
def halfAt (s : State) (d : DieId) (slot : Fin 16) : Option Half :=
  match (dieAt s d).sides.find? (·.slot == slot), at' (dieAt s d).classes slot with
  | some x, some c => some ⟨d, x, c, x.cmd⟩
  | _, _ => none

/-- Whether the class names this package. -/
def peerHere (s : State) (c : Cls) : Bool := clsPkg c == s.ownPkg

/-- The side on this package that a side names and that names it in return, paired as it is. -/
def peerHalf (s : State) (h : Half) : Option Half :=
  if !peerHere s h.cls then none
  else match halfAt s (clsDie h.cls) (clsSlot h.cls) with
    | some b =>
      if peerHere s b.cls && clsDie b.cls == h.die && clsSlot b.cls == h.side.slot && b.side.paired == h.side.paired then
        some b
      else none
    | none => none

/-- The other side of a session, a peer beyond the package as the event supplies it. -/
def otherOf (s : State) (h : Half) (peer : Option PeerSide) : Option Other :=
  if peerHere s h.cls then (peerHalf s h).map .here else peer.map .beyond

/-- Whether the launch of a side runs or freezes: a session runs to its end (R396). -/
def sideLive (s : State) (x : Side) : Bool :=
  match launchBy s x.who.launch with
  | some l => maySteps s l || l.phase == .freezing
  | none => false

/-- Whether a side may still be paired: a freeze begins no session. -/
def sidePairs (s : State) (x : Side) : Bool :=
  match launchBy s x.who.launch with
  | some l => maySteps s l
  | none => false

/-- Whether the other side runs. -/
def otherLive (s : State) : Other → Bool
  | .here b => sideLive s b.side
  | .beyond _ => true

/-- The key of a session: ranks of the lower and the higher side, then the lower side's slot (R191). -/
def sideKey (s : State) (h : Half) : Nat :=
  let a := s.ownPkg * 4 + h.die.val
  let b := clsPkg h.cls * 4 + (clsDie h.cls).val
  let low := if a < b then h.side.slot.val else if b < a then (clsSlot h.cls).val
    else min h.side.slot.val (clsSlot h.cls).val
  (min a b * 2 ^ 20 + max a b) * 16 + low

/-- Whether a side is the side of lower rank (R183). -/
def isLower (s : State) (h : Half) : Bool :=
  let a := s.ownPkg * 4 + h.die.val
  let b := clsPkg h.cls * 4 + (clsDie h.cls).val
  decide (a < b) || (a == b && decide (h.side.slot.val < (clsSlot h.cls).val))

/-- Whether a side's session is the smallest of those its engine holds. -/
def isSmallest (s : State) (h : Half) : Bool :=
  (dieAt s h.die).sides.all fun x => !x.paired ||
    match halfAt s h.die x.slot with
    | some y => decide (sideKey s h ≤ sideKey s y)
    | none => true

/-- A change of the running session on both of its engines. -/
def modSession (s : State) (a : Half) (o : Other) (f : Session → Session) : State :=
  let s1 := modDie s a.die fun d => { d with session := d.session.map f }
  match o with
  | .here b => if b.die = a.die then s1 else modDie s1 b.die fun d => { d with session := d.session.map f }
  | .beyond _ => s1

/-- The session of a side when it runs, or as it begins to run: current on both of its engines (R191). -/
def openFor (s : State) (a : Half) (o : Other) : Option (State × Session) :=
  let fresh (h : Half) : Session := ⟨h.side, 0, h.side.s, false, false, false⟩
  let idle (h : Half) : Bool := (dieAt s h.die).session.isNone && isSmallest s h
  let set (s : State) (h : Half) (x : Session) : State := modDie s h.die fun d => { d with session := some x }
  match (dieAt s a.die).session with
  | some x =>
    let same := match o with
      | .here b => b.die == a.die && x.side.slot == b.side.slot
      | .beyond _ => false
    if x.side.slot == a.side.slot || same then some (s, x) else none
  | none =>
    if !a.side.paired || !idle a then none
    else match o with
      | .beyond _ => some (set s a (fresh a), fresh a)
      | .here b =>
        if b.die = a.die then some (set s a (fresh a), fresh a)
        else if idle b then some (set (set s a (fresh a)) b (fresh b), fresh a)
        else none

/-! ## The session area (R361) -/

/-- The places of the four parts of a die's sketch region: the local sketch, the received one, the difference, the peel list
(log entry 54). -/
def areaPart (i : Nat) : Nat := i * 0x120000

/-- A die's session area: its sketch region and its holding region, as its Plinth reserved them at boot. -/
def sessionArea (s : State) (d : DieId) : Option (Nat × Nat) :=
  let own (len : Nat) (csm : Bool) : Option Nat :=
    (s.pages.find? fun p => p.ctx.isNone && !p.table && p.len == len && isCsm p.base == csm && locDie p.base == d).map (·.base)
  match own 0x420000 true, own 0xC000000 false with
  | some a, some b => some (a, b)
  | _, _ => none

/-- Byte strings put into a die's session area: the four parts of its sketch region, and the entries fetched. -/
def fillArea (s : State) (d : DieId) (parts : List (List Byte)) (held : List Byte) : State :=
  match sessionArea s d with
  | none => s
  | some (a, b) => rawStore (parts.zipIdx.foldl (fun s x => rawStore s (a + areaPart x.2) x.1) s) b held

/-- A session leaves nothing in the area of its die. -/
def wipeArea (s : State) (d : DieId) : State :=
  match sessionArea s d with
  | none => s
  | some (a, b) => { s with mem := memZero (memZero s.mem a (a + 0x420000)) b (b + 0xC000000) }

/-- A side leaves its engine, and the session with it. -/
def dropSide (s : State) (d : DieId) (slot : Fin 16) (other : Option (Fin 16)) : State :=
  let mine (y : Session) : Bool := y.side.slot == slot || some y.side.slot == other
  let s1 := match (dieAt s d).session with
    | some y => if mine y then wipeArea s d else s
    | none => s
  serveClasses (modDie s1 d fun x => { x with
    sides := x.sides.filter (·.slot != slot)
    session := x.session.filter fun y => !mine y })

/-- A session closes on this package. -/
def closeSession (s : State) (a : Half) (o : Other) : State :=
  match o with
  | .beyond _ => dropSide s a.die a.side.slot none
  | .here b =>
    let s1 := dropSide s a.die a.side.slot (if b.die = a.die then some b.side.slot else none)
    dropSide s1 b.die b.side.slot none

/-! ## SKSTAT (R197) -/

/-- SKSTAT of its fields. -/
def skStat (state res : Nat) (conf : Bool) (rnds sfin appl : Nat) : DWord :=
  BitVec.ofNat 64 (state * 2 ^ 61 + res * 2 ^ 59 + (if conf then 2 ^ 58 else 0) + rnds * 2 ^ 55 + sfin * 2 ^ 51 + appl)

/-- SKSTAT of both sides. -/
def setSkBoth (s : State) (a : Half) (o : Other) (v : DWord) : State :=
  let s1 := modSk s a.side.who fun _ => v
  match o with
  | .here b => modSk s1 b.side.who fun _ => v
  | .beyond _ => s1

/-! ## What an engine reads of a side (R184, R192, R195) -/

/-- The pieces of a range of a class's memory, for the command that acts for its side. -/
def homeSpan (s : State) (h : Half) (want : Want) (va n : Nat) : List Piece ⊕ EngFault :=
  spanFrom s (.engine h.cmd) h.side.who.core h.cls.ctx (fun _ r loc => allowed s want loc r) (n / 65536 + 2) va n

/-- Bytes of a class's table or bitmap at their home: the engine does not read through propagation buffers. -/
def homeRead (s : State) (h : Half) (va n : Nat) : List Byte ⊕ EngFault :=
  match homeSpan s h .read va n with
  | .inr f => .inr f
  | .inl xs => match piecesBad s h.cls.ctx xs with
    | some f => .inr f
    | none => .inl (xs.flatMap fun x => memGetN s.mem x.loc x.len)

/-- The address of an entry. -/
def entryVa (h : Half) (key : Nat) : Nat := clsBase h.cls + key * clsEntry h.cls
/-- The bytes of a class's bitmap. -/
def bitmapLen (h : Half) : Nat := (clsCount h.cls + 7) / 8

/-- The bytes of an entry. -/
def entryAt (s : State) (h : Half) (key : Nat) : List Byte ⊕ EngFault := homeRead s h (entryVa h key) (clsEntry h.cls)

/-- Entries of keys, in order. -/
def entriesAt (s : State) (h : Half) : List Nat → List (Nat × List Byte) ⊕ EngFault
  | [] => .inl []
  | k :: ks => match entryAt s h k with
    | .inr f => .inr f
    | .inl bs => match entriesAt s h ks with
      | .inr f => .inr f
      | .inl xs => .inl ((k, bs) :: xs)

/-- A side's change set with the contents of its entries (R184). -/
def changeSet (s : State) (h : Half) : List (Nat × List Byte) ⊕ EngFault :=
  match homeRead s h (clsBmap h.cls) (bitmapLen h) with
  | .inr f => .inr f
  | .inl bm => entriesAt s h <| bm.zipIdx.flatMap fun x =>
      ((List.range 8).filter fun j => x.1.getLsbD j && x.2 * 8 + j < clsCount h.cls).map fun j => x.2 * 8 + j

/-- The change set of the other side. -/
def otherSet (s : State) : Other → List (Nat × List Byte) ⊕ EngFault
  | .here b => changeSet s b
  | .beyond p => .inl (p.entries.map fun e => (e.key, e.bytes))

/-- Keys with their digests. -/
def withDigests (xs : List (Nat × List Byte)) : List (DWord × DWord) :=
  xs.map fun x => (BitVec.ofNat 64 x.1, ckDigest (BitVec.ofNat 64 x.1) x.2)

/-- An entry of the other side, fetched into the holding buffer; none where the peer beyond sends no such entry. -/
def fetchEntry (s : State) (o : Other) (key : Nat) : Option (List Byte) ⊕ EngFault :=
  match o with
  | .here b => match entryAt s b key with
    | .inl bs => .inl (some bs)
    | .inr f => .inr f
  | .beyond p => .inl ((p.entries.find? (·.key == key)).map (·.bytes))

/-- What the verification of a list comes to: it agrees, or it does not, either with the entries fetched; or a fault, on the
other side or on this. -/
inductive Verdict where
  | agree (fetched : List (Nat × List Byte))
  | deny (fetched : List (Nat × List Byte))
  | fault (other : Bool) (f : EngFault)
  deriving DecidableEq, Repr

/-- The entries fetched. -/
def Verdict.fetched : Verdict → List (Nat × List Byte)
  | .agree xs | .deny xs => xs
  | .fault _ _ => []

/-- The verdict on a list of the verdict on its rest, its first entry's and what was fetched for it. -/
def Verdict.first (ok : Bool) (xs : List (Nat × List Byte)) : Verdict → Verdict
  | .agree ys => if ok then .agree (xs ++ ys) else .deny (xs ++ ys)
  | .deny ys => .deny (xs ++ ys)
  | v => v

/-- The verification of a peel list by a side: each entry is looked at, whatever the others say (R192). -/
def verify (s : State) (a : Half) (o : Other) : List Peeled → Verdict
  | [] => .agree []
  | e :: es =>
    let key := e.key.toNat % 2 ^ 63
    let rest := verify s a o es
    if key ≥ clsCount a.cls then rest.first false []
    else if e.neg then
      match fetchEntry s o key with
      | .inr f => .fault true f
      | .inl none => rest.first false []
      | .inl (some bs) => rest.first (ckDigest e.key bs == e.dig) [(key, bs)]
    else match entryAt s a key with
      | .inr f => .fault false f
      | .inl bs => rest.first (ckDigest e.key bs == e.dig) []

/-! ## Committing -/

/-- The first of some checks that fails. -/
def firstFault {α : Type} (f : α → Option EngFault) : List α → Option EngFault
  | [] => none
  | x :: xs => (f x).or (firstFault f xs)

/-- What refuses a range that a side is to write. -/
def writeFault (s : State) (h : Half) (va n : Nat) : Option EngFault :=
  match homeSpan s h .write va n with
  | .inr f => some f
  | .inl _ => none

/-- What refuses the entries and the bitmap that a side is to write. -/
def commitFault (s : State) (h : Half) (ws : List (Nat × List Byte)) : Option EngFault :=
  (firstFault (fun w : Nat × List Byte => writeFault s h (entryVa h w.1) (clsEntry h.cls)) ws).or
    (writeFault s h (clsBmap h.cls) (bitmapLen h))

/-- The bitmap cleared: the 64-byte pieces that hold a bit are written zero. -/
def clearBitmap (s : State) (h : Half) (g : Eng) : State :=
  match homeSpan s h .write (clsBmap h.cls) (bitmapLen h) with
  | .inr _ => s
  | .inl xs =>
    let bm := xs.flatMap fun x => memGetN s.mem x.loc x.len
    (bursts (bm.length + 1) (clsBmap h.cls) bm).foldl (fun s x =>
      if x.2.all (· == 0) then s else engWrite s g x.1 (List.replicate x.2.length 0)) s

/-- A side writes the entries it has fetched (R192). -/
def writeEntries (s : State) (h : Half) (g : Eng) (ws : List (Nat × List Byte)) : State :=
  ws.foldl (fun s x => engWrite s g (entryVa h x.1) x.2) s

/-- A side commits: entries, bitmap, SKSTAT with all that its session has written (R197); its command has landed. -/
def commitSide (s : State) (h : Half) (ws : List (Nat × List Byte)) (clear : Bool) (stat : Nat → DWord → DWord) : State :=
  match engBy s h.cmd with
  | none => s
  | some g =>
    let n := h.side.appl + ws.length
    let s1 := writeEntries s h g ws
    let s2 := if clear then clearBitmap s1 h g else s1
    let s3 := modDie s2 h.die fun d => { d with
      sides := d.sides.map fun y => if y.slot = h.side.slot then { y with appl := n } else y }
    landedWith (modSk s3 h.side.who (stat n)) h.cmd 0 0

/-- Who a side's fault names: its command. -/
def halfWho (s : State) (h : Half) : Who := ((engBy s h.cmd).map (·.who)).getD h.side.who

/-- What stops a side: a fault ends its launch, and its session has failed; a miss joins the walks of its die; else it waits. -/
def sideStop (s : State) (h : Half) (f : EngFault) : State :=
  match f.hold with
  | .fault => raiseRead f.code (halfWho s h) f.addr f.extra h.cls.ctx (modSk s h.side.who (skEnd 0 3))
  | .miss => addMiss s (.engine h.cmd) h.side.who h.cls.ctx f.addr.toNat
  | .busy => s

/-- A fault of both sides, where the other is on this package. -/
def bothFault (s : State) (a : Half) (o : Other) (f : EngFault) : State :=
  let s1 := sideStop s a f
  match o with
  | .here b => sideStop s1 b f
  | .beyond _ => s1

/-- What stops the other side; a peer beyond the package keeps its own. -/
def otherStop (s : State) (o : Other) (f : EngFault) : State :=
  match o with
  | .here b => sideStop s b f
  | .beyond _ => s

/-- What the entries and the bitmaps of both sides refuse, before the commit point: true for the other side. -/
def refuses (s : State) (a : Half) (o : Other) (wa wb : List (Nat × List Byte)) : Option (Bool × EngFault) :=
  match commitFault s a wa with
  | some f => some (false, f)
  | none => match o with
    | .beyond _ => none
    | .here b => (commitFault s b wb).map fun f => (true, f)

/-- Both sides commit, from state `s1`; where something stops a side it is at `s`, before the commit point. -/
def commitBoth (s s1 : State) (a : Half) (o : Other) (wa wb : List (Nat × List Byte)) (ca cb : Bool)
    (stat : Nat → DWord → DWord) : State :=
  match refuses s a o wa wb with
  | some (true, f) => otherStop s o f
  | some (false, f) => sideStop s a f
  | none =>
    let s2 := commitSide (modSession s1 a o fun x => { x with committed := true }) a wa ca stat
    match o with
    | .here b => commitSide s2 b wb cb stat
    | .beyond _ => s2

/-- Both sides' cores marked by `f`. -/
def markBoth (f : State → CoreId → State) (s : State) (a : Half) (o : Other) : State :=
  let s1 := f s a.side.who.core
  match o with
  | .here b => f s1 b.side.who.core
  | .beyond _ => s1

/-- A step of both sides (R86). -/
abbrev activeBoth := markBoth active

/-- A progress event on both sides (R393). -/
abbrev movedBoth := markBoth moved

/-! ## Rounds (R192) -/

/-- The entries of a list that the other side fetches: those changed here only. -/
def lacking (s : State) (a : Half) (l : List Peeled) : List (Nat × List Byte) :=
  (l.filter (!·.neg)).filterMap fun e =>
    let key := e.key.toNat % 2 ^ 63
    match if key < clsCount a.cls then entryAt s a key else .inl [] with
    | .inl [] | .inr _ => none
    | .inl bs => some (key, bs)

/-- The rounds are over without agreement: the fallback, or SKETCH_PEEL on both sides. -/
def roundsOver (s : State) (a : Half) (o : Other) (n sz : Nat) (conf : Bool) : State :=
  if clsFb a.cls then
    setSkBoth (modSession s a o fun x => { x with fallback := true, conf := conf, round := n }) a o
      (skStat 4 0 conf n sz 0)
  else
    let v := skStat 0 3 conf n sz 0
    closeSession (bothFault (setSkBoth s a o v) a o ⟨.sketchPeel, 0, v, .fault⟩) a o

/-- What a round leaves in the session areas (R361): both sketches, the difference as peeled, the list, the entries fetched. -/
def fillBoth (s : State) (a : Half) (o : Other) (sa sb : List SkCell) (p q : Peeling) (fa fb : List (Nat × List Byte)) : State :=
  let held (xs : List (Nat × List Byte)) : List Byte := xs.flatMap (·.2)
  let own (f : List (Nat × List Byte)) : State :=
    fillArea s a.die [ckBytes sa, ckBytes sb, ckBytes p.cells, peelBytes p.list] (held f)
  match o with
  | .here b =>
    if b.die = a.die then own (fa ++ fb)
    else fillArea (own fa) b.die [ckBytes sb, ckBytes sa, ckBytes q.cells, peelBytes q.list] (held fb)
  | .beyond _ => own fa

/-- One round of SKRECON. A side that something stops for a while has not run it. -/
def reconRound (s : State) (a : Half) (o : Other) (x : Session) : State :=
  match changeSet s a, otherSet s o with
  | .inr f, _ => sideStop s a f
  | _, .inr f => otherStop s o f
  | .inl ca, .inl cb =>
    let n := x.round + 1
    let sa := ckSketch x.s (withDigests ca)
    let sb := ckSketch x.s (withDigests cb)
    let p := ckPeel x.s (ckSub sa sb)
    let verdict := if peelOk p then verify s a o p.list else .deny []
    let wa := verdict.fetched
    let wb := if peelOk p then lacking s a p.list else []
    let s1 := movedBoth (setSkBoth (fillBoth s a o sa sb p (ckPeel x.s (ckSub sb sa)) wa wb) a o (skStat 2 0 false n x.s 0)) a o
    let peerOk := match o with | .here _ => true | .beyond q => q.ok
    let next (conf : Bool) : State :=
      if conf || n ≥ a.side.rounds then roundsOver s1 a o n x.s conf
      else modSession s1 a o fun y => { y with round := n, s := min (x.s + a.side.g) 14 }
    match verdict with
    | .fault false f => sideStop s a f
    | .fault true f => otherStop s o f
    | .agree _ =>
      if peerOk then
        commitBoth s (modSession s1 a o fun x => { x with round := n }) a o wa wb true true
          fun appl _ => skStat 3 0 false n x.s appl
      else next false
    | .deny _ => next (peelConflict p)

/-! ## Expert steps (R198, R199) -/

/-- The started command of a side that meets the peer's: an SKXCH or an SKFIX. -/
def meeting (s : State) (h : Half) : Option Eng :=
  s.engs.find? fun g => g.q == .chisel && g.stage == .started && dieOf g.who.core == h.die && g.ctx == h.cls.ctx &&
    match g.i with
    | .skxch f => f.k.toNat == h.side.slot.val
    | .skfix f => f.k.toNat == h.side.slot.val
    | _ => false

/-- The flags of an SKFIX: CLOSE and FULL. -/
def fixFlags (i : Instr) : Bool × Bool :=
  match i with
  | .skfix f => (f.cfl.getLsbD 0, f.cfl.getLsbD 1)
  | _ => (false, false)

/-- What an expert step reads of memory that software names, when it meets the peer's. -/
def stepRead (s : State) (g : Eng) (va n : Nat) : List Byte ⊕ EngFault :=
  match engSpan s g .read va n with
  | .inr f => .inr f
  | .inl xs => match piecesBad s g.ctx xs with
    | some f => .inr f
    | none => .inl (xs.flatMap fun x => engBytes s g x.loc x.len)

/-- The local sketch of an SKXCH, and its receive area writable. -/
def xchRead (s : State) (g : Eng) : List Byte ⊕ EngFault :=
  let n := 24 * ckSize g.c.toNat
  match stepRead s g g.a.toNat n with
  | .inr f => .inr f
  | .inl bs => match engSpan s g .write g.b.toNat n with
    | .inr f => .inr f
    | .inl _ => .inl bs

/-- SKXCH with SKXCH. -/
def exchange (s : State) (a : Half) (o : Other) (ga : Eng) (gb : Option Eng) : State :=
  match xchRead s ga, o, gb with
  | .inr f, _, _ => engRaise s ga f
  | .inl mine, .here _, some gb =>
    if ga.c ≠ gb.c then bothFault s a o ⟨.illegalOperand, 0, 0, .fault⟩
    else match xchRead s gb with
      | .inr f => engRaise s gb f
      | .inl theirs =>
        activeBoth (landed (engWrite (landed (engWrite s ga ga.b.toNat theirs) ga.id) gb gb.b.toNat mine) gb.id) a o
  | .inl mine, .beyond p, _ =>
    if p.size ≠ ga.c.toNat then sideStop s a ⟨.illegalOperand, 0, 0, .fault⟩
    else match p.entries.head? with
      | some e =>
        if e.bytes.length = mine.length then activeBoth (landed (engWrite s ga ga.b.toNat e.bytes) ga.id) a o else s
      | none => s
  | _, _, _ => s

/-- The list of an SKFIX. -/
def fixList (s : State) (g : Eng) : List Peeled ⊕ EngFault :=
  match stepRead s g g.a.toNat (16 * g.b.toNat) with
  | .inr f => .inr f
  | .inl bs => .inl (peelOfBytes bs)

/-- The verdict of an SKFIX on its own list. -/
def fixVerdict (s : State) (h : Half) (o : Other) (g : Eng) : Verdict :=
  match fixList s g with
  | .inr f => .fault false f
  | .inl l => verify s h o l

/-- An SKFIX that fails writes nothing and answers 1. -/
def fixFails (s : State) (ga : Eng) (gb : Option Eng) : State :=
  let s1 := landedWith s ga.id 1 0
  match gb with
  | some g => landedWith s1 g.id 1 0
  | none => s1

/-- SKFIX with SKFIX, neither FULL: each verifies its list, both agree, and each writes what it fetched. -/
def fixBoth (s : State) (a : Half) (o : Other) (ga : Eng) (gb : Option Eng) : State :=
  match fixVerdict s a o ga with
  | .fault false f => sideStop s a f
  | .fault true f => otherStop s o f
  | va =>
    let vb := match o, gb with
      | .here b, some gb => fixVerdict s b (.here a) gb
      | .beyond p, _ => if p.ok then .agree [] else .deny []
      | _, _ => .deny []
    match va, vb, o with
    | _, .fault false f, .here b => sideStop s b f
    | _, .fault true f, _ => sideStop s a f
    | .agree wa, .agree wb, _ =>
      commitBoth s (activeBoth s a o) a o wa wb (fixFlags ga.i).1
        ((gb.map fun g => (fixFlags g.i).1).getD false) fun appl _ => skStat 3 0 false 0 0 appl
    | _, _, _ => fixFails s ga gb

/-- The two sides with the commands that meet acting for them. -/
def acting (a : Half) (o : Other) (ga : Eng) (gb : Option Eng) : Half × Other :=
  ({ a with cmd := ga.id }, match o, gb with
    | .here b, some gb => .here { b with cmd := gb.id }
    | o, _ => o)

/-- The step of an expert session in which two commands meet. -/
def expertRound (s : State) (a : Half) (o : Other) : State :=
  match meeting s a with
  | none => s
  | some ga =>
    let gb := match o with | .here b => meeting s b | .beyond _ => none
    match o, gb with
    | .here _, none => s
    | _, _ =>
      let m := acting a o ga gb
      match ga.i, gb.map (·.i) with
      | .skxch _, some (Instr.skxch _) => exchange s m.1 m.2 ga gb
      | .skxch _, none => exchange s m.1 m.2 ga gb
      | .skfix _, some (Instr.skfix _) =>
        if (fixFlags ga.i).2 && ((gb.map fun g => (fixFlags g.i).2).getD false) then s
        else if (fixFlags ga.i).2 || ((gb.map fun g => (fixFlags g.i).2).getD false) then fixFails s ga gb
        else fixBoth s m.1 m.2 ga gb
      | .skfix _, none => if (fixFlags ga.i).2 then s else fixBoth s m.1 m.2 ga gb
      | _, _ => s

/-! ## The events of a session -/

/-- The side whose session runs on a die, or could next. -/
def currentHalf (s : State) (d : DieId) : Option Half :=
  match (dieAt s d).session with
  | some x => halfAt s d x.side.slot
  | none => ((dieAt s d).sides.filterMap fun x => if x.paired then halfAt s d x.slot else none).find? (isSmallest s)

/-- A step of the current session of a die, if both sides run, in a slot of its partition (R434). -/
def onSession (s : State) (d : DieId) (peer : Option PeerSide) (f : State → Half → Other → Session → State) : State :=
  match currentHalf s d with
  | none => s
  | some a => match otherOf s a peer with
    | none => s
    | some o =>
      if !sideLive s a.side || !otherLive s o || !slotOpen s d a.cls.ctx then s
      else match openFor s a o with
        | none => s
        | some (s1, x) => if x.committed then s else f s1 a o x

/-- SKETCH_ROUND (R192, R199). -/
def execSketchRound (d : DieId) (peer : Option PeerSide) (s : State) : Out :=
  .next (onSession s d peer fun s a o x =>
    if a.side.expert then expertRound s a o
    else if x.fallback then s
    else reconRound s a o x)

/-- What each side takes under the fallback (R193): the entries written here, and those written there. -/
def fallbackWrites (aWins : Bool) (ca cb : List (Nat × List Byte)) : List (Nat × List Byte) × List (Nat × List Byte) :=
  (cb.filter fun x => match ca.find? (·.1 == x.1) with
      | none => true
      | some y => !aWins && y.2 != x.2,
   ca.filter fun x => match cb.find? (·.1 == x.1) with
      | none => true
      | some y => aWins && y.2 != x.2)

/-- The fallback of a session: both change sets are streamed and both bitmaps are cleared. CONF stands as it has been read. -/
def fallbackRun (s : State) (a : Half) (o : Other) (x : Session) : State :=
  match changeSet s a, otherSet s o with
  | .inr f, _ => sideStop s a f
  | _, .inr f => otherStop s o f
  | .inl ca, .inl cb =>
    let w := fallbackWrites (isLower s a != clsWin a.cls) ca cb
    commitBoth s (activeBoth (modSession s a o fun x => { x with fallback := true }) a o) a o w.1 w.2 true true
      fun appl v => skStat 4 0 (bitOf v 58) x.round (if x.round = 0 then 0 else x.s) appl

/-- SESSION_FALLBACK (R193), of a SKRECON whose rounds are over or of two SKFIX with FULL. -/
def execSessionFallback (d : DieId) (peer : Option PeerSide) (s : State) : Out :=
  .next (onSession s d peer fun s a o x =>
    if a.side.expert then
      let gb := match o with | .here b => meeting s b | .beyond _ => none
      match meeting s a, o, gb with
      | some ga, .here _, some gb =>
        let m := acting a o ga (some gb)
        if (fixFlags ga.i).2 && (fixFlags gb.i).2 then fallbackRun s m.1 m.2 x else s
      | some ga, .beyond _, _ => if (fixFlags ga.i).2 then fallbackRun s { a with cmd := ga.id } o x else s
      | _, _, _ => s
    else if x.fallback then fallbackRun s a o x
    else s)

/-- Whether two sides agree on what R191 compares. -/
def sidesAgree (a : Half) : Other → Bool
  | .here b =>
    clsCount a.cls == clsCount b.cls && clsLesz a.cls == clsLesz b.cls && clsFb a.cls == clsFb b.cls &&
    clsWin a.cls == clsWin b.cls && a.side.expert == b.side.expert && a.side.s == b.side.s && a.side.g == b.side.g &&
    a.side.rounds == b.side.rounds
  | .beyond p =>
    clsCount a.cls == p.count && clsLesz a.cls == p.lesz && clsFb a.cls == p.fb && clsWin a.cls == p.win &&
    a.side.s == p.size && (a.side.expert || (a.side.g == p.growth && a.side.rounds == p.rounds))

/-- A side is paired. -/
def pairSide (s : State) (d : DieId) (slot : Fin 16) : State :=
  modDie s d fun x => { x with sides := x.sides.map fun y => if y.slot = slot then { y with paired := true } else y }

/-- SESSION_PAIR (R191). -/
def execSessionPair (d : DieId) (slot : Fin 16) (peer : Option PeerSide) (s : State) : Out :=
  .next (match halfAt s d slot with
    | none => s
    | some a =>
      if a.side.paired || !sidePairs s a.side then s
      else match otherOf s a peer with
        | none => s
        | some o =>
          if !(match o with | .here b => sidePairs s b.side | .beyond _ => true) then s
          else if sidesAgree a o then
            let s1 := movedBoth (pairSide s d slot) a o
            match o with
            | .here b => pairSide s1 b.die b.side.slot
            | .beyond _ => s1
          else closeSession (bothFault s a o ⟨.illegalOperand, 0, 0, .fault⟩) a o)

/-- Whether the launch of a side is held (R394): its expert steps go on when it is restored. -/
def sideHeld (s : State) (x : Side) : Bool :=
  s.ctxs.any fun c => match c.held with
    | some h => h.launch.id == x.who.launch
    | none => false

/-- Whether the session of a paired side has lost its peer before the commit point (R194). -/
def peerLost (s : State) (h : Half) : Bool :=
  h.side.paired && sideLive s h.side &&
    !(match (dieAt s h.die).session with
      | some x => x.committed && (x.side.slot == h.side.slot ||
          (peerHere s h.cls && clsDie h.cls == h.die && x.side.slot == clsSlot h.cls))
      | none => false) &&
    (!peerHere s h.cls || match peerHalf s h with
      | some b => !sideLive s b.side && !sideHeld s b.side
      | none => true)

/-- SESSION_ABORT (R194): the peer's launch has ended, so the session of this side ends with SKETCH_PEEL. -/
def execSessionAbort (d : DieId) (s : State) : Out :=
  .next (match ((dieAt s d).sides.filterMap fun x => halfAt s d x.slot).find? (peerLost s) with
    | none => s
    | some h =>
      let s1 := modSk s h.side.who (skEnd 0 3)
      let v := (coreAt s1 h.side.who.core).blk.skstat
      dropSide (sideStop s1 h ⟨.sketchPeel, 0, v, .fault⟩) d h.side.slot
        (if peerHere s h.cls && clsDie h.cls = d then some (clsSlot h.cls) else none))

/-! ## Starting the commands -/

/-- The class slot of a command, registered to its context. -/
def classFor (s : State) (f : EngForm) (g : Eng) : Option (Fin 16 × Cls) :=
  let slot : Fin 16 := Fin.ofNat 16 f.k.toNat
  match at' (dieAt s (dieOf g.who.core)).classes slot with
  | some c => if c.ctx = g.ctx then some (slot, c) else none
  | none => none

/-- Whether an acquire lets SKRECON read (R195): its issuer's earlier accesses and the writes to the class's table that are
visible at the scope (R126) have performed at their homes. -/
def ckAcquired (s : State) (g : Eng) (c : Cls) : Bool :=
  let o := engOrder g.i
  !(o.1 && o.2.2 != 0) || s.accs.all fun b => performed b ||
    !(b.who.launch == g.who.launch && b.who.core == g.who.core && b.agent == g.agent && b.id < g.stamp) &&
    !(isWriteKind b.kind && b.stage ≥ o.2.2 && b.stage ≥ 1 &&
      (probeLocs b.loc b.size).any fun l => (entryKey s c l).isSome)

/-- A command's side enters the wait for its peer (R191). -/
def enterWait (s : State) (g : Eng) (x : Side) : State :=
  modSk (modDie s (dieOf g.who.core) fun d => { d with sides := d.sides ++ [x] }) g.who fun _ => skStat 1 0 false 0 0 0

/-- SKRECON starts: it captures s, G and the round limit and waits for its peer (R192). -/
def startSkrecon (f : EngForm) (s : State) (g : Eng) : Start :=
  match classFor s f g, ctxBy s g.ctx with
  | some (slot, c), some x =>
    if !slotOpen s (dieOf g.who.core) g.ctx || !ckAcquired s g c || ((dieAt s (dieOf g.who.core)).sides.any (·.slot == slot)) then .wait
    else .go (startedOn (enterWait s g
      ⟨slot, g.id, g.who, false, x.skcells.toNat, x.skgrow.toNat, x.skrnd.toNat, false, 0⟩) g.id)
  | _, _ => badStart .illegalOperand 0

/-- A step that names a class: it opens a session, waits until its session runs, or goes on with it. -/
def expertStart (f : EngForm) (s : State) (g : Eng) (sz : Nat) (run : State → Half → Start) : Start :=
  match classFor s f g with
  | none => badStart .illegalOperand 0
  | some (slot, c) =>
    if !slotOpen s (dieOf g.who.core) g.ctx then .wait
    else match halfAt s (dieOf g.who.core) slot with
      | none => .go (enterWait s g ⟨slot, g.id, g.who, true, sz, 0, 0, false, 0⟩)
      | some a =>
        if !a.side.paired || !a.side.expert then .wait
        else
          let o := if peerHere s c then (peerHalf s a).map Other.here
            else some (.beyond ⟨0, 0, false, false, 0, 0, 0, [], false⟩)
          match o with
          | none => .wait
          | some o => match openFor s a o with
            | none => .wait
            | some (s1, x) => if x.committed then .wait else run s1 { a with cmd := g.id }

/-- The first address that is not aligned to 64 bytes. -/
def misaligned64 (xs : List DWord) : Option DWord := xs.find? fun a => a.toNat % 64 != 0
/-- Whether a size is one of a sketch. -/
def sizeOk (v : DWord) : Bool := 1 ≤ v.toNat && v.toNat ≤ 14

/-- The checks of an expert step: its addresses and its size (R198). -/
def expertCheck (xs : List DWord) (size : Option DWord) : Option EngFault :=
  match misaligned64 xs with
  | some a => some ⟨.align, a, 0, .fault⟩
  | none => match size with
    | some v => if sizeOk v then none else some ⟨.illegalOperand, 0, 0, .fault⟩
    | none => none

/-- SKBLD starts. -/
def startSkbld (f : EngForm) (s : State) (g : Eng) : Start :=
  match expertCheck [g.a] (some g.b) with
  | some e => .trap e
  | none => expertStart f s g g.b.toNat fun s a =>
    let sz := g.b.toNat
    match changeSet s a with
    | .inr e => .trap e
    | .inl xs => match engSpan s g .write g.a.toNat (24 * ckSize sz) with
      | .inr e => .trap e
      | .inl _ => .go (landed (modSk (engWrite s g g.a.toNat (ckBytes (ckSketch sz (withDigests xs)))) g.who
          fun _ => skStat 2 0 false 0 0 a.side.appl) g.id)

/-- SKXCH starts, and waits for the peer's. -/
def startSkxch (f : EngForm) (s : State) (g : Eng) : Start :=
  match expertCheck [g.a, g.b] (some g.c) with
  | some e => .trap e
  | none => expertStart f s g g.c.toNat fun s a =>
    .go (startedOn (modSk s g.who fun _ => skStat 2 0 false 0 0 a.side.appl) g.id)

/-- SKFIX starts, and waits for the peer's. -/
def startSkfix (f : EngForm) (s : State) (g : Eng) : Start :=
  match expertCheck [g.a] none with
  | some e => .trap e
  | none => expertStart f s g 0 fun s a =>
    .go (startedOn (modSk s g.who fun _ => skStat 3 0 false 0 0 a.side.appl) g.id)

/-- SKSUB starts. -/
def startSksub (s : State) (g : Eng) : Start :=
  match expertCheck [g.d, g.a, g.b] (some g.c) with
  | some e => .trap e
  | none =>
    let sz := g.c.toNat
    let n := 24 * ckSize sz
    match engRead s g g.a.toNat n, engRead s g g.b.toNat n, engSpan s g .write g.d.toNat n with
    | .inr e, _, _ => .trap e
    | _, .inr e, _ => .trap e
    | _, _, .inr e => .trap e
    | .inl x, .inl y, .inl _ =>
      .go (landed (engWrite s g g.d.toNat (ckBytes (ckSub (ckOfBytes sz x) (ckOfBytes sz y)))) g.id)

/-- SKPEEL starts. -/
def startSkpeel (s : State) (g : Eng) : Start :=
  match expertCheck [g.a, g.b] (some g.c) with
  | some e => .trap e
  | none =>
    let sz := g.c.toNat
    let n := 24 * ckSize sz
    match engRead s g g.b.toNat n with
    | .inr e => .trap e
    | .inl bs =>
      let p := ckPeel sz (ckOfBytes sz bs)
      match engSpan s g .write g.b.toNat n, engSpan s g .write g.a.toNat (16 * p.list.length) with
      | .inr e, _ => .trap e
      | _, .inr e => .trap e
      | .inl _, .inl _ =>
        let s1 := engWrite (engWrite s g g.b.toNat (ckBytes p.cells)) g g.a.toNat (peelBytes p.list)
        .go (landedWith s1 g.id (BitVec.ofNat 64 (p.list.length + if peelOk p then 0 else 2 ^ 63)) 0)

/-! ## The end of a session (R194, R195) -/

/-- Whether the writes of a side's engine have performed. -/
def sideQuiet (s : State) (h : Half) : Bool := s.accs.all fun a => !ownClass a h.die h.side.slot

/-- What the completion of a Chisel command does to its session: the session closes once every write of both sides has
performed, and one left open by a launch that has ended is closed, which its peer then notices (R199). `none` while the
completion must wait. -/
def chiselDone (s : State) (g : Eng) (k : Nat) : Option State :=
  match halfAt s (dieOf g.who.core) (Fin.ofNat 16 k) with
  | none => some s
  | some a =>
    let o := match peerHalf s a with
      | some b => Other.here b
      | none => .beyond ⟨0, 0, false, false, 0, 0, 0, [], false⟩
    let quiet := sideQuiet s a && match o with | .here b => sideQuiet s b | .beyond _ => true
    let res := if (match (dieAt s a.die).session with | some x => x.fallback | none => false) then 2 else 1
    let close (s : State) : State :=
      let s1 := modSk s a.side.who (skEnd 0 res)
      let s2 := match o with | .here b => modSk s1 b.side.who (skEnd 0 res) | .beyond _ => s1
      closeSession s2 a o
    let ended := !sideLive s a.side
    let leave (s : State) : State := dropSide (modSk s a.side.who (skEnd 0 3)) a.die a.side.slot (match o with
      | .here b => if b.die = a.die then some b.side.slot else none
      | .beyond _ => none)
    match g.i with
    | .skrecon _ => if quiet then some (close s) else none
    | .skfix _ =>
      if g.result ≠ 0 then some (if ended then leave s else s)
      else if !quiet then none
      else if (fixFlags g.i).1 then some (close s)
      else if ended then some (leave s)
      else some (modSession s a o fun x => { x with committed := false, fallback := false })
    | _ => some s

end Sys2Proof.Machine
end

