-- ==== Sys2Proof/Machine/Engine.lean ====
section
/-! DEFINITION. The life of an engine command after its issue (R329 to R334, R159): acceptance with its claims, the start
of each command, completion, and the issue of a follow-on MMA. -/

namespace Sys2Proof.Machine
open Sys2Proof

/-! ## Acceptance (R329 to R331) -/

/-- Whether two commands stand in one queue: one per die for the Chisel engine, else one per core. -/
def sameQueue (a b : Eng) : Bool :=
  a.q == b.q && (if a.q = .chisel then dieOf a.who.core == dieOf b.who.core else a.who.core == b.who.core)

/-- Whether a command's queue has room for it. -/
def queueRoom (s : State) (g : Eng) : Bool :=
  (s.engs.filter fun x => sameQueue x g && x.stage != .offered).length < queueDepth g.q

/-- The regions of one copy (R331). -/
def copyRegions (o : CopyOp) : List (Region × Bool) :=
  (if o.sk = 1 then [(.tile (Fin.ofNat 16 o.src), false)] else []) ++
  (if o.dk = 1 then [(.tile (Fin.ofNat 16 o.dst), true)]
   else if o.dk = 2 then (blocksOf o.dst o.n).map fun r => (r, true) else [])

/-- Whether the graph of a handle may change before a command of it starts: a GLOAD or a GFREE of it stands in the queue. -/
def graphPending (s : State) (g : Eng) (h : Fin 4) : Bool :=
  s.engs.any fun x => sameQueue x g && x.stage != .offered && x.id != g.id && match x.i with
    | .gload f | .gfree f => handleOf f == h
    | _ => false

/-- The regions that a command claims at acceptance. A COPYC, whose list is read under its acquire (R329, R338), and a TILE run
whose graph is not placed yet cannot name theirs and claim every region until they can (log entry 75). -/
def regionsOf (s : State) (g : Eng) (ds : List DWord) : List (Region × Bool) :=
  let tile (o : Operand) (w : Bool) : List (Region × Bool) :=
    match tileOf o with
    | some t => [(.tile t, w)]
    | none => []
  match g.i with
  | .copy f => copyRegions (copyOf f g)
  | .copyc _ => [(.every, true)]
  | .tld f | .tclr f => tile f.d true
  | .tst f => tile f.a false
  | .mldb _ => (blocksOf g.d.toNat 16384).map fun r => (r, true)
  | .spld _ => (blocksOf g.d.toNat 32768).map fun r => (r, true)
  | .mma _ => mmaRegions g.a
  | .mnorm _ => normRegions g.a
  | .gbind f =>
    if bdSrc (bindDesc ds) = 1 && graphPending s g (handleOf f) then [(.every, true)]
    else match at' (coreAt s g.who.core).graphs (handleOf f) with
      | some x => bindRegions (bindDesc ds) x
      | none => []
  | _ => []

/-- Whether a command carries a follow-on MMA. -/
def hasFollow : Instr → Bool
  | .copy f | .copyc f => f.follow
  | _ => false

/-- A command enters its queue: its number in its SEQ class, its claims, and directly after them those of its
follow-on, whose number is kept in `follow`. -/
def enterQueue (s : State) (g : Eng) (ds : List DWord) : State :=
  let c := g.who.core
  let r := seqIssue s c g.i
  let s1 := addClaims { r.2 with nextId := r.2.nextId + 2 } c g.id (regionsOf s g ds)
  let fid := r.2.nextId + 1
  let s2 := if hasFollow g.i then addClaims s1 c fid (mmaRegions g.c) else s1
  modEng s2 g.id fun g => { g with
    stage := .queued, order := r.2.nextId, desc := ds, seqNo := r.1, follow := if hasFollow g.i then some fid else none }

/-- A GBIND is accepted once its descriptor is read, under its acquire (R329, R179). -/
def acceptBind (s : State) (g : Eng) : State :=
  if g.a.toNat % 32 ≠ 0 then engRaise s g ⟨.align, g.a, 0, .fault⟩
  else if !acquired s g then s
  else match engRead s g g.a.toNat 32 with
    | .inr e => engRaise s g e
    | .inl bs => enterQueue s g (dwordsOf bs)

/-- Whether the launch of a command lets it move. -/
def engLive (s : State) (g : Eng) : Bool :=
  match launchBy s g.who.launch with
  | some l => maySteps s l
  | none => false

/-- ENGINE_COMMAND_ACCEPT (R330): the command of number `n`, which its issuer offers, enters its queue. -/
def execEngineCommandAccept (c : CoreId) (n : Nat) (s : State) : Out :=
  .next (match engBy s n with
    | none => s
    | some g =>
      if g.who.core != c || g.stage != .offered || !engLive s g || !queueRoom s g then s
      else match g.i with
        | .gbind _ => acceptBind s g
        | _ => enterQueue s g [])

/-! ## Starting (R330, R331, R333) -/

/-- The handle or class that a command names. -/
def unitOfCommand (i : Instr) : Option Nat :=
  match i with
  | .gload f | .gbind f | .gfree f | .gqry f | .skbld f | .skxch f | .skrecon f | .skfix f => some f.k.toNat
  | _ => none

/-- Whether a Chisel command is an expert step. -/
def isExpert : Instr → Bool
  | .skrecon _ => false
  | _ => true

/-- Whether two Chisel commands keep their order whatever waits: on one class, or as expert steps of one launch of which one
names no class (R199). -/
def tied (x g : Eng) : Bool :=
  match unitOfCommand x.i, unitOfCommand g.i with
  | some a, some b => a == b
  | _, _ => isExpert x.i && isExpert g.i && x.who.launch == g.who.launch

/-- Whether the class of a Chisel command waits for its peer, or for its session's turn (R191). -/
def waitsPeer (s : State) (x : Eng) : Bool :=
  let d := dieOf x.who.core
  match (unitOfCommand x.i).bind fun k => halfAt s d (Fin.ofNat 16 k) with
  | some h => !(match (dieAt s d).session with
      | some y => y.side.slot == h.side.slot || (peerHere s h.cls && clsDie h.cls == d && y.side.slot == clsSlot h.cls)
      | none => false)
  | none => false

/-- Whether a Chisel command stands still because of such a wait, its own or that of one it is tied to. -/
def heldByWait (s : State) (x : Eng) : Bool :=
  waitsPeer s x || s.engs.any fun y => sameQueue y x && y.stage != .offered && y.order < x.order && tied y x && waitsPeer s y

/-- Whether a started Chisel command waits for a step of the peer class, which is of its own die and which another command names
(R183, R199). -/
def awaitsStep (s : State) (x g : Eng) : Bool :=
  let d := dieOf x.who.core
  x.stage == .started && match unitOfCommand x.i, unitOfCommand g.i with
    | some a, some b => match at' (dieAt s d).classes (Fin.ofNat 16 a) with
      | some c => peerHere s c && clsDie c == d && (clsSlot c).val == b
      | none => false
    | _, _ => false

/-- Whether an earlier command of the same queue keeps a later one from starting: in the graph queue only on one handle
(R177); in the Chisel queue a class's wait never blocks a different class (R191), nor a step the one that it is to meet. -/
def blocks (s : State) (x g : Eng) : Bool :=
  match g.q with
  | .graph => unitOfCommand x.i == unitOfCommand g.i
  | .chisel => tied x g || (!heldByWait s x && !awaitsStep s x g)
  | _ => true

/-- Whether a command is the next of its queue (R330). -/
def isNext (s : State) (g : Eng) : Bool :=
  s.engs.all fun x => !(sameQueue x g && x.stage != .offered && x.order < g.order && blocks s x g)

/-- The start of a command, by its kind. -/
def startCommand (s : State) (l : Launch) (g : Eng) : Start :=
  match g.i with
  | .sspec f => startSspec f s l g
  | .sarm f => startSarm f s l g
  | .copy f => startCopy f s g
  | .copyc f => startCopyc f s g
  | .tld f => startTld f s g
  | .tst f => startTst f s g
  | .tclr f => startTclr f s g
  | .mldb f => startMldb f s g
  | .spld f => startSpld f s g
  | .mma _ => startMma s g
  | .mnorm f => startMnorm f s g
  | .gload f => startGload f s g
  | .gbind f => startGbind f s g
  | .gfree f => startGfree f s g
  | .gqry f => startGqry f s g
  | .skbld f => startSkbld f s g
  | .skxch f => startSkxch f s g
  | .sksub _ => startSksub s g
  | .skpeel _ => startSkpeel s g
  | .skrecon f => startSkrecon f s g
  | .skfix f => startSkfix f s g
  | .gstart f => startGstart f s g
  | .gstop f => startGstop f s l g
  | .gmask f => startGmask f s g
  | .gfeed f => startGfeed f s g
  | .gstat f => startGstat f s g
  | _ => .wait

/-- Whether a launch lets a command start: a drain or a freeze keeps those that have not started (R396, R397), but a walk
may still start on a generator that has not placed its marker, and a drain waits for a copy's follow-on (R159). -/
def mayStart (s : State) (l : Launch) (g : Eng) : Bool :=
  l.phase == .running || endsNow s l || mayStep l.phase && (g.leader.isSome || match g.q with
    | .ag k => let x := coreAt s g.who.core; !(at' x.ags k).stop && !x.frozen.contains (.ag k)
    | _ => false)

/-- The bytes of an MMA's B operand: 128 rows of 128 bytes, or 64 of a 16-bit format (R151, R152). -/
def mmaBlock (x : MmaDesc) : Nat := if x.fmt.any wideFmt then 8192 else 16384

/-- How many bytes of a tile a command reads. -/
def tileRead (g : Eng) (t : Fin 16) : Nat :=
  let copies (os : List CopyOp) : Nat := ((os.filter fun o => o.sk == 1 && o.src == t.val).map (·.n)).foldl max 0
  match g.i with
  | .mma _ =>
    let x := mmaDesc g.a
    max (if x.ta ≤ t.val ∧ t.val < x.ta + x.tiles then 128 * x.m else 0) (if x.bt ∧ x.tb = t.val then mmaBlock x else 0)
  | .copy f => copies [copyOf f g]
  | .copyc _ => copies ((List.range g.b.toNat).map (copyOfDesc g.desc))
  | .tst _ => 128 * g.c.toNat
  | .gbind _ => 128 * bdNvec (bindDesc g.desc)
  | _ => 16384

/-- The lowest word with bad check bits of a tile or a block that a command reads (R437). -/
def regionBad (s : State) (g : Eng) : Option Nat :=
  let c := g.who.core
  ((coreAt s c).claims.filter fun x => x.cmd == g.id && !x.writer).findSome? fun x => match x.region with
    | .tile t => firstBad s (tileLoc c t) (tileRead g t)
    | .weight n => firstBad s (weightLoc c + 16384 * n)
        (match g.i with | .mma _ => if (mmaDesc g.a).sp then 16384 else mmaBlock (mmaDesc g.a) | _ => 16384)
    | .every => none

/-- Whether a command touches memory, so that ACQ acts on it: of MNORM only the memory form does (R334). -/
def touchesMemory (g : Eng) : Bool :=
  match g.i with
  | .mnorm _ => (normDesc g.a).dk == 1
  | _ => true

/-- A command that could not name its regions at acceptance names them, in the place of its claim (log entry 75). -/
def settleClaims (s : State) (g : Eng) : State :=
  let c := g.who.core
  match g.i with
  | .copyc _ => match copyList s g with
    | .inr e => engRaise s g e
    | .inl xs => narrowClaims (modEng s g.id fun y => { y with desc := xs }) c g.id
        ((List.range g.b.toNat).flatMap fun i => copyRegions (copyOfDesc xs i))
  | .gbind f => narrowClaims s c g.id (match at' (coreAt s c).graphs (handleOf f) with
    | some x => bindRegions (bindDesc g.desc) x
    | none => [])
  | _ => s

/-- Whether a command names, in its operands or its descriptor, a tile register or an edge router of the half of a split core
that no launch uses (R433; log entry 86). -/
def namesOther (s : State) (g : Eng) : Bool :=
  let k := coreAt s g.who.core
  let edges : List Nat := match g.i with
    | .gbind _ =>
      let d := bindDesc g.desc
      (if bdSrc d = 0 then [(bdEdge d).val] else []) ++ (if bdDst d = 0 then [(bdOedge d).val] else [])
    | .mnorm _ => [(normDesc g.a).edge]
    | _ => []
  isSplit k && (edges.any (8 ≤ ·) || k.claims.any fun x => x.cmd == g.id && match x.region with
    | .tile t => decide (8 ≤ t.val)
    | _ => false)

/-- ENGINE_COMMAND_START (R330): the next command of its queue starts, once its claims and its acquire let it. Its checks
come before the read of its tiles and blocks (R179, R437). -/
def execEngineCommandStart (c : CoreId) (id : Nat) (s : State) : Out :=
  .next (match engBy s id with
    | none => s
    | some g => match launchBy s g.who.launch with
      | none => s
      | some l =>
        if g.who.core != c || g.stage != .queued || !mayStart s l g || !isNext s g || (touchesMemory g && !acquired s g) then s
        else if claimsAll (coreAt s c) id then settleClaims s g
        else if !claimsOk id [] (coreAt s c).claims then s
        else match startCommand s l g with
          | .wait => s
          | .trap f => engRaise s g f
          | .go s1 =>
            if namesOther s g then engRaise s g ⟨.illegalOperand, 0, 0, .fault⟩
            else match regionBad s g with
              | some loc => engRaise s g ⟨.uncorrectable, 0, physAddr s loc, .fault⟩
              | none => active s1 c)

/-! ## Completion (R129, R332, R159) -/

/-- A landed command reports its completion; a follow-on MMA lets go the copy that it rode on. -/
def reportDone (s : State) (g : Eng) : State :=
  let s1 := completeCommand s g
  match g.leader with
  | some n => modEng s1 n fun x => { x with follow := none }
  | none => s1

/-- Whether a landed command may report: its launch runs, freezes (R396), or has been taken down with a Chisel session past
its commit point (R392). -/
def mayReport (s : State) (g : Eng) : Bool :=
  match launchBy s g.who.launch with
  | some l => maySteps s l || l.phase == .freezing || l.phase == .torn
  | none => false

/-- ENGINE_COMMAND_COMPLETE (R332): a landed command whose writes allow it reports. An MNORM's stream emits its next
element and a GFREE waits out its vectors under this step. -/
def execEngineCommandComplete (c : CoreId) (id : Nat) (s : State) : Out :=
  .next (match engBy s id with
    | none => s
    | some g =>
      if g.who.core != c then s
      else if g.stage == .started && engLive s g then
        match g.i with
        | .mnorm _ => normEmit s g
        | .gfree f => freeGraph f s g
        | _ => s
      else if g.stage == .landed && mayReport s g && g.follow.isNone && writesDone s g then
        match g.q with
        | .chisel => match chiselDone s g ((unitOfCommand g.i).getD 16) with
          | some s1 => reportDone s1 g
          | none => s
        | _ => reportDone s g
      else s)

/-- The MMA that follows a copy (R215): its descriptor is the copy's C. -/
def followInstr : Instr :=
  .mma ⟨.x 0, .x 0, .x 0, .x 0, false, false, 0, false, 0, 0⟩

/-- FOLLOW_ON_MMA_ISSUE (R159): the copy's last byte has landed, and its MMA enters the matrix queue. -/
def execFollowOnMmaIssue (c : CoreId) (id : Nat) (s : State) : Out :=
  .next (match engBy s id with
    | none => s
    | some g => match g.follow with
      | none => s
      | some fid =>
        let r := seqIssue s c followInstr
        let m : Eng := { g with
          id := fid, order := r.2.nextId, who := { g.who with unit := 7, elem := 0 }, q := .matrix, i := followInstr
          a := g.c, desc := [], stage := .queued, follow := none, leader := some id, flags := 0, result := 0
          seqNo := r.1, mute := false }
        if g.who.core != c || g.stage != .landed || (engBy s fid).isSome || !mayReport s g || !queueRoom s m then s
        else active { r.2 with nextId := r.2.nextId + 1, engs := r.2.engs ++ [m] } c)

end Sys2Proof.Machine
end

