-- ==== Sys2Proof/Machine/End.lean ====
section
/-! DEFINITION. The end of teams and launches (R376, R366, R392), and the period of the watchdog
(R393). -/

namespace Sys2Proof.Machine
open Sys2Proof

/-! ## Teams (R376) -/

/-- A node between two teams of its core: local registers, tags and seen bits as the image gives them. -/
def renewNode (n : Node) : Node := { n with l := n.init.map (·.1), tag := n.init.map (·.2), seen := 0 }

/-- Whether a gang's team ends: it runs on a core of the gang, and every core is quiet. -/
def teamEnds (s : State) (l : Launch) (g : List CoreId) : Bool :=
  g.any (fun c => (coreAt s c).inTeam) && g.all (quiet s l)

/-- A gang whose team has ended takes the next unstarted team, if there is one; else its cores are between teams and have no
further team to run (R303, R317). A persistent launch places no other. -/
def nextTeam (s : State) (l : Launch) (g : List CoreId) : State :=
  if !isPersist l.recd && decide (l.nextTeam < teamCount l.recd) then
    let s1 := g.foldl (fun s c => modCore s c fun k => { k with nodes := k.nodes.map renewNode }) s
    placeTeam (modLaunch s1 l.id fun l => { l with nextTeam := l.nextTeam + 1 }) l g l.nextTeam
  else g.foldl (fun s c => modCore s c fun k => { k with inTeam := false, finished := true }) s

/-- Whether every team has ended and every core is quiet. -/
def launchOver (s : State) (l : Launch) : Bool :=
  l.cores.all (quiet s l) && (isPersist l.recd || l.cores.all fun c => (coreAt s c).finished)

/-- A launch whose last team has ended completes. -/
def completeIfOver (s : State) (l : Launch) : State :=
  if launchOver s l then modLaunch s l.id fun l => { l with phase := .ending, status := some .complete, endedAt := s.now }
  else s

/-- TEAM_END (R317, R376): the lowest gang whose team has ended takes the next team, or has none left; a launch whose every
team has ended completes. -/
def execTeamEnd (launch : Nat) (c : CoreId) (s : State) : Out :=
  .next (match launchBy s launch with
    | none => s
    | some l =>
      if l.phase ≠ .running then s
      else match (gangsOf (gangSize l.recd) l.cores).find? (teamEnds s l) with
        | some g => if g.contains c then completeIfOver (nextTeam s l g) l else s
        | none => completeIfOver s l)

/-! ## Taking a launch down (R392) -/

/-- The Chisel commands of a launch that have started and whose session has passed its commit point (R194, R392). -/
def committedEngs (s : State) (launch : Nat) : List Nat :=
  (s.engs.filter fun g => g.who.launch == launch && g.q == .chisel && g.stage != .offered && g.stage != .queued &&
    match (dieAt s (dieOf g.who.core)).session, unitOfCommand g.i with
    | some x, some slot => x.committed && (x.side.slot.val == slot ||
        match halfAt s (dieOf g.who.core) x.side.slot with
        | some h => peerHere s h.cls && clsDie h.cls == h.die && (clsSlot h.cls).val == slot
        | none => false)
    | _, _ => false).map (·.id)

/-- Whether an access outlives its launch's end: a write that has reached a buffer of level 2 or higher and has not performed,
and those of a committed session. -/
def accOutlives (keep : List Nat) (a : Access) : Bool :=
  (isWriteKind a.kind && decide (2 ≤ a.stage) && !a.waiting && a.got.isNone) ||
  match a.agent with
  | .engine id => keep.contains id
  | _ => false

/-- A core whose launch has ended: nothing of the launch steps on it. Its register block still takes updates (R395). -/
def stoppedCore (k : Core) : Core :=
  { Core.zero with
    holder := k.holder, guardV := k.guardV, blk := k.blk, seqLate := k.seqLate, lastAct := k.lastAct
    lastPc := match k.task with | some t => t.pc | none => k.lastPc }

/-- Sides leave their engines as their launch ends: SKSTAT says so, and a session that was theirs closes (R197, R199). -/
def dropSides (s : State) (gone : DieId → Side → Bool) : State :=
  (List.finRange 4).foldl (fun s d => ((dieAt s d).sides.filter (gone d)).foldl
    (fun s x => dropSide (modSk s x.who (skEnd 0 3)) d x.slot none) s) s

/-- The held launch of a context is held no more: its image goes, and whoever waited for its restore reads 0. -/
def dropHeld (s : State) (x : Ctx) : State :=
  let s1 := mapAskers (modCtx s x.n fun y => { y with held := none, restore := none, restored := none }) fun a => match a with
    | .saved ctx _ _ _ => if ctx = x.n then .nobody else a
    | _ => a
  match x.restore with
  | some a => answer s1 a 0
  | none => s1

/-- A held launch that was granted cores again and ends before it resumes is held no more (R380, R406). -/
def dropRestored (s : State) (l : Launch) : State :=
  match ctxBy s l.ctx with
  | some x => if x.restored = some l.id then dropHeld s x else s
  | none => s

/-- Whether what has asked for a walk is still there. -/
def stillAsks (engs : List Eng) (cores : List CoreId) : WalkFor → Bool
  | .engine id => engs.any (·.id == id)
  | .system c => !cores.contains c
  | .element => true

/-- A launch is taken down: its agents stop, its accesses and commands are abandoned but for those that outlive it, its
range queue is freed, and those who waited for its freeze or drain learn that no launch runs. -/
def takeDown (s : State) (l : Launch) : State :=
  let keep := committedEngs s l.id
  let slots := (s.engs.filter fun g => keep.contains g.id).filterMap fun g => (unitOfCommand g.i).map fun u => (dieOf g.who.core, u)
  let s0 := dropSides (dropRestored s l) fun d x =>
    x.who.launch == l.id && !slots.any fun y => y.1 == d && y.2 == x.slot.val
  let engs := s0.engs.filter fun g => g.who.launch != l.id || keep.contains g.id
  let s1 := { s0 with
    accs := s0.accs.filter fun a => a.who.launch != l.id || accOutlives keep a
    engs := engs
    walked := s0.walked.filter fun x => stillAsks engs l.cores x.1
    dies := s0.dies.map fun d => { d with
      rqs := d.rqs.filter (·.2.launch != l.id)
      walks := d.walks.filter (·.who.launch != l.id) }
    ctxs := s0.ctxs.map fun x => { x with checks := x.checks.filter (·.2.launch != l.id) }
    cpsem := if s0.cpsem = .sys l.ctx then .free else s0.cpsem }
  let s2 := forgetAskers (l.cores.foldl (fun s c => modCore s c stoppedCore) s1) l.cores
  let s3 := l.stoppers.foldl (fun s x => answer s x.1 0) s2
  serveClasses (modLaunch s3 l.id fun l => { l with phase := .torn, stoppers := [], stageQs := [], roomWaits := [] })

/-- LAUNCH_TEARDOWN (R392): steps 1 to 3 for a launch whose status is chosen. -/
def execLaunchTeardown (launch : Nat) (s : State) : Out :=
  .next (match launchBy s launch with
    | none => s
    | some l => if l.phase = .ending then takeDown s l else s)

/-- Whether nothing of a launch is on its way any more. -/
def allPerformed (s : State) (launch : Nat) : Bool :=
  s.accs.all (·.who.launch != launch) && s.engs.all (·.who.launch != launch)

/-- A fault record (R388). -/
def faultRecord (l : Launch) (f : FaultRec) : List DWord :=
  [BitVec.ofNat 64 (l.seq * 65536 + l.q.val * 4096 + faultNumber f.code),
   BitVec.ofNat 64 (f.who.unit * 2 ^ 24 + f.who.core.val * 65536 + f.who.elem % 65536),
   f.who.wid, f.addr, f.who.instr, f.extra, BitVec.ofNat 64 (min f.ndisc 65535), 0]

/-- A record written into a context's fault ring (R390). -/
def recordFault (s : State) (ctx : Nat) (r : List DWord) : State :=
  modCtx s ctx fun x => { x with
    ring := (x.ring.filter (·.1 != x.fhead % 64)) ++ [(x.fhead % 64, r)], fhead := x.fhead + 1 }

/-- STATUS_WRITE (R366, R392 step 4): the fault record, then the status entry, once every write of the launch that
counts as performed has performed and no class in session holds the entry's place (R185). -/
def execStatusWrite (launch : Nat) (s : State) : Out :=
  .next (match launchBy s launch with
    | none => s
    | some l =>
      match l.phase, l.status with
      | .torn, some st =>
        if !allPerformed s launch || statusHeld s l.ctx l.q l.seq then s
        else
          let s1 := match st, l.fault with
            | .faulted, some f => recordFault s l.ctx (faultRecord l f)
            | _, _ => s
          modLaunch (giveStatus s1 l.ctx l.q l.seq st l.grant) launch fun l => { l with phase := .written }
      | _, _ => s)

/-- STATUS_HELD_WRITE (R366): a held status is written once HALT is cleared. -/
def execStatusHeldWrite (ctx : Nat) (q : Fin 16) (s : State) : Out :=
  .next (match ctxBy s ctx with
    | none => s
    | some x =>
      let y := at' x.queues q
      match y.heldStatus with
      | some (seq, st, grant) => if y.halt then s else giveStatus s ctx q seq st grant
      | none => s)

/-- A register block written back to its context (R394). -/
def blockBack (s : State) (ctx : Nat) (c : CoreId) : State :=
  modCtx s ctx fun x => { x with blocks := (x.blocks.filter (·.1 != c)) ++ [(c, (coreAt s c).blk)] }

/-- A core goes back to the pool, and the Plinth serves those who waited for it. -/
def releaseCore (s : State) (c : CoreId) : State :=
  serveCore (modCore s c fun k => { Core.zero with guardV := k.guardV, lastPc := k.lastPc }) c

/-- A launch that holds no core any more is gone. -/
def dropIfDone (s : State) (l : Launch) : State :=
  if l.cores.all fun c => (coreAt s c).holder != some l.id then
    { s with launches := s.launches.filter (·.id != l.id) }
  else s

/-- CORE_RETURN (R392 step 5): a core of a launch whose status is written goes back to the pool. -/
def execCoreReturn (c : CoreId) (s : State) : Out :=
  .next (match holderOf s c with
    | none => s
    | some l =>
      if l.phase ≠ .written || !allPerformed s l.id then s
      else dropIfDone (releaseCore (blockBack s l.ctx c) c) l)

/-! ## The watchdog (R393) -/

/-- The watchdog period. -/
def watchPeriod (s : State) : Nat := 2 ^ s.wdp.toNat

end Sys2Proof.Machine
end

