-- ==== Sys2Proof/Machine/Preempt.lean ====
section
/-! DEFINITION. Pre-emption: the drain of a launch's elements (R397, R442), freeze (R396), the held launch (R394, R395),
its restore (R398), and the check of a code page (R400, R401). -/

namespace Sys2Proof.Machine
open Sys2Proof

/-! ## Markers (R397, R442) -/

/-- Whether a round marker stands at the head of a data queue. -/
def markerAt (k : Core) (q : QKey) : Bool := (queueAt k q).head? == some .marker
/-- Whether a round marker stands at the head of a control queue. -/
def cmarkerAt (k : Core) (q : QKey) : Bool := (cqueueAt k q).head? == some .marker

/-- A marker on each of a router's local VCs and sub-ports of a list; `none` where one has no room. -/
def placeMarkers (k : Core) (r : RouterId) (vcs subs : List (Fin 4)) : Option Core :=
  if vcs.all (canWrite k r) && subs.all (canSend k r) then
    let k1 := vcs.foldl (fun k vc => writeLocal k r vc .marker) k
    some (subs.foldl (fun k sub => sendLocal k r sub .marker) k1)
  else none

/-- An element of a core marked as frozen. -/
def markFrozen (e : Elem) (k : Core) : Core := { k with frozen := k.frozen ++ [e] }

/-- The circuits that a parser drives at an edge router: a byte-mode parser's emit port, and the circuits of the
generators that it governs (R34, R205). -/
def parserVcs (k : Core) (p : ParserId) (a : AgId) : List (Fin 4) :=
  let z := at' k.parsers p
  let g := at' k.ags a
  (if z.byte && z.outEdge == a then [Fin.ofNat 4 z.outVc.toNat] else []) ++
    (if g.gov == some p then [Fin.ofNat 4 g.vc.toNat] else [])

/-- Whether a lane's binding drives VC 3 of an edge router (R171). -/
def laneDrives (k : Core) (a : AgId) : Bool :=
  (residents k).any fun x => match x.bind with
    | some b => bdSrc b.desc == 0 && bdDst b.desc == 0 && bdOedge b.desc == a
    | none => false

/-- Whether a TILE run that streams out at an edge router is under way. -/
def runDrives (k : Core) (a : AgId) : Bool :=
  (residents k).any fun x => match x.bind with
    | some b => bdSrc b.desc == 1 && bdDst b.desc == 0 && bdOedge b.desc == a
    | none => false

/-- The VCs of its edge router that a generator marks: all but those that a parser or a lane drives. -/
def agVcs (k : Core) (a : AgId) : List (Fin 4) :=
  (List.finRange 4).filter fun v =>
    !((List.finRange 4).any fun p => (parserVcs k p a).contains v) && !(v == 3 && laneDrives k a)

/-- A generator in a drain: between walks, stopped behind the token that ended the round, or, of a WRITE walk, with a
marker at the head of its circuit. -/
def agAtRound (k : Core) (a : AgId) : Bool :=
  let g := at' k.ags a
  match g.walk with
  | none => true
  | some w =>
    if sdMode g.desc = 1 then markerAt k (.edge a (Fin.ofNat 4 g.vc.toNat))
    else g.stop && !(w.fin && w.slots.isEmpty)

/-- A generator places its markers and stops. -/
def drainAg (k : Core) (a : AgId) : Option Core :=
  if agAtRound k a && !runDrives k a then (placeMarkers k (agRouter a) (agVcs k a) [0]).map (markFrozen (.ag a)) else none

/-- Every port that a node names, those of a MERGE's choice among them. -/
def namedPorts (n : Node) : List (Fin 8) :=
  ((nodeInstrs n).flatMap fun i => (operandsOf i).filterMap portIndex).eraseDups

/-- Whether a port of a node needs no marker: the port at the head of a ring (R442). -/
def ringPort (k : Core) (pe : PeId) (p : Fin 8) : Bool := k.rings.any fun r => r.head == pe && pIndex r.hport == p

/-- Whether every input that a node consumes holds a marker at its head. -/
def nodeAtRound (k : Core) (n : Node) : Bool :=
  (namedPorts n).all fun p => ringPort k n.pe p ||
    if h : p.val < 4 then markerAt k (.pe n.pe ⟨p.val, h⟩) else cmarkerAt k (.pec n.pe ⟨p.val - 4, by omega⟩)

/-- Whether a node holds nothing that the round still owes: no firing, nothing on its way out, no block begun by a
CTURN. -/
def nodeDone (n : Node) : Bool :=
  n.firing.isNone && n.shaper.out.isEmpty &&
    !((nodeInstrs n).any (fun i => match i with | .cturn _ => true | _ => false) && !n.shaper.fill.isEmpty)

/-- A node freezes, with a marker on every circuit and control route but a ring's (R442). -/
def drainNode (k : Core) (pe : PeId) : Option Core :=
  match nodeAt k pe with
  | none => none
  | some n =>
    if n.frozen || !nodeAtRound k n || !nodeDone n then none
    else (placeMarkers k (peRouter pe) ((List.finRange 4).filter fun v => (ringOf k pe v).isNone) (List.finRange 4)).map
      fun k => markFrozen (.node pe) (modNode k pe fun n => { n with frozen := true })

/-- The stream ports of an MT that some entry of its router delivers to. -/
def mtPorts (k : Core) (m : MtId) : List (Fin 4) :=
  match routerAt k (mtRouter m) with
  | some x => ((x.sw.filter fun w => (swOuts w).contains 4).map swOvc).eraseDups
  | none => []

/-- An MT's ports freeze, with a marker on each circuit and on the control route of its done token (R80). -/
def drainMt (k : Core) (m : MtId) : Option Core :=
  let x := at' k.mts m
  if x.frozen || !(mtPorts k m).all (fun p => markerAt k (.mt m p)) || !x.rob.toList.all (·.isEmpty) then none
  else (placeMarkers k (mtRouter m) (List.finRange 4) [0]).map fun k =>
    markFrozen (.mt m) (modMt k m fun x => { x with frozen := true })

/-- A filter chain of a switch entry freezes: its queue is at the round, nothing waits behind it, and a CTURN is at a block
boundary. The router passes the marker on (`hopMarker`). -/
def drainFilter (k : Core) (r : RouterId) (entry : Nat) : Option Core :=
  match routerAt k r with
  | none => none
  | some x => match x.sw[entry]? with
    | none => none
    | some w =>
      let port : Fin 5 := Fin.ofNat 5 (w.extractLsb' 28 3).toNat
      let vc : Fin 4 := Fin.ofNat 4 (w.extractLsb' 26 2).toNat
      let blocks := (chainOf x vc entry w).all fun e =>
        (e.2.extractLsb' 28 4).toNat != 4 || (shaperAt x e.1).fill.isEmpty
      if swFlen w ≠ 0 && markerAt k (.link r port vc) && (shaperAt x (outPlace entry)).fill.isEmpty && blocks &&
          !k.frozen.contains (.filter r entry) then some (markFrozen (.filter r entry) k)
      else none

/-- Whether the marker has passed a parser's gate (R73): its stream stands at the round, and no token of it waits; a GFEED or a
GSTOP that runs has completed (R397). An action that waits for its permit is part of the state that is saved. -/
def parserAtRound (k : Core) (p : ParserId) : Bool :=
  let z := at' k.parsers p
  z.run.isNone && z.feed.isNone && z.stopping.isNone && z.fresh.isEmpty && z.items.isEmpty && z.rel.isEmpty && z.out.isEmpty &&
    (List.finRange 16).all fun a => (at' k.ags a).gov != some p || k.frozen.contains (.ag a)

/-- A parser freezes, with a marker into each circuit that it drives and from its sub-port 1. -/
def drainParser (k : Core) (p : ParserId) : Option Core :=
  let z := at' k.parsers p
  if z.frozen || !parserAtRound k p then none
  else
    let k1 := (List.finRange 16).foldl (fun (k : Option Core) a =>
      k.bind fun k => placeMarkers k (agRouter a) (parserVcs k p a) (if a.val = p.val then [1] else [])) (some k)
    k1.map fun k => markFrozen (.parser p) (modParser k p fun z => { z with frozen := true })

/-- The STREAM binding of a handle. -/
def laneBind (k : Core) (h : Fin 4) : Option Bind :=
  match (at' k.graphs h).bind (·.bind) with
  | some b => if bdSrc b.desc = 0 then some b else none
  | none => none

/-- A lane freezes once a marker stands at its head and its vectors have left, and passes the marker on to its output
circuit. -/
def drainLane (k : Core) (h : Fin 4) : Option Core :=
  match laneBind k h with
  | none => none
  | some b =>
    if k.frozen.contains (.lane h) || !markerAt k (.edge (bdEdge b.desc) 3) || !b.fly.isEmpty || !b.full.isEmpty then none
    else (placeMarkers k (agRouter (bdOedge b.desc)) (if bdDst b.desc = 0 then [3] else []) []).map (markFrozen (.lane h))

/-- Whether an engine runs no command of a core, the walks of generators apart (R397). -/
def enginesAtRound (s : State) (c : CoreId) : Bool :=
  s.engs.all fun g => g.who.core != c || g.stage == .offered || g.stage == .queued || match g.q with
    | .ag _ => true
    | _ => false

/-- A ring is frozen with its slots as they stand once its head and its tail are (R397, R442). -/
def drainRing (k : Core) (n : Nat) : Option Core :=
  match k.rings[n]? with
  | some r =>
    if k.frozen.contains (.ring n) || !k.frozen.contains (.node r.head) || !k.frozen.contains (.node r.tail) then none
    else some (markFrozen (.ring n) k)
  | none => none

/-- One element of a core freezes, if it is at the round. -/
def drainElem (s : State) (c : CoreId) (e : Elem) : Option Core :=
  let k := coreAt s c
  if k.frozen.contains e then none
  else match e with
    | .ag a => drainAg k a
    | .node pe => drainNode k pe
    | .mt m => drainMt k m
    | .filter r i => drainFilter k r i
    | .lane h => drainLane k h
    | .parser p => drainParser k p
    | .task => if k.task.isNone then some (markFrozen .task k) else none
    | .engine => if enginesAtRound s c then some (markFrozen .engine k) else none
    | .ring n => drainRing k n

/-- ELEMENT_DRAIN_FREEZE (R397): an element of a draining launch that is at the round freezes. -/
def execElementDrainFreeze (c : CoreId) (e : Elem) (s : State) : Out :=
  .next (match holderOf s c with
    | none => s
    | some l => match l.phase with
      | .draining _ _ => match drainElem s c e with
        | some k => active (modCore s c fun _ => k) c
        | none => s
      | _ => s)

/-! ## The end of a drain or a freeze (R394 to R397) -/

/-- The elements of a core that a drain freezes. -/
def configured (k : Core) : List Elem :=
  (List.finRange 16).map .ag ++ k.nodes.map (fun n => .node n.pe) ++
  ((List.finRange 32).filter fun m => !(mtPorts k m).isEmpty).map .mt ++
  (k.routers.flatMap fun x => ((List.range x.sw.length).filter fun i =>
    match x.sw[i]? with | some w => swFlen w != 0 | none => false).map (.filter x.id)) ++
  ((List.finRange 4).filter fun h => (laneBind k h).isSome).map .lane ++
  (List.finRange 4).map .parser ++ [.task, .engine] ++ (List.range k.rings.length).map .ring

/-- Whether nothing of a launch is outstanding outside its cores. -/
def nothingOut (s : State) (l : Launch) : Bool :=
  s.accs.all (·.who.launch != l.id) && (s.dies.toList.all fun d => d.walks.all (·.who.launch != l.id)) &&
  (l.cores.all fun c => (coreAt s c).outq.isEmpty) &&
  (s.dies.toList.all fun d => d.rqs.all fun q => q.2.launch != l.id || q.2.asks.isEmpty) &&
  s.dies.toList.all fun d => d.sides.all fun x => x.who.launch != l.id || !x.paired

/-- Whether every configured element of a launch is frozen. -/
def allFrozen (s : State) (l : Launch) : Bool :=
  l.cores.all fun c => (configured (coreAt s c)).all fun e => (coreAt s c).frozen.contains e

/-- A core as its image keeps it: without markers and without what stopped it for the drain. -/
def savedCore (k : Core) : Core :=
  { k with
    queues := (k.queues.map fun e => (e.1, e.2.filter (· != .marker))).filter fun e => !e.2.isEmpty
    cqueues := (k.cqueues.map fun e => (e.1, e.2.filter (· != .marker))).filter fun e => !e.2.isEmpty
    ags := k.ags.map fun g => { g with stop := false, tlb := [] }
    nodes := k.nodes.map fun n => { n with frozen := false }
    mts := k.mts.map fun m => { m with frozen := false }
    parsers := k.parsers.map fun z => { z with frozen := false }
    frozen := [] }

/-- The bytes of an own memory of a core, at their offset in the core image (R394). -/
def ownPart (m : Memory) (base len off : Nat) : List (Nat × Byte) :=
  (m.filter fun e => base ≤ e.1 && e.1 < base + len).map fun e => (e.1 - base + off, e.2)

/-- The bytes of a core's scratchpad, weight-store slice and tiles. -/
def ownBytes (s : State) (c : CoreId) : List (Nat × Byte) :=
  ownPart s.mem (scratchLoc c) (2 ^ 21) 0 ++ ownPart s.mem (weightLoc c) 0xC00000 0x200000 ++
    ownPart s.mem (tileLoc c 0) (2 ^ 18) 0xE00000

/-- Where an offset of a core image lies on a core. -/
def imageLoc (c : CoreId) (off : Nat) : Nat :=
  if off < 0x200000 then scratchLoc c + off
  else if off < 0xE00000 then weightLoc c + (off - 0x200000)
  else tileLoc c 0 + (off - 0xE00000)

/-- A command as a held launch keeps it: a SKRECON that waits for its peer goes back to its queue (R137, R396). -/
def imageEng (g : Eng) : Eng :=
  match g.i with
  | .skrecon _ => if g.stage == .started then { g with stage := .queued } else g
  | _ => g

/-- An access in a wait store as it is withdrawn (R396): back at its agent's issue queue. -/
def imageAcc (a : Access) : Access := { a with stage := 0, waiting := false, again := false, woken := false }

/-- The launch as its context's area holds it (R394). -/
def heldOf (s : State) (l : Launch) : Held where
  launch := { l with phase := .running, stoppers := [] }
  cores := l.cores.map fun c => (c, savedCore (coreAt s c))
  mem := l.cores.map (ownBytes s)
  accs := (s.accs.filter fun a => a.who.launch == l.id).map imageAcc
  engs := (s.engs.filter fun g => g.who.launch == l.id).map imageEng

/-- What each who waited for the stop of a launch reads (R406): the first, and a FREEZE that made a drain a freeze, the
number of cores saved, a drain that became a freeze with [63] set; all others 0. -/
def stopAnswers (n : Nat) (became : Bool) (xs : List (Asker × Bool)) : List (Asker × DWord) :=
  let v (drain : Bool) : DWord := BitVec.ofNat 64 (n + if drain && became then 2 ^ 63 else 0)
  match xs with
  | [] => []
  | (a, true) :: rest =>
    let i := (rest.findIdx? fun x => !x.2).getD rest.length
    (a, v true) :: rest.mapIdx fun j x => (x.1, if j = i then v false else 0)
  | (a, false) :: rest => (a, v false) :: rest.map fun x => (x.1, 0)

/-- The tasks of a launch's cores that wait for the Plinth wait on in its held image. -/
def saveAskers (s : State) (l : Launch) : State :=
  mapAskers s fun a => match a with
    | .task c b n => match l.cores.findIdx? (· == c) with
      | some i => .saved l.ctx i b n
      | none => a
    | _ => a

/-- A launch leaves its cores and is held (R396 steps 3 to 6). -/
def holdLaunch (s : State) (l : Launch) (became : Bool) : State :=
  let s1 := { s with
    accs := s.accs.filter fun a => a.who.launch != l.id
    engs := s.engs.filter fun g => g.who.launch != l.id
    dies := s.dies.map fun d => { d with
      walks := d.walks.filter (·.who.launch != l.id)
      sides := d.sides.filter fun x => x.who.launch != l.id || x.expert }
    launches := s.launches.filter (·.id != l.id) }
  let s2 := modCtx s1 l.ctx fun x => { x with held := some (heldOf s l), checks := x.checks.filter (·.2.launch != l.id) }
  let s3 := l.cores.foldl (fun s c => releaseCore (blockBack s l.ctx c) c) (saveAskers s2 l)
  (stopAnswers l.cores.length became l.stoppers).foldl (fun s x => answer s x.1 x.2) s3

/-- DRAIN_COMPLETE (R397). -/
def execDrainComplete (launch : Nat) (s : State) : Out :=
  .next (match launchBy s launch with
    | none => s
    | some l => match l.phase with
      | .draining _ _ => if allFrozen s l && nothingOut s l then holdLaunch s l false else s
      | _ => s)

/-- DRAIN_TIMEOUT (R397): a drain that has not completed within the watchdog period becomes a freeze. -/
def execDrainTimeout (launch : Nat) (s : State) : Out :=
  .next (match launchBy s launch with
    | none => s
    | some l => match l.phase with
      | .draining _ since =>
        if since + watchPeriod s ≤ s.now then modLaunch s launch fun l => { l with phase := .freezing } else s
      | _ => s)

/-- Whether an access may be saved as it stands: it waits in a bank's wait store, or behind one that does. -/
def accSaved (s : State) (a : Access) : Bool :=
  a.waiting || a.again || (a.stage == 0 && !canLeave s a && s.accs.any fun b => sameAgent a b && (b.waiting || b.again))

/-- Whether a copy waits for its remote package (R421). -/
def isCopying (g : Eng) : Bool :=
  g.stage == .started && match g.q with
    | .chain _ => true
    | _ => false

/-- Whether everything that a freezing launch has outside its cores has completed (R396 step 2). A landed copy whose
follow-on MMA has yet to enter its queue or to run is held with it. -/
def freezeOver (s : State) (l : Launch) : Bool :=
  (s.accs.all fun a => a.who.launch != l.id || accSaved s a) &&
  (s.engs.all fun g => g.who.launch != l.id || (g.stage != .landed && !isCopying g) ||
    (g.stage == .landed && g.follow.isSome)) &&
  s.dies.toList.all fun d => d.sides.all fun x => x.who.launch != l.id || x.expert || !x.paired

/-- FREEZE_COMPLETE (R396). -/
def execFreezeComplete (launch : Nat) (s : State) : Out :=
  .next (match launchBy s launch with
    | none => s
    | some l => if l.phase = .freezing ∧ freezeOver s l then holdLaunch s l true else s)

/-! ## Restore (R398, R442) -/

/-- Where each core of a held launch goes. -/
abbrev CoreMap := List (CoreId × CoreId)

/-- The core that takes the place of a core. -/
def toCore (m : CoreMap) (c : CoreId) : CoreId := ((m.find? (·.1 == c)).map (·.2)).getD c
/-- An element's name on the new cores. -/
def whoTo (m : CoreMap) (w : Who) : Who := { w with core := toCore m w.core }
/-- A chain on the new cores. -/
def chainTo (m : CoreMap) (x : Option Chain) : Option Chain := x.map fun y => { y with core := toCore m y.core }
/-- A message on the new cores. -/
def msgTo (m : CoreMap) (x : Msg) : Msg := { x with src := toCore m x.src, chain := chainTo m x.chain }
/-- A location on the new cores. -/
def locTo (m : CoreMap) (loc : Nat) : Nat :=
  if isScratch loc then scratchLoc (toCore m (scratchCore loc)) + (loc - scratchLoc (scratchCore loc)) else loc
/-- An access on the new cores. -/
def accTo (m : CoreMap) (a : Access) : Access := { a with who := whoTo m a.who, loc := locTo m a.loc }
/-- A command on the new cores. -/
def engTo (m : CoreMap) (g : Eng) : Eng := { g with who := whoTo m g.who }

/-- A core's state on the new cores. -/
def coreTo (m : CoreMap) (k : Core) : Core :=
  { k with
    task := k.task.map fun t => { t with chain := chainTo m t.chain }
    store := k.store.map (msgTo m)
    conts := k.conts.map fun x => { x with chain := chainTo m x.chain }
    outq := k.outq.map fun x => { x with msg := msgTo m x.msg, target := toCore m x.target } }

/-- One core of a held launch loaded onto the core that takes its place: its state, its register block and its own
memory. -/
def loadCore (x : Ctx) (m : CoreMap) (id : Nat) (s : State) (e : (CoreId × Core) × List (Nat × Byte)) : State :=
  let c := toCore m e.1.1
  let k := coreTo m e.1.2
  let s1 := modCore s c fun old => { k with
    holder := some id, halted := old.halted, resetting := old.resetting, guardV := old.guardV
    blk := blockOf x e.1.1, lastAct := s.now }
  let s2 := zeroCore s1 c
  { s2 with mem := e.2.foldl (fun mem y => memSet mem (imageLoc c y.1) y.2) s2.mem }

/-- A held launch resumes on its granted cores, all of them in this one step. The accesses that are sent again take the
translation that the tables give now (R387). -/
def resumeLaunch (s : State) (x : Ctx) (h : Held) (l : Launch) : State :=
  let m := h.launch.cores.zip l.cores
  let s1 := (h.cores.zip h.mem).foldl (loadCore x m l.id) s
  let s2 := { s1 with
    accs := s1.accs ++ h.accs.map (accTo m)
    engs := s1.engs ++ h.engs.map (engTo m)
    dies := s1.dies.map fun d => { d with
      rqs := d.rqs.map fun q =>
        if q.2.launch = l.id then (q.1, { q.2 with asks := q.2.asks.map fun a => (a.1, toCore m a.2.1, a.2.2) }) else q
      sides := d.sides.map fun y => if y.who.launch = l.id then { y with who := whoTo m y.who } else y } }
  let s3 := modLaunch s2 l.id fun l => { l with
    phase := .running, progress := s.now, roomWaits := l.roomWaits.map fun w => (toCore m w.1, w.2) }
  let s4 := mapAskers s3 fun a => match a with
    | .saved ctx i b n => if ctx = x.n then match l.cores[i]? with | some c => .task c b n | none => .nobody else a
    | _ => a
  let s5 := retranslateAll (modCtx s4 x.n fun x => { x with held := none, restore := none, restored := none })
    (·.who.launch == l.id)
  match x.restore with
  | some a => answer s5 a (BitVec.ofNat 64 l.cores.length)
  | none => s5

/-- RESTORE_RESUME (R398, R407): the held launch that has been granted cores again is loaded and resumes. -/
def execRestoreResume (ctx : Nat) (s : State) : Out :=
  .next (match ctxBy s ctx with
    | none => s
    | some x => match x.held, x.restored with
      | some h, some id => match launchBy s id with
        | some l => if l.phase = .loading then resumeLaunch s x h l else s
        | none => s
      | _, _ => s)

/-! ## Code pages (R400, R401) -/

/-- The loaded code object that a page lies in. -/
def objectAt (x : Ctx) (page : Nat) : Option CodeObj := x.objs.find? fun o => o.first ≤ page && page < o.first + 65536 * o.npage

/-- Where a page of a context lies. -/
def pageHome (s : State) (ctx page : Nat) : Option Nat :=
  match walk s ctx page with
  | .leaf t => some (t.pa + page % 2 ^ t.bits)
  | _ => none

/-- Why a task-code page cannot be checked: it does not translate, its leaf lacks EX (R385), or a word of it or of the tables has
bad check bits (R437). -/
def codeFault (s : State) (ctx page : Nat) : Option (FaultCode × DWord) :=
  if page ≥ 2 ^ 52 then some (.translation, 0)
  else if inWindow page then some (.protection, 0)
  else match walk s ctx page with
    | .bad e level => some (.translation, walkExtra e level)
    | .spoilt loc => some (.uncorrectable, physAddr s loc)
    | .leaf t =>
      if !grants .fetch t.rights then some (.protection, 0)
      else (firstBad s (t.pa + page % 2 ^ t.bits) 65536).map fun loc => (.uncorrectable, physAddr s loc)

/-- Whether a task-code page matches its entry of the manifest; `none` where it does not translate for a fetch. -/
def codeGood (s : State) (ctx : Nat) (o : CodeObj) (page : Nat) : Option Bool :=
  (ctxSpan s ctx .fetch 2 page 65536).map fun xs =>
    sha384 (xs.flatMap fun y => memGetN s.mem y.1 y.2) == (o.manifest.drop (64 + 48 * ((page - o.first) / 65536))).take 48

/-- A page has passed: it is marked checked in its context, where it lies. -/
def pagePassed (s : State) (ctx page : Nat) : State :=
  modCtx s ctx fun x => { x with checked := x.checked ++ (pageHome s ctx page).toList.map (page, ·), checks := x.checks.filter (·.1 != page) }

/-- The journal and the mark of a page's failure: its object is untrusted in the context. -/
def pageDistrusted (s : State) (ctx page : Nat) (o : CodeObj) : State :=
  deviceEvent (modCtx s ctx fun x => { x with
    objs := x.objs.map fun y => if y.va = o.va then { y with untrusted := true } else y
    checks := x.checks.filter (·.1 != page) }) 0x03 (BitVec.ofNat 64 o.va) ctx 0 0

/-- PAGE_CHECK_COMPLETE (R400, R401): the oldest check that a context awaits ends. The fetches that waited go on, or their
launches end with CODE_HASH, or with UNCORRECTABLE where the page holds bad check bits (R437). -/
def execPageCheckComplete (ctx : Nat) (s : State) : Out :=
  .next (match ctxBy s ctx with
    | none => s
    | some x => match x.checks with
      | [] => s
      | (page, _) :: _ =>
        let told (s : State) : State := (x.checks.filter (·.1 == page)).foldl (fun s y => heard s y.2.launch y.2.core) s
        let drop : State := told (modCtx s ctx fun x => { x with checks := x.checks.filter (·.1 != page) })
        match objectAt x page with
        | none => drop
        | some o => match codeFault s ctx page, codeGood s ctx o page with
          | some (.uncorrectable, loc), _ =>
            (x.checks.filter (·.1 == page)).foldl (fun s y => raiseRead .uncorrectable y.2 y.2.pc loc ctx s) drop
          | some _, _ | none, none => drop
          | none, some true => told (pagePassed s ctx page)
          | none, some false =>
            (x.checks.filter (·.1 == page)).foldl (fun s y => raise .codeHash y.2 (BitVec.ofNat 64 page) 0 s)
              (pageDistrusted s ctx page o))

end Sys2Proof.Machine
end

