-- ==== Sys2Proof/Machine/Blocked.lean ====
section
/-! DEFINITION. Units that are blocked (R86): the enlargement of a full queue, the deadlock of versioned writers (R137), and the
watchdog (R393). -/

namespace Sys2Proof.Machine
open Sys2Proof

/-! ## What a core waits for (R86) -/

/-- Whether some unit of a core waits for memory, a versioned word, a range or a barrier: what may wait for ever (R137). -/
def waitsHeld (s : State) (c : CoreId) : Bool :=
  let k := coreAt s c
  s.accs.any (fun a => a.who.core == c) || !k.arrivals.isEmpty ||
  k.conts.any fun x => match x.awaits with | .barrier _ _ | .answer => true | _ => false

/-- The chains that are alive on a core: of its task, its messages and its continuations. -/
def chainsOn (k : Core) : List Chain :=
  k.task.toList.filterMap (·.chain) ++ k.store.filterMap (·.chain) ++ k.conts.filterMap (·.chain) ++
    k.outq.filterMap (·.msg.chain)

/-- Whether an action of a core waits for the DONE of a chain that another core of its launch carries on (R63). -/
def awaitsDone (s : State) (c : CoreId) : Bool :=
  match holderOf s c with
  | none => false
  | some l => l.cores.any fun d => d != c && (chainsOn (coreAt s d)).any fun h =>
      h.core == c && !(coreAt s c).doneChains.contains h.n

/-- Whether a core waits for the range server: for its own RANGE, or with its gang for a range of its team's generators (R33). -/
def waitsRange (s : State) (c : CoreId) : Bool :=
  let gang := match holderOf s c with | some l => teamCores l c | none => [c]
  (List.finRange 4).any fun d => (dieAt s d).rqs.any fun q => q.2.asks.any fun a => a.2.1 == c || (a.2.2.isNone && gang.contains a.2.1)

/-- Whether some unit of a core waits for a walk, another core, the range server, a peer or another package, the Plinth or
the host. -/
def waitsElsewhere (s : State) (c : CoreId) : Bool :=
  let k := coreAt s c
  (List.finRange 4).any (fun d => (dieAt s d).walks.any fun w => w.who.core == c) ||
  k.outq.any (fun m => m.target != c) || awaitsDone s c ||
  waitsRange s c ||
  k.banks.toList.any (fun b => !b.sysq.isEmpty) ||
  s.sysWork.any (fun x => match x.1 with | .task d _ _ => d == c | _ => false) ||
  s.engs.any fun g => g.who.core == c && ((g.q == .chisel && g.stage != .complete) || isCopying g)

/-- Whether some unit of a core waits for something outside it. -/
def waitsOutside (s : State) (c : CoreId) : Bool := waitsHeld s c || waitsElsewhere s c

/-! ## Whether a unit can take a step -/

/-- Whether a move changes what the state holds of a core, its commands and its accesses. -/
def changes (s : State) (c : CoreId) (f : State → Out) : Bool :=
  match f s with
  | .next t => coreAt t c != coreAt s c || t.engs != s.engs || t.accs != s.accs || t.launches != s.launches
  | _ => true

/-- The meaning of a word that may have to wait at issue: for a token, for room, for a place of the core, for earlier
accesses or for its release. -/
def heldWord : Instr → Option (State → Out)
  | .merge f => some (execMerge f)
  | .sphdr f => some (execSphdr f)
  | .isect f => some (execIsect f)
  | .cturn f => some (execCturn f)
  | .bnd f => some (execBnd f)
  | .tpost f => some (execTpost f)
  | .msend f => some (execMsend f)
  | .wait f => some (execWait f)
  | .barw f => some (execBarw f)
  | .gbar f => some (execGbar f)
  | .seqwt f => some (execSeqwt f)
  | .range f => some (execRange f)
  | .ld f => some (execLd f)
  | .ldi f => some (execLdi f)
  | .ldv f => some (execLdv f)
  | .st f => some (execSt f)
  | .sti f => some (execSti f)
  | .stv f => some (execStv f)
  | .advv f => some (execAdvv f)
  | .reclv f => some (execReclv f)
  | .atom f => some (execAtom f)
  | .cas f => some (execCas f)
  | .append f => some (execAppend f)
  | .ticket f => some (execTicket f)
  | .gath f => some (execGath f)
  | .scat f => some (execScat f)
  | .shape f => some (execShape f)
  | .done f => some (execDone f)
  | .bara f => some (execBara f)
  | _ => none

/-- Whether a word names an operand that still waits for a load of the firing (R285). -/
def awaitsLoad (s : State) (i : Instr) : Bool :=
  match envOf s i with
  | some e => (operandsOf i).any (lPending s e)
  | none => false

/-- Whether a word is a system instruction. -/
def isSystemWord : Instr → Bool
  | .ctxsv _ | .ctxld _ | .freeze _ | .rmark _ | .tlbi _ | .cfgld _ | .jrnl _ | .sret _ | .sema _ | .haltc _ | .partset _
  | .attest _ | .pgver _ => true
  | _ => false

/-- Whether a word is a system instruction that waits for its bank's earlier accesses (R403). -/
def awaitsRelease (s : State) (i : Instr) : Bool :=
  isSystemWord i && match envOf s i with
    | some e => e.kind == .system && !released s e 5
    | none => false

/-- Whether an agent's next word takes a step. -/
def wordSteps (s : State) (c : CoreId) (f : Focus) (a : Agent) (w : Option DWord) : Bool :=
  match w with
  | none => false
  | some w =>
    let t := { s with focus := some f }
    !heldByEngine s c a && match decodeWord w with
      | some i => match heldWord i with
        | some g => changes t c g
        | none => !awaitsLoad t i && !awaitsRelease t i
      | none => true

/-- Whether the task unit takes a step: a running task whose next word does, one that faults, or a message that starts a task. A
fetch that waits has its walk, or its page's check, which is outside the core. -/
def taskSteps (s : State) (c : CoreId) : Bool :=
  changes s c (execTaskStart c) || match (coreAt s c).task, holderOf s c with
    | some t, some l => match fetchTask s c l t with
      | .word w => wordSteps s c (.task c) (.bank t.bank) (some w)
      | _ => true
    | _, _ => false

/-- Whether a node takes a step. -/
def nodeSteps (s : State) (c : CoreId) (n : Node) : Bool :=
  changes s c (execPeFire c n.pe) ||
    if isStreamNode n then n.words.any fun w => wordSteps s c (.node c n.pe) (.node n.pe) (some w)
    else match n.firing with
      | some f => wordSteps s c (.node c n.pe) (.node n.pe) n.words[f.idx]?
      | none => false

/-- Whether a router takes a step. -/
def routerSteps (s : State) (c : CoreId) (x : Router) : Bool :=
  (List.finRange 5).any fun p => (List.finRange 4).any fun v =>
    changes s c (execRouterHop c x.id p v) || changes s c (execControlHop c x.id p v)

/-- Whether a generator or its edge router's control port takes a step. -/
def agSteps (s : State) (c : CoreId) (a : AgId) : Bool :=
  changes s c (execAgEmit c a) || changes s c (execAgWalkEnd c a) || changes s c (execCtrlPost c a)

/-- Whether a memory tile takes a step. -/
def mtSteps (s : State) (c : CoreId) (m : MtId) : Bool :=
  (List.finRange 4).any (fun b => changes s c (execMtAccept c m b)) ||
    (List.finRange 5).any fun p => changes s c (execMtResponse c m p)

/-- Whether a parser, its tap, its gate or its action takes a step. -/
def parserSteps (s : State) (c : CoreId) (p : ParserId) : Bool :=
  changes s c (execTapItem c p) || changes s c (execParseStep c p) || changes s c (execRecoveryDiscard c p) ||
    changes s c (execActionFire c p) || changes s c (execGateRelease c p) ||
    (actionReady s c p && wordSteps s c (.action c p) (.parser p) (actionWord s c p))

/-- Whether an engine takes a step for a command. -/
def engineSteps (s : State) (c : CoreId) (g : Eng) : Bool :=
  g.who.core == c && (changes s c (execEngineCommandAccept c g.id) || changes s c (execEngineCommandStart c g.id) ||
    changes s c (execEngineCommandComplete c g.id) || changes s c (execFollowOnMmaIssue c g.id))

/-- Whether some unit of a core can take a step. -/
def unitSteps (s : State) (c : CoreId) : Bool :=
  let k := coreAt s c
  taskSteps s c || changes s c (execMessageAccept c) || k.conts.any (fun x => changes s c (execContinuationPost c x.n)) ||
  k.nodes.any (nodeSteps s c) || k.routers.any (routerSteps s c) || (List.finRange 16).any (agSteps s c) ||
  (List.finRange 32).any (mtSteps s c) || (List.finRange 4).any (parserSteps s c) || s.engs.any (engineSteps s c) ||
  (List.finRange 4).any (fun h => changes s c (execVectorAccept c h) || changes s c (execVectorResult c h)) ||
  k.rings.zipIdx.any fun r => r.1.slots.any (·.isSome) && changes s c (execRingStep c r.2)

/-- Whether every unit of a core has been blocked for a number of cycles (R86): none has moved in them, none waits for something
outside the core, and none can move now. What comes from outside counts as a move, so that no cycle of a wait for it is among
them. -/
def blockedFor (s : State) (c : CoreId) (n : Nat) : Bool :=
  decide ((coreAt s c).lastAct + n ≤ s.now) && !waitsOutside s c && !unitSteps s c

/-! ## A full queue enlarged (R86) -/

/-- QUEUE_ENLARGE (R86): after 64 cycles in which every unit of the core has been blocked, the smallest full queue gains 16
slots from the pool, or QUEUE_POOL ends the launch. -/
def execQueueEnlarge (c : CoreId) (s : State) : Out :=
  .next (
    let k := coreAt s c
    if !coreSteps s c || !blockedFor s c 64 then s
    else match smallestFull k with
      | none => s
      | some q =>
        if k.pool < 16 then raise .queuePool (unitWho s c 0x0E 0) 0 (BitVec.ofNat 64 k.pool) s
        else modCore s c fun k => { k with pool := k.pool - 16, extra := k.extra ++ [(q, 16)], lastAct := s.now })

/-! ## Versioned writers that wait for ever (R137) -/

/-- Whether a core has stood still for 4,096 cycles, but for what waits on a horizon, a full word or a barrier. -/
def onlyHeld (s : State) (c : CoreId) : Bool :=
  decide ((coreAt s c).lastAct + 4096 ≤ s.now) && !waitsElsewhere s c && !unitSteps s c

/-- Whether nothing of a launch but waits is outstanding: no command, no response of memory, no range (R137). -/
def onlyWaits (s : State) (l : Launch) : Bool :=
  s.accs.all (fun a => a.who.launch != l.id || accSaved s a) &&
  s.engs.all (fun g => g.who.launch != l.id || g.stage == .complete) &&
  s.dies.toList.all (fun d => d.walks.all (·.who.launch != l.id)) &&
  s.dies.toList.all (fun d => d.rqs.all fun q => !(q.2.launch == l.id && !q.2.asks.isEmpty)) && l.cores.all (onlyHeld s)

/-- Whether the launch of an access has stood still for 4,096 cycles. -/
def standsStill (s : State) (a : Access) : Bool :=
  match launchBy s a.who.launch with
  | some l => maySteps s l && onlyWaits s l && decide (l.progress + 4096 ≤ s.now)
  | none => false

/-- STV_DEADLOCK (R137): of the STVs that wait at the bank and whose launches have stood still for 4,096 cycles, the oldest
raises VERSION. -/
def execStvDeadlock (b : Bank) (s : State) : Out :=
  .next (match earliest (s.accs.filter fun a => a.waiting && a.kind == .stv && bankOf a.loc == b && standsStill s a) with
    | none => s
    | some a =>
      let h := field (recDword s.mem a.loc 0) 63 40
      homeFault .version (bankWho a) a (BitVec.ofNat 64 (h * 2 ^ 24 + a.a.toNat % 2 ^ 24)) s)

/-! ## The watchdog (R393) -/

/-- Whether every unit of a core has been blocked for the period and the core is not quiet (log entry 25). -/
def coreStuck (s : State) (l : Launch) (c : CoreId) : Bool := blockedFor s c (watchPeriod s) && !quiet s l c

/-- WATCHDOG (R393): no progress of the launch, or a core blocked, for the period. -/
def execWatchdog (launch : Nat) (s : State) : Out :=
  .next (match launchBy s launch with
    | none => s
    | some l =>
      let ends (c : CoreId) : State :=
        raise .watchdog ⟨l.id, c, 0x0D, 0, 0, 0, 0⟩ 0 (BitVec.ofNat 64 (watchPeriod s)) s
      if l.phase ≠ .running ∧ endsNow s l = false then s
      else if l.progress + watchPeriod s ≤ s.now then ends ((l.cores.head?).getD 0)
      else match l.cores.find? (coreStuck s l) with
        | some c => ends c
        | none => s)

end Sys2Proof.Machine
end

