-- ==== Sys2Proof/Machine/Plinth.lean ====
section
/-! DEFINITION. What system instructions and host commands ask of the master Plinth alike (R406 to R417): stopping and
restoring launches, the saved area as bytes, TLBI, device configuration, CPSEM, core service, guards, page checks and
attestation reports. -/

namespace Sys2Proof.Machine
open Sys2Proof

/-! ## Stopping a launch (R406) -/

/-- What a FREEZE or an RMARK comes to. -/
inductive StopEnd where
  | nothing            -- no launch runs: 0
  | stopping (s : State)
  | wait               -- the launch is being loaded
  | bad
  deriving DecidableEq, Repr

/-- Whether another launch of a context is stopping, so that its area will hold it. -/
def otherStops (s : State) (ctx id : Nat) : Bool :=
  s.launches.any fun l => l.ctx == ctx && l.id != id && match l.phase with
    | .freezing | .draining _ _ => true
    | _ => false

/-- FREEZE (`k` none) or RMARK at level k on the launch of a queue, asked for by `a`; `own` is the issuing launch. -/
def stopOp (s : State) (x : Ctx) (q : Fin 16) (k : Option Nat) (own : Option Nat) (a : Asker) : StopEnd :=
  match s.launches.find? fun l => l.ctx == x.n && l.q == q && isLive l.phase with
  | none => if x.held.isSome then .bad else .nothing
  | some l =>
    let levelBad := match k with
      | some k => k = 0 || levels l.recd < k
      | none => false
    if levelBad || own == some l.id then .bad
    else if l.phase = .loading then .wait
    else if x.held.isSome || otherStops s x.n l.id then .bad
    else .stopping (modLaunch s l.id fun l => { l with
      stoppers := l.stoppers ++ [(a, k.isSome || l.phase == .freezing)]
      phase := match l.phase, k with
        | .running, some k => .draining k s.now
        | .running, none => .freezing
        | .draining _ _, none => .freezing
        | p, _ => p })

/-! ## The saved area (R394) -/

/-- A register block's 256 bytes. -/
def blockBytes (b : RegBlock) : List Byte :=
  let seqs := (List.finRange 4).map fun i => (at' b.seqIss i).toNat * 2 ^ 32 + (at' b.seqCmp i).toNat
  let ds := [b.flags.toNat, b.policy.toNat, b.amax.toNat, b.en.toNat] ++ b.ctr.toList.map (·.toNat) ++
    [b.idxdrop.toNat, b.skstat.toNat] ++ seqs
  ds.flatMap (bytesLE 8) ++ List.replicate (256 - 8 * ds.length) 0

/-- A register block of its dwords. Reserved bits read as zero (R6); an AMAX is kept as an MTS would leave it (log entry 85). -/
def blockFrom (ds : List DWord) : RegBlock where
  flags := (dw ds 0).setWidth 6
  policy := (dw ds 1).setWidth 3
  amax := amaxStored (dw ds 2)
  en := (dw ds 3).setWidth 8
  ctr := Vector.ofFn fun i => dw ds (4 + i.val)
  idxdrop := dw ds 12
  skstat := dw ds 13 &&& 0xFFF80000FFFFFFFF#64
  seqIss := Vector.ofFn fun i => BitVec.ofNat 32 (field (dw ds (14 + i.val)) 63 32)
  seqCmp := Vector.ofFn fun i => BitVec.ofNat 32 (field (dw ds (14 + i.val)) 31 0)

/-- The header of the area, as far as it is not zero. -/
def headerDwords (x : Ctx) (h : Held) : List DWord :=
  [BitVec.ofNat 64 x.fhead, x.skcells.setWidth 64, x.skgrow.setWidth 64, x.skrnd.setWidth 64,
    BitVec.ofNat 64 (2 ^ 63 + h.launch.q.val * 2 ^ 48 + h.launch.seq % 2 ^ 48), BitVec.ofNat 64 h.cores.length]

/-- Zero bytes after a list, up to a length. -/
def padTo (n : Nat) (bs : List Byte) : List Byte := bs.take n ++ List.replicate (n - bs.length) 0

/-- The length of a core image. -/
def imageLen : Nat := 2 ^ 24
/-- Where a core image's private part begins: accumulator rows and readout stream. -/
def privateOff : Nat := 0xE41000
/-- Where its readout stream begins. -/
def streamOff : Nat := 0xF00000

/-- The private part of a core image: the rows, then the stream, which ends in the CRC-32C of what precedes it (R394; log entry
8). -/
def privateBytes (k : CoreImage) : List Byte :=
  let rows := (List.range (streamOff - privateOff)).map (Config.readout k)
  let stream := (List.range (imageLen - streamOff - 4)).map fun i => Config.readout k (streamOff - privateOff + i)
  rows ++ stream ++ bytesLE 4 (crc32c stream).toNat

/-- Whether a readout stream's CRC-32C is right. -/
def streamOk (bs : List Byte) : Bool := (crc32c (bs.take (bs.length - 4))).toNat == natLE (bs.drop (bs.length - 4))

/-- A core image (R394). -/
def imageBytes (k : CoreImage) (mem : List (Nat × Byte)) : List Byte :=
  (List.range 0xE40000).map (fun off => ((mem.find? (·.1 == off)).map (·.2)).getD 0) ++
  padTo 4096 (k.core.tiles.toList.map fun f => (fmtCode f).setWidth 8) ++
  privateBytes k

/-- The cores of a held launch with their memory, in ascending order (R394). -/
def heldCores (h : Held) : List ((CoreId × CoreImage) × List (Nat × Byte)) :=
  (List.finRange 256).flatMap fun c => ((h.cores.zip h.mem).filter fun e => e.1.1 == c).map fun e =>
    ((c, ⟨c, e.1.2, h.accs.filter (·.who.core == c), h.engs.filter (·.who.core == c)⟩), e.2)

/-- The device knows the readout streams that it has written: a core comes back as it was saved, with the accesses and commands
of its agents (R399; log entry 8). -/
def keepStreams (s : State) (h : Held) : State :=
  { s with streams := (heldCores h).map (fun e => (privateBytes e.1.2, e.1.2)) ++ s.streams }

/-- The area of a context that holds a launch, to the end of its last core image. -/
def areaBytes (x : Ctx) (h : Held) : List Byte :=
  padTo 4096 ((headerDwords x h).flatMap fun d => bytesLE 8 d.toNat) ++
  (List.range 64).flatMap (fun i => padTo 64 ((((x.ring.find? (·.1 == i)).map (·.2)).getD []).flatMap fun d => bytesLE 8 d.toNat)) ++
  (List.finRange 256).flatMap (fun c => blockBytes (blockOf x c)) ++
  List.replicate (56 * 1024) 0 ++
  (heldCores h).flatMap fun e => imageBytes e.1.2 e.2

/-- The length of an area with n core images. -/
def areaLen (n : Nat) : Nat := 0x20000 + n * imageLen

/-- Whether the header of a copied area is of the held launch: the header names no context, so its queue, its sequence
number and its count of images are compared (R407). -/
def headerFits (h : Held) (bs : List Byte) : Bool :=
  let ds := dwordsOf (bs.take 48)
  dw ds 4 == BitVec.ofNat 64 (2 ^ 63 + h.launch.q.val * 2 ^ 48 + h.launch.seq % 2 ^ 48) &&
    dw ds 5 == BitVec.ofNat 64 h.cores.length

/-- A core whose channel table and message status read zero in their reserved bits, as every one that an MTS or a message leaves
(R6, R304, R324). -/
def plainRegs (k : Core) : Core :=
  { k with
    chtab := k.chtab.map fun h => ⟨h.val &&& chanMask, h.next.map fun n => (n.1 &&& chanMask, n.2)⟩
    task := k.task.map fun t => { t with mstat := t.mstat &&& mstatMask } }

/-- A core of a copied image; `none` where its stream or a tag is bad (R407). A stream that the device has written stands for the
core that it was written of (R399). -/
def coreFromImage (s : State) (bs : List Byte) : Option (CoreImage × List (Nat × Byte)) :=
  let tags := (List.finRange 16).map fun t => fmtOf (((bs[0xE40000 + t.val]?).getD 0).setWidth 4)
  let own := bs.drop privateOff
  if tags.any (·.isNone) || !streamOk (bs.drop streamOff) then none
  else (((s.streams.find? (·.1 == own)).map (·.2)).or (Config.readin own)).map fun k =>
    ({ k with core := { plainRegs k.core with tiles := Vector.ofFn fun t => ((tags[t.val]?).join).getD .raw } },
      ((List.range 0xE40000).zip bs).filter (·.2 != 0))

/-- The core images of an area. -/
def imagesOf (n : Nat) (bs : List Byte) : List (List Byte) :=
  (List.range n).map fun i => (bs.drop (areaLen i)).take imageLen

/-- A context whose area has taken a copied one's fault ring, sizing registers and register blocks; the sizing registers' low
bits are taken as they are (log entry 98). -/
def areaCopied (x : Ctx) (bs : List Byte) : Ctx :=
  let ds := dwordsOf (bs.take 48)
  { x with
    fhead := (dw ds 0).toNat
    skcells := (dw ds 1).setWidth 4
    skgrow := (dw ds 2).setWidth 2
    skrnd := (dw ds 3).setWidth 3
    ring := (List.range 64).map fun i => (i, dwordsOf ((bs.drop (4096 + 64 * i)).take 64))
    blocks := (List.finRange 256).map fun c => (c, blockFrom (dwordsOf ((bs.drop (0x2000 + 256 * c.val)).take 256))) }

/-- A held launch as copied images give it: each core's state, memory, accesses and commands. They lie in ascending order of
their cores, and what they name of the cores they were saved from names the cores in their place. -/
def heldFromArea (h : Held) (ks : List (CoreImage × List (Nat × Byte))) : Held :=
  let xs := ((heldCores h).map (·.1.1)).zip ks
  let m : CoreMap := xs.map fun e => (e.2.1.home, e.1)
  let image (c : CoreId) : Option (CoreImage × List (Nat × Byte)) := (xs.find? (·.1 == c)).map (·.2)
  let home (w : Who) (c : CoreId) : Who := { w with launch := h.launch.id, core := c }
  { h with
    cores := h.cores.map fun e => match image e.1 with
      | some y => (e.1, { coreTo m y.1.core with guardV := e.2.guardV })
      | none => e
    mem := (h.cores.zip h.mem).map fun e => ((image e.1.1).map (·.2)).getD e.2
    accs := xs.flatMap fun e => e.2.1.accs.map fun a => { accTo m a with who := home a.who e.1 }
    engs := xs.flatMap fun e => e.2.1.engs.map fun g => { engTo m g with who := home g.who e.1 } }

/-! ## Ending and restoring a held launch (R406, R407) -/

/-- The sides of a held launch leave their engines, and its session closes (R185, R199); its SKSTATs are in its context's
blocks. -/
def endSides (s : State) (x : Ctx) (h : Held) : State :=
  let mine (y : Side) : Bool := y.who.launch == h.launch.id
  let cores := (s.dies.toList.flatMap fun d => d.sides.filter mine).map (·.who.core)
  dropSides (modCtx s x.n fun y => { y with blocks := y.blocks.map fun b =>
    (if cores.contains b.1 then (b.1, { b.2 with skstat := skEnd 0 3 b.2.skstat }) else b) }) fun _ y => mine y

/-- A held launch is discarded with a status: its images, its range queue, its sides and its session go, and whoever waited for
its restore reads 0. -/
def endHeld (s : State) (x : Ctx) (h : Held) (st : Status) (f : Option FaultRec) : State :=
  let s0 := endSides s x h
  let s1 := { s0 with
    dies := s0.dies.map fun d => { d with rqs := d.rqs.filter (·.2.launch != h.launch.id) }
    launches := s0.launches.filter (·.id != h.launch.id)
    cores := s0.cores.map fun k => if k.holder = some h.launch.id then { Core.zero with guardV := k.guardV, lastPc := k.lastPc } else k
    cpsem := if s0.cpsem = .sys x.n then .free else s0.cpsem }
  let s2 := dropHeld s1 x
  let s3 := match f with
    | some f => recordFault s2 x.n (faultRecord h.launch f)
    | none => s2
  giveStatus s3 x.n h.launch.q h.launch.seq st h.launch.grant

/-- The record of a held launch whose saved images are bad (R407): no element has run, so it names none but the launch's
first core. -/
def badImage (s : State) (h : Held) : FaultRec :=
  ⟨.uncorrectable, ⟨h.launch.id, (h.launch.cores.head?).getD 0, 1, 0, 0, 0, 0⟩, 0, 0, 0, s.now⟩

/-- Whether the held launch of a context may be asked for: it is held, and nobody has asked. -/
def mayRestore (x : Ctx) : Bool := x.held.isSome && x.restore.isNone && x.restored.isNone

/-- A restore is asked for: the held launch becomes a candidate (R372). -/
def askRestore (s : State) (ctx : Nat) (a : Asker) : State := modCtx s ctx fun x => { x with restore := some a }

/-- A restore from a copied area: it is copied first, and a bad image ends the held launch. -/
def restoreFrom (s : State) (x : Ctx) (h : Held) (bs : List Byte) (a : Asker) : State :=
  let s1 := modCtx s x.n (areaCopied · bs)
  match (imagesOf h.cores.length bs).mapM (coreFromImage s) with
  | none => answer (endHeld s1 (areaCopied x bs) h .faulted (some (badImage s h))) a 0
  | some ks => askRestore (modCtx s1 x.n fun x => { x with held := some (heldFromArea h ks) }) x.n a

/-! ## TLBI (R387, R409) -/

/-- Every TLB of the package without the entries that a test names. -/
def dropTlb (s : State) (p : TlbEntry → Bool) : State :=
  { s with
    dies := s.dies.map fun d => { d with tlb := d.tlb.filter fun t => !p t }
    cores := s.cores.map fun k => { k with ags := k.ags.map fun g => { g with tlb := g.tlb.filter fun t => !p t } } }

/-- TLBI: mode 0 the page that holds an address, 1 a context, 2 everything. From its completion on every access uses the new
translation, those on their way too (R387). -/
def tlbiOp (s : State) (mode ctx va : Nat) : State :=
  if mode = 0 then retranslateAll (dropTlb s (tlbCovers · ctx va)) (·.ctx == ctx)
  else if mode = 1 then retranslateAll (dropTlb s (·.ctx == ctx)) (·.ctx == ctx)
  else retranslateAll (dropTlb s fun _ => true) fun _ => true

/-! ## Configuration, CPSEM, service, guards (R410, R413 to R415) -/

/-- SEMA by a holder: 0 acquire, 1 release, 2 query; `none` where the operation is no such or releases what is not
held. -/
def semaOp (s : State) (h : Holder) (op : Nat) : Option (DWord × State) :=
  match op with
  | 0 =>
    if s.cpsem = .free then some (1, { s with cpsem := h, cpsemAt := s.now })
    else some (if s.cpsem = h then 1 else 0, s)
  | 1 => if s.cpsem = h then some (0, { s with cpsem := .free }) else none
  | 2 => some (holderCode s.cpsem, s)
  | _ => none

/-- HALTC: a free core leaves service or returns to it at once, one that returns being reset first (R441); a held core is
halted once its launch releases it. -/
def haltOp (s : State) (c : CoreId) (op : Nat) (a : Asker) : State :=
  let k := coreAt s c
  let old : DWord := if k.halted then 1 else 0
  if op = 0 then
    if k.holder.isSome then { s with sysWork := s.sysWork ++ [(a, .halt c)] }
    else answer (modCore s c fun k => { k with halted := true }) a old
  else answer (if k.halted then modCore s c fun k => { k with halted := false, resetting := true } else s) a old

/-- PARTSET: the guards of a core that no launch holds; else it waits. -/
def guardOp (s : State) (c : CoreId) (v : Byte) (a : Asker) : State :=
  let k := coreAt s c
  if k.holder.isSome then { s with sysWork := s.sysWork ++ [(a, .setGuard c v)] }
  else answer (modCore s c fun k => { k with guardV := v }) a (k.guardV.setWidth 64)

/-! ## Trust (R401, R416, R417) -/

/-- PGVER's check of a page of a loaded object: 0 when it passes, 1 when it fails, with the effects of R401 on the context;
`none` while it does not translate. -/
def pageOp (s : State) (x : Ctx) (o : CodeObj) (page : Nat) : Option (DWord × State) :=
  if (pageHome s x.n page).any fun b => x.checked.contains (page, b) then some (0, s)
  else match codeFault s x.n page, codeGood s x.n o page with
    | some _, _ | none, none => none
    | none, some true => some (0, pagePassed s x.n page)
    | none, some false =>
      let who (l : Launch) : Option Who :=
        match x.checks.find? fun y => y.1 == page && y.2.launch == l.id with
        | some y => some y.2
        | none => if recImage l.recd 2 = o.va then some ⟨l.id, (l.cores.head?).getD 0, 1, 0, 0, 0, 0⟩ else none
      some (1, ((s.launches.filter (·.ctx == x.n)).filterMap who).foldl
        (fun s w => raise .codeHash w (BitVec.ofNat 64 page) 0 s) (pageDistrusted s x.n page o))

/-- A report of R416. -/
def reportBytes (s : State) (nonce manifestHash : List Byte) (x : Ctx) (die : DieId) : List Byte :=
  let body := padTo 64 nonce ++ padTo 48 s.fwDigest ++ padTo 48 manifestHash ++
    bytesLE 8 (x.n % 65536 + x.part.val * 65536 + die.val * 2 ^ 20) ++ bytesLE 8 s.bootCount.toNat ++ List.replicate 16 0
  body ++ padTo 96 (Config.sign (sha384 body))

end Sys2Proof.Machine
end

