-- ==== Sys2Proof/Machine/Ports.lean ====
section
/-! DEFINITION. The host attachment (R419 to R424, R429): RMA, unsupported packets, the acceptance of a command, and what
executing an accepted command shares. -/

namespace Sys2Proof.Machine
open Sys2Proof

/-! ## RMA (R419, R420) -/

/-- Whether the command ports are open, and a port is up for their packets (R440). -/
def portsOpen (s : State) : Bool := s.bootStep == 9 && s.portsUp.toList.any id

/-- The context that a job is mapped to. -/
def jobCtx (s : State) (job : BitVec 12) : Option Nat := (s.jobs.find? (·.1 == job.toNat)).map (·.2)

/-- A response leaves the package. -/
def respond (s : State) (r : Reply) : State := { s with replies := s.replies ++ [r] }

/-- Whether an access from outside may be served: in a slot of its context's partition (R434; log entry 73), and where no bank
owes a turn to a woken request (R135). -/
def spanOpen (s : State) (ctx : Nat) (xs : List (Nat × Nat)) : Bool :=
  diesOpen s ctx (xs.filterMap fun x => pathDie none x.1) && !xs.any fun x => rangeOwes s x.1 x.2

/-- RMA_WRITE (R420): checked under the context's tables, performed at its home, then acknowledged. -/
def execRmaWrite (job : BitVec 12) (va : DWord) (data : List Byte) (s : State) : Out :=
  .next (
    if !portsOpen s then s
    else if data.length > 4096 then respond s .unsupported
    else match jobCtx s job with
      | none => respond s .error
      | some n => match ctxSpan s n .write 3 va.toNat data.length with
        | none => respond s .error
        | some xs =>
          if !spanOpen s n xs || outsideHeld s xs then s else respond (writeSpan s xs data) .rmaAck)

/-- RMA_READ (R420). A word with bad check bits gives an error response (log entry 36). -/
def execRmaRead (job : BitVec 12) (va : DWord) (n : Nat) (s : State) : Out :=
  .next (
    if !portsOpen s then s
    else if n > 4096 then respond s .unsupported
    else match jobCtx s job with
      | none => respond s .error
      | some ctx => match ctxSpan s ctx .read 3 va.toNat n with
        | none => respond s .error
        | some xs =>
          if !spanOpen s ctx xs then s
          else if xs.any fun x => badRange s x.1 x.2 then respond s .error
          else respond s (.rmaData (xs.flatMap fun x => memGetN s.mem x.1 x.2)))

/-- UNSUPPORTED_PACKET (R419, R422). -/
def execUnsupportedPacket (s : State) : Out := .next (if portsOpen s then respond s .unsupported else s)

/-! ## Accepting a command (R422 to R424, R428) -/

/-- SRCK of a port. -/
def portSrck : Port → Nat
  | .A => 0
  | .B => 1

/-- A command block taken apart. -/
def blockCmd (port : Port) (h d0 d1 d2 d3 d4 : DWord) (seq : Nat) : Cmd where
  port := port
  rid := h.setWidth 32
  ctx := BitVec.ofNat 10 (field h 41 32)
  q := BitVec.ofNat 4 (field h 45 42)
  d0 := d0
  d1 := d1
  d2 := d2
  d3 := d3
  d4 := d4
  seq := seq

/-- The entry of a command with the same port and RID that the Frieze still holds (R424). -/
def sameCommand (s : State) (port : Port) (rid : Word) : Option FzEntry :=
  if rid = 0 then none
  else s.frieze.find? fun z => z.srck == portSrck port && z.rid == rid

/-- The commands of a port that wait to be executed. -/
def portQueue (s : State) (port : Port) : Nat := (s.cmds.filter (·.2.port == port)).length

/-- A command from the port that holds CPSEM renews its lease (R428). -/
def renewLease (s : State) (port : Port) : State := if s.cpsem = .port port then { s with cpsemAt := s.now } else s

/-- The response to a command sent again: at once where its entry is no longer accepted, else with it. -/
def repeatCommand (s : State) (port : Port) (rid : Word) (z : FzEntry) : State :=
  if z.state ≠ .accepted then respond s (.command port rid z.seq z.result [])
  else { s with repeats := s.repeats ++ [(port, rid, z.seq)] }

/-- Whether a port took a command in this cycle. -/
def tookNow (s : State) (port : Port) : Bool := at' s.tookAt (portIndexOf port) == some s.now
where
  /-- A port's number. -/
  portIndexOf : Port → Fin 2
    | .A => 0
    | .B => 1

/-- Whether a port may take a command: its queue of 64 has room, it has taken none in this cycle, and nothing that comes after
it has reached the Plinth in it (R423, R403). -/
def mayTake (s : State) (port : Port) : Bool :=
  portsOpen s && decide (portQueue s port < 64) && !tookNow s port && mayReach s (tookNow.portIndexOf port).val

/-- COMMAND_ACCEPT (R423): a command takes the next sequence number and its Frieze entry; one sent again is not executed
again. One of no known code fails with BADARG in its turn. -/
def execCommandAccept (port : Port) (header d0 d1 d2 d3 d4 : DWord) (s : State) : Out :=
  .next (
    if !mayTake s port then s
    else
      let k := blockCmd port header d0 d1 d2 d3 d4 s.fzseq
      let code := field header 63 56
      let n := tookNow.portIndexOf port
      let s1 := renewLease (reached { s with tookAt := put s.tookAt n (some s.now) } n.val) port
      match sameCommand s port k.rid with
      | some z => repeatCommand s1 port k.rid z
      | none =>
        let s2 := journal s1 code .accepted (portSrck port) k.ctx.toNat k.q.toNat k.rid 0 [d0, d1, d2, d3, d4]
        { s2 with cmds := s2.cmds ++ [(code, k)] })

/-! ## Executing a command (R423, R425, R426) -/

/-- What a command comes to: its end with a value and a block, a failure, an answer that comes later, or a wait in which it
stays the next command. -/
inductive CmdOut where
  | done (s : State) (v : Nat) (block : List Byte)
  | fail (e : CmdEnd)
  | later (s : State)
  | wait (s : State)
  deriving DecidableEq, Repr

/-- An accepted command executed in its turn: only the next one of the sequence, and one marked CPSEM only while its port
holds CPSEM. -/
def cmdRun (code : Nat) (sem : Bool) (k : Cmd) (s : State) (body : State → CmdOut) : Out :=
  .next (match s.cmds with
    | [] => s
    | x :: rest =>
      if x ≠ (code, k) then s
      else
        let s1 := { s with cmds := rest }
        if sem && s.cpsem ≠ .port k.port then finishCmd s1 k.seq .nosem 0 []
        else match body s1 with
          | .done s2 v block => finishCmd s2 k.seq .done v block
          | .fail e => finishCmd s1 k.seq e 0 []
          | .later s2 => s2
          | .wait s2 => { s2 with cmds := x :: s2.cmds })

/-- A command of an existing context. -/
def cmdCtx (code : Nat) (sem : Bool) (k : Cmd) (s : State) (body : State → Ctx → CmdOut) : Out :=
  cmdRun code sem k s fun s => match ctxBy s k.ctx.toNat with
    | some x => body s x
    | none => .fail .badarg

/-- The queue that a command names. -/
def cmdQ (k : Cmd) : Fin 16 := Fin.ofNat 16 k.q.toNat

/-- A Frieze entry's 64 bytes (R429). -/
def entryBytes (z : FzEntry) : List Byte :=
  let st := match z.state with | .accepted => 0 | .done => 1 | .failed => 2 | .corrupt => 3
  bytesLE 8 z.seq ++
  bytesLE 8 (z.code * 2 ^ 56 + st * 2 ^ 54 + z.srck * 2 ^ 48 + z.ctx % 1024 * 2 ^ 38 + z.q % 16 * 2 ^ 34 + z.rid.toNat) ++
  bytesLE 8 z.result.toNat ++ (List.range 5).flatMap fun i => bytesLE 8 (dw z.payload i).toNat

/-! ## Pages (R427) -/

/-- A number up to the next multiple. -/
def alignUp (n a : Nat) : Nat := (n + a - 1) / a * a

/-- The first free place for `len` bytes from `base` upward, below `hi`. -/
def findFree (s : State) (align len hi : Nat) : Nat → Nat → Option Nat
  | 0, _ => none
  | fuel + 1, base =>
    if base + len > hi then none
    else match s.pages.find? fun p => p.base < base + len && base < p.base + p.len with
      | none => some base
      | some p => findFree s align len hi fuel (alignUp (p.base + p.len) align)

/-- A free place in a range of physical memory, a free choice among all (log entry 2); `n` numbers the choice. -/
def pickPlace (s : State) (n lo hi align len : Nat) : Option Nat :=
  let start := lo + Config.choice s.ticks n % ((hi - lo) / align + 1) * align
  (findFree s align len hi (s.pages.length + 1) start).or (findFree s align len hi (s.pages.length + 1) lo)

/-- The physical memory of a kind on a die. -/
def dieRange (die : DieId) (csm : Bool) : Nat × Nat :=
  if csm then (0x4000000000 + die.val * 0x10000000, 0x4000000000 + (die.val + 1) * 0x10000000)
  else (die.val * 0x1000000000, (die.val + 1) * 0x1000000000)

/-- Memory taken for an owner, zeroed. -/
def takePlace (s : State) (n lo hi align len : Nat) (p : Nat → PageRec) : Option (Nat × State) :=
  (pickPlace s n lo hi align len).map fun base => (base, { s with
    pages := s.pages ++ [p base]
    mem := memZero s.mem base (base + len)
    bad := s.bad.filter fun w => w < base || base + len ≤ w })

/-- A zeroed table page for a context. -/
def newTable (s : State) (n ctx : Nat) : Option (Nat × State) :=
  takePlace s n 0 0x4000000000 4096 4096 fun base => ⟨some ctx, true, base, 4096, false, false⟩

/-- A table entry written by the Plinth. -/
def putEntry (s : State) (page i : Nat) (e : DWord) : State := rawStore s (page + 8 * i) (bytesLE 8 e.toNat)

/-- The index of an address at a level (R382). -/
def levelIndex (va level : Nat) : Nat := va / 2 ^ (16 + 9 * level) % 512

/-- The table page that a walk of an address reaches at a level, without making any. -/
def tableAtLevel (m : Memory) (va level : Nat) : Nat → Nat → Option Nat
  | 0, page => if level = 0 then some page else none
  | l + 1, page =>
    if level = l + 1 then some page
    else
      let e := tableEntry m page (levelIndex va (l + 1))
      if bitOf e 0 && !bitOf e 53 then tableAtLevel m va level l (field e 39 12 * 4096) else none

/-- The table page that an entry points to, made where the entry is not valid; `none` where there is no memory for one or a
leaf stands in the way. -/
def nextTable (n ctx page i : Nat) (s : State) : Option (Nat × State) :=
  let e := tableEntry s.mem page i
  if bitOf e 0 then if bitOf e 53 then none else some (field e 39 12 * 4096, s)
  else (newTable s n ctx).map fun r => (r.1, putEntry r.2 page i (BitVec.ofNat 64 (r.1 + 1)))

/-- The table page that a walk of an address reaches at a level, making those that are missing. -/
def makeTables (n ctx va level : Nat) : Nat → Nat → State → Option (Nat × State)
  | 0, page, s => if level = 0 then some (page, s) else none
  | l + 1, page, s =>
    if level = l + 1 then some (page, s)
    else (nextTable (n + l) ctx page (levelIndex va (l + 1)) s).bind fun r => makeTables n ctx va level l r.1 r.2

end Sys2Proof.Machine
end

