-- ==== Sys2Proof/Machine/Commands.lean ====
section
/-! DEFINITION. The commands of the command ports (R425). -/

namespace Sys2Proof.Machine
open Sys2Proof

/-! ## Device (R413, R416, R425, R436) -/

/-- NOP. -/
def execCmdNop (k : Cmd) (s : State) : Out := cmdRun 0x01 false k s fun s => .done s 0 []

/-- SEMA: as R413, with the port as holder. -/
def execCmdSema (k : Cmd) (s : State) : Out :=
  cmdRun 0x02 false k s fun s => match semaOp s (.port k.port) k.d0.toNat with
    | some (v, s1) => .done s1 v.toNat []
    | none => .fail .badarg

/-- The identity certificate (R436). -/
def certificateBytes : List Byte := (List.range 256).map fun i => if 105 ≤ i ∧ i < 160 then 0 else Config.certificate i

/-- DEVID. -/
def execCmdDevid (k : Cmd) (s : State) : Out := cmdRun 0x03 false k s fun s => .done s 0 certificateBytes

/-- ATTEST: the report of R416 for CTX, made by the master Plinth's die. -/
def execCmdAttest (k : Cmd) (s : State) : Out :=
  cmdCtx 0x04 false k s fun s x =>
    .done s 0 (reportBytes s ([k.d0, k.d1, k.d2, k.d3].flatMap fun d => bytesLE 8 d.toNat) [] x 0)

/-- JREAD: the entries of a range of sequence numbers that the Frieze holds. -/
def execCmdJread (k : Cmd) (s : State) : Out :=
  cmdRun 0x05 false k s fun s =>
    let n := k.d1.toNat
    if n = 0 ∨ n > 64 then .fail .badarg
    else .done s s.fzseq
      ((s.frieze.filter fun z => k.d0.toNat ≤ z.seq && z.seq < k.d0.toNat + n).flatMap entryBytes)

/-- A die's counts (R425). -/
def statBytes (d : DevStat) : List Byte := [d.drops, d.sram, d.dram, d.retries].flatMap fun v => bytesLE 4 v.toNat

/-- DEVSTAT. -/
def execCmdDevstat (k : Cmd) (s : State) : Out :=
  cmdRun 0x06 false k s fun s => .done s 0 ((List.finRange 4).flatMap fun d =>
    let x := (dieAt s d).stat
    statBytes { x with retries := x.retries + Config.retries d s.now })

/-! ## Contexts (R362, R425, R427) -/

/-- Whether a context's fields are in range (R362). -/
def ctxFieldsOk (sys : Bool) (pmin maxc : Nat) : Bool :=
  (if sys then pmin == 0 else 4 ≤ pmin && pmin ≤ 47) && 1 ≤ maxc && maxc ≤ 256

/-- A context as CTXNEW creates it: no rights, 16 invalid queues, an empty root table. -/
def freshCtx (n : Nat) (d : DWord) (root save qtab : Nat) : Ctx where
  n := n
  sys := bitOf d 27
  part := Fin.ofNat 16 (field d 3 0)
  root := root
  save := save
  qtab := qtab
  kmask := BitVec.ofNat 8 (field d 26 19)
  pmin := field d 18 13
  maxc := field d 12 4
  skcells := 6
  skgrow := 1
  skrnd := 2
  queues := Vector.replicate 16 Queue.zero
  blocks := []
  ring := []
  fhead := 0
  held := none
  restore := none
  restored := none
  objs := []
  checked := []
  checks := []
  svcQ := 15

/-- A page record of the Plinth's own. -/
def ownPage (len base : Nat) : PageRec := ⟨none, false, base, len, false, false⟩

/-- The memory of a new context: its root table, its saved area and its queue descriptors. -/
def newCtxPages (s : State) (n maxc : Nat) : Option (Nat × Nat × Nat × State) :=
  (newTable s 1 n).bind fun r =>
    (takePlace r.2 2 0 0x4000000000 4096 (areaLen maxc) (ownPage (areaLen maxc))).bind fun v =>
      (takePlace v.2 3 0 0x4000000000 4096 4096 (ownPage 4096)).map fun q => (r.1, v.1, q.1, q.2)

/-- CTXNEW. -/
def execCmdCtxnew (k : Cmd) (s : State) : Out :=
  cmdRun 0x10 true k s fun s =>
    let free := (List.range 1024).filter fun n => (ctxBy s n).isNone
    if !ctxFieldsOk (bitOf k.d0 27) (field k.d0 18 13) (field k.d0 12 4) then .fail .badarg
    else match free[Config.choice s.ticks 0 % free.length]? with
      | none => .fail .full
      | some n => match newCtxPages s n (field k.d0 12 4) with
        | none => .fail .full
        | some (root, save, qtab, s1) => .done { s1 with ctxs := s1.ctxs ++ [freshCtx n k.d0 root save qtab] } n []

/-- Whether a launch of a context runs or is held. -/
def ctxBusy (s : State) (x : Ctx) : Bool := x.held.isSome || s.launches.any fun l => l.ctx == x.n && l.phase != .written

/-- Whether the dwords of a CTXSET name the pages that the Plinth created for the context, with every field in range; reserved bits
are ignored (R362, R427, R6). -/
def ctxsetOk (x : Ctx) (k : Cmd) : Bool :=
  bitOf k.d0 63 && field k.d0 39 12 * 4096 == x.root && field k.d1 39 12 * 4096 == x.save && field k.d2 39 6 * 64 == x.qtab &&
  ctxFieldsOk (bitOf k.d0 62) (field k.d3 14 9) (field k.d3 8 0)

/-- CTXSET. -/
def execCmdCtxset (k : Cmd) (s : State) : Out :=
  cmdCtx 0x20 true k s fun s x =>
    if ctxBusy s x then .fail .busy
    else if !ctxsetOk x k then .fail .badarg
    else .done (modCtx s x.n fun x => { x with
      sys := bitOf k.d0 62, part := Fin.ofNat 16 (field k.d0 61 58), pmin := field k.d3 14 9
      maxc := field k.d3 8 0, kmask := k.d4.setWidth 8 }) 0 []

/-- Every record of a context that waits is cancelled, its candidates withdrawn (R380). -/
def cancelAll (s : State) (n : Nat) : State :=
  modCtx s n fun x => { x with queues := x.queues.map fun y =>
    { y with cancels := (List.range (y.tail - y.head)).map (y.head + ·), cand := none, candRanges := [] } }

/-- A running launch ends with CANCELLED, as a fault ends it (R380). -/
def cancelLaunch (s : State) (id : Nat) : State :=
  modLaunch s id fun l =>
    if isLive l.phase then { l with phase := .ending, status := some .cancelled, endedAt := s.now } else l

/-- The statuses of a queue's waiting records, in order, until one cannot be written. -/
def cancelRest (ctx : Nat) (q : Fin 16) : Nat → State → State
  | 0, s => s
  | n + 1, s => match ctxBy s ctx with
    | none => s
    | some x =>
      let y := at' x.queues q
      if y.head < y.tail && y.heldStatus.isNone then cancelRest ctx q n (giveStatus s ctx q y.head .cancelled 0) else s

/-- The queues of a context that is destroyed, in order: a running launch is cancelled and waited for, a held one is
discarded, and the waiting records end; a status that waits for a class in session is waited for (R185). The Bool says that every queue is done with. -/
def emptyQueues (ctx : Nat) : List (Fin 16) → State → State × Bool
  | [], s => (s, true)
  | q :: qs, s =>
    match s.launches.find? fun l => l.ctx == ctx && l.q == q && l.phase != .written with
    | some l => (cancelLaunch s l.id, false)
    | none => match ctxBy s ctx with
      | none => (s, true)
      | some x =>
        let s1 := match x.held with
          | some h => if h.launch.q = q then endHeld s x h .cancelled none else s
          | none => s
        let y := at' x.queues q
        let s2 := cancelRest ctx q (y.tail - y.head) s1
        match ctxBy s2 ctx with
        | some z =>
          let y := at' z.queues q
          if y.heldStatus.isSome && !y.halt then (s2, false) else emptyQueues ctx qs s2
        | none => (s2, true)

/-- A context is gone: its descriptor, tables, pages, cached translations, classes and jobs. -/
def dropCtx (s : State) (x : Ctx) : State :=
  let s1 := tlbiOp s 1 x.n 0
  { s1 with
    ctxs := s1.ctxs.filter (·.n != x.n)
    pages := s1.pages.filter fun p => p.ctx != some x.n && p.base != x.save && p.base != x.qtab
    jobs := s1.jobs.filter (·.2 != x.n)
    cpsem := if s1.cpsem = .sys x.n then .free else s1.cpsem
    dies := s1.dies.map fun d => { d with
      classes := d.classes.map fun c => c.filter (·.ctx != x.n)
      walks := d.walks.filter (·.ctx != x.n) } }

/-- CTXDEL (R380, R387): every record is cancelled in queue and sequence order, then the context is destroyed. The command
stays the next one until its running launches have ended. -/
def execCmdCtxdel (k : Cmd) (s : State) : Out :=
  cmdCtx 0x11 true k s fun s x =>
    let r := emptyQueues x.n (List.finRange 16) (cancelAll s x.n)
    if r.2 && r.1.launches.all (·.ctx != x.n) then .done (dropCtx r.1 x) 0 [] else .wait r.1

/-! ## Memory (R425, R427) -/

/-- A leaf (R383). -/
def leafOf (pa size : Nat) (rights : Nat) (ver cmp : Bool) : DWord :=
  BitVec.ofNat 64 (1 + pa + 2 ^ 53 + size * 2 ^ 54 + rights % 8 * 2 ^ 56 + (if cmp then 2 ^ 59 else 0) + (if ver then 2 ^ 60 else 0))

/-- A leaf written into every entry of its group (R384). -/
def putGroup (ctx va level n : Nat) (e : DWord) : Nat → State → Option State
  | 0, s => some s
  | j + 1, s => match ctxBy s ctx with
    | none => none
    | some x =>
      let a := va + (n - (j + 1)) * 2 ^ (16 + 9 * level)
      match makeTables 64 ctx a level 3 x.root s with
      | none => none
      | some (page, s1) => putGroup ctx va level n e j (putEntry s1 page (levelIndex a level) e)

/-- Where a page of 2^bits bytes can be taken. -/
def takeData (s : State) (n ctx : Nat) (die : DieId) (csm ver cmp : Bool) (bits : Nat) : Option (Nat × State) :=
  let r := dieRange die csm
  takePlace s n r.1 r.2 (2 ^ bits) (2 ^ bits) fun base => ⟨some ctx, false, base, 2 ^ bits, ver, cmp⟩

/-- One page of a MAP: the largest that fits the range and finds room, with its leaf. -/
def mapOne (s : State) (n ctx va len : Nat) (die : DieId) (csm ver cmp : Bool) (rights : Nat) : Option (Nat × State) :=
  [2, 1, 0].findSome? fun size =>
    let bits := pageBits size
    if va % 2 ^ bits ≠ 0 ∨ len < 2 ^ bits then none
    else (takeData s n ctx die csm ver cmp bits).bind fun r =>
      (putGroup ctx va (if size = 2 then 1 else 0) (if size = 0 then 1 else 32) (leafOf r.1 size rights ver cmp)
        (if size = 0 then 1 else 32) r.2).map fun s1 => (2 ^ bits, s1)

/-- The pages of a MAP, from an address upward. -/
def mapRange (ctx : Nat) (die : DieId) (csm ver cmp : Bool) (rights : Nat) : Nat → Nat → Nat → State → Option State
  | 0, _, _, s => some s
  | fuel + 1, va, len, s =>
    if len = 0 then some s
    else match mapOne s (100 + 64 * fuel) ctx va len die csm ver cmp rights with
      | none => none
      | some (n, s1) => mapRange ctx die csm ver cmp rights fuel (va + n) (len - n) s1

/-- Whether no page of a range is mapped. -/
def unmapped (s : State) (ctx va len : Nat) : Bool :=
  (List.range (len / 65536)).all fun i => match walk s ctx (va + 65536 * i) with
    | .bad e _ => !bitOf e 0
    | _ => false

/-- MAP. A range that is mapped already, or an attribute that its memory cannot have (R384), gives BADARG. -/
def execCmdMap (k : Cmd) (s : State) : Out :=
  cmdCtx 0x12 false k s fun s x =>
    let va := k.d0.toNat
    let len := k.d1.toNat
    let ver := bitOf k.d2 3
    let cmp := bitOf k.d2 4
    let csm := bitOf k.d2 7
    if field k.d2 63 8 ≠ 0 ∨ len = 0 ∨ va % 65536 ≠ 0 ∨ len % 65536 ≠ 0 ∨ va + len > windowBase ∨ (ver ∧ !csm) ∨
        (cmp ∧ csm) ∨ (ver ∧ cmp) then .fail .badarg
    else if !unmapped s x.n va len then .fail .badarg
    else match mapRange x.n (Fin.ofNat 4 (field k.d2 6 5)) csm ver cmp (field k.d2 2 0) (len / 65536) va len s with
      | none => .fail .full
      | some s1 => .done s1 0 []

/-- Whether a range of physical memory lies wholly within data pages of a context that have the attributes. -/
def withinPages (s : State) (ctx base len : Nat) (ver cmp : Bool) : Bool :=
  (List.range (len / 4096)).all fun i =>
    s.pages.any fun p => p.ctx == some ctx && !p.table && p.ver == ver && p.cmp == cmp &&
      p.base ≤ base + 4096 * i && base + 4096 * i < p.base + p.len

/-- An entry as PTSET writes it under the checks of R427: itself, one with the table page that the Plinth creates for it, or
none where a check fails. -/
def checkedEntry (s : State) (ctx : Nat) (e : DWord) : Option (DWord × State) :=
  let pa := field e 39 12 * 4096
  let size := field e 55 54
  if !bitOf e 0 then some (e, s)
  else if bitOf e 53 then
    if size ≠ 3 ∧ withinPages s ctx pa (2 ^ pageBits size) (bitOf e 60) (bitOf e 59) then some (e, s) else none
  else if pa = 0 then (newTable s 1 ctx).map fun r => (e ||| BitVec.ofNat 64 r.1, r.2)
  else if s.pages.any fun p => p.ctx == some ctx && p.table && p.base == pa then some (e, s)
  else none

/-- PTSET (R427). A table page on the way that is missing gives BADARG. -/
def execCmdPtset (k : Cmd) (s : State) : Out :=
  cmdCtx 0x21 false k s fun s x =>
    let va := k.d0.toNat
    let level := k.d1.toNat
    if va ≥ 2 ^ 52 ∨ level > 3 then .fail .badarg
    else match tableAtLevel s.mem va level 3 x.root, checkedEntry s x.n k.d2 with
      | some page, some (e, s1) => .done (tlbiOp (putEntry s1 page (levelIndex va level) e) 0 x.n va) 0 []
      | _, _ => .fail .badarg

/-! ## Queues (R364, R380, R381) -/

/-- Whether a ring's addresses and size may stand in a queue descriptor (R364). -/
def ringOkay (rbase sbase lsize : Nat) : Bool :=
  rbase % 128 == 0 && sbase % 16 == 0 && rbase < 2 ^ 52 && sbase < 2 ^ 52 && lsize ≤ 16

/-- Whether a launch of a queue runs. -/
def queueRuns (s : State) (x : Ctx) (q : Fin 16) : Bool := s.launches.any fun l => l.ctx == x.n && l.q == q && l.phase != .written

/-- QNEW. BUSY while a launch of the queue runs or is held. -/
def execCmdQnew (k : Cmd) (s : State) : Out :=
  cmdCtx 0x13 false k s fun s x =>
    if !ringOkay k.d0.toNat k.d1.toNat k.d2.toNat then .fail .badarg
    else if queueRuns s x (cmdQ k) || queueBusy s x (cmdQ k) then .fail .busy
    else .done (modCtx s x.n fun x => modQueue x (cmdQ k) fun _ => { Queue.zero with
      v := true, lsize := k.d2.toNat, rbase := BitVec.ofNat 52 k.d0.toNat, sbase := BitVec.ofNat 52 k.d1.toNat }) 0 []

/-- QSET. Reserved bits are ignored (R6). -/
def execCmdQset (k : Cmd) (s : State) : Out :=
  cmdCtx 0x22 false k s fun s x =>
    let y := at' x.queues (cmdQ k)
    let lsize := field k.d0 57 52
    let tail := k.d2.toNat
    if y.head ≠ y.done ∨ queueRuns s x (cmdQ k) then .fail .busy
    else if !ringOkay (field k.d0 51 0) (field k.d1 51 0) lsize ∨ tail < y.head ∨ 2 ^ lsize < tail - y.head then
      .fail .badarg
    else .done (modCtx s x.n fun x => modQueue x (cmdQ k) fun y => { y with
      v := bitOf k.d0 63, halt := bitOf k.d0 62, lsize := lsize, rbase := BitVec.ofNat 52 (field k.d0 51 0)
      sbase := BitVec.ofNat 52 (field k.d1 51 0), tail := tail }) 0 []

/-- ENQ. -/
def execCmdEnq (k : Cmd) (s : State) : Out :=
  cmdCtx 0x14 false k s fun s x =>
    let y := at' x.queues (cmdQ k)
    let n := k.d0.toNat
    if !y.v ∨ n = 0 ∨ 2 ^ y.lsize < y.tail + n - y.done then .fail .badarg
    else .done (modCtx s x.n fun x => modQueue x (cmdQ k) fun y => { y with tail := y.tail + n }) (y.tail + n) []

/-- A record of a queue cancelled (R380): it runs, it is held, it waits, or it has its status already. -/
def cancelRecord (s : State) (x : Ctx) (q : Fin 16) (seq : Nat) : State :=
  let y := at' x.queues q
  match s.launches.find? fun l => l.ctx == x.n && l.q == q && l.seq == seq && l.phase != .written with
  | some l => cancelLaunch s l.id
  | none =>
    match x.held with
    | some h =>
      if h.launch.q = q ∧ h.launch.seq = seq then endHeld s x h .cancelled none else waiting y
    | none => waiting y
where
  /-- A record that waits is marked; one that is a candidate is none any more. -/
  waiting (y : Queue) : State :=
    if seq < y.done ∨ y.cancels.contains seq then s
    else modCtx s x.n fun x => modQueue x q fun y => { y with
      cancels := y.cancels ++ [seq]
      cand := if seq = y.head then none else y.cand
      candRanges := if seq = y.head then [] else y.candRanges }

/-- CANCEL. -/
def execCmdCancel (k : Cmd) (s : State) : Out :=
  cmdCtx 0x15 false k s fun s x =>
    if (at' x.queues (cmdQ k)).tail ≤ k.d0.toNat then .fail .badarg
    else .done (cancelRecord s x (cmdQ k) k.d0.toNat) 0 []

/-! ## Classes (R183, R191) -/

/-- Whether a class descriptor may be registered (R183). -/
def classOk (d : Vector DWord 4) : Bool :=
  let z := field d[2] 31 28
  field d[0] 63 52 == 0 && field d[1] 63 52 == 0 && field d[2] 25 0 == 0 && field d[3] 41 0 == 0 && 3 ≤ z && z ≤ 12 &&
  field d[2] 63 32 != 0 && field d[0] 51 0 % 2 ^ z == 0 && field d[1] 51 0 % 8 == 0

/-- Whether every page of a range passes a test. -/
def everyPage (base : Nat) (ok : Nat → Bool) : Nat → Bool
  | 0 => true
  | n + 1 => ok (base + 65536 * n) && everyPage base ok n

/-- Whether a table or a bitmap may lie where it does: outside the core-local window, and no page of it versioned or a
COMPRESS page (R183). -/
def classRangeOk (s : State) (ctx va n : Nat) : Bool :=
  va + n ≤ windowBase &&
  everyPage (va / 65536 * 65536) (fun a => match walk s ctx a with
    | .leaf t => !t.rights.ver && !t.rights.cmp
    | _ => true) ((va % 65536 + n + 65535) / 65536)

/-- Whether a class at a die and a slot of a context may be registered: its descriptor, the places of its table and its
bitmap, and a peer that is another class (R183). -/
def classFits (s : State) (c : Cls) (d : DieId) (k : Fin 16) : Bool :=
  classOk c.desc && classRangeOk s c.ctx (clsBase c) (clsCount c * 2 ^ clsLesz c) &&
  classRangeOk s c.ctx (clsBmap c) ((clsCount c + 7) / 8) &&
  !(field c.desc[3] 63 48 == s.ownPkg && field c.desc[3] 47 46 == d.val && field c.desc[3] 45 42 == k.val)

/-- The die and the slot of a class command. -/
def classPlace (k : Cmd) : DieId × Fin 16 := (Fin.ofNat 4 (field k.d0 5 4), Fin.ofNat 16 (field k.d0 3 0))

/-- CLSREG. A slot that holds a class gives BUSY. -/
def execCmdClsreg (k : Cmd) (s : State) : Out :=
  cmdCtx 0x16 false k s fun s x =>
    let p := classPlace k
    match ctxRead s x.n k.d1.toNat 32 with
    | none => .fail .badarg
    | some bs =>
      let d : Vector DWord 4 := Vector.ofFn fun i => dw (dwordsOf bs) i.val
      if field k.d0 63 6 ≠ 0 ∨ !classFits s ⟨x.n, d⟩ p.1 p.2 then .fail .badarg
      else if (at' (dieAt s p.1).classes p.2).isSome then .fail .busy
      else .done (modDie s p.1 fun z => { z with classes := put z.classes p.2 (some ⟨x.n, d⟩) }) 0 []

/-- CLSFREE: at once where the class is out of session, else once it is. -/
def execCmdClsfree (k : Cmd) (s : State) : Out :=
  cmdCtx 0x17 false k s fun s x =>
    let p := classPlace k
    match at' (dieAt s p.1).classes p.2 with
    | none => .done s 0 []
    | some c =>
      if c.ctx ≠ x.n then .fail .badarg
      else if inSession s p.1 p.2 then .later { s with sysWork := s.sysWork ++ [(.port k.seq, .classFree p.1 p.2)] }
      else .done (freeClass s p.1 p.2) 0 []

/-! ## What system instructions do too (R406 to R415) -/

/-- TLBI (R409). -/
def execCmdTlbi (k : Cmd) (s : State) : Out :=
  cmdRun 0x23 false k s fun s =>
    let mode := k.d0.toNat
    if mode > 2 ∨ (mode ≠ 2 ∧ (ctxBy s k.ctx.toNat).isNone) then .fail .badarg
    else .done (tlbiOp s mode k.ctx.toNat k.d1.toNat) 0 []

/-- A FREEZE or a DRAIN by command. -/
def cmdStop (k : Cmd) (s : State) (x : Ctx) (level : Option Nat) : CmdOut :=
  match stopOp s x (cmdQ k) level none (.port k.seq) with
  | .nothing => .done s 0 []
  | .stopping s1 => .later s1
  | .wait => .wait s
  | .bad => .fail .badarg

/-- FREEZE (R406). -/
def execCmdFreeze (k : Cmd) (s : State) : Out := cmdCtx 0x24 false k s fun s x => cmdStop k s x none

/-- DRAIN (R406). The result word has no bit 63 for a value. -/
def execCmdDrain (k : Cmd) (s : State) : Out := cmdCtx 0x25 false k s fun s x => cmdStop k s x (some k.d0.toNat)

/-- RESTORE (R407), from the context's own area or from an image in its memory. -/
def execCmdRestore (k : Cmd) (s : State) : Out :=
  cmdCtx 0x26 false k s fun s x =>
    let src := k.d0.toNat
    match x.held with
    | none => .fail .badarg
    | some h =>
      if !mayRestore x then .fail .badarg
      else if src = 0 then .later (askRestore s x.n (.port k.seq))
      else if src % 4096 ≠ 0 then .fail .badarg
      else match ctxRead s x.n src (areaLen h.cores.length) with
        | none => .fail .badarg
        | some bs => if headerFits h bs then .later (restoreFrom s x h bs (.port k.seq)) else .fail .badarg

/-- CFG (R410). -/
def execCmdCfg (k : Cmd) (s : State) : Out :=
  cmdRun 0x27 false k s fun s => match cfgOp s k.d0.toNat k.d1.toNat with
    | some (old, s1) => .done s1 old.toNat []
    | none => .fail .badarg

/-- PART (R415). -/
def execCmdPart (k : Cmd) (s : State) : Out :=
  cmdRun 0x28 true k s fun s =>
    if k.d0.toNat > 255 ∨ k.d1.toNat > 255 then .fail .badarg
    else .later (guardOp s (Fin.ofNat 256 k.d0.toNat) (k.d1.setWidth 8) (.port k.seq))

/-- Whether a running launch holds a range queue that a queue map gives to another partition (R425). -/
def mapTakes (s : State) (die : DieId) (m : DWord) : Bool :=
  (dieAt s die).rqs.any fun q => match launchBy s q.2.launch with
    | some l => match ctxBy s l.ctx with
      | some x => field m (4 * (q.1.val / 4) + 3) (4 * (q.1.val / 4)) != x.part.val
      | none => false
    | none => false

/-- SLOTS (R434). -/
def execCmdSlots (k : Cmd) (s : State) : Out :=
  cmdRun 0x29 true k s fun s =>
    let d : DieId := Fin.ofNat 4 k.d0.toNat
    if k.d0.toNat > 3 then .fail .badarg
    else if mapTakes s d k.d2 then .fail .busy
    else .done (modDie s d fun z => { z with slotTable := k.d1, queueMap := k.d2 }) (dieAt s d).slotTable.toNat []

/-- HALTC (R414). -/
def execCmdHaltc (k : Cmd) (s : State) : Out :=
  cmdRun 0x2A false k s fun s =>
    if k.d0.toNat > 255 ∨ k.d1.toNat > 1 then .fail .badarg
    else .later (haltOp s (Fin.ofNat 256 k.d0.toNat) k.d1.toNat (.port k.seq))

/-! ## Keys, firmware, tables (R420, R424, R436) -/

/-- KEYSET (R436): install a key into an empty slot, or revoke a slot. Payload bits to which R425 gives no field are bad
arguments (log entry 65). -/
def execCmdKeyset (k : Cmd) (s : State) : Out :=
  cmdRun 0x2B true k s fun s =>
    let slot : Fin 8 := Fin.ofNat 8 (field k.d0 2 0)
    if field k.d0 63 4 ≠ 0 then .fail .badarg
    else if bitOf k.d0 3 then .done { s with keySlots := put s.keySlots slot .revoked } 0 []
    else if at' s.keySlots slot ≠ .empty then .fail .badarg
    else match (ctxBy s k.ctx.toNat).bind fun x => ctxRead s x.n k.d1.toNat 97 with
      | none => .fail .badarg
      | some key => .done { s with keySlots := put s.keySlots slot (.active key) } 0 []

/-- FWUPD: a good image is written to the flash bank that step 1 of the bring-up does not read first, which it then does: it acts
at the next boot (R440; log entry 77). -/
def execCmdFwupd (k : Cmd) (s : State) : Out :=
  cmdCtx 0x2C true k s fun s x =>
    match ctxRead s x.n k.d1.toNat 64 with
    | none => .fail .badarg
    | some hd => match ctxRead s x.n k.d1.toNat (Config.firmwareLength hd) with
      | none => .fail .badarg
      | some im =>
        if !Config.firmwareGood im then .fail .badsig
        else
          let b0 := (s.fwBanks[0]?).getD []
          let b1 := (s.fwBanks[1]?).getD []
          .done (if s.fwFirst = 0 then { s with fwBanks := [b0, im], fwFirst := 1 }
            else { s with fwBanks := [im, b1], fwFirst := 0 }) 0 []

/-- JOBSET (R420). -/
def execCmdJobset (k : Cmd) (s : State) : Out :=
  cmdRun 0x2D true k s fun s =>
    let j := k.d0.toNat
    let n := field k.d1 9 0
    let rest := s.jobs.filter (·.1 != j)
    if j = 0 ∨ j > 4095 ∨ field k.d1 62 10 ≠ 0 then .fail .badarg
    else if bitOf k.d1 63 then .done { s with jobs := rest } 0 []
    else if (ctxBy s n).isNone then .fail .badarg
    else .done { s with jobs := rest ++ [(j, n)] } 0 []

/-- PEERSET (R424, R440). -/
def execCmdPeerset (k : Cmd) (s : State) : Out :=
  cmdRun 0x2E true k s fun s =>
    let pkg := k.d0.toNat
    let rest := s.peers.filter (·.pkg != pkg)
    if pkg > 65535 ∨ field k.d2 63 9 ≠ 0 then .fail .badarg
    else if rest.length ≥ 1024 then .fail .full
    else .done { s with
      peers := rest ++ [⟨pkg, k.d1, k.d2.setWidth 8⟩]
      ownPkg := if bitOf k.d2 8 then pkg else s.ownPkg } 0 []

/-- The core that takes a SYSRT's message: the first of the context's first running launch (log entry 39). -/
def sysrtCore (s : State) (ctx : Nat) : Option CoreId :=
  (s.launches.find? fun l => l.ctx == ctx && mayStep l.phase).bind (·.cores.head?)

/-- SYSRT (R412): a message to system code; the entry stays accepted until SRET. -/
def execCmdSysrt (k : Cmd) (s : State) : Out :=
  cmdRun 0x2F false k s fun s =>
    let n := field k.d0 9 0
    let ch : BitVec 6 := BitVec.ofNat 6 (field k.d0 15 10)
    match ctxBy s n with
    | none => .fail .badarg
    | some x =>
      if !x.sys ∨ field k.d0 63 16 ≠ 0 then .fail .badarg
      else match sysrtCore s n with
        | none => .fail .badarg
        | some c =>
          if storeUsed (coreAt s c) ≥ 256 then .wait s
          else
            let m : Msg := ⟨0, ch, ch, [BitVec.ofNat 64 k.seq, k.d1, k.d2, k.d3], 0, c, none⟩
            .later (active (acceptMsg { s with sysWork := s.sysWork ++ [(.port k.seq, .sysrt)] } c m) c)

end Sys2Proof.Machine
end

