-- ==== Sys2Proof/Machine/Board.lean ====
section
/-! DEFINITION. The package as a whole: the lease of CPSEM (R428), errors of memory and links (R437), heat (R439),
bring-up (R440) and the reset of a core (R441). -/

namespace Sys2Proof.Machine
open Sys2Proof

/-! ## Lease (R428) -/

/-- CPSEM_LEASE_EXPIRY: a port that has sent no command for 2^33 cycles holds CPSEM no longer. -/
def execCpsemLeaseExpiry (s : State) : Out :=
  .next (match s.cpsem with
    | .port _ => if s.cpsemAt + 2 ^ 33 ≤ s.now then deviceEvent { s with cpsem := .free } 0x02 0 0 0 0 else s
    | _ => s)

/-! ## Errors (R437) -/

/-- LINK_RETRY_EXHAUSTED: the access ends as one that met an uncorrectable error. -/
def execLinkRetryExhausted (acc : Nat) (s : State) : Out :=
  .next (match s.accs.find? (·.id == acc) with
    | none => s
    | some a =>
      let s1 := modDie s (dieOf a.who.core) fun d => { d with stat := { d.stat with retries := d.stat.retries + 16 } }
      readBad s1 a)

/-- A corrected error of a word is counted on its die: DRAM, or else SRAM. -/
def countCorrected (s : State) (loc : Nat) : State :=
  let die : DieId :=
    if loc < 2 ^ 40 then locDie loc
    else if loc < 2 ^ 41 then dieOf (scratchCore loc)
    else if loc < 2 ^ 42 then dieOf (Fin.ofNat 256 ((loc - 2 ^ 41) / 2 ^ 18))
    else dieOf (Fin.ofNat 256 ((loc - 2 ^ 42) / 2 ^ 24))
  let add (x : DevStat) : DevStat := if isDram loc then { x with dram := x.dram + 1 } else { x with sram := x.sram + 1 }
  modDie s die fun d => { d with stat := add d.stat }

/-- The scrubber's visit to a word of memory. A word stays bad until it is written. -/
def scrubWord (s : State) (loc : Nat) (f : ScrubFind) : State :=
  let w := loc / 8 * 8
  let event (s : State) : State := deviceEvent s 0x04 (physAddr s w) 0 0 0
  if s.bad.contains w then event s
  else match f with
    | .clean => s
    | .corrected => countCorrected s w
    | .uncorrectable => event { s with bad := w :: s.bad }

/-- The scrubber's visit to a Frieze entry, which lies in DRAM of no stated address: the die that counts is free (log entry 30). -/
def scrubFrieze (s : State) (slot : Nat) (f : ScrubFind) : State :=
  match f with
  | .uncorrectable =>
    { s with frieze := s.frieze.map fun e => if e.seq % 65536 = slot then { e with state := .corrupt } else e }
  | .corrected => countCorrected s ((Config.freeWord s.ticks).toNat % 0x4000000000)
  | .clean => s

/-- The physical address of a context's descriptor, in the memory that the Plinth reserved for them at boot (R362). -/
def descriptorAt (s : State) (n : Nat) : DWord :=
  match s.pages.find? fun p => p.ctx.isNone && !p.table && p.len == 0x10000 with
  | some p => BitVec.ofNat 64 (p.base + 64 * n)
  | none => Config.freeWord s.ticks

/-- The scrubber's visit to a context's descriptor. -/
def scrubContext (s : State) (n : Nat) (f : ScrubFind) : State :=
  match f, ctxBy s n with
  | .uncorrectable, some _ =>
    deviceEvent (modCtx s n fun x => { x with queues := x.queues.map fun q => { q with halt := true } })
      0x06 (descriptorAt s n) n 0 0
  | .corrected, _ => countCorrected s ((descriptorAt s n).toNat % 0x4000000000)
  | _, _ => s

/-- SCRUB. The bring-up ends first: event 0x01 is Frieze entry 0 (R440). -/
def execScrub (place : ScrubAt) (found : ScrubFind) (s : State) : Out :=
  .next (if s.bootStep ≠ 9 then s else match place with
    | .word loc => scrubWord s loc found
    | .frieze slot => scrubFrieze s slot.val found
    | .context n => scrubContext s n found)

/-! ## Heat (R439) -/

/-- A thermal step of a die at a temperature for which it is there; a die has one temperature in a cycle (R439). -/
def thermalStep (die : DieId) (temp : BitVec 8) (there : Bool) (s : State) : State :=
  if !there || ((dieAt s die).tempAt == some s.now && (dieAt s die).temp != temp) then s else noteTemp s die temp

/-- THERMAL_STEP_DOWN: at 100 °C or above the die's core clock is 470 MHz. Timing alone changes (R24). -/
def execThermalStepDown (die : DieId) (temp : BitVec 8) (s : State) : Out := .next (thermalStep die temp (100 ≤ temp.toNat) s)

/-- THERMAL_STEP_UP: below 95 °C it is 940 MHz again. -/
def execThermalStepUp (die : DieId) (temp : BitVec 8) (s : State) : Out := .next (thermalStep die temp (temp.toNat < 95) s)

/-- THERMAL_TRIP: at 110 °C every die loses power, and nothing is written. -/
def execThermalTrip (die : DieId) (temp : BitVec 8) (s : State) : Out := .next (thermalStep die temp (110 ≤ temp.toNat) s)

/-! ## Bring-up (R440) and reset (R441) -/

/-- POWER_ON_RESET: everything except flash takes its value at power-on; a trip before it is remembered. The model's own
fields go on. -/
def execPowerOnReset (s : State) : Out :=
  .next { State.reset with
    agenda := s.agenda, ticks := s.ticks, nextId := s.nextId, now := s.now
    fwBanks := s.fwBanks, fwFirst := s.fwFirst, keySlots := s.keySlots, bootCount := s.bootCount, lastTrip := !s.powered }

/-- Memory that the Plinth keeps for itself, which no context maps (R361, R362, R429): session areas, the Frieze, context
descriptors. `xs` lists number of the choice, range, alignment and length. -/
def reserveAll : List (Nat × (Nat × Nat) × Nat) → State → State
  | [], s => s
  | (n, r, len) :: xs, s =>
    match takePlace s n r.1 r.2 4096 len fun base => ⟨none, false, base, len, false, false⟩ with
    | some (_, s1) => reserveAll xs s1
    | none => reserveAll xs s

/-- The Plinths' own memory. -/
def plinthAreas : List (Nat × (Nat × Nat) × Nat) :=
  ((List.finRange 4).flatMap fun d =>
    [(d.val, dieRange d true, 0x420000), (4 + d.val, dieRange d false, 0xC000000)]) ++
  [(8, (0, 0x4000000000), 0x400000), (9, (0, 0x4000000000), 0x10000)]

/-- The values of step 7. -/
def bootState (s : State) : State :=
  reserveAll plinthAreas { s with
    frieze := [], fzseq := 0, ctxs := [], jobs := [], peers := [], ownPkg := 0, pages := []
    dies := s.dies.map fun d => { d with slotTable := 0, queueMap := 0, excs := [] }
    cores := s.cores.map fun k => { k with guardV := 0 }
    wdp := 26, scrub := 32, cpsem := .free }

/-- The flash banks in the order in which step 1 reads them. -/
def bankOrder (s : State) : List (List Byte) := if s.fwFirst = 0 then s.fwBanks else s.fwBanks.reverse

/-- The Ethernet ports that train in step 5: one at least, and of the others a free choice (log entry 2). -/
def trainPorts (s : State) : Vector Bool 8 :=
  Vector.ofFn fun i => i.val == Config.choice s.ticks 8 % 8 || Config.choice s.ticks i.val % 2 == 1

/-- A finished step of the bring-up does its work; `none` where it has failed. `ok` says whether training, copying, the
repair and the flash succeed; for step 5, whether a port is up. -/
def bringUp (s : State) (ok : Bool) : Option State :=
  match s.bootStep with
  | 1 => if !ok then none else ((bankOrder s).find? Config.firmwareGood).map fun im => { s with fwDigest := sha384 im }
  | 3 => if !ok then none else some { s with
      mem := s.mem.filter fun e => !isDram e.1
      bad := s.bad.filter fun w => !isDram w }
  | 4 => if !ok then none else some { s with
      mem := s.mem.filter fun e => isDram e.1
      bad := s.bad.filter fun w => isDram w }
  | 5 => if !ok then none else some { s with portsUp := trainPorts s }
  | 6 => if !ok then none else some { s with bootCount := s.bootCount + 1 }
  | 7 => some (bootState s)
  | 8 => some (journal s 0xF1 .done 3 0 0 0x01 0 [s.bootCount, if s.lastTrip then 1 else 0, 0, 0, 0])
  | _ => if !ok then none else some s

/-- BRING_UP_STEP: the step finishes on every die and the next begins; one that fails stops the bring-up. -/
def execBringUpStep (ok : Bool) (s : State) : Out :=
  .next (
    if s.bootStep < 1 ∨ 8 < s.bootStep then s
    else match bringUp s ok with
      | some s1 => { s1 with bootStep := s.bootStep + 1 }
      | none => { s with bootStep := 10 })

/-- CORE_RESET_DONE: the reset of a core that returns to service has finished (R441, R414, R372). -/
def execCoreResetDone (c : CoreId) (s : State) : Out :=
  .next (
    if !(coreAt s c).resetting then s
    else modCore (zeroCore s c) c fun k => { Core.zero with guardV := k.guardV, halted := k.halted, lastPc := k.lastPc })

end Sys2Proof.Machine
end

