-- ==== Sys2Proof/Machine/Scalar.lean ====
section
/-! DEFINITION. The meanings of the integer, bit and floating-point instructions, opcodes 0x01 to 0x2F (R237 to
R261). -/

namespace Sys2Proof.Machine
open Sys2Proof

/-- ADD (R241). -/
def execAdd (f : RegForm) (s : State) : Out := execInt2 (.add f) f s (intExact (· + ·))

/-- ADDI (R241). -/
def execAddi (f : ImmForm) (s : State) : Out := execIntI (.addi f) f s (intExact (· + ·))

/-- SUB (R241). -/
def execSub (f : RegForm) (s : State) : Out := execInt2 (.sub f) f s (intExact (· - ·))

/-- MUL (R241). -/
def execMul (f : RegForm) (s : State) : Out := execInt2 (.mul f) f s (intExact (· * ·))

/-- MULI (R241). -/
def execMuli (f : ImmForm) (s : State) : Out := execIntI (.muli f) f s (intExact (· * ·))

/-- MULH (R241). -/
def execMulh (f : RegForm) (s : State) : Out := execInt2 (.mulh f) f s (noFlag intMulh)

/-- DIV (R242). -/
def execDiv (f : RegForm) (s : State) : Out := execInt2 (.div f) f s (noFlag intDiv)

/-- REM (R242). -/
def execRem (f : RegForm) (s : State) : Out := execInt2 (.rem f) f s (noFlag intMod)

/-- AND (R243). -/
def execAnd (f : RegForm) (s : State) : Out := execInt2 (.and f) f s (noFlag (intBits (· &&& ·)))

/-- ANDI (R243). -/
def execAndi (f : ImmForm) (s : State) : Out := execIntI (.andi f) f s (noFlag (intBits (· &&& ·)))

/-- OR (R243). -/
def execOr (f : RegForm) (s : State) : Out := execInt2 (.or f) f s (noFlag (intBits (· ||| ·)))

/-- ORI (R243). -/
def execOri (f : ImmForm) (s : State) : Out := execIntI (.ori f) f s (noFlag (intBits (· ||| ·)))

/-- XOR (R243). -/
def execXor (f : RegForm) (s : State) : Out := execInt2 (.xor f) f s (noFlag (intBits (· ^^^ ·)))

/-- XORI (R243). -/
def execXori (f : ImmForm) (s : State) : Out := execIntI (.xori f) f s (noFlag (intBits (· ^^^ ·)))

/-- ANDN (R243). -/
def execAndn (f : RegForm) (s : State) : Out := execInt2 (.andn f) f s (noFlag (intBits fun a b => a &&& ~~~ b))

/-- SHL (R244). -/
def execShl (f : RegForm) (s : State) : Out := execInt2 (.shl f) f s (noFlag intShl)

/-- SHR (R244). -/
def execShr (f : RegForm) (s : State) : Out := execInt2 (.shr f) f s (noFlag intShr)

/-- SAR (R244). -/
def execSar (f : RegForm) (s : State) : Out := execInt2 (.sar f) f s (noFlag intSar)

/-- SHLI (R244): the count is the extended IMM32. -/
def execShli (f : ImmForm) (s : State) : Out := execIntI (.shli f) f s (noFlag intShl)

/-- SHRI (R244): the count is the extended IMM32. -/
def execShri (f : ImmForm) (s : State) : Out := execIntI (.shri f) f s (noFlag intShr)

/-- SARI (R244): the count is the extended IMM32. -/
def execSari (f : ImmForm) (s : State) : Out := execIntI (.sari f) f s (noFlag intSar)

/-- MIN (R245). -/
def execMin (f : RegForm) (s : State) : Out := execInt2 (.min f) f s (noFlag intMin)

/-- MAX (R245). -/
def execMax (f : RegForm) (s : State) : Out := execInt2 (.max f) f s (noFlag intMax)

/-- CLZ (R246). -/
def execClz (f : RegForm) (s : State) : Out := execInt1 (.clz f) f s intClz

/-- POPC (R246). -/
def execPopc (f : RegForm) (s : State) : Out := execInt1 (.popc f) f s intPopc

/-- BFX (R247). -/
def execBfx (f : RegForm) (s : State) : Out :=
  execValue (.bfx f) s f.d [f.a, f.b, f.c] (fmtField f.m) fun e xs =>
    (intBfx (intMode e f.m) (nthSrc xs 0) (nthSrc xs 1) (nthSrc xs 2), 0)

/-- BFI (R248): the destination is read as well. -/
def execBfi (f : RegForm) (s : State) : Out :=
  execValue (.bfi f) s f.d [f.d, f.a, f.b, f.c] (fmtField f.m) fun e xs =>
    (intBfi (intMode e f.m) (nthSrc xs 0) (nthSrc xs 1) (nthSrc xs 2) (nthSrc xs 3), 0)

/-- CMP (R249). -/
def execCmp (f : RegForm) (s : State) : Out :=
  execValue (.cmp f) s f.d [f.a, f.b] (fmtField f.m) fun e xs =>
    (intCmp ⟨isNode e, fmtField f.m, false, false⟩ (mCc f.m).toNat (nthSrc xs 0) (nthSrc xs 1), 0)

/-- CMPI (R249). -/
def execCmpi (f : ImmForm) (s : State) : Out :=
  execValue (.cmpi f) s f.d [f.a] (fmtField f.m) fun e xs =>
    (intCmp ⟨isNode e, fmtField f.m, false, false⟩ (mCc f.m).toNat (nthSrc xs 0) (immExt e f.imm), 0)

/-- The tag that MOV gives an l destination: its l source's, or FMT (R250, R98). -/
def movTag (s : State) (f : RegForm) : Fmt :=
  match s.focus with
  | some (.node c pe) => match f.a, nodeAt (coreAt s c) pe with
    | .l r, some n => at' n.tag r
    | _, _ => fmtField f.m
  | _ => fmtField f.m

/-- MOV (R250): from an l register the 32 bits and the tag unchanged. -/
def execMov (f : RegForm) (s : State) : Out :=
  execValue (.mov f) s f.d [f.a] (movTag s f) fun e xs =>
    (match f.a with
      | .l _ => nthSrc xs 0
      | _ => intMov (intMode e f.m) (nthSrc xs 0), 0)

/-- MOVI (R250). -/
def execMovi (f : ImmForm) (s : State) : Out :=
  execValue (.movi f) s f.d [] (fmtField f.m) fun e _ => (intMov (intMode e f.m) (immExt e f.imm), 0)

/-- FADD (R253). -/
def execFadd (f : RegForm) (s : State) : Out :=
  execFp (.fadd f) f s [f.a, f.b] fun md fmt rnd sat vs => fpAdd md fmt rnd sat (nthVal vs 0) (nthVal vs 1)

/-- FSUB (R253): a NaN operand keeps its sign (R107). -/
def execFsub (f : RegForm) (s : State) : Out :=
  execFp (.fsub f) f s [f.a, f.b] fun md fmt rnd sat vs => fpAdd md fmt rnd sat (nthVal vs 0) (fpNegate (nthVal vs 1))

/-- FMUL (R253). -/
def execFmul (f : RegForm) (s : State) : Out :=
  execFp (.fmul f) f s [f.a, f.b] fun md fmt rnd sat vs => fpMul md fmt rnd sat (nthVal vs 0) (nthVal vs 1)

/-- FMA (R253). -/
def execFma (f : RegForm) (s : State) : Out :=
  execFp (.fma f) f s [f.a, f.b, f.c] fun md fmt rnd sat vs =>
    fpFma md fmt rnd sat (nthVal vs 0) (nthVal vs 1) (nthVal vs 2)

/-- FMIN (R254). -/
def execFmin (f : RegForm) (s : State) : Out :=
  execFp (.fmin f) f s [f.a, f.b] fun md fmt _ _ vs => fpMinMax false md fmt (nthVal vs 0) (nthVal vs 1)

/-- FMAX (R254). -/
def execFmax (f : RegForm) (s : State) : Out :=
  execFp (.fmax f) f s [f.a, f.b] fun md fmt _ _ vs => fpMinMax true md fmt (nthVal vs 0) (nthVal vs 1)

/-- FCMP (R255): 1 or 0, an l destination tagged I32. -/
def execFcmp (f : RegForm) (s : State) : Out :=
  let fmt := fmtField f.m
  execValue (.fcmp f) s f.d [f.a, f.b] .i32 fun e xs =>
    let md := fpMode s e
    let r := fpCmp (mCc f.m).toNat (fpOperand md fmt (isImm f.a) (nthSrc xs 0))
      (fpOperand md fmt (isImm f.b) (nthSrc xs 1))
    (if r.1 then 1 else 0, r.2)

/-- A source's pattern in a format, with no DAZ; an imm7 stands for its value (R251, R106). -/
def fpPattern (fmt : Fmt) (o : Operand) (v : DWord) : Nat :=
  if isImm o then fpImmBits fmt v else lowBits (widthOf true fmt) v

/-- FSGN (R256). -/
def execFsgn (f : RegForm) (s : State) : Out :=
  let fmt := fmtField f.m
  let mode := (f.x.extractLsb' 0 2).toNat
  execValue (.fsgn f) s f.d (if mode = 3 then [f.a] else [f.a, f.b]) fmt fun _ xs =>
    (BitVec.ofNat 64 (fpSgn (widthOf true fmt) mode (fpPattern fmt f.a (nthSrc xs 0))
      (fpPattern fmt f.b (nthSrc xs 1))), 0)

/-- FRCP (R257). -/
def execFrcp (f : RegForm) (s : State) : Out :=
  execFp (.frcp f) f s [f.a] fun md fmt rnd sat vs => fpSpecial .rcp md fmt rnd sat (nthVal vs 0)

/-- FRSQ (R257). -/
def execFrsq (f : RegForm) (s : State) : Out :=
  execFp (.frsq f) f s [f.a] fun md fmt rnd sat vs => fpSpecial .rsq md fmt rnd sat (nthVal vs 0)

/-- FEXP2 (R257). -/
def execFexp2 (f : RegForm) (s : State) : Out :=
  execFp (.fexp2 f) f s [f.a] fun md fmt rnd sat vs => fpSpecial .exp2 md fmt rnd sat (nthVal vs 0)

/-- FLOG2 (R257). -/
def execFlog2 (f : RegForm) (s : State) : Out :=
  execFp (.flog2 f) f s [f.a] fun md fmt rnd sat vs => fpSpecial .log2 md fmt rnd sat (nthVal vs 0)

/-- FRND (R258). -/
def execFrnd (f : RegForm) (s : State) : Out :=
  execFp (.frnd f) f s [f.a] fun md fmt rnd _ vs => fpRnd md fmt rnd (nthVal vs 0)

/-- The shared body of CVT and CVTS: AMAX sees the source unless it is void or the predicate is false (R259, R112). -/
def execConvert (i : Instr) (f : RegForm) (s : State) (srcs : List Operand) (scale : List Src → FVal → FVal) : Out :=
  let fmt := fmtField f.m
  let src := (fmtOf (f.x.extractLsb' 4 4)).getD .i32
  runWord i s fun e =>
    if (f.d :: srcs).any (lPending s e) then .wait
    else
      let xs := srcs.map (readSrc s e)
      let void := xs.any (·.void) || !predicate s e
      let md := fpMode s e
      let v := cvtSource md src (mU f.m) (nthSrc xs 0)
      let r := convertTo md fmt src (mRnd f.m) (mSat f.m) (mU f.m) (scale xs v)
      let s1 := writeDst s e f.d void r.1 fmt
      let s2 := if void then s1 else mergeFlags s1 e.core r.2
      let s3 := if void || !f.x.getLsbD 0 then s2
        else modCore s2 e.core fun k => { k with blk := { k.blk with amax := amaxUpdate k.blk.amax v } }
      .done (advance e true s3)

/-- CVT (R259). -/
def execCvt (f : RegForm) (s : State) : Out := execConvert (.cvt f) f s [f.a] fun _ v => v

/-- CVTS (R260): the source scaled by 2^k, then one rounding. -/
def execCvts (f : RegForm) (s : State) : Out :=
  execConvert (.cvts f) f s [f.a, f.b] fun xs v => scaleBy (scaleOf (nthSrc xs 1)) v

/-- FCLS (R261): a one-hot word tagged I32. -/
def execFcls (f : RegForm) (s : State) : Out :=
  let fmt := fmtField f.m
  execValue (.fcls f) s f.d [f.a] .i32 fun _ xs => (BitVec.ofNat 64 (fpClass fmt (fpPattern fmt f.a (nthSrc xs 0))), 0)

end Sys2Proof.Machine
end

