-- ==== Sys2Proof/Machine/System.lean ====
section
/-! DEFINITION. The system instructions, opcodes 0x90 to 0x9C (R402 to R417). -/

namespace Sys2Proof.Machine
open Sys2Proof

/-! ## What they share (R403, R404) -/

/-- The destination register of a system word; x0 where it has none. -/
def sysDest (f : RegForm) : Fin 32 :=
  match f.d with
  | .x r => r
  | _ => 0

/-- The place of a context's words among the arrivals of one cycle (R403). -/
def sysPlace (e : Env) : Nat := e.launch.ctx + 2

/-- Whether a system word of a bank has to wait: until everything that the bank has issued is visible at system scope, while
the bank's loads are at their limit, while a command that reached the Plinth before it has not been executed, and where a word
of a later context has reached the Plinth in this cycle. -/
def sysWaits (s : State) (e : Env) : Bool :=
  !released s e 5 || loadsFull s e || !s.cmds.isEmpty || !mayReach s (sysPlace e)

/-- A system word of a bank. -/
def sysWord (i : Instr) (s : State) (body : Env → BankId → Eff) : Out :=
  runWord i s fun e =>
    match e.agent with
    | .bank b => if sysWaits s e then .wait else body e b
    | _ => .wait

/-- A system instruction is issued and reaches the Plinth: its number, and the state in which its D is pending and it counts as
an outstanding load. What walks have found for it serves it alone (R386). -/
def issueSys (s : State) (e : Env) (b : BankId) (d : Fin 32) : Nat × State :=
  let s1 := modCore { reached s (sysPlace e) with nextId := s.nextId + 1, walked := s.walked.filter (·.1 != .system e.core) } e.core fun k => modBank k b fun x =>
    setPending { x with ld := x.ld + 1, sysq := x.sysq ++ [(s.nextId, d, none)] } d
  (s.nextId, advance e false s1)

/-- A system instruction that the Plinth answers at once. -/
def sysDone (s : State) (e : Env) (b : BankId) (d : Fin 32) (v : DWord) : Eff :=
  let r := issueSys s e b d
  .done (answer r.2 (.task e.core b r.1) v)

/-- A system instruction that the Plinth answers in its own time. -/
def sysAsk (s : State) (e : Env) (b : BankId) (d : Fin 32) (ask : State → Asker → State) : Eff :=
  let r := issueSys s e b d
  .done (ask r.2 (.task e.core b r.1))

/-- ILLEGAL_OPERAND of a system word. -/
def sysBad (e : Env) : Eff := .trap .illegalOperand e.who.pc 0

/-- The context that an operand names. -/
def ctxOperand (s : State) (v : DWord) : Option Ctx := if v.toNat < 1024 then ctxBy s v.toNat else none

/-- The pieces of a range of the issuing context, or what stops at its first bad address. The save and the restore of a context
also reach versioned windows (R132). -/
def sysSpan (s : State) (e : Env) (image : Bool) (want : Want) (va n : Nat) : List Piece ⊕ EngFault :=
  spanFrom s (.system e.core) e.core e.launch.ctx
    (fun _ r loc => allowed s want loc (if image then { r with ver := false } else r)) (n / 65536 + 2) va n

/-- Bytes of the issuing context read for a system word, in a slot of its partition (R434). -/
def sysRead (s : State) (e : Env) (image : Bool) (va n : Nat) : List Byte ⊕ EngFault :=
  match sysSpan s e image .read va n with
  | .inr f => .inr f
  | .inl xs => match piecesHeld s e.core e.launch.ctx xs with
    | some f => .inr f
    | none => .inl (xs.flatMap fun x => memGetN s.mem x.loc x.len)

/-- Bytes written to the issuing context by a system word; it waits while a class in session holds one of their places
(R185), while a bank owes a turn to a woken request (R135), and for a slot of its partition (R434). -/
def sysWrite (s : State) (e : Env) (image : Bool) (va : Nat) (bs : List Byte) : State ⊕ EngFault :=
  match sysSpan s e image .write va bs.length with
  | .inr f => .inr f
  | .inl xs =>
    let ys := xs.map fun x => (x.loc, x.len)
    match xs.find? fun x => guardStands s e.launch.ctx x.loc with
    | some x => .inr ⟨.boundary, BitVec.ofNat 64 x.va, 0, .fault⟩
    | none =>
      if slotShut s e.core e.launch.ctx xs || xs.any (fun x => rangeOwes s x.loc x.len) || outsideHeld s ys then
        .inr ⟨.protection, 0, 0, .busy⟩
      else .inl (writeSpan s ys bs)

/-- What an address that stops a system word makes of it: a fault, a walk that it waits for, or a wait. -/
def sysStop (s : State) (e : Env) (f : EngFault) : Eff :=
  match f.hold with
  | .fault => .trap f.code f.addr f.extra
  | .miss => .done (addMiss s (.system e.core) e.who e.launch.ctx f.addr.toNat)
  | .busy => .wait

/-- ALIGN of an address of a system word. -/
def sysAlign (va : DWord) : Eff := .trap .align va 0

/-! ## Launches (R406 to R408) -/

/-- CTXSV (R408). -/
def execCtxsv (f : RegForm) (s : State) : Out :=
  sysWord (.ctxsv f) s fun e b =>
    let dst := srcVal s e f.b
    match ctxOperand s (srcVal s e f.a) with
    | none => sysBad e
    | some x => match x.held with
      | none => sysBad e
      | some h =>
        if dst.toNat % 4096 ≠ 0 then sysAlign dst
        else match sysWrite s e true dst.toNat (areaBytes x h) with
          | .inr t => sysStop s e t
          | .inl s1 => sysDone (keepStreams s1 h) e b (sysDest f) (BitVec.ofNat 64 (areaLen h.cores.length))

/-- CTXLD (R407). -/
def execCtxld (f : RegForm) (s : State) : Out :=
  sysWord (.ctxld f) s fun e b =>
    let src := srcVal s e f.b
    match ctxOperand s (srcVal s e f.a) with
    | none => sysBad e
    | some x => match x.held with
      | none => sysBad e
      | some h =>
        if !mayRestore x then sysBad e
        else if src = 0 then sysAsk s e b (sysDest f) fun s a => askRestore s x.n a
        else if src.toNat % 4096 ≠ 0 then sysAlign src
        else match sysRead s e true src.toNat 4096 with
          | .inr t => sysStop s e t
          | .inl hd =>
            if !headerFits h hd then sysBad e
            else match sysRead s e true src.toNat (areaLen h.cores.length) with
              | .inr t => sysStop s e t
              | .inl bs => sysAsk s e b (sysDest f) fun s a => restoreFrom s x h bs a

/-- A FREEZE or an RMARK, with the level of the latter. -/
def stopWord (s : State) (e : Env) (b : BankId) (f : RegForm) (k : Option Nat) : Eff :=
  match ctxOperand s (srcVal s e f.a) with
  | none => sysBad e
  | some x =>
    let q := (srcVal s e f.b).toNat
    if q > 15 then sysBad e
    else
      let r := issueSys s e b (sysDest f)
      match stopOp r.2 x (Fin.ofNat 16 q) k (some e.launch.id) (.task e.core b r.1) with
      | .nothing => sysDone s e b (sysDest f) 0
      | .stopping s1 => .done s1
      | .wait => .wait
      | .bad => sysBad e

/-- FREEZE (R396, R406). -/
def execFreeze (f : RegForm) (s : State) : Out := sysWord (.freeze f) s fun e b => stopWord s e b f none

/-- RMARK (R397, R406). -/
def execRmark (f : RegForm) (s : State) : Out := sysWord (.rmark f) s fun e b => stopWord s e b f (some (srcVal s e f.c).toNat)

/-! ## Translation, configuration, journal (R409 to R412) -/

/-- TLBI (R387, R409). -/
def execTlbi (f : RegForm) (s : State) : Out :=
  sysWord (.tlbi f) s fun e b =>
    let mode := (f.x.extractLsb' 0 2).toNat
    let ctx := srcVal s e f.a
    if mode ≠ 2 ∧ (ctxOperand s ctx).isNone then sysBad e
    else sysDone (tlbiOp s mode ctx.toNat (srcVal s e f.b).toNat) e b 0 0

/-- CFGLD (R410): it acts from its completion, which the bank's earlier words come before (R403). -/
def execCfgld (f : RegForm) (s : State) : Out :=
  sysWord (.cfgld f) s fun e b =>
    let item := (srcVal s e f.a).toNat
    let v := (srcVal s e f.b).toNat
    match cfgOp s item v with
    | some (old, s1) =>
      if (at' (coreAt s e.core).banks b).sysq.isEmpty then sysDone s1 e b (sysDest f) old
      else sysAsk s e b (sysDest f) fun s a => { s with sysWork := s.sysWork ++ [(a, .cfg item v)] }
    | none => sysBad e

/-- JRNL (R411). -/
def execJrnl (f : RegForm) (s : State) : Out :=
  sysWord (.jrnl f) s fun e b =>
    let src := srcVal s e f.a
    let tag := (srcVal s e f.b).toNat
    if tag > 0xFFFF then sysBad e
    else if src.toNat % 8 ≠ 0 then sysAlign src
    else match sysRead s e false src.toNat 40 with
      | .inr t => sysStop s e t
      | .inl bs =>
        sysDone (journal s 0xF0 .done 2 e.launch.ctx 0 (BitVec.ofNat 32 tag) 0 (dwordsOf bs)) e b (sysDest f)
          (BitVec.ofNat 64 s.fzseq)

/-- Whether a sequence number names an entry that a command port has routed to system code and that has no result yet. -/
def awaitsResult (s : State) (seq : Nat) : Bool :=
  match entryBy s seq with
  | some z => z.code == 0x2F && z.state == .accepted && s.sysWork.contains (.port seq, .sysrt)
  | none => false

/-- SRET (R412): a release at system scope, the result word, and the end of the task as DONE ends it (R311), once the words that
its bank issued before it have completed (R403). -/
def execSret (f : RegForm) (s : State) : Out :=
  sysWord (.sret f) s fun e b =>
    let seq := (srcVal s e f.a).toNat
    let w := srcVal s e f.b
    if !awaitsResult s seq then sysBad e
    else if !(at' (coreAt s e.core).banks b).sysq.isEmpty then .wait
    else
      let s1 := settleEntry { reached s (sysPlace e) with sysWork := s.sysWork.erase (.port seq, .sysrt) } seq
        (if field w 63 56 = 0 then .done else .failed) w []
      let s2 := match (taskOf s1 e.core).bind (·.chain) with
        | some h => sendChainDone s1 h
        | none => s1
      .done (endTask s2 e.core)

/-! ## Semaphore, service, guards (R413 to R415) -/

/-- SEMA (R413). -/
def execSema (f : RegForm) (s : State) : Out :=
  sysWord (.sema f) s fun e b =>
    match semaOp s (.sys e.launch.ctx) (srcVal s e f.a).toNat with
    | some (v, s1) => sysDone s1 e b (sysDest f) v
    | none => sysBad e

/-- HALTC (R414). -/
def execHaltc (f : RegForm) (s : State) : Out :=
  sysWord (.haltc f) s fun e b =>
    let c := (srcVal s e f.a).toNat
    let op := (srcVal s e f.b).toNat
    if c > 255 ∨ op > 1 then sysBad e
    else sysAsk s e b (sysDest f) fun s a => haltOp s (Fin.ofNat 256 c) op a

/-- PARTSET (R415): it is refused with PRIVILEGE to an issuer that does not hold CPSEM. -/
def execPartset (f : RegForm) (s : State) : Out :=
  sysWord (.partset f) s fun e b =>
    let c := (srcVal s e f.a).toNat
    let p := srcVal s e f.b
    if c > 255 ∨ p.toNat > 255 then sysBad e
    else if s.cpsem ≠ .sys e.launch.ctx then .trap .privilege e.who.pc 0
    else sysAsk s e b (sysDest f) fun s a => guardOp s (Fin.ofNat 256 c) (p.setWidth 8) a

/-! ## Trust (R416, R417) -/

/-- ATTEST (R416). -/
def execAttest (f : RegForm) (s : State) : Out :=
  sysWord (.attest f) s fun e b =>
    let dst := srcVal s e f.b
    let obj := (srcVal s e f.c).toNat
    match ctxBy s e.launch.ctx with
    | none => sysBad e
    | some x =>
      let hash : Option (List Byte) :=
        if obj = 0 then some []
        else (x.objs.find? (·.va == obj)).map fun o => sha384 o.manifest
      match hash with
      | none => sysBad e
      | some hm =>
        if dst.toNat % 64 ≠ 0 then sysAlign dst
        else match sysRead s e false (srcVal s e f.a).toNat 64 with
          | .inr t => sysStop s e t
          | .inl nonce => match sysWrite s e false dst.toNat (reportBytes s nonce hm x (dieOf e.core)) with
            | .inr t => sysStop s e t
            | .inl s1 => sysDone s1 e b 0 0

/-- PGVER (R417). A page that cannot be checked raises its fault: TRANSLATION with the entry at which its walk failed, PROTECTION
where its leaf lacks EX (R385, R391). -/
def execPgver (f : RegForm) (s : State) : Out :=
  sysWord (.pgver f) s fun e b =>
    let va := srcVal s e f.a
    let page := va.toNat / 65536 * 65536
    match ctxOperand s (srcVal s e f.b) with
    | none => sysBad e
    | some x => match objectAt x page with
      | none => sysBad e
      | some o =>
        if va.toNat % 65536 ≠ 0 then sysAlign va
        else match pageOp s x o page with
          | some (v, s1) => sysDone s1 e b (sysDest f) v
          | none => match codeFault s x.n page with
            | some (code, extra) => .trap code va extra
            | none => .wait

end Sys2Proof.Machine
end

