-- ==== Sys2Proof/Machine/Dispatch.lean ====
section
/-! DEFINITION. One arm for each constructor of `Instr`: a direct call of its meaning. -/

namespace Sys2Proof.Machine
open Sys2Proof

def exec (i : Instr) (s : State) : Host.Outcome State Fault Refusal :=
  match i with
  | .add f => Sys2Proof.Machine.execAdd f s
  | .addi f => Sys2Proof.Machine.execAddi f s
  | .sub f => Sys2Proof.Machine.execSub f s
  | .mul f => Sys2Proof.Machine.execMul f s
  | .mulh f => Sys2Proof.Machine.execMulh f s
  | .muli f => Sys2Proof.Machine.execMuli f s
  | .div f => Sys2Proof.Machine.execDiv f s
  | .rem f => Sys2Proof.Machine.execRem f s
  | .and f => Sys2Proof.Machine.execAnd f s
  | .andi f => Sys2Proof.Machine.execAndi f s
  | .or f => Sys2Proof.Machine.execOr f s
  | .ori f => Sys2Proof.Machine.execOri f s
  | .xor f => Sys2Proof.Machine.execXor f s
  | .xori f => Sys2Proof.Machine.execXori f s
  | .andn f => Sys2Proof.Machine.execAndn f s
  | .shl f => Sys2Proof.Machine.execShl f s
  | .shli f => Sys2Proof.Machine.execShli f s
  | .shr f => Sys2Proof.Machine.execShr f s
  | .shri f => Sys2Proof.Machine.execShri f s
  | .sar f => Sys2Proof.Machine.execSar f s
  | .sari f => Sys2Proof.Machine.execSari f s
  | .min f => Sys2Proof.Machine.execMin f s
  | .max f => Sys2Proof.Machine.execMax f s
  | .clz f => Sys2Proof.Machine.execClz f s
  | .popc f => Sys2Proof.Machine.execPopc f s
  | .bfx f => Sys2Proof.Machine.execBfx f s
  | .bfi f => Sys2Proof.Machine.execBfi f s
  | .cmp f => Sys2Proof.Machine.execCmp f s
  | .cmpi f => Sys2Proof.Machine.execCmpi f s
  | .mov f => Sys2Proof.Machine.execMov f s
  | .movi f => Sys2Proof.Machine.execMovi f s
  | .fadd f => Sys2Proof.Machine.execFadd f s
  | .fsub f => Sys2Proof.Machine.execFsub f s
  | .fmul f => Sys2Proof.Machine.execFmul f s
  | .fma f => Sys2Proof.Machine.execFma f s
  | .fmin f => Sys2Proof.Machine.execFmin f s
  | .fmax f => Sys2Proof.Machine.execFmax f s
  | .fcmp f => Sys2Proof.Machine.execFcmp f s
  | .fsgn f => Sys2Proof.Machine.execFsgn f s
  | .frcp f => Sys2Proof.Machine.execFrcp f s
  | .frsq f => Sys2Proof.Machine.execFrsq f s
  | .fexp2 f => Sys2Proof.Machine.execFexp2 f s
  | .flog2 f => Sys2Proof.Machine.execFlog2 f s
  | .frnd f => Sys2Proof.Machine.execFrnd f s
  | .cvt f => Sys2Proof.Machine.execCvt f s
  | .cvts f => Sys2Proof.Machine.execCvts f s
  | .fcls f => Sys2Proof.Machine.execFcls f s
  | .selt f => Sys2Proof.Machine.execSelt f s
  | .steer f => Sys2Proof.Machine.execSteer f s
  | .gate f => Sys2Proof.Machine.execGate f s
  | .merge f => Sys2Proof.Machine.execMerge f s
  | .emit f => Sys2Proof.Machine.execEmit f s
  | .mark f => Sys2Proof.Machine.execMark f s
  | .acc f => Sys2Proof.Machine.execAcc f s
  | .tagset f => Sys2Proof.Machine.execTagset f s
  | .tagchk f => Sys2Proof.Machine.execTagchk f s
  | .pushp f => Sys2Proof.Machine.execPushp f s
  | .popp f => Sys2Proof.Machine.execPopp f s
  | .bnd f => Sys2Proof.Machine.execBnd f s
  | .sphdr f => Sys2Proof.Machine.execSphdr f s
  | .isect f => Sys2Proof.Machine.execIsect f s
  | .cturn f => Sys2Proof.Machine.execCturn f s
  | .void f => Sys2Proof.Machine.execVoid f s
  | .ld f => Sys2Proof.Machine.execLd f s
  | .ldi f => Sys2Proof.Machine.execLdi f s
  | .st f => Sys2Proof.Machine.execSt f s
  | .sti f => Sys2Proof.Machine.execSti f s
  | .ldv f => Sys2Proof.Machine.execLdv f s
  | .stv f => Sys2Proof.Machine.execStv f s
  | .advv f => Sys2Proof.Machine.execAdvv f s
  | .reclv f => Sys2Proof.Machine.execReclv f s
  | .atom f => Sys2Proof.Machine.execAtom f s
  | .cas f => Sys2Proof.Machine.execCas f s
  | .append f => Sys2Proof.Machine.execAppend f s
  | .ticket f => Sys2Proof.Machine.execTicket f s
  | .gath f => Sys2Proof.Machine.execGath f s
  | .scat f => Sys2Proof.Machine.execScat f s
  | .fence f => Sys2Proof.Machine.execFence f s
  | .shape f => Sys2Proof.Machine.execShape f s
  | .br f => Sys2Proof.Machine.execBr f s
  | .brc f => Sys2Proof.Machine.execBrc f s
  | .call f => Sys2Proof.Machine.execCall f s
  | .ret f => Sys2Proof.Machine.execRet f s
  | .jtab f => Sys2Proof.Machine.execJtab f s
  | .tend f => Sys2Proof.Machine.execTend f s
  | .done f => Sys2Proof.Machine.execDone f s
  | .tpost f => Sys2Proof.Machine.execTpost f s
  | .msend f => Sys2Proof.Machine.execMsend f s
  | .wait f => Sys2Proof.Machine.execWait f s
  | .bara f => Sys2Proof.Machine.execBara f s
  | .barw f => Sys2Proof.Machine.execBarw f s
  | .gbar f => Sys2Proof.Machine.execGbar f s
  | .mfs f => Sys2Proof.Machine.execMfs f s
  | .mts f => Sys2Proof.Machine.execMts f s
  | .range f => Sys2Proof.Machine.execRange f s
  | .trap f => Sys2Proof.Machine.execTrap f s
  | .nop f => Sys2Proof.Machine.execNop f s
  | .seqwt f => Sys2Proof.Machine.execSeqwt f s
  | .cntrd f => Sys2Proof.Machine.execCntrd f s
  | .sspec f => Sys2Proof.Machine.execSspec f s
  | .sarm f => Sys2Proof.Machine.execSarm f s
  | .copy f => Sys2Proof.Machine.execCopy f s
  | .copyc f => Sys2Proof.Machine.execCopyc f s
  | .tld f => Sys2Proof.Machine.execTld f s
  | .tst f => Sys2Proof.Machine.execTst f s
  | .tclr f => Sys2Proof.Machine.execTclr f s
  | .mldb f => Sys2Proof.Machine.execMldb f s
  | .spld f => Sys2Proof.Machine.execSpld f s
  | .mma f => Sys2Proof.Machine.execMma f s
  | .mnorm f => Sys2Proof.Machine.execMnorm f s
  | .gload f => Sys2Proof.Machine.execGload f s
  | .gbind f => Sys2Proof.Machine.execGbind f s
  | .gfree f => Sys2Proof.Machine.execGfree f s
  | .gqry f => Sys2Proof.Machine.execGqry f s
  | .skbld f => Sys2Proof.Machine.execSkbld f s
  | .skxch f => Sys2Proof.Machine.execSkxch f s
  | .sksub f => Sys2Proof.Machine.execSksub f s
  | .skpeel f => Sys2Proof.Machine.execSkpeel f s
  | .skrecon f => Sys2Proof.Machine.execSkrecon f s
  | .skfix f => Sys2Proof.Machine.execSkfix f s
  | .gstart f => Sys2Proof.Machine.execGstart f s
  | .gstop f => Sys2Proof.Machine.execGstop f s
  | .gskip f => Sys2Proof.Machine.execGskip f s
  | .gmask f => Sys2Proof.Machine.execGmask f s
  | .gfeed f => Sys2Proof.Machine.execGfeed f s
  | .gstat f => Sys2Proof.Machine.execGstat f s
  | .ctxsv f => Sys2Proof.Machine.execCtxsv f s
  | .ctxld f => Sys2Proof.Machine.execCtxld f s
  | .freeze f => Sys2Proof.Machine.execFreeze f s
  | .rmark f => Sys2Proof.Machine.execRmark f s
  | .tlbi f => Sys2Proof.Machine.execTlbi f s
  | .cfgld f => Sys2Proof.Machine.execCfgld f s
  | .jrnl f => Sys2Proof.Machine.execJrnl f s
  | .sema f => Sys2Proof.Machine.execSema f s
  | .sret f => Sys2Proof.Machine.execSret f s
  | .haltc f => Sys2Proof.Machine.execHaltc f s
  | .attest f => Sys2Proof.Machine.execAttest f s
  | .pgver f => Sys2Proof.Machine.execPgver f s
  | .partset f => Sys2Proof.Machine.execPartset f s
  | .chtabWrite c n v => Sys2Proof.Machine.execChtabWrite c n v s
  | .chtabUpdate c n => Sys2Proof.Machine.execChtabUpdate c n s
  | .flagsClear c v => Sys2Proof.Machine.execFlagsClear c v s
  | .amaxWrite c v => Sys2Proof.Machine.execAmaxWrite c v s
  | .cntWrite c v => Sys2Proof.Machine.execCntWrite c v s
  | .sksizeWrite c r v => Sys2Proof.Machine.execSksizeWrite c r v s
  | .idxdropRead c b d => Sys2Proof.Machine.execIdxdropRead c b d s
  | .pstatRead c p b d => Sys2Proof.Machine.execPstatRead c p b d s
  | .skstatRead c b d => Sys2Proof.Machine.execSkstatRead c b d s
  | .registerWrite c r v => Sys2Proof.Machine.execRegisterWrite c r v s
  | .memPropagate acc => Sys2Proof.Machine.execMemPropagate acc s
  | .memPerform acc => Sys2Proof.Machine.execMemPerform acc s
  | .bankWaitWake b => Sys2Proof.Machine.execBankWaitWake b s
  | .waitStoreResend b => Sys2Proof.Machine.execWaitStoreResend b s
  | .stvDeadlock b => Sys2Proof.Machine.execStvDeadlock b s
  | .mtAccept c m bank => Sys2Proof.Machine.execMtAccept c m bank s
  | .mtResponse c m port => Sys2Proof.Machine.execMtResponse c m port s
  | .pageWalk die => Sys2Proof.Machine.execPageWalk die s
  | .peFire c pe => Sys2Proof.Machine.execPeFire c pe s
  | .routerHop c r port vc => Sys2Proof.Machine.execRouterHop c r port vc s
  | .controlHop c r port sub => Sys2Proof.Machine.execControlHop c r port sub s
  | .ctrlPost c k => Sys2Proof.Machine.execCtrlPost c k s
  | .ringStep c n => Sys2Proof.Machine.execRingStep c n s
  | .queueEnlarge c => Sys2Proof.Machine.execQueueEnlarge c s
  | .agEmit c k => Sys2Proof.Machine.execAgEmit c k s
  | .agWalkEnd c k => Sys2Proof.Machine.execAgWalkEnd c k s
  | .tapItem c p => Sys2Proof.Machine.execTapItem c p s
  | .parseStep c p => Sys2Proof.Machine.execParseStep c p s
  | .recoveryDiscard c p => Sys2Proof.Machine.execRecoveryDiscard c p s
  | .actionFire c p => Sys2Proof.Machine.execActionFire c p s
  | .gateRelease c p => Sys2Proof.Machine.execGateRelease c p s
  | .messageAccept src => Sys2Proof.Machine.execMessageAccept src s
  | .taskStart c => Sys2Proof.Machine.execTaskStart c s
  | .continuationPost c n => Sys2Proof.Machine.execContinuationPost c n s
  | .barrierRelease c b => Sys2Proof.Machine.execBarrierRelease c b s
  | .engineCommandAccept c n => Sys2Proof.Machine.execEngineCommandAccept c n s
  | .engineCommandStart c id => Sys2Proof.Machine.execEngineCommandStart c id s
  | .engineCommandComplete c id => Sys2Proof.Machine.execEngineCommandComplete c id s
  | .followOnMmaIssue c id => Sys2Proof.Machine.execFollowOnMmaIssue c id s
  | .vectorAccept c h => Sys2Proof.Machine.execVectorAccept c h s
  | .vectorResult c h => Sys2Proof.Machine.execVectorResult c h s
  | .rangeServe die q => Sys2Proof.Machine.execRangeServe die q s
  | .stageAppend launch c => Sys2Proof.Machine.execStageAppend launch c s
  | .sessionPair die slot peer => Sys2Proof.Machine.execSessionPair die slot peer s
  | .sketchRound die peer => Sys2Proof.Machine.execSketchRound die peer s
  | .sessionFallback die peer => Sys2Proof.Machine.execSessionFallback die peer s
  | .sessionAbort die => Sys2Proof.Machine.execSessionAbort die s
  | .recordCandidate ctx q => Sys2Proof.Machine.execRecordCandidate ctx q s
  | .dependenceResolve ctx q => Sys2Proof.Machine.execDependenceResolve ctx q s
  | .admitLaunch part => Sys2Proof.Machine.execAdmitLaunch part s
  | .launchLoad launch => Sys2Proof.Machine.execLaunchLoad launch s
  | .teamEnd launch c => Sys2Proof.Machine.execTeamEnd launch c s
  | .statusWrite launch => Sys2Proof.Machine.execStatusWrite launch s
  | .statusHeldWrite ctx q => Sys2Proof.Machine.execStatusHeldWrite ctx q s
  | .launchTeardown launch => Sys2Proof.Machine.execLaunchTeardown launch s
  | .coreReturn c => Sys2Proof.Machine.execCoreReturn c s
  | .watchdog launch => Sys2Proof.Machine.execWatchdog launch s
  | .elementDrainFreeze c e => Sys2Proof.Machine.execElementDrainFreeze c e s
  | .drainComplete launch => Sys2Proof.Machine.execDrainComplete launch s
  | .drainTimeout launch => Sys2Proof.Machine.execDrainTimeout launch s
  | .freezeComplete launch => Sys2Proof.Machine.execFreezeComplete launch s
  | .restoreResume ctx => Sys2Proof.Machine.execRestoreResume ctx s
  | .pageCheckComplete ctx => Sys2Proof.Machine.execPageCheckComplete ctx s
  | .rmaWrite job va data => Sys2Proof.Machine.execRmaWrite job va data s
  | .rmaRead job va n => Sys2Proof.Machine.execRmaRead job va n s
  | .unsupportedPacket => Sys2Proof.Machine.execUnsupportedPacket s
  | .remoteAck c id r => Sys2Proof.Machine.execRemoteAck c id r s
  | .commandAccept port header d0 d1 d2 d3 d4 => Sys2Proof.Machine.execCommandAccept port header d0 d1 d2 d3 d4 s
  | .cmdNop k => Sys2Proof.Machine.execCmdNop k s
  | .cmdSema k => Sys2Proof.Machine.execCmdSema k s
  | .cmdDevid k => Sys2Proof.Machine.execCmdDevid k s
  | .cmdAttest k => Sys2Proof.Machine.execCmdAttest k s
  | .cmdJread k => Sys2Proof.Machine.execCmdJread k s
  | .cmdDevstat k => Sys2Proof.Machine.execCmdDevstat k s
  | .cmdCtxnew k => Sys2Proof.Machine.execCmdCtxnew k s
  | .cmdCtxset k => Sys2Proof.Machine.execCmdCtxset k s
  | .cmdCtxdel k => Sys2Proof.Machine.execCmdCtxdel k s
  | .cmdMap k => Sys2Proof.Machine.execCmdMap k s
  | .cmdPtset k => Sys2Proof.Machine.execCmdPtset k s
  | .cmdQnew k => Sys2Proof.Machine.execCmdQnew k s
  | .cmdQset k => Sys2Proof.Machine.execCmdQset k s
  | .cmdEnq k => Sys2Proof.Machine.execCmdEnq k s
  | .cmdCancel k => Sys2Proof.Machine.execCmdCancel k s
  | .cmdClsreg k => Sys2Proof.Machine.execCmdClsreg k s
  | .cmdClsfree k => Sys2Proof.Machine.execCmdClsfree k s
  | .cmdTlbi k => Sys2Proof.Machine.execCmdTlbi k s
  | .cmdFreeze k => Sys2Proof.Machine.execCmdFreeze k s
  | .cmdDrain k => Sys2Proof.Machine.execCmdDrain k s
  | .cmdRestore k => Sys2Proof.Machine.execCmdRestore k s
  | .cmdCfg k => Sys2Proof.Machine.execCmdCfg k s
  | .cmdPart k => Sys2Proof.Machine.execCmdPart k s
  | .cmdSlots k => Sys2Proof.Machine.execCmdSlots k s
  | .cmdHaltc k => Sys2Proof.Machine.execCmdHaltc k s
  | .cmdKeyset k => Sys2Proof.Machine.execCmdKeyset k s
  | .cmdFwupd k => Sys2Proof.Machine.execCmdFwupd k s
  | .cmdJobset k => Sys2Proof.Machine.execCmdJobset k s
  | .cmdPeerset k => Sys2Proof.Machine.execCmdPeerset k s
  | .cmdSysrt k => Sys2Proof.Machine.execCmdSysrt k s
  | .cpsemLeaseExpiry => Sys2Proof.Machine.execCpsemLeaseExpiry s
  | .linkRetryExhausted acc => Sys2Proof.Machine.execLinkRetryExhausted acc s
  | .scrub place found => Sys2Proof.Machine.execScrub place found s
  | .thermalStepDown die temp => Sys2Proof.Machine.execThermalStepDown die temp s
  | .thermalStepUp die temp => Sys2Proof.Machine.execThermalStepUp die temp s
  | .thermalTrip die temp => Sys2Proof.Machine.execThermalTrip die temp s
  | .powerOnReset => Sys2Proof.Machine.execPowerOnReset s
  | .bringUpStep ok => Sys2Proof.Machine.execBringUpStep ok s
  | .coreResetDone c => Sys2Proof.Machine.execCoreResetDone c s

end Sys2Proof.Machine
end

