-- ==== Sys2Proof/Machine/Turn.lean ====
section
/-! DEFINITION. The move whose turn it is, and placing a word where the next step finds it. -/

namespace Sys2Proof.Machine
open Sys2Proof

/-! ## Moves -/

/-- An agent sets out to run its next word: the core has moved in this cycle where the word can take its step, not where it is
still held (R86; log entry 25). -/
def setOut (s : State) (c : CoreId) (f : Focus) (a : Agent) (w : DWord) : State :=
  if wordSteps s c f a (some w) then active s c else s

/-- The task in focus fetches: a word to run, or the state that the fetch leaves. -/
def fetchFor (s : State) (c : CoreId) : State × Option Instr :=
  match (coreAt s c).task, holderOf s c with
  | some t, some l =>
    if !maySteps s l then (s, none)
    else match fetchTask s c l t with
      | .word w => match decodeWord w with
        | some i => (setOut s c (.task c) (.bank t.bank) w, some i)
        | none => (raise .illegalOp (taskWho c l t w) (t.pc) 0 s, none)
      | .trap code extra => (raiseRead code (taskWho c l t 0) (t.pc) extra l.ctx s, none)
      | .wait s' => (s', none)
  | _, _ => (s, none)

/-- The instruction that a move runs, and the state in which it runs. An event is itself; a task's word is fetched;
a node, an action and the command ports hand over their next word or command. A command of no known code fails in its turn (R423). -/
def beginMove (m : Move) (s : State) : State × Option Instr :=
  match m with
  | .event i => ({ s with focus := none }, some i)
  | .task c => fetchFor { s with focus := some (.task c) } c
  | .node c pe =>
    let s' := { s with focus := some (.node c pe) }
    match nodeWord s' c pe with
    | some w => (setOut s' c (.node c pe) (.node pe) w, decodeWord w)
    | none => (s', none)
  | .action c p =>
    if actionTurn s c p then
      let s' := modCore { s with focus := some (.action c p) } c fun k => { k with actTurn := p }
      match actionWord s' c p with
      | some w => (setOut s' c (.action c p) (.parser p) w, decodeWord w)
      | none => (s', none)
    else ({ s with focus := none }, none)
  | .command =>
    let s' := { s with focus := none }
    match s.cmds with
    | [] => (s', none)
    | (code, k) :: rest => match decodeCommand code k with
      | some i => (s', some i)
      | none => (finishCmd { s' with cmds := rest } k.seq .badarg 0 [], none)

/-- The move of this tick, and the state once its time has come: the agenda's first, or the free one (log entry 1). -/
def takeMove (s : State) : Move × State :=
  let s' := { s with ticks := s.ticks + 1, now := s.now + Config.elapse s.ticks }
  match s.agenda with
  | m :: ms => (m, { s' with agenda := ms })
  | [] => (Config.freeMove s.ticks, s')

/-! ## Placing a word where the next step finds it -/

/-- The launch record of the launch that stands ready for a placed word: one level of 32 bits, team level 1. -/
def placedRecord : Vector DWord 16 := put (Vector.replicate 16 0) (4 : Fin 16) (BitVec.ofNat 64 (2 ^ 36 + 32))

/-- The launch for a placed word, on core 0. -/
def placedLaunch : Launch :=
  ⟨0, 0, 0, 0, placedRecord, 1, [0], .running, none, 0, none, [], 1, 0, [], [], 0, [], []⟩

/-- The context of that launch. -/
def placedCtx (sys : Bool) : Ctx :=
  ⟨0, sys, 0, 0, 0, 0, 0, 0, 256, 6, 1, 2, Vector.replicate 16 Queue.zero, [], [], 0, none, none, none, [], [(0x10000, 0x10000)],
    [], 0⟩

/-- Core 0 with the node, parser or task that runs the word. -/
def placedCore (k : Core) (w : DWord) (i : Instr) : Core × Move :=
  let k := { k with holder := some 0, inTeam := true }
  if i.wf .system then
    ({ k with task := some ⟨0, 0x10000, 0, 0, none⟩ }, .task 0)
  else if i.wf .node then
    let n : Node := ⟨0, [w], Vector.replicate 8 0, Vector.replicate 8 .raw, Vector.replicate 8 (0, .raw), 0, 0, false,
      false, false, Vector.replicate 4 Place.zero,
      some ⟨0, [], 0, 0, none, [], [], [], [], [], false, [], 0, [], Vector.replicate 8 0, Vector.replicate 8 .raw, 0⟩,
      Shaper.zero, [], false⟩
    ({ k with nodes := [n] }, .node 0 0)
  else
    ({ k with
        grammar := some ⟨false, false, 1, [], [], [], none, [w], []⟩
        parsers := put k.parsers 0 { Parser.zero with acts := [⟨0, [], 1⟩], run := some ⟨0, 0, 1, false, 0⟩ } },
      .action 0 0)

/-- The state with a word where the next step finds it: a launch of one core stands ready, the word lies at 0x10000
on a checked code page with its translation cached (or in the node, or the action, where the word runs in no task),
and the agenda names that agent. It stands for the load of a program (log entry 11). -/
def placeWord (s : State) (w : DWord) : State :=
  match decodeWord w with
  | none => { s with agenda := [.command] }
  | some i =>
    let p := placedCore (coreAt s 0) w i
    let s1 := modCore s 0 fun _ => p.1
    let s2 := modDie s1 0 fun d => { d with slotTable := 0, tlb := ⟨0, 0x10000, 16, 0x10000, ⟨true, true, true, false, false⟩⟩ :: d.tlb }
    { s2 with
      ctxs := [placedCtx true]
      launches := [placedLaunch]
      mem := memSetN s2.mem 0x10000 (bytesLE 8 w.toNat)
      agenda := [p.2] }

end Sys2Proof.Machine
end

