-- ==== Sys2Proof/Machine/Step.lean ====
section
/-! DEFINITION. One step of the package: the move whose turn it is, in the state once its time has come. -/

namespace Sys2Proof.Machine
open Sys2Proof

/-- The step. An unpowered package makes only the power-on (R439, R440). -/
def step (s : State) : Host.Outcome State Fault Refusal :=
  match takeMove s with
  | (m, s1) =>
    if s1.powered = false ∧ m ≠ .event .powerOnReset then .fault .noPower
    else match beginMove m s1 with
      | (s2, some i) => Sys2Proof.Machine.exec i s2
      | (s2, none) => .next s2

/-- The state with an instruction word where the next step finds it. -/
def State.withFetchWord (s : State) (_nbits w : Nat) : State := placeWord s (dwordLE (bytesLE 8 w))

end Sys2Proof.Machine
end

