-- ==== Sys2Proof/Safety.lean ====
section
/-! DEFINITION. The terms in which the claims are put: good states, when a word is ready to run, what a word that
computes a value leaves, and what a step leaves alone. -/

namespace Sys2Proof.Machine
open Sys2Proof

/-! ## Invariants -/

/-- The invariant that every step keeps: memory is canonical (equal memories are equal lists). -/
def State.memOk (s : State) : Prop := Memory.wf s.mem = true

/-! ## Steps -/

/-- The state in which the first move of the agenda is made: a tick has passed, and `f` is the agent in focus. -/
def atMove (s : State) (rest : List Move) (f : Option Focus) : State :=
  { s with agenda := rest, ticks := s.ticks + 1, now := s.now + Config.elapse s.ticks, focus := f }

/-! ## Words -/

/-- The word may run now for the agent of `e`: the agent is in focus, nothing holds it at issue, and the word passes the
checks of R225. -/
def MayRun (s : State) (i : Instr) (e : Env) : Prop :=
  envOf s i = some e ∧ heldAtIssue s e = false ∧ wordFault s e i = none

/-- The word runs and leaves `t`. -/
def Runs (s : State) (e : Env) (i : Instr) (t : State) : Prop := MayRun s i e → exec i s = .next t

/-- The word raises a fault with the given ADDR and extra state, and has no other effect. -/
def Traps (s : State) (e : Env) (i : Instr) (code : FaultCode) (addr extra : DWord) : Prop :=
  MayRun s i e → exec i s = .next (raise code e.who addr extra s)

/-- No value that the operands name is still on its way to an l register (R285). -/
def Here (s : State) (e : Env) (os : List Operand) : Prop := os.any (lPending s e) = false

/-- A word with these sources is suppressed: one of them is void (R77), or the predicate is false (R78). -/
def suppressed (s : State) (e : Env) (srcs : List Operand) : Bool :=
  srcs.any (fun o => (readSrc s e o).void) || !predicate s e

/-- What a word that computes a value leaves: its destination written, its flags merged, and its agent at its next word;
suppressed, a void destination and no flag. -/
def written (s : State) (e : Env) (d : Operand) (srcs : List Operand) (fmt : Fmt) (v : DWord) (fl : FlagBits) : State :=
  if suppressed s e srcs then advance e true (writeDst s e d true v fmt)
  else advance e true (mergeFlags (writeDst s e d false v fmt) e.core fl)

/-- A word of two sources A and B runs and leaves `v` in D with the flags `fl`. -/
def Leaves2 (s : State) (e : Env) (i : Instr) (f : RegForm) (v : DWord) (fl : FlagBits) : Prop :=
  MayRun s i e → exec i s = .next (written s e f.d [f.a, f.b] (fmtField f.m) v fl)

/-- A word of the one source A and IMM32. -/
def LeavesI (s : State) (e : Env) (i : Instr) (f : ImmForm) (v : DWord) (fl : FlagBits) : Prop :=
  MayRun s i e → exec i s = .next (written s e f.d [f.a] (fmtField f.m) v fl)

/-- A word with the sources `srcs`, whose result has the tag `fmt`. -/
def Leaves (s : State) (e : Env) (i : Instr) (d : Operand) (srcs : List Operand) (fmt : Fmt) (v : DWord)
    (fl : FlagBits) : Prop :=
  MayRun s i e → exec i s = .next (written s e d srcs fmt v fl)

/-- What a conversion leaves: as `written`, and AMAX has seen the source `x` where the word has the amax option and is
not suppressed (R112, R259). -/
def converted (s : State) (e : Env) (f : RegForm) (srcs : List Operand) (x : FVal) (r : DWord × FlagBits) : State :=
  let fmt := fmtField f.m
  if suppressed s e srcs then advance e true (writeDst s e f.d true r.1 fmt)
  else
    let s1 := mergeFlags (writeDst s e f.d false r.1 fmt) e.core r.2
    advance e true (if f.x.getLsbD 0 then
      modCore s1 e.core fun k => { k with blk := { k.blk with amax := amaxUpdate k.blk.amax x } } else s1)

/-- A floating-point word with the sources `srcs` runs and leaves the pattern and the flags of `r` in its format. -/
def LeavesF (s : State) (e : Env) (i : Instr) (f : RegForm) (srcs : List Operand) (r : Nat × FlagBits) : Prop :=
  MayRun s i e → exec i s = .next (written s e f.d srcs (fmtField f.m) (BitVec.ofNat 64 r.1) r.2)

/-- The sources of a word that computes a value, as its entry names them. -/
def valueSources : Instr → List Operand
  | .bfx f | .fma f => [f.a, f.b, f.c]
  | .bfi f => [f.d, f.a, f.b, f.c]
  | .clz f | .popc f | .mov f | .frcp f | .frsq f | .fexp2 f | .flog2 f | .frnd f | .cvt f | .fcls f => [f.a]
  | .fsgn f => if (f.x.extractLsb' 0 2).toNat = 3 then [f.a] else [f.a, f.b]
  | .addi f | .muli f | .andi f | .ori f | .xori f | .shli f | .shri f | .sari f | .cmpi f => [f.a]
  | .add f | .sub f | .mul f | .mulh f | .div f | .rem f | .and f | .or f | .xor f | .andn f | .shl f | .shr f | .sar f
  | .min f | .max f | .cmp f | .fadd f | .fsub f | .fmul f | .fmin f | .fmax f | .fcmp f | .cvts f => [f.a, f.b]
  | _ => []

/-- The destination D of a word that computes a value: the integer, bit and floating-point words. -/
def valueDest : Instr → Option Operand
  | .add f | .sub f | .mul f | .mulh f | .div f | .rem f | .and f | .or f | .xor f | .andn f | .shl f | .shr f | .sar f
  | .min f | .max f | .clz f | .popc f | .bfx f | .bfi f | .cmp f | .mov f | .fadd f | .fsub f | .fmul f | .fma f
  | .fmin f | .fmax f | .fcmp f | .fsgn f | .frcp f | .frsq f | .fexp2 f | .flog2 f | .frnd f | .cvt f | .cvts f
  | .fcls f => some f.d
  | .addi f | .muli f | .andi f | .ori f | .xori f | .shli f | .shri f | .sari f | .cmpi f | .movi f => some f.d
  | _ => none

/-- A conversion with the amax option (R112, R259). -/
def hasAmax : Instr → Bool
  | .cvt f | .cvts f => f.x.getLsbD 0
  | _ => false

/-! ## Memory words -/

/-- The address is formed, passes the checks of R298 in their order, and reaches the location. -/
def Reaches (s : State) (e : Env) (ad : AddrEnd) (align : Nat) (want : Want) (home : Nat → Bool) (va loc : Nat) : Prop :=
  ad = .va va ∧ va < 2 ^ 52 ∧ (inWindow va && (va - windowBase) / 2 ^ 23 % 2 == 1) = false ∧ va % align = 0 ∧
  ∃ r, translate s e.core e.launch.ctx va = .hit loc r ∧ allowed s want loc r = true ∧ home loc = true

/-- A reading word runs: its access is issued, and its destination waits for the value in the way of its context. -/
def ReadIssues (s : State) (e : Env) (i : Instr) (d : Operand) (p : Placing) (a : Access) : Prop :=
  ∃ t, issueRead s e d p a = .done t ∧ exec i s = .next t

/-- A writing word runs: its access is issued and posted. -/
def WriteIssues (s : State) (e : Env) (i : Instr) (a : Access) : Prop :=
  ∃ t, issueWrite s e a = .done t ∧ exec i s = .next t

/-- The access of a word at a location, with the ordering bits of M. -/
def wordAccess (s : State) (e : Env) (m : BitVec 8) (kind : AccKind) (va loc size : Nat) : Access :=
  withOrder m (baseAccess s e kind va loc size)

/-! ## Tasks -/

/-- A store entry reserved for a continuation of task `t` (R303, R313). -/
def withCont (s : State) (c : CoreId) (t : Task) (chan : BitVec 6) (aw : Awaits) : State :=
  modCore { s with nextId := s.nextId + 1 } c fun k =>
    { k with conts := k.conts ++ [⟨s.nextId, t.bank, chan, t.wid, t.chain, aw⟩] }

/-- What a split-phase word leaves: its continuation reserved, its task at its end, and the continuation posted where its
condition holds already (R313). -/
def splitFrom (s : State) (e : Env) (t : Task) (chan : BitVec 6) (aw : Awaits) : State :=
  postIfReady (endTask (withCont s e.core t chan aw) e.core) e.core s.nextId

/-- A split-phase word runs, where the store has room for its continuation. -/
def Splits (s : State) (e : Env) (i : Instr) (chan : BitVec 6) (aw : Awaits) : Prop :=
  ∀ t, taskOf s e.core = some t → storeUsed (coreAt s e.core) < 256 → Runs s e i (splitFrom s e t chan aw)

/-- A message placed last in a core's outgoing queue, behind a release of what its sender has issued (R303, R306). -/
def queued (s : State) (e : Env) (kind : BitVec 3) (target : CoreId) (chan : BitVec 6) (words : List DWord) : State :=
  let o := messageOrigin s e s.nextId
  modCore { s with nextId := s.nextId + 1 } e.core fun k =>
    { k with outq := k.outq ++
      [⟨⟨kind, chan, chan, words, o.1, e.core, o.2⟩, target, e.agent, e.launch.id, s.nextId⟩] }

/-! ## Commands of engines and system words -/

/-- The operands D, A, B and C of a command of an engine or a parser; a parser command has no B and no C. -/
def commandOperands : Instr → Option (Operand × Operand × Operand × Operand)
  | .gstart f | .gstop f | .gmask f | .gfeed f | .gstat f => some (f.d, f.a, .x 0, .x 0)
  | i => (engShape i).map fun x => (x.2.2.d, x.2.2.a, x.2.2.b, x.2.2.c)

/-- The x register that takes a command's result; x0 where it has none. -/
def resultReg (i : Instr) : Fin 32 :=
  match resultOperand i with
  | some (.x r) => r
  | _ => 0

/-- A command offered to its engine, with the values of its operands. -/
def offered (s : State) (e : Env) (i : Instr) (q : EngQ) (o : Operand × Operand × Operand × Operand) : State :=
  { s with nextId := s.nextId + 1, engs := s.engs ++ [newEng s e i q o.1 o.2.1 o.2.2.1 o.2.2.2] }

/-- A system word that is answered at once with `v`: issued and answered. -/
def sysLeaves (s : State) (e : Env) (b : BankId) (f : RegForm) (v : DWord) : State :=
  answer (issueSys s e b (sysDest f)).2 (.task e.core b (issueSys s e b (sysDest f)).1) v

/-- A system word of bank b may act: everything that the bank has issued is visible at system scope, its loads are not
at their limit, the Plinth has executed every command that it had accepted, and no later context's word has reached it in this
cycle (R403, R404). -/
def SysReady (s : State) (e : Env) (b : BankId) : Prop :=
  e.agent = .bank b ∧ released s e 5 = true ∧ loadsFull s e = false ∧ s.cmds = [] ∧ mayReach s (sysPlace e) = true

/-- A launch holds the core and its elements may step. -/
def Steps (s : State) (c : CoreId) (l : Launch) : Prop := holderOf s c = some l ∧ mayStep l.phase = true

/-- The command is the next that a port has had accepted. -/
def NextCommand (s s1 : State) (code : Nat) (k : Cmd) : Prop := ∃ rest, s.cmds = (code, k) :: rest ∧ s1 = { s with cmds := rest }

/-! ## Frames -/

/-- Everything outside one core is as it was: memory, every other core, the accesses on their way, the commands, the dies,
the contexts, the launches, the journal. -/
def OutsideCore (c : CoreId) (s t : State) : Prop :=
  (∀ a, memGet t.mem a = memGet s.mem a) ∧ (∀ c', c' ≠ c → coreAt t c' = coreAt s c') ∧ t.accs = s.accs ∧
  t.engs = s.engs ∧ t.dies = s.dies ∧ t.ctxs = s.ctxs ∧ t.launches = s.launches ∧ t.frieze = s.frieze ∧
  t.cmds = s.cmds ∧ t.sysWork = s.sysWork ∧ t.cpsem = s.cpsem ∧ t.pages = s.pages ∧ t.bad = s.bad

/-- A core's register block is as it was but for FLAGS and AMAX. -/
def SameBlock (k k' : RegBlock) : Prop :=
  k'.policy = k.policy ∧ k'.en = k.en ∧ k'.ctr = k.ctr ∧ k'.idxdrop = k.idxdrop ∧ k'.skstat = k.skstat ∧
  k'.seqIss = k.seqIss ∧ k'.seqCmp = k.seqCmp

end Sys2Proof.Machine
end

