-- ==== Sys2Proof/Certificates/Slice0/Obligations.lean ====
section
/-! DEFINITION. The statements for the provers. -/

open Sys2Proof Sys2Proof.Machine

/-! ## Decoding and stepping -/

/-- Decoding the word of an instruction gives the instruction back, every field at every value (R209 to R217, R223). -/
def Obligations.DecodeOfEncode : Prop := ∀ (i : Instr) (w : DWord), encode i = some w → decodeWord w = some i

/-- An instruction that a word decodes to has that word: no bit of the word is dropped (R209 to R217). -/
def Obligations.EncodeOfDecode : Prop := ∀ (w : DWord) (i : Instr), decodeWord w = some i → encode i = some w

/-- The step runs the word at the pc: for a task whose pc is aligned and translates to a checked page that may be executed, with
good check bits, in a slot of its partition at the die that holds the word, the step is `exec` of the decoded instruction, in
the state at the move, in which the core has an agent that moves in this cycle where the word is not held. In another slot the
fetch waits (R434). A fetched word of no assigned opcode raises ILLEGAL_OP with the instruction's address and word (R225 check
1, R391). -/
def Obligations.StepRunsFetchedWord : Prop :=
  (∀ (s : State) (rest : List Move) (c : CoreId) (t : Task) (l : Launch) (x : Ctx) (loc : Nat) (r : Rights) (i : Instr),
      s.powered = true → s.agenda = .task c :: rest →
      (coreAt s c).task = some t → holderOf s c = some l → mayStep l.phase = true → t.pc.toNat % 8 = 0 →
      translate (atMove s rest (some (.task c))) c l.ctx t.pc.toNat = .hit loc r → grants .fetch r = true →
      ctxBy s l.ctx = some x → x.checked.contains (t.pc.toNat / 65536 * 65536, loc - t.pc.toNat % 65536) = true →
      slotOpen (atMove s rest (some (.task c))) (locDie loc) l.ctx = true → s.bad.contains (loc / 8 * 8) = false →
      decodeWord (dwordLE (memGetN s.mem loc 8)) = some i →
      step s = exec i (setOut (atMove s rest (some (.task c))) c (.task c) (.bank t.bank) (dwordLE (memGetN s.mem loc 8)))) ∧
  (∀ (s : State) (rest : List Move) (c : CoreId) (t : Task) (l : Launch) (x : Ctx) (loc : Nat) (r : Rights),
      s.powered = true → s.agenda = .task c :: rest →
      (coreAt s c).task = some t → holderOf s c = some l → mayStep l.phase = true → t.pc.toNat % 8 = 0 →
      translate (atMove s rest (some (.task c))) c l.ctx t.pc.toNat = .hit loc r → grants .fetch r = true →
      ctxBy s l.ctx = some x → x.checked.contains (t.pc.toNat / 65536 * 65536, loc - t.pc.toNat % 65536) = true →
      slotOpen (atMove s rest (some (.task c))) (locDie loc) l.ctx = true → s.bad.contains (loc / 8 * 8) = false →
      decodeWord (dwordLE (memGetN s.mem loc 8)) = none →
      step s = .next (raise .illegalOp ⟨l.id, c, 1, t.bank.val, t.wid, t.pc, dwordLE (memGetN s.mem loc 8)⟩ t.pc 0
        (atMove s rest (some (.task c))))) ∧
  (∀ (s : State) (rest : List Move) (c : CoreId) (t : Task) (l : Launch) (x : Ctx) (loc : Nat) (r : Rights),
      s.powered = true → s.agenda = .task c :: rest →
      (coreAt s c).task = some t → holderOf s c = some l → mayStep l.phase = true → t.pc.toNat % 8 = 0 →
      translate (atMove s rest (some (.task c))) c l.ctx t.pc.toNat = .hit loc r → grants .fetch r = true →
      ctxBy s l.ctx = some x → x.checked.contains (t.pc.toNat / 65536 * 65536, loc - t.pc.toNat % 65536) = true →
      slotOpen (atMove s rest (some (.task c))) (locDie loc) l.ctx = false → step s = .next (atMove s rest (some (.task c))))

/-- The other moves: a node runs the word at its firing's index, a stream node its word, which of a BND node, whose instructions
act each on its own, is a free one, a parser's action its next action word where the action
unit's turn is this parser's, the Plinth the command accepted first, and a unit its own step. A command of no known code fails
with BADARG in its turn (R22, R50, R423). -/
def Obligations.StepRunsOtherMoves : Prop :=
  ∀ (s : State) (rest : List Move), s.powered = true →
    (∀ c pe n f w i, s.agenda = .node c pe :: rest → nodeAt (coreAt s c) pe = some n → isStreamNode n = false →
      n.firing = some f → n.words[f.idx]? = some w → decodeWord w = some i →
      step s = exec i (setOut (atMove s rest (some (.node c pe))) c (.node c pe) (.node pe) w)) ∧
    (∀ c pe n, s.agenda = .node c pe :: rest → nodeAt (coreAt s c) pe = some n → isStreamNode n = true →
      let s1 := atMove s rest (some (.node c pe))
      (∃ w ∈ n.words, pickFree s1 n.words = some w) ∧
      (∀ w i, pickFree s1 n.words = some w → decodeWord w = some i →
        step s = exec i (setOut s1 c (.node c pe) (.node pe) w)) ∧
      ∀ w, n.words = [w] → pickFree s1 n.words = some w) ∧
    (∀ c p r g w i, s.agenda = .action c p :: rest → actionTurn (atMove s rest none) c p = true →
      (at' (coreAt s c).parsers p).run = some r →
      (coreAt s c).grammar = some g → g.acts[r.word]? = some w → decodeWord w = some i →
      step s = exec i (setOut (modCore (atMove s rest (some (.action c p))) c fun k => { k with actTurn := p }) c
        (.action c p) (.parser p) w)) ∧
    (∀ c p, s.agenda = .action c p :: rest → actionTurn (atMove s rest none) c p = false →
      step s = .next (atMove s rest none)) ∧
    (∀ code k cs i, s.agenda = .command :: rest → s.cmds = (code, k) :: cs → decodeCommand code k = some i →
      step s = exec i (atMove s rest none)) ∧
    (∀ code k cs, s.agenda = .command :: rest → s.cmds = (code, k) :: cs → decodeCommand code k = none →
      step s = .next (finishCmd { atMove s rest none with cmds := cs } k.seq .badarg 0 [])) ∧
    ∀ i, s.agenda = .event i :: rest → step s = exec i (atMove s rest none)

/-- A powered package always has a next state; without power only the power-on reset does anything (R439, R440). -/
def Obligations.EveryStepCompletes : Prop :=
  ∀ s : State, (s.powered = true → ∃ t, step s = .next t) ∧
    (s.powered = false → (takeMove s).1 ≠ .event .powerOnReset → step s = .fault .noPower) ∧
    (s.powered = false → (takeMove s).1 = .event .powerOnReset → ∃ t, step s = .next t ∧ t.powered = true)

/-! ## Integer and bit instructions -/

/-- The register forms with two sources. The immediate forms: IMM32 extended as R212 says is the second source. The other
integer and bit forms: one source, a field, a comparison, a copy. A MOV from an l register copies the 32 bits and the tag
(R250); every other destination takes the tag FMT. -/
def Obligations.IntegerForms : Prop :=
  (∀ (s : State) (e : Env) (f : RegForm), Here s e [f.d, f.a, f.b] →
      let k := intMode e f.m
      let a := srcVal s e f.a
      let b := srcVal s e f.b
      Leaves2 s e (.add f) f (intExact (· + ·) k a b).1 (intExact (· + ·) k a b).2 ∧
      Leaves2 s e (.sub f) f (intExact (· - ·) k a b).1 (intExact (· - ·) k a b).2 ∧
      Leaves2 s e (.mul f) f (intExact (· * ·) k a b).1 (intExact (· * ·) k a b).2 ∧
      Leaves2 s e (.mulh f) f (intMulh k a b) 0 ∧
      Leaves2 s e (.div f) f (intDiv k a b) 0 ∧
      Leaves2 s e (.rem f) f (intMod k a b) 0 ∧
      Leaves2 s e (.and f) f (intBits (· &&& ·) k a b) 0 ∧
      Leaves2 s e (.or f) f (intBits (· ||| ·) k a b) 0 ∧
      Leaves2 s e (.xor f) f (intBits (· ^^^ ·) k a b) 0 ∧
      Leaves2 s e (.andn f) f (intBits (fun x y => x &&& ~~~ y) k a b) 0 ∧
      Leaves2 s e (.shl f) f (intShl k a b) 0 ∧
      Leaves2 s e (.shr f) f (intShr k a b) 0 ∧
      Leaves2 s e (.sar f) f (intSar k a b) 0 ∧
      Leaves2 s e (.min f) f (intMin k a b) 0 ∧
      Leaves2 s e (.max f) f (intMax k a b) 0) ∧
  (∀ (s : State) (e : Env) (f : ImmForm), Here s e [f.d, f.a] →
      let k := intMode e f.m
      let a := srcVal s e f.a
      let b := if e.kind = .node then f.imm.setWidth 64 else f.imm.signExtend 64
      LeavesI s e (.addi f) f (intExact (· + ·) k a b).1 (intExact (· + ·) k a b).2 ∧
      LeavesI s e (.muli f) f (intExact (· * ·) k a b).1 (intExact (· * ·) k a b).2 ∧
      LeavesI s e (.andi f) f (intBits (· &&& ·) k a b) 0 ∧
      LeavesI s e (.ori f) f (intBits (· ||| ·) k a b) 0 ∧
      LeavesI s e (.xori f) f (intBits (· ^^^ ·) k a b) 0 ∧
      LeavesI s e (.shli f) f (intShl k a b) 0 ∧
      LeavesI s e (.shri f) f (intShr k a b) 0 ∧
      LeavesI s e (.sari f) f (intSar k a b) 0 ∧
      LeavesI s e (.cmpi f) f (if cmpHolds ⟨isNode e, fmtField f.m, false, false⟩ (mCc f.m).toNat a b then 1 else 0) 0 ∧
      Leaves s e (.movi f) f.d [] (fmtField f.m) (k.put (lowBits k.w b)) 0) ∧
  (∀ (s : State) (e : Env) (f : RegForm), Here s e [f.d, f.a, f.b, f.c] →
      let k := intMode e f.m
      let fmt := fmtField f.m
      let a := srcVal s e f.a
      let b := srcVal s e f.b
      let c := srcVal s e f.c
      Leaves s e (.clz f) f.d [f.a] fmt (k.put (k.w - bitLen (lowBits k.w a))) 0 ∧
      Leaves s e (.popc f) f.d [f.a] fmt (k.put (popCount k.w (lowBits k.w a))) 0 ∧
      Leaves s e (.bfx f) f.d [f.a, f.b, f.c] fmt (intBfx k a b c) 0 ∧
      Leaves s e (.bfi f) f.d [f.d, f.a, f.b, f.c] fmt (intBfi k (srcVal s e f.d) a b c) 0 ∧
      Leaves2 s e (.cmp f) f (if cmpHolds ⟨isNode e, fmt, false, false⟩ (mCc f.m).toNat a b then 1 else 0) 0 ∧
      ((∀ r, f.a ≠ .l r) → Leaves s e (.mov f) f.d [f.a] fmt (k.put (lowBits k.w a)) 0) ∧
      ∀ r c pe n, f.a = .l r → s.focus = some (.node c pe) → nodeAt (coreAt s c) pe = some n →
        Leaves s e (.mov f) f.d [f.a] (at' n.tag r) a 0)

/-- CLZ gives the number of zero bits above the highest set bit of a[W−1:0], and W where a is zero: n bits at the top are zero,
and the bit below them, if there is one, is set. POPC gives the number of set bits of a[W−1:0]. Neither raises a flag, and the
count is written in FMT, extended as R238 says (R246). -/
def Obligations.CountWords : Prop :=
  ∀ (s : State) (e : Env) (f : RegForm), Here s e [f.d, f.a, f.b, f.c] →
    let k := intMode e f.m
    let a := srcVal s e f.a
    (∃ n, n ≤ k.w ∧ (∀ i, k.w - n ≤ i → i < k.w → a.getLsbD i = false) ∧ (n < k.w → a.getLsbD (k.w - 1 - n) = true) ∧
      Leaves s e (.clz f) f.d [f.a] (fmtField f.m) (k.put n) 0) ∧
    Leaves s e (.popc f) f.d [f.a] (fmtField f.m) (k.put ((List.range k.w).countP fun i => a.getLsbD i)) 0

/-- In a task, 64-bit integer words without SAT compute on their x registers as on dwords: sums, differences and products
modulo 2^64, the high half of the signed or the unsigned product, quotients towards zero with all ones for a divisor of 0,
bitwise operations, and shifts whose count of 64 or more empties the word or fills it with the sign (R237, R238, R241 to
R245, R250). -/
def Obligations.TaskDwordArithmetic : Prop :=
  ∀ a b : DWord,
    let S : IntMode := ⟨false, .raw, false, false⟩
    let U : IntMode := ⟨false, .raw, true, false⟩
    intExact (· + ·) S a b = (a + b, 0) ∧ intExact (· - ·) S a b = (a - b, 0) ∧ intExact (· * ·) S a b = (a * b, 0) ∧
    intExact (· + ·) U a b = (a + b, 0) ∧ intExact (· - ·) U a b = (a - b, 0) ∧ intExact (· * ·) U a b = (a * b, 0) ∧
    intMulh S a b = (a.signExtend 128 * b.signExtend 128).extractLsb' 64 64 ∧
    intMulh U a b = (a.setWidth 128 * b.setWidth 128).extractLsb' 64 64 ∧
    intDiv S a b = (if b = 0 then BitVec.allOnes 64 else a.sdiv b) ∧
    intDiv U a b = (if b = 0 then BitVec.allOnes 64 else a / b) ∧
    intMod S a b = (if b = 0 then a else a.srem b) ∧ intMod U a b = (if b = 0 then a else a % b) ∧
    intBits (· &&& ·) S a b = a &&& b ∧ intBits (· ||| ·) S a b = a ||| b ∧ intBits (· ^^^ ·) S a b = a ^^^ b ∧
    intShl S a b = a <<< b.toNat ∧ intShr S a b = a >>> b.toNat ∧ intSar S a b = a.sshiftRight b.toNat ∧
    intMin S a b = (if a.slt b then a else b) ∧ intMax S a b = (if a.slt b then b else a) ∧
    intMin U a b = (if a.ult b then a else b) ∧ intMax U a b = (if a.ult b then b else a) ∧
    intMov S a = a

/-- ADD, SUB and MUL in every format, signed and unsigned, in every context: with SAT the result, read back, is the exact
result clamped to the range of W bits, and SAT is raised exactly where it clamped; without, it is the exact result modulo
2^W, and no flag is raised (R99, R241). -/
def Obligations.IntegerSaturation : Prop :=
  ∀ (k : IntMode) (op : Int → Int → Int) (a b : DWord),
    let x := op (reduced k.w k.uns a) (reduced k.w k.uns b)
    let lo : Int := if k.uns then 0 else -(2 ^ (k.w - 1))
    let hi : Int := if k.uns then 2 ^ k.w - 1 else 2 ^ (k.w - 1) - 1
    let y := intExact op k a b
    let v := reduced k.w k.uns y.1
    lo ≤ v ∧ v ≤ hi ∧
    (k.sat = true → v = max lo (min hi x) ∧ y.2 = (if lo ≤ x ∧ x ≤ hi then 0 else flSAT)) ∧
    (k.sat = false → (v - x) % 2 ^ k.w = 0 ∧ y.2 = 0)

/-! ## Floating point -/

/-- The arithmetic forms: each source is a pattern in F under DAZ, an imm7 its integer value; one rounding (R251, R253, R254,
R257, R258). FCMP writes 1 or 0 tagged I32; FSGN copies every bit but the sign, with no flag; FCLS writes a class word; CVT and
CVTS convert and show AMAX their source, which CVTS scales afterwards (R255, R256, R259 to R261). -/
def Obligations.FloatingForms : Prop :=
  (∀ (s : State) (e : Env) (f : RegForm), Here s e [f.d, f.a, f.b, f.c] →
      let md := fpMode s e
      let F := fmtField f.m
      let rnd := mRnd f.m
      let sat := mSat f.m
      let a := fpOperand md F (isImm f.a) (srcVal s e f.a)
      let b := fpOperand md F (isImm f.b) (srcVal s e f.b)
      let c := fpOperand md F (isImm f.c) (srcVal s e f.c)
      LeavesF s e (.fadd f) f [f.a, f.b] (fpAdd md F rnd sat a b) ∧
      LeavesF s e (.fsub f) f [f.a, f.b] (fpAdd md F rnd sat a (fpNegate b)) ∧
      LeavesF s e (.fmul f) f [f.a, f.b] (fpMul md F rnd sat a b) ∧
      LeavesF s e (.fma f) f [f.a, f.b, f.c] (fpFma md F rnd sat a b c) ∧
      LeavesF s e (.fmin f) f [f.a, f.b] (fpMinMax false md F a b) ∧
      LeavesF s e (.fmax f) f [f.a, f.b] (fpMinMax true md F a b) ∧
      LeavesF s e (.frcp f) f [f.a] (fpSpecial .rcp md F rnd sat a) ∧
      LeavesF s e (.frsq f) f [f.a] (fpSpecial .rsq md F rnd sat a) ∧
      LeavesF s e (.fexp2 f) f [f.a] (fpSpecial .exp2 md F rnd sat a) ∧
      LeavesF s e (.flog2 f) f [f.a] (fpSpecial .log2 md F rnd sat a) ∧
      LeavesF s e (.frnd f) f [f.a] (fpRnd md F rnd a)) ∧
  (∀ (s : State) (e : Env) (f : RegForm), Here s e [f.d, f.a, f.b] →
      let md := fpMode s e
      let F := fmtField f.m
      let a := srcVal s e f.a
      let b := srcVal s e f.b
      let cmp := fpCmp (mCc f.m).toNat (fpOperand md F (isImm f.a) a) (fpOperand md F (isImm f.b) b)
      let mode := (f.x.extractLsb' 0 2).toNat
      let src := (fmtOf (f.x.extractLsb' 4 4)).getD .i32
      let v := cvtSource md src (mU f.m) a
      let conv := convertTo md F src (mRnd f.m) (mSat f.m) (mU f.m)
      Leaves s e (.fcmp f) f.d [f.a, f.b] .i32 (if cmp.1 then 1 else 0) cmp.2 ∧
      Leaves s e (.fsgn f) f.d (if mode = 3 then [f.a] else [f.a, f.b]) F
        (BitVec.ofNat 64 (fpSgn (widthOf true F) mode (fpPattern F f.a a)
          (if mode = 3 then 0 else fpPattern F f.b b))) 0 ∧
      Leaves s e (.fcls f) f.d [f.a] .i32 (BitVec.ofNat 64 (fpClass F (fpPattern F f.a a))) 0 ∧
      (MayRun s (.cvt f) e → exec (.cvt f) s = .next (converted s e f [f.a] v (conv v))) ∧
      (MayRun s (.cvts f) e → exec (.cvts f) s =
        .next (converted s e f [f.a, f.b] v (conv (scaleBy (max (-1024) (min 1023 (b.setWidth 32).toInt)) v)))))

/-- The special values and the exact cases of FRCP, FRSQ, FEXP2 and FLOG2, in every IEEE format and rounding mode: 2^k gives
2^−k, 2^2k gives 2^−k, an integer a gives 2^a, and 2^k gives k, +0 for k = 0. A power of two that the format holds raises no
flag; one that it does not hold rounds as any other result (R106, R108, R257). -/
def Obligations.SpecialFunctionValues : Prop :=
  ∀ (md : FpMode) (F : Fmt) (rnd : BitVec 2) (sat sg : Bool) (e : Int), isIeeeFmt F = true →
    fpSpecial .rcp md F rnd sat (.fin sg 0 e) = (ieeeInf F sg, flDZ) ∧
    fpSpecial .rsq md F rnd sat (.fin sg 0 e) = (ieeeInf F sg, flDZ) ∧
    fpSpecial .log2 md F rnd sat (.fin sg 0 e) = (ieeeInf F true, flDZ) ∧
    fpSpecial .exp2 md F rnd sat (.fin sg 0 e) = (ieeePack F false (ieeeBias F) 0, 0) ∧
    fpSpecial .rcp md F rnd sat (.inf sg) = (ieeeZero F sg, 0) ∧
    fpSpecial .rsq md F rnd sat (.inf false) = (ieeeZero F false, 0) ∧
    fpSpecial .exp2 md F rnd sat (.inf sg) = (if sg then ieeeZero F false else ieeeInf F false, 0) ∧
    fpSpecial .log2 md F rnd sat (.inf false) = (ieeeInf F false, 0) ∧
    fpSpecial .rsq md F rnd sat (.inf true) = (ieeeNaN F, flNV) ∧
    fpSpecial .log2 md F rnd sat (.inf true) = (ieeeNaN F, flNV) ∧
    (∀ m : Nat, m ≠ 0 →
      fpSpecial .rsq md F rnd sat (.fin true m e) = (ieeeNaN F, flNV) ∧
      fpSpecial .log2 md F rnd sat (.fin true m e) = (ieeeNaN F, flNV)) ∧
    let B : Int := ieeeBias F
    let pow (sg : Bool) (k : Int) : Nat × FlagBits := roundIeee md F rnd sat sg 1 k false
    (∀ k : Int, 1 - B ≤ k → k ≤ B → pow sg k = (ieeePack F sg (k + B).toNat 0, 0)) ∧
    (∀ j : Nat, j < (ieeeDims F).2 → md.ftz = false → pow sg (1 - B - (ieeeDims F).2 + j) = (ieeePack F sg 0 (2 ^ j), 0)) ∧
    (∀ n : Nat, fpSpecial .rcp md F rnd sat (.fin sg (2 ^ n) e) = pow sg (-(n + e))) ∧
    (∀ (n : Nat) (k : Int), n + e = 2 * k → fpSpecial .rsq md F rnd sat (.fin false (2 ^ n) e) = pow false (-k)) ∧
    (∀ m n : Nat, m ≠ 0 →
      let a : Int := if sg then -(m : Int) else m
      fpSpecial .exp2 md F rnd sat (.fin sg (m * 2 ^ n) (-(n : Int))) = pow false a ∧
      fpSpecial .exp2 md F rnd sat (.fin sg m n) = pow false (a * 2 ^ n)) ∧
    ∀ n : Nat,
      let k : Int := n + e
      (k = 0 → fpSpecial .log2 md F rnd sat (.fin false (2 ^ n) e) = (ieeeZero F false, 0)) ∧
      (k ≠ 0 → k.natAbs ≤ 255 → ∃ (bits m : Nat) (q : Nat), fpSpecial .log2 md F rnd sat (.fin false (2 ^ n) e) = (bits, 0) ∧
        ieeeOf F bits = .fin (decide (k < 0)) m (-(q : Int)) ∧ m = k.natAbs * 2 ^ q)

/-- A number of an IEEE format rounds to itself in every mode, raising nothing: rounding loses no bit of a value that the
format holds (R101). -/
def Obligations.RoundingIsExact : Prop :=
  ∀ (F : Fmt) (bits : Nat) (rnd : BitVec 2) (sat sg : Bool) (m : Nat) (e : Int), isIeeeFmt F = true →
    bits < 2 ^ widthOf true F → ieeeOf F bits = .fin sg m e →
    roundIeee FpMode.plain F rnd sat sg m e false = (bits, 0)

/-- What a word that computes a value changes in task context, in any of its forms: its D register (x0 takes nothing),
the pc, and FLAGS, whose bits stay set once set; AMAX only in a conversion with the amax option. -/
def Obligations.TaskValueFrame : Prop :=
  ∀ (s t : State) (e : Env) (b : BankId) (i : Instr) (d : Operand), valueDest i = some d → MayRun s i e →
    e.agent = .bank b → exec i s = .next t →
    let k := coreAt s e.core
    let k' := coreAt t e.core
    OutsideCore e.core s t ∧
    (∀ b', b' ≠ b → at' k'.banks b' = at' k.banks b') ∧
    (∀ r : Fin 32, (d ≠ .x r ∨ r = 0) → readX (at' k'.banks b) r = readX (at' k.banks b) r) ∧
    { at' k'.banks b with x := (at' k.banks b).x } = at' k.banks b ∧
    k'.task = k.task.map (fun x => { x with pc := x.pc + 8 }) ∧
    (∀ n, k.blk.flags.getLsbD n = true → k'.blk.flags.getLsbD n = true) ∧
    (hasAmax i = false → k'.blk.amax = k.blk.amax) ∧ SameBlock k.blk k'.blk ∧
    { k' with banks := k.banks, task := k.task, blk := k.blk, flagsNow := k.flagsNow } = k

/-- What it changes in a node: of its firing, the index of the next instruction and the outputs written; an l register only
where it is D and the word is neither suppressed, by a void source or by a false predicate, nor in a firing under poison, with
its tag; FLAGS not where it is suppressed. No port is consumed and no token sent (R74, R75, R77, R78, R111). -/
def Obligations.NodeValueFrame : Prop :=
  ∀ (s t : State) (e : Env) (pe : PeId) (n : Node) (f : Firing) (i : Instr) (d : Operand), valueDest i = some d →
    MayRun s i e → e.agent = .node pe → Here s e (operandsOf i) → nodeAt (coreAt s e.core) pe = some n →
    n.firing = some f → exec i s = .next t →
    let k := coreAt s e.core
    let k' := coreAt t e.core
    OutsideCore e.core s t ∧
    (∀ pe', pe' ≠ pe → nodeAt k' pe' = nodeAt k pe') ∧
    (∃ n' f', nodeAt k' pe = some n' ∧ n'.firing = some f' ∧
      { n' with l := n.l, tag := n.tag, firing := some f } = n ∧ { f' with idx := f.idx, outs := f.outs } = f ∧
      f'.idx = f.idx + 1 ∧ (∃ os, f'.outs = f.outs ++ os ∧ os.length ≤ 1) ∧
      (∀ r : Fin 8, (d ≠ .l r ∨ f.poison.isSome = true ∨ suppressed s e (valueSources i) = true) →
        at' n'.l r = at' n.l r ∧ at' n'.tag r = at' n.tag r)) ∧
    (∀ m, k.blk.flags.getLsbD m = true → k'.blk.flags.getLsbD m = true) ∧
    (suppressed s e (valueSources i) = true → k'.blk = k.blk) ∧ SameBlock k.blk k'.blk ∧
    { k' with nodes := k.nodes, blk := k.blk, flagsNow := k.flagsNow } = k

/-! ## Node flow -/

/-- SELT, TAGCHK, TAGSET, PUSHP, POPP and VOID in a firing: SELT writes the selected source, void only where the condition
or that source is; TAGCHK compares the head's tag; TAGSET notes a tag for a port; the predicate stack grows by the
condition, 0 where it is void, and shrinks by one; VOID writes a void token whatever the predicate (R268, R275 to
R278). -/
def Obligations.NodeFlowSimple : Prop :=
  ∀ (s : State) (e : Env) (f : RegForm) (g : Firing), firingOf s e = some g → Here s e [f.d, f.a, f.b, f.c] →
    let x := readSrc s e f.a
    let sel := readSrc s e (if x.v.getLsbD 0 then f.b else f.c)
    let b := readSrc s e f.b
    (MayRun s (.selt f) e → exec (.selt f) s = .next (advance e true
      (writeDst s e f.d (x.void || sel.void || !predicate s e) sel.v (fmtField f.m)))) ∧
    (MayRun s (.tagchk f) e → exec (.tagchk f) s = .next (advance e true
      (writeDst s e f.d (b.void || !predicate s e) (if x.tag = b.v.setWidth 4 then 1 else 0) .i32))) ∧
    (∀ r, f.d = .q r → MayRun s (.tagset f) e → exec (.tagset f) s = .next (advance e true (modFiring s e fun g =>
      { g with
        touch := g.touch ++ [r]
        tags := if x.void = true ∨ predicate s e = false then g.tags else g.tags ++ [(r, x.v.setWidth 4)] }))) ∧
    (MayRun s (.pushp f) e → exec (.pushp f) s = .next (advance e true (modFiring s e fun g =>
      { g with preds := (!x.void && x.v.getLsbD 0) :: g.preds }))) ∧
    (MayRun s (.popp f) e → exec (.popp f) s = .next (advance e true (modFiring s e fun g =>
      { g with preds := g.preds.tail }))) ∧
    (MayRun s (.void f) e → exec (.void f) s = .next (advance e true (writeDst s e f.d true 0 .raw)))

/-- STEER sends its value to the port that the condition chooses; the other port, or both under a void condition or a
false predicate, takes a void token where the firing carries a mark or poison, or the predicate is false (R269, R78). GATE
lets the value's token through, or a void one in its place, with the token's own mark and tag (R270, R79). EMIT writes only
in a firing that ends a group of its level, with the mark of R272. -/
def Obligations.NodeFlowRouting : Prop :=
  ∀ (s : State) (e : Env) (f : RegForm) (g : Firing), firingOf s e = some g → Here s e [f.d, f.a, f.b, f.c] →
    let v := readSrc s e f.a
    let x := readSrc s e f.b
    let p := predicate s e
    let other (s' : State) (o : Operand) : State :=
      if g.mark ≠ 0 ∨ g.poison.isSome = true ∨ p = false then writeDst s' e o true 0 .raw else s'
    let k := levelOf f.b
    (MayRun s (.steer f) e → exec (.steer f) s = .next (advance e true (
      if x.void = true ∨ p = false then other (other s f.d) f.c
      else if x.v.getLsbD 0 then other (writeDst s e f.d v.void v.v (fmtField f.m)) f.c
      else other (writeDst s e f.c v.void v.v (fmtField f.m)) f.d))) ∧
    (MayRun s (.gate f) e → exec (.gate f) s = .next (advance e true (
      if p = false then writeDst s e f.d true 0 .raw
      else
        let shut := v.void || x.void || !x.v.getLsbD 0
        writeTok s e f.d ⟨if isPort f.a then v.mark else g.mark, shut, if isPort f.a then v.tag else g.tag,
          if shut then 0 else v.v.setWidth 32⟩))) ∧
    (MayRun s (.emit f) e → exec (.emit f) s = .next (advance e true (
      if g.poison.isSome = true then writeDst s e f.d true 0 .raw
      else if k ≤ g.mark.toNat ∧ g.mark.toNat ≤ 6 then
        let void := v.void || !p
        writeTok s e f.d ⟨if f.x.getLsbD 0 then g.mark - BitVec.ofNat 3 k else g.mark, void, g.tag,
          if void then 0 else v.v.setWidth 32⟩
      else s)))

/-- MERGE in a firing sends the token of the port that its condition chooses, with its own data, mark and tag, and takes no port
under a void condition, which gives a void token with the condition token's mark and tag (R271); a false predicate gives a void
token (R78). Where the port is taken late and changes the sideband or the poison of the firing, the firing begins again with the
port noted (the model's reading, log entry 41). MARK in a node notes a code for a port, unless it is suppressed, by a void code
or by a void level that code 7 reads too (R77, R274; log entry 14). MARK in
an action stands one void token with tag 0 and its code, or a poison token of its level, behind every token that the parser has
accepted: in the output of a byte parser, behind the bytes that it still holds, in the gate of one that governs a stream; a mark
parser that governs none discards it, and the word is done (R274). -/
def Obligations.MergeAndMark : Prop :=
  (∀ (s : State) (e : Env) (f : RegForm) (g : Firing) (pe : PeId), e.agent = .node pe → firingOf s e = some g →
      let x := readSrc s e f.a
      (MayRun s (.merge f) e → Here s e [f.a] → x.void = true → exec (.merge f) s = .next (advance e true
        (writeTok s e f.d ⟨if isPort f.a then x.mark else g.mark, true, if isPort f.a then x.tag else g.tag, 0⟩))) ∧
      (∀ r t, MayRun s (.merge f) e → Here s e [f.a] → x.void = false →
        (match g.picked.find? (·.1 == g.idx) with
          | some y => (Operand.p y.2)
          | none => if x.v.getLsbD 0 then f.b else f.c) = .p r →
        portHead (coreAt s e.core) pe r = some t →
        let g1 := takePort (levels e.launch.recd) (coreAt s e.core) pe r g
        let s1 := modFiring s e fun _ => g1
        let same := g1.mark = g.mark ∧ g1.tag = g.tag ∧ g1.poison = g.poison
        (same → exec (.merge f) s = .next (advance e true (
          if predicate s e then writeTok s1 e f.d { t with data := if t.void then 0 else t.data }
          else writeDst s1 e f.d true 0 .raw))) ∧
        (¬same → nodeReads s e.core pe = false → exec (.merge f) s = .next (modFocusNode s e (beginAgain r g1)))) ∧
      (∀ r, MayRun s (.mark f) e → Here s e [f.a, f.b] → f.d = .q r →
        let lvl := clampLevel (levels e.launch.recd) ((srcVal s e f.b).toNat % 8)
        exec (.mark f) s = .next (advance e true (modFiring s e fun g =>
          { g with
            touch := g.touch ++ [r]
            marks := if x.void = true ∨ x.v.setWidth 3 = 7#3 ∧ (readSrc s e f.b).void = true ∨ predicate s e = false then g.marks
              else g.marks ++ [(r, x.v.setWidth 3, lvl)] })))) ∧
  (∀ (s : State) (e : Env) (f : RegForm) (p : ParserId), e.agent = .parser p → MayRun s (.mark f) e →
      let z := at' (coreAt s e.core).parsers p
      let c := (srcVal s e f.a).setWidth 3
      let lvl := clampLevel (levels e.launch.recd) ((srcVal s e f.b).toNat % 8)
      let t : GTok := ⟨if c = 7 then poisonTok 0 lvl else ⟨c, true, 0, 0⟩, z.lastWid, currentAct s e⟩
      exec (.mark f) s = .next (
        if z.byte then advance e false (modCore s e.core fun k => modParser k p fun z =>
          if z.hold = [] then { z with out := z.out ++ [(t, z.outEdge, z.outVc)] } else { z with late := z.late ++ [(z.hold.length, t)] })
        else if z.ag = none then advance e true s
        else advance e false (modCore s e.core fun k => modParser k p fun z => { z with rel := z.rel ++ [t] })))

/-- ACC in a firing without poison and under a true predicate folds a source that is not void into its l register, whose
seen bit is then set, and at the end of a group emits the register, or a void token where nothing was seen, and takes its
identity back (R273). -/
def Obligations.NodeAccumulate : Prop :=
  ∀ (s : State) (e : Env) (f : RegForm) (g : Firing) (r : Fin 8), firingOf s e = some g → f.b = .l r →
    Here s e [f.a, f.b] → MayRun s (.acc f) e →
    let k := levelOf f.c
    let op := (f.x.extractLsb' 8 2).toNat
    let F := fmtField f.m
    let v := readSrc s e f.a
    let old := srcVal s e f.b
    let q := accFold (fpMode s e) (intMode e f.m) (mRnd f.m) op old v.v
    let ends := k ≤ g.mark.toNat ∧ g.mark.toNat ≤ 6
    let mark := if f.x.getLsbD 0 then g.mark - BitVec.ofNat 3 k else g.mark
    let reset (s' : State) : State := accSet s' e r F g.idx (accIdentity op F (mU f.m)) false
    let folded := mergeFlags (accSet s e r F g.idx (q.1.setWidth 32) true) e.core q.2
    (g.poison.isSome = true → exec (.acc f) s = .next (advance e true (writeDst (reset s) e f.d true 0 .raw))) ∧
    (g.poison = none → predicate s e = false → exec (.acc f) s = .next (advance e true (
      if ends then writeTok (reset s) e f.d ⟨mark, true, g.tag, 0⟩ else s))) ∧
    (g.poison = none → predicate s e = true → v.void = false → exec (.acc f) s = .next (advance e true (
      if ends then writeTok (reset folded) e f.d ⟨mark, false, g.tag, q.1.setWidth 32⟩ else folded))) ∧
    (g.poison = none → predicate s e = true → v.void = true → exec (.acc f) s = .next (advance e true (
      if ends then
        writeTok (reset s) e f.d ⟨mark, !accSeen s e g.idx, g.tag, if accSeen s e g.idx then old.setWidth 32 else 0⟩
      else s)))

/-- The stream nodes: a token ready to leave is sent first, where it finds room; with nothing waiting to leave, SPHDR and ISECT
take from their inputs as R42 and R43 say, and CTURN takes while no more than one block waits to leave (R41, R267, R280). -/
def Obligations.StreamNodes : Prop :=
  ∀ (s : State) (e : Env) (f : RegForm) (pe : PeId) (n : Node), e.agent = .node pe →
    nodeAt (coreAt s e.core) pe = some n →
    let k := coreAt s e.core
    let K := levelOf f.b
    let left (k1 : Core) : State := moved (modCore s e.core fun _ => k1) e.core
    (∀ i k1, (i = .sphdr f ∨ i = .isect f ∨ i = .cturn f) → MayRun s i e → streamSend s.now k n = some k1 →
      exec i s = .next (left k1)) ∧
    (∀ k1, MayRun s (.sphdr f) e → streamSend s.now k n = none → n.shaper.out = [] →
      sphdrTake (f.m.getLsbD 0) (portNum f.a) (portNum f.b) (portNum f.d) e k n = some k1 →
      exec (.sphdr f) s = .next (left k1)) ∧
    (∀ k1, MayRun s (.isect f) e → streamSend s.now k n = none → n.shaper.out = [] →
      isectTake (portNum f.a) (portNum f.b) e k n = some k1 → exec (.isect f) s = .next (left k1)) ∧
    (∀ t, MayRun s (.cturn f) e → streamSend s.now k n = none →
      n.shaper.out.length ≤ K * K → portHead k n.pe (portNum f.a) = some t →
      let r := cturnStep (levels e.launch.recd) K n.shaper t
      exec (.cturn f) s = .next (left (modNode (takeHead e.launch k n.pe (portNum f.a)) n.pe fun n =>
        { n with shaper := { r.2 with out := n.shaper.out ++ r.1.map fun t => (portNum f.d, t) } })))

/-- BND notes the token it has received with the accesses issued before it, and forwards it, unchanged, once the writes of
the feeding domain among them are visible at the widest scope of the domains that it joins, and the way on has room (R90,
R279). -/
def Obligations.BoundaryForwards : Prop :=
  ∀ (s : State) (e : Env) (f : RegForm) (pe : PeId) (n : Node) (p : Fin 8), e.agent = .node pe →
    portIndex f.a = some p → nodeAt (coreAt s e.core) pe = some n → portReady (coreAt s e.core) pe p = true →
    MayRun s (.bnd f) e →
    let k := coreAt s e.core
    let dom := feederDomain k pe p n.dom.val
    let scope := bndScope k n p (portNum f.d)
    domainScope k dom ≤ scope ∧ domainScope k n.dom.val ≤ scope ∧
    (n.bndWait.find? (·.1 == p) = none → exec (.bnd f) s = .next (active (modCore s e.core fun k => modNode k pe fun n =>
      { n with bndWait := n.bndWait ++ [(p, s.nextId)] }) e.core)) ∧
    ∀ q seen k1, n.bndWait.find? (·.1 == p) = some (q, seen) → domainReleased s e.core dom seen scope = true →
      bndForward s.now e.launch k pe p (portNum f.d) = some k1 →
      exec (.bnd f) s = .next (moved (modCore s e.core fun _ => modNode k1 pe fun n =>
        { n with bndWait := n.bndWait.filter (·.1 != p) }) e.core)

/-! ## Memory words -/

/-- LD, LDI and a GATH within its slot's bounds issue a load of 2^SZ bytes at their effective address, in any context, once
the address passes the checks of R298 and the bank has a free place (R283 to R287, R295). Run again in a firing that has begun
again, they reach no memory: their destination takes what their load brought (the model's reading, log entry 41). -/
def Obligations.LoadWords : Prop :=
  ∀ (s : State) (e : Env) (f : RegForm) (g : ImmForm),
    (∀ r x, firingOf s e = some r → r.idx < r.redo → r.memo.find? (·.1 == r.idx) = some x →
      let again (d : Operand) : State := advance e true (writeDst s e d false (x.2.1.setWidth 64) x.2.2)
      (MayRun s (.ld f) e → Here s e [f.d, f.a, f.b] → exec (.ld f) s = .next (again f.d)) ∧
      (MayRun s (.ldi g) e → Here s e [g.d, g.a] → exec (.ldi g) s = .next (again g.d)) ∧
      (MayRun s (.gath f) e → Here s e [f.d, f.a] → exec (.gath f) s = .next (again f.d))) ∧
    ∀ va loc : Nat, loadsFull s e = false → redone s e = false →
    (MayRun s (.ld f) e → Here s e [f.d, f.a, f.b] → suppressed s e [f.a, f.b] = false →
      Reaches s e (effAddr s e f.x (srcVal s e f.a) (srcVal s e f.b)) (mBytes f.m) .read anyHome va loc →
      ReadIssues s e (.ld f) f.d ⟨memSz f.m, memU f.m, tfmt f.x⟩ (wordAccess s e f.m .load va loc (mBytes f.m))) ∧
    (MayRun s (.ldi g) e → Here s e [g.d, g.a] → suppressed s e [g.a] = false →
      Reaches s e (effAddrImm e (srcVal s e g.a) g.imm) (mBytes g.m) .read anyHome va loc →
      ReadIssues s e (.ldi g) g.d ⟨memSz g.m, memU g.m, ldiFmt g.m⟩ (wordAccess s e g.m .load va loc (mBytes g.m))) ∧
    (MayRun s (.gath f) e → Here s e [f.d, f.a] → suppressed s e [f.a] = false → shapeOnItsWay s e f.x = false →
      memSz f.m = (slotOf s e f.x).esz → (srcVal s e f.a).toNat % 2 ^ 32 < (slotOf s e f.x).count.toNat →
      Reaches s e (.va ((slotOf s e f.x).base.toNat + (srcVal s e f.a).toNat % 2 ^ 32 * mBytes f.m)) (mBytes f.m) .read
        anyHome va loc →
      ReadIssues s e (.gath f) f.d ⟨memSz f.m, memU f.m, tfmt f.x⟩ (wordAccess s e f.m .load va loc (mBytes f.m)))

/-- ST, STI and a SCAT within its slot's bounds issue a store of the low 2^SZ bytes of their value (R284, R285, R288,
R295). Run again in a firing that has begun again, they store nothing more (the model's reading, log entry 41). -/
def Obligations.StoreWords : Prop :=
  ∀ (s : State) (e : Env) (f : RegForm) (g : ImmForm),
    (redone s e = true →
      (MayRun s (.st f) e → Here s e [f.a, f.b, f.c] → exec (.st f) s = .next (advance e true s)) ∧
      (MayRun s (.sti g) e → Here s e [g.a, g.d] → exec (.sti g) s = .next (advance e true s)) ∧
      (MayRun s (.scat f) e → Here s e [f.a, f.b] → exec (.scat f) s = .next (advance e true s))) ∧
    ∀ va loc : Nat, storesFull s e = false → redone s e = false →
    (MayRun s (.st f) e → Here s e [f.a, f.b, f.c] → suppressed s e [f.a, f.b, f.c] = false →
      Reaches s e (effAddr s e f.x (srcVal s e f.a) (srcVal s e f.b)) (mBytes f.m) .write anyHome va loc →
      WriteIssues s e (.st f) { wordAccess s e f.m .store va loc (mBytes f.m) with
        data := bytesLE (mBytes f.m) (srcVal s e f.c).toNat }) ∧
    (MayRun s (.sti g) e → Here s e [g.a, g.d] → suppressed s e [g.a, g.d] = false →
      Reaches s e (effAddrImm e (srcVal s e g.a) g.imm) (mBytes g.m) .write anyHome va loc →
      WriteIssues s e (.sti g) { wordAccess s e g.m .store va loc (mBytes g.m) with
        data := bytesLE (mBytes g.m) (srcVal s e g.d).toNat }) ∧
    (MayRun s (.scat f) e → Here s e [f.a, f.b] → suppressed s e [f.a, f.b] = false → shapeOnItsWay s e f.x = false →
      memSz f.m = (slotOf s e f.x).esz → (srcVal s e f.a).toNat % 2 ^ 32 < (slotOf s e f.x).count.toNat →
      Reaches s e (.va ((slotOf s e f.x).base.toNat + (srcVal s e f.a).toNat % 2 ^ 32 * mBytes f.m)) (mBytes f.m) .write
        anyHome va loc →
      WriteIssues s e (.scat f) { wordAccess s e f.m .store va loc (mBytes f.m) with
        data := bytesLE (mBytes f.m) (srcVal s e f.b).toNat })

/-- A GATH or SCAT outside its slot's bounds runs without an access: GATH gives zero, and IDXDROP counts the index in its
half, saturating (R144, R145, R295). -/
def Obligations.IndexOutOfBounds : Prop :=
  ∀ (s : State) (e : Env) (f : RegForm), redone s e = false → shapeOnItsWay s e f.x = false → memSz f.m = (slotOf s e f.x).esz →
    (slotOf s e f.x).count.toNat ≤ (srcVal s e f.a).toNat % 2 ^ 32 →
    (MayRun s (.gath f) e → Here s e [f.d, f.a] → suppressed s e [f.a] = false → loadsFull s e = false →
      exec (.gath f) s = .next (advance e true (countDrop (gathZero s e f.d (tfmt f.x)) e.core false))) ∧
    (MayRun s (.scat f) e → Here s e [f.a, f.b] → suppressed s e [f.a, f.b] = false → storesFull s e = false →
      exec (.scat f) s = .next (advance e true (countDrop s e.core true)))

/-- ATOM, CAS and APPEND issue their request to a home with a bank unit, TICKET to CSM; an APPEND's counter has 4 bytes in
the core-local window and 8 outside (R289 to R292). -/
def Obligations.AtomicWords : Prop :=
  ∀ (s : State) (e : Env) (f : RegForm) (va loc : Nat), loadsFull s e = false → redone s e = false →
    let a := srcVal s e f.a
    let b := srcVal s e f.b
    let c := srcVal s e f.c
    let ad := effAddr s e f.x a 0
    let p : Placing := ⟨memSz f.m, memU f.m, tfmt f.x⟩
    let n := if addrLocal ad then 4 else 8
    (MayRun s (.atom f) e → Here s e [f.d, f.a, f.b] → suppressed s e [f.a, f.b] = false →
      ¬(mBytes f.m = 8 ∧ addrLocal ad = true) → Reaches s e ad (mBytes f.m) .both unitHome va loc →
      ReadIssues s e (.atom f) f.d p { wordAccess s e f.m .atom va loc (mBytes f.m) with
        a := b, aop := f.x.extractLsb' 8 4, u := memU f.m }) ∧
    (MayRun s (.cas f) e → Here s e [f.d, f.a, f.b, f.c] → suppressed s e [f.a, f.b, f.c] = false →
      ¬(mBytes f.m = 8 ∧ addrLocal ad = true) → Reaches s e ad (mBytes f.m) .both unitHome va loc →
      ReadIssues s e (.cas f) f.d p { wordAccess s e f.m .cas va loc (mBytes f.m) with a := b, b := c }) ∧
    (MayRun s (.append f) e → Here s e [f.d, f.a, f.b] → suppressed s e [f.a, f.b] = false →
      Reaches s e ad n .both unitHome va loc →
      ReadIssues s e (.append f) f.d ⟨3, true, tfmt f.x⟩ { wordAccess s e f.m .append va loc n with a := b }) ∧
    (MayRun s (.ticket f) e → Here s e [f.d, f.a, f.b, f.c] → suppressed s e [f.a, f.b, f.c] = false →
      Reaches s e ad 16 .both isCsm va loc →
      ReadIssues s e (.ticket f) f.d ⟨3, true, tfmt f.x⟩ { wordAccess s e f.m .ticket va loc 16 with
        a := if isNode e then b &&& 0xFFFFFFFF else b, b := if isNode e then c &&& 0xFFFFFFFF else c })

/-- The versioned words on the 64-byte record of a versioned window: STV, ADVV and RECLV issue as stores; LDV in a node or
an action as a load, and in a task it reserves its continuation, which will receive the answer, and ends the task (R293,
R294). FENCE of scope 0 only goes on, and any other issues an access that performs nothing but the ordering; SHAPE issues the
load of its record for the slot it names, in a task as an outstanding load, in an action parking it (R128, R285, R296,
R297). -/
def Obligations.VersionedFenceShape : Prop :=
  (∀ (s : State) (e : Env) (f : RegForm) (va loc : Nat),
      Reaches s e (effAddr s e f.x (srcVal s e f.a) 0) 64 .versioned anyHome va loc → redone s e = false →
      let v := srcVal s e f.b &&& 0xFFFFFF
      (MayRun s (.stv f) e → Here s e [f.a, f.b, f.c] → suppressed s e [f.a, f.b, f.c] = false → storesFull s e = false →
        WriteIssues s e (.stv f) { wordAccess s e f.m .stv va loc 64 with a := v, b := srcVal s e f.c &&& 0xFFFFFFFF }) ∧
      (MayRun s (.advv f) e → Here s e [f.a, f.b] → suppressed s e [f.a, f.b] = false → storesFull s e = false →
        WriteIssues s e (.advv f) { wordAccess s e f.m .advv va loc 64 with a := v }) ∧
      (MayRun s (.reclv f) e → Here s e [f.a, f.b] → suppressed s e [f.a, f.b] = false → storesFull s e = false →
        WriteIssues s e (.reclv f) { wordAccess s e f.m .reclv va loc 64 with a := v }) ∧
      (MayRun s (.ldv f) e → Here s e [f.d, f.a, f.b] → suppressed s e [f.a, f.b] = false → (∀ b, e.agent ≠ .bank b) →
        ReadIssues s e (.ldv f) f.d ⟨2, memU f.m, tfmt f.x⟩ { wordAccess s e f.m .ldv va loc 64 with a := v }) ∧
      ∀ b n s1, MayRun s (.ldv f) e → e.agent = .bank b → reserveCont s e.core (f.x.extractLsb' 8 6) .answer = some (n, s1) →
        exec (.ldv f) s = .next (endTask (issue s1 { wordAccess s e f.m .ldv va loc 64 with
          a := v, word := none, dest := .cont n }) e.core)) ∧
  (∀ (s : State) (e : Env) (f : RegForm), 
      (MayRun s (.fence f) e → predicate s e = true → redone s e = false → exec (.fence f) s = .next (
        if (memScope f.m).toNat = 0 then advance e true s
        else advance e false (issue s
          { baseAccess s e .fence 0 0 0 with scope := (memScope f.m).toNat, word := none }))) ∧
      ∀ va loc, (srcVal s e f.b).toNat ≤ 7 → loadsFull s e = false →
        Reaches s e (.va (srcVal s e f.a).toNat) 16 .read anyHome va loc →
        let a := { wordAccess s e f.m .shape va loc 16 with dest := .shape (Fin.ofNat 8 (srcVal s e f.b).toNat) }
        (∀ b, MayRun s (.shape f) e → e.agent = .bank b → exec (.shape f) s = .next (advance e false (issue
          (modCore s e.core fun k => modBank k b fun g => { g with ld := g.ld + 1 }) a))) ∧
        ∀ p, MayRun s (.shape f) e → e.agent = .parser p → exec (.shape f) s = .next (modCore (issue s a) e.core fun k =>
          modParser k p fun y => { y with run := y.run.map fun g => { g with parked := true } }))

/-- What an issued read leaves in a task: the access last among the accesses, nothing of memory changed, one more
outstanding load, and the destination pending; with x0 nothing waits (R218, R285). -/
def Obligations.IssuedReadInTask : Prop :=
  ∀ (s t : State) (e : Env) (b : BankId) (r : Fin 32) (p : Placing) (a : Access), e.agent = .bank b →
    issueRead s e (.x r) p a = .done t →
    let k := coreAt s e.core
    let k' := coreAt t e.core
    t.accs = s.accs ++ [{ a with
      id := s.nextId, stage := 0, dest := if r = 0 then .none else .xreg b r p.sz p.u }] ∧
    t.nextId = s.nextId + 1 ∧ (∀ x, memGet t.mem x = memGet s.mem x) ∧ (∀ c, c ≠ e.core → coreAt t c = coreAt s c) ∧
    (∀ b', b' ≠ b → at' k'.banks b' = at' k.banks b') ∧ (at' k'.banks b).x = (at' k.banks b).x ∧
    (at' k'.banks b).ld = (at' k.banks b).ld + 1 ∧ (at' k'.banks b).st = (at' k.banks b).st ∧
    (∀ n : Fin 32, (at' k'.banks b).pend.getLsbD n.val =
      ((at' k.banks b).pend.getLsbD n.val || (decide (n = r) && decide (r ≠ 0)))) ∧
    k'.task = k.task.map (fun x => { x with pc := x.pc + 8 }) ∧ k'.blk = k.blk

/-- A word whose address fails a check raises, in the order of R298: PROTECTION for a node's address past the window,
TRANSLATION above the 52-bit space, PROTECTION in an unmapped half of the window, ALIGN for an address that is no multiple
of the size, and PROTECTION for rights or a home that the word refuses; the record's ADDR is the address (R391). Said of LD
and ST in every context. -/
def Obligations.AddressFaults : Prop :=
  ∀ (s : State) (e : Env) (f : RegForm) (w : Bool), let i : Instr := if w then .st f else .ld f
    let ad := effAddr s e f.x (srcVal s e f.a) (srcVal s e f.b)
    let trap (code : FaultCode) (a : Nat) : Prop :=
      exec i s = .next (raiseRead code e.who (BitVec.ofNat 64 a) 0 e.launch.ctx s)
    MayRun s i e → Here s e [f.d, f.a, f.b, f.c] → redone s e = false → suppressed s e [f.a, f.b, f.c] = false →
    (if w then storesFull s e else loadsFull s e) = false →
    (∀ a, ad = .outside a → trap .protection a) ∧
    ∀ va, ad = .va va →
      (2 ^ 52 ≤ va → trap .translation va) ∧
      (va < 2 ^ 52 → (inWindow va && (va - windowBase) / 2 ^ 23 % 2 == 1) = true → trap .protection va) ∧
      (va < 2 ^ 52 → (inWindow va && (va - windowBase) / 2 ^ 23 % 2 == 1) = false → va % mBytes f.m ≠ 0 →
        trap .align va) ∧
      (va < 2 ^ 52 → (inWindow va && (va - windowBase) / 2 ^ 23 % 2 == 1) = false → va % mBytes f.m = 0 →
        ∀ loc r, translate s e.core e.launch.ctx va = .hit loc r →
          allowed s (if w then .write else .read) loc r = false → trap .protection va)

/-! ## Tasks and control -/

/-- The six conditions of a branch compare 64-bit values, signed or unsigned (R59, R308). BR, BRC and CALL go to the word at
OFF32 words from their own, CALL leaving pc + 8 in its link register; RET goes to its register; JTAB goes to its default
where the index reaches the length, and else fetches its entry, whose arrival moves the pc; NOP goes to the next word and
changes nothing else (R308 to R310, R327). -/
def Obligations.BranchWords : Prop :=
  (∀ a b : DWord, condHolds 0 a b = (a == b) ∧ condHolds 1 a b = (a != b) ∧ condHolds 2 a b = decide (a.toInt < b.toInt) ∧
    condHolds 3 a b = decide (b.toInt ≤ a.toInt) ∧ condHolds 4 a b = decide (a.toNat < b.toNat) ∧
    condHolds 5 a b = decide (b.toNat ≤ a.toNat)) ∧
  ∀ (s : State) (e : Env) (f : BrForm) (g : RegForm),
    let target := e.who.pc + 8 * f.off.signExtend 64
    let i := srcVal s e g.a
    let t := srcVal s e g.b
    let n := srcVal s e g.c
    Runs s e (.nop g) (advance e true s) ∧
    Runs s e (.br f) (setPc s e target) ∧
    Runs s e (.brc f) (if condHolds f.cc.toNat (srcVal s e f.a) (srcVal s e f.b) then setPc s e target else advance e true s) ∧
    Runs s e (.call f) (setPc (writeDst s e f.a false (e.who.pc + 8) .raw) e target) ∧
    (i.toNat % 8 = 0 → Runs s e (.ret g) (setPc s e i)) ∧
    (n.toNat ≤ i.toNat → Runs s e (.jtab g) (setPc s e (e.who.pc + 8 * g.x.signExtend 64))) ∧
    (i.toNat < n.toNat → t.toNat % 4 ≠ 0 → Traps s e (.jtab g) .align t 0) ∧
    (∀ b va loc, e.agent = .bank b → i.toNat < n.toNat → t.toNat % 4 = 0 →
      Reaches s e (.va (t + 4 * i).toNat) 4 .read anyHome va loc →
      Runs s e (.jtab g) (issue s { baseAccess s e .load va loc 4 with word := none, dest := .jtab b })) ∧
    ∀ (a : Access) (b : BankId) (x : Task) (v v2 : DWord), a.dest = .jtab b → taskOf s a.who.core = some x → x.bank = b →
      taskOf (deliver s a v v2) a.who.core = some { x with pc := x.pc + 8 * (v.setWidth 32).signExtend 64 }

/-- RET is F-REG with OP 0x53 and A an x register, and every other field zero; it sets the pc to its register's value, and
a value whose low three bits are not zero raises ALIGN with no other effect (R309). -/
def Obligations.ReturnSetsPc : Prop :=
  ∀ f : RegForm,
    (∀ w, encode (.ret f) = some w → w = 0x53#8 ++ (regBits f)) ∧
    ((Instr.ret f).wf .task = true ↔ ∃ r, f = { d := .x 0, a := .x r, b := .x 0, c := .x 0, m := 0, x := 0 }) ∧
    ∀ (s : State) (e : Env), MayRun s (.ret f) e →
      ((srcVal s e f.a).extractLsb' 0 3 = 0 → ∃ t, exec (.ret f) s = .next t ∧
        taskOf t e.core = (taskOf s e.core).map (fun x => { x with pc := srcVal s e f.a }) ∧
        t = modCore s e.core fun k => { k with task := taskOf t e.core }) ∧
      ((srcVal s e f.a).extractLsb' 0 3 ≠ 0 → exec (.ret f) s = .next (raise .align e.who (srcVal s e f.a) 0 s))

/-- TRAP is F-IMM with OP 0x5F and D, A and M zero; it always raises TRAP, which ends the launch, with IMM32 in the low half
of the record's extra state and zero above; in task code a nonzero D, A or M raises ILLEGAL_OPERAND instead (R326). -/
def Obligations.TrapEndsLaunch : Prop :=
  ∀ (f : ImmForm) (s : State) (e : Env),
    (∀ w, encode (.trap f) = some w → w = 0x5F#8 ++ immBits f) ∧
    ((Instr.trap f).wf .task = true ↔ f.d = .x 0 ∧ f.a = .x 0 ∧ f.m = 0) ∧
    (MayRun s (.trap f) e → exec (.trap f) s = .next (raise .trap e.who 0 (f.imm.setWidth 64) s)) ∧
    (∀ l, launchBy s e.who.launch = some l → isLive l.phase = true → ∃ l',
      launchBy (raise .trap e.who 0 (f.imm.setWidth 64) s) e.who.launch = some l' ∧ l'.phase = .ending ∧
      l'.status = some .faulted ∧ l'.fault = some ⟨.trap, e.who, 0, 0#32 ++ f.imm, 0, s.now⟩) ∧
    (envOf s (.trap f) = some e → heldAtIssue s e = false → (e.kind = .task ∨ e.kind = .system) →
      ¬(f.d = .x 0 ∧ f.a = .x 0 ∧ f.m = 0) → exec (.trap f) s = .next (raise .illegalOperand e.who e.who.pc 0 s))

/-- TEND ends the task and nothing more, but that the cycles so far are none in which the founder of its chain was blocked (the
model's reading, log entry 25); DONE waits for a release at core scope, sends the done token of its task's chain once, and ends
the task (R311); that it waits at issue and then does all this in one step is the model's reading (log entry 32). The register
banks with their pending bits and the outstanding accesses stay. -/
def Obligations.TaskEnds : Prop :=
  ∀ (s : State) (e : Env) (f : RegForm),
    let ended (s' : State) : State := endTask s' e.core
    Runs s e (.tend f) (ended (dropChain s e.core)) ∧
    (∃ cs, dropChain s e.core = { s with cores := cs } ∧
      ∀ c, { coreAt (dropChain s e.core) c with lastAct := (coreAt s c).lastAct } = coreAt s c) ∧
    (released s e 1 = true → Runs s e (.done f) (ended (match (taskOf s e.core).bind (·.chain) with
      | some h => sendChainDone s h
      | none => s))) ∧
    (released s e 1 = false → Runs s e (.done f) s) ∧
    taskOf (ended s) e.core = none ∧ (coreAt (ended s) e.core).banks = (coreAt s e.core).banks ∧
    (ended s).accs = s.accs ∧ (ended s).mem = s.mem ∧ ∀ c, c ≠ e.core → coreAt (ended s) c = coreAt s c

/-- TPOST and MSEND place their message last in the sender's outgoing queue when it has room, with the words of the run from
C, and go on (R303, R312). The ADDR of their faults is the instruction's address (the model's reading, log entry 34). -/
def Obligations.MessageWords : Prop :=
  ∀ (s : State) (e : Env) (f : RegForm), let ch := srcVal s e f.b
    let t := srcVal s e f.a
    let words := messageWords s e f.c f.x.toNat
    let room := (coreAt s e.core).outq.length < 16
    (ch.toNat ≤ 63 → room → Runs s e (.tpost f) (advance e false (queued s e 0 e.core (ch.setWidth 6) words))) ∧
    (63 < ch.toNat → Traps s e (.tpost f) .illegalOperand e.who.pc 0) ∧
    (∀ c : CoreId, ch.toNat ≤ 63 → t.toNat = c.val → e.launch.cores.contains c = true → room →
      Runs s e (.msend f) (advance e false (queued s e 1 c (ch.setWidth 6) words))) ∧
    (∀ c : CoreId, ch.toNat ≤ 63 → t.toNat = c.val → e.launch.cores.contains c = false →
      Traps s e (.msend f) .protection e.who.pc 0) ∧
    (63 < ch.toNat ∨ 255 < t.toNat → Traps s e (.msend f) .illegalOperand e.who.pc 0)

/-- WAIT, SEQWT, BARW and RANGE reserve the continuation of their condition and end the task; where the condition of a WAIT,
SEQWT or BARW holds already, the continuation is posted at once. RANGE joins the requests of its queue, once a pipelined
launch's stores are released (R313 to R316, R319, R378). The ADDR of their faults, RANGE's PROTECTION among them, is the
instruction's address (the model's reading, log entry 34). -/
def Obligations.SplitPhaseWords : Prop :=
  ∀ (s : State) (e : Env) (f : RegForm) (w : WaitForm), let a := (srcVal s e f.a).toNat
    let v := (srcVal s e f.b).setWidth 32
    Splits s e (.wait w) (w.chan.setWidth 6) (.counts w.ld w.st w.cp w.tl w.gx) ∧
    (∀ c : Fin 4, a = c.val → Splits s e (.seqwt f) (chanOf f.x) (.seq c v)) ∧
    (3 < a → Traps s e (.seqwt f) .illegalOperand e.who.pc 0) ∧
    (∀ b : Fin 1024, a = b.val → b ≠ 0 → Splits s e (.barw f) (chanOf f.x) (.barrier b v)) ∧
    (a = 0 ∨ 1023 < a → Traps s e (.barw f) .illegalOperand e.who.pc 0) ∧
    (63 < a → Traps s e (.range f) .illegalOperand e.who.pc 0) ∧
    ∀ q : Fin 64, a = q.val →
      let owned := (dieAt s e.launch.rdie).rqs.any fun x => x.1 == q && x.2.launch == e.launch.id
      (owned = false → Traps s e (.range f) .protection e.who.pc 0) ∧
      ∀ t, owned = true → (nStages e.launch.recd ≠ 0 → released s e 4 = true) → taskOf s e.core = some t →
        storeUsed (coreAt s e.core) < 256 →
        let s1 := endTask (withCont s e.core t (chanOf f.x) .answer) e.core
        let s2 := if nStages e.launch.recd ≠ 0 then completeRange s1 e.launch e.core s.nextId else s1
        Runs s e (.range f) (modDie s2 e.launch.rdie fun d =>
          modRq d q fun r => { r with asks := r.asks ++ [(s.now, e.core, some s.nextId)] })

/-- An arrival joins the first of the current and the next phase whose part is not complete on its core, counts itself there,
and answers the phase; it raises BARRIER, with that phase, where the expected count or the scope differs from the first
arrival's, or the scope clashes with another core's, and where a third phase would open, with the phase after the next. BARA
answers the phase in D, GBAR waits for it at package scope; both wait at issue for their release (the model's reading, log entry
32), and raise ILLEGAL_OPERAND for a number, a count or a scope out of range (R317, R318, R320). Both complete on every barrier
whose part in the current phase is not complete and that no core has joined in another way. -/
def Obligations.BarrierWords : Prop :=
  ∀ (s : State) (e : Env) (f : RegForm) (b : Fin 1024) (x : Barrier), let n := (srcVal s e f.b).toNat
    let scope := (srcVal s e f.c).toNat
    barrierAt (coreAt s e.core) b = x → (srcVal s e f.a).toNat = b.val →
    let joins (sc : Nat) (ph : Word) (p : Phase) : Prop :=
      (p.cnt = 0 ∨ p.e = n ∧ p.s = sc) ∧ scopesClash s e.launch e.core b ph sc = false
    let arrived (sc : Nat) : List (Bool × Word × Barrier) :=
      [(!partDone x.cur, x.phase, { x with cur := ⟨x.cur.cnt + 1, n, sc⟩ }),
       (partDone x.cur && !partDone x.nxt, x.phase + 1, { x with nxt := ⟨x.nxt.cnt + 1, n, sc⟩ })]
    let at1 (y : Barrier) : State := modCore s e.core fun k => setBarrier k b y
    let differs (sc : Nat) (ph : Word) (p : Phase) : Prop :=
      p.cnt ≠ 0 ∧ (p.e ≠ n ∨ p.s ≠ sc) ∨ scopesClash s e.launch e.core b ph sc = true
    let clashes (i : Instr) (sc : Nat) : Prop := barrierArgsOk b.val n sc = true →
      (released s e sc = false → Runs s e i s) ∧
      (released s e sc = true →
        (∀ ph y, (true, ph, y) ∈ arrived sc → differs sc ph (if ph = x.phase then x.cur else x.nxt) →
          Runs s e i (barrierFault s e b ph)) ∧
        (partDone x.cur = true → partDone x.nxt = true → Runs s e i (barrierFault s e b (x.phase + 2))))
    clashes (.bara f) scope ∧ clashes (.gbar f) 4 ∧
    (barrierArgsOk b.val n scope = false → Traps s e (.bara f) .illegalOperand e.who.pc 0) ∧
    (barrierArgsOk b.val n 4 = false → Traps s e (.gbar f) .illegalOperand e.who.pc 0) ∧
    (barrierArgsOk b.val n scope = true → released s e scope = true →
      (∀ ph y, (true, ph, y) ∈ arrived scope → joins scope ph (if ph = x.phase then x.cur else x.nxt) →
        Runs s e (.bara f) (advance e false
          (let s2 := writeDst (at1 y) e f.d false (ph.setWidth 64) .raw
           match e.agent, currentAct s e with
           | .parser p, some a => modCore s2 e.core fun k => { k with arrivals := k.arrivals ++ [(p, a, b, ph)] }
           | _, _ => s2)))) ∧
    (barrierArgsOk b.val n 4 = true → released s e 4 = true → ∀ t, taskOf s e.core = some t →
      storeUsed (coreAt s e.core) < 256 → ∀ ph y, (true, ph, y) ∈ arrived 4 →
      joins 4 ph (if ph = x.phase then x.cur else x.nxt) →
      Runs s e (.gbar f) (splitFrom (at1 y) e t (chanOf f.x) (.barrier b ph))) ∧
    (partDone x.cur = false →
      (MayRun s (.bara f) e → barrierArgsOk b.val n scope = true → released s e scope = true →
        joins scope x.phase x.cur → ∃ t, exec (.bara f) s = .next t ∧
          barrierAt (coreAt t e.core) b = { x with cur := ⟨x.cur.cnt + 1, n, scope⟩ } ∧
          ∀ d r, e.agent = .bank d → f.d = .x r → r ≠ 0 →
            readX (at' (coreAt t e.core).banks d) r = x.phase.setWidth 64) ∧
      (∀ k, MayRun s (.gbar f) e → barrierArgsOk b.val n 4 = true → released s e 4 = true → taskOf s e.core = some k →
        storeUsed (coreAt s e.core) < 256 → joins 4 x.phase x.cur → ∃ t, exec (.gbar f) s = .next t ∧
          barrierAt (coreAt t e.core) b = { x with cur := ⟨x.cur.cnt + 1, n, 4⟩ } ∧ taskOf t e.core = none))

/-! ## Special registers -/

/-- CNTRD reads the counter that it names, 0 to 7 (R325). MFS writes the register that its index names to its destination, with
the register's read effect; MTS writes it under the register's access, and waits at a channel entry that is still being
rewritten. CLKST gives the die's temperature, measured once in a cycle (its value is free, log entry 74), and whether its clock
is stepped down: it is at 100 °C or above and not below 95 °C, and at 110 °C the package loses power (R439). From 0x800 upward a
context without the system right takes PRIVILEGE; below, and in system code, an index of no register takes ILLEGAL_OPERAND
(R321, R418). -/
def Obligations.SpecialRegisterWords : Prop :=
  ∀ (s : State) (e : Env) (f : ImmForm) (g : RegForm), let i := f.imm.toNat
    let src := srcVal s e f.a
    let n := (srcVal s e g.a).toNat
    let dst (s' : State) (v : DWord) : State := advance e true (writeDst s' e f.d false v .raw)
    (∀ k : Fin 8, n = k.val →
      Runs s e (.cntrd g) (advance e true (writeDst s e g.d false (at' (coreAt s e.core).blk.ctr k) .raw))) ∧
    (7 < n → Traps s e (.cntrd g) .illegalOperand e.who.pc 0) ∧
    (i < 0x800 →
      (∀ v s1, readSpecial s e i = some (v, s1) → Runs s e (.mfs f) (dst s1 v)) ∧
      (readSpecial s e i = none → Traps s e (.mfs f) .illegalOperand e.who.pc 0) ∧
      (∀ s1, writeSpecial s e.core e.launch.ctx i src = .ok s1 → Runs s e (.mts f) (advance e true s1)) ∧
      (writeSpecial s e.core e.launch.ctx i src = .bad → Traps s e (.mts f) .illegalOperand e.who.pc 0) ∧
      (writeSpecial s e.core e.launch.ctx i src = .busy → Runs s e (.mts f) s)) ∧
    (0x800 ≤ i → e.kind ≠ .system →
      Traps s e (.mfs f) .privilege e.who.pc 0 ∧ Traps s e (.mts f) .privilege e.who.pc 0) ∧
    (e.kind = .system →
      (∀ v, 0x800 ≤ i → i ≠ 0x808 → sysReg s e.core i = some v → Runs s e (.mfs f) (dst s v)) ∧
      (i = 0x808 →
        let d := dieOf e.core
        let x := dieAt s d
        let clkst (b : Bool) (t : BitVec 8) : DWord := BitVec.ofNat 64 ((if b then 1 else 0) + t.toNat * 256)
        (x.tempAt = some s.now → Runs s e (.mfs f) (dst s (clkst x.stepped x.temp))) ∧
        (x.tempAt ≠ some s.now → let t := Config.temp d s.now
          let b := if 100 ≤ t.toNat then true else if t.toNat < 95 then false else x.stepped
          Runs s e (.mfs f) (dst
            (modDie { s with powered := s.powered && t.toNat < 110 } d fun x =>
              { x with stepped := b, temp := t, tempAt := some s.now }) (clkst b t)))) ∧
      (0x800 ≤ i → i ≤ 0x808 → Runs s e (.mts f) (advance e true s)) ∧
      (0x809 ≤ i → Traps s e (.mfs f) .illegalOperand e.who.pc 0 ∧ Traps s e (.mts f) .illegalOperand e.who.pc 0))

/-- Reading a special register changes nothing, but for IDXDROP, which it clears, CONF of SKSTAT, and RECN of a PSTAT; what the
cycle of the read has counted or set itself stays (R5, R7, R72, R145, R197). -/
def Obligations.SpecialReadFrame : Prop :=
  ∀ (s s1 : State) (e : Env) (i : Nat) (v : DWord), readSpecial s e i = some (v, s1) →
    let k := coreAt s e.core
    let k1 := coreAt s1 e.core
    (i ≠ 0x31 → i ≠ 0x43 → ¬(0x50 ≤ i ∧ i ≤ 0x53) → s1 = s) ∧ OutsideCore e.core s s1 ∧
    (i = 0x31 → v = k.blk.idxdrop ∧
      let now := min k.dropNow.2.2 (2 ^ 32 - 1) * 2 ^ 32 + min k.dropNow.2.1 (2 ^ 32 - 1)
      k1 = { k with blk := { k.blk with idxdrop := if k.dropNow.1 = s.now then BitVec.ofNat 64 now else 0 } }) ∧
    (i = 0x43 → k.confAt = some s.now → v = k.blk.skstat ∧ k1 = k) ∧
    (i = 0x43 → k.confAt ≠ some s.now → v = k.blk.skstat ∧ k1.blk.skstat.getLsbD 58 = false ∧
      (∀ n, n ≠ 58 → k1.blk.skstat.getLsbD n = k.blk.skstat.getLsbD n) ∧
      k1 = { k with blk := { k.blk with skstat := k1.blk.skstat } }) ∧
    ∀ p : ParserId, i = 0x50 + p.val →
      k1 = modParser k p (fun z => { z with recn := if z.recNow.1 = s.now then min 8191 z.recNow.2 else 0 }) ∧ v.extractLsb' 32 13 = BitVec.ofNat 13 (min (at' k.parsers p).recn 8191)

/-- What a special register holds after a write: a read-only one as before, FLAGS without the bits written 1 but for those that
this cycle has set (R7), POLICY and the enables of CNT the value's field with each counter named by CLR at the events of its own
cycle, AMAX by its own rule, a sizing register the value where it lies in its range, and a value out of range nothing (R5, R7,
R110, R112, R196, R325). -/
def Obligations.SpecialWriteThenRead : Prop :=
  ∀ (s : State) (e : Env) (v : DWord) (x : Ctx), ctxBy s e.launch.ctx = some x →
    let wr (i : Nat) : WriteEnd := writeSpecial s e.core e.launch.ctx i v
    let holds (i : Nat) (r : DWord) : Prop := ∃ s1, wr i = .ok s1 ∧ (readSpecial s1 e i).map (·.1) = some r
    let b := (coreAt s e.core).blk
    (∀ i ∈ [0x000, 0x001, 0x002, 0x003, 0x004, 0x005, 0x020, 0x021, 0x022, 0x023, 0x031, 0x043, 0x050, 0x051, 0x052, 0x053],
      wr i = .ok s) ∧
    (let k := coreAt s e.core
     holds 0x010 ((b.flags &&& ~~~ (v.setWidth 6 &&& ~~~ (if k.flagsNow.1 = s.now then k.flagsNow.2 else 0))).setWidth 64)) ∧
    holds 0x011 ((v.setWidth 3).setWidth 64) ∧
    holds 0x012 (amaxStored v) ∧ holds 0x030 ((v.setWidth 8).setWidth 64) ∧
    (∃ s1, wr 0x030 = .ok s1 ∧ ∀ n : Fin 8, at' (coreAt s1 e.core).blk.ctr n = if v.getLsbD (8 + n.val) then at' (countsNow s.now (coreAt s e.core)) n else at' b.ctr n) ∧
    (1 ≤ field v 3 0 ∧ field v 3 0 ≤ 14 → holds 0x040 (BitVec.ofNat 64 (field v 3 0))) ∧
    (¬(1 ≤ field v 3 0 ∧ field v 3 0 ≤ 14) → wr 0x040 = .bad) ∧
    (1 ≤ field v 1 0 ∧ field v 1 0 ≤ 2 → holds 0x041 (BitVec.ofNat 64 (field v 1 0))) ∧
    (¬(1 ≤ field v 1 0 ∧ field v 1 0 ≤ 2) → wr 0x041 = .bad) ∧
    (1 ≤ field v 2 0 ∧ field v 2 0 ≤ 4 → holds 0x042 (BitVec.ofNat 64 (field v 2 0))) ∧
    (¬(1 ≤ field v 2 0 ∧ field v 2 0 ≤ 4) → wr 0x042 = .bad)

/-- The accesses to special registers as steps of their own: on a core that a launch holds, a write has the register's own
effect, and a read with a read effect puts the value in its register and clears in the same step, but for what the same
cycle has set; a channel entry's rewrite
holds from 4 cycles on (R72, R110, R112, R145, R196, R197, R304, R321, R325). -/
def Obligations.SpecialRegisterSteps : Prop :=
  ∀ (s : State) (c : CoreId) (l : Launch) (v : DWord), holderOf s c = some l →
    let k := coreAt s c
    (∀ n, (at' k.chtab n).next = none → exec (.chtabWrite c n v) s = .next (modCore s c fun k =>
      { k with chtab := put k.chtab n { at' k.chtab n with next := some (v &&& chanMask, s.now + 4) } })) ∧
    (∀ n w t, (at' k.chtab n).next = some (w, t) → t ≤ s.now → exec (.chtabUpdate c n) s = .next (modCore s c fun k =>
      { k with chtab := put k.chtab n ⟨w, none⟩ })) ∧
    (∀ n w t, (at' k.chtab n).next = some (w, t) → s.now < t → exec (.chtabUpdate c n) s = .next s) ∧
    (k.flagsNow.1 ≠ s.now → exec (.flagsClear c v) s = .next (modCore s c fun k =>
      { k with blk := { k.blk with flags := k.blk.flags &&& ~~~ (v.setWidth 6) } })) ∧
    (k.flagsNow.1 = s.now → exec (.flagsClear c v) s = .next (modCore s c fun k =>
      { k with blk := { k.blk with flags := k.blk.flags &&& ~~~ (v.setWidth 6 &&& ~~~ k.flagsNow.2) } })) ∧
    exec (.amaxWrite c v) s = .next (modCore s c fun k => { k with blk := { k.blk with amax := amaxStored v } }) ∧
    exec (.cntWrite c v) s = .next (writeCnt s c v) ∧
    (∀ r s1, writeSk s l.ctx r.val v = some s1 → exec (.sksizeWrite c r v) s = .next s1) ∧
    (∀ r t, writeSk s l.ctx r.val v = none → k.task = some t →
      exec (.sksizeWrite c r v) s = .next (raise .illegalOperand ⟨l.id, c, 1, t.bank.val, t.wid, t.pc, 0⟩ t.pc 0 s)) ∧
    (∀ i s1, writeSpecial s c l.ctx i.toNat v = .ok s1 → exec (.registerWrite c i v) s = .next s1) ∧
    ∀ b d,
      exec (.idxdropRead c b d) s = .next (modCore s c fun k =>
        clearDrops s.now (modBank k b (writeX · d k.blk.idxdrop))) ∧
      (k.dropNow.1 ≠ s.now → (clearDrops s.now k).blk.idxdrop = 0) ∧
      exec (.skstatRead c b d) s = .next (modCore s c fun k =>
        clearConf s.now (modBank k b (writeX · d k.blk.skstat))) ∧
      (k.confAt ≠ some s.now → (clearConf s.now k).blk.skstat = k.blk.skstat &&& ~~~ (1#64 <<< 58)) ∧
      ∀ p, exec (.pstatRead c p b d) s = .next (modCore s c fun k =>
        modParser (modBank k b (writeX · d (pstatOf (at' k.parsers p)))) p (clearRecn s.now)) ∧
        ((at' k.parsers p).recNow.1 ≠ s.now → (clearRecn s.now (at' k.parsers p)).recn = 0)

/-! ## Engines -/

/-- SSPEC, SARM, COPY, COPYC, TLD, TST, TCLR, MLDB, SPLD, MMA, MNORM, GLOAD, GBIND, GFREE, GQRY, SKBLD, SKXCH, SKSUB, SKPEEL,
SKRECON and SKFIX, and GSTART, GSTOP, GMASK, GFEED and GSTAT, offer their command to their engine, with the values of their
operands. A task goes on, its category counts one more, and the result's register is pending; with 64 in the category it
waits at issue. An action goes on, or parks at a word with a result. GSKIP in an action skips N words where its condition
holds, and they are done with it (R314, R329, R332, R348). -/
def Obligations.EngineWords : Prop :=
  (∀ i, (engQueue i).isSome = (commandOperands i).isSome) ∧
  ∀ (s : State) (e : Env) (i : Instr) (q : EngQ) (o : Operand × Operand × Operand × Operand) (f : SkipForm),
    let s1 := offered s e i q o
    (∀ p, e.agent = .parser p →
      let n := if condHolds f.cc.toNat (srcVal s e f.a) (srcVal s e f.b) then 1 + f.n.toNat else 1
      Runs s e (.gskip f) (modCore s e.core fun k => modParser k p fun z =>
        match z.run with
        | some r => actAdvance (actDone z r.id n) n
        | none => z)) ∧
    (engQueue i = some q → commandOperands i = some o →
      (∀ b, e.agent = .bank b → catCount (at' (coreAt s e.core).banks b) (waitCat i) < 64 →
        Runs s e i (advance e false (modCore s1 e.core fun k => modBank k b fun y =>
          setPending (modCat y (waitCat i) (· + 1)) (resultReg i)))) ∧
      (∀ b, e.agent = .bank b → 64 ≤ catCount (at' (coreAt s e.core).banks b) (waitCat i) → Runs s e i s) ∧
      ∀ p, e.agent = .parser p → Runs s e i (
        if (resultOperand i).isSome then modCore s1 e.core fun k => modParser k p fun y =>
          { y with run := y.run.map fun g => { g with parked := true } }
        else advance e false s1))

/-- The life of a command after its issue: it enters its queue in order with its claims where there is room; it starts when it
is the next of its queue and its claims and its acquire let it, and then does its work, waits, or raises its fault as its
engine, ILLEGAL_OPERAND where it names the half of a split core that its launch does not have (R433, log entry 86),
UNCORRECTABLE where a word of its tiles or blocks is bad (R437); a command that could not name its regions at acceptance first
names them in the place of its claim (the model's reading, log entry 75); it reports its completion once its work has landed and
its writes allow it; a copy's follow-on MMA enters the matrix queue once the copy's last byte has landed; a copy that waits for
its remote package goes on with the acknowledgement; a bound graph takes the vector that is ready in its turn, or its quantiser
the next token of its lane, and its oldest result leaves (R22, R129, R159, R172 to R176, R330 to R333, R421). The steps of a
reconciliation session: a side whose peer's side is there is paired with it, both where the peer is on this package, when the
two agree; a round, or the meeting of two expert commands, is run by the session that is the smallest of its die; the fallback
streams both change sets; a side whose peer is lost before the commit point ends with SKETCH_PEEL (R191 to R194, R199). -/
def Obligations.EngineSteps : Prop :=
  (∀ (s : State) (c : CoreId) (l : Launch) (g : Eng), engBy s g.id = some g → g.who.core = c →
      launchBy s g.who.launch = some l →
      (g.stage = .offered → mayStep l.phase = true → queueRoom s g = true →
        ((∀ f, g.i ≠ .gbind f) → exec (.engineCommandAccept c g.id) s = .next (enterQueue s g [])) ∧
        ∀ f bs, g.i = .gbind f → g.a.toNat % 32 = 0 → acquired s g = true → engRead s g g.a.toNat 32 = .inl bs →
          exec (.engineCommandAccept c g.id) s = .next (enterQueue s g (dwordsOf bs))) ∧
      (g.stage = .queued → mayStart s l g = true → isNext s g = true → claimsOk g.id [] (coreAt s c).claims = true →
        (touchesMemory g = true → acquired s g = true) → claimsAll (coreAt s c) g.id = false →
        (∀ t, startCommand s l g = .go t → exec (.engineCommandStart c g.id) s = .next (
          if namesOther s g = true then raise .illegalOperand g.who 0 0 s
          else match regionBad s g with
            | some loc => raiseRead .uncorrectable g.who 0 (physAddr s loc) g.ctx s
            | none => active t c)) ∧
        (startCommand s l g = .wait → exec (.engineCommandStart c g.id) s = .next s) ∧
        ∀ f, startCommand s l g = .trap f → exec (.engineCommandStart c g.id) s = .next
          (match f.hold with
            | .fault => raiseRead f.code g.who f.addr f.extra g.ctx (if f.code = .boundary then countBoundary s c else s)
            | .miss => addMiss s (.engine g.id) g.who g.ctx f.addr.toNat
            | .busy => s)) ∧
      (g.stage = .queued → mayStart s l g = true → isNext s g = true → (touchesMemory g = true → acquired s g = true) →
        claimsAll (coreAt s c) g.id = true → exec (.engineCommandStart c g.id) s = .next (settleClaims s g)) ∧
      (g.stage = .landed → mayReport s g = true → g.follow = none → writesDone s g = true →
        (g.q ≠ .chisel → exec (.engineCommandComplete c g.id) s = .next (reportDone s g)) ∧
        ∀ t, g.q = .chisel → chiselDone s g ((unitOfCommand g.i).getD 16) = some t →
          exec (.engineCommandComplete c g.id) s = .next (reportDone t g)) ∧
      (∀ n, g.stage = .landed → mayReport s g = true → g.follow = some n → engBy s n = none →
        let r := seqIssue s c followInstr
        let m : Eng := { g with
          id := n, order := r.2.nextId, who := { g.who with unit := 7, elem := 0 }, q := .matrix, i := followInstr, a := g.c,
          desc := [], stage := .queued, follow := none, leader := some g.id, flags := 0, result := 0, seqNo := r.1,
          mute := false }
        queueRoom s m = true → exec (.followOnMmaIssue c g.id) s =
          .next (active { r.2 with nextId := r.2.nextId + 1, engs := r.2.engs ++ [m] } c)) ∧
      (∀ h r, g.stage = .started → g.desc ≠ [] → g.q = .chain h → isLive l.phase = true →
        (remoteFits g r = true → exec (.remoteAck c g.id r) s = .next (active (remoteAnswer s g r) c)) ∧
        (remoteFits g r = false → exec (.remoteAck c g.id r) s = .next s)) ∧
      ∀ h x b, at' (coreAt s c).graphs h = some x → x.bind = some b → coreSteps s c = true →
        (holderOf s c = some l → mayStep l.phase = true →
          (vectorReady x b = true → nextTurn (coreAt s c).armTurn (handleReady (coreAt s c)) = some h →
            exec (.vectorAccept c h) s = .next (takeVector s c h x b)) ∧
          (vectorReady x b = false → bdSrc b.desc = 0 → exec (.vectorAccept c h) s = .next (acceptLane s l c h x b))) ∧
        ∀ v vs, b.fly = v :: vs →
          (bdDst b.desc = 1 → exec (.vectorResult c h) s = .next (dropVec (resultTile s c b.desc v) c h)) ∧
          (∀ t, bdDst b.desc = 2 → b.cmd = g.id → resultMem s g b.desc v = .inl t →
            exec (.vectorResult c h) s = .next (dropVec t c h)) ∧
          (bdDst b.desc = 0 → v.sent + 1 ≥ v.out.length → canWrite (coreAt s c) (agRouter (bdOedge b.desc)) 3 = true →
            exec (.vectorResult c h) s = .next (dropVec (active (modCore s c fun k =>
              writeLocal k (agRouter (bdOedge b.desc)) 3 (.tok (resultTok v))) c) c h))) ∧
  (∀ (s s1 : State) (d : DieId) (peer : Option PeerSide) (a : Half) (o : Other) (x : Session),
      (∀ slot, halfAt s d slot = some a → a.side.paired = false → sidePairs s a.side = true → otherOf s a peer = some o →
        sidesAgree a o = true → (∀ b, o = .here b → sidePairs s b.side = true) → exec (.sessionPair d slot peer) s = .next
          (match o with
            | .here b => pairSide (movedBoth (pairSide s d slot) a o) b.die b.side.slot
            | .beyond _ => movedBoth (pairSide s d slot) a o)) ∧
      (currentHalf s d = some a → otherOf s a peer = some o → sideLive s a.side = true → otherLive s o = true →
        slotOpen s d a.cls.ctx = true → openFor s a o = some (s1, x) → x.committed = false →
        (a.side.expert = true → exec (.sketchRound d peer) s = .next (expertRound s1 a o)) ∧
        (a.side.expert = false → x.fallback = false → exec (.sketchRound d peer) s = .next (reconRound s1 a o x)) ∧
        (a.side.expert = false → x.fallback = true → exec (.sessionFallback d peer) s = .next
          (fallbackRun s1 a o x))) ∧
      (((dieAt s d).sides.filterMap fun y => halfAt s d y.slot).find? (peerLost s) = some a →
        let s2 := modSk s a.side.who (skEnd 0 3)
        exec (.sessionAbort d) s = .next (dropSide
          (sideStop s2 a ⟨.sketchPeel, 0, (coreAt s2 a.side.who.core).blk.skstat, .fault⟩) d a.side.slot
          (if peerHere s a.cls && clsDie a.cls = d then some (clsSlot a.cls) else none))))

/-! ## System words -/

/-- The system words in system context: each waits at issue until it may act, has its operation, and its D takes the value that
the Plinth answers, at once or in its own time; PGVER of a page that does not translate, or whose leaf lacks EX, raises that
fault. In task context each raises PRIVILEGE (R224, R403 to R417). -/
def Obligations.SystemWords : Prop :=
  ∀ (s : State) (e : Env) (f : RegForm) (b : BankId),
    let a := srcVal s e f.a
    let v := srcVal s e f.b
    let c := srcVal s e f.c
    let n := (issueSys s e b (sysDest f)).1
    let s1 := (issueSys s e b (sysDest f)).2
    let me : Asker := .task e.core b n
    (∀ i ∈ [Instr.ctxsv f, .ctxld f, .freeze f, .rmark f, .tlbi f, .cfgld f, .jrnl f, .sema f, .sret f, .haltc f, .attest f,
        .pgver f, .partset f],
      (e.agent = .bank b → (released s e 5 = false ∨ s.cmds ≠ [] ∨ mayReach s (sysPlace e) = false) → Runs s e i s) ∧
      (envOf s i = some e → heldAtIssue s e = false → e.kind = .task →
        exec i s = .next (raise .privilege e.who e.who.pc 0 s))) ∧
    (SysReady s e b →
      (∀ x h t, ctxOperand s a = some x → x.held = some h → v.toNat % 4096 = 0 →
        sysWrite s e true v.toNat (areaBytes x h) = .inl t →
        Runs s e (.ctxsv f) (sysLeaves (keepStreams t h) e b f (BitVec.ofNat 64 (areaLen h.cores.length)))) ∧
      (∀ x h, ctxOperand s a = some x → x.held = some h → mayRestore x = true →
        (v = 0 → Runs s e (.ctxld f) (askRestore s1 x.n me)) ∧
        ∀ hd bs, v ≠ 0 → v.toNat % 4096 = 0 → sysRead s e true v.toNat 4096 = .inl hd → headerFits h hd = true →
          sysRead s e true v.toNat (areaLen h.cores.length) = .inl bs → Runs s e (.ctxld f) (restoreFrom s1 x h bs me)) ∧
      (∀ x q t, ctxOperand s a = some x → v.toNat = Fin.val (n := 16) q →
        (stopOp s1 x q none (some e.launch.id) me = .nothing → Runs s e (.freeze f) (sysLeaves s e b f 0)) ∧
        (stopOp s1 x q none (some e.launch.id) me = .stopping t → Runs s e (.freeze f) t) ∧
        (stopOp s1 x q (some c.toNat) (some e.launch.id) me = .nothing → Runs s e (.rmark f) (sysLeaves s e b f 0)) ∧
        (stopOp s1 x q (some c.toNat) (some e.launch.id) me = .stopping t → Runs s e (.rmark f) t)) ∧
      (let mode := (f.x.extractLsb' 0 2).toNat
       (mode = 2 ∨ (ctxOperand s a).isSome = true) → Runs s e (.tlbi f)
         (sysLeaves (tlbiOp s mode a.toNat v.toNat) e b { f with d := .x 0 } 0)) ∧
      (∀ old t, cfgOp s a.toNat v.toNat = some (old, t) →
        ((at' (coreAt s e.core).banks b).sysq = [] → Runs s e (.cfgld f) (sysLeaves t e b f old)) ∧
        ((at' (coreAt s e.core).banks b).sysq ≠ [] → Runs s e (.cfgld f)
          { s1 with sysWork := s1.sysWork ++ [(me, .cfg a.toNat v.toNat)] })) ∧
      (∀ bs, v.toNat ≤ 0xFFFF → a.toNat % 8 = 0 → sysRead s e false a.toNat 40 = .inl bs → Runs s e (.jrnl f) (sysLeaves
        (journal s 0xF0 .done 2 e.launch.ctx 0 (BitVec.ofNat 32 v.toNat) 0 (dwordsOf bs)) e b f (BitVec.ofNat 64 s.fzseq))) ∧
      (∀ r t, semaOp s (.sys e.launch.ctx) a.toNat = some (r, t) → Runs s e (.sema f) (sysLeaves t e b f r)) ∧
      (∀ k : CoreId, a.toNat = k.val → v.toNat ≤ 1 → Runs s e (.haltc f) (haltOp s1 k v.toNat me)) ∧
      (∀ k : CoreId, a.toNat = k.val → v.toNat ≤ 255 →
        (s.cpsem = .sys e.launch.ctx → Runs s e (.partset f) (guardOp s1 k (v.setWidth 8) me)) ∧
        (s.cpsem ≠ .sys e.launch.ctx → Traps s e (.partset f) .privilege e.who.pc 0)) ∧
      (∀ x hm nonce t, ctxBy s e.launch.ctx = some x → v.toNat % 64 = 0 → sysRead s e false a.toNat 64 = .inl nonce →
        (c.toNat = 0 ∧ hm = [] ∨ c.toNat ≠ 0 ∧ ∃ o, x.objs.find? (·.va == c.toNat) = some o ∧ hm = sha384 o.manifest) →
        sysWrite s e false v.toNat (reportBytes s nonce hm x (dieOf e.core)) = .inl t →
        Runs s e (.attest f) (sysLeaves t e b { f with d := .x 0 } 0)) ∧
      (∀ x o r t, ctxOperand s v = some x → a.toNat % 65536 = 0 → objectAt x a.toNat = some o →
        pageOp s x o a.toNat = some (r, t) → Runs s e (.pgver f) (sysLeaves t e b f r)) ∧
      (∀ x o code extra, ctxOperand s v = some x → a.toNat % 65536 = 0 → objectAt x a.toNat = some o →
        (pageHome s x.n a.toNat).any (fun l => x.checked.contains (a.toNat, l)) = false → codeFault s x.n a.toNat = some (code, extra) → code ≠ .uncorrectable →
        Traps s e (.pgver f) code a extra) ∧
      (awaitsResult s a.toNat = true → (at' (coreAt s e.core).banks b).sysq = [] →
        let t := settleEntry { reached s (sysPlace e) with sysWork := s.sysWork.erase (.port a.toNat, .sysrt) } a.toNat
          (if field v 63 56 = 0 then .done else .failed) v []
        Runs s e (.sret f) (endTask (match (taskOf t e.core).bind (·.chain) with
          | some h => sendChainDone t h
          | none => t) e.core)))

/-! ## Memory steps -/

/-- The path of an access: a write leaves its queue for the first buffer of its path when the ordering rules let it, moves up
a buffer in order with overlapping writes, and reaches its home when no session holds the place and no woken request has
the bank's turn; a read leaves the queue and reaches its home at once. There it performs, in a slot of its partition; at a
memory tile it joins the steering port, which holds 16. One that crosses a guard is dropped (R123 to R128, R135, R185,
R433, R434, R443). -/
def Obligations.MemoryPath : Prop :=
  ∀ (s : State) (a : Access), accBy s a.id = some a → a.waiting = false → a.got = none →
    let home := homeLevel a.who.core a.loc
    let up (n : Nat) : State := modAcc s a.id fun x => { x with stage := n, entered := s.ticks }
    let steer : Bool := isScratch a.loc
    let arrives (i : Instr) : Prop :=
      (pathOpen s a.who.core a.ctx a.loc = false → exec i s = .next s) ∧
      (pathOpen s a.who.core a.ctx a.loc = true → steer = false → exec i s = .next (performAccess s a)) ∧
      (pathOpen s a.who.core a.ctx a.loc = true → steer = true → a.port = none →
        ((atSteer s (tileOfLoc a.loc)).length < 16 → exec i s = .next (modAcc s a.id fun x => { x with port := some s.ticks })) ∧
        (16 ≤ (atSteer s (tileOfLoc a.loc)).length → exec i s = .next s))
    (isWriteKind a.kind = true → a.stage = 0 → launchIssues s a = true → canLeave s a = true →
      exec (.memPropagate a.id) s = .next (if crossesGuard s a then dropAtGuard s a else up 1)) ∧
    (isWriteKind a.kind = true → a.stage ≠ 0 → canMoveOn s a = true → a.stage < home →
      exec (.memPropagate a.id) s = .next (up (a.stage + 1))) ∧
    (isWriteKind a.kind = true → a.stage ≠ 0 → canMoveOn s a = true → home ≤ a.stage → heldAtHome s a = false →
      bankOwes s a = false → arrives (.memPropagate a.id) ∧ arrives (.memPerform a.id)) ∧
    (isWriteKind a.kind = false → launchIssues s a = true → canLeave s a = true → bankOwes s a = false →
      (a.kind = .fence → exec (.memPerform a.id) s = .next (performAccess s a)) ∧
      (a.kind ≠ .fence → crossesGuard s a = true → exec (.memPerform a.id) s = .next (dropAtGuard s a)) ∧
      (a.kind ≠ .fence → crossesGuard s a = false → arrives (.memPerform a.id)))

/-- What waits at a bank: the woken request that reached it first performs; the requests that it sent back go out again after a
change there; of the STVs whose launches have stood still for 4,096 cycles with nothing but waits outstanding, the oldest raises
VERSION (R135, R137; that a launch stands still when no unit of its cores moves is the model's reading, log entry 25). A bank of
a memory tile serves the port that is next in turn of those that present a request for it: a stream port's head, or the oldest
access of the steering port; a port's oldest response leaves, on its VC or to its agent. Misses of earlier cycles take the
walkers that are free; of the walks that may end a free one does, which brings its translation into the die's TLB and lets the
misses that it covers go; one that fails caches nothing and ends the launch of every element that asked for the page, and no
other, with TRANSLATION, the address that one of them asked for and the failing entry with its level (R22, R81 to R84, R382 to
R386, R391, R434, R443). -/
def Obligations.BankTileWalkSteps : Prop :=
  (∀ (s : State) (b : Bank) (a : Access),
      (earliest (s.accs.filter fun x => x.waiting && x.woken && isCsm x.loc && bankOf x.loc == b) = some a →
        heldAtHome s a = false → slotOpen s b.die a.ctx = true → exec (.bankWaitWake b) s = .next (performAccess s a)) ∧
      (∃ t, exec (.waitStoreResend b) s = .next t ∧ t.mem = s.mem ∧ t.accs = s.accs.map fun x =>
        if x.again && x.woken && bankOf x.loc == b then { x with again := false, woken := false } else x) ∧
      let still (x : Access) : Bool := x.waiting && x.kind == .stv && bankOf x.loc == b && standsStill s x
      (∀ l, launchBy s a.who.launch = some l → mayStep l.phase = true →
        (standsStill s a = true ↔ onlyWaits s l = true ∧ l.progress + 4096 ≤ s.now)) ∧
      (∀ l, onlyWaits s l = true → ∀ c ∈ l.cores, (coreAt s c).lastAct + 4096 ≤ s.now ∧ unitSteps s c = false) ∧
      (earliest (s.accs.filter still) = some a → exec (.stvDeadlock b) s = .next (homeFault .version (bankWho a) a
        (BitVec.ofNat 64 (field (recDword s.mem a.loc 0) 63 40 * 2 ^ 24 + a.a.toNat % 2 ^ 24)) s)) ∧
      ((∀ x ∈ s.accs, still x = false) → exec (.stvDeadlock b) s = .next s)) ∧
  (∀ (s : State) (c : CoreId) (m : MtId) (bank : Fin 4),
      let last := at' (at' (coreAt s c).mts m).turn bank
      let turned (p : Fin 5) (s' : State) : State := modCore s' c fun k => modMt k m fun x => { x with turn := put x.turn bank p }
      (∀ (p : Fin 4) l t, nextTurn last (portWants s c m bank) = some p.castSucc → holderOf s c = some l →
        mtHead (coreAt s c) m p = some t →
        exec (.mtAccept c m bank) s = .next (turned p.castSucc (mtServe s l c m p t))) ∧
      (∀ x, nextTurn last (portWants s c m bank) = some 4 → oldest (atSteer s (c, m)) = some x →
        exec (.mtAccept c m bank) s = .next (turned 4 (steerServe s x))) ∧
      (∀ p, nextTurn last (portWants s c m bank) = some p → portWants s c m bank p = true) ∧
      (nextTurn last (portWants s c m bank) = none → exec (.mtAccept c m bank) s = .next s) ∧
      (∀ (p : Fin 4) r rs, coreSteps s c = true → at' (at' (coreAt s c).mts m).rob p = r :: rs →
        canWrite (coreAt s c) (mtRouter m) p = true →
        exec (.mtResponse c m p.castSucc) s = .next (modCore (active s c) c fun k => writeLocal
          (modMt k m fun x => { x with rob := put x.rob p rs }) (mtRouter m) p (.tok r))) ∧
      (∀ x, oldest (steerRob s (c, m)) = some x → exec (.mtResponse c m 4) s = .next (steerReturn s x)) ∧
      ∀ d, let s1 := modDie s d fun x => { x with walks := giveWalkers s x s.now [] x.walks }
        let ends := (dieAt s1 d).walks.filter fun x => x.walker.isSome && slotOpen s d x.ctx
        (ends = [] → exec (.pageWalk d) s = .next s1) ∧
        (ends ≠ [] → ∃ w ∈ ends, pickFree s ends = some w) ∧
        ∀ w, pickFree s ends = some w →
          (∀ e, walk s w.ctx w.va = .leaf e → ∃ u, exec (.pageWalk d) s = .next u ∧
            (dieAt u d).tlb = tlbFill s 16384 (dieAt s d).tlb e ∧
            (dieAt u d).walks = (dieAt s1 d).walks.filter (fun y => !(y == w || answersWalk e y)) ∧ u.mem = s.mem ∧
            u.launches = s.launches) ∧
          ∀ e n, walk s w.ctx w.va = .bad e n → ∃ u, exec (.pageWalk d) s = .next u ∧
            (dieAt u d).walks = (dieAt s1 d).walks.filter (fun y => !samePage w y) ∧
            (dieAt u d).tlb = (dieAt s d).tlb ∧ u.mem = s.mem ∧
            let asked (l : Launch) (y : Walk) : Prop := y ∈ (dieAt s1 d).walks ∧ samePage w y = true ∧ y.asker = .element ∧
              y.who.launch = l.id
            ∀ l, launchBy s l.id = some l →
              ((∃ y, asked l y) → isLive l.phase = true → ∃ l' r, launchBy u l.id = some l' ∧ l'.phase = .ending ∧
                l'.status = some .faulted ∧ l'.fault = some r ∧ r.code = .translation ∧ r.extra = walkExtra e n ∧
                r.who.unit = 0x0C ∧ ∃ y, asked l y ∧ r.addr = BitVec.ofNat 64 y.va) ∧
              ((∀ y, ¬ asked l y) → launchBy u l.id = some l))

/-- What performing does to memory. A write to a page of a loaded code object raises PROTECTION (R222). Else, with no registered
class and good check bits: a load, a SHAPE, an LDV and a FENCE change
no byte; a store leaves its data in its bytes and changes no other; ATOM, CAS and APPEND leave their new value there, and
change no other; a load's or an atomic's x register then holds the bytes, or the old value, extended by SZ and U
(R124, R139 to R141, R284). -/
def Obligations.AccessPerforms : Prop :=
  ∀ (s : State) (a : Access),
    (isWriteKind a.kind = true → onCodeLoc s a.loc = true → performAccess s a = homeFault .protection a.who a 0 s) ∧ (
    s.memOk → allClasses s = [] → badRange s a.loc a.size = false → (isWriteKind a.kind = true → onCodeLoc s a.loc = false) →
    (a.exc = none ∨ a.kind = .store ∧ a.exc = some false) →
    let t := performAccess s a
    let n := a.size
    let outside : Prop := ∀ x, (x < a.loc ∨ a.loc + n ≤ x) → memGet t.mem x = memGet s.mem x
    let old := natLE (memGetN s.mem a.loc n)
    let new (v : Nat) : Prop := natLE (memGetN t.mem a.loc n) = v % 2 ^ (8 * n)
    let xHolds (v : Nat) : Prop := ∀ b r sz u, a.dest = .xreg b r sz u → r ≠ 0 →
      readX (at' (coreAt t a.who.core).banks b) r = loadExt sz u (BitVec.ofNat 64 v)
    ((a.kind = .load ∨ a.kind = .shape ∨ a.kind = .ldv ∨ a.kind = .fence) → ∀ x, memGet t.mem x = memGet s.mem x) ∧
    (a.kind = .load → xHolds (natLE (loadBytes s a))) ∧
    (a.kind = .store → a.data.length = n → outside ∧ memGetN t.mem a.loc n = a.data) ∧
    (a.kind = .atom → outside ∧ new (atomNew a.aop.toNat n a.u old (a.a.toNat % 2 ^ (8 * n))).1 ∧ xHolds old) ∧
    (a.kind = .cas → outside ∧ new (if old = a.a.toNat % 2 ^ (8 * n) then a.b.toNat else old) ∧ xHolds old) ∧
    (a.kind = .append → outside ∧ new (old + a.a.toNat % 2 ^ (8 * n)) ∧ xHolds old))

/-! ## Fabric, streams and parsers -/

/-- The steps of the fabric on a core whose launch runs: an idle node starts the firing that its inputs allow, and one whose
words are done ends it; a router moves a token that waits behind a filter, or the head of its queue, through its entry; a
control token goes to every output of its entry; a ring turns, and its last token enters its head; a control token on an edge
router's sub-port 2 posts a message; a core of which every unit has been blocked for 64 cycles gains 16 slots in its smallest
full queue, or ends with QUEUE_POOL (R22, R35 to R40, R74, R80, R86, R89, R303). The steps of the generators: a walk sends its
oldest element once it has come and finds room, and else asks for the one of the position in hand; a WRITE walk takes the head
of its circuit for it (which control bits post, what the done token is, and where a walk waits are the model's readings, log
entries 42, 45 and 47; when a unit is blocked, entry 25); a ranged walk asks for its team's next range; a walk that is over
sends its done token, tells its parser of the end, and lands its command (R30, R31, R33, R336). -/
def Obligations.FabricSteps : Prop :=
  (∀ (s : State) (c : CoreId) (l : Launch), Steps s c l →
      let k := coreAt s c
      (∀ pe n f, nodeAt k pe = some n → n.frozen = false → isStreamNode n = false →
        (n.firing = none → foldTurn (levels l.recd) k pe = true → newFiring (levels l.recd) k n = some f →
          exec (.peFire c pe) s = .next (moved (modCore s c (beginFiring · pe f)) c)) ∧
        (n.firing = some f → exec (.peFire c pe) s = .next (endFiring s c l n f))) ∧
      (∀ r x port vc, routerAt k r = some x →
        (∀ k1, hopPending k x (swFor x port vc) = some k1 →
          exec (.routerHop c r port vc) s = .next (active (modCore s c fun _ => k1) c)) ∧
        (∀ t ts k1 fl, hopPending k x (swFor x port vc) = none → queueAt k (.link r port vc) = .tok t :: ts →
          hopHead (levels l.recd) k x port vc t = some (k1, fl) →
          exec (.routerHop c r port vc) s = .next (mergeFlags (active (modCore s c fun _ => k1) c) c fl)) ∧
        ∀ t ts w, cqueueAt k (.ctl r port (if port = 4 then vc else 0)) = t :: ts → ctEntry x port vc = some w →
          let qs := (ctOuts w).filterMap fun o => outCkey r o (ctOloc w)
          qs.all (hasCroom k) = true → exec (.controlHop c r port vc) s = .next (active (modCore s c fun k =>
            qs.foldl (fun k q => pushCtl k q t) (popCtl k (.ctl r port (if port = 4 then vc else 0)))) c)) ∧
      (∀ n r, k.rings[n]? = some r → k.frozen.contains (.ring n) = false →
        let turn (k : Core) : Core := modRing k n fun x => { x with slots := none :: x.slots.dropLast }
        (∀ t, r.slots.getLast? = some (some t) → hasRoom k (.pe r.head r.hport) = true → exec (.ringStep c n) s =
          .next (active (modCore s c fun k => pushTok (turn k) (.pe r.head r.hport) (.tok t)) c)) ∧
        (∀ t, r.slots.getLast? = some (some t) → hasRoom k (.pe r.head r.hport) = false → exec (.ringStep c n) s = .next s) ∧
        (r.slots.getLast? = some none → ∃ u, exec (.ringStep c n) s = .next u ∧
          (coreAt u c).rings = (turn k).rings ∧ (coreAt u c).queues = k.queues)) ∧
      (∀ a b bs, cqueueAt k (.post a) = .bit b :: bs → storeUsed k < 256 → exec (.ctrlPost c a) s = .next (active
        (acceptMsg (modCore s c fun x => popCtl x (.post a)) c
          ⟨3, BitVec.ofNat 6 a.val, BitVec.ofNat 6 a.val, [], ctrlWid s c, c, none⟩) c)) ∧
      (∀ q, waitsOutside s c = false → unitSteps s c = false → k.lastAct + 64 ≤ s.now → smallestFull k = some q → exec (.queueEnlarge c) s = .next
        (if k.pool < 16 then raise .queuePool (unitWho s c 0x0E 0) 0 (BitVec.ofNat 64 k.pool) s
         else modCore s c fun k => { k with pool := k.pool - 16, extra := k.extra ++ [(q, 16)], lastAct := s.now }))) ∧
  (∀ (s : State) (c : CoreId) (l : Launch) (a : AgId) (w : AgWalk), Steps s c l →
      let k := coreAt s c
      let g := at' k.ags a
      g.walk = some w →
      let s1 := if sdRng g.desc && wantsRange k g w then askRange s l c (sdRq g.desc) else s
      let here := !w.fin && (!sdRng g.desc || (rangeInHand k g).isSome)
      (g.stop = false → k.frozen.contains (.ag a) = false →
        (∀ y ys, sdMode g.desc ≠ 1 → w.slots = y :: ys → y.ready = true → agCanSend k a g = true →
          exec (.agEmit c a) s = .next (agSendHead s1 l c a g w y)) ∧
        (sdMode g.desc ≠ 1 → w.slots = [] → here = true → exec (.agEmit c a) s = .next (agIssue s1 l c a g w)) ∧
        (sdMode g.desc = 1 → here = true → g.skip = none → exec (.agEmit c a) s = .next (agConsume s1 l c a g w)) ∧
        (∀ lv gid, sdMode g.desc = 1 → here = true → g.skip = some (lv, gid) →
          exec (.agEmit c a) s = .next (agSkip s1 l c a g w lv gid)) ∧
        (w.slots = [] → here = false → exec (.agEmit c a) s = .next s1)) ∧
      (walkOver s c a g w = true → canSend k (agRouter a) 0 = true → exec (.agWalkEnd c a) s = .next (active (landed
        (modCore s c fun x =>
          let x1 := sendLocal (modAg x a fun g => { g with walk := none, drop := false }) (agRouter a) 0 (.bit true)
          match g.gov with
          | some p => modParser x1 p fun z => if g.drop then { z with ag := none, eos := false } else { z with eos := true }
          | none => x1) w.cmd) c)))

/-- The steps of a parser: the tap closes an item; the pushdown procedure opens, closes, leaves, accepts or fails as R48
says, where a step that looks up the table waits for its turn among the parsers that are ready for one (R50); recovery discards
an item; the waiting action fires once its permit and the gate let it; the gate releases its oldest token (R34, R46, R48, R49,
R61, R64, R68, R72). -/
def Obligations.ParserSteps : Prop :=
  ∀ (s : State) (c : CoreId) (l : Launch) (p : ParserId), Steps s c l →
    let k := coreAt s c
    let z := at' k.parsers p
    let set (z' : Parser) : State := active (onParser s c p fun _ => z') c
    let looks (g : Grammar) : State := if needsTable g z then modCore s c fun k => { k with tabTurn := p } else s
    (∀ x rest, nextItem z = some (x, rest) → exec (.tapItem c p) s = .next (active (onParser s c p fun z =>
      { z with items := z.items ++ [x], fresh := rest }) c)) ∧
    (∀ g, k.grammar = some g → z.frozen = false → z.stopping = none → feedOver z = none → z.state = .run →
      let mv := parseMove g z.start z.stack z.accepted (look1 g z) (lookBoth g z)
      let mine : Prop := needsTable g z = true → hasTable k g p = true
      let set (z' : Parser) : State := active (onParser (looks g) c p fun _ => z') c
      (needsTable g z = true → hasTable k g p = false → exec (.parseStep c p) s = .next s) ∧
      (mv = .finish → exec (.parseStep c p) s = .next (parseEnd s c p g)) ∧
      (∀ q, mine → mv = .openSeq q → exec (.parseStep c p) s = .next (set (openProd g { z with tokens := 0, opened := true } q))) ∧
      (∀ st, mine → mv = .leave st → exec (.parseStep c p) s = .next (set { z with stack := st })) ∧
      (∀ st, mine → mv = .accept st →
        exec (.parseStep c p) s = .next (countEvent (progressOf (set (acceptNext { z with stack := st })) c) c 5)) ∧
      (∀ st q sym, mine → mv = .open' st q sym → st.length < 128 →
        exec (.parseStep c p) s = .next (set (openProd g { z with stack := st } q))) ∧
      (∀ f fs, mv = .close → z.stack = f :: fs → exec (.parseStep c p) s = .next (set
        (match prodCompletion (prodAt g f.prod) with
          | some w => { z with state := .permit, pend := some ⟨w, false, some f.inst, stackPath z.stack, 0⟩ }
          | none => popFrame z))) ∧
      (∀ kind sym, mine → mv = .mismatch kind sym → exec (.parseStep c p) s =
        .next (active (parseMismatch (looks g) c p g kind sym ((look1 g z).getD eosTerm)) c)) ∧
      (mv = .blocked → exec (.parseStep c p) s = .next s)) ∧
    (∀ x xs, z.state = .discard → z.frozen = false → z.items = x :: xs → x.term ≠ 7 →
      let stop := match k.grammar.bind (·.recov) with | some r => recLevel r | none => 1
      exec (.recoveryDiscard c p) s = .next (active (onParser s c p fun _ =>
        if stop ≤ x.term then endDiscard { z with items := xs } else { z with items := xs }) c)) ∧
    (∀ x g, z.pend = some x → k.grammar = some g → z.state = .permit → z.frozen = false → z.run = none → mayFire g z x = true →
      (actGrel g x.word = true → (if z.byte then z.out.map (·.1) else z.rel).all (·.act.isSome) = true) →
      let n := actWords g x.word
      let z1 := if actAuto g x.word then autoRegs z x else z
      let z2 : Parser := { z1 with
        pend := none, state := .run, acts := z1.acts ++ [⟨z1.nextAct, x.path, n⟩], nextAct := z1.nextAct + 1,
        run := some ⟨z1.nextAct, x.word + 1, x.word + 1 + n, false, firedWid z x⟩ }
      exec (.actionFire c p) s = .next (set (if x.completes.isSome then popFrame z2 else z2))) ∧
    (∀ t ts, z.byte = false → z.rel = t :: ts → t.act = none →
      canWrite k (agRouter z.outEdge) (Fin.ofNat 4 z.outVc.toNat) = true →
      exec (.gateRelease c p) s = .next (countEvent (active (modCore s c fun k =>
        writeLocal (modParser k p fun z => { z with rel := ts }) (agRouter z.outEdge) (Fin.ofNat 4 z.outVc.toNat)
          (.tok t.tok)) c) c 4))

/-! ## Tasks, barriers and ranges as steps -/

/-- The steps of the task unit: a message that may leave is accepted into its target's store; with no task running, the selected
message starts its task at its entry's address and bank, with x1 to x4 its words, and a message that finds no handler ends the
launch; a continuation whose condition holds posts its message (R301 to R306, R313, R314). Which message is selected: one of the
ready ones of the store, none of which has a more urgent priority (R301). -/
def Obligations.TaskSteps : Prop :=
  (∀ (s : State) (c : CoreId) (l : Launch), Steps s c l →
      let k := coreAt s c
      (∀ m, deliverable s c [] k.outq = [m] → exec (.messageAccept c) s = .next (active (active
        (acceptMsg (modCore s c fun k => { k with outq := k.outq.erase m }) m.target m.msg) m.target) c)) ∧
      (l.phase = .running → k.task = none →
        (∀ m, (k.store.find? fun m => readiness k m == .noHandler) = some m → exec (.taskStart c) s = .next
          (raise .handler ⟨l.id, c, 1, 0, m.wid, 0, 0⟩ (m.och.setWidth 64) (mstatOf m (m.chan != 0)) s)) ∧
        ∀ m h r, (∀ x ∈ k.store, readiness k x ≠ .noHandler) → selectMsg k = some (m, h, r) →
          ∃ t, exec (.taskStart c) s = .next t ∧
            let b : BankId := Fin.ofNat 4 (field h 58 57)
            let k' := coreAt t c
            k'.task = some ⟨b, BitVec.ofNat 64 (field h 51 0), m.wid, mstatOf m r, m.chain⟩ ∧ k'.store = k.store.erase m ∧
            (∀ n : Fin 32, readX (at' k'.banks b) n =
              if 1 ≤ n.val ∧ n.val ≤ 4 then (m.words[n.val - 1]?).getD 0 else readX (at' k.banks b) n) ∧
            (∀ b', b' ≠ b → at' k'.banks b' = at' k.banks b') ∧ t.mem = s.mem) ∧
      ∀ x ws, k.conts.find? (·.n == x.n) = some x → contWords k x = some ws →
        ∃ t, exec (.continuationPost c x.n) s = .next t ∧
          (coreAt t c).store = k.store ++ [⟨2, x.chan, x.chan, ws, x.wid, c, x.chain⟩] ∧
          (coreAt t c).conts = k.conts.filter (·.n != x.n) ∧ (coreAt t c).task = k.task ∧
          ∀ ld st cp tl gx, x.awaits = .counts ld st cp tl gx →
            (at' (coreAt t c).banks x.bank).pend = (at' k.banks x.bank).pend &&& ~~~ (at' k.banks x.bank).come) ∧
  (∀ (k : Core) (m : Msg) (h : DWord) (r : Bool), selectMsg k = some (m, h, r) →
      m ∈ k.store ∧ readiness k m = .go h r ∧
      ∀ m' h' r', m' ∈ k.store → readiness k m' = .go h' r' → field h 61 59 ≤ field h' 61 59)

/-- A barrier's phase releases on every participant once the part of each is complete: PHASE counts one and the counts of the
next phase become the current ones; until then it does not (R317). The range server takes the requests of a queue in the order
of their cycles, those of one cycle in ascending core order, once that cycle is over. In a launch without stages it hands the
first range of a queue to the first request, the count 0 once the queue is empty: to a task's through its continuation, to a
generator's for every core of its team, which walks that same range, or is told that the queue is exhausted (R33, R316). In a
pipelined launch a quiet core moves to the next stage where its completed range waits for room there, or, where its own input is
empty, to the stage with the most ranges pending, the lowest on a tie, as long as its stage keeps its minimum; else the first
range of its stage's input is its own, and the count 0 comes only where the stage is exhausted and no range is pending anywhere;
and the first completed range of a core for which the next stage's queue has room enters it (R377 to R379). -/
def Obligations.BarrierAndRangeSteps : Prop :=
  ∀ (s : State) (c : CoreId) (l : Launch) (b : Fin 1024), Steps s c l →
    let x := barrierAt (coreAt s c) b
    let ready (c' : CoreId) : Prop :=
      let y := barrierAt (coreAt s c') b
      (y.phase = x.phase ∧ partDone y.cur = true ∧ y.cur.s = x.cur.s) ∨ ((coreAt s c').finished = true ∧ 2 ≤ x.cur.s)
    (partDone x.cur = true → (∀ c' ∈ participants l c x.cur.s, ready c') → exec (.barrierRelease c b) s =
      .next (progress ((participants l c x.cur.s).foldl (releaseOn · b) s) l.id)) ∧
    ((∃ c' ∈ participants l c x.cur.s, ¬ready c') → exec (.barrierRelease c b) s = .next s) ∧
    (∀ p : ParserId, (coreAt s c).arrivals = [] → barrierAt (coreAt (releaseOn s b c) c) b = ⟨x.phase + 1, x.nxt, ⟨0, 0, 0⟩⟩ ∧
      at' (coreAt (releaseOn s b c) c).parsers p = at' (coreAt s c).parsers p) ∧
    (∀ asks : List Ask, (asksInOrder asks).Perm asks ∧
      (asksInOrder asks).Pairwise fun x y => x.1 < y.1 ∨ x.1 = y.1 ∧ x.2.1 ≤ y.2.1) ∧
    (∀ d q r t0 who rest, (dieAt s d).rqs.find? (·.1 == q) = some (q, r) → launchBy s r.launch = some l →
      slotOpen s d l.ctx = true → asksInOrder r.asks = (t0, c, who) :: rest →
      let dropped (s' : State) : State := modDie s' d fun y => modRq y q fun z => { z with asks := rest }
      let left (rs : List (Nat × Nat)) : State := modDie s d fun y => modRq y q fun z => { z with asks := rest, ranges := rs }
      (s.now ≤ t0 → exec (.rangeServe d q) s = .next s) ∧
      (∀ n, t0 < s.now → who = some n → nStages l.recd = 0 →
        (∀ y ys, r.ranges = y :: ys → ∃ t, exec (.rangeServe d q) s = .next t ∧ t.dies = (left ys).dies ∧
          coreAt t c = coreAt (answerRange s l c n y.1 y.2) c) ∧
        (r.ranges = [] → ∃ t, exec (.rangeServe d q) s = .next t ∧ t.dies = (dropped s).dies ∧
          coreAt t c = coreAt (answerRange s l c n 0 0) c)) ∧
      (t0 < s.now → who = none → (teamCores l c).Nodup →
        (∀ y ys, r.ranges = y :: ys → ∃ t, exec (.rangeServe d q) s = .next t ∧ t.dies = (left ys).dies ∧
          (∀ c', c' ∉ teamCores l c → coreAt t c' = coreAt s c') ∧
          ∀ c' ∈ teamCores l c, let a := drawnOf (coreAt s c') q
            drawnOf (coreAt t c') q = (a.1 ++ [y], a.2) ∧ (isPersist l.recd = true → (coreAt t c').team = y.1)) ∧
        (r.ranges = [] → ∃ t, exec (.rangeServe d q) s = .next t ∧ t.dies = (dropped s).dies ∧
          (∀ c', c' ∉ teamCores l c → coreAt t c' = coreAt s c') ∧
          ∀ c' ∈ teamCores l c, drawnOf (coreAt t c') q = ((drawnOf (coreAt s c') q).1, true))) ∧
      ∀ n, t0 < s.now → who = some n → nStages l.recd ≠ 0 →
        let a := (coreAt s c).stage
        (∀ x, moveTo s l c n = some x → exec (.rangeServe d q) s = .next (dropped (moveCore s l c n x))) ∧
        (moveTo s l c n = none → waitsForRoom l c n = false →
          (∀ y ys, stageInput s l a = y :: ys → exec (.rangeServe d q) s = .next (dropped (progress (modCore
            (answerRange (popStage s l a) l c n y.1 y.2) c fun k => { k with inRange := some y }) l.id))) ∧
          (stageInput s l a = [] → exhausted s l a = true → fullest s l = none →
            exec (.rangeServe d q) s = .next (dropped (answerRange s l c n 0 0)))) ∧
        (rest = [] → moveTo s l c n = none →
          (waitsForRoom l c n = true ∨ stageInput s l a = [] ∧ ¬(exhausted s l a = true ∧ fullest s l = none)) →
          exec (.rangeServe d q) s = .next s)) ∧
    (∀ n x, let a := (coreAt s c).stage
      moveTo s l c n = some x ↔ quietBut s l c (some n) = true ∧
        stageMin l.recd a ≤ (l.cores.filter fun c' => c' != c && (coreAt s c').stage == a).length ∧
        (waitsForRoom l c n = true ∧ x = a + 1 ∨
          waitsForRoom l c n = false ∧ stageInput s l a = [] ∧ fullest s l = some x)) ∧
    (let pending (i : Nat) : Nat := (stageInput s l i).length
     (∀ x, fullest s l = some x → x < nStages l.recd ∧ 0 < pending x ∧
       ∀ i < nStages l.recd, pending i ≤ pending x ∧ (i < x → pending i < pending x)) ∧
     (fullest s l = none → ∀ i < nStages l.recd, pending i = 0)) ∧
    (launchBy s l.id = some l →
      let goes (w : CoreId × Nat × Nat × Nat × Nat) : Prop :=
        w.1 = c ∧ ((l.stageQs[w.2.1]?).getD []).length < stageCap l.recd (w.2.1 + 1)
      (∀ before w after, l.roomWaits = before ++ w :: after → (∀ v ∈ before, ¬goes v) → goes w →
        exec (.stageAppend l.id c) s = .next (modLaunch s l.id fun l => { l with
          stageQs := l.stageQs.modify w.2.1 (· ++ [(w.2.2.1, w.2.2.2.1)]), roomWaits := l.roomWaits.erase w })) ∧
      ((∀ w ∈ l.roomWaits, ¬goes w) → exec (.stageAppend l.id c) s = .next s))

/-! ## Launches -/

/-- The steps of a launch queue and of admission. The head of a queue becomes a candidate or ends with the status that its
checks give; a record cancelled before it was let in ends CANCELLED; a candidate goes on once the record it depends on is
COMPLETE, and ends CANCELLED where that record has another status; a held status is written once HALT is clear. Of a partition's
candidates the first in the service order is admitted, on the cores of its grant, or nothing is; one whose code object has
become untrusted ends with SIGNATURE (R365, R366, R370 to R373, R380, R398, R401). -/
def Obligations.QueueSteps : Prop :=
  (∀ (s : State) (x : Ctx) (q : Fin 16), ctxBy s x.n = some x →
    let y := at' x.queues q
    let set (f : Queue → Queue) : State := modCtx s x.n fun x => modQueue x q f
    (goingAway s x.n = false → y.v = true → y.head < y.tail → y.heldStatus = none → queueBusy s x q = false →
      y.cancels.contains y.head = true → exec (.recordCandidate x.n q) s = .next (giveStatus s x.n q y.head .cancelled 0)) ∧
    (goingAway s x.n = false → headReady s x q = true → y.cancels.contains y.head = false →
      (∀ st, checkRecord s x q = .status st → exec (.recordCandidate x.n q) s = .next (giveStatus s x.n q y.head st 0)) ∧
      (∀ loc, checkRecord s x q = .spoilt loc → exec (.recordCandidate x.n q) s = .next
        (giveStatus (deviceEvent s 0x04 (physAddr s loc) x.n 0 0) x.n q y.head .imageInvalid 0)) ∧
      ∀ r rs o, checkRecord s x q = .pass r rs o → exec (.recordCandidate x.n q) s = .next (modCtx s x.n fun x =>
        let x1 := modQueue x q fun y => { y with cand := some r, candRanges := rs, depOk := !bitOf r[5] 52 }
        match o with
        | some o => loadObject x1 o
        | none => x1)) ∧
    (∀ r, y.cand = some r → y.depOk = false →
      let z := at' x.queues (Fin.ofNat 16 (field r[5] 51 48))
      (∀ g, z.given.find? (·.1 == field r[5] 47 0) = some g → exec (.dependenceResolve x.n q) s = .next
        (if g.2 = .complete then set fun y => { y with depOk := true } else giveStatus s x.n q y.head .cancelled 0)) ∧
      (z.given.find? (·.1 == field r[5] 47 0) = none → exec (.dependenceResolve x.n q) s = .next s)) ∧
    ∀ seq st g, y.heldStatus = some (seq, st, g) →
      (y.halt = false → exec (.statusHeldWrite x.n q) s = .next (giveStatus s x.n q seq st g)) ∧
      (y.halt = true → exec (.statusHeldWrite x.n q) s = .next s)) ∧
  ∀ (s : State) (part : Fin 16) (k : Candidate), firstCandidate s part = some k →
    k ∈ candidates s part ∧ (∀ k' ∈ candidates s part, serviceKey s part k ≤ serviceKey s part k') ∧
    (k.held = none → namesUntrusted k = true → exec (.admitLaunch part) s =
      .next (giveStatus s k.ctx.n k.q (at' k.ctx.queues k.q).head .signature 0)) ∧
    (k.held = none → namesUntrusted k = false →
      (∀ cs, grantFor s k.ctx k.recd = some cs →
        exec (.admitLaunch part) s = .next (movePointers (admitRecord s k cs) part k)) ∧
      (grantFor s k.ctx k.recd = none → exec (.admitLaunch part) s = .next s)) ∧
    ∀ h cs, k.held = some h →
      restoreCores s k.ctx (usesHalf s k.ctx.n k.recd) (recPerDie k.recd) (gangSize k.recd) h.launch.cores [] = some cs →
      exec (.admitLaunch part) s = .next (movePointers (admitHeld s k h cs) part k)

/-- The steps of a launch: it is loaded and starts, or ends with a status; the gang whose team has ended takes the next team; it
ends with WATCHDOG after a period without progress, or in which every unit of one of its cores has been blocked (as log entry 25
reads it); ended, it is
taken down; once everything of it has performed, its fault record and its status are written; then its cores go back (R366, R374
to R376, R392, R393). -/
def Obligations.LaunchSteps : Prop :=
  ∀ (s : State) (l : Launch), launchBy s l.id = some l →
    (∀ x, l.phase = .loading → s.ctxs.any (fun y => y.restored == some l.id) = false → ctxBy s l.ctx = some x →
      loaderBad s x l.recd = none →
      (∀ st, loadImages s x l = .inl st → exec (.launchLoad l.id) s = .next (modLaunch s l.id fun l =>
        { l with phase := .ending, status := some st, endedAt := s.now })) ∧
      ∀ g, loadImages s x l = .inr g → exec (.launchLoad l.id) s = .next (startLaunch
        (modLaunch (l.cores.foldl (fun s c => modCore (zeroCore s c) c fun _ => configure (cleanCore s l c) g) s) l.id fun l =>
          { l with phase := .running, progress := s.now }) l)) ∧
    (∀ c g, l.phase = .running → (gangsOf (gangSize l.recd) l.cores).find? (teamEnds s l) = some g → g.contains c = true →
      exec (.teamEnd l.id c) s = .next (completeIfOver (nextTeam s l g) l)) ∧
    (∀ c cs, l.phase = .running → l.cores = c :: cs → l.progress + 2 ^ s.wdp.toNat ≤ s.now →
      exec (.watchdog l.id) s = .next
        (raise .watchdog ⟨l.id, c, 0x0D, 0, 0, 0, 0⟩ 0 (BitVec.ofNat 64 (2 ^ s.wdp.toNat)) s)) ∧
    (∀ c, l.phase = .running → s.now < l.progress + 2 ^ s.wdp.toNat → l.cores.find? (coreStuck s l) = some c →
      exec (.watchdog l.id) s = .next
        (raise .watchdog ⟨l.id, c, 0x0D, 0, 0, 0, 0⟩ 0 (BitVec.ofNat 64 (2 ^ s.wdp.toNat)) s)) ∧
    (l.phase = .running → s.now < l.progress + 2 ^ s.wdp.toNat → (∀ c ∈ l.cores, coreStuck s l c = false) →
      exec (.watchdog l.id) s = .next s) ∧
    (l.phase = .ending → exec (.launchTeardown l.id) s = .next (takeDown s l)) ∧
    (∀ st, l.phase = .torn → l.status = some st → allPerformed s l.id = true → statusHeld s l.ctx l.q l.seq = false → exec (.statusWrite l.id) s = .next
      (let s1 := match st, l.fault with
        | .faulted, some f => recordFault s l.ctx (faultRecord l f)
        | _, _ => s
       modLaunch (giveStatus s1 l.ctx l.q l.seq st l.grant) l.id fun l => { l with phase := .written })) ∧
    (∀ c, l.phase = .written → (coreAt s c).holder = some l.id → allPerformed s l.id = true →
      exec (.coreReturn c) s = .next (dropIfDone (releaseCore (blockBack s l.ctx c) c) l)) ∧
    (l.phase ≠ .ending → exec (.launchTeardown l.id) s = .next s) ∧ (l.phase ≠ .torn → exec (.statusWrite l.id) s = .next s)

/-- Pre-emption: an element of a draining launch that is at the round freezes; with all frozen and nothing outstanding the
launch is held, and after the watchdog period its drain becomes a freeze; a freezing launch is held once everything that it has
outside its cores has completed; a held launch that has been granted cores is loaded onto them and resumes. A page check ends
with the page checked, or its object untrusted and the launches that waited for it ended with CODE_HASH, or with
UNCORRECTABLE where a word of it has bad check bits (R394 to R401, R437, R442). -/
def Obligations.PreemptSteps : Prop :=
  (∀ (s : State) (l : Launch), launchBy s l.id = some l →
    (∀ lv since, l.phase = .draining lv since →
      (∀ c e k, (coreAt s c).holder = some l.id → drainElem s c e = some k →
        exec (.elementDrainFreeze c e) s = .next (active (modCore s c fun _ => k) c)) ∧
      (∀ c e, (coreAt s c).holder = some l.id → drainElem s c e = none → exec (.elementDrainFreeze c e) s = .next s) ∧
      (allFrozen s l = true → nothingOut s l = true → exec (.drainComplete l.id) s = .next (holdLaunch s l false)) ∧
      (since + 2 ^ s.wdp.toNat ≤ s.now → exec (.drainTimeout l.id) s = .next (modLaunch s l.id fun l =>
        { l with phase := .freezing })) ∧
      (s.now < since + 2 ^ s.wdp.toNat → exec (.drainTimeout l.id) s = .next s)) ∧
    (l.phase = .freezing → freezeOver s l = true → exec (.freezeComplete l.id) s = .next (holdLaunch s l true)) ∧
    (l.phase = .freezing → freezeOver s l = false → exec (.freezeComplete l.id) s = .next s) ∧
    ∀ x h, ctxBy s x.n = some x → x.held = some h → x.restored = some l.id → l.phase = .loading →
      exec (.restoreResume x.n) s = .next (resumeLaunch s x h l)) ∧
  ∀ (s : State) (x : Ctx) (page : Nat) (w : Who) (ws : List (Nat × Who)) (o : CodeObj), ctxBy s x.n = some x →
    x.checks = (page, w) :: ws → objectAt x page = some o →
    let told (s : State) : State := (x.checks.filter (·.1 == page)).foldl (fun s y => heard s y.2.launch y.2.core) s
    (codeFault s x.n page = none → codeGood s x.n o page = some true → exec (.pageCheckComplete x.n) s = .next
      (told (modCtx s x.n fun x => { x with
        checked := x.checked ++ (pageHome s x.n page).toList.map (page, ·), checks := x.checks.filter (·.1 != page) }))) ∧
    (∀ loc, codeFault s x.n page = some (.uncorrectable, loc) → exec (.pageCheckComplete x.n) s = .next
      ((x.checks.filter (·.1 == page)).foldl (fun s y => raiseRead .uncorrectable y.2 y.2.pc loc x.n s)
        (told (modCtx s x.n fun x => { x with checks := x.checks.filter (·.1 != page) })))) ∧
    (codeFault s x.n page = none → codeGood s x.n o page = some false → exec (.pageCheckComplete x.n) s = .next
      ((x.checks.filter (·.1 == page)).foldl (fun s y => raise .codeHash y.2 (BitVec.ofNat 64 page) 0 s)
        (pageDistrusted s x.n page o)))

/-- A fault ends its launch and no other, and changes nothing else: the launch is FAULTED with the record of the fault. Of
faults of one cycle the record keeps the one of the earliest element, and counts the others, up to 65,535; one raised later is
discarded, and so is a further one of an element that has raised one in that cycle (log entry 99). So two faults of one cycle
leave the same record in either order (R21, R225, R388). -/
def Obligations.FaultEndsLaunch : Prop :=
  (∀ a b : Who, beforeWho a b = true ↔
    a.core < b.core ∨ a.core = b.core ∧ (a.unit < b.unit ∨ a.unit = b.unit ∧ a.elem < b.elem)) ∧
  ∀ (s : State) (code : FaultCode) (w : Who) (addr extra : DWord),
    let t := raise code w addr extra s
    { t with launches := s.launches } = s ∧ (∀ id, id ≠ w.launch → launchBy t id = launchBy s id) ∧
    (∀ l, launchBy s w.launch = some l →
      (isLive l.phase = true → launchBy t w.launch = some { l with
        phase := .ending, status := some .faulted, endedAt := s.now, fault := some ⟨code, w, addr, extra, 0, s.now⟩
        raisers := [raiserOf w] }) ∧
      (∀ f, l.phase = .ending → l.fault = some f → f.cycle = s.now → l.raisers.contains (raiserOf w) = true →
        launchBy t w.launch = some l) ∧
      (∀ f, l.phase = .ending → l.fault = some f → f.cycle = s.now → l.raisers.contains (raiserOf w) = false →
        let g : FaultRec := if beforeWho w f.who then ⟨code, w, addr, extra, 0, s.now⟩ else f
        launchBy t w.launch = some { l with
          fault := some { g with ndisc := min 65535 (f.ndisc + 1) }, raisers := addRaiser (raiserOf w) l.raisers }) ∧
      (∀ f, l.phase = .ending → l.fault = some f → f.cycle ≠ s.now → launchBy t w.launch = some l) ∧
      (l.phase = .torn ∨ l.phase = .written → launchBy t w.launch = some l)) ∧
    ∀ (code' : FaultCode) (w' : Who) (addr' extra' : DWord), (beforeWho w w' = true ∨ beforeWho w' w = true) →
      raise code' w' addr' extra' (raise code w addr extra s) = raise code w addr extra (raise code' w' addr' extra' s)

/-! ## The host attachment -/

/-- The host's packets once the ports are open: a write or a read of at most 4,096 bytes of a mapped job's context is done at
its home and answered; any other gets its error, and so does a read of a word with bad check bits. A command that its port may
take takes the next sequence number and its entry, and joins the queue, whatever its code; one sent again, with the port and the
RID of an entry still held, is not executed again (R419, R420, R422 to R424, R428). -/
def Obligations.PortSteps : Prop :=
  ∀ (s : State), s.bootStep = 9 → s.portsUp.toList.any id = true →
    let sends (r : Reply) : State := { s with replies := s.replies ++ [r] }
    (∀ (job : BitVec 12) (va : DWord) (data : List Byte), 
      (4096 < data.length → exec (.rmaWrite job va data) s = .next (sends .unsupported)) ∧
      (data.length ≤ 4096 → jobCtx s job = none → exec (.rmaWrite job va data) s = .next (sends .error)) ∧
      ∀ n, data.length ≤ 4096 → jobCtx s job = some n →
        (ctxSpan s n .write 3 va.toNat data.length = none → exec (.rmaWrite job va data) s = .next (sends .error)) ∧
        ∀ xs, ctxSpan s n .write 3 va.toNat data.length = some xs → spanOpen s n xs = true → outsideHeld s xs = false →
          exec (.rmaWrite job va data) s = .next
            { writeSpan s xs data with replies := (writeSpan s xs data).replies ++ [.rmaAck] }) ∧
    (∀ (job : BitVec 12) (va : DWord) (len : Nat),
      (4096 < len → exec (.rmaRead job va len) s = .next (sends .unsupported)) ∧
      (len ≤ 4096 → jobCtx s job = none → exec (.rmaRead job va len) s = .next (sends .error)) ∧
      ∀ n, len ≤ 4096 → jobCtx s job = some n →
        (ctxSpan s n .read 3 va.toNat len = none → exec (.rmaRead job va len) s = .next (sends .error)) ∧
        ∀ xs, ctxSpan s n .read 3 va.toNat len = some xs → spanOpen s n xs = true → (∀ x ∈ xs, badRange s x.1 x.2 = false) →
          exec (.rmaRead job va len) s = .next (sends (.rmaData (xs.flatMap fun x => memGetN s.mem x.1 x.2)))) ∧
    (∀ (job : BitVec 12) (va : DWord) (len n : Nat) (xs : List (Nat × Nat)), len ≤ 4096 → jobCtx s job = some n →
      ctxSpan s n .read 3 va.toNat len = some xs → spanOpen s n xs = true → (∃ x ∈ xs, badRange s x.1 x.2 = true) →
      exec (.rmaRead job va len) s = .next (sends .error)) ∧
    exec .unsupportedPacket s = .next (sends .unsupported) ∧
    ∀ (port : Port) (h d0 d1 d2 d3 d4 : DWord), mayTake s port = true →
      let k := blockCmd port h d0 d1 d2 d3 d4 s.fzseq
      let code := field h 63 56
      let n := tookNow.portIndexOf port
      let s1 := renewLease (reached { s with tookAt := put s.tookAt n (some s.now) } n.val) port
      let s2 := journal s1 code .accepted (portSrck port) k.ctx.toNat k.q.toNat k.rid 0 [d0, d1, d2, d3, d4]
      let accept := exec (.commandAccept port h d0 d1 d2 d3 d4) s
      (∀ z, sameCommand s port k.rid = some z → accept = .next (repeatCommand s1 port k.rid z)) ∧
      (sameCommand s port k.rid = none → accept = .next { s2 with cmds := s2.cmds ++ [(code, k)] })

/-- The device and system commands, each as the next of the sequence: NOP, SEMA, DEVID, ATTEST, JREAD, DEVSTAT, TLBI, FREEZE,
DRAIN, RESTORE, CFG, PART, SLOTS, HALTC, KEYSET, FWUPD, JOBSET, PEERSET and SYSRT end with DONE and their value, or later, when
what they asked for has happened (R406 to R416, R425, R426, R434, R436). ATTEST, TLBI of a page or of a context, FREEZE, DRAIN,
RESTORE, KEYSET that installs, and FWUPD act on the command's context; the others, TLBI of everything and KEYSET that revokes
need none. -/
def Obligations.DeviceCommands : Prop :=
  ∀ (s s1 : State) (k : Cmd),
    let inCtx (p : Ctx → Prop) : Prop := ∀ x, ctxBy s1 k.ctx.toNat = some x → p x
    let ok (t : State) (v : Nat) (b : List Byte) : Host.Outcome State Fault Refusal := .next (finishCmd t k.seq .done v b)
    let next (code : Nat) : Prop := NextCommand s s1 code k
    let sem : Prop := s1.cpsem = .port k.port
    let me : Asker := .port k.seq
    (next 0x01 → exec (.cmdNop k) s = ok s1 0 []) ∧
    (∀ v t, next 0x02 → semaOp s1 (.port k.port) k.d0.toNat = some (v, t) → exec (.cmdSema k) s = ok t v.toNat []) ∧
    (next 0x03 → exec (.cmdDevid k) s = ok s1 0 certificateBytes) ∧
    (inCtx fun x => next 0x04 → exec (.cmdAttest k) s = ok s1 0
      (reportBytes s1 ([k.d0, k.d1, k.d2, k.d3].flatMap fun d => bytesLE 8 d.toNat) [] x 0)) ∧
    (next 0x05 → 1 ≤ k.d1.toNat → k.d1.toNat ≤ 64 → exec (.cmdJread k) s = ok s1 s1.fzseq
      ((s1.frieze.filter fun z => k.d0.toNat ≤ z.seq && z.seq < k.d0.toNat + k.d1.toNat).flatMap entryBytes)) ∧
    (next 0x06 → exec (.cmdDevstat k) s = ok s1 0 ((List.finRange 4).flatMap fun d =>
      let x := (dieAt s1 d).stat
      statBytes { x with retries := x.retries + Config.retries d s1.now })) ∧
    (next 0x23 → (k.d0.toNat = 2 ∨ k.d0.toNat ≤ 1 ∧ (ctxBy s1 k.ctx.toNat).isSome = true) → exec (.cmdTlbi k) s = ok (tlbiOp s1 k.d0.toNat k.ctx.toNat k.d1.toNat) 0 []) ∧
    (inCtx fun x =>
     let stops (code : Nat) (i : Instr) (level : Option Nat) : Prop := next code →
       (stopOp s1 x (cmdQ k) level none me = .nothing → exec i s = ok s1 0 []) ∧
       (∀ t, stopOp s1 x (cmdQ k) level none me = .stopping t → exec i s = .next t) ∧
       (stopOp s1 x (cmdQ k) level none me = .wait → exec i s = .next s)
     stops 0x24 (.cmdFreeze k) none ∧ stops 0x25 (.cmdDrain k) (some k.d0.toNat)) ∧
    (inCtx fun x => ∀ h, next 0x26 → x.held = some h → mayRestore x = true →
      (k.d0 = 0 → exec (.cmdRestore k) s = .next (askRestore s1 x.n me)) ∧
      ∀ bs, k.d0 ≠ 0 → k.d0.toNat % 4096 = 0 → ctxRead s1 x.n k.d0.toNat (areaLen h.cores.length) = some bs →
        headerFits h bs = true → exec (.cmdRestore k) s = .next (restoreFrom s1 x h bs me)) ∧
    (∀ v t, next 0x27 → cfgOp s1 k.d0.toNat k.d1.toNat = some (v, t) → exec (.cmdCfg k) s = ok t v.toNat []) ∧
    (∀ c : CoreId, next 0x28 → sem → k.d0.toNat = c.val → k.d1.toNat ≤ 255 →
      exec (.cmdPart k) s = .next (guardOp s1 c (k.d1.setWidth 8) me)) ∧
    (∀ d : DieId, next 0x29 → sem → k.d0.toNat = d.val → mapTakes s1 d k.d2 = false →
      exec (.cmdSlots k) s = ok (modDie s1 d fun z => { z with slotTable := k.d1, queueMap := k.d2 })
        (dieAt s1 d).slotTable.toNat []) ∧
    (∀ c : CoreId, next 0x2A → k.d0.toNat = c.val → k.d1.toNat ≤ 1 →
      exec (.cmdHaltc k) s = .next (haltOp s1 c k.d1.toNat me)) ∧
    (let slot : Fin 8 := Fin.ofNat 8 (field k.d0 2 0)
     next 0x2B → sem → field k.d0 63 4 = 0 →
      (bitOf k.d0 3 = true → exec (.cmdKeyset k) s = ok { s1 with keySlots := put s1.keySlots slot .revoked } 0 []) ∧
      inCtx fun x => ∀ key, bitOf k.d0 3 = false → at' s1.keySlots slot = .empty → ctxRead s1 x.n k.d1.toNat 97 = some key →
        exec (.cmdKeyset k) s = ok { s1 with keySlots := put s1.keySlots slot (.active key) } 0 []) ∧
    (inCtx fun x => ∀ hd im, next 0x2C → sem → ctxRead s1 x.n k.d1.toNat 64 = some hd →
      ctxRead s1 x.n k.d1.toNat (Config.firmwareLength hd) = some im → Config.firmwareGood im = true →
        ∃ t, exec (.cmdFwupd k) s = ok t 0 [] ∧ (bankOrder t).head? = some im ∧
          { t with fwBanks := s1.fwBanks, fwFirst := s1.fwFirst } = s1) ∧
    (next 0x2D → sem → 1 ≤ k.d0.toNat → k.d0.toNat ≤ 4095 → field k.d1 62 10 = 0 →
      let rest := s1.jobs.filter (·.1 != k.d0.toNat)
      (bitOf k.d1 63 = true → exec (.cmdJobset k) s = ok { s1 with jobs := rest } 0 []) ∧
      (bitOf k.d1 63 = false → (ctxBy s1 (field k.d1 9 0)).isSome = true →
        exec (.cmdJobset k) s = ok { s1 with jobs := rest ++ [(k.d0.toNat, field k.d1 9 0)] } 0 [])) ∧
    (next 0x2E → sem → k.d0.toNat ≤ 65535 → field k.d2 63 9 = 0 →
      let rest := s1.peers.filter (·.pkg != k.d0.toNat)
      rest.length < 1024 → exec (.cmdPeerset k) s = ok { s1 with
        peers := rest ++ [⟨k.d0.toNat, k.d1, k.d2.setWidth 8⟩]
        ownPkg := if bitOf k.d2 8 then k.d0.toNat else s1.ownPkg } 0 []) ∧
    ∀ y c, next 0x2F → ctxBy s1 (field k.d0 9 0) = some y → y.sys = true → field k.d0 63 16 = 0 →
      sysrtCore s1 (field k.d0 9 0) = some c → storeUsed (coreAt s1 c) < 256 →
      let ch : BitVec 6 := BitVec.ofNat 6 (field k.d0 15 10)
      exec (.cmdSysrt k) s = .next (active (acceptMsg { s1 with sysWork := s1.sysWork ++ [(me, .sysrt)] } c
        ⟨0, ch, ch, [BitVec.ofNat 64 k.seq, k.d1, k.d2, k.d3], 0, c, none⟩) c)

/-- The commands on contexts, memory, queues and classes: CTXNEW, CTXDEL, CTXSET, MAP, PTSET, QNEW, QSET, ENQ, CANCEL, CLSREG
and CLSFREE end with DONE where their operands are in range. A command that needs CPSEM ends with NOSEM where its port does not
hold it, and one that acts on its context, with a context that does not exist, with BADARG (R362, R364, R380, R381, R183, R191,
R425 to R427). That CTXDEL waits as the next command, ahead of all others, until its launches are gone, and the BADARG for an
absent context, are the model's readings (log entry 27). -/
def Obligations.ContextCommands : Prop :=
  ∀ (s s1 : State) (k : Cmd),
    let ok (t : State) (v : Nat) : Host.Outcome State Fault Refusal := .next (finishCmd t k.seq .done v [])
    let next (code : Nat) : Prop := NextCommand s s1 code k
    let sem : Prop := s1.cpsem = .port k.port
    (∀ e ∈ [(0x10, Instr.cmdCtxnew k), (0x11, .cmdCtxdel k), (0x20, .cmdCtxset k), (0x28, .cmdPart k), (0x29, .cmdSlots k),
        (0x2B, .cmdKeyset k), (0x2C, .cmdFwupd k), (0x2D, .cmdJobset k), (0x2E, .cmdPeerset k)],
      next e.1 → ¬sem → exec e.2 s = .next (finishCmd s1 k.seq .nosem 0 [])) ∧
    (ctxBy s1 k.ctx.toNat = none →
      (∀ e ∈ [(0x04, Instr.cmdAttest k), (0x12, .cmdMap k), (0x13, .cmdQnew k), (0x14, .cmdEnq k), (0x15, .cmdCancel k),
        (0x16, .cmdClsreg k), (0x17, .cmdClsfree k), (0x21, .cmdPtset k), (0x22, .cmdQset k), (0x24, .cmdFreeze k),
        (0x25, .cmdDrain k), (0x26, .cmdRestore k)], next e.1 → exec e.2 s = .next (finishCmd s1 k.seq .badarg 0 [])) ∧
      (∀ e ∈ [(0x11, Instr.cmdCtxdel k), (0x20, .cmdCtxset k), (0x2C, .cmdFwupd k)],
        next e.1 → sem → exec e.2 s = .next (finishCmd s1 k.seq .badarg 0 [])) ∧
      (next 0x23 → k.d0.toNat ≤ 1 → exec (.cmdTlbi k) s = .next (finishCmd s1 k.seq .badarg 0 [])) ∧
      (next 0x2B → sem → bitOf k.d0 3 = false → exec (.cmdKeyset k) s = .next (finishCmd s1 k.seq .badarg 0 []))) ∧
    (next 0x10 → sem → ctxFieldsOk (bitOf k.d0 27) (field k.d0 18 13) (field k.d0 12 4) = true →
      ((∃ n < 1024, ctxBy s1 n = none) → ∃ n < 1024, ctxBy s1 n = none ∧ ∀ root save qtab t,
        newCtxPages s1 n (field k.d0 12 4) = some (root, save, qtab, t) →
        exec (.cmdCtxnew k) s = ok { t with ctxs := t.ctxs ++ [freshCtx n k.d0 root save qtab] } n) ∧
      ((∀ n < 1024, (ctxBy s1 n).isSome = true) → exec (.cmdCtxnew k) s = .next (finishCmd s1 k.seq .full 0 []))) ∧
    ∀ x, ctxBy s1 k.ctx.toNat = some x →
      let q := cmdQ k
      let y := at' x.queues q
      let setQ (f : Queue → Queue) : State := modCtx s1 x.n fun x => modQueue x q f
      (next 0x11 → sem →
        let r := emptyQueues x.n (List.finRange 16) (cancelAll s1 x.n)
        (r.2 = true → (∀ l ∈ r.1.launches, l.ctx ≠ x.n) → exec (.cmdCtxdel k) s = ok (dropCtx r.1 x) 0) ∧
        (r.2 = false → exec (.cmdCtxdel k) s = .next { r.1 with cmds := (0x11, k) :: r.1.cmds })) ∧
      (next 0x20 → sem → ctxBusy s1 x = false → ctxsetOk x k = true →
        exec (.cmdCtxset k) s = ok (modCtx s1 x.n fun x => { x with
          sys := bitOf k.d0 62, part := Fin.ofNat 16 (field k.d0 61 58), pmin := field k.d3 14 9
          maxc := field k.d3 8 0, kmask := k.d4.setWidth 8 }) 0) ∧
      (let ver := bitOf k.d2 3
       let cmp := bitOf k.d2 4
       let csm := bitOf k.d2 7
       next 0x12 → field k.d2 63 8 = 0 → k.d1 ≠ 0 → k.d0.toNat % 65536 = 0 → k.d1.toNat % 65536 = 0 →
         k.d0.toNat + k.d1.toNat ≤ windowBase → (ver = true → csm = true ∧ cmp = false) → (cmp = true → csm = false) →
         unmapped s1 x.n k.d0.toNat k.d1.toNat = true →
         let pages := mapRange x.n (Fin.ofNat 4 (field k.d2 6 5)) csm ver cmp (field k.d2 2 0) (k.d1.toNat / 65536) k.d0.toNat
           k.d1.toNat s1
         (∀ t, pages = some t → exec (.cmdMap k) s = ok t 0) ∧
         (pages = none → exec (.cmdMap k) s = .next (finishCmd s1 k.seq .full 0 []))) ∧
      (∀ page e t, next 0x21 → k.d0.toNat < 2 ^ 52 → k.d1.toNat ≤ 3 →
        tableAtLevel s1.mem k.d0.toNat k.d1.toNat 3 x.root = some page → checkedEntry s1 x.n k.d2 = some (e, t) →
        exec (.cmdPtset k) s = ok (tlbiOp (putEntry t page (levelIndex k.d0.toNat k.d1.toNat) e) 0 x.n k.d0.toNat) 0) ∧
      (next 0x13 → ringOkay k.d0.toNat k.d1.toNat k.d2.toNat = true → queueRuns s1 x q = false → queueBusy s1 x q = false →
        exec (.cmdQnew k) s = ok (setQ fun _ => { Queue.zero with
          v := true, lsize := k.d2.toNat, rbase := BitVec.ofNat 52 k.d0.toNat, sbase := BitVec.ofNat 52 k.d1.toNat }) 0) ∧
      (let lsize := field k.d0 57 52
       next 0x22 → y.head = y.done → queueRuns s1 x q = false →
         ringOkay (field k.d0 51 0) (field k.d1 51 0) lsize = true → y.head ≤ k.d2.toNat → k.d2.toNat - y.head ≤ 2 ^ lsize →
         exec (.cmdQset k) s = ok (setQ fun y => { y with
           v := bitOf k.d0 63, halt := bitOf k.d0 62, lsize := lsize, rbase := BitVec.ofNat 52 (field k.d0 51 0)
           sbase := BitVec.ofNat 52 (field k.d1 51 0), tail := k.d2.toNat }) 0) ∧
      (next 0x14 → y.v = true → 1 ≤ k.d0.toNat → y.tail + k.d0.toNat - y.done ≤ 2 ^ y.lsize →
        exec (.cmdEnq k) s = ok (setQ fun y => { y with tail := y.tail + k.d0.toNat }) (y.tail + k.d0.toNat)) ∧
      (next 0x15 → k.d0.toNat < y.tail → exec (.cmdCancel k) s = ok (cancelRecord s1 x q k.d0.toNat) 0) ∧
      (∀ bs, next 0x16 → ctxRead s1 x.n k.d1.toNat 32 = some bs → field k.d0 63 6 = 0 →
        let c : Cls := ⟨x.n, Vector.ofFn fun i => dw (dwordsOf bs) i.val⟩
        classFits s1 c (classPlace k).1 (classPlace k).2 = true →
        at' (dieAt s1 (classPlace k).1).classes (classPlace k).2 = none →
        exec (.cmdClsreg k) s = ok (modDie s1 (classPlace k).1 fun z =>
          { z with classes := put z.classes (classPlace k).2 (some c) }) 0) ∧
      (next 0x17 →
        (at' (dieAt s1 (classPlace k).1).classes (classPlace k).2 = none → exec (.cmdClsfree k) s = ok s1 0) ∧
        ∀ c, at' (dieAt s1 (classPlace k).1).classes (classPlace k).2 = some c → c.ctx = x.n →
          exec (.cmdClsfree k) s =
            if inSession s1 (classPlace k).1 (classPlace k).2 then
              .next { s1 with sysWork := s1.sysWork ++ [(.port k.seq, .classFree (classPlace k).1 (classPlace k).2)] }
            else ok (freeClass s1 (classPlace k).1 (classPlace k).2) 0)

/-! ## The package -/

/-- The steps of the package: a port's lease of CPSEM expires after 2^33 cycles; an access whose link's retries are exhausted
ends as one with an uncorrectable error; the scrubber, once the package is up, finds words, Frieze entries and contexts; a die's
clock steps down from 100 °C, up below 95 °C, and all dies lose power from 110 °C; power-on leaves the reset state with flash as
it was; the bring-up goes on step by step or stops; a core that returns to service is reset (R428, R437, R439 to R441). -/
def Obligations.PackageSteps : Prop :=
  ∀ s : State,
    (∀ p, s.cpsem = .port p → s.cpsemAt + 2 ^ 33 ≤ s.now →
      exec .cpsemLeaseExpiry s = .next (deviceEvent { s with cpsem := .free } 0x02 0 0 0 0)) ∧
    (∀ p, s.cpsem = .port p → s.now < s.cpsemAt + 2 ^ 33 → exec .cpsemLeaseExpiry s = .next s) ∧
    (∀ a : Access, s.accs.find? (·.id == a.id) = some a → exec (.linkRetryExhausted a.id) s = .next (readBad
      (modDie s (dieOf a.who.core) fun d => { d with stat := { d.stat with retries := d.stat.retries + 16 } }) a)) ∧
    (∀ loc, s.bootStep = 9 → s.bad.contains (loc / 8 * 8) = false →
      exec (.scrub (.word loc) .uncorrectable) s = .next
        (deviceEvent { s with bad := loc / 8 * 8 :: s.bad } 0x04 (physAddr s (loc / 8 * 8)) 0 0 0) ∧
      exec (.scrub (.word loc) .corrected) s = .next (countCorrected s (loc / 8 * 8)) ∧
      exec (.scrub (.word loc) .clean) s = .next s) ∧
    (∀ n, s.bootStep = 9 → exec (.scrub (.frieze n) .uncorrectable) s = .next { s with
      frieze := s.frieze.map fun e => if e.seq % 65536 = n.val then { e with state := .corrupt } else e } ∧
      (∃ loc, exec (.scrub (.frieze n) .corrected) s = .next (countCorrected s loc)) ∧
      exec (.scrub (.frieze n) .clean) s = .next s) ∧
    (∀ n, s.bootStep = 9 → (∃ loc, exec (.scrub (.context n) .corrected) s = .next (countCorrected s loc)) ∧
      exec (.scrub (.context n) .clean) s = .next s) ∧
    (∀ x, s.bootStep = 9 → ctxBy s x.n = some x → exec (.scrub (.context x.n) .uncorrectable) s = .next (deviceEvent
      (modCtx s x.n fun x => { x with queues := x.queues.map fun q => { q with halt := true } }) 0x06 (descriptorAt s x.n) x.n 0 0)) ∧
    (∀ (die : DieId) (temp : BitVec 8), ((dieAt s die).tempAt = some s.now → (dieAt s die).temp = temp) →
      let warm (b : Bool) (s : State) : State := modDie s die fun d => { d with stepped := b, temp := temp, tempAt := some s.now }
      (100 ≤ temp.toNat → exec (.thermalStepDown die temp) s = .next (warm true { s with powered := s.powered && temp.toNat < 110 })) ∧
      (temp.toNat < 95 → exec (.thermalStepUp die temp) s = .next (warm false s)) ∧
      (110 ≤ temp.toNat → exec (.thermalTrip die temp) s = .next (warm true { s with powered := false }))) ∧
    exec .powerOnReset s = .next { State.reset with
      agenda := s.agenda, ticks := s.ticks, nextId := s.nextId, now := s.now, fwBanks := s.fwBanks
      fwFirst := s.fwFirst, keySlots := s.keySlots
      bootCount := s.bootCount, lastTrip := !s.powered } ∧
    (∀ ok t, 1 ≤ s.bootStep → s.bootStep ≤ 8 →
      (bringUp s ok = some t → exec (.bringUpStep ok) s = .next { t with bootStep := s.bootStep + 1 }) ∧
      (bringUp s ok = none → exec (.bringUpStep ok) s = .next { s with bootStep := 10 })) ∧
    (∀ c, (coreAt s c).resetting = true → exec (.coreResetDone c) s = .next (modCore (zeroCore s c) c fun k =>
      { Core.zero with guardV := k.guardV, halted := k.halted, lastPc := k.lastPc }))

/-- The bring-up's seventh step leaves what R440 lists: no context, the job and peer tables and the Frieze empty, WDP 26, SCRUB
32, CPSEM free, every guard, slot table and queue map 0; the package comes up in the eighth with entry 0, which carries the boot
count. The state at power-on has memory in canonical form, power, and the first step before it; that flash holds no image there,
and the values of registers the spec does not give, are the model's (log entries 4 to 6). -/
def Obligations.ResetState : Prop :=
  State.reset.memOk ∧ State.reset.powered = true ∧ State.reset.bootStep = 1 ∧ State.reset.agenda = [] ∧
  (∀ c : CoreId, coreAt State.reset c = Core.zero) ∧
  (∀ s : State, s.bootStep = 7 → ∃ t, exec (.bringUpStep true) s = .next t ∧ t.bootStep = 8 ∧ t.frieze = [] ∧ t.fzseq = 0 ∧
    t.ctxs = [] ∧ t.jobs = [] ∧ t.peers = [] ∧ t.ownPkg = 0 ∧ t.wdp = 26 ∧ t.scrub = 32 ∧ t.cpsem = .free ∧
    (∀ d : DieId, (dieAt t d).slotTable = 0 ∧ (dieAt t d).queueMap = 0) ∧ ∀ c : CoreId, (coreAt t c).guardV = 0) ∧
  ∀ s : State, s.bootStep = 8 → s.frieze = [] → s.fzseq = 0 → ∃ t e, exec (.bringUpStep true) s = .next t ∧
    t.bootStep = 9 ∧ t.frieze = [e] ∧ e.seq = 0 ∧ e.code = 0xF1 ∧ e.rid = 1 ∧ e.payload.head? = some s.bootCount

/-! ## The whole machine -/

/-- Memory keeps its canonical form in every step, from any state that has it: its locations strictly rise, and no listed
byte is the one that an unlisted location reads as (log entry 11 says how a program comes to run). -/
def Obligations.StepKeepsMemoryCanonical : Prop :=
  ∀ s t : State, s.memOk → step s = .next t → t.memOk

/-- No instruction word changes a byte of memory itself, in any context: what it stores is on its way until it performs, but
for the saved area that CTXSV and CTXLD handle and the report that ATTEST writes (R123, R284, R405, R407, R416). -/
def Obligations.WordsStoreNothing : Prop :=
  ∀ (i : Instr) (w : DWord) (s t : State), encode i = some w → exec i s = .next t →
    (∀ f, i ≠ .ctxsv f ∧ i ≠ .ctxld f ∧ i ≠ .attest f) → t.mem = s.mem

/-- Words written out from the encoding tables decode to their instructions (R210 to R216, R223 and the opcode tables). -/
def Obligations.DecodedWords : Prop :=
  decodeWord 0x0121282900320000 = some (.add ⟨.l 1, .p 0, .p 1, .x 0, 0x32, 0⟩) ∧
  decodeWord 0x1F05000002000040 = some (.movi ⟨.x 5, .x 0, 0, 0x02000040⟩) ∧
  decodeWord 0x232229282A600000 = some (.fma ⟨.l 2, .p 1, .p 0, .p 2, 0x60, 0⟩) ∧
  decodeWord 0x312C22302E600000 = some (.steer ⟨.q 0, .l 2, .c 0, .q 2, 0x60, 0⟩) ∧
  decodeWord 0x42002B8022020000 = some (.st ⟨.x 0, .p 3, .imm 0, .l 2, 0x02, 0⟩) ∧
  decodeWord 0x58FFFFFFFF000500 = some (.wait ⟨0xFF, 0xFF, 0xFF, 0xFF, 0, 5, 0⟩) ∧
  decodeWord 0x5C02000000000050 = some (.mfs ⟨.x 2, .x 0, 0, 0x50⟩) ∧
  decodeWord 0x69000B0000000001 = some (.sarm ⟨.x 0, .x 11, .x 0, .x 0, false, false, 0, false, 0, 1⟩) ∧
  decodeWord 0x8400800000000000 = some (.gstart ⟨.x 0, .imm 0, 0, false, 0, 0, 0, 0, 0⟩) ∧
  decodeWord 0x9703800000000000 = some (.sema ⟨.x 3, .imm 0, .x 0, .x 0, 0, 0⟩) ∧
  decodeWord 0x0000000000000000 = none
end

