-- ==== Sys2Proof/Laws/Words.lean ====
section
/-! SUPPORT. What running one instruction word comes to, once it may run: by its body, and for the words that compute a
value. -/

namespace Sys2Proof.Laws
open Sys2Proof Sys2Proof.Machine

/-- Fewer operands are here as well. -/
theorem here_of {s : State} {e : Env} {os os' : List Operand} (h : Here s e os) (hs : ∀ o ∈ os', o ∈ os) :
    Here s e os' := by
  simp [Here] at *
  exact fun o ho => h o (hs o ho)

/-- A word whose body is done. -/
theorem runWord_done {i : Instr} {s : State} {e : Env} {body : Env → Eff} {t : State} (h : MayRun s i e)
    (hb : body e = .done t) : runWord i s body = .next t := by
  simp [runWord, h.1, h.2.1, h.2.2, hb]

/-- A word whose body traps. -/
theorem runWord_trap {i : Instr} {s : State} {e : Env} {body : Env → Eff} {code : FaultCode} {a x : DWord}
    (h : MayRun s i e) (hb : body e = .trap code a x) :
    runWord i s body = .next (raiseRead code e.who a x e.launch.ctx s) := by
  simp [runWord, h.1, h.2.1, h.2.2, hb]

/-- A word whose body waits leaves the state alone. -/
theorem runWord_wait {i : Instr} {s : State} {e : Env} {body : Env → Eff} (h : MayRun s i e) (hb : body e = .wait) :
    runWord i s body = .next s := by
  simp [runWord, h.1, h.2.1, h.2.2, hb]

/-- A word that fails a check of R225. -/
theorem runWord_fault {i : Instr} {s : State} {e : Env} {body : Env → Eff} {code : FaultCode} (he : envOf s i = some e)
    (hh : heldAtIssue s e = false) (hf : wordFault s e i = some code) :
    runWord i s body = .next (raise code (onEngine e.who (issueUnit e.kind code i)) e.who.pc 0 s) := by
  simp [runWord, he, hh, hf]

/-- Every word has a next state. -/
theorem runWord_next (i : Instr) (s : State) (body : Env → Eff) : ∃ t, runWord i s body = .next t := by
  unfold runWord
  split
  · exact ⟨_, rfl⟩
  · split
    · exact ⟨_, rfl⟩
    · split
      · exact ⟨_, rfl⟩
      · split <;> exact ⟨_, rfl⟩

/-- A word that computes a value leaves it in its destination. -/
theorem execValue_done {i : Instr} {s : State} {e : Env} {d : Operand} {srcs : List Operand} {fmt : Fmt}
    {compute : Env → List Src → DWord × FlagBits} (h : MayRun s i e) (hh : Here s e (d :: srcs)) :
    execValue i s d srcs fmt compute = .next (written s e d srcs fmt
      (compute e (srcs.map (readSrc s e))).1 (compute e (srcs.map (readSrc s e))).2) := by
  unfold execValue
  apply runWord_done h
  unfold Here at hh
  rw [if_neg (by simp [hh])]
  simp only [written, suppressed, List.any_map, Function.comp_def]
  split <;> rename_i hv <;> simp only [hv] <;> simp

/-- A conversion leaves its result, and AMAX as it has seen the source. -/
theorem execConvert_done {i : Instr} {s : State} {e : Env} {f : RegForm} {srcs : List Operand}
    {scale : List Src → FVal → FVal} (h : MayRun s i e) (hh : Here s e (f.d :: srcs)) :
    execConvert i f s srcs scale = .next (
      let src := (fmtOf (f.x.extractLsb' 4 4)).getD .i32
      let xs := srcs.map (readSrc s e)
      let v := cvtSource (fpMode s e) src (mU f.m) (nthSrc xs 0)
      converted s e f srcs v (convertTo (fpMode s e) (fmtField f.m) src (mRnd f.m) (mSat f.m) (mU f.m) (scale xs v))) := by
  unfold execConvert
  apply runWord_done h
  unfold Here at hh
  rw [if_neg (by simp [hh])]
  simp only [converted, suppressed, List.any_map, Function.comp_def]
  generalize ((srcs.any fun x => (readSrc s e x).void) || !predicate s e) = void
  cases void <;> cases f.x.getLsbD 0 <;> rfl

/-- A word whose body is done runs. -/
theorem runs_of {i : Instr} {s : State} {e : Env} {body : Env → Eff} {t : State} (hx : exec i s = runWord i s body)
    (hb : body e = .done t) : Runs s e i t := by
  intro h; rw [hx, runWord_done h hb]

/-- A word whose body waits runs, and leaves the state alone. -/
theorem runs_wait {i : Instr} {s : State} {e : Env} {body : Env → Eff} (hx : exec i s = runWord i s body)
    (hb : body e = .wait) : Runs s e i s := by
  intro h; rw [hx, runWord_wait h hb]

/-- A word whose body traps, with a fault that is not journalled. -/
theorem traps_of {i : Instr} {s : State} {e : Env} {body : Env → Eff} {code : FaultCode} {a x : DWord}
    (hc : code ≠ .uncorrectable) (hx : exec i s = runWord i s body) (hb : body e = .trap code a x) :
    Traps s e i code a x := by
  intro h
  rw [hx, runWord_trap h hb]
  simp [raiseRead, hc]

/-- A node flow word in a firing. -/
theorem flowWord_done {i : Instr} {s : State} {e : Env} {srcs : List Operand} {body : Env → Firing → State} {g : Firing}
    (h : MayRun s i e) (hh : Here s e srcs) (hg : firingOf s e = some g) :
    flowWord i s srcs body = .next (advance e true (body e g)) := by
  unfold flowWord
  apply runWord_done h
  unfold Here at hh
  rw [hh, hg]; simp

end Sys2Proof.Laws
end

