-- ==== Sys2Proof/Laws/Access.lean ====
section
/-! SUPPORT. What a memory word comes to: its address checks passed, its access issued. -/

namespace Sys2Proof.Laws
open Sys2Proof Sys2Proof.Machine

/-- A memory word that has not run before in its firing, whose operands are here and that nothing suppresses, comes to its
body. -/
theorem memWord_run {i s d srcs body e} (h : MayRun s i e) (hh : Here s e (d.toList ++ srcs)) (hr : redone s e = false)
   (hs : suppressed s e srcs = false) :
   memWord i s d srcs body = match body e (srcs.map (readSrc s e)) with
        | .done s' => .next s'
        | .trap code a x => .next (raiseRead code e.who a x e.launch.ctx s)
        | .wait => .next s := by
  unfold memWord
  have hb : (if (d.toList ++ srcs).any (lPending s e) then Eff.wait
    else if redone s e then performAgain s e d
    else
      let xs := srcs.map (readSrc s e)
      if xs.any (·.void) || !predicate s e then performNothing s e d
      else body e xs) = body e (srcs.map (readSrc s e)) := by
    unfold Here at hh
    simp only [suppressed] at hs
    rw [hh, hr]; simp only [List.any_map, Function.comp_def, hs]; simp
  cases hx : body e (srcs.map (readSrc s e)) with
  | done t => exact runWord_done h (hb.trans hx)
  | trap c a x => exact runWord_trap h (hb.trans hx)
  | wait => exact runWord_wait h (hb.trans hx)

/-- An address that passes the checks of R298 comes to the body. -/
theorem resolve_reaches {s e ad al want home va loc} {body : Nat → Nat → Eff} (h : Reaches s e ad al want home va loc) : resolve s e ad al want home body = body va loc := by
  obtain ⟨rfl, h1, h2, h3, r, h4, h5, h6⟩ := h
  unfold resolve
  simp only [h4, h5, h6, h2, h3]
  rw [if_neg (by omega)]; simp

/-- A read is always issued for an agent that runs words. -/
theorem issueRead_done {s e} (he : ∃ b, e.agent = .bank b ∨ (∃ pe, e.agent = .node pe) ∨ ∃ p, e.agent = .parser p) (d p a) : ∃ t, issueRead s e d p a = .done t := by
  obtain ⟨b, h | ⟨pe, h⟩ | ⟨q, h⟩⟩ := he
  · simp [issueRead, h]
  · unfold issueRead
    rw [h]
    cases d <;> simp only [] <;> (repeat' split) <;> exact ⟨_, rfl⟩
  · simp [issueRead, h]

/-- The agents that run words. -/
theorem env_agent {s i e} (h : envOf s i = some e) :  ∃ b, e.agent = .bank b ∨ (∃ pe, e.agent = .node pe) ∨ ∃ p, e.agent = .parser p := by
  unfold envOf at h
  split at h
  · simp at h
  all_goals (try dsimp only at h)
  all_goals
    split at h
    · split at h
      · injection h with h; subst h; simp
      · simp at h
    · simp at h

theorem readIssues_of {s e i d p a} (h : MayRun s i e) (hx : exec i s = match issueRead s e d p a with
        | .done s' => .next s'
        | .trap code a x => .next (raiseRead code e.who a x e.launch.ctx s)
        | .wait => .next s) : ReadIssues s e i d p a := by
  obtain ⟨t, ht⟩ := issueRead_done (env_agent h.1) d p a
  exact ⟨t, ht, by rw [hx, ht]⟩

theorem writeIssues_of {s e i a} (hx : exec i s = match issueWrite s e a with
        | .done s' => .next s'
        | .trap code a x => .next (raiseRead code e.who a x e.launch.ctx s)
        | .wait => .next s) : WriteIssues s e i a := by
  refine ⟨_, rfl, hx⟩

end Sys2Proof.Laws
end

