-- ==== Sys2Proof/Laws/Areas.lean ====
section
/-! SUPPORT. The lengths of the byte strings that system words and checks make: a context's saved area, a report, a hash. -/

namespace Sys2Proof.Machine
open Sys2Proof

theorem bytesLE_length (n v : Nat) : (bytesLE n v).length = n := by
  induction n generalizing v with
  | zero => rfl
  | succ n ih => simp [bytesLE, ih]

theorem padTo_length (n : Nat) (l : List Byte) : (padTo n l).length = n := by
  simp [padTo]; omega

theorem blockBytes_length (b : RegBlock) : (blockBytes b).length = 256 := by
  simp [blockBytes, bytesLE_length, Function.comp_def]

/-- The area of a held launch without cores is 128 KiB long. -/
theorem areaBytes_length (x : Ctx) (h : Held) (hc : h.cores = []) : (areaBytes x h).length = 0x20000 := by
  have hn : heldCores h = [] := List.flatMap_eq_nil_iff.2 fun c _ => by simp [hc]
  simp only [areaBytes, hn, padTo_length, List.length_flatMap, blockBytes_length, List.length_append, List.length_replicate,
    List.map_const', List.sum_replicate_nat, List.length_range, List.length_finRange]
  simp

/-- A report is 288 bytes long (R416). -/
theorem reportBytes_length (s : State) (nonce hm : List Byte) (x : Ctx) (d : DieId) : (reportBytes s nonce hm x d).length = 288 := by
  simp [reportBytes, padTo_length, bytesLE_length]

theorem shaRound_length {v : List DWord} (w : DWord) (h : v.length = 8) : (shaRound v w).length = 8 := by
  unfold shaRound; split
  · rfl
  · exact h

theorem shaBlock_length {v : List DWord} (b : List Byte) (h : v.length = 8) : (shaBlock v b).length = 8 := by
  have hf : ∀ (ws : List (DWord × DWord)) (u : List DWord), u.length = 8 →
      (ws.foldl (fun v x => shaRound v (x.1 + x.2)) u).length = 8 := by
    intro ws
    induction ws with
    | nil => exact fun _ h => h
    | cons x xs ih => exact fun u h => ih _ (shaRound_length _ h)
  simp [shaBlock, hf _ _ h, h]

theorem shaBlocks_length (n : Nat) : ∀ {v : List DWord} (m : List Byte), v.length = 8 → (shaBlocks n v m).length = 8 := by
  induction n with
  | zero => exact fun _ h => h
  | succ n ih => exact fun m h => ih _ (shaBlock_length _ h)

theorem bytesBE_length (n v : Nat) : (bytesBE n v).length = n := by simp [bytesBE, bytesLE_length]

/-- A hash is 48 bytes long. -/
theorem sha384_length (m : List Byte) : (sha384 m).length = 48 := by
  simp [sha384, List.length_flatMap, bytesBE_length, shaBlocks_length, shaInit]

end Sys2Proof.Machine
end

