-- ==== Sys2Proof/Laws/Board.lean ====
section
/-! SUPPORT. What the bring-up's seventh step leaves, field by field. -/

namespace Sys2Proof.Laws
open Sys2Proof Sys2Proof.Machine

/-- Taking memory for an owner changes the pages, memory and the bad words alone. -/
theorem takePlace_keeps {s : State} {n lo hi al len : Nat} {p : Nat → PageRec} {r : Nat × State}
    (h : takePlace s n lo hi al len p = some r) : r.2 = { s with pages := r.2.pages, mem := r.2.mem, bad := r.2.bad } := by
  unfold takePlace at h
  cases hp : pickPlace s n lo hi al len <;> simp [hp] at h
  subst h; rfl

/-- So does reserving memory for the Plinths. -/
theorem reserveAll_keeps (xs : List (Nat × (Nat × Nat) × Nat)) : ∀ s : State, reserveAll xs s =
    { s with pages := (reserveAll xs s).pages, mem := (reserveAll xs s).mem, bad := (reserveAll xs s).bad } := by
  induction xs with
  | nil => intro s; rfl
  | cons a as ih =>
    intro s
    obtain ⟨n, r, len⟩ := a
    unfold reserveAll
    split
    · rename_i h
      have := takePlace_keeps h
      dsimp only at this
      rw [ih, this]
    · exact ih s

@[simp] theorem bootState_frieze (s : State) : (bootState s).frieze = [] := by
  unfold bootState
  generalize plinthAreas = xs
  rw [reserveAll_keeps xs]

@[simp] theorem bootState_fzseq (s : State) : (bootState s).fzseq = 0 := by
  unfold bootState
  generalize plinthAreas = xs
  rw [reserveAll_keeps xs]

@[simp] theorem bootState_ctxs (s : State) : (bootState s).ctxs = [] := by
  unfold bootState
  generalize plinthAreas = xs
  rw [reserveAll_keeps xs]

@[simp] theorem bootState_jobs (s : State) : (bootState s).jobs = [] := by
  unfold bootState
  generalize plinthAreas = xs
  rw [reserveAll_keeps xs]

@[simp] theorem bootState_peers (s : State) : (bootState s).peers = [] := by
  unfold bootState
  generalize plinthAreas = xs
  rw [reserveAll_keeps xs]

@[simp] theorem bootState_ownPkg (s : State) : (bootState s).ownPkg = 0 := by
  unfold bootState
  generalize plinthAreas = xs
  rw [reserveAll_keeps xs]

@[simp] theorem bootState_wdp (s : State) : (bootState s).wdp = 26 := by
  unfold bootState
  generalize plinthAreas = xs
  rw [reserveAll_keeps xs]

@[simp] theorem bootState_scrub (s : State) : (bootState s).scrub = 32 := by
  unfold bootState
  generalize plinthAreas = xs
  rw [reserveAll_keeps xs]

@[simp] theorem bootState_cpsem (s : State) : (bootState s).cpsem = .free := by
  unfold bootState
  generalize plinthAreas = xs
  rw [reserveAll_keeps xs]

@[simp] theorem bootState_dies (s : State) : (bootState s).dies = s.dies.map fun d => { d with slotTable := 0, queueMap := 0, excs := [] } := by
  unfold bootState
  generalize plinthAreas = xs
  rw [reserveAll_keeps xs]

@[simp] theorem bootState_cores (s : State) : (bootState s).cores = s.cores.map fun k => { k with guardV := 0 } := by
  unfold bootState
  generalize plinthAreas = xs
  rw [reserveAll_keeps xs]

@[simp] theorem bootState_bootCount (s : State) : (bootState s).bootCount = s.bootCount := by
  unfold bootState
  generalize plinthAreas = xs
  rw [reserveAll_keeps xs]

end Sys2Proof.Laws
end

