-- ==== Sys2Proof/Laws/Commands.lean ====
section
/-! SUPPORT. What running a command of a port, an engine word and a system word comes to. -/

namespace Sys2Proof.Laws
open Sys2Proof Sys2Proof.Machine

theorem cmdRun_ok {code : Nat} {sem : Bool} {k : Cmd} {s s1 : State} {body : State → CmdOut} {t : State} {v : Nat} {b : List Byte}
   (h : NextCommand s s1 code k) (hs : sem = true → s1.cpsem = .port k.port) (hb : body s1 = .done t v b) :
   cmdRun code sem k s body = .next (finishCmd t k.seq .done v b) := by
  obtain ⟨rest, h1, rfl⟩ := h
  simp only [cmdRun, h1]
  cases sem <;> simp_all

theorem cmdRun_later {code : Nat} {sem : Bool} {k : Cmd} {s s1 : State} {body : State → CmdOut} {t : State}
   (h : NextCommand s s1 code k) (hs : sem = true → s1.cpsem = .port k.port) (hb : body s1 = .later t) :
   cmdRun code sem k s body = .next t := by
  obtain ⟨rest, h1, rfl⟩ := h
  simp only [cmdRun, h1]
  cases sem <;> simp_all

theorem cmdRun_fail {code : Nat} {sem : Bool} {k : Cmd} {s s1 : State} {body : State → CmdOut} {e : CmdEnd}
   (h : NextCommand s s1 code k) (hs : sem = true → s1.cpsem = .port k.port) (hb : body s1 = .fail e) :
   cmdRun code sem k s body = .next (finishCmd s1 k.seq e 0 []) := by
  obtain ⟨rest, h1, rfl⟩ := h
  simp only [cmdRun, h1]
  cases sem <;> simp_all

theorem cmdRun_wait {code : Nat} {sem : Bool} {k : Cmd} {s s1 : State} {body : State → CmdOut} {t : State}
   (h : NextCommand s s1 code k) (hs : sem = true → s1.cpsem = .port k.port) (hb : body s1 = .wait t) :
   cmdRun code sem k s body = .next { t with cmds := (code, k) :: t.cmds } := by
  obtain ⟨rest, h1, rfl⟩ := h
  simp only [cmdRun, h1]
  cases sem <;> simp_all

theorem cmdRun_nosem {code : Nat} {k : Cmd} {s s1 : State} {body : State → CmdOut} 
   (h : NextCommand s s1 code k) (hs : ¬ s1.cpsem = .port k.port) :
   cmdRun code true k s body = .next (finishCmd s1 k.seq .nosem 0 []) := by
  obtain ⟨rest, h1, rfl⟩ := h
  simp only [cmdRun, h1]
  simp_all

/-- An engine or parser command offers itself. -/
theorem engine_word (i : Instr) (q o s) (h : engQueue i = some q) (h2 : commandOperands i = some o) : exec i s = runWord i s fun e => issueCommand s e i o.1 o.2.1 o.2.2.1 o.2.2.2 := by
  cases i <;> simp [engQueue] at h <;> (simp [commandOperands, engShape] at h2; subst h2; rfl)

/-- A system word that may act does not wait. -/
theorem sysWaits_of {s e b} (hr : SysReady s e b) : sysWaits s e = false := by
  simp [sysWaits, hr.2.1, hr.2.2.1, hr.2.2.2.1, hr.2.2.2.2]

/-- A system word that may act. -/
theorem sysWord_runs {i s e b body t} (hr : SysReady s e b) (hx : exec i s = sysWord i s body) (hb : body e b = .done t) : Runs s e i t := by
  intro h
  rw [hx, sysWord]
  apply runWord_done h
  simp [hr.1, sysWaits_of hr, hb]

/-- A system word that traps. -/
theorem sysWord_traps {i s e b body a x code} (hc : code ≠ .uncorrectable) (hr : SysReady s e b) (hx : exec i s = sysWord i s body) (hb : body e b = .trap code a x) : Traps s e i code a x := by
  intro h
  rw [hx, sysWord, runWord_trap (code := code) (a := a) (x := x) h]
  · simp [raiseRead, hc]
  · simp [hr.1, sysWaits_of hr, hb]

/-- A split-phase word ends its task behind a reserved continuation. -/
theorem splits_of {i s e chan aw} {body : Env → Eff} (hx : exec i s = runWord i s body) (hb : body e = splitPhase s e chan aw) : Splits s e i chan aw := by
  intro t ht hs
  apply runs_of hx
  rw [hb]
  unfold splitPhase reserveCont
  unfold taskOf at ht
  simp [ht, show ¬ 256 ≤ storeUsed (coreAt s e.core) from by omega]
  rfl

end Sys2Proof.Laws
end

