-- ==== Sys2Proof/Laws/Decode.lean ====
section
/-! SUPPORT. The forms of instruction words are in one-to-one correspondence with their bits. -/

namespace Sys2Proof.Laws
open Sys2Proof

theorem hi_append {n m : Nat} (a : BitVec n) (b : BitVec m) : hiBits n m (a ++ b) = a := by
  unfold hiBits
  ext i hi
  simp [BitVec.getElem_extractLsb', BitVec.getLsbD_append, hi]
theorem lo_append {n m : Nat} (a : BitVec n) (b : BitVec m) : loBits n m (a ++ b) = b := by
  unfold loBits
  ext i hi
  simp [BitVec.getLsbD_append, hi]

theorem append_hi_lo {n m : Nat} (w : BitVec (n + m)) : hiBits n m w ++ loBits n m w = w := by
  unfold hiBits loBits
  ext i hi
  simp

theorem operand_of_to (o : Operand) : Operand.ofCode o.toCode = o := by
  cases o with
  | imm v => revert v; decide
  | _ i => revert i; decide

theorem operand_to_of (v : BitVec 8) : (Operand.ofCode v).toCode = v := by revert v; decide

theorem bool_of_for (b : Bool) : boolOf (bitFor b) = b := by cases b <;> rfl
theorem bit_for_of (b : BitVec 1) : bitFor (boolOf b) = b := by revert b; decide

theorem reg_of_bits (f : RegForm) : regOfBits (regBits f) = f := by
  simp only [regOfBits, regBits, hi_append, lo_append, operand_of_to]
theorem imm_of_bits (f : ImmForm) : immOfBits (immBits f) = f := by
  simp only [immOfBits, immBits, hi_append, lo_append, operand_of_to]
theorem br_of_bits (f : BrForm) : brOfBits (brBits f) = f := by
  simp only [brOfBits, brBits, hi_append, lo_append, operand_of_to]
theorem wait_of_bits (f : WaitForm) : waitOfBits (waitBits f) = f := by
  simp only [waitOfBits, waitBits, hi_append, lo_append]
theorem eng_of_bits (f : EngForm) : engOfBits (engBits f) = f := by
  simp only [engOfBits, engBits, hi_append, lo_append, operand_of_to, bool_of_for]
theorem grm_of_bits (f : GrmForm) : grmOfBits (grmBits f) = f := by
  simp only [grmOfBits, grmBits, hi_append, lo_append, operand_of_to, bool_of_for]
theorem skip_of_bits (f : SkipForm) : skipOfBits (skipBits f) = f := by
  simp only [skipOfBits, skipBits, hi_append, lo_append, operand_of_to]

theorem reg_to_bits (w : BitVec 56) : regBits (regOfBits w) = w := by
  simp only [regOfBits, regBits, operand_to_of, append_hi_lo]
theorem imm_to_bits (w : BitVec 56) : immBits (immOfBits w) = w := by
  simp only [immOfBits, immBits, operand_to_of, append_hi_lo]
theorem br_to_bits (w : BitVec 56) : brBits (brOfBits w) = w := by
  simp only [brOfBits, brBits, operand_to_of, append_hi_lo]
theorem wait_to_bits (w : BitVec 56) : waitBits (waitOfBits w) = w := by
  simp only [waitOfBits, waitBits, append_hi_lo]
theorem eng_to_bits (w : BitVec 56) : engBits (engOfBits w) = w := by
  simp only [engOfBits, engBits, operand_to_of, bit_for_of, append_hi_lo]
theorem grm_to_bits (w : BitVec 56) : grmBits (grmOfBits w) = w := by
  simp only [grmOfBits, grmBits, operand_to_of, bit_for_of, append_hi_lo]
theorem skip_to_bits (w : BitVec 56) : skipBits (skipOfBits w) = w := by
  simp only [skipOfBits, skipBits, operand_to_of, append_hi_lo]

end Sys2Proof.Laws
end

