-- ==== Sys2Proof/Laws/Exec.lean ====
section
/-! SUPPORT. What `exec` answers for each constructor, so that no proof takes its cases apart. -/

namespace Sys2Proof.Laws
open Sys2Proof Sys2Proof.Machine

@[simp] theorem exec_add (f : RegForm) (s : State) : exec (.add f) s = execAdd f s := rfl
@[simp] theorem exec_addi (f : ImmForm) (s : State) : exec (.addi f) s = execAddi f s := rfl
@[simp] theorem exec_sub (f : RegForm) (s : State) : exec (.sub f) s = execSub f s := rfl
@[simp] theorem exec_mul (f : RegForm) (s : State) : exec (.mul f) s = execMul f s := rfl
@[simp] theorem exec_mulh (f : RegForm) (s : State) : exec (.mulh f) s = execMulh f s := rfl
@[simp] theorem exec_muli (f : ImmForm) (s : State) : exec (.muli f) s = execMuli f s := rfl
@[simp] theorem exec_div (f : RegForm) (s : State) : exec (.div f) s = execDiv f s := rfl
@[simp] theorem exec_rem (f : RegForm) (s : State) : exec (.rem f) s = execRem f s := rfl
@[simp] theorem exec_and (f : RegForm) (s : State) : exec (.and f) s = execAnd f s := rfl
@[simp] theorem exec_andi (f : ImmForm) (s : State) : exec (.andi f) s = execAndi f s := rfl
@[simp] theorem exec_or (f : RegForm) (s : State) : exec (.or f) s = execOr f s := rfl
@[simp] theorem exec_ori (f : ImmForm) (s : State) : exec (.ori f) s = execOri f s := rfl
@[simp] theorem exec_xor (f : RegForm) (s : State) : exec (.xor f) s = execXor f s := rfl
@[simp] theorem exec_xori (f : ImmForm) (s : State) : exec (.xori f) s = execXori f s := rfl
@[simp] theorem exec_andn (f : RegForm) (s : State) : exec (.andn f) s = execAndn f s := rfl
@[simp] theorem exec_shl (f : RegForm) (s : State) : exec (.shl f) s = execShl f s := rfl
@[simp] theorem exec_shli (f : ImmForm) (s : State) : exec (.shli f) s = execShli f s := rfl
@[simp] theorem exec_shr (f : RegForm) (s : State) : exec (.shr f) s = execShr f s := rfl
@[simp] theorem exec_shri (f : ImmForm) (s : State) : exec (.shri f) s = execShri f s := rfl
@[simp] theorem exec_sar (f : RegForm) (s : State) : exec (.sar f) s = execSar f s := rfl
@[simp] theorem exec_sari (f : ImmForm) (s : State) : exec (.sari f) s = execSari f s := rfl
@[simp] theorem exec_min (f : RegForm) (s : State) : exec (.min f) s = execMin f s := rfl
@[simp] theorem exec_max (f : RegForm) (s : State) : exec (.max f) s = execMax f s := rfl
@[simp] theorem exec_clz (f : RegForm) (s : State) : exec (.clz f) s = execClz f s := rfl
@[simp] theorem exec_popc (f : RegForm) (s : State) : exec (.popc f) s = execPopc f s := rfl
@[simp] theorem exec_bfx (f : RegForm) (s : State) : exec (.bfx f) s = execBfx f s := rfl
@[simp] theorem exec_bfi (f : RegForm) (s : State) : exec (.bfi f) s = execBfi f s := rfl
@[simp] theorem exec_cmp (f : RegForm) (s : State) : exec (.cmp f) s = execCmp f s := rfl
@[simp] theorem exec_cmpi (f : ImmForm) (s : State) : exec (.cmpi f) s = execCmpi f s := rfl
@[simp] theorem exec_mov (f : RegForm) (s : State) : exec (.mov f) s = execMov f s := rfl
@[simp] theorem exec_movi (f : ImmForm) (s : State) : exec (.movi f) s = execMovi f s := rfl
@[simp] theorem exec_fadd (f : RegForm) (s : State) : exec (.fadd f) s = execFadd f s := rfl
@[simp] theorem exec_fsub (f : RegForm) (s : State) : exec (.fsub f) s = execFsub f s := rfl
@[simp] theorem exec_fmul (f : RegForm) (s : State) : exec (.fmul f) s = execFmul f s := rfl
@[simp] theorem exec_fma (f : RegForm) (s : State) : exec (.fma f) s = execFma f s := rfl
@[simp] theorem exec_fmin (f : RegForm) (s : State) : exec (.fmin f) s = execFmin f s := rfl
@[simp] theorem exec_fmax (f : RegForm) (s : State) : exec (.fmax f) s = execFmax f s := rfl
@[simp] theorem exec_fcmp (f : RegForm) (s : State) : exec (.fcmp f) s = execFcmp f s := rfl
@[simp] theorem exec_fsgn (f : RegForm) (s : State) : exec (.fsgn f) s = execFsgn f s := rfl
@[simp] theorem exec_frcp (f : RegForm) (s : State) : exec (.frcp f) s = execFrcp f s := rfl
@[simp] theorem exec_frsq (f : RegForm) (s : State) : exec (.frsq f) s = execFrsq f s := rfl
@[simp] theorem exec_fexp2 (f : RegForm) (s : State) : exec (.fexp2 f) s = execFexp2 f s := rfl
@[simp] theorem exec_flog2 (f : RegForm) (s : State) : exec (.flog2 f) s = execFlog2 f s := rfl
@[simp] theorem exec_frnd (f : RegForm) (s : State) : exec (.frnd f) s = execFrnd f s := rfl
@[simp] theorem exec_cvt (f : RegForm) (s : State) : exec (.cvt f) s = execCvt f s := rfl
@[simp] theorem exec_cvts (f : RegForm) (s : State) : exec (.cvts f) s = execCvts f s := rfl
@[simp] theorem exec_fcls (f : RegForm) (s : State) : exec (.fcls f) s = execFcls f s := rfl
@[simp] theorem exec_selt (f : RegForm) (s : State) : exec (.selt f) s = execSelt f s := rfl
@[simp] theorem exec_steer (f : RegForm) (s : State) : exec (.steer f) s = execSteer f s := rfl
@[simp] theorem exec_gate (f : RegForm) (s : State) : exec (.gate f) s = execGate f s := rfl
@[simp] theorem exec_merge (f : RegForm) (s : State) : exec (.merge f) s = execMerge f s := rfl
@[simp] theorem exec_emit (f : RegForm) (s : State) : exec (.emit f) s = execEmit f s := rfl
@[simp] theorem exec_mark (f : RegForm) (s : State) : exec (.mark f) s = execMark f s := rfl
@[simp] theorem exec_acc (f : RegForm) (s : State) : exec (.acc f) s = execAcc f s := rfl
@[simp] theorem exec_tagset (f : RegForm) (s : State) : exec (.tagset f) s = execTagset f s := rfl
@[simp] theorem exec_tagchk (f : RegForm) (s : State) : exec (.tagchk f) s = execTagchk f s := rfl
@[simp] theorem exec_pushp (f : RegForm) (s : State) : exec (.pushp f) s = execPushp f s := rfl
@[simp] theorem exec_popp (f : RegForm) (s : State) : exec (.popp f) s = execPopp f s := rfl
@[simp] theorem exec_bnd (f : RegForm) (s : State) : exec (.bnd f) s = execBnd f s := rfl
@[simp] theorem exec_sphdr (f : RegForm) (s : State) : exec (.sphdr f) s = execSphdr f s := rfl
@[simp] theorem exec_isect (f : RegForm) (s : State) : exec (.isect f) s = execIsect f s := rfl
@[simp] theorem exec_cturn (f : RegForm) (s : State) : exec (.cturn f) s = execCturn f s := rfl
@[simp] theorem exec_void (f : RegForm) (s : State) : exec (.void f) s = execVoid f s := rfl
@[simp] theorem exec_ld (f : RegForm) (s : State) : exec (.ld f) s = execLd f s := rfl
@[simp] theorem exec_ldi (f : ImmForm) (s : State) : exec (.ldi f) s = execLdi f s := rfl
@[simp] theorem exec_st (f : RegForm) (s : State) : exec (.st f) s = execSt f s := rfl
@[simp] theorem exec_sti (f : ImmForm) (s : State) : exec (.sti f) s = execSti f s := rfl
@[simp] theorem exec_ldv (f : RegForm) (s : State) : exec (.ldv f) s = execLdv f s := rfl
@[simp] theorem exec_stv (f : RegForm) (s : State) : exec (.stv f) s = execStv f s := rfl
@[simp] theorem exec_advv (f : RegForm) (s : State) : exec (.advv f) s = execAdvv f s := rfl
@[simp] theorem exec_reclv (f : RegForm) (s : State) : exec (.reclv f) s = execReclv f s := rfl
@[simp] theorem exec_atom (f : RegForm) (s : State) : exec (.atom f) s = execAtom f s := rfl
@[simp] theorem exec_cas (f : RegForm) (s : State) : exec (.cas f) s = execCas f s := rfl
@[simp] theorem exec_append (f : RegForm) (s : State) : exec (.append f) s = execAppend f s := rfl
@[simp] theorem exec_ticket (f : RegForm) (s : State) : exec (.ticket f) s = execTicket f s := rfl
@[simp] theorem exec_gath (f : RegForm) (s : State) : exec (.gath f) s = execGath f s := rfl
@[simp] theorem exec_scat (f : RegForm) (s : State) : exec (.scat f) s = execScat f s := rfl
@[simp] theorem exec_fence (f : RegForm) (s : State) : exec (.fence f) s = execFence f s := rfl
@[simp] theorem exec_shape (f : RegForm) (s : State) : exec (.shape f) s = execShape f s := rfl
@[simp] theorem exec_br (f : BrForm) (s : State) : exec (.br f) s = execBr f s := rfl
@[simp] theorem exec_brc (f : BrForm) (s : State) : exec (.brc f) s = execBrc f s := rfl
@[simp] theorem exec_call (f : BrForm) (s : State) : exec (.call f) s = execCall f s := rfl
@[simp] theorem exec_ret (f : RegForm) (s : State) : exec (.ret f) s = execRet f s := rfl
@[simp] theorem exec_jtab (f : RegForm) (s : State) : exec (.jtab f) s = execJtab f s := rfl
@[simp] theorem exec_tend (f : RegForm) (s : State) : exec (.tend f) s = execTend f s := rfl
@[simp] theorem exec_done (f : RegForm) (s : State) : exec (.done f) s = execDone f s := rfl
@[simp] theorem exec_tpost (f : RegForm) (s : State) : exec (.tpost f) s = execTpost f s := rfl
@[simp] theorem exec_msend (f : RegForm) (s : State) : exec (.msend f) s = execMsend f s := rfl
@[simp] theorem exec_wait (f : WaitForm) (s : State) : exec (.wait f) s = execWait f s := rfl
@[simp] theorem exec_bara (f : RegForm) (s : State) : exec (.bara f) s = execBara f s := rfl
@[simp] theorem exec_barw (f : RegForm) (s : State) : exec (.barw f) s = execBarw f s := rfl
@[simp] theorem exec_gbar (f : RegForm) (s : State) : exec (.gbar f) s = execGbar f s := rfl
@[simp] theorem exec_mfs (f : ImmForm) (s : State) : exec (.mfs f) s = execMfs f s := rfl
@[simp] theorem exec_mts (f : ImmForm) (s : State) : exec (.mts f) s = execMts f s := rfl
@[simp] theorem exec_range (f : RegForm) (s : State) : exec (.range f) s = execRange f s := rfl
@[simp] theorem exec_trap (f : ImmForm) (s : State) : exec (.trap f) s = execTrap f s := rfl
@[simp] theorem exec_nop (f : RegForm) (s : State) : exec (.nop f) s = execNop f s := rfl
@[simp] theorem exec_seqwt (f : RegForm) (s : State) : exec (.seqwt f) s = execSeqwt f s := rfl
@[simp] theorem exec_cntrd (f : RegForm) (s : State) : exec (.cntrd f) s = execCntrd f s := rfl
@[simp] theorem exec_sspec (f : EngForm) (s : State) : exec (.sspec f) s = execSspec f s := rfl
@[simp] theorem exec_sarm (f : EngForm) (s : State) : exec (.sarm f) s = execSarm f s := rfl
@[simp] theorem exec_copy (f : EngForm) (s : State) : exec (.copy f) s = execCopy f s := rfl
@[simp] theorem exec_copyc (f : EngForm) (s : State) : exec (.copyc f) s = execCopyc f s := rfl
@[simp] theorem exec_tld (f : EngForm) (s : State) : exec (.tld f) s = execTld f s := rfl
@[simp] theorem exec_tst (f : EngForm) (s : State) : exec (.tst f) s = execTst f s := rfl
@[simp] theorem exec_tclr (f : EngForm) (s : State) : exec (.tclr f) s = execTclr f s := rfl
@[simp] theorem exec_mldb (f : EngForm) (s : State) : exec (.mldb f) s = execMldb f s := rfl
@[simp] theorem exec_spld (f : EngForm) (s : State) : exec (.spld f) s = execSpld f s := rfl
@[simp] theorem exec_mma (f : EngForm) (s : State) : exec (.mma f) s = execMma f s := rfl
@[simp] theorem exec_mnorm (f : EngForm) (s : State) : exec (.mnorm f) s = execMnorm f s := rfl
@[simp] theorem exec_gload (f : EngForm) (s : State) : exec (.gload f) s = execGload f s := rfl
@[simp] theorem exec_gbind (f : EngForm) (s : State) : exec (.gbind f) s = execGbind f s := rfl
@[simp] theorem exec_gfree (f : EngForm) (s : State) : exec (.gfree f) s = execGfree f s := rfl
@[simp] theorem exec_gqry (f : EngForm) (s : State) : exec (.gqry f) s = execGqry f s := rfl
@[simp] theorem exec_skbld (f : EngForm) (s : State) : exec (.skbld f) s = execSkbld f s := rfl
@[simp] theorem exec_skxch (f : EngForm) (s : State) : exec (.skxch f) s = execSkxch f s := rfl
@[simp] theorem exec_sksub (f : EngForm) (s : State) : exec (.sksub f) s = execSksub f s := rfl
@[simp] theorem exec_skpeel (f : EngForm) (s : State) : exec (.skpeel f) s = execSkpeel f s := rfl
@[simp] theorem exec_skrecon (f : EngForm) (s : State) : exec (.skrecon f) s = execSkrecon f s := rfl
@[simp] theorem exec_skfix (f : EngForm) (s : State) : exec (.skfix f) s = execSkfix f s := rfl
@[simp] theorem exec_gstart (f : GrmForm) (s : State) : exec (.gstart f) s = execGstart f s := rfl
@[simp] theorem exec_gstop (f : GrmForm) (s : State) : exec (.gstop f) s = execGstop f s := rfl
@[simp] theorem exec_gskip (f : SkipForm) (s : State) : exec (.gskip f) s = execGskip f s := rfl
@[simp] theorem exec_gmask (f : GrmForm) (s : State) : exec (.gmask f) s = execGmask f s := rfl
@[simp] theorem exec_gfeed (f : GrmForm) (s : State) : exec (.gfeed f) s = execGfeed f s := rfl
@[simp] theorem exec_gstat (f : GrmForm) (s : State) : exec (.gstat f) s = execGstat f s := rfl
@[simp] theorem exec_ctxsv (f : RegForm) (s : State) : exec (.ctxsv f) s = execCtxsv f s := rfl
@[simp] theorem exec_ctxld (f : RegForm) (s : State) : exec (.ctxld f) s = execCtxld f s := rfl
@[simp] theorem exec_freeze (f : RegForm) (s : State) : exec (.freeze f) s = execFreeze f s := rfl
@[simp] theorem exec_rmark (f : RegForm) (s : State) : exec (.rmark f) s = execRmark f s := rfl
@[simp] theorem exec_tlbi (f : RegForm) (s : State) : exec (.tlbi f) s = execTlbi f s := rfl
@[simp] theorem exec_cfgld (f : RegForm) (s : State) : exec (.cfgld f) s = execCfgld f s := rfl
@[simp] theorem exec_jrnl (f : RegForm) (s : State) : exec (.jrnl f) s = execJrnl f s := rfl
@[simp] theorem exec_sema (f : RegForm) (s : State) : exec (.sema f) s = execSema f s := rfl
@[simp] theorem exec_sret (f : RegForm) (s : State) : exec (.sret f) s = execSret f s := rfl
@[simp] theorem exec_haltc (f : RegForm) (s : State) : exec (.haltc f) s = execHaltc f s := rfl
@[simp] theorem exec_attest (f : RegForm) (s : State) : exec (.attest f) s = execAttest f s := rfl
@[simp] theorem exec_pgver (f : RegForm) (s : State) : exec (.pgver f) s = execPgver f s := rfl
@[simp] theorem exec_partset (f : RegForm) (s : State) : exec (.partset f) s = execPartset f s := rfl
@[simp] theorem exec_chtabWrite (c : CoreId) (n : Fin 64) (v : DWord) (s : State) : exec (.chtabWrite c n v) s = execChtabWrite c n v s := rfl
@[simp] theorem exec_chtabUpdate (c : CoreId) (n : Fin 64) (s : State) : exec (.chtabUpdate c n) s = execChtabUpdate c n s := rfl
@[simp] theorem exec_flagsClear (c : CoreId) (v : DWord) (s : State) : exec (.flagsClear c v) s = execFlagsClear c v s := rfl
@[simp] theorem exec_amaxWrite (c : CoreId) (v : DWord) (s : State) : exec (.amaxWrite c v) s = execAmaxWrite c v s := rfl
@[simp] theorem exec_cntWrite (c : CoreId) (v : DWord) (s : State) : exec (.cntWrite c v) s = execCntWrite c v s := rfl
@[simp] theorem exec_sksizeWrite (c : CoreId) (r : Fin 3) (v : DWord) (s : State) : exec (.sksizeWrite c r v) s = execSksizeWrite c r v s := rfl
@[simp] theorem exec_idxdropRead (c : CoreId) (b : BankId) (d : Fin 32) (s : State) : exec (.idxdropRead c b d) s = execIdxdropRead c b d s := rfl
@[simp] theorem exec_pstatRead (c : CoreId) (p : ParserId) (b : BankId) (d : Fin 32) (s : State) : exec (.pstatRead c p b d) s = execPstatRead c p b d s := rfl
@[simp] theorem exec_skstatRead (c : CoreId) (b : BankId) (d : Fin 32) (s : State) : exec (.skstatRead c b d) s = execSkstatRead c b d s := rfl
@[simp] theorem exec_registerWrite (c : CoreId) (r : BitVec 12) (v : DWord) (s : State) : exec (.registerWrite c r v) s = execRegisterWrite c r v s := rfl
@[simp] theorem exec_memPropagate (acc : Nat) (s : State) : exec (.memPropagate acc) s = execMemPropagate acc s := rfl
@[simp] theorem exec_memPerform (acc : Nat) (s : State) : exec (.memPerform acc) s = execMemPerform acc s := rfl
@[simp] theorem exec_bankWaitWake (b : Bank) (s : State) : exec (.bankWaitWake b) s = execBankWaitWake b s := rfl
@[simp] theorem exec_waitStoreResend (b : Bank) (s : State) : exec (.waitStoreResend b) s = execWaitStoreResend b s := rfl
@[simp] theorem exec_stvDeadlock (b : Bank) (s : State) : exec (.stvDeadlock b) s = execStvDeadlock b s := rfl
@[simp] theorem exec_mtAccept (c : CoreId) (m : MtId) (bank : Fin 4) (s : State) : exec (.mtAccept c m bank) s = execMtAccept c m bank s := rfl
@[simp] theorem exec_mtResponse (c : CoreId) (m : MtId) (port : Fin 5) (s : State) : exec (.mtResponse c m port) s = execMtResponse c m port s := rfl
@[simp] theorem exec_pageWalk (die : DieId) (s : State) : exec (.pageWalk die) s = execPageWalk die s := rfl
@[simp] theorem exec_peFire (c : CoreId) (pe : PeId) (s : State) : exec (.peFire c pe) s = execPeFire c pe s := rfl
@[simp] theorem exec_routerHop (c : CoreId) (r : RouterId) (port : Fin 5) (vc : Fin 4) (s : State) : exec (.routerHop c r port vc) s = execRouterHop c r port vc s := rfl
@[simp] theorem exec_controlHop (c : CoreId) (r : RouterId) (port : Fin 5) (sub : Fin 4) (s : State) : exec (.controlHop c r port sub) s = execControlHop c r port sub s := rfl
@[simp] theorem exec_ctrlPost (c : CoreId) (k : AgId) (s : State) : exec (.ctrlPost c k) s = execCtrlPost c k s := rfl
@[simp] theorem exec_ringStep (c : CoreId) (n : Nat) (s : State) : exec (.ringStep c n) s = execRingStep c n s := rfl
@[simp] theorem exec_queueEnlarge (c : CoreId) (s : State) : exec (.queueEnlarge c) s = execQueueEnlarge c s := rfl
@[simp] theorem exec_agEmit (c : CoreId) (k : AgId) (s : State) : exec (.agEmit c k) s = execAgEmit c k s := rfl
@[simp] theorem exec_agWalkEnd (c : CoreId) (k : AgId) (s : State) : exec (.agWalkEnd c k) s = execAgWalkEnd c k s := rfl
@[simp] theorem exec_tapItem (c : CoreId) (p : ParserId) (s : State) : exec (.tapItem c p) s = execTapItem c p s := rfl
@[simp] theorem exec_parseStep (c : CoreId) (p : ParserId) (s : State) : exec (.parseStep c p) s = execParseStep c p s := rfl
@[simp] theorem exec_recoveryDiscard (c : CoreId) (p : ParserId) (s : State) : exec (.recoveryDiscard c p) s = execRecoveryDiscard c p s := rfl
@[simp] theorem exec_actionFire (c : CoreId) (p : ParserId) (s : State) : exec (.actionFire c p) s = execActionFire c p s := rfl
@[simp] theorem exec_gateRelease (c : CoreId) (p : ParserId) (s : State) : exec (.gateRelease c p) s = execGateRelease c p s := rfl
@[simp] theorem exec_messageAccept (src : CoreId) (s : State) : exec (.messageAccept src) s = execMessageAccept src s := rfl
@[simp] theorem exec_taskStart (c : CoreId) (s : State) : exec (.taskStart c) s = execTaskStart c s := rfl
@[simp] theorem exec_continuationPost (c : CoreId) (n : Nat) (s : State) : exec (.continuationPost c n) s = execContinuationPost c n s := rfl
@[simp] theorem exec_barrierRelease (c : CoreId) (b : Fin 1024) (s : State) : exec (.barrierRelease c b) s = execBarrierRelease c b s := rfl
@[simp] theorem exec_engineCommandAccept (c : CoreId) (n : Nat) (s : State) : exec (.engineCommandAccept c n) s = execEngineCommandAccept c n s := rfl
@[simp] theorem exec_engineCommandStart (c : CoreId) (id : Nat) (s : State) : exec (.engineCommandStart c id) s = execEngineCommandStart c id s := rfl
@[simp] theorem exec_engineCommandComplete (c : CoreId) (id : Nat) (s : State) : exec (.engineCommandComplete c id) s = execEngineCommandComplete c id s := rfl
@[simp] theorem exec_followOnMmaIssue (c : CoreId) (id : Nat) (s : State) : exec (.followOnMmaIssue c id) s = execFollowOnMmaIssue c id s := rfl
@[simp] theorem exec_vectorAccept (c : CoreId) (h : Fin 4) (s : State) : exec (.vectorAccept c h) s = execVectorAccept c h s := rfl
@[simp] theorem exec_vectorResult (c : CoreId) (h : Fin 4) (s : State) : exec (.vectorResult c h) s = execVectorResult c h s := rfl
@[simp] theorem exec_rangeServe (die : DieId) (q : Fin 64) (s : State) : exec (.rangeServe die q) s = execRangeServe die q s := rfl
@[simp] theorem exec_stageAppend (launch : Nat) (c : CoreId) (s : State) : exec (.stageAppend launch c) s = execStageAppend launch c s := rfl
@[simp] theorem exec_sessionPair (die : DieId) (slot : Fin 16) (peer : Option PeerSide) (s : State) : exec (.sessionPair die slot peer) s = execSessionPair die slot peer s := rfl
@[simp] theorem exec_sketchRound (die : DieId) (peer : Option PeerSide) (s : State) : exec (.sketchRound die peer) s = execSketchRound die peer s := rfl
@[simp] theorem exec_sessionFallback (die : DieId) (peer : Option PeerSide) (s : State) : exec (.sessionFallback die peer) s = execSessionFallback die peer s := rfl
@[simp] theorem exec_sessionAbort (die : DieId) (s : State) : exec (.sessionAbort die) s = execSessionAbort die s := rfl
@[simp] theorem exec_recordCandidate (ctx : Nat) (q : Fin 16) (s : State) : exec (.recordCandidate ctx q) s = execRecordCandidate ctx q s := rfl
@[simp] theorem exec_dependenceResolve (ctx : Nat) (q : Fin 16) (s : State) : exec (.dependenceResolve ctx q) s = execDependenceResolve ctx q s := rfl
@[simp] theorem exec_admitLaunch (part : Fin 16) (s : State) : exec (.admitLaunch part) s = execAdmitLaunch part s := rfl
@[simp] theorem exec_launchLoad (launch : Nat) (s : State) : exec (.launchLoad launch) s = execLaunchLoad launch s := rfl
@[simp] theorem exec_teamEnd (launch : Nat) (c : CoreId) (s : State) : exec (.teamEnd launch c) s = execTeamEnd launch c s := rfl
@[simp] theorem exec_statusWrite (launch : Nat) (s : State) : exec (.statusWrite launch) s = execStatusWrite launch s := rfl
@[simp] theorem exec_statusHeldWrite (ctx : Nat) (q : Fin 16) (s : State) : exec (.statusHeldWrite ctx q) s = execStatusHeldWrite ctx q s := rfl
@[simp] theorem exec_launchTeardown (launch : Nat) (s : State) : exec (.launchTeardown launch) s = execLaunchTeardown launch s := rfl
@[simp] theorem exec_coreReturn (c : CoreId) (s : State) : exec (.coreReturn c) s = execCoreReturn c s := rfl
@[simp] theorem exec_watchdog (launch : Nat) (s : State) : exec (.watchdog launch) s = execWatchdog launch s := rfl
@[simp] theorem exec_elementDrainFreeze (c : CoreId) (e : Elem) (s : State) : exec (.elementDrainFreeze c e) s = execElementDrainFreeze c e s := rfl
@[simp] theorem exec_drainComplete (launch : Nat) (s : State) : exec (.drainComplete launch) s = execDrainComplete launch s := rfl
@[simp] theorem exec_drainTimeout (launch : Nat) (s : State) : exec (.drainTimeout launch) s = execDrainTimeout launch s := rfl
@[simp] theorem exec_freezeComplete (launch : Nat) (s : State) : exec (.freezeComplete launch) s = execFreezeComplete launch s := rfl
@[simp] theorem exec_restoreResume (ctx : Nat) (s : State) : exec (.restoreResume ctx) s = execRestoreResume ctx s := rfl
@[simp] theorem exec_pageCheckComplete (ctx : Nat) (s : State) : exec (.pageCheckComplete ctx) s = execPageCheckComplete ctx s := rfl
@[simp] theorem exec_rmaWrite (job : BitVec 12) (va : DWord) (data : List Byte) (s : State) : exec (.rmaWrite job va data) s = execRmaWrite job va data s := rfl
@[simp] theorem exec_rmaRead (job : BitVec 12) (va : DWord) (n : Nat) (s : State) : exec (.rmaRead job va n) s = execRmaRead job va n s := rfl
@[simp] theorem exec_unsupportedPacket (s : State) : exec (.unsupportedPacket) s = execUnsupportedPacket s := rfl
@[simp] theorem exec_remoteAck (c : CoreId) (id : Nat) (r : RemoteReply) (s : State) : exec (.remoteAck c id r) s = execRemoteAck c id r s := rfl
@[simp] theorem exec_commandAccept (port : Port) (header : DWord) (d0 d1 d2 d3 d4 : DWord) (s : State) : exec (.commandAccept port header d0 d1 d2 d3 d4) s = execCommandAccept port header d0 d1 d2 d3 d4 s := rfl
@[simp] theorem exec_cmdNop (k : Cmd) (s : State) : exec (.cmdNop k) s = execCmdNop k s := rfl
@[simp] theorem exec_cmdSema (k : Cmd) (s : State) : exec (.cmdSema k) s = execCmdSema k s := rfl
@[simp] theorem exec_cmdDevid (k : Cmd) (s : State) : exec (.cmdDevid k) s = execCmdDevid k s := rfl
@[simp] theorem exec_cmdAttest (k : Cmd) (s : State) : exec (.cmdAttest k) s = execCmdAttest k s := rfl
@[simp] theorem exec_cmdJread (k : Cmd) (s : State) : exec (.cmdJread k) s = execCmdJread k s := rfl
@[simp] theorem exec_cmdDevstat (k : Cmd) (s : State) : exec (.cmdDevstat k) s = execCmdDevstat k s := rfl
@[simp] theorem exec_cmdCtxnew (k : Cmd) (s : State) : exec (.cmdCtxnew k) s = execCmdCtxnew k s := rfl
@[simp] theorem exec_cmdCtxset (k : Cmd) (s : State) : exec (.cmdCtxset k) s = execCmdCtxset k s := rfl
@[simp] theorem exec_cmdCtxdel (k : Cmd) (s : State) : exec (.cmdCtxdel k) s = execCmdCtxdel k s := rfl
@[simp] theorem exec_cmdMap (k : Cmd) (s : State) : exec (.cmdMap k) s = execCmdMap k s := rfl
@[simp] theorem exec_cmdPtset (k : Cmd) (s : State) : exec (.cmdPtset k) s = execCmdPtset k s := rfl
@[simp] theorem exec_cmdQnew (k : Cmd) (s : State) : exec (.cmdQnew k) s = execCmdQnew k s := rfl
@[simp] theorem exec_cmdQset (k : Cmd) (s : State) : exec (.cmdQset k) s = execCmdQset k s := rfl
@[simp] theorem exec_cmdEnq (k : Cmd) (s : State) : exec (.cmdEnq k) s = execCmdEnq k s := rfl
@[simp] theorem exec_cmdCancel (k : Cmd) (s : State) : exec (.cmdCancel k) s = execCmdCancel k s := rfl
@[simp] theorem exec_cmdClsreg (k : Cmd) (s : State) : exec (.cmdClsreg k) s = execCmdClsreg k s := rfl
@[simp] theorem exec_cmdClsfree (k : Cmd) (s : State) : exec (.cmdClsfree k) s = execCmdClsfree k s := rfl
@[simp] theorem exec_cmdTlbi (k : Cmd) (s : State) : exec (.cmdTlbi k) s = execCmdTlbi k s := rfl
@[simp] theorem exec_cmdFreeze (k : Cmd) (s : State) : exec (.cmdFreeze k) s = execCmdFreeze k s := rfl
@[simp] theorem exec_cmdDrain (k : Cmd) (s : State) : exec (.cmdDrain k) s = execCmdDrain k s := rfl
@[simp] theorem exec_cmdRestore (k : Cmd) (s : State) : exec (.cmdRestore k) s = execCmdRestore k s := rfl
@[simp] theorem exec_cmdCfg (k : Cmd) (s : State) : exec (.cmdCfg k) s = execCmdCfg k s := rfl
@[simp] theorem exec_cmdPart (k : Cmd) (s : State) : exec (.cmdPart k) s = execCmdPart k s := rfl
@[simp] theorem exec_cmdSlots (k : Cmd) (s : State) : exec (.cmdSlots k) s = execCmdSlots k s := rfl
@[simp] theorem exec_cmdHaltc (k : Cmd) (s : State) : exec (.cmdHaltc k) s = execCmdHaltc k s := rfl
@[simp] theorem exec_cmdKeyset (k : Cmd) (s : State) : exec (.cmdKeyset k) s = execCmdKeyset k s := rfl
@[simp] theorem exec_cmdFwupd (k : Cmd) (s : State) : exec (.cmdFwupd k) s = execCmdFwupd k s := rfl
@[simp] theorem exec_cmdJobset (k : Cmd) (s : State) : exec (.cmdJobset k) s = execCmdJobset k s := rfl
@[simp] theorem exec_cmdPeerset (k : Cmd) (s : State) : exec (.cmdPeerset k) s = execCmdPeerset k s := rfl
@[simp] theorem exec_cmdSysrt (k : Cmd) (s : State) : exec (.cmdSysrt k) s = execCmdSysrt k s := rfl
@[simp] theorem exec_cpsemLeaseExpiry (s : State) : exec (.cpsemLeaseExpiry) s = execCpsemLeaseExpiry s := rfl
@[simp] theorem exec_linkRetryExhausted (acc : Nat) (s : State) : exec (.linkRetryExhausted acc) s = execLinkRetryExhausted acc s := rfl
@[simp] theorem exec_scrub (place : ScrubAt) (found : ScrubFind) (s : State) : exec (.scrub place found) s = execScrub place found s := rfl
@[simp] theorem exec_thermalStepDown (die : DieId) (temp : BitVec 8) (s : State) : exec (.thermalStepDown die temp) s = execThermalStepDown die temp s := rfl
@[simp] theorem exec_thermalStepUp (die : DieId) (temp : BitVec 8) (s : State) : exec (.thermalStepUp die temp) s = execThermalStepUp die temp s := rfl
@[simp] theorem exec_thermalTrip (die : DieId) (temp : BitVec 8) (s : State) : exec (.thermalTrip die temp) s = execThermalTrip die temp s := rfl
@[simp] theorem exec_powerOnReset (s : State) : exec (.powerOnReset) s = execPowerOnReset s := rfl
@[simp] theorem exec_bringUpStep (ok : Bool) (s : State) : exec (.bringUpStep ok) s = execBringUpStep ok s := rfl
@[simp] theorem exec_coreResetDone (c : CoreId) (s : State) : exec (.coreResetDone c) s = execCoreResetDone c s := rfl

end Sys2Proof.Laws
end

