-- ==== Sys2Proof/Laws/Faults.lean ====
section
/-! SUPPORT. Raising a fault: which launches and what else of the state it touches. -/

namespace Sys2Proof.Laws
open Sys2Proof Sys2Proof.Machine

/-- A launch whose phase lets it step does so in any cycle. -/
theorem maySteps_of_phase (s : State) {l : Launch} (h : mayStep l.phase = true) : maySteps s l = true := by simp [maySteps, h]

/-- A fault in a cycle after its launch has ended lets no element step. -/
theorem maySteps_ended {s : State} {l : Launch} (h : mayStep l.phase = false) (he : l.endedAt ≠ s.now) : maySteps s l = false := by
  simp [maySteps, endsNow, h, he]

/-- A launch by its number in a list changed launch by launch. -/
theorem find_launch (ls : List Launch) (id : Nat) (f : Launch → Launch) (hf : ∀ l, (f l).id = l.id) (i : Nat):
    (ls.map fun l => if l.id = id then f l else l).find? (·.id == i) = (ls.find? (·.id == i)).map fun l => if l.id = id then f l else l := by
  induction ls with
  | nil => rfl
  | cons a as ih =>
    simp only [List.map_cons, List.find?_cons]
    have : (if a.id = id then f a else a).id = a.id := by split <;> simp [hf]
    rw [this]
    split <;> simp_all

theorem takeFault_id (f : FaultRec) (n : Nat) (l : Launch) : (takeFault f n l).id = l.id := by
  unfold takeFault; repeat' split
  all_goals rfl

/-- The elements that have raised, whichever of two came first. -/
theorem addRaiser_comm {x y : CoreId × Nat × Nat} (h : beforeElem x y = true) (hn : beforeElem y x = false)
    (tr : ∀ z, beforeElem y z = true → beforeElem x z = true) (rs : List (CoreId × Nat × Nat)) :
    addRaiser x (addRaiser y rs) = addRaiser y (addRaiser x rs) := by
  induction rs with
  | nil => simp [addRaiser, h, hn]
  | cons z zs ih =>
    cases hy : beforeElem y z with
    | true => simp [addRaiser, hy, tr z hy, h, hn]
    | false => cases hx : beforeElem x z <;> simp [addRaiser, hy, hx, hn, ih]

/-- The launches after a fault. -/
theorem launchBy_raise (code : FaultCode) (w : Who) (addr extra : DWord) (s : State) (i : Nat) :
    launchBy (raise code w addr extra s) i = (launchBy s i).map fun l =>
      if l.id = w.launch then takeFault ⟨code, w, addr, extra, 0, s.now⟩ s.now l else l :=
  find_launch _ _ _ (takeFault_id _ _) i

/-- A launch found by a number has that number. -/
theorem launchBy_id {s : State} {i : Nat} {l : Launch} (h : launchBy s i = some l) : l.id = i := by
  simpa using List.find?_some h

@[simp] theorem raise_mem (code : FaultCode) (w : Who) (a x : DWord) (s : State) : (raise code w a x s).mem = s.mem := rfl
@[simp] theorem raise_cores (code : FaultCode) (w : Who) (a x : DWord) (s : State) :
    (raise code w a x s).cores = s.cores := rfl
@[simp] theorem raise_dies (code : FaultCode) (w : Who) (a x : DWord) (s : State) :
    (raise code w a x s).dies = s.dies := rfl
@[simp] theorem raise_ctxs (code : FaultCode) (w : Who) (a x : DWord) (s : State) :
    (raise code w a x s).ctxs = s.ctxs := rfl
@[simp] theorem raise_accs (code : FaultCode) (w : Who) (a x : DWord) (s : State) :
    (raise code w a x s).accs = s.accs := rfl

/-- The journal leaves memory alone. -/
@[simp] theorem journal_mem (s : State) (code : Nat) (st : FzState) (srck ctx q : Nat) (rid : Word) (result : DWord)
    (payload : List DWord) : (journal s code st srck ctx q rid result payload).mem = s.mem := rfl

@[simp] theorem deviceEvent_mem (s : State) (event : Nat) (addr : DWord) (ctx : Nat) (q seq : DWord) :
    (deviceEvent s event addr ctx q seq).mem = s.mem := journal_mem ..

/-- A fault found by a read leaves memory alone. -/
@[simp] theorem raiseRead_mem (code : FaultCode) (w : Who) (a x : DWord) (ctx : Nat) (s : State) :
    (raiseRead code w a x ctx s).mem = s.mem := by
  unfold raiseRead
  dsimp only
  split
  · exact (deviceEvent_mem ..).trans (raise_mem ..)
  · exact raise_mem ..

end Sys2Proof.Laws
end

