-- ==== Sys2Proof/Laws/State.lean ====
section
/-! SUPPORT. What each update of the state leaves in each field, and what is read back after it. -/

namespace Sys2Proof.Laws
open Sys2Proof Sys2Proof.Machine

/-! ## Updates of the package's state -/

@[simp] theorem modCore_agenda (s : State) (c : CoreId) (f : Core → Core) : (modCore s c f).agenda = s.agenda := rfl
@[simp] theorem modCore_focus (s : State) (c : CoreId) (f : Core → Core) : (modCore s c f).focus = s.focus := rfl
@[simp] theorem modCore_ticks (s : State) (c : CoreId) (f : Core → Core) : (modCore s c f).ticks = s.ticks := rfl
@[simp] theorem modCore_nextId (s : State) (c : CoreId) (f : Core → Core) : (modCore s c f).nextId = s.nextId := rfl
@[simp] theorem modCore_now (s : State) (c : CoreId) (f : Core → Core) : (modCore s c f).now = s.now := rfl
@[simp] theorem modCore_bootStep (s : State) (c : CoreId) (f : Core → Core) : (modCore s c f).bootStep = s.bootStep := rfl
@[simp] theorem modCore_powered (s : State) (c : CoreId) (f : Core → Core) : (modCore s c f).powered = s.powered := rfl
@[simp] theorem modCore_lastTrip (s : State) (c : CoreId) (f : Core → Core) : (modCore s c f).lastTrip = s.lastTrip := rfl
@[simp] theorem modCore_bootCount (s : State) (c : CoreId) (f : Core → Core) : (modCore s c f).bootCount = s.bootCount := rfl
@[simp] theorem modCore_fwBanks (s : State) (c : CoreId) (f : Core → Core) : (modCore s c f).fwBanks = s.fwBanks := rfl
@[simp] theorem modCore_fwFirst (s : State) (c : CoreId) (f : Core → Core) : (modCore s c f).fwFirst = s.fwFirst := rfl
@[simp] theorem modCore_portsUp (s : State) (c : CoreId) (f : Core → Core) : (modCore s c f).portsUp = s.portsUp := rfl
@[simp] theorem modCore_fwDigest (s : State) (c : CoreId) (f : Core → Core) : (modCore s c f).fwDigest = s.fwDigest := rfl
@[simp] theorem modCore_keySlots (s : State) (c : CoreId) (f : Core → Core) : (modCore s c f).keySlots = s.keySlots := rfl
@[simp] theorem modCore_wdp (s : State) (c : CoreId) (f : Core → Core) : (modCore s c f).wdp = s.wdp := rfl
@[simp] theorem modCore_scrub (s : State) (c : CoreId) (f : Core → Core) : (modCore s c f).scrub = s.scrub := rfl
@[simp] theorem modCore_cpsem (s : State) (c : CoreId) (f : Core → Core) : (modCore s c f).cpsem = s.cpsem := rfl
@[simp] theorem modCore_cpsemAt (s : State) (c : CoreId) (f : Core → Core) : (modCore s c f).cpsemAt = s.cpsemAt := rfl
@[simp] theorem modCore_tookAt (s : State) (c : CoreId) (f : Core → Core) : (modCore s c f).tookAt = s.tookAt := rfl
@[simp] theorem modCore_lastReach (s : State) (c : CoreId) (f : Core → Core) : (modCore s c f).lastReach = s.lastReach := rfl
@[simp] theorem modCore_cmds (s : State) (c : CoreId) (f : Core → Core) : (modCore s c f).cmds = s.cmds := rfl
@[simp] theorem modCore_frieze (s : State) (c : CoreId) (f : Core → Core) : (modCore s c f).frieze = s.frieze := rfl
@[simp] theorem modCore_fzseq (s : State) (c : CoreId) (f : Core → Core) : (modCore s c f).fzseq = s.fzseq := rfl
@[simp] theorem modCore_repeats (s : State) (c : CoreId) (f : Core → Core) : (modCore s c f).repeats = s.repeats := rfl
@[simp] theorem modCore_jobs (s : State) (c : CoreId) (f : Core → Core) : (modCore s c f).jobs = s.jobs := rfl
@[simp] theorem modCore_peers (s : State) (c : CoreId) (f : Core → Core) : (modCore s c f).peers = s.peers := rfl
@[simp] theorem modCore_ownPkg (s : State) (c : CoreId) (f : Core → Core) : (modCore s c f).ownPkg = s.ownPkg := rfl
@[simp] theorem modCore_pages (s : State) (c : CoreId) (f : Core → Core) : (modCore s c f).pages = s.pages := rfl
@[simp] theorem modCore_replies (s : State) (c : CoreId) (f : Core → Core) : (modCore s c f).replies = s.replies := rfl
@[simp] theorem modCore_sysWork (s : State) (c : CoreId) (f : Core → Core) : (modCore s c f).sysWork = s.sysWork := rfl
@[simp] theorem modCore_svcCtx (s : State) (c : CoreId) (f : Core → Core) : (modCore s c f).svcCtx = s.svcCtx := rfl
@[simp] theorem modCore_bad (s : State) (c : CoreId) (f : Core → Core) : (modCore s c f).bad = s.bad := rfl
@[simp] theorem modCore_walked (s : State) (c : CoreId) (f : Core → Core) : (modCore s c f).walked = s.walked := rfl
@[simp] theorem modCore_streams (s : State) (c : CoreId) (f : Core → Core) : (modCore s c f).streams = s.streams := rfl
@[simp] theorem modCore_dies (s : State) (c : CoreId) (f : Core → Core) : (modCore s c f).dies = s.dies := rfl
@[simp] theorem modCore_ctxs (s : State) (c : CoreId) (f : Core → Core) : (modCore s c f).ctxs = s.ctxs := rfl
@[simp] theorem modCore_launches (s : State) (c : CoreId) (f : Core → Core) : (modCore s c f).launches = s.launches := rfl
@[simp] theorem modCore_mem (s : State) (c : CoreId) (f : Core → Core) : (modCore s c f).mem = s.mem := rfl
@[simp] theorem modCore_accs (s : State) (c : CoreId) (f : Core → Core) : (modCore s c f).accs = s.accs := rfl
@[simp] theorem modCore_engs (s : State) (c : CoreId) (f : Core → Core) : (modCore s c f).engs = s.engs := rfl

@[simp] theorem modDie_agenda (s : State) (d : DieId) (f : Die → Die) : (modDie s d f).agenda = s.agenda := rfl
@[simp] theorem modDie_focus (s : State) (d : DieId) (f : Die → Die) : (modDie s d f).focus = s.focus := rfl
@[simp] theorem modDie_ticks (s : State) (d : DieId) (f : Die → Die) : (modDie s d f).ticks = s.ticks := rfl
@[simp] theorem modDie_nextId (s : State) (d : DieId) (f : Die → Die) : (modDie s d f).nextId = s.nextId := rfl
@[simp] theorem modDie_now (s : State) (d : DieId) (f : Die → Die) : (modDie s d f).now = s.now := rfl
@[simp] theorem modDie_bootStep (s : State) (d : DieId) (f : Die → Die) : (modDie s d f).bootStep = s.bootStep := rfl
@[simp] theorem modDie_powered (s : State) (d : DieId) (f : Die → Die) : (modDie s d f).powered = s.powered := rfl
@[simp] theorem modDie_lastTrip (s : State) (d : DieId) (f : Die → Die) : (modDie s d f).lastTrip = s.lastTrip := rfl
@[simp] theorem modDie_bootCount (s : State) (d : DieId) (f : Die → Die) : (modDie s d f).bootCount = s.bootCount := rfl
@[simp] theorem modDie_fwBanks (s : State) (d : DieId) (f : Die → Die) : (modDie s d f).fwBanks = s.fwBanks := rfl
@[simp] theorem modDie_fwFirst (s : State) (d : DieId) (f : Die → Die) : (modDie s d f).fwFirst = s.fwFirst := rfl
@[simp] theorem modDie_portsUp (s : State) (d : DieId) (f : Die → Die) : (modDie s d f).portsUp = s.portsUp := rfl
@[simp] theorem modDie_fwDigest (s : State) (d : DieId) (f : Die → Die) : (modDie s d f).fwDigest = s.fwDigest := rfl
@[simp] theorem modDie_keySlots (s : State) (d : DieId) (f : Die → Die) : (modDie s d f).keySlots = s.keySlots := rfl
@[simp] theorem modDie_wdp (s : State) (d : DieId) (f : Die → Die) : (modDie s d f).wdp = s.wdp := rfl
@[simp] theorem modDie_scrub (s : State) (d : DieId) (f : Die → Die) : (modDie s d f).scrub = s.scrub := rfl
@[simp] theorem modDie_cpsem (s : State) (d : DieId) (f : Die → Die) : (modDie s d f).cpsem = s.cpsem := rfl
@[simp] theorem modDie_cpsemAt (s : State) (d : DieId) (f : Die → Die) : (modDie s d f).cpsemAt = s.cpsemAt := rfl
@[simp] theorem modDie_tookAt (s : State) (d : DieId) (f : Die → Die) : (modDie s d f).tookAt = s.tookAt := rfl
@[simp] theorem modDie_lastReach (s : State) (d : DieId) (f : Die → Die) : (modDie s d f).lastReach = s.lastReach := rfl
@[simp] theorem modDie_cmds (s : State) (d : DieId) (f : Die → Die) : (modDie s d f).cmds = s.cmds := rfl
@[simp] theorem modDie_frieze (s : State) (d : DieId) (f : Die → Die) : (modDie s d f).frieze = s.frieze := rfl
@[simp] theorem modDie_fzseq (s : State) (d : DieId) (f : Die → Die) : (modDie s d f).fzseq = s.fzseq := rfl
@[simp] theorem modDie_repeats (s : State) (d : DieId) (f : Die → Die) : (modDie s d f).repeats = s.repeats := rfl
@[simp] theorem modDie_jobs (s : State) (d : DieId) (f : Die → Die) : (modDie s d f).jobs = s.jobs := rfl
@[simp] theorem modDie_peers (s : State) (d : DieId) (f : Die → Die) : (modDie s d f).peers = s.peers := rfl
@[simp] theorem modDie_ownPkg (s : State) (d : DieId) (f : Die → Die) : (modDie s d f).ownPkg = s.ownPkg := rfl
@[simp] theorem modDie_pages (s : State) (d : DieId) (f : Die → Die) : (modDie s d f).pages = s.pages := rfl
@[simp] theorem modDie_replies (s : State) (d : DieId) (f : Die → Die) : (modDie s d f).replies = s.replies := rfl
@[simp] theorem modDie_sysWork (s : State) (d : DieId) (f : Die → Die) : (modDie s d f).sysWork = s.sysWork := rfl
@[simp] theorem modDie_svcCtx (s : State) (d : DieId) (f : Die → Die) : (modDie s d f).svcCtx = s.svcCtx := rfl
@[simp] theorem modDie_bad (s : State) (d : DieId) (f : Die → Die) : (modDie s d f).bad = s.bad := rfl
@[simp] theorem modDie_walked (s : State) (d : DieId) (f : Die → Die) : (modDie s d f).walked = s.walked := rfl
@[simp] theorem modDie_streams (s : State) (d : DieId) (f : Die → Die) : (modDie s d f).streams = s.streams := rfl
@[simp] theorem modDie_cores (s : State) (d : DieId) (f : Die → Die) : (modDie s d f).cores = s.cores := rfl
@[simp] theorem modDie_ctxs (s : State) (d : DieId) (f : Die → Die) : (modDie s d f).ctxs = s.ctxs := rfl
@[simp] theorem modDie_launches (s : State) (d : DieId) (f : Die → Die) : (modDie s d f).launches = s.launches := rfl
@[simp] theorem modDie_mem (s : State) (d : DieId) (f : Die → Die) : (modDie s d f).mem = s.mem := rfl
@[simp] theorem modDie_accs (s : State) (d : DieId) (f : Die → Die) : (modDie s d f).accs = s.accs := rfl
@[simp] theorem modDie_engs (s : State) (d : DieId) (f : Die → Die) : (modDie s d f).engs = s.engs := rfl

@[simp] theorem modLaunch_agenda (s : State) (n : Nat) (f : Launch → Launch) : (modLaunch s n f).agenda = s.agenda := rfl
@[simp] theorem modLaunch_focus (s : State) (n : Nat) (f : Launch → Launch) : (modLaunch s n f).focus = s.focus := rfl
@[simp] theorem modLaunch_ticks (s : State) (n : Nat) (f : Launch → Launch) : (modLaunch s n f).ticks = s.ticks := rfl
@[simp] theorem modLaunch_nextId (s : State) (n : Nat) (f : Launch → Launch) : (modLaunch s n f).nextId = s.nextId := rfl
@[simp] theorem modLaunch_now (s : State) (n : Nat) (f : Launch → Launch) : (modLaunch s n f).now = s.now := rfl
@[simp] theorem modLaunch_bootStep (s : State) (n : Nat) (f : Launch → Launch) : (modLaunch s n f).bootStep = s.bootStep := rfl
@[simp] theorem modLaunch_powered (s : State) (n : Nat) (f : Launch → Launch) : (modLaunch s n f).powered = s.powered := rfl
@[simp] theorem modLaunch_lastTrip (s : State) (n : Nat) (f : Launch → Launch) : (modLaunch s n f).lastTrip = s.lastTrip := rfl
@[simp] theorem modLaunch_bootCount (s : State) (n : Nat) (f : Launch → Launch) : (modLaunch s n f).bootCount = s.bootCount := rfl
@[simp] theorem modLaunch_fwBanks (s : State) (n : Nat) (f : Launch → Launch) : (modLaunch s n f).fwBanks = s.fwBanks := rfl
@[simp] theorem modLaunch_fwFirst (s : State) (n : Nat) (f : Launch → Launch) : (modLaunch s n f).fwFirst = s.fwFirst := rfl
@[simp] theorem modLaunch_portsUp (s : State) (n : Nat) (f : Launch → Launch) : (modLaunch s n f).portsUp = s.portsUp := rfl
@[simp] theorem modLaunch_fwDigest (s : State) (n : Nat) (f : Launch → Launch) : (modLaunch s n f).fwDigest = s.fwDigest := rfl
@[simp] theorem modLaunch_keySlots (s : State) (n : Nat) (f : Launch → Launch) : (modLaunch s n f).keySlots = s.keySlots := rfl
@[simp] theorem modLaunch_wdp (s : State) (n : Nat) (f : Launch → Launch) : (modLaunch s n f).wdp = s.wdp := rfl
@[simp] theorem modLaunch_scrub (s : State) (n : Nat) (f : Launch → Launch) : (modLaunch s n f).scrub = s.scrub := rfl
@[simp] theorem modLaunch_cpsem (s : State) (n : Nat) (f : Launch → Launch) : (modLaunch s n f).cpsem = s.cpsem := rfl
@[simp] theorem modLaunch_cpsemAt (s : State) (n : Nat) (f : Launch → Launch) : (modLaunch s n f).cpsemAt = s.cpsemAt := rfl
@[simp] theorem modLaunch_tookAt (s : State) (n : Nat) (f : Launch → Launch) : (modLaunch s n f).tookAt = s.tookAt := rfl
@[simp] theorem modLaunch_lastReach (s : State) (n : Nat) (f : Launch → Launch) : (modLaunch s n f).lastReach = s.lastReach := rfl
@[simp] theorem modLaunch_cmds (s : State) (n : Nat) (f : Launch → Launch) : (modLaunch s n f).cmds = s.cmds := rfl
@[simp] theorem modLaunch_frieze (s : State) (n : Nat) (f : Launch → Launch) : (modLaunch s n f).frieze = s.frieze := rfl
@[simp] theorem modLaunch_fzseq (s : State) (n : Nat) (f : Launch → Launch) : (modLaunch s n f).fzseq = s.fzseq := rfl
@[simp] theorem modLaunch_repeats (s : State) (n : Nat) (f : Launch → Launch) : (modLaunch s n f).repeats = s.repeats := rfl
@[simp] theorem modLaunch_jobs (s : State) (n : Nat) (f : Launch → Launch) : (modLaunch s n f).jobs = s.jobs := rfl
@[simp] theorem modLaunch_peers (s : State) (n : Nat) (f : Launch → Launch) : (modLaunch s n f).peers = s.peers := rfl
@[simp] theorem modLaunch_ownPkg (s : State) (n : Nat) (f : Launch → Launch) : (modLaunch s n f).ownPkg = s.ownPkg := rfl
@[simp] theorem modLaunch_pages (s : State) (n : Nat) (f : Launch → Launch) : (modLaunch s n f).pages = s.pages := rfl
@[simp] theorem modLaunch_replies (s : State) (n : Nat) (f : Launch → Launch) : (modLaunch s n f).replies = s.replies := rfl
@[simp] theorem modLaunch_sysWork (s : State) (n : Nat) (f : Launch → Launch) : (modLaunch s n f).sysWork = s.sysWork := rfl
@[simp] theorem modLaunch_svcCtx (s : State) (n : Nat) (f : Launch → Launch) : (modLaunch s n f).svcCtx = s.svcCtx := rfl
@[simp] theorem modLaunch_bad (s : State) (n : Nat) (f : Launch → Launch) : (modLaunch s n f).bad = s.bad := rfl
@[simp] theorem modLaunch_walked (s : State) (n : Nat) (f : Launch → Launch) : (modLaunch s n f).walked = s.walked := rfl
@[simp] theorem modLaunch_streams (s : State) (n : Nat) (f : Launch → Launch) : (modLaunch s n f).streams = s.streams := rfl
@[simp] theorem modLaunch_dies (s : State) (n : Nat) (f : Launch → Launch) : (modLaunch s n f).dies = s.dies := rfl
@[simp] theorem modLaunch_cores (s : State) (n : Nat) (f : Launch → Launch) : (modLaunch s n f).cores = s.cores := rfl
@[simp] theorem modLaunch_ctxs (s : State) (n : Nat) (f : Launch → Launch) : (modLaunch s n f).ctxs = s.ctxs := rfl
@[simp] theorem modLaunch_mem (s : State) (n : Nat) (f : Launch → Launch) : (modLaunch s n f).mem = s.mem := rfl
@[simp] theorem modLaunch_accs (s : State) (n : Nat) (f : Launch → Launch) : (modLaunch s n f).accs = s.accs := rfl
@[simp] theorem modLaunch_engs (s : State) (n : Nat) (f : Launch → Launch) : (modLaunch s n f).engs = s.engs := rfl

@[simp] theorem modCtx_agenda (s : State) (n : Nat) (f : Ctx → Ctx) : (modCtx s n f).agenda = s.agenda := rfl
@[simp] theorem modCtx_focus (s : State) (n : Nat) (f : Ctx → Ctx) : (modCtx s n f).focus = s.focus := rfl
@[simp] theorem modCtx_ticks (s : State) (n : Nat) (f : Ctx → Ctx) : (modCtx s n f).ticks = s.ticks := rfl
@[simp] theorem modCtx_nextId (s : State) (n : Nat) (f : Ctx → Ctx) : (modCtx s n f).nextId = s.nextId := rfl
@[simp] theorem modCtx_now (s : State) (n : Nat) (f : Ctx → Ctx) : (modCtx s n f).now = s.now := rfl
@[simp] theorem modCtx_bootStep (s : State) (n : Nat) (f : Ctx → Ctx) : (modCtx s n f).bootStep = s.bootStep := rfl
@[simp] theorem modCtx_powered (s : State) (n : Nat) (f : Ctx → Ctx) : (modCtx s n f).powered = s.powered := rfl
@[simp] theorem modCtx_lastTrip (s : State) (n : Nat) (f : Ctx → Ctx) : (modCtx s n f).lastTrip = s.lastTrip := rfl
@[simp] theorem modCtx_bootCount (s : State) (n : Nat) (f : Ctx → Ctx) : (modCtx s n f).bootCount = s.bootCount := rfl
@[simp] theorem modCtx_fwBanks (s : State) (n : Nat) (f : Ctx → Ctx) : (modCtx s n f).fwBanks = s.fwBanks := rfl
@[simp] theorem modCtx_fwFirst (s : State) (n : Nat) (f : Ctx → Ctx) : (modCtx s n f).fwFirst = s.fwFirst := rfl
@[simp] theorem modCtx_portsUp (s : State) (n : Nat) (f : Ctx → Ctx) : (modCtx s n f).portsUp = s.portsUp := rfl
@[simp] theorem modCtx_fwDigest (s : State) (n : Nat) (f : Ctx → Ctx) : (modCtx s n f).fwDigest = s.fwDigest := rfl
@[simp] theorem modCtx_keySlots (s : State) (n : Nat) (f : Ctx → Ctx) : (modCtx s n f).keySlots = s.keySlots := rfl
@[simp] theorem modCtx_wdp (s : State) (n : Nat) (f : Ctx → Ctx) : (modCtx s n f).wdp = s.wdp := rfl
@[simp] theorem modCtx_scrub (s : State) (n : Nat) (f : Ctx → Ctx) : (modCtx s n f).scrub = s.scrub := rfl
@[simp] theorem modCtx_cpsem (s : State) (n : Nat) (f : Ctx → Ctx) : (modCtx s n f).cpsem = s.cpsem := rfl
@[simp] theorem modCtx_cpsemAt (s : State) (n : Nat) (f : Ctx → Ctx) : (modCtx s n f).cpsemAt = s.cpsemAt := rfl
@[simp] theorem modCtx_tookAt (s : State) (n : Nat) (f : Ctx → Ctx) : (modCtx s n f).tookAt = s.tookAt := rfl
@[simp] theorem modCtx_lastReach (s : State) (n : Nat) (f : Ctx → Ctx) : (modCtx s n f).lastReach = s.lastReach := rfl
@[simp] theorem modCtx_cmds (s : State) (n : Nat) (f : Ctx → Ctx) : (modCtx s n f).cmds = s.cmds := rfl
@[simp] theorem modCtx_frieze (s : State) (n : Nat) (f : Ctx → Ctx) : (modCtx s n f).frieze = s.frieze := rfl
@[simp] theorem modCtx_fzseq (s : State) (n : Nat) (f : Ctx → Ctx) : (modCtx s n f).fzseq = s.fzseq := rfl
@[simp] theorem modCtx_repeats (s : State) (n : Nat) (f : Ctx → Ctx) : (modCtx s n f).repeats = s.repeats := rfl
@[simp] theorem modCtx_jobs (s : State) (n : Nat) (f : Ctx → Ctx) : (modCtx s n f).jobs = s.jobs := rfl
@[simp] theorem modCtx_peers (s : State) (n : Nat) (f : Ctx → Ctx) : (modCtx s n f).peers = s.peers := rfl
@[simp] theorem modCtx_ownPkg (s : State) (n : Nat) (f : Ctx → Ctx) : (modCtx s n f).ownPkg = s.ownPkg := rfl
@[simp] theorem modCtx_pages (s : State) (n : Nat) (f : Ctx → Ctx) : (modCtx s n f).pages = s.pages := rfl
@[simp] theorem modCtx_replies (s : State) (n : Nat) (f : Ctx → Ctx) : (modCtx s n f).replies = s.replies := rfl
@[simp] theorem modCtx_sysWork (s : State) (n : Nat) (f : Ctx → Ctx) : (modCtx s n f).sysWork = s.sysWork := rfl
@[simp] theorem modCtx_svcCtx (s : State) (n : Nat) (f : Ctx → Ctx) : (modCtx s n f).svcCtx = s.svcCtx := rfl
@[simp] theorem modCtx_bad (s : State) (n : Nat) (f : Ctx → Ctx) : (modCtx s n f).bad = s.bad := rfl
@[simp] theorem modCtx_walked (s : State) (n : Nat) (f : Ctx → Ctx) : (modCtx s n f).walked = s.walked := rfl
@[simp] theorem modCtx_streams (s : State) (n : Nat) (f : Ctx → Ctx) : (modCtx s n f).streams = s.streams := rfl
@[simp] theorem modCtx_dies (s : State) (n : Nat) (f : Ctx → Ctx) : (modCtx s n f).dies = s.dies := rfl
@[simp] theorem modCtx_cores (s : State) (n : Nat) (f : Ctx → Ctx) : (modCtx s n f).cores = s.cores := rfl
@[simp] theorem modCtx_launches (s : State) (n : Nat) (f : Ctx → Ctx) : (modCtx s n f).launches = s.launches := rfl
@[simp] theorem modCtx_mem (s : State) (n : Nat) (f : Ctx → Ctx) : (modCtx s n f).mem = s.mem := rfl
@[simp] theorem modCtx_accs (s : State) (n : Nat) (f : Ctx → Ctx) : (modCtx s n f).accs = s.accs := rfl
@[simp] theorem modCtx_engs (s : State) (n : Nat) (f : Ctx → Ctx) : (modCtx s n f).engs = s.engs := rfl

/-! ## Updates of a core -/

@[simp] theorem modNode_holder (k : Core) (pe : PeId) (f : Node → Node) : (modNode k pe f).holder = k.holder := rfl
@[simp] theorem modNode_halted (k : Core) (pe : PeId) (f : Node → Node) : (modNode k pe f).halted = k.halted := rfl
@[simp] theorem modNode_resetting (k : Core) (pe : PeId) (f : Node → Node) : (modNode k pe f).resetting = k.resetting := rfl
@[simp] theorem modNode_guardV (k : Core) (pe : PeId) (f : Node → Node) : (modNode k pe f).guardV = k.guardV := rfl
@[simp] theorem modNode_team (k : Core) (pe : PeId) (f : Node → Node) : (modNode k pe f).team = k.team := rfl
@[simp] theorem modNode_inTeam (k : Core) (pe : PeId) (f : Node → Node) : (modNode k pe f).inTeam = k.inTeam := rfl
@[simp] theorem modNode_finished (k : Core) (pe : PeId) (f : Node → Node) : (modNode k pe f).finished = k.finished := rfl
@[simp] theorem modNode_stage (k : Core) (pe : PeId) (f : Node → Node) : (modNode k pe f).stage = k.stage := rfl
@[simp] theorem modNode_inRange (k : Core) (pe : PeId) (f : Node → Node) : (modNode k pe f).inRange = k.inRange := rfl
@[simp] theorem modNode_blk (k : Core) (pe : PeId) (f : Node → Node) : (modNode k pe f).blk = k.blk := rfl
@[simp] theorem modNode_seqLate (k : Core) (pe : PeId) (f : Node → Node) : (modNode k pe f).seqLate = k.seqLate := rfl
@[simp] theorem modNode_banks (k : Core) (pe : PeId) (f : Node → Node) : (modNode k pe f).banks = k.banks := rfl
@[simp] theorem modNode_task (k : Core) (pe : PeId) (f : Node → Node) : (modNode k pe f).task = k.task := rfl
@[simp] theorem modNode_lastPc (k : Core) (pe : PeId) (f : Node → Node) : (modNode k pe f).lastPc = k.lastPc := rfl
@[simp] theorem modNode_chtab (k : Core) (pe : PeId) (f : Node → Node) : (modNode k pe f).chtab = k.chtab := rfl
@[simp] theorem modNode_store (k : Core) (pe : PeId) (f : Node → Node) : (modNode k pe f).store = k.store := rfl
@[simp] theorem modNode_conts (k : Core) (pe : PeId) (f : Node → Node) : (modNode k pe f).conts = k.conts := rfl
@[simp] theorem modNode_outq (k : Core) (pe : PeId) (f : Node → Node) : (modNode k pe f).outq = k.outq := rfl
@[simp] theorem modNode_doneChains (k : Core) (pe : PeId) (f : Node → Node) : (modNode k pe f).doneChains = k.doneChains := rfl
@[simp] theorem modNode_barriers (k : Core) (pe : PeId) (f : Node → Node) : (modNode k pe f).barriers = k.barriers := rfl
@[simp] theorem modNode_arrivals (k : Core) (pe : PeId) (f : Node → Node) : (modNode k pe f).arrivals = k.arrivals := rfl
@[simp] theorem modNode_shapes (k : Core) (pe : PeId) (f : Node → Node) : (modNode k pe f).shapes = k.shapes := rfl
@[simp] theorem modNode_ags (k : Core) (pe : PeId) (f : Node → Node) : (modNode k pe f).ags = k.ags := rfl
@[simp] theorem modNode_drawn (k : Core) (pe : PeId) (f : Node → Node) : (modNode k pe f).drawn = k.drawn := rfl
@[simp] theorem modNode_routers (k : Core) (pe : PeId) (f : Node → Node) : (modNode k pe f).routers = k.routers := rfl
@[simp] theorem modNode_dscope (k : Core) (pe : PeId) (f : Node → Node) : (modNode k pe f).dscope = k.dscope := rfl
@[simp] theorem modNode_mts (k : Core) (pe : PeId) (f : Node → Node) : (modNode k pe f).mts = k.mts := rfl
@[simp] theorem modNode_queues (k : Core) (pe : PeId) (f : Node → Node) : (modNode k pe f).queues = k.queues := rfl
@[simp] theorem modNode_cqueues (k : Core) (pe : PeId) (f : Node → Node) : (modNode k pe f).cqueues = k.cqueues := rfl
@[simp] theorem modNode_rings (k : Core) (pe : PeId) (f : Node → Node) : (modNode k pe f).rings = k.rings := rfl
@[simp] theorem modNode_extra (k : Core) (pe : PeId) (f : Node → Node) : (modNode k pe f).extra = k.extra := rfl
@[simp] theorem modNode_pool (k : Core) (pe : PeId) (f : Node → Node) : (modNode k pe f).pool = k.pool := rfl
@[simp] theorem modNode_grammar (k : Core) (pe : PeId) (f : Node → Node) : (modNode k pe f).grammar = k.grammar := rfl
@[simp] theorem modNode_parsers (k : Core) (pe : PeId) (f : Node → Node) : (modNode k pe f).parsers = k.parsers := rfl
@[simp] theorem modNode_tiles (k : Core) (pe : PeId) (f : Node → Node) : (modNode k pe f).tiles = k.tiles := rfl
@[simp] theorem modNode_accum (k : Core) (pe : PeId) (f : Node → Node) : (modNode k pe f).accum = k.accum := rfl
@[simp] theorem modNode_sparse (k : Core) (pe : PeId) (f : Node → Node) : (modNode k pe f).sparse = k.sparse := rfl
@[simp] theorem modNode_claims (k : Core) (pe : PeId) (f : Node → Node) : (modNode k pe f).claims = k.claims := rfl
@[simp] theorem modNode_graphs (k : Core) (pe : PeId) (f : Node → Node) : (modNode k pe f).graphs = k.graphs := rfl
@[simp] theorem modNode_armTurn (k : Core) (pe : PeId) (f : Node → Node) : (modNode k pe f).armTurn = k.armTurn := rfl
@[simp] theorem modNode_lastAct (k : Core) (pe : PeId) (f : Node → Node) : (modNode k pe f).lastAct = k.lastAct := rfl
@[simp] theorem modNode_frozen (k : Core) (pe : PeId) (f : Node → Node) : (modNode k pe f).frozen = k.frozen := rfl
@[simp] theorem modNode_flagsNow (k : Core) (pe : PeId) (f : Node → Node) : (modNode k pe f).flagsNow = k.flagsNow := rfl
@[simp] theorem modNode_dropNow (k : Core) (pe : PeId) (f : Node → Node) : (modNode k pe f).dropNow = k.dropNow := rfl
@[simp] theorem modNode_cntNow (k : Core) (pe : PeId) (f : Node → Node) : (modNode k pe f).cntNow = k.cntNow := rfl
@[simp] theorem modNode_confAt (k : Core) (pe : PeId) (f : Node → Node) : (modNode k pe f).confAt = k.confAt := rfl
@[simp] theorem modNode_tabTurn (k : Core) (pe : PeId) (f : Node → Node) : (modNode k pe f).tabTurn = k.tabTurn := rfl
@[simp] theorem modNode_actTurn (k : Core) (pe : PeId) (f : Node → Node) : (modNode k pe f).actTurn = k.actTurn := rfl
@[simp] theorem modNode_folded (k : Core) (pe : PeId) (f : Node → Node) : (modNode k pe f).folded = k.folded := rfl
@[simp] theorem modNode_foldLast (k : Core) (pe : PeId) (f : Node → Node) : (modNode k pe f).foldLast = k.foldLast := rfl

@[simp] theorem modParser_holder (k : Core) (p : ParserId) (f : Parser → Parser) : (modParser k p f).holder = k.holder := rfl
@[simp] theorem modParser_halted (k : Core) (p : ParserId) (f : Parser → Parser) : (modParser k p f).halted = k.halted := rfl
@[simp] theorem modParser_resetting (k : Core) (p : ParserId) (f : Parser → Parser) : (modParser k p f).resetting = k.resetting := rfl
@[simp] theorem modParser_guardV (k : Core) (p : ParserId) (f : Parser → Parser) : (modParser k p f).guardV = k.guardV := rfl
@[simp] theorem modParser_team (k : Core) (p : ParserId) (f : Parser → Parser) : (modParser k p f).team = k.team := rfl
@[simp] theorem modParser_inTeam (k : Core) (p : ParserId) (f : Parser → Parser) : (modParser k p f).inTeam = k.inTeam := rfl
@[simp] theorem modParser_finished (k : Core) (p : ParserId) (f : Parser → Parser) : (modParser k p f).finished = k.finished := rfl
@[simp] theorem modParser_stage (k : Core) (p : ParserId) (f : Parser → Parser) : (modParser k p f).stage = k.stage := rfl
@[simp] theorem modParser_inRange (k : Core) (p : ParserId) (f : Parser → Parser) : (modParser k p f).inRange = k.inRange := rfl
@[simp] theorem modParser_blk (k : Core) (p : ParserId) (f : Parser → Parser) : (modParser k p f).blk = k.blk := rfl
@[simp] theorem modParser_seqLate (k : Core) (p : ParserId) (f : Parser → Parser) : (modParser k p f).seqLate = k.seqLate := rfl
@[simp] theorem modParser_banks (k : Core) (p : ParserId) (f : Parser → Parser) : (modParser k p f).banks = k.banks := rfl
@[simp] theorem modParser_task (k : Core) (p : ParserId) (f : Parser → Parser) : (modParser k p f).task = k.task := rfl
@[simp] theorem modParser_lastPc (k : Core) (p : ParserId) (f : Parser → Parser) : (modParser k p f).lastPc = k.lastPc := rfl
@[simp] theorem modParser_chtab (k : Core) (p : ParserId) (f : Parser → Parser) : (modParser k p f).chtab = k.chtab := rfl
@[simp] theorem modParser_store (k : Core) (p : ParserId) (f : Parser → Parser) : (modParser k p f).store = k.store := rfl
@[simp] theorem modParser_conts (k : Core) (p : ParserId) (f : Parser → Parser) : (modParser k p f).conts = k.conts := rfl
@[simp] theorem modParser_outq (k : Core) (p : ParserId) (f : Parser → Parser) : (modParser k p f).outq = k.outq := rfl
@[simp] theorem modParser_doneChains (k : Core) (p : ParserId) (f : Parser → Parser) : (modParser k p f).doneChains = k.doneChains := rfl
@[simp] theorem modParser_barriers (k : Core) (p : ParserId) (f : Parser → Parser) : (modParser k p f).barriers = k.barriers := rfl
@[simp] theorem modParser_arrivals (k : Core) (p : ParserId) (f : Parser → Parser) : (modParser k p f).arrivals = k.arrivals := rfl
@[simp] theorem modParser_shapes (k : Core) (p : ParserId) (f : Parser → Parser) : (modParser k p f).shapes = k.shapes := rfl
@[simp] theorem modParser_ags (k : Core) (p : ParserId) (f : Parser → Parser) : (modParser k p f).ags = k.ags := rfl
@[simp] theorem modParser_drawn (k : Core) (p : ParserId) (f : Parser → Parser) : (modParser k p f).drawn = k.drawn := rfl
@[simp] theorem modParser_nodes (k : Core) (p : ParserId) (f : Parser → Parser) : (modParser k p f).nodes = k.nodes := rfl
@[simp] theorem modParser_routers (k : Core) (p : ParserId) (f : Parser → Parser) : (modParser k p f).routers = k.routers := rfl
@[simp] theorem modParser_dscope (k : Core) (p : ParserId) (f : Parser → Parser) : (modParser k p f).dscope = k.dscope := rfl
@[simp] theorem modParser_mts (k : Core) (p : ParserId) (f : Parser → Parser) : (modParser k p f).mts = k.mts := rfl
@[simp] theorem modParser_queues (k : Core) (p : ParserId) (f : Parser → Parser) : (modParser k p f).queues = k.queues := rfl
@[simp] theorem modParser_cqueues (k : Core) (p : ParserId) (f : Parser → Parser) : (modParser k p f).cqueues = k.cqueues := rfl
@[simp] theorem modParser_rings (k : Core) (p : ParserId) (f : Parser → Parser) : (modParser k p f).rings = k.rings := rfl
@[simp] theorem modParser_extra (k : Core) (p : ParserId) (f : Parser → Parser) : (modParser k p f).extra = k.extra := rfl
@[simp] theorem modParser_pool (k : Core) (p : ParserId) (f : Parser → Parser) : (modParser k p f).pool = k.pool := rfl
@[simp] theorem modParser_grammar (k : Core) (p : ParserId) (f : Parser → Parser) : (modParser k p f).grammar = k.grammar := rfl
@[simp] theorem modParser_tiles (k : Core) (p : ParserId) (f : Parser → Parser) : (modParser k p f).tiles = k.tiles := rfl
@[simp] theorem modParser_accum (k : Core) (p : ParserId) (f : Parser → Parser) : (modParser k p f).accum = k.accum := rfl
@[simp] theorem modParser_sparse (k : Core) (p : ParserId) (f : Parser → Parser) : (modParser k p f).sparse = k.sparse := rfl
@[simp] theorem modParser_claims (k : Core) (p : ParserId) (f : Parser → Parser) : (modParser k p f).claims = k.claims := rfl
@[simp] theorem modParser_graphs (k : Core) (p : ParserId) (f : Parser → Parser) : (modParser k p f).graphs = k.graphs := rfl
@[simp] theorem modParser_armTurn (k : Core) (p : ParserId) (f : Parser → Parser) : (modParser k p f).armTurn = k.armTurn := rfl
@[simp] theorem modParser_lastAct (k : Core) (p : ParserId) (f : Parser → Parser) : (modParser k p f).lastAct = k.lastAct := rfl
@[simp] theorem modParser_frozen (k : Core) (p : ParserId) (f : Parser → Parser) : (modParser k p f).frozen = k.frozen := rfl
@[simp] theorem modParser_flagsNow (k : Core) (p : ParserId) (f : Parser → Parser) : (modParser k p f).flagsNow = k.flagsNow := rfl
@[simp] theorem modParser_dropNow (k : Core) (p : ParserId) (f : Parser → Parser) : (modParser k p f).dropNow = k.dropNow := rfl
@[simp] theorem modParser_cntNow (k : Core) (p : ParserId) (f : Parser → Parser) : (modParser k p f).cntNow = k.cntNow := rfl
@[simp] theorem modParser_confAt (k : Core) (p : ParserId) (f : Parser → Parser) : (modParser k p f).confAt = k.confAt := rfl
@[simp] theorem modParser_tabTurn (k : Core) (p : ParserId) (f : Parser → Parser) : (modParser k p f).tabTurn = k.tabTurn := rfl
@[simp] theorem modParser_actTurn (k : Core) (p : ParserId) (f : Parser → Parser) : (modParser k p f).actTurn = k.actTurn := rfl
@[simp] theorem modParser_folded (k : Core) (p : ParserId) (f : Parser → Parser) : (modParser k p f).folded = k.folded := rfl
@[simp] theorem modParser_foldLast (k : Core) (p : ParserId) (f : Parser → Parser) : (modParser k p f).foldLast = k.foldLast := rfl

@[simp] theorem modAg_holder (k : Core) (a : AgId) (f : Ag → Ag) : (modAg k a f).holder = k.holder := rfl
@[simp] theorem modAg_halted (k : Core) (a : AgId) (f : Ag → Ag) : (modAg k a f).halted = k.halted := rfl
@[simp] theorem modAg_resetting (k : Core) (a : AgId) (f : Ag → Ag) : (modAg k a f).resetting = k.resetting := rfl
@[simp] theorem modAg_guardV (k : Core) (a : AgId) (f : Ag → Ag) : (modAg k a f).guardV = k.guardV := rfl
@[simp] theorem modAg_team (k : Core) (a : AgId) (f : Ag → Ag) : (modAg k a f).team = k.team := rfl
@[simp] theorem modAg_inTeam (k : Core) (a : AgId) (f : Ag → Ag) : (modAg k a f).inTeam = k.inTeam := rfl
@[simp] theorem modAg_finished (k : Core) (a : AgId) (f : Ag → Ag) : (modAg k a f).finished = k.finished := rfl
@[simp] theorem modAg_stage (k : Core) (a : AgId) (f : Ag → Ag) : (modAg k a f).stage = k.stage := rfl
@[simp] theorem modAg_inRange (k : Core) (a : AgId) (f : Ag → Ag) : (modAg k a f).inRange = k.inRange := rfl
@[simp] theorem modAg_blk (k : Core) (a : AgId) (f : Ag → Ag) : (modAg k a f).blk = k.blk := rfl
@[simp] theorem modAg_seqLate (k : Core) (a : AgId) (f : Ag → Ag) : (modAg k a f).seqLate = k.seqLate := rfl
@[simp] theorem modAg_banks (k : Core) (a : AgId) (f : Ag → Ag) : (modAg k a f).banks = k.banks := rfl
@[simp] theorem modAg_task (k : Core) (a : AgId) (f : Ag → Ag) : (modAg k a f).task = k.task := rfl
@[simp] theorem modAg_lastPc (k : Core) (a : AgId) (f : Ag → Ag) : (modAg k a f).lastPc = k.lastPc := rfl
@[simp] theorem modAg_chtab (k : Core) (a : AgId) (f : Ag → Ag) : (modAg k a f).chtab = k.chtab := rfl
@[simp] theorem modAg_store (k : Core) (a : AgId) (f : Ag → Ag) : (modAg k a f).store = k.store := rfl
@[simp] theorem modAg_conts (k : Core) (a : AgId) (f : Ag → Ag) : (modAg k a f).conts = k.conts := rfl
@[simp] theorem modAg_outq (k : Core) (a : AgId) (f : Ag → Ag) : (modAg k a f).outq = k.outq := rfl
@[simp] theorem modAg_doneChains (k : Core) (a : AgId) (f : Ag → Ag) : (modAg k a f).doneChains = k.doneChains := rfl
@[simp] theorem modAg_barriers (k : Core) (a : AgId) (f : Ag → Ag) : (modAg k a f).barriers = k.barriers := rfl
@[simp] theorem modAg_arrivals (k : Core) (a : AgId) (f : Ag → Ag) : (modAg k a f).arrivals = k.arrivals := rfl
@[simp] theorem modAg_shapes (k : Core) (a : AgId) (f : Ag → Ag) : (modAg k a f).shapes = k.shapes := rfl
@[simp] theorem modAg_drawn (k : Core) (a : AgId) (f : Ag → Ag) : (modAg k a f).drawn = k.drawn := rfl
@[simp] theorem modAg_nodes (k : Core) (a : AgId) (f : Ag → Ag) : (modAg k a f).nodes = k.nodes := rfl
@[simp] theorem modAg_routers (k : Core) (a : AgId) (f : Ag → Ag) : (modAg k a f).routers = k.routers := rfl
@[simp] theorem modAg_dscope (k : Core) (a : AgId) (f : Ag → Ag) : (modAg k a f).dscope = k.dscope := rfl
@[simp] theorem modAg_mts (k : Core) (a : AgId) (f : Ag → Ag) : (modAg k a f).mts = k.mts := rfl
@[simp] theorem modAg_queues (k : Core) (a : AgId) (f : Ag → Ag) : (modAg k a f).queues = k.queues := rfl
@[simp] theorem modAg_cqueues (k : Core) (a : AgId) (f : Ag → Ag) : (modAg k a f).cqueues = k.cqueues := rfl
@[simp] theorem modAg_rings (k : Core) (a : AgId) (f : Ag → Ag) : (modAg k a f).rings = k.rings := rfl
@[simp] theorem modAg_extra (k : Core) (a : AgId) (f : Ag → Ag) : (modAg k a f).extra = k.extra := rfl
@[simp] theorem modAg_pool (k : Core) (a : AgId) (f : Ag → Ag) : (modAg k a f).pool = k.pool := rfl
@[simp] theorem modAg_grammar (k : Core) (a : AgId) (f : Ag → Ag) : (modAg k a f).grammar = k.grammar := rfl
@[simp] theorem modAg_parsers (k : Core) (a : AgId) (f : Ag → Ag) : (modAg k a f).parsers = k.parsers := rfl
@[simp] theorem modAg_tiles (k : Core) (a : AgId) (f : Ag → Ag) : (modAg k a f).tiles = k.tiles := rfl
@[simp] theorem modAg_accum (k : Core) (a : AgId) (f : Ag → Ag) : (modAg k a f).accum = k.accum := rfl
@[simp] theorem modAg_sparse (k : Core) (a : AgId) (f : Ag → Ag) : (modAg k a f).sparse = k.sparse := rfl
@[simp] theorem modAg_claims (k : Core) (a : AgId) (f : Ag → Ag) : (modAg k a f).claims = k.claims := rfl
@[simp] theorem modAg_graphs (k : Core) (a : AgId) (f : Ag → Ag) : (modAg k a f).graphs = k.graphs := rfl
@[simp] theorem modAg_armTurn (k : Core) (a : AgId) (f : Ag → Ag) : (modAg k a f).armTurn = k.armTurn := rfl
@[simp] theorem modAg_lastAct (k : Core) (a : AgId) (f : Ag → Ag) : (modAg k a f).lastAct = k.lastAct := rfl
@[simp] theorem modAg_frozen (k : Core) (a : AgId) (f : Ag → Ag) : (modAg k a f).frozen = k.frozen := rfl
@[simp] theorem modAg_flagsNow (k : Core) (a : AgId) (f : Ag → Ag) : (modAg k a f).flagsNow = k.flagsNow := rfl
@[simp] theorem modAg_dropNow (k : Core) (a : AgId) (f : Ag → Ag) : (modAg k a f).dropNow = k.dropNow := rfl
@[simp] theorem modAg_cntNow (k : Core) (a : AgId) (f : Ag → Ag) : (modAg k a f).cntNow = k.cntNow := rfl
@[simp] theorem modAg_confAt (k : Core) (a : AgId) (f : Ag → Ag) : (modAg k a f).confAt = k.confAt := rfl
@[simp] theorem modAg_tabTurn (k : Core) (a : AgId) (f : Ag → Ag) : (modAg k a f).tabTurn = k.tabTurn := rfl
@[simp] theorem modAg_actTurn (k : Core) (a : AgId) (f : Ag → Ag) : (modAg k a f).actTurn = k.actTurn := rfl
@[simp] theorem modAg_folded (k : Core) (a : AgId) (f : Ag → Ag) : (modAg k a f).folded = k.folded := rfl
@[simp] theorem modAg_foldLast (k : Core) (a : AgId) (f : Ag → Ag) : (modAg k a f).foldLast = k.foldLast := rfl

@[simp] theorem modBank_holder (k : Core) (b : BankId) (f : RegBank → RegBank) : (modBank k b f).holder = k.holder := rfl
@[simp] theorem modBank_halted (k : Core) (b : BankId) (f : RegBank → RegBank) : (modBank k b f).halted = k.halted := rfl
@[simp] theorem modBank_resetting (k : Core) (b : BankId) (f : RegBank → RegBank) : (modBank k b f).resetting = k.resetting := rfl
@[simp] theorem modBank_guardV (k : Core) (b : BankId) (f : RegBank → RegBank) : (modBank k b f).guardV = k.guardV := rfl
@[simp] theorem modBank_team (k : Core) (b : BankId) (f : RegBank → RegBank) : (modBank k b f).team = k.team := rfl
@[simp] theorem modBank_inTeam (k : Core) (b : BankId) (f : RegBank → RegBank) : (modBank k b f).inTeam = k.inTeam := rfl
@[simp] theorem modBank_finished (k : Core) (b : BankId) (f : RegBank → RegBank) : (modBank k b f).finished = k.finished := rfl
@[simp] theorem modBank_stage (k : Core) (b : BankId) (f : RegBank → RegBank) : (modBank k b f).stage = k.stage := rfl
@[simp] theorem modBank_inRange (k : Core) (b : BankId) (f : RegBank → RegBank) : (modBank k b f).inRange = k.inRange := rfl
@[simp] theorem modBank_blk (k : Core) (b : BankId) (f : RegBank → RegBank) : (modBank k b f).blk = k.blk := rfl
@[simp] theorem modBank_seqLate (k : Core) (b : BankId) (f : RegBank → RegBank) : (modBank k b f).seqLate = k.seqLate := rfl
@[simp] theorem modBank_task (k : Core) (b : BankId) (f : RegBank → RegBank) : (modBank k b f).task = k.task := rfl
@[simp] theorem modBank_lastPc (k : Core) (b : BankId) (f : RegBank → RegBank) : (modBank k b f).lastPc = k.lastPc := rfl
@[simp] theorem modBank_chtab (k : Core) (b : BankId) (f : RegBank → RegBank) : (modBank k b f).chtab = k.chtab := rfl
@[simp] theorem modBank_store (k : Core) (b : BankId) (f : RegBank → RegBank) : (modBank k b f).store = k.store := rfl
@[simp] theorem modBank_conts (k : Core) (b : BankId) (f : RegBank → RegBank) : (modBank k b f).conts = k.conts := rfl
@[simp] theorem modBank_outq (k : Core) (b : BankId) (f : RegBank → RegBank) : (modBank k b f).outq = k.outq := rfl
@[simp] theorem modBank_doneChains (k : Core) (b : BankId) (f : RegBank → RegBank) : (modBank k b f).doneChains = k.doneChains := rfl
@[simp] theorem modBank_barriers (k : Core) (b : BankId) (f : RegBank → RegBank) : (modBank k b f).barriers = k.barriers := rfl
@[simp] theorem modBank_arrivals (k : Core) (b : BankId) (f : RegBank → RegBank) : (modBank k b f).arrivals = k.arrivals := rfl
@[simp] theorem modBank_shapes (k : Core) (b : BankId) (f : RegBank → RegBank) : (modBank k b f).shapes = k.shapes := rfl
@[simp] theorem modBank_ags (k : Core) (b : BankId) (f : RegBank → RegBank) : (modBank k b f).ags = k.ags := rfl
@[simp] theorem modBank_drawn (k : Core) (b : BankId) (f : RegBank → RegBank) : (modBank k b f).drawn = k.drawn := rfl
@[simp] theorem modBank_nodes (k : Core) (b : BankId) (f : RegBank → RegBank) : (modBank k b f).nodes = k.nodes := rfl
@[simp] theorem modBank_routers (k : Core) (b : BankId) (f : RegBank → RegBank) : (modBank k b f).routers = k.routers := rfl
@[simp] theorem modBank_dscope (k : Core) (b : BankId) (f : RegBank → RegBank) : (modBank k b f).dscope = k.dscope := rfl
@[simp] theorem modBank_mts (k : Core) (b : BankId) (f : RegBank → RegBank) : (modBank k b f).mts = k.mts := rfl
@[simp] theorem modBank_queues (k : Core) (b : BankId) (f : RegBank → RegBank) : (modBank k b f).queues = k.queues := rfl
@[simp] theorem modBank_cqueues (k : Core) (b : BankId) (f : RegBank → RegBank) : (modBank k b f).cqueues = k.cqueues := rfl
@[simp] theorem modBank_rings (k : Core) (b : BankId) (f : RegBank → RegBank) : (modBank k b f).rings = k.rings := rfl
@[simp] theorem modBank_extra (k : Core) (b : BankId) (f : RegBank → RegBank) : (modBank k b f).extra = k.extra := rfl
@[simp] theorem modBank_pool (k : Core) (b : BankId) (f : RegBank → RegBank) : (modBank k b f).pool = k.pool := rfl
@[simp] theorem modBank_grammar (k : Core) (b : BankId) (f : RegBank → RegBank) : (modBank k b f).grammar = k.grammar := rfl
@[simp] theorem modBank_parsers (k : Core) (b : BankId) (f : RegBank → RegBank) : (modBank k b f).parsers = k.parsers := rfl
@[simp] theorem modBank_tiles (k : Core) (b : BankId) (f : RegBank → RegBank) : (modBank k b f).tiles = k.tiles := rfl
@[simp] theorem modBank_accum (k : Core) (b : BankId) (f : RegBank → RegBank) : (modBank k b f).accum = k.accum := rfl
@[simp] theorem modBank_sparse (k : Core) (b : BankId) (f : RegBank → RegBank) : (modBank k b f).sparse = k.sparse := rfl
@[simp] theorem modBank_claims (k : Core) (b : BankId) (f : RegBank → RegBank) : (modBank k b f).claims = k.claims := rfl
@[simp] theorem modBank_graphs (k : Core) (b : BankId) (f : RegBank → RegBank) : (modBank k b f).graphs = k.graphs := rfl
@[simp] theorem modBank_armTurn (k : Core) (b : BankId) (f : RegBank → RegBank) : (modBank k b f).armTurn = k.armTurn := rfl
@[simp] theorem modBank_lastAct (k : Core) (b : BankId) (f : RegBank → RegBank) : (modBank k b f).lastAct = k.lastAct := rfl
@[simp] theorem modBank_frozen (k : Core) (b : BankId) (f : RegBank → RegBank) : (modBank k b f).frozen = k.frozen := rfl
@[simp] theorem modBank_flagsNow (k : Core) (b : BankId) (f : RegBank → RegBank) : (modBank k b f).flagsNow = k.flagsNow := rfl
@[simp] theorem modBank_dropNow (k : Core) (b : BankId) (f : RegBank → RegBank) : (modBank k b f).dropNow = k.dropNow := rfl
@[simp] theorem modBank_cntNow (k : Core) (b : BankId) (f : RegBank → RegBank) : (modBank k b f).cntNow = k.cntNow := rfl
@[simp] theorem modBank_confAt (k : Core) (b : BankId) (f : RegBank → RegBank) : (modBank k b f).confAt = k.confAt := rfl
@[simp] theorem modBank_tabTurn (k : Core) (b : BankId) (f : RegBank → RegBank) : (modBank k b f).tabTurn = k.tabTurn := rfl
@[simp] theorem modBank_actTurn (k : Core) (b : BankId) (f : RegBank → RegBank) : (modBank k b f).actTurn = k.actTurn := rfl
@[simp] theorem modBank_folded (k : Core) (b : BankId) (f : RegBank → RegBank) : (modBank k b f).folded = k.folded := rfl
@[simp] theorem modBank_foldLast (k : Core) (b : BankId) (f : RegBank → RegBank) : (modBank k b f).foldLast = k.foldLast := rfl

@[simp] theorem setQueue_holder (k : Core) (q : QKey) (v : List Flit) : (setQueue k q v).holder = k.holder := rfl
@[simp] theorem setQueue_halted (k : Core) (q : QKey) (v : List Flit) : (setQueue k q v).halted = k.halted := rfl
@[simp] theorem setQueue_resetting (k : Core) (q : QKey) (v : List Flit) : (setQueue k q v).resetting = k.resetting := rfl
@[simp] theorem setQueue_guardV (k : Core) (q : QKey) (v : List Flit) : (setQueue k q v).guardV = k.guardV := rfl
@[simp] theorem setQueue_team (k : Core) (q : QKey) (v : List Flit) : (setQueue k q v).team = k.team := rfl
@[simp] theorem setQueue_inTeam (k : Core) (q : QKey) (v : List Flit) : (setQueue k q v).inTeam = k.inTeam := rfl
@[simp] theorem setQueue_finished (k : Core) (q : QKey) (v : List Flit) : (setQueue k q v).finished = k.finished := rfl
@[simp] theorem setQueue_stage (k : Core) (q : QKey) (v : List Flit) : (setQueue k q v).stage = k.stage := rfl
@[simp] theorem setQueue_inRange (k : Core) (q : QKey) (v : List Flit) : (setQueue k q v).inRange = k.inRange := rfl
@[simp] theorem setQueue_blk (k : Core) (q : QKey) (v : List Flit) : (setQueue k q v).blk = k.blk := rfl
@[simp] theorem setQueue_seqLate (k : Core) (q : QKey) (v : List Flit) : (setQueue k q v).seqLate = k.seqLate := rfl
@[simp] theorem setQueue_banks (k : Core) (q : QKey) (v : List Flit) : (setQueue k q v).banks = k.banks := rfl
@[simp] theorem setQueue_task (k : Core) (q : QKey) (v : List Flit) : (setQueue k q v).task = k.task := rfl
@[simp] theorem setQueue_lastPc (k : Core) (q : QKey) (v : List Flit) : (setQueue k q v).lastPc = k.lastPc := rfl
@[simp] theorem setQueue_chtab (k : Core) (q : QKey) (v : List Flit) : (setQueue k q v).chtab = k.chtab := rfl
@[simp] theorem setQueue_store (k : Core) (q : QKey) (v : List Flit) : (setQueue k q v).store = k.store := rfl
@[simp] theorem setQueue_conts (k : Core) (q : QKey) (v : List Flit) : (setQueue k q v).conts = k.conts := rfl
@[simp] theorem setQueue_outq (k : Core) (q : QKey) (v : List Flit) : (setQueue k q v).outq = k.outq := rfl
@[simp] theorem setQueue_doneChains (k : Core) (q : QKey) (v : List Flit) : (setQueue k q v).doneChains = k.doneChains := rfl
@[simp] theorem setQueue_barriers (k : Core) (q : QKey) (v : List Flit) : (setQueue k q v).barriers = k.barriers := rfl
@[simp] theorem setQueue_arrivals (k : Core) (q : QKey) (v : List Flit) : (setQueue k q v).arrivals = k.arrivals := rfl
@[simp] theorem setQueue_shapes (k : Core) (q : QKey) (v : List Flit) : (setQueue k q v).shapes = k.shapes := rfl
@[simp] theorem setQueue_ags (k : Core) (q : QKey) (v : List Flit) : (setQueue k q v).ags = k.ags := rfl
@[simp] theorem setQueue_drawn (k : Core) (q : QKey) (v : List Flit) : (setQueue k q v).drawn = k.drawn := rfl
@[simp] theorem setQueue_nodes (k : Core) (q : QKey) (v : List Flit) : (setQueue k q v).nodes = k.nodes := rfl
@[simp] theorem setQueue_routers (k : Core) (q : QKey) (v : List Flit) : (setQueue k q v).routers = k.routers := rfl
@[simp] theorem setQueue_dscope (k : Core) (q : QKey) (v : List Flit) : (setQueue k q v).dscope = k.dscope := rfl
@[simp] theorem setQueue_mts (k : Core) (q : QKey) (v : List Flit) : (setQueue k q v).mts = k.mts := rfl
@[simp] theorem setQueue_cqueues (k : Core) (q : QKey) (v : List Flit) : (setQueue k q v).cqueues = k.cqueues := rfl
@[simp] theorem setQueue_rings (k : Core) (q : QKey) (v : List Flit) : (setQueue k q v).rings = k.rings := rfl
@[simp] theorem setQueue_extra (k : Core) (q : QKey) (v : List Flit) : (setQueue k q v).extra = k.extra := rfl
@[simp] theorem setQueue_pool (k : Core) (q : QKey) (v : List Flit) : (setQueue k q v).pool = k.pool := rfl
@[simp] theorem setQueue_grammar (k : Core) (q : QKey) (v : List Flit) : (setQueue k q v).grammar = k.grammar := rfl
@[simp] theorem setQueue_parsers (k : Core) (q : QKey) (v : List Flit) : (setQueue k q v).parsers = k.parsers := rfl
@[simp] theorem setQueue_tiles (k : Core) (q : QKey) (v : List Flit) : (setQueue k q v).tiles = k.tiles := rfl
@[simp] theorem setQueue_accum (k : Core) (q : QKey) (v : List Flit) : (setQueue k q v).accum = k.accum := rfl
@[simp] theorem setQueue_sparse (k : Core) (q : QKey) (v : List Flit) : (setQueue k q v).sparse = k.sparse := rfl
@[simp] theorem setQueue_claims (k : Core) (q : QKey) (v : List Flit) : (setQueue k q v).claims = k.claims := rfl
@[simp] theorem setQueue_graphs (k : Core) (q : QKey) (v : List Flit) : (setQueue k q v).graphs = k.graphs := rfl
@[simp] theorem setQueue_armTurn (k : Core) (q : QKey) (v : List Flit) : (setQueue k q v).armTurn = k.armTurn := rfl
@[simp] theorem setQueue_lastAct (k : Core) (q : QKey) (v : List Flit) : (setQueue k q v).lastAct = k.lastAct := rfl
@[simp] theorem setQueue_frozen (k : Core) (q : QKey) (v : List Flit) : (setQueue k q v).frozen = k.frozen := rfl
@[simp] theorem setQueue_flagsNow (k : Core) (q : QKey) (v : List Flit) : (setQueue k q v).flagsNow = k.flagsNow := rfl
@[simp] theorem setQueue_dropNow (k : Core) (q : QKey) (v : List Flit) : (setQueue k q v).dropNow = k.dropNow := rfl
@[simp] theorem setQueue_cntNow (k : Core) (q : QKey) (v : List Flit) : (setQueue k q v).cntNow = k.cntNow := rfl
@[simp] theorem setQueue_confAt (k : Core) (q : QKey) (v : List Flit) : (setQueue k q v).confAt = k.confAt := rfl
@[simp] theorem setQueue_tabTurn (k : Core) (q : QKey) (v : List Flit) : (setQueue k q v).tabTurn = k.tabTurn := rfl
@[simp] theorem setQueue_actTurn (k : Core) (q : QKey) (v : List Flit) : (setQueue k q v).actTurn = k.actTurn := rfl
@[simp] theorem setQueue_folded (k : Core) (q : QKey) (v : List Flit) : (setQueue k q v).folded = k.folded := rfl
@[simp] theorem setQueue_foldLast (k : Core) (q : QKey) (v : List Flit) : (setQueue k q v).foldLast = k.foldLast := rfl

@[simp] theorem setCqueue_holder (k : Core) (q : QKey) (v : List CFlit) : (setCqueue k q v).holder = k.holder := rfl
@[simp] theorem setCqueue_halted (k : Core) (q : QKey) (v : List CFlit) : (setCqueue k q v).halted = k.halted := rfl
@[simp] theorem setCqueue_resetting (k : Core) (q : QKey) (v : List CFlit) : (setCqueue k q v).resetting = k.resetting := rfl
@[simp] theorem setCqueue_guardV (k : Core) (q : QKey) (v : List CFlit) : (setCqueue k q v).guardV = k.guardV := rfl
@[simp] theorem setCqueue_team (k : Core) (q : QKey) (v : List CFlit) : (setCqueue k q v).team = k.team := rfl
@[simp] theorem setCqueue_inTeam (k : Core) (q : QKey) (v : List CFlit) : (setCqueue k q v).inTeam = k.inTeam := rfl
@[simp] theorem setCqueue_finished (k : Core) (q : QKey) (v : List CFlit) : (setCqueue k q v).finished = k.finished := rfl
@[simp] theorem setCqueue_stage (k : Core) (q : QKey) (v : List CFlit) : (setCqueue k q v).stage = k.stage := rfl
@[simp] theorem setCqueue_inRange (k : Core) (q : QKey) (v : List CFlit) : (setCqueue k q v).inRange = k.inRange := rfl
@[simp] theorem setCqueue_blk (k : Core) (q : QKey) (v : List CFlit) : (setCqueue k q v).blk = k.blk := rfl
@[simp] theorem setCqueue_seqLate (k : Core) (q : QKey) (v : List CFlit) : (setCqueue k q v).seqLate = k.seqLate := rfl
@[simp] theorem setCqueue_banks (k : Core) (q : QKey) (v : List CFlit) : (setCqueue k q v).banks = k.banks := rfl
@[simp] theorem setCqueue_task (k : Core) (q : QKey) (v : List CFlit) : (setCqueue k q v).task = k.task := rfl
@[simp] theorem setCqueue_lastPc (k : Core) (q : QKey) (v : List CFlit) : (setCqueue k q v).lastPc = k.lastPc := rfl
@[simp] theorem setCqueue_chtab (k : Core) (q : QKey) (v : List CFlit) : (setCqueue k q v).chtab = k.chtab := rfl
@[simp] theorem setCqueue_store (k : Core) (q : QKey) (v : List CFlit) : (setCqueue k q v).store = k.store := rfl
@[simp] theorem setCqueue_conts (k : Core) (q : QKey) (v : List CFlit) : (setCqueue k q v).conts = k.conts := rfl
@[simp] theorem setCqueue_outq (k : Core) (q : QKey) (v : List CFlit) : (setCqueue k q v).outq = k.outq := rfl
@[simp] theorem setCqueue_doneChains (k : Core) (q : QKey) (v : List CFlit) : (setCqueue k q v).doneChains = k.doneChains := rfl
@[simp] theorem setCqueue_barriers (k : Core) (q : QKey) (v : List CFlit) : (setCqueue k q v).barriers = k.barriers := rfl
@[simp] theorem setCqueue_arrivals (k : Core) (q : QKey) (v : List CFlit) : (setCqueue k q v).arrivals = k.arrivals := rfl
@[simp] theorem setCqueue_shapes (k : Core) (q : QKey) (v : List CFlit) : (setCqueue k q v).shapes = k.shapes := rfl
@[simp] theorem setCqueue_ags (k : Core) (q : QKey) (v : List CFlit) : (setCqueue k q v).ags = k.ags := rfl
@[simp] theorem setCqueue_drawn (k : Core) (q : QKey) (v : List CFlit) : (setCqueue k q v).drawn = k.drawn := rfl
@[simp] theorem setCqueue_nodes (k : Core) (q : QKey) (v : List CFlit) : (setCqueue k q v).nodes = k.nodes := rfl
@[simp] theorem setCqueue_routers (k : Core) (q : QKey) (v : List CFlit) : (setCqueue k q v).routers = k.routers := rfl
@[simp] theorem setCqueue_dscope (k : Core) (q : QKey) (v : List CFlit) : (setCqueue k q v).dscope = k.dscope := rfl
@[simp] theorem setCqueue_mts (k : Core) (q : QKey) (v : List CFlit) : (setCqueue k q v).mts = k.mts := rfl
@[simp] theorem setCqueue_queues (k : Core) (q : QKey) (v : List CFlit) : (setCqueue k q v).queues = k.queues := rfl
@[simp] theorem setCqueue_rings (k : Core) (q : QKey) (v : List CFlit) : (setCqueue k q v).rings = k.rings := rfl
@[simp] theorem setCqueue_extra (k : Core) (q : QKey) (v : List CFlit) : (setCqueue k q v).extra = k.extra := rfl
@[simp] theorem setCqueue_pool (k : Core) (q : QKey) (v : List CFlit) : (setCqueue k q v).pool = k.pool := rfl
@[simp] theorem setCqueue_grammar (k : Core) (q : QKey) (v : List CFlit) : (setCqueue k q v).grammar = k.grammar := rfl
@[simp] theorem setCqueue_parsers (k : Core) (q : QKey) (v : List CFlit) : (setCqueue k q v).parsers = k.parsers := rfl
@[simp] theorem setCqueue_tiles (k : Core) (q : QKey) (v : List CFlit) : (setCqueue k q v).tiles = k.tiles := rfl
@[simp] theorem setCqueue_accum (k : Core) (q : QKey) (v : List CFlit) : (setCqueue k q v).accum = k.accum := rfl
@[simp] theorem setCqueue_sparse (k : Core) (q : QKey) (v : List CFlit) : (setCqueue k q v).sparse = k.sparse := rfl
@[simp] theorem setCqueue_claims (k : Core) (q : QKey) (v : List CFlit) : (setCqueue k q v).claims = k.claims := rfl
@[simp] theorem setCqueue_graphs (k : Core) (q : QKey) (v : List CFlit) : (setCqueue k q v).graphs = k.graphs := rfl
@[simp] theorem setCqueue_armTurn (k : Core) (q : QKey) (v : List CFlit) : (setCqueue k q v).armTurn = k.armTurn := rfl
@[simp] theorem setCqueue_lastAct (k : Core) (q : QKey) (v : List CFlit) : (setCqueue k q v).lastAct = k.lastAct := rfl
@[simp] theorem setCqueue_frozen (k : Core) (q : QKey) (v : List CFlit) : (setCqueue k q v).frozen = k.frozen := rfl
@[simp] theorem setCqueue_flagsNow (k : Core) (q : QKey) (v : List CFlit) : (setCqueue k q v).flagsNow = k.flagsNow := rfl
@[simp] theorem setCqueue_dropNow (k : Core) (q : QKey) (v : List CFlit) : (setCqueue k q v).dropNow = k.dropNow := rfl
@[simp] theorem setCqueue_cntNow (k : Core) (q : QKey) (v : List CFlit) : (setCqueue k q v).cntNow = k.cntNow := rfl
@[simp] theorem setCqueue_confAt (k : Core) (q : QKey) (v : List CFlit) : (setCqueue k q v).confAt = k.confAt := rfl
@[simp] theorem setCqueue_tabTurn (k : Core) (q : QKey) (v : List CFlit) : (setCqueue k q v).tabTurn = k.tabTurn := rfl
@[simp] theorem setCqueue_actTurn (k : Core) (q : QKey) (v : List CFlit) : (setCqueue k q v).actTurn = k.actTurn := rfl
@[simp] theorem setCqueue_folded (k : Core) (q : QKey) (v : List CFlit) : (setCqueue k q v).folded = k.folded := rfl
@[simp] theorem setCqueue_foldLast (k : Core) (q : QKey) (v : List CFlit) : (setCqueue k q v).foldLast = k.foldLast := rfl

@[simp] theorem modRouter_holder (k : Core) (r : RouterId) (f : Router → Router) : (modRouter k r f).holder = k.holder := rfl
@[simp] theorem modRouter_halted (k : Core) (r : RouterId) (f : Router → Router) : (modRouter k r f).halted = k.halted := rfl
@[simp] theorem modRouter_resetting (k : Core) (r : RouterId) (f : Router → Router) : (modRouter k r f).resetting = k.resetting := rfl
@[simp] theorem modRouter_guardV (k : Core) (r : RouterId) (f : Router → Router) : (modRouter k r f).guardV = k.guardV := rfl
@[simp] theorem modRouter_team (k : Core) (r : RouterId) (f : Router → Router) : (modRouter k r f).team = k.team := rfl
@[simp] theorem modRouter_inTeam (k : Core) (r : RouterId) (f : Router → Router) : (modRouter k r f).inTeam = k.inTeam := rfl
@[simp] theorem modRouter_finished (k : Core) (r : RouterId) (f : Router → Router) : (modRouter k r f).finished = k.finished := rfl
@[simp] theorem modRouter_stage (k : Core) (r : RouterId) (f : Router → Router) : (modRouter k r f).stage = k.stage := rfl
@[simp] theorem modRouter_inRange (k : Core) (r : RouterId) (f : Router → Router) : (modRouter k r f).inRange = k.inRange := rfl
@[simp] theorem modRouter_blk (k : Core) (r : RouterId) (f : Router → Router) : (modRouter k r f).blk = k.blk := rfl
@[simp] theorem modRouter_seqLate (k : Core) (r : RouterId) (f : Router → Router) : (modRouter k r f).seqLate = k.seqLate := rfl
@[simp] theorem modRouter_banks (k : Core) (r : RouterId) (f : Router → Router) : (modRouter k r f).banks = k.banks := rfl
@[simp] theorem modRouter_task (k : Core) (r : RouterId) (f : Router → Router) : (modRouter k r f).task = k.task := rfl
@[simp] theorem modRouter_lastPc (k : Core) (r : RouterId) (f : Router → Router) : (modRouter k r f).lastPc = k.lastPc := rfl
@[simp] theorem modRouter_chtab (k : Core) (r : RouterId) (f : Router → Router) : (modRouter k r f).chtab = k.chtab := rfl
@[simp] theorem modRouter_store (k : Core) (r : RouterId) (f : Router → Router) : (modRouter k r f).store = k.store := rfl
@[simp] theorem modRouter_conts (k : Core) (r : RouterId) (f : Router → Router) : (modRouter k r f).conts = k.conts := rfl
@[simp] theorem modRouter_outq (k : Core) (r : RouterId) (f : Router → Router) : (modRouter k r f).outq = k.outq := rfl
@[simp] theorem modRouter_doneChains (k : Core) (r : RouterId) (f : Router → Router) : (modRouter k r f).doneChains = k.doneChains := rfl
@[simp] theorem modRouter_barriers (k : Core) (r : RouterId) (f : Router → Router) : (modRouter k r f).barriers = k.barriers := rfl
@[simp] theorem modRouter_arrivals (k : Core) (r : RouterId) (f : Router → Router) : (modRouter k r f).arrivals = k.arrivals := rfl
@[simp] theorem modRouter_shapes (k : Core) (r : RouterId) (f : Router → Router) : (modRouter k r f).shapes = k.shapes := rfl
@[simp] theorem modRouter_ags (k : Core) (r : RouterId) (f : Router → Router) : (modRouter k r f).ags = k.ags := rfl
@[simp] theorem modRouter_drawn (k : Core) (r : RouterId) (f : Router → Router) : (modRouter k r f).drawn = k.drawn := rfl
@[simp] theorem modRouter_nodes (k : Core) (r : RouterId) (f : Router → Router) : (modRouter k r f).nodes = k.nodes := rfl
@[simp] theorem modRouter_dscope (k : Core) (r : RouterId) (f : Router → Router) : (modRouter k r f).dscope = k.dscope := rfl
@[simp] theorem modRouter_mts (k : Core) (r : RouterId) (f : Router → Router) : (modRouter k r f).mts = k.mts := rfl
@[simp] theorem modRouter_queues (k : Core) (r : RouterId) (f : Router → Router) : (modRouter k r f).queues = k.queues := rfl
@[simp] theorem modRouter_cqueues (k : Core) (r : RouterId) (f : Router → Router) : (modRouter k r f).cqueues = k.cqueues := rfl
@[simp] theorem modRouter_rings (k : Core) (r : RouterId) (f : Router → Router) : (modRouter k r f).rings = k.rings := rfl
@[simp] theorem modRouter_extra (k : Core) (r : RouterId) (f : Router → Router) : (modRouter k r f).extra = k.extra := rfl
@[simp] theorem modRouter_pool (k : Core) (r : RouterId) (f : Router → Router) : (modRouter k r f).pool = k.pool := rfl
@[simp] theorem modRouter_grammar (k : Core) (r : RouterId) (f : Router → Router) : (modRouter k r f).grammar = k.grammar := rfl
@[simp] theorem modRouter_parsers (k : Core) (r : RouterId) (f : Router → Router) : (modRouter k r f).parsers = k.parsers := rfl
@[simp] theorem modRouter_tiles (k : Core) (r : RouterId) (f : Router → Router) : (modRouter k r f).tiles = k.tiles := rfl
@[simp] theorem modRouter_accum (k : Core) (r : RouterId) (f : Router → Router) : (modRouter k r f).accum = k.accum := rfl
@[simp] theorem modRouter_sparse (k : Core) (r : RouterId) (f : Router → Router) : (modRouter k r f).sparse = k.sparse := rfl
@[simp] theorem modRouter_claims (k : Core) (r : RouterId) (f : Router → Router) : (modRouter k r f).claims = k.claims := rfl
@[simp] theorem modRouter_graphs (k : Core) (r : RouterId) (f : Router → Router) : (modRouter k r f).graphs = k.graphs := rfl
@[simp] theorem modRouter_armTurn (k : Core) (r : RouterId) (f : Router → Router) : (modRouter k r f).armTurn = k.armTurn := rfl
@[simp] theorem modRouter_lastAct (k : Core) (r : RouterId) (f : Router → Router) : (modRouter k r f).lastAct = k.lastAct := rfl
@[simp] theorem modRouter_frozen (k : Core) (r : RouterId) (f : Router → Router) : (modRouter k r f).frozen = k.frozen := rfl
@[simp] theorem modRouter_flagsNow (k : Core) (r : RouterId) (f : Router → Router) : (modRouter k r f).flagsNow = k.flagsNow := rfl
@[simp] theorem modRouter_dropNow (k : Core) (r : RouterId) (f : Router → Router) : (modRouter k r f).dropNow = k.dropNow := rfl
@[simp] theorem modRouter_cntNow (k : Core) (r : RouterId) (f : Router → Router) : (modRouter k r f).cntNow = k.cntNow := rfl
@[simp] theorem modRouter_confAt (k : Core) (r : RouterId) (f : Router → Router) : (modRouter k r f).confAt = k.confAt := rfl
@[simp] theorem modRouter_tabTurn (k : Core) (r : RouterId) (f : Router → Router) : (modRouter k r f).tabTurn = k.tabTurn := rfl
@[simp] theorem modRouter_actTurn (k : Core) (r : RouterId) (f : Router → Router) : (modRouter k r f).actTurn = k.actTurn := rfl
@[simp] theorem modRouter_folded (k : Core) (r : RouterId) (f : Router → Router) : (modRouter k r f).folded = k.folded := rfl
@[simp] theorem modRouter_foldLast (k : Core) (r : RouterId) (f : Router → Router) : (modRouter k r f).foldLast = k.foldLast := rfl

/-! ## Reading back -/

theorem coreAt_modCore (s : State) (c c' : CoreId) (f : Core → Core) :
    coreAt (modCore s c f) c' = if c' = c then f (coreAt s c) else coreAt s c' := by
  unfold coreAt modCore
  split
  · next h => subst h; simp
  · next h => simp [at_put_ne _ _ _ _ (Ne.symm h)]

@[simp] theorem coreAt_modCore_self (s : State) (c : CoreId) (f : Core → Core) :
    coreAt (modCore s c f) c = f (coreAt s c) := by simp [coreAt_modCore]

theorem coreAt_modCore_ne (s : State) (c c' : CoreId) (f : Core → Core) (h : c' ≠ c) :
    coreAt (modCore s c f) c' = coreAt s c' := by simp [coreAt_modCore, h]

@[simp] theorem coreAt_modDie (s : State) (d : DieId) (f : Die → Die) (c : CoreId) : coreAt (modDie s d f) c = coreAt s c := rfl
@[simp] theorem coreAt_modLaunch (s : State) (n : Nat) (f : Launch → Launch) (c : CoreId) :
    coreAt (modLaunch s n f) c = coreAt s c := rfl
@[simp] theorem coreAt_modCtx (s : State) (n : Nat) (f : Ctx → Ctx) (c : CoreId) : coreAt (modCtx s n f) c = coreAt s c := rfl

theorem dieAt_modDie (s : State) (d d' : DieId) (f : Die → Die) :
    dieAt (modDie s d f) d' = if d' = d then f (dieAt s d) else dieAt s d' := by
  unfold dieAt modDie
  split
  · next h => subst h; simp
  · next h => simp [at_put_ne _ _ _ _ (Ne.symm h)]

@[simp] theorem dieAt_modCore (s : State) (c : CoreId) (f : Core → Core) (d : DieId) : dieAt (modCore s c f) d = dieAt s d := rfl

theorem bank_modBank (k : Core) (b b' : BankId) (f : RegBank → RegBank) :
    at' (modBank k b f).banks b' = if b' = b then f (at' k.banks b) else at' k.banks b' := by
  unfold modBank
  split
  · next h => subst h; simp
  · next h => simp [at_put_ne _ _ _ _ (Ne.symm h)]

theorem parser_modParser (k : Core) (p p' : ParserId) (f : Parser → Parser) :
    at' (modParser k p f).parsers p' = if p' = p then f (at' k.parsers p) else at' k.parsers p' := by
  unfold modParser
  split
  · next h => subst h; simp
  · next h => simp [at_put_ne _ _ _ _ (Ne.symm h)]

theorem ag_modAg (k : Core) (a a' : AgId) (f : Ag → Ag) :
    at' (modAg k a f).ags a' = if a' = a then f (at' k.ags a) else at' k.ags a' := by
  unfold modAg
  split
  · next h => subst h; simp
  · next h => simp [at_put_ne _ _ _ _ (Ne.symm h)]

theorem find_map_key {α β : Type} [DecidableEq β] (key : α → β) (a b : β) (f : α → α) (hf : ∀ x, key (f x) = key x)
    (g : α → α) (hg : ∀ x, g x = if key x = a then f x else x) (xs : List α) :
    (xs.map g).find? (fun x => key x == b) =
      if b = a then (xs.find? fun x => key x == a).map f else xs.find? fun x => key x == b := by
  have hk : ∀ x, key (g x) = key x := fun x => by rw [hg]; split <;> simp [hf]
  induction xs with
  | nil => simp
  | cons x xs ih =>
    simp only [List.map_cons, List.find?_cons, hk]
    by_cases hb : key x = b
    · subst hb
      simp only [beq_self_eq_true]
      by_cases ha : key x = a
      · simp [hg, ha]
      · simp [hg, ha]
    · have hb' : (key x == b) = false := by simpa using hb
      simp only [hb', ih]
      by_cases hba : b = a
      · subst hba; simp [hb']
      · simp [hba]

theorem nodeAt_modNode (k : Core) (pe pe' : PeId) (f : Node → Node) (hf : ∀ n, (f n).pe = n.pe) :
    nodeAt (modNode k pe f) pe' = if pe' = pe then (nodeAt k pe).map f else nodeAt k pe' :=
  find_map_key Node.pe pe pe' f hf _ (fun _ => rfl) k.nodes

theorem launchBy_modLaunch (s : State) (n m : Nat) (f : Launch → Launch) (hf : ∀ l, (f l).id = l.id) :
    launchBy (modLaunch s n f) m = if m = n then (launchBy s n).map f else launchBy s m :=
  find_map_key Launch.id n m f hf _ (fun _ => rfl) s.launches

theorem ctxBy_modCtx (s : State) (n m : Nat) (f : Ctx → Ctx) (hf : ∀ x, (f x).n = x.n) :
    ctxBy (modCtx s n f) m = if m = n then (ctxBy s n).map f else ctxBy s m :=
  find_map_key Ctx.n n m f hf _ (fun _ => rfl) s.ctxs

/-! ## Registers -/

theorem readX_zero (b : RegBank) : readX b 0 = 0 := rfl

theorem readX_writeX (b : RegBank) (r r' : Fin 32) (v : DWord) :
    readX (writeX b r v) r' = if r' = r ∧ r ≠ 0 then v else readX b r' := by
  by_cases h0 : r' = 0
  · subst h0
    have : ¬(0 = r ∧ r ≠ 0) := fun h => h.2 h.1.symm
    simp [readX, this]
  · simp only [readX, h0, if_false, writeX]
    by_cases hr : r = 0
    · simp [hr]
    · by_cases he : r' = r
      · subst he; simp [hr]
      · simp [hr, he, at_put_ne _ _ _ _ (Ne.symm he)]

end Sys2Proof.Laws
end

