-- ==== Sys2Proof/Laws/Frames.lean ====
section
/-! SUPPORT. What the shared operations of the words leave alone: each of them, once. -/

namespace Sys2Proof.Laws
open Sys2Proof Sys2Proof.Machine

theorem outside_refl (c : CoreId) (s : State) : OutsideCore c s s := by simp [OutsideCore]

theorem outside_trans {c : CoreId} {s t u : State} (h : OutsideCore c s t) (g : OutsideCore c t u) : OutsideCore c s u := by
  obtain ⟨h0, h1, h2, h3, h4, h5, h6, h7, h8, h9, h10, h11, h12⟩ := h
  obtain ⟨g0, g1, g2, g3, g4, g5, g6, g7, g8, g9, g10, g11, g12⟩ := g
  exact ⟨fun a => (g0 a).trans (h0 a), fun c' hc => (g1 c' hc).trans (h1 c' hc), g2.trans h2, g3.trans h3, g4.trans h4,
    g5.trans h5, g6.trans h6, g7.trans h7, g8.trans h8, g9.trans h9, g10.trans h10, g11.trans h11, g12.trans h12⟩

theorem outside_modCore (s : State) (c : CoreId) (f : Core → Core) : OutsideCore c s (modCore s c f) := by
  simp +contextual [OutsideCore, coreAt_modCore]

theorem outside_mergeFlags (s : State) (c : CoreId) (f : FlagBits) : OutsideCore c s (mergeFlags s c f) :=
  outside_modCore s c _

theorem outside_countEvent (s : State) (c : CoreId) (n : Fin 8) : OutsideCore c s (countEvent s c n) :=
  outside_modCore s c _

theorem outside_writeDst (s : State) (e : Env) (o : Operand) (void : Bool) (v : DWord) (fmt : Fmt) :
    OutsideCore e.core s (writeDst s e o void v fmt) := by
  unfold writeDst
  repeat' split
  all_goals first | exact outside_refl _ _ | exact outside_modCore _ _ _

theorem outside_advance (s : State) (e : Env) (b : Bool) : OutsideCore e.core s (advance e b s) := by
  unfold advance
  split
  all_goals first | exact outside_refl _ _ | exact outside_modCore _ _ _

theorem outside_written (s : State) (e : Env) (d : Operand) (srcs : List Operand) (fmt : Fmt) (v : DWord) (fl : FlagBits) :
    OutsideCore e.core s (written s e d srcs fmt v fl) := by
  unfold written
  split
  · exact outside_trans (outside_writeDst _ _ _ _ _ _) (outside_advance _ _ _)
  · exact outside_trans (outside_trans (outside_writeDst _ _ _ _ _ _) (outside_mergeFlags _ _ _)) (outside_advance _ _ _)

theorem outside_converted (s : State) (e : Env) (f : RegForm) (srcs : List Operand) (x : FVal) (r : DWord × FlagBits) :
    OutsideCore e.core s (converted s e f srcs x r) := by
  simp only [converted]
  split
  · exact outside_trans (outside_writeDst _ _ _ _ _ _) (outside_advance _ _ _)
  split
  · exact outside_trans (outside_trans (outside_trans (outside_writeDst _ _ _ _ _ _) (outside_mergeFlags _ _ _))
      (outside_modCore _ _ _)) (outside_advance _ _ _)
  · exact outside_trans (outside_trans (outside_writeDst _ _ _ _ _ _) (outside_mergeFlags _ _ _)) (outside_advance _ _ _)

/-- Noting that a unit has moved changes nothing else of its core. -/
@[simp] theorem coreAt_active (s : State) (c : CoreId) : coreAt (active s c) c = { coreAt s c with lastAct := s.now } := by
  simp [active]

/-- The agent whose turn it is is one of those that are ready. -/
theorem nextTurn_ready {n : Nat} {last p : Fin (n + 1)} {ok : Fin (n + 1) → Bool} (h : nextTurn last ok = some p) :
    ok p = true := List.find?_some h

/-! ## A bank never waits at its own sources -/

theorem lPending_bank {s : State} {e : Env} {b : BankId} (h : e.agent = .bank b) (o : Operand) : lPending s e o = false := by
  unfold lPending; rw [h]

theorem here_bank {s : State} {e : Env} {b : BankId} (h : e.agent = .bank b) (os : List Operand) : Here s e os := by
  simp [Here, lPending_bank h]

theorem predicate_bank {s : State} {e : Env} {b : BankId} (h : e.agent = .bank b) : predicate s e = true := by
  simp [predicate, firingOf, h]

theorem redone_bank {s : State} {e : Env} {b : BankId} (h : e.agent = .bank b) : redone s e = false := by
  simp [redone, firingOf, h]

theorem redone_parser {s : State} {e : Env} {p : ParserId} (h : e.agent = .parser p) : redone s e = false := by
  simp [redone, firingOf, h]

theorem suppressed_bank {s : State} {e : Env} {b : BankId} (h : e.agent = .bank b) (os : List Operand) :
    suppressed s e os = false := by
  have hv : ∀ o, (readSrc s e o).void = false := by
    intro o; unfold readSrc; cases o <;> simp [h, Src.plain]
  simp [suppressed, hv, predicate_bank h]

/-! ## Writing in each context -/

theorem writeDst_bank {s : State} {e : Env} {b : BankId} (h : e.agent = .bank b) (d : Operand) (void : Bool) (v : DWord)
    (fmt : Fmt) : writeDst s e d void v fmt =
      match d with | .x r => modCore s e.core fun k => modBank k b (writeX · r v) | _ => s := by
  cases d <;> simp only [writeDst, h]

theorem advance_bank {s : State} {e : Env} {b : BankId} (h : e.agent = .bank b) (done : Bool) :
    advance e done s = modCore s e.core fun k => { k with task := k.task.map fun t => { t with pc := t.pc + 8 } } := by
  simp only [advance, h]

theorem writeDst_node {s : State} {e : Env} {pe : PeId} (h : e.agent = .node pe) (d : Operand) (void : Bool) (v : DWord)
    (fmt : Fmt) : writeDst s e d void v fmt =
      modCore s e.core fun k => modNode k pe (nodeWrite · d void (v.setWidth 32) fmt) := by
  simp only [writeDst, h]

theorem advance_node {s : State} {e : Env} {pe : PeId} (h : e.agent = .node pe) (done : Bool) :
    advance e done s = modCore s e.core fun k => modNode k pe fun n =>
      { n with firing := n.firing.map fun f => { f with idx := f.idx + 1 } } := by
  simp only [advance, h]

theorem nodeWrite_pe (n : Node) (o : Operand) (void : Bool) (v : Word) (fmt : Fmt) : (nodeWrite n o void v fmt).pe = n.pe := by
  unfold nodeWrite
  repeat' split
  all_goals rfl

theorem nodeWrite_preds (n : Node) (o : Operand) (void : Bool) (v : Word) (fmt : Fmt) :
    (nodeWrite n o void v fmt).firing.map (·.preds) = n.firing.map (·.preds) := by
  unfold nodeWrite
  repeat' split
  all_goals simp_all [addOut]

/-- Writing a destination leaves the predicate stack alone. -/
theorem predicate_writeDst (s : State) (e : Env) (o : Operand) (void : Bool) (v : DWord) (fmt : Fmt) :
    predicate (writeDst s e o void v fmt) e = predicate s e := by
  cases h : e.agent with
  | node pe =>
    simp only [predicate, firingOf, writeDst, h, coreAt_modCore_self]
    rw [nodeAt_modNode _ _ _ _ (fun n => nodeWrite_pe n _ _ _ _)]
    simp only [if_true]
    cases nodeAt (coreAt s e.core) pe with
    | none => rfl
    | some n =>
      have := nodeWrite_preds n o void (v.setWidth 32) fmt
      cases hn : n.firing <;> cases hw : (nodeWrite n o void (v.setWidth 32) fmt).firing <;> simp_all
  | _ => simp [predicate, firingOf, h]

end Sys2Proof.Laws
end

