-- ==== Sys2Proof/Laws/Memory.lean ====
section
/-! SUPPORT. Memory: a read after a write, and that every operation keeps the canonical form. -/

namespace Sys2Proof.Laws
open Sys2Proof Sys2Proof.Machine

/-! ## The canonical form -/

theorem wf_cons {k : Nat} {v : Byte} {r : Memory} : Memory.wf ((k, v) :: r) = true ↔
    v ≠ 0 ∧ memAbove k r = true ∧ Memory.wf r = true := by
  simp [Memory.wf, and_assoc]

/-- In canonical form every location of the rest lies above the first. -/
theorem above_all {r : Memory} : ∀ {k : Nat}, memAbove k r = true → Memory.wf r = true → ∀ e ∈ r, k < e.1 := by
  induction r with
  | nil => simp
  | cons e r ih =>
    intro k hk hw x hx
    obtain ⟨a, v⟩ := e
    simp only [memAbove, decide_eq_true_eq] at hk
    rcases List.mem_cons.1 hx with rfl | hx
    · exact hk
    · exact lt_trans hk (ih (wf_cons.1 hw).2.1 (wf_cons.1 hw).2.2 _ hx)

theorem above_of {r : Memory} {k : Nat} (h : ∀ e ∈ r, k < e.1) : memAbove k r = true := by
  cases r with
  | nil => rfl
  | cons e r => simpa [memAbove] using h e

/-- A read below every location reads 0. -/
theorem get_above {r : Memory} {k a : Nat} (hk : memAbove k r = true) (h : a ≤ k) : memGet r a = 0 := by
  cases r with
  | nil => rfl
  | cons e r =>
    obtain ⟨b, v⟩ := e
    simp only [memAbove, decide_eq_true_eq] at hk
    simp only [memGet, if_pos (lt_of_le_of_lt h hk)]

theorem set_mem {m : Memory} {a : Nat} {v : Byte} {e : Nat × Byte} (h : e ∈ memSet m a v) : e = (a, v) ∨ e ∈ m := by
  induction m with
  | nil =>
    unfold memSet at h
    split at h <;> simp_all
  | cons x r ih =>
    obtain ⟨k, w⟩ := x
    unfold memSet at h
    split at h
    · split at h <;> simp_all
    · split at h
      · split at h <;> simp_all
        rcases h with h | h <;> simp [h]
      · rcases List.mem_cons.1 h with h | h
        · simp [h]
        · rcases ih h with h | h <;> simp [h]

theorem memSet_wf {m : Memory} (a : Nat) (v : Byte) (h : Memory.wf m = true) : Memory.wf (memSet m a v) = true := by
  induction m with
  | nil => unfold memSet; split <;> simp_all [Memory.wf, memAbove]
  | cons x r ih =>
    obtain ⟨k, w⟩ := x
    obtain ⟨h0, h1, h2⟩ := wf_cons.1 h
    unfold memSet
    split
    · rename_i hlt
      split
      · exact h
      · exact wf_cons.2 ⟨‹_›, by simpa [memAbove] using hlt, h⟩
    · rename_i hge
      split
      · rename_i heq
        split
        · exact h2
        · exact wf_cons.2 ⟨‹_›, by rw [heq]; exact h1, h2⟩
      · rename_i hne
        refine wf_cons.2 ⟨h0, above_of fun e he => ?_, ih h2⟩
        rcases set_mem he with rfl | he
        · simp only; omega
        · exact above_all h1 h2 e he

theorem memSetN_wf {bs : List Byte} : ∀ {m : Memory} (a : Nat), Memory.wf m = true → Memory.wf (memSetN m a bs) = true := by
  induction bs with
  | nil => intro m a h; exact h
  | cons b bs ih => intro m a h; exact ih _ (memSet_wf a b h)

theorem filter_wf {m : Memory} (p : Nat × Byte → Bool) (h : Memory.wf m = true) : Memory.wf (m.filter p) = true := by
  induction m with
  | nil => rfl
  | cons x r ih =>
    obtain ⟨k, w⟩ := x
    obtain ⟨h0, h1, h2⟩ := wf_cons.1 h
    rw [List.filter_cons]
    split
    · exact wf_cons.2 ⟨h0, above_of fun e he => above_all h1 h2 e (List.mem_filter.1 he).1, ih h2⟩
    · exact ih h2

theorem memZero_wf {m : Memory} (lo hi : Nat) (h : Memory.wf m = true) : Memory.wf (memZero m lo hi) = true := filter_wf _ h

theorem zeroOwn_wf {m : Memory} (c : CoreId) (h : Memory.wf m = true) : Memory.wf (zeroOwn m c) = true := by
  unfold zeroOwn
  exact memZero_wf _ _ (memZero_wf _ _ (memZero_wf _ _ h))

theorem foldSet_wf {α : Type} (f : α → Nat) (g : α → Byte) {xs : List α} : ∀ {m : Memory}, Memory.wf m = true →
    Memory.wf (xs.foldl (fun m y => memSet m (f y) (g y)) m) = true := by
  induction xs with
  | nil => intro m h; exact h
  | cons x xs ih => intro m h; exact ih (memSet_wf _ _ h)

/-! ## Read after write -/

/-- A byte read after a write of one byte. -/
theorem memGet_memSet {m : Memory} (a : Nat) (v : Byte) (b : Nat) (h : Memory.wf m = true) :
    memGet (memSet m a v) b = if b = a then v else memGet m b := by
  induction m with
  | nil =>
    unfold memSet
    by_cases hv : v = 0 <;> simp only [hv, if_true, if_false, memGet] <;> repeat' split
    all_goals first | rfl | omega
  | cons x r ih =>
    obtain ⟨k, w⟩ := x
    obtain ⟨h0, h1, h2⟩ := wf_cons.1 h
    have hz : ∀ c, c ≤ k → memGet r c = 0 := fun c hc => get_above h1 hc
    unfold memSet
    split
    · rename_i hlt
      by_cases hv : v = 0
      · rw [if_pos hv, hv]
        by_cases hb : b = a
        · rw [if_pos hb]; simp only [memGet]; rw [if_pos (by omega)]
        · rw [if_neg hb]
      · rw [if_neg hv]
        simp only [memGet]
        repeat' split
        all_goals first | rfl | omega
    · rename_i hge
      split
      · rename_i heq
        subst heq
        by_cases hv : v = 0
        · rw [if_pos hv, hv]
          by_cases hb : b = a
          · rw [if_pos hb, hb]; exact hz a le_rfl
          · rw [if_neg hb]
            simp only [memGet]
            rw [if_neg hb]
            split
            · rename_i hl; exact hz b (le_of_lt hl)
            · rfl
        · rw [if_neg hv]
          simp only [memGet]
          repeat' split
          all_goals first | rfl | omega
      · rename_i hne
        simp only [memGet, ih h2]
        by_cases hb : b = a
        · subst hb
          rw [if_neg hge, if_neg hne, if_pos rfl, if_pos rfl]
        · simp only [if_neg hb]

/-- A byte outside a range written is as before. -/
theorem memGet_memSetN_out {bs : List Byte} : ∀ {m : Memory} (a b : Nat), Memory.wf m = true →
    (b < a ∨ a + bs.length ≤ b) → memGet (memSetN m a bs) b = memGet m b := by
  induction bs with
  | nil => intros; rfl
  | cons v bs ih =>
    intro m a b h hb
    simp only [List.length_cons] at hb
    rw [memSetN, ih _ _ (memSet_wf a v h) (by omega), memGet_memSet _ _ _ h, if_neg (by omega)]

/-- The bytes of a range read after they were written. -/
theorem memGetN_memSetN {bs : List Byte} : ∀ {m : Memory} (a : Nat), Memory.wf m = true →
    memGetN (memSetN m a bs) a bs.length = bs := by
  induction bs with
  | nil => intros; rfl
  | cons v bs ih =>
    intro m a h
    simp only [List.length_cons, memGetN, memSetN]
    rw [ih _ (memSet_wf a v h), memGet_memSetN_out _ _ (memSet_wf a v h) (by omega), memGet_memSet _ _ _ h, if_pos rfl]

/-- Reading a range only asks for its bytes. -/
theorem memGetN_congr {m m' : Memory} {n : Nat} : ∀ {a : Nat}, (∀ x, a ≤ x → x < a + n → memGet m x = memGet m' x) →
    memGetN m a n = memGetN m' a n := by
  induction n with
  | zero => intros; rfl
  | succ n ih =>
    intro a h
    rw [memGetN, memGetN, h a le_rfl (by omega), ih fun x h1 h2 => h x (by omega) (by omega)]

theorem memGetN_length (m : Memory) (a n : Nat) : (memGetN m a n).length = n := by
  induction n generalizing a with
  | zero => rfl
  | succ n ih => simp [memGetN, ih]

/-- Memory with a range zeroed. -/
theorem memGet_filter {m : Memory} (p : Nat → Bool) (b : Nat) (h : Memory.wf m = true) :
    memGet (m.filter fun e => p e.1) b = if p b then memGet m b else 0 := by
  induction m with
  | nil => simp [memGet]
  | cons x r ih =>
    obtain ⟨k, w⟩ := x
    obtain ⟨h0, h1, h2⟩ := wf_cons.1 h
    have hz : ∀ c, c ≤ k → memGet r c = 0 := fun c hc => get_above h1 hc
    rw [List.filter_cons]
    by_cases hp : p k = true
    · rw [if_pos hp]
      simp only [memGet, ih h2]
      by_cases hb : b = k
      · subst hb; simp [hp]
      · by_cases hl : b < k <;> simp [hb, hl]
    · rw [if_neg (by simpa using hp), ih h2]
      simp only [memGet]
      by_cases hb : b = k
      · subst hb; simp [hp]
      · by_cases hl : b < k
        · simp [hl, hz b (le_of_lt hl)]
        · simp [hl, hb]

theorem memGet_memZero {m : Memory} (lo hi b : Nat) (h : Memory.wf m = true) :
    memGet (memZero m lo hi) b = if lo ≤ b ∧ b < hi then 0 else memGet m b := by
  unfold memZero
  rw [memGet_filter (fun a => a < lo || hi ≤ a) b h]
  by_cases h1 : lo ≤ b ∧ b < hi
  · rw [if_pos h1, if_neg]; simp; omega
  · rw [if_neg h1, if_pos]; simp; omega

/-- The reset memory is canonical. -/
theorem reset_memOk : State.reset.memOk := rfl

end Sys2Proof.Laws
end

