-- ==== Sys2Proof/Laws/PerInstr.lean ====
section
/-! SUPPORT. Statements about every instruction as syntax, a lemma for each constructor. -/

namespace Sys2Proof.Laws.F
open Sys2Proof

/-- The word of an instruction has an opcode other than 0x00, which none is assigned, and the instruction is no command of a
port (R209, R425). -/
def Statement (i : Instr) : Prop := ∀ w, encode i = some w → hiBits 8 56 w ≠ 0 ∧ encodeCommand i = none

theorem of_word {i : Instr} {op : BitVec 8} {r : BitVec 56} (h : encode i = some (wordOf op r)) (h0 : op ≠ 0)
    (hc : encodeCommand i = none) : Statement i := by
  intro w hw
  rw [h] at hw
  refine ⟨?_, hc⟩
  rw [← Option.some.inj hw]
  have : hiBits 8 56 (wordOf op r) = op := Laws.hi_append op r
  rwa [this]

theorem of_none {i : Instr} (h : encode i = none) : Statement i := fun w hw => by rw [h] at hw; cases hw

theorem add (f : RegForm) : Statement (.add f) := of_word rfl (by decide) rfl
theorem addi (f : ImmForm) : Statement (.addi f) := of_word rfl (by decide) rfl
theorem sub (f : RegForm) : Statement (.sub f) := of_word rfl (by decide) rfl
theorem mul (f : RegForm) : Statement (.mul f) := of_word rfl (by decide) rfl
theorem mulh (f : RegForm) : Statement (.mulh f) := of_word rfl (by decide) rfl
theorem muli (f : ImmForm) : Statement (.muli f) := of_word rfl (by decide) rfl
theorem div (f : RegForm) : Statement (.div f) := of_word rfl (by decide) rfl
theorem rem (f : RegForm) : Statement (.rem f) := of_word rfl (by decide) rfl
theorem and (f : RegForm) : Statement (.and f) := of_word rfl (by decide) rfl
theorem andi (f : ImmForm) : Statement (.andi f) := of_word rfl (by decide) rfl
theorem or (f : RegForm) : Statement (.or f) := of_word rfl (by decide) rfl
theorem ori (f : ImmForm) : Statement (.ori f) := of_word rfl (by decide) rfl
theorem xor (f : RegForm) : Statement (.xor f) := of_word rfl (by decide) rfl
theorem xori (f : ImmForm) : Statement (.xori f) := of_word rfl (by decide) rfl
theorem andn (f : RegForm) : Statement (.andn f) := of_word rfl (by decide) rfl
theorem shl (f : RegForm) : Statement (.shl f) := of_word rfl (by decide) rfl
theorem shli (f : ImmForm) : Statement (.shli f) := of_word rfl (by decide) rfl
theorem shr (f : RegForm) : Statement (.shr f) := of_word rfl (by decide) rfl
theorem shri (f : ImmForm) : Statement (.shri f) := of_word rfl (by decide) rfl
theorem sar (f : RegForm) : Statement (.sar f) := of_word rfl (by decide) rfl
theorem sari (f : ImmForm) : Statement (.sari f) := of_word rfl (by decide) rfl
theorem min (f : RegForm) : Statement (.min f) := of_word rfl (by decide) rfl
theorem max (f : RegForm) : Statement (.max f) := of_word rfl (by decide) rfl
theorem clz (f : RegForm) : Statement (.clz f) := of_word rfl (by decide) rfl
theorem popc (f : RegForm) : Statement (.popc f) := of_word rfl (by decide) rfl
theorem bfx (f : RegForm) : Statement (.bfx f) := of_word rfl (by decide) rfl
theorem bfi (f : RegForm) : Statement (.bfi f) := of_word rfl (by decide) rfl
theorem cmp (f : RegForm) : Statement (.cmp f) := of_word rfl (by decide) rfl
theorem cmpi (f : ImmForm) : Statement (.cmpi f) := of_word rfl (by decide) rfl
theorem mov (f : RegForm) : Statement (.mov f) := of_word rfl (by decide) rfl
theorem movi (f : ImmForm) : Statement (.movi f) := of_word rfl (by decide) rfl
theorem fadd (f : RegForm) : Statement (.fadd f) := of_word rfl (by decide) rfl
theorem fsub (f : RegForm) : Statement (.fsub f) := of_word rfl (by decide) rfl
theorem fmul (f : RegForm) : Statement (.fmul f) := of_word rfl (by decide) rfl
theorem fma (f : RegForm) : Statement (.fma f) := of_word rfl (by decide) rfl
theorem fmin (f : RegForm) : Statement (.fmin f) := of_word rfl (by decide) rfl
theorem fmax (f : RegForm) : Statement (.fmax f) := of_word rfl (by decide) rfl
theorem fcmp (f : RegForm) : Statement (.fcmp f) := of_word rfl (by decide) rfl
theorem fsgn (f : RegForm) : Statement (.fsgn f) := of_word rfl (by decide) rfl
theorem frcp (f : RegForm) : Statement (.frcp f) := of_word rfl (by decide) rfl
theorem frsq (f : RegForm) : Statement (.frsq f) := of_word rfl (by decide) rfl
theorem fexp2 (f : RegForm) : Statement (.fexp2 f) := of_word rfl (by decide) rfl
theorem flog2 (f : RegForm) : Statement (.flog2 f) := of_word rfl (by decide) rfl
theorem frnd (f : RegForm) : Statement (.frnd f) := of_word rfl (by decide) rfl
theorem cvt (f : RegForm) : Statement (.cvt f) := of_word rfl (by decide) rfl
theorem cvts (f : RegForm) : Statement (.cvts f) := of_word rfl (by decide) rfl
theorem fcls (f : RegForm) : Statement (.fcls f) := of_word rfl (by decide) rfl
theorem selt (f : RegForm) : Statement (.selt f) := of_word rfl (by decide) rfl
theorem steer (f : RegForm) : Statement (.steer f) := of_word rfl (by decide) rfl
theorem gate (f : RegForm) : Statement (.gate f) := of_word rfl (by decide) rfl
theorem merge (f : RegForm) : Statement (.merge f) := of_word rfl (by decide) rfl
theorem emit (f : RegForm) : Statement (.emit f) := of_word rfl (by decide) rfl
theorem mark (f : RegForm) : Statement (.mark f) := of_word rfl (by decide) rfl
theorem acc (f : RegForm) : Statement (.acc f) := of_word rfl (by decide) rfl
theorem tagset (f : RegForm) : Statement (.tagset f) := of_word rfl (by decide) rfl
theorem tagchk (f : RegForm) : Statement (.tagchk f) := of_word rfl (by decide) rfl
theorem pushp (f : RegForm) : Statement (.pushp f) := of_word rfl (by decide) rfl
theorem popp (f : RegForm) : Statement (.popp f) := of_word rfl (by decide) rfl
theorem bnd (f : RegForm) : Statement (.bnd f) := of_word rfl (by decide) rfl
theorem sphdr (f : RegForm) : Statement (.sphdr f) := of_word rfl (by decide) rfl
theorem isect (f : RegForm) : Statement (.isect f) := of_word rfl (by decide) rfl
theorem cturn (f : RegForm) : Statement (.cturn f) := of_word rfl (by decide) rfl
theorem void (f : RegForm) : Statement (.void f) := of_word rfl (by decide) rfl
theorem ld (f : RegForm) : Statement (.ld f) := of_word rfl (by decide) rfl
theorem ldi (f : ImmForm) : Statement (.ldi f) := of_word rfl (by decide) rfl
theorem st (f : RegForm) : Statement (.st f) := of_word rfl (by decide) rfl
theorem sti (f : ImmForm) : Statement (.sti f) := of_word rfl (by decide) rfl
theorem ldv (f : RegForm) : Statement (.ldv f) := of_word rfl (by decide) rfl
theorem stv (f : RegForm) : Statement (.stv f) := of_word rfl (by decide) rfl
theorem advv (f : RegForm) : Statement (.advv f) := of_word rfl (by decide) rfl
theorem reclv (f : RegForm) : Statement (.reclv f) := of_word rfl (by decide) rfl
theorem atom (f : RegForm) : Statement (.atom f) := of_word rfl (by decide) rfl
theorem cas (f : RegForm) : Statement (.cas f) := of_word rfl (by decide) rfl
theorem append (f : RegForm) : Statement (.append f) := of_word rfl (by decide) rfl
theorem ticket (f : RegForm) : Statement (.ticket f) := of_word rfl (by decide) rfl
theorem gath (f : RegForm) : Statement (.gath f) := of_word rfl (by decide) rfl
theorem scat (f : RegForm) : Statement (.scat f) := of_word rfl (by decide) rfl
theorem fence (f : RegForm) : Statement (.fence f) := of_word rfl (by decide) rfl
theorem shape (f : RegForm) : Statement (.shape f) := of_word rfl (by decide) rfl
theorem br (f : BrForm) : Statement (.br f) := of_word rfl (by decide) rfl
theorem brc (f : BrForm) : Statement (.brc f) := of_word rfl (by decide) rfl
theorem call (f : BrForm) : Statement (.call f) := of_word rfl (by decide) rfl
theorem ret (f : RegForm) : Statement (.ret f) := of_word rfl (by decide) rfl
theorem jtab (f : RegForm) : Statement (.jtab f) := of_word rfl (by decide) rfl
theorem tend (f : RegForm) : Statement (.tend f) := of_word rfl (by decide) rfl
theorem done (f : RegForm) : Statement (.done f) := of_word rfl (by decide) rfl
theorem tpost (f : RegForm) : Statement (.tpost f) := of_word rfl (by decide) rfl
theorem msend (f : RegForm) : Statement (.msend f) := of_word rfl (by decide) rfl
theorem wait (f : WaitForm) : Statement (.wait f) := of_word rfl (by decide) rfl
theorem bara (f : RegForm) : Statement (.bara f) := of_word rfl (by decide) rfl
theorem barw (f : RegForm) : Statement (.barw f) := of_word rfl (by decide) rfl
theorem gbar (f : RegForm) : Statement (.gbar f) := of_word rfl (by decide) rfl
theorem mfs (f : ImmForm) : Statement (.mfs f) := of_word rfl (by decide) rfl
theorem mts (f : ImmForm) : Statement (.mts f) := of_word rfl (by decide) rfl
theorem range (f : RegForm) : Statement (.range f) := of_word rfl (by decide) rfl
theorem trap (f : ImmForm) : Statement (.trap f) := of_word rfl (by decide) rfl
theorem nop (f : RegForm) : Statement (.nop f) := of_word rfl (by decide) rfl
theorem seqwt (f : RegForm) : Statement (.seqwt f) := of_word rfl (by decide) rfl
theorem cntrd (f : RegForm) : Statement (.cntrd f) := of_word rfl (by decide) rfl
theorem sspec (f : EngForm) : Statement (.sspec f) := of_word rfl (by decide) rfl
theorem sarm (f : EngForm) : Statement (.sarm f) := of_word rfl (by decide) rfl
theorem copy (f : EngForm) : Statement (.copy f) := of_word rfl (by decide) rfl
theorem copyc (f : EngForm) : Statement (.copyc f) := of_word rfl (by decide) rfl
theorem tld (f : EngForm) : Statement (.tld f) := of_word rfl (by decide) rfl
theorem tst (f : EngForm) : Statement (.tst f) := of_word rfl (by decide) rfl
theorem tclr (f : EngForm) : Statement (.tclr f) := of_word rfl (by decide) rfl
theorem mldb (f : EngForm) : Statement (.mldb f) := of_word rfl (by decide) rfl
theorem spld (f : EngForm) : Statement (.spld f) := of_word rfl (by decide) rfl
theorem mma (f : EngForm) : Statement (.mma f) := of_word rfl (by decide) rfl
theorem mnorm (f : EngForm) : Statement (.mnorm f) := of_word rfl (by decide) rfl
theorem gload (f : EngForm) : Statement (.gload f) := of_word rfl (by decide) rfl
theorem gbind (f : EngForm) : Statement (.gbind f) := of_word rfl (by decide) rfl
theorem gfree (f : EngForm) : Statement (.gfree f) := of_word rfl (by decide) rfl
theorem gqry (f : EngForm) : Statement (.gqry f) := of_word rfl (by decide) rfl
theorem skbld (f : EngForm) : Statement (.skbld f) := of_word rfl (by decide) rfl
theorem skxch (f : EngForm) : Statement (.skxch f) := of_word rfl (by decide) rfl
theorem sksub (f : EngForm) : Statement (.sksub f) := of_word rfl (by decide) rfl
theorem skpeel (f : EngForm) : Statement (.skpeel f) := of_word rfl (by decide) rfl
theorem skrecon (f : EngForm) : Statement (.skrecon f) := of_word rfl (by decide) rfl
theorem skfix (f : EngForm) : Statement (.skfix f) := of_word rfl (by decide) rfl
theorem gstart (f : GrmForm) : Statement (.gstart f) := of_word rfl (by decide) rfl
theorem gstop (f : GrmForm) : Statement (.gstop f) := of_word rfl (by decide) rfl
theorem gskip (f : SkipForm) : Statement (.gskip f) := of_word rfl (by decide) rfl
theorem gmask (f : GrmForm) : Statement (.gmask f) := of_word rfl (by decide) rfl
theorem gfeed (f : GrmForm) : Statement (.gfeed f) := of_word rfl (by decide) rfl
theorem gstat (f : GrmForm) : Statement (.gstat f) := of_word rfl (by decide) rfl
theorem ctxsv (f : RegForm) : Statement (.ctxsv f) := of_word rfl (by decide) rfl
theorem ctxld (f : RegForm) : Statement (.ctxld f) := of_word rfl (by decide) rfl
theorem freeze (f : RegForm) : Statement (.freeze f) := of_word rfl (by decide) rfl
theorem rmark (f : RegForm) : Statement (.rmark f) := of_word rfl (by decide) rfl
theorem tlbi (f : RegForm) : Statement (.tlbi f) := of_word rfl (by decide) rfl
theorem cfgld (f : RegForm) : Statement (.cfgld f) := of_word rfl (by decide) rfl
theorem jrnl (f : RegForm) : Statement (.jrnl f) := of_word rfl (by decide) rfl
theorem sema (f : RegForm) : Statement (.sema f) := of_word rfl (by decide) rfl
theorem sret (f : RegForm) : Statement (.sret f) := of_word rfl (by decide) rfl
theorem haltc (f : RegForm) : Statement (.haltc f) := of_word rfl (by decide) rfl
theorem attest (f : RegForm) : Statement (.attest f) := of_word rfl (by decide) rfl
theorem pgver (f : RegForm) : Statement (.pgver f) := of_word rfl (by decide) rfl
theorem partset (f : RegForm) : Statement (.partset f) := of_word rfl (by decide) rfl
theorem chtabWrite (c : CoreId) (n : Fin 64) (v : DWord) : Statement (.chtabWrite c n v) := of_none rfl
theorem chtabUpdate (c : CoreId) (n : Fin 64) : Statement (.chtabUpdate c n) := of_none rfl
theorem flagsClear (c : CoreId) (v : DWord) : Statement (.flagsClear c v) := of_none rfl
theorem amaxWrite (c : CoreId) (v : DWord) : Statement (.amaxWrite c v) := of_none rfl
theorem cntWrite (c : CoreId) (v : DWord) : Statement (.cntWrite c v) := of_none rfl
theorem sksizeWrite (c : CoreId) (r : Fin 3) (v : DWord) : Statement (.sksizeWrite c r v) := of_none rfl
theorem idxdropRead (c : CoreId) (b : BankId) (d : Fin 32) : Statement (.idxdropRead c b d) := of_none rfl
theorem pstatRead (c : CoreId) (p : ParserId) (b : BankId) (d : Fin 32) : Statement (.pstatRead c p b d) := of_none rfl
theorem skstatRead (c : CoreId) (b : BankId) (d : Fin 32) : Statement (.skstatRead c b d) := of_none rfl
theorem registerWrite (c : CoreId) (r : BitVec 12) (v : DWord) : Statement (.registerWrite c r v) := of_none rfl
theorem memPropagate (acc : Nat) : Statement (.memPropagate acc) := of_none rfl
theorem memPerform (acc : Nat) : Statement (.memPerform acc) := of_none rfl
theorem bankWaitWake (b : Bank) : Statement (.bankWaitWake b) := of_none rfl
theorem waitStoreResend (b : Bank) : Statement (.waitStoreResend b) := of_none rfl
theorem stvDeadlock (b : Bank) : Statement (.stvDeadlock b) := of_none rfl
theorem mtAccept (c : CoreId) (m : MtId) (bank : Fin 4) : Statement (.mtAccept c m bank) := of_none rfl
theorem mtResponse (c : CoreId) (m : MtId) (port : Fin 5) : Statement (.mtResponse c m port) := of_none rfl
theorem pageWalk (die : DieId) : Statement (.pageWalk die) := of_none rfl
theorem peFire (c : CoreId) (pe : PeId) : Statement (.peFire c pe) := of_none rfl
theorem routerHop (c : CoreId) (r : RouterId) (port : Fin 5) (vc : Fin 4) : Statement (.routerHop c r port vc) := of_none rfl
theorem controlHop (c : CoreId) (r : RouterId) (port : Fin 5) (sub : Fin 4) : Statement (.controlHop c r port sub) := of_none rfl
theorem ctrlPost (c : CoreId) (k : AgId) : Statement (.ctrlPost c k) := of_none rfl
theorem ringStep (c : CoreId) (n : Nat) : Statement (.ringStep c n) := of_none rfl
theorem queueEnlarge (c : CoreId) : Statement (.queueEnlarge c) := of_none rfl
theorem agEmit (c : CoreId) (k : AgId) : Statement (.agEmit c k) := of_none rfl
theorem agWalkEnd (c : CoreId) (k : AgId) : Statement (.agWalkEnd c k) := of_none rfl
theorem tapItem (c : CoreId) (p : ParserId) : Statement (.tapItem c p) := of_none rfl
theorem parseStep (c : CoreId) (p : ParserId) : Statement (.parseStep c p) := of_none rfl
theorem recoveryDiscard (c : CoreId) (p : ParserId) : Statement (.recoveryDiscard c p) := of_none rfl
theorem actionFire (c : CoreId) (p : ParserId) : Statement (.actionFire c p) := of_none rfl
theorem gateRelease (c : CoreId) (p : ParserId) : Statement (.gateRelease c p) := of_none rfl
theorem messageAccept (src : CoreId) : Statement (.messageAccept src) := of_none rfl
theorem taskStart (c : CoreId) : Statement (.taskStart c) := of_none rfl
theorem continuationPost (c : CoreId) (n : Nat) : Statement (.continuationPost c n) := of_none rfl
theorem barrierRelease (c : CoreId) (b : Fin 1024) : Statement (.barrierRelease c b) := of_none rfl
theorem engineCommandAccept (c : CoreId) (n : Nat) : Statement (.engineCommandAccept c n) := of_none rfl
theorem engineCommandStart (c : CoreId) (id : Nat) : Statement (.engineCommandStart c id) := of_none rfl
theorem engineCommandComplete (c : CoreId) (id : Nat) : Statement (.engineCommandComplete c id) := of_none rfl
theorem followOnMmaIssue (c : CoreId) (id : Nat) : Statement (.followOnMmaIssue c id) := of_none rfl
theorem vectorAccept (c : CoreId) (h : Fin 4) : Statement (.vectorAccept c h) := of_none rfl
theorem vectorResult (c : CoreId) (h : Fin 4) : Statement (.vectorResult c h) := of_none rfl
theorem rangeServe (die : DieId) (q : Fin 64) : Statement (.rangeServe die q) := of_none rfl
theorem stageAppend (launch : Nat) (c : CoreId) : Statement (.stageAppend launch c) := of_none rfl
theorem sessionPair (die : DieId) (slot : Fin 16) (peer : Option PeerSide) : Statement (.sessionPair die slot peer) := of_none rfl
theorem sketchRound (die : DieId) (peer : Option PeerSide) : Statement (.sketchRound die peer) := of_none rfl
theorem sessionFallback (die : DieId) (peer : Option PeerSide) : Statement (.sessionFallback die peer) := of_none rfl
theorem sessionAbort (die : DieId) : Statement (.sessionAbort die) := of_none rfl
theorem recordCandidate (ctx : Nat) (q : Fin 16) : Statement (.recordCandidate ctx q) := of_none rfl
theorem dependenceResolve (ctx : Nat) (q : Fin 16) : Statement (.dependenceResolve ctx q) := of_none rfl
theorem admitLaunch (part : Fin 16) : Statement (.admitLaunch part) := of_none rfl
theorem launchLoad (launch : Nat) : Statement (.launchLoad launch) := of_none rfl
theorem teamEnd (launch : Nat) (c : CoreId) : Statement (.teamEnd launch c) := of_none rfl
theorem statusWrite (launch : Nat) : Statement (.statusWrite launch) := of_none rfl
theorem statusHeldWrite (ctx : Nat) (q : Fin 16) : Statement (.statusHeldWrite ctx q) := of_none rfl
theorem launchTeardown (launch : Nat) : Statement (.launchTeardown launch) := of_none rfl
theorem coreReturn (c : CoreId) : Statement (.coreReturn c) := of_none rfl
theorem watchdog (launch : Nat) : Statement (.watchdog launch) := of_none rfl
theorem elementDrainFreeze (c : CoreId) (e : Elem) : Statement (.elementDrainFreeze c e) := of_none rfl
theorem drainComplete (launch : Nat) : Statement (.drainComplete launch) := of_none rfl
theorem drainTimeout (launch : Nat) : Statement (.drainTimeout launch) := of_none rfl
theorem freezeComplete (launch : Nat) : Statement (.freezeComplete launch) := of_none rfl
theorem restoreResume (ctx : Nat) : Statement (.restoreResume ctx) := of_none rfl
theorem pageCheckComplete (ctx : Nat) : Statement (.pageCheckComplete ctx) := of_none rfl
theorem rmaWrite (job : BitVec 12) (va : DWord) (data : List Byte) : Statement (.rmaWrite job va data) := of_none rfl
theorem rmaRead (job : BitVec 12) (va : DWord) (n : Nat) : Statement (.rmaRead job va n) := of_none rfl
theorem unsupportedPacket : Statement .unsupportedPacket := of_none rfl
theorem remoteAck (c : CoreId) (id : Nat) (r : RemoteReply) : Statement (.remoteAck c id r) := of_none rfl
theorem commandAccept (port : Port) (header : DWord) (d0 : DWord) (d1 : DWord) (d2 : DWord) (d3 : DWord) (d4 : DWord) : Statement (.commandAccept port header d0 d1 d2 d3 d4) := of_none rfl
theorem cmdNop (k : Cmd) : Statement (.cmdNop k) := of_none rfl
theorem cmdSema (k : Cmd) : Statement (.cmdSema k) := of_none rfl
theorem cmdDevid (k : Cmd) : Statement (.cmdDevid k) := of_none rfl
theorem cmdAttest (k : Cmd) : Statement (.cmdAttest k) := of_none rfl
theorem cmdJread (k : Cmd) : Statement (.cmdJread k) := of_none rfl
theorem cmdDevstat (k : Cmd) : Statement (.cmdDevstat k) := of_none rfl
theorem cmdCtxnew (k : Cmd) : Statement (.cmdCtxnew k) := of_none rfl
theorem cmdCtxset (k : Cmd) : Statement (.cmdCtxset k) := of_none rfl
theorem cmdCtxdel (k : Cmd) : Statement (.cmdCtxdel k) := of_none rfl
theorem cmdMap (k : Cmd) : Statement (.cmdMap k) := of_none rfl
theorem cmdPtset (k : Cmd) : Statement (.cmdPtset k) := of_none rfl
theorem cmdQnew (k : Cmd) : Statement (.cmdQnew k) := of_none rfl
theorem cmdQset (k : Cmd) : Statement (.cmdQset k) := of_none rfl
theorem cmdEnq (k : Cmd) : Statement (.cmdEnq k) := of_none rfl
theorem cmdCancel (k : Cmd) : Statement (.cmdCancel k) := of_none rfl
theorem cmdClsreg (k : Cmd) : Statement (.cmdClsreg k) := of_none rfl
theorem cmdClsfree (k : Cmd) : Statement (.cmdClsfree k) := of_none rfl
theorem cmdTlbi (k : Cmd) : Statement (.cmdTlbi k) := of_none rfl
theorem cmdFreeze (k : Cmd) : Statement (.cmdFreeze k) := of_none rfl
theorem cmdDrain (k : Cmd) : Statement (.cmdDrain k) := of_none rfl
theorem cmdRestore (k : Cmd) : Statement (.cmdRestore k) := of_none rfl
theorem cmdCfg (k : Cmd) : Statement (.cmdCfg k) := of_none rfl
theorem cmdPart (k : Cmd) : Statement (.cmdPart k) := of_none rfl
theorem cmdSlots (k : Cmd) : Statement (.cmdSlots k) := of_none rfl
theorem cmdHaltc (k : Cmd) : Statement (.cmdHaltc k) := of_none rfl
theorem cmdKeyset (k : Cmd) : Statement (.cmdKeyset k) := of_none rfl
theorem cmdFwupd (k : Cmd) : Statement (.cmdFwupd k) := of_none rfl
theorem cmdJobset (k : Cmd) : Statement (.cmdJobset k) := of_none rfl
theorem cmdPeerset (k : Cmd) : Statement (.cmdPeerset k) := of_none rfl
theorem cmdSysrt (k : Cmd) : Statement (.cmdSysrt k) := of_none rfl
theorem cpsemLeaseExpiry : Statement .cpsemLeaseExpiry := of_none rfl
theorem linkRetryExhausted (acc : Nat) : Statement (.linkRetryExhausted acc) := of_none rfl
theorem scrub (place : ScrubAt) (found : ScrubFind) : Statement (.scrub place found) := of_none rfl
theorem thermalStepDown (die : DieId) (temp : BitVec 8) : Statement (.thermalStepDown die temp) := of_none rfl
theorem thermalStepUp (die : DieId) (temp : BitVec 8) : Statement (.thermalStepUp die temp) := of_none rfl
theorem thermalTrip (die : DieId) (temp : BitVec 8) : Statement (.thermalTrip die temp) := of_none rfl
theorem powerOnReset : Statement .powerOnReset := of_none rfl
theorem bringUpStep (ok : Bool) : Statement (.bringUpStep ok) := of_none rfl
theorem coreResetDone (c : CoreId) : Statement (.coreResetDone c) := of_none rfl

end Sys2Proof.Laws.F
end

