-- ==== Sys2Proof/Laws/Values.lean ====
section
/-! SUPPORT. The one shape of what a word that computes a value leaves. -/

namespace Sys2Proof.Laws
open Sys2Proof Sys2Proof.Machine

/-- The operands of a word in F-REG. -/
theorem operands_reg (i : Instr) (f : RegForm) (op : BitVec 8) (h : encode i = some (wordOf op (regBits f))) :
    operandsOf.regOperands i = [f.d, f.a, f.b, f.c] := by
  simp only [operandsOf.regOperands, h, wordOf, lo_append, reg_of_bits]

/-- What a word that computes a value from these sources leaves: written, or converted. -/
inductive ValueShape (s : State) (e : Env) (d : Operand) (am : Bool) (srcs : List Operand) : State → Prop where
  | w (fmt v fl) : ValueShape s e d am srcs (written s e d srcs fmt v fl)
  | c (f : RegForm) (x r) (hd : f.d = d) (hx : am = f.x.getLsbD 0) : ValueShape s e d am srcs (converted s e f srcs x r)

/-- Every word that computes a value leaves that shape. -/
theorem value_cases {i : Instr} {d : Operand} (hd : valueDest i = some d) (s : State) (e : Env) (hm : MayRun s i e) 
   (hh : Here s e (operandsOf i)) :
   ∃ t, exec i s = .next t ∧ ValueShape s e d (hasAmax i) (valueSources i) t := by
  cases i <;> simp only [valueDest, Option.some.injEq, reduceCtorEq] at hd <;> subst hd
  case add f =>
    have ho := operands_reg (.add f) f 0x01 rfl
    rw [exec_add, execAdd]
    unfold execInt2
    refine ⟨_, execValue_done hm (here_of hh ?_), .w ..⟩
    simp [operandsOf, engShape, ho]
  case sub f =>
    have ho := operands_reg (.sub f) f 0x03 rfl
    rw [exec_sub, execSub]
    unfold execInt2
    refine ⟨_, execValue_done hm (here_of hh ?_), .w ..⟩
    simp [operandsOf, engShape, ho]
  case mul f =>
    have ho := operands_reg (.mul f) f 0x04 rfl
    rw [exec_mul, execMul]
    unfold execInt2
    refine ⟨_, execValue_done hm (here_of hh ?_), .w ..⟩
    simp [operandsOf, engShape, ho]
  case mulh f =>
    have ho := operands_reg (.mulh f) f 0x05 rfl
    rw [exec_mulh, execMulh]
    unfold execInt2
    refine ⟨_, execValue_done hm (here_of hh ?_), .w ..⟩
    simp [operandsOf, engShape, ho]
  case div f =>
    have ho := operands_reg (.div f) f 0x07 rfl
    rw [exec_div, execDiv]
    unfold execInt2
    refine ⟨_, execValue_done hm (here_of hh ?_), .w ..⟩
    simp [operandsOf, engShape, ho]
  case rem f =>
    have ho := operands_reg (.rem f) f 0x08 rfl
    rw [exec_rem, execRem]
    unfold execInt2
    refine ⟨_, execValue_done hm (here_of hh ?_), .w ..⟩
    simp [operandsOf, engShape, ho]
  case and f =>
    have ho := operands_reg (.and f) f 0x09 rfl
    rw [exec_and, execAnd]
    unfold execInt2
    refine ⟨_, execValue_done hm (here_of hh ?_), .w ..⟩
    simp [operandsOf, engShape, ho]
  case or f =>
    have ho := operands_reg (.or f) f 0x0B rfl
    rw [exec_or, execOr]
    unfold execInt2
    refine ⟨_, execValue_done hm (here_of hh ?_), .w ..⟩
    simp [operandsOf, engShape, ho]
  case xor f =>
    have ho := operands_reg (.xor f) f 0x0D rfl
    rw [exec_xor, execXor]
    unfold execInt2
    refine ⟨_, execValue_done hm (here_of hh ?_), .w ..⟩
    simp [operandsOf, engShape, ho]
  case andn f =>
    have ho := operands_reg (.andn f) f 0x0F rfl
    rw [exec_andn, execAndn]
    unfold execInt2
    refine ⟨_, execValue_done hm (here_of hh ?_), .w ..⟩
    simp [operandsOf, engShape, ho]
  case shl f =>
    have ho := operands_reg (.shl f) f 0x10 rfl
    rw [exec_shl, execShl]
    unfold execInt2
    refine ⟨_, execValue_done hm (here_of hh ?_), .w ..⟩
    simp [operandsOf, engShape, ho]
  case shr f =>
    have ho := operands_reg (.shr f) f 0x12 rfl
    rw [exec_shr, execShr]
    unfold execInt2
    refine ⟨_, execValue_done hm (here_of hh ?_), .w ..⟩
    simp [operandsOf, engShape, ho]
  case sar f =>
    have ho := operands_reg (.sar f) f 0x14 rfl
    rw [exec_sar, execSar]
    unfold execInt2
    refine ⟨_, execValue_done hm (here_of hh ?_), .w ..⟩
    simp [operandsOf, engShape, ho]
  case min f =>
    have ho := operands_reg (.min f) f 0x16 rfl
    rw [exec_min, execMin]
    unfold execInt2
    refine ⟨_, execValue_done hm (here_of hh ?_), .w ..⟩
    simp [operandsOf, engShape, ho]
  case max f =>
    have ho := operands_reg (.max f) f 0x17 rfl
    rw [exec_max, execMax]
    unfold execInt2
    refine ⟨_, execValue_done hm (here_of hh ?_), .w ..⟩
    simp [operandsOf, engShape, ho]
  case clz f =>
    have ho := operands_reg (.clz f) f 0x18 rfl
    rw [exec_clz, execClz]
    unfold execInt1
    refine ⟨_, execValue_done hm (here_of hh ?_), .w ..⟩
    simp [operandsOf, engShape, ho]
  case popc f =>
    have ho := operands_reg (.popc f) f 0x19 rfl
    rw [exec_popc, execPopc]
    unfold execInt1
    refine ⟨_, execValue_done hm (here_of hh ?_), .w ..⟩
    simp [operandsOf, engShape, ho]
  case bfx f =>
    have ho := operands_reg (.bfx f) f 0x1A rfl
    rw [exec_bfx, execBfx]
    refine ⟨_, execValue_done hm (here_of hh ?_), .w ..⟩
    simp [operandsOf, engShape, ho]
  case bfi f =>
    have ho := operands_reg (.bfi f) f 0x1B rfl
    rw [exec_bfi, execBfi]
    refine ⟨_, execValue_done hm (here_of hh ?_), .w ..⟩
    simp [operandsOf, engShape, ho]
  case cmp f =>
    have ho := operands_reg (.cmp f) f 0x1C rfl
    rw [exec_cmp, execCmp]
    refine ⟨_, execValue_done hm (here_of hh ?_), .w ..⟩
    simp [operandsOf, engShape, ho]
  case mov f =>
    have ho := operands_reg (.mov f) f 0x1E rfl
    rw [exec_mov, execMov]
    refine ⟨_, execValue_done hm (here_of hh ?_), .w ..⟩
    simp [operandsOf, engShape, ho]
  case fadd f =>
    have ho := operands_reg (.fadd f) f 0x20 rfl
    rw [exec_fadd, execFadd]
    unfold execFp
    refine ⟨_, execValue_done hm (here_of hh ?_), .w ..⟩
    simp [operandsOf, engShape, ho]
  case fsub f =>
    have ho := operands_reg (.fsub f) f 0x21 rfl
    rw [exec_fsub, execFsub]
    unfold execFp
    refine ⟨_, execValue_done hm (here_of hh ?_), .w ..⟩
    simp [operandsOf, engShape, ho]
  case fmul f =>
    have ho := operands_reg (.fmul f) f 0x22 rfl
    rw [exec_fmul, execFmul]
    unfold execFp
    refine ⟨_, execValue_done hm (here_of hh ?_), .w ..⟩
    simp [operandsOf, engShape, ho]
  case fma f =>
    have ho := operands_reg (.fma f) f 0x23 rfl
    rw [exec_fma, execFma]
    unfold execFp
    refine ⟨_, execValue_done hm (here_of hh ?_), .w ..⟩
    simp [operandsOf, engShape, ho]
  case fmin f =>
    have ho := operands_reg (.fmin f) f 0x24 rfl
    rw [exec_fmin, execFmin]
    unfold execFp
    refine ⟨_, execValue_done hm (here_of hh ?_), .w ..⟩
    simp [operandsOf, engShape, ho]
  case fmax f =>
    have ho := operands_reg (.fmax f) f 0x25 rfl
    rw [exec_fmax, execFmax]
    unfold execFp
    refine ⟨_, execValue_done hm (here_of hh ?_), .w ..⟩
    simp [operandsOf, engShape, ho]
  case fcmp f =>
    have ho := operands_reg (.fcmp f) f 0x26 rfl
    rw [exec_fcmp, execFcmp]
    refine ⟨_, execValue_done hm (here_of hh ?_), .w ..⟩
    simp [operandsOf, engShape, ho]
  case fsgn f =>
    have ho := operands_reg (.fsgn f) f 0x27 rfl
    rw [exec_fsgn, execFsgn]
    refine ⟨_, execValue_done hm (here_of hh ?_), .w ..⟩
    simp only [operandsOf, engShape, ho]; split <;> simp
  case frcp f =>
    have ho := operands_reg (.frcp f) f 0x28 rfl
    rw [exec_frcp, execFrcp]
    unfold execFp
    refine ⟨_, execValue_done hm (here_of hh ?_), .w ..⟩
    simp [operandsOf, engShape, ho]
  case frsq f =>
    have ho := operands_reg (.frsq f) f 0x29 rfl
    rw [exec_frsq, execFrsq]
    unfold execFp
    refine ⟨_, execValue_done hm (here_of hh ?_), .w ..⟩
    simp [operandsOf, engShape, ho]
  case fexp2 f =>
    have ho := operands_reg (.fexp2 f) f 0x2A rfl
    rw [exec_fexp2, execFexp2]
    unfold execFp
    refine ⟨_, execValue_done hm (here_of hh ?_), .w ..⟩
    simp [operandsOf, engShape, ho]
  case flog2 f =>
    have ho := operands_reg (.flog2 f) f 0x2B rfl
    rw [exec_flog2, execFlog2]
    unfold execFp
    refine ⟨_, execValue_done hm (here_of hh ?_), .w ..⟩
    simp [operandsOf, engShape, ho]
  case frnd f =>
    have ho := operands_reg (.frnd f) f 0x2C rfl
    rw [exec_frnd, execFrnd]
    unfold execFp
    refine ⟨_, execValue_done hm (here_of hh ?_), .w ..⟩
    simp [operandsOf, engShape, ho]
  case cvt f =>
    have ho := operands_reg (.cvt f) f 0x2D rfl
    rw [exec_cvt, execCvt]
    refine ⟨_, execConvert_done hm (here_of hh ?_), .c _ _ _ rfl rfl⟩
    simp [operandsOf, engShape, ho]
  case cvts f =>
    have ho := operands_reg (.cvts f) f 0x2E rfl
    rw [exec_cvts, execCvts]
    refine ⟨_, execConvert_done hm (here_of hh ?_), .c _ _ _ rfl rfl⟩
    simp [operandsOf, engShape, ho]
  case fcls f =>
    have ho := operands_reg (.fcls f) f 0x2F rfl
    rw [exec_fcls, execFcls]
    refine ⟨_, execValue_done hm (here_of hh ?_), .w ..⟩
    simp [operandsOf, engShape, ho]
  case addi f =>
    rw [exec_addi, execAddi]
    unfold execIntI
    refine ⟨_, execValue_done hm (here_of hh ?_), .w ..⟩
    simp [operandsOf]
  case muli f =>
    rw [exec_muli, execMuli]
    unfold execIntI
    refine ⟨_, execValue_done hm (here_of hh ?_), .w ..⟩
    simp [operandsOf]
  case andi f =>
    rw [exec_andi, execAndi]
    unfold execIntI
    refine ⟨_, execValue_done hm (here_of hh ?_), .w ..⟩
    simp [operandsOf]
  case ori f =>
    rw [exec_ori, execOri]
    unfold execIntI
    refine ⟨_, execValue_done hm (here_of hh ?_), .w ..⟩
    simp [operandsOf]
  case xori f =>
    rw [exec_xori, execXori]
    unfold execIntI
    refine ⟨_, execValue_done hm (here_of hh ?_), .w ..⟩
    simp [operandsOf]
  case shli f =>
    rw [exec_shli, execShli]
    unfold execIntI
    refine ⟨_, execValue_done hm (here_of hh ?_), .w ..⟩
    simp [operandsOf]
  case shri f =>
    rw [exec_shri, execShri]
    unfold execIntI
    refine ⟨_, execValue_done hm (here_of hh ?_), .w ..⟩
    simp [operandsOf]
  case sari f =>
    rw [exec_sari, execSari]
    unfold execIntI
    refine ⟨_, execValue_done hm (here_of hh ?_), .w ..⟩
    simp [operandsOf]
  case cmpi f =>
    rw [exec_cmpi, execCmpi]
    refine ⟨_, execValue_done hm (here_of hh ?_), .w ..⟩
    simp [operandsOf]
  case movi f =>
    rw [exec_movi, execMovi]
    refine ⟨_, execValue_done hm (here_of hh ?_), .w ..⟩
    simp [operandsOf]

end Sys2Proof.Laws
end

