-- ==== Sys2Proof/Tests/Slice0.lean ====
section
/-! SUPPORT. Tests: words decoded by hand from the encoding tables, words that each check refuses, one step of small
machines, and for every statement that has hypotheses a state that meets them. -/

namespace Sys2Proof.Tests
open Sys2Proof Sys2Proof.Machine

/-! ## Words written out from the encodings (R209 to R217, R223) -/

theorem test_decode_add : decodeWord 0x0121282900320000 = some (.add ⟨.l 1, .p 0, .p 1, .x 0, 0x32, 0⟩) := by decide
theorem test_decode_xor : decodeWord 0x0D100E1C00000000 = some (.xor ⟨.x 16, .x 14, .x 28, .x 0, 0, 0⟩) := by decide
theorem test_decode_shr : decodeWord 0x12342A8100300000 = some (.shr ⟨.e 0, .p 2, .imm 1, .x 0, 0x30, 0⟩) := by decide
theorem test_decode_movi : decodeWord 0x1F05000002000040 = some (.movi ⟨.x 5, .x 0, 0, 0x02000040⟩) := by decide
theorem test_decode_fexp2 : decodeWord 0x2A2C280000600000 = some (.fexp2 ⟨.q 0, .p 0, .x 0, .x 0, 0x60, 0⟩) := by decide
theorem test_decode_merge : decodeWord 0x332C2A2829600000 = some (.merge ⟨.q 0, .p 2, .p 0, .p 1, 0x60, 0⟩) := by decide
theorem test_decode_mark : decodeWord 0x352C800000000000 = some (.mark ⟨.q 0, .imm 0, .x 0, .x 0, 0, 0⟩) := by decide
theorem test_decode_shape : decodeWord 0x4F00098000000000 = some (.shape ⟨.x 0, .x 9, .imm 0, .x 0, 0, 0⟩) := by decide
theorem test_decode_tend : decodeWord 0x5500000000000000 = some (.tend ⟨.x 0, .x 0, .x 0, .x 0, 0, 0⟩) := by decide
theorem test_decode_gbar : decodeWord 0x5B00818100000900 = some (.gbar ⟨.x 0, .imm 1, .imm 1, .x 0, 0, 0x0900⟩) := by decide
theorem test_decode_nop : decodeWord 0x6000000000000000 = some (.nop ⟨.x 0, .x 0, .x 0, .x 0, 0, 0⟩) := by decide
theorem test_decode_sspec :
    decodeWord 0x6800050000000400 = some (.sspec ⟨.x 0, .x 5, .x 0, .x 0, false, false, 0, false, 4, 0⟩) := by decide
theorem test_decode_copyc :
    decodeWord 0x7B00048C00600001 = some (.copyc ⟨.x 0, .x 4, .imm 12, .x 0, false, true, 4, false, 0, 1⟩) := by decide
theorem test_decode_ctxsv : decodeWord 0x9003040500000000 = some (.ctxsv ⟨.x 3, .x 4, .x 5, .x 0, 0, 0⟩) := by decide
theorem test_decode_ctxld : decodeWord 0x9103048000000000 = some (.ctxld ⟨.x 3, .x 4, .imm 0, .x 0, 0, 0⟩) := by decide
theorem test_decode_freeze : decodeWord 0x9203048200000000 = some (.freeze ⟨.x 3, .x 4, .imm 2, .x 0, 0, 0⟩) := by decide
theorem test_decode_rmark : decodeWord 0x9303048282000000 = some (.rmark ⟨.x 3, .x 4, .imm 2, .imm 2, 0, 0⟩) := by decide
theorem test_decode_tlbi : decodeWord 0x9400040000000001 = some (.tlbi ⟨.x 0, .x 4, .x 0, .x 0, 0, 1⟩) := by decide
theorem test_decode_cfgld : decodeWord 0x9503809C00000000 = some (.cfgld ⟨.x 3, .imm 0, .imm 28, .x 0, 0, 0⟩) := by decide
theorem test_decode_jrnl : decodeWord 0x9603069500000000 = some (.jrnl ⟨.x 3, .x 6, .imm 21, .x 0, 0, 0⟩) := by decide
theorem test_decode_sret : decodeWord 0x9800010700000000 = some (.sret ⟨.x 0, .x 1, .x 7, .x 0, 0, 0⟩) := by decide
theorem test_decode_haltc : decodeWord 0x9903088100000000 = some (.haltc ⟨.x 3, .x 8, .imm 1, .x 0, 0, 0⟩) := by decide
theorem test_decode_attest : decodeWord 0x9A00060708000000 = some (.attest ⟨.x 0, .x 6, .x 7, .x 8, 0, 0⟩) := by decide
theorem test_decode_pgver : decodeWord 0x9B03040500000000 = some (.pgver ⟨.x 3, .x 4, .x 5, .x 0, 0, 0⟩) := by decide
theorem test_decode_partset : decodeWord 0x9C03090A00000000 = some (.partset ⟨.x 3, .x 9, .x 10, .x 0, 0, 0⟩) := by decide

/-- Opcode 0x00 is of no instruction (R223). -/
theorem test_decode_zero : decodeWord 0 = none := by decide

/-- A command's code selects its instruction (R425). -/
theorem test_decode_command (k : Cmd) : decodeCommand 0x01 k = some (.cmdNop k) ∧ decodeCommand 0x2F k = some (.cmdSysrt k) ∧
    decodeCommand 0x30 k = none := ⟨rfl, rfl, rfl⟩

/-! ## Words that a check refuses (R225) -/

/-- Check 2: the context. A node has no task control, a task no node flow, user code no system word. -/
theorem test_wf_context : Instr.wf .node (.tend ⟨.x 0, .x 0, .x 0, .x 0, 0, 0⟩) = false ∧
    Instr.wf .task (.steer ⟨.q 0, .l 2, .c 0, .q 2, 0x60, 0⟩) = false ∧
    Instr.wf .task (.sema ⟨.x 3, .imm 0, .x 0, .x 0, 0, 0⟩) = false ∧
    Instr.wf .action (.fadd ⟨.a 0, .a 1, .a 2, .x 0, 0x60, 0⟩) = false := by decide

/-- Check 3 and 4: operand codes of another context, a source written, a destination read, a reserved code. -/
theorem test_wf_operand : Instr.wf .task (.add ⟨.l 1, .x 1, .x 2, .x 0, 0, 0⟩) = false ∧
    Instr.wf .node (.add ⟨.p 0, .p 0, .p 1, .x 0, 0x30, 0⟩) = false ∧
    Instr.wf .node (.add ⟨.l 0, .q 0, .p 1, .x 0, 0x30, 0⟩) = false ∧
    Instr.wf .task (.add ⟨.x 1, .reserved 0, .x 2, .x 0, 0, 0⟩) = false := by decide

/-- Check 5: a field that the entry does not use. -/
theorem test_wf_zero : Instr.wf .task (.add ⟨.x 1, .x 1, .x 2, .x 3, 0, 0⟩) = false ∧
    Instr.wf .task (.add ⟨.x 1, .x 1, .x 2, .x 0, 0, 1⟩) = false ∧
    Instr.wf .task (.add ⟨.x 1, .x 1, .x 2, .x 0, 0x04, 0⟩) = false ∧
    Instr.wf .task (.movi ⟨.x 1, .x 2, 0, 0⟩) = false ∧
    Instr.wf .task (.trap ⟨.x 1, .x 0, 0, 0⟩) = false ∧
    Instr.wf .task (.wait ⟨0, 0, 0, 0, 0, 0, 1⟩) = false ∧
    Instr.wf .task (.fence ⟨.x 0, .x 0, .x 0, .x 0, 0x30, 0⟩) = false := by decide

/-- Check 6: a format that the class does not accept, or that is no format. -/
theorem test_wf_format : Instr.wf .node (.add ⟨.l 1, .p 0, .p 1, .x 0, 0x60, 0⟩) = false ∧
    Instr.wf .node (.fadd ⟨.l 1, .p 0, .p 1, .x 0, 0x30, 0⟩) = false ∧
    Instr.wf .node (.cvt ⟨.l 1, .p 0, .x 0, .x 0, 0x90, 0x30⟩) = false ∧
    Instr.wf .node (.mov ⟨.l 1, .p 0, .x 0, .x 0, 0xB0, 0⟩) = false := by decide

/-- Check 8: a size, a scope, a register run, an index, an operand's kind. -/
theorem test_wf_entry : Instr.wf .node (.ld ⟨.l 1, .p 0, .imm 0, .x 0, 0x03, 0x60⟩) = false ∧
    Instr.wf .task (.atom ⟨.x 1, .x 2, .x 3, .x 0, 0x00, 0⟩) = false ∧
    Instr.wf .task (.tpost ⟨.x 0, .x 0, .x 2, .x 30, 0, 4⟩) = false ∧
    Instr.wf .task (.mfs ⟨.x 1, .x 0, 0, 0x1000⟩) = false ∧
    Instr.wf .task (.tclr ⟨.x 1, .x 0, .x 0, .x 0, false, false, 0, false, 0, 0⟩) = false ∧
    Instr.wf .action (.gskip ⟨.a 0, .imm 0, 6, 0, 1⟩) = false := by decide

/-! ## Small machines -/

/-- Core 0 is held by a launch of one core, of context 0, with a page of code, a page of CSM and a versioned page. -/
def board (sys : Bool) (f : Core → Core) : State :=
  { modDie (modCore State.reset 0 fun k => f { k with holder := some 0, inTeam := true }) 0 fun d =>
      { d with tlb := [⟨0, 0x10000, 16, 0x10000, ⟨true, true, true, false, false⟩⟩,
        ⟨0, 0x20000, 16, 0x4000000000, ⟨true, true, false, false, false⟩⟩,
        ⟨0, 0x30000, 16, 0x4000010000, ⟨true, true, false, true, false⟩⟩] } with
    ctxs := [placedCtx sys]
    launches := [placedLaunch] }

/-- A task runs on core 0. Its registers: x1 = 5, x2 and x3 the bases of the two data pages, x4 the sign bit alone, x6 a
hole of the core-local window and x7 its base, x8 to x12 the numbers 64, 255, 256, 1023 and 1024, x13 65,535. Its shape slot 0
has four elements of 8 bytes at x2. -/
def task (sys : Bool) : State :=
  { board sys fun k => { k with
      task := some ⟨0, 0x10000, 0, 0, none⟩
      banks := put k.banks 0 { at' k.banks 0 with
        x := [(1, 5), (2, 0x20000), (3, 0x30000), (4, 0x8000000000000000), (6, 0xFFFFFFF800000), (7, 0xFFFFFFF000000), (8, 64),
          (9, 255), (10, 256), (11, 1023), (12, 1024), (13, 65535)].foldl
            (fun (v : Vector DWord 32) (y : Fin 32 × DWord) => put v y.1 y.2) (at' k.banks 0).x }
      shapes := put k.shapes 0 ⟨3, 0x20000, 4⟩ } with
    focus := some (.task 0) }

/-- Its environment. -/
def taskEnv (sys : Bool) (i : Instr) : Env :=
  ⟨0, if sys then .system else .task, .bank 0, placedLaunch, ⟨0, 0, 1, 0, 0, 0x10000, instrWord i⟩⟩

/-- A node of one firing. -/
def nodeOf (ws : List DWord) (f : Firing) : Node :=
  ⟨0, ws, Vector.replicate 8 2, Vector.replicate 8 .i32, Vector.replicate 8 (0, .raw), 0, 0, false, false, false,
    Vector.replicate 4 Place.zero, some f, Shaper.zero, [], false⟩

/-- A firing that has just begun. -/
def firing : Firing :=
  ⟨0, [], 0, 0, none, [], [], [], [], [], false, [], 0, [], Vector.replicate 8 2, Vector.replicate 8 .i32, 0⟩

/-- Core 0 has one node with the firing, and ports p0, p1 and c0 with the given tokens. -/
def node (f : Firing) (p0 p1 : Token) (c0 : Bool) : State :=
  { board false fun k => { k with
      nodes := [nodeOf [0] f]
      queues := [(.pe 0 0, [.tok p0]), (.pe 0 1, [.tok p1])]
      cqueues := [(.pec 0 0, [.bit c0])] } with
    focus := some (.node 0 0) }

/-- A plain token. -/
def tok (v : Word) : Token := ⟨0, false, 0, v⟩

/-- The node with 5, 7 and a true condition at its ports. -/
def plainNode : State := node firing (tok 5) (tok 7) true

/-- Its environment. -/
def nodeEnv (i : Instr) : Env := ⟨0, .node, .node 0, placedLaunch, ⟨0, 0, 2, 0, 0, 0, instrWord i⟩⟩

/-- An action of one word runs on parser 0 of core 0. -/
def action (f : Parser → Parser) : State :=
  { board false fun k => { k with
      grammar := some ⟨false, false, 1, [], [], [], none, [0], []⟩
      parsers := put k.parsers 0 (f { Parser.zero with acts := [⟨0, [], 1⟩], run := some ⟨0, 0, 1, false, 0⟩ }) } with
    focus := some (.action 0 0) }

/-- Its environment. -/
def actionEnv (i : Instr) : Env := ⟨0, .action, .parser 0, placedLaunch, ⟨0, 0, 5, 0, 0, 0, instrWord i⟩⟩

/-! ## Instructions of which a task, a node and an action can run one -/

/-- The forms x5, x1, x2 with no modifier; l1, p0, p1 in I32; l1, p0, p1, l2 in FP32. -/
def xf : RegForm := ⟨.x 5, .x 1, .x 2, .x 0, 0, 0⟩
def nf : RegForm := ⟨.l 1, .p 0, .p 1, .x 0, 0x30, 0⟩

/-- The integer and bit words of two sources. -/
def intWords (f : RegForm) : List Instr :=
  [.add f, .sub f, .mul f, .mulh f, .div f, .rem f, .and f, .or f, .xor f, .andn f, .shl f, .shr f, .sar f, .min f, .max f,
    .cmp f]
/-- Those of an immediate. -/
def immWords (f : ImmForm) : List Instr :=
  [.addi f, .muli f, .andi f, .ori f, .xori f, .shli f, .shri f, .sari f, .cmpi f]

theorem test_IntegerForms_task : ∀ i ∈ intWords xf ++ immWords ⟨.x 5, .x 1, 0, 3⟩ ++
      [.movi ⟨.x 5, .x 0, 0, 3⟩, .clz ⟨.x 5, .x 1, .x 0, .x 0, 0, 0⟩, .popc ⟨.x 5, .x 1, .x 0, .x 0, 0, 0⟩,
       .mov ⟨.x 5, .x 1, .x 0, .x 0, 0, 0⟩, .bfx ⟨.x 5, .x 1, .imm 1, .imm 2, 0, 0⟩, .bfi ⟨.x 5, .x 1, .imm 1, .imm 2, 0, 0⟩],
    MayRun (task false) i (taskEnv false i) ∧ Here (task false) (taskEnv false i) (operandsOf i) := by
  simp only [MayRun, Here]; decide

theorem test_IntegerForms_node : ∀ i ∈ intWords nf ++ immWords ⟨.l 1, .p 0, 0x30, 3⟩ ++
      [.movi ⟨.l 1, .x 0, 0x30, 3⟩, .clz ⟨.l 1, .p 0, .x 0, .x 0, 0x30, 0⟩, .popc ⟨.l 1, .p 0, .x 0, .x 0, 0x30, 0⟩,
       .mov ⟨.l 1, .l 2, .x 0, .x 0, 0x30, 0⟩, .bfx ⟨.l 1, .p 0, .imm 1, .imm 2, 0x30, 0⟩,
       .bfi ⟨.l 1, .p 0, .imm 1, .imm 2, 0x30, 0⟩],
    MayRun plainNode i (nodeEnv i) ∧ Here plainNode (nodeEnv i) (operandsOf i) := by
  simp only [MayRun, Here]; decide

theorem test_CountWords_task : ∀ i ∈ ([.clz ⟨.x 5, .x 1, .x 0, .x 0, 0, 0⟩, .popc ⟨.x 5, .x 1, .x 0, .x 0, 0, 0⟩] : List Instr),
    MayRun (task false) i (taskEnv false i) ∧ Here (task false) (taskEnv false i) [.x 5, .x 1, .x 0, .x 0] := by
  simp only [MayRun, Here]; decide

theorem test_CountWords_node : ∀ i ∈ ([.clz ⟨.l 1, .p 0, .x 0, .x 0, 0x30, 0⟩, .popc ⟨.l 1, .p 0, .x 0, .x 0, 0x30, 0⟩] : List Instr),
    MayRun plainNode i (nodeEnv i) ∧ Here plainNode (nodeEnv i) [.l 1, .p 0, .x 0, .x 0] := by
  simp only [MayRun, Here]; decide

/-- MOV from an l register: the focus and the node that it asks for. -/
theorem test_IntegerForms_mov : plainNode.focus = some (.node 0 0) ∧ nodeAt (coreAt plainNode 0) 0 = some (nodeOf [0] firing) := by
  decide

/-- One step of each: 5 + 0x20000, and so on, in x5 (R241 to R245, R250). -/
def x5 (s : State) (i : Instr) : Option DWord :=
  match exec i s with
  | .next t => some (readX (at' (coreAt t 0).banks 0) 5)
  | _ => none

theorem test_int_results : [Instr.add xf, .sub xf, .mul xf, .div xf, .rem xf, .and xf, .or xf, .xor xf, .min xf].map (x5 (task false)) =
    [some 0x20005, some 0xFFFFFFFFFFFE0005, some 0xA0000, some 0, some 5, some 0, some 0x20005, some 0x20005, some 5] := by decide

theorem test_int_corners :
    x5 (task false) (.div ⟨.x 5, .x 4, .imm 127, .x 0, 0, 0⟩) = some 0x8000000000000000 ∧
    x5 (task false) (.rem ⟨.x 5, .x 4, .imm 127, .x 0, 0, 0⟩) = some 0 ∧
    x5 (task false) (.div ⟨.x 5, .x 1, .imm 0, .x 0, 0, 0⟩) = some 0xFFFFFFFFFFFFFFFF ∧
    x5 (task false) (.rem ⟨.x 5, .x 1, .imm 0, .x 0, 0, 0⟩) = some 5 ∧
    x5 (task false) (.mulh ⟨.x 5, .x 4, .x 4, .x 0, 0, 0⟩) = some 0x4000000000000000 ∧
    x5 (task false) (.sar ⟨.x 5, .x 4, .imm 63, .x 0, 0, 0⟩) = some 0xFFFFFFFFFFFFFFFF ∧
    x5 (task false) (.clz ⟨.x 5, .x 1, .x 0, .x 0, 0, 0⟩) = some 61 ∧
    x5 (task false) (.popc ⟨.x 5, .x 1, .x 0, .x 0, 0, 0⟩) = some 2 ∧
    x5 (task false) (.addi ⟨.x 5, .x 1, 0, 0xFFFFFFFF⟩) = some 4 ∧
    x5 (task false) (.cmp ⟨.x 5, .x 4, .x 1, .x 0, 0x02, 0⟩) = some 1 := by decide

/-- A sum of I8 with SAT clamps to 127 and raises SAT, FLAGS bit 5 (R99, R109). -/
theorem test_int_saturates : (match exec (.addi ⟨.x 5, .x 1, 0x12, 0x7F⟩) (task false) with
    | .next t => some (readX (at' (coreAt t 0).banks 0) 5, (coreAt t 0).blk.flags)
    | _ => none) = some (127, 0b100000) := by decide

/-- Forms of two and three sources and of one, in FP32. -/
def ff : RegForm := ⟨.l 1, .p 0, .p 1, .x 0, 0x60, 0⟩
def ff1 : RegForm := ⟨.l 1, .p 0, .x 0, .x 0, 0x60, 0⟩

theorem test_FloatingForms_can_run : ∀ i ∈ [Instr.fadd ff, .fsub ff, .fmul ff, .fma { ff with c := .l 2 }, .fmin ff, .fmax ff,
      .frcp ff1, .frsq ff1, .fexp2 ff1, .flog2 ff1, .frnd ff1, .fcmp ff, .fsgn ff, .fsgn { ff1 with x := 3 }, .fcls ff1,
      .cvt { ff1 with x := 0x30 }, .cvt { ff1 with x := 0x31 }, .cvts { ff with x := 0x30 }],
    MayRun plainNode i (nodeEnv i) ∧ Here plainNode (nodeEnv i) (operandsOf i) := by
  simp only [MayRun, Here]; decide

theorem test_FloatingForms_task : ∀ i ∈ [Instr.fadd { xf with m := 0x60 }, .fma { xf with m := 0x60, c := .x 4 },
      .cvt ⟨.x 5, .x 1, .x 0, .x 0, 0x60, 0x30⟩],
    MayRun (task true) i (taskEnv true i) ∧ Here (task true) (taskEnv true i) (operandsOf i) := by
  simp only [MayRun, Here]; decide

/-- 5 in I32 is 0x40A00000 in FP32 (R259). -/
theorem test_cvt : x5 (task false) (.cvt ⟨.x 5, .x 1, .x 0, .x 0, 0x60, 0x30⟩) = some 0x40A00000 := by decide

/-- 2^3, 2^4, 3 and 1 and their exact results 2^−3, 2^−2, 2^3 and 0 (R257), in BF16, and a product 2k as the exponent. -/
theorem test_SpecialFunctionValues_exact :
    fpSpecial .rcp FpMode.plain .bf16 1 false (.fin true 8 0) = (0xBE00, 0) ∧
    fpSpecial .rsq FpMode.plain .bf16 1 false (.fin false 16 0) = (0x3E80, 0) ∧ ((4 : Nat) : Int) + 0 = 2 * 2 ∧
    fpSpecial .exp2 FpMode.plain .bf16 1 false (.fin false 6 (-1)) = (0x4100, 0) ∧
    fpSpecial .log2 FpMode.plain .bf16 3 false (.fin false 1 0) = (0, 0) ∧
    fpSpecial .log2 FpMode.plain .bf16 1 false (.fin false 1 (-3)) = (0xC040, 0) := by decide +kernel

theorem test_SpecialFunctionValues_formats : isIeeeFmt .fp16 = true ∧ isIeeeFmt .bf16 = true ∧ isIeeeFmt .fp32 = true := by decide

theorem test_RoundingIsExact_number : isIeeeFmt .fp32 = true ∧ 0x40A00000 < 2 ^ widthOf true .fp32 ∧
    ∃ m e, ieeeOf .fp32 0x40A00000 = .fin false m e := ⟨by decide, by decide, _, _, rfl⟩

theorem test_TaskValueFrame_runs : valueDest (.add xf) = some (.x 5) ∧ MayRun (task false) (.add xf) (taskEnv false (.add xf)) ∧
    (taskEnv false (.add xf)).agent = .bank 0 ∧ ∃ t, exec (.add xf) (task false) = .next t := by
  refine ⟨rfl, ?_, rfl, _, rfl⟩
  simp only [MayRun]; decide

theorem test_NodeValueFrame_runs : valueDest (.add nf) = some (.l 1) ∧ MayRun plainNode (.add nf) (nodeEnv (.add nf)) ∧
    (nodeEnv (.add nf)).agent = .node 0 ∧ Here plainNode (nodeEnv (.add nf)) (operandsOf (.add nf)) ∧
    nodeAt (coreAt plainNode 0) 0 = some (nodeOf [0] firing) ∧ (nodeOf [0] firing).firing = some firing ∧
    ∃ t, exec (.add nf) plainNode = .next t := by
  refine ⟨rfl, ?_, rfl, ?_, by decide, rfl, _, rfl⟩ <;> simp only [MayRun, Here] <;> decide

/-- The cases of its l registers: not D, in a firing under poison, under a false predicate. -/
theorem test_NodeValueFrame_cases :
    (.l 1 : Operand) ≠ .l 2 ∧ firingOf (node { firing with poison := some 1 } (tok 5) (tok 7) true) (nodeEnv (.add nf)) =
      some { firing with poison := some 1 } ∧
    predicate (node { firing with preds := [false] } (tok 5) (tok 7) true) (nodeEnv (.add nf)) = false := by decide

/-- And with a void source. -/
theorem test_NodeValueFrame_void : let s := node firing ⟨0, true, 0, 5⟩ (tok 7) true
    suppressed s (nodeEnv (.add nf)) (valueSources (.add nf)) = true ∧ suppressed plainNode (nodeEnv (.add nf)) (valueSources (.add nf)) = false ∧
    predicate s (nodeEnv (.add nf)) = true := by decide

/-! ## Node flow -/

/-- The flow words that a firing can run. -/
def flowWords : List Instr :=
  [.selt ⟨.l 1, .c 0, .p 0, .p 1, 0x30, 0⟩, .tagchk ⟨.l 1, .p 0, .imm 0, .x 0, 0, 0⟩, .tagset ⟨.q 0, .p 0, .x 0, .x 0, 0, 0⟩,
   .pushp ⟨.x 0, .c 0, .x 0, .x 0, 0, 0⟩, .popp ⟨.x 0, .x 0, .x 0, .x 0, 0, 0⟩, .void ⟨.q 0, .x 0, .x 0, .x 0, 0, 0⟩,
   .steer ⟨.q 0, .p 0, .c 0, .q 2, 0x30, 0⟩, .gate ⟨.q 0, .p 0, .c 0, .x 0, 0x30, 0⟩, .emit ⟨.q 0, .p 0, .imm 1, .x 0, 0x30, 0⟩,
   .merge ⟨.q 0, .c 0, .p 0, .p 1, 0x30, 0⟩, .mark ⟨.q 0, .p 0, .x 0, .x 0, 0, 0⟩, .acc ⟨.q 0, .p 0, .l 2, .imm 1, 0x30, 0⟩]

theorem test_flow_can_run : ∀ i ∈ flowWords,
    MayRun plainNode i (nodeEnv i) ∧ Here plainNode (nodeEnv i) (operandsOf i) ∧ firingOf plainNode (nodeEnv i) = some firing := by
  simp only [MayRun, Here]; decide

/-- A condition of either value, a void one, and the chosen port's head. -/
theorem test_flow_conditions (i : Instr) :
    (readSrc plainNode (nodeEnv i) (.c 0)).v = 1 ∧ (readSrc plainNode (nodeEnv i) (.c 0)).void = false ∧
    (readSrc (node firing (tok 5) (tok 7) false) (nodeEnv i) (.c 0)).v = 0 ∧
    (readSrc (node firing ⟨0, true, 0, 0⟩ (tok 7) false) (nodeEnv i) (.p 0)).void = true ∧
    portHead (coreAt plainNode 0) 0 0 = some (tok 5) ∧
    (firing.poison.isSome = true ∨ firing.mark = 0) := ⟨rfl, rfl, rfl, rfl, rfl, .inr rfl⟩

/-- The cases of ACC: under poison, under a false predicate, with a value and with a void one; a mark that ends a group. -/
theorem test_NodeAccumulate_cases : ∀ s ∈ [node { firing with poison := some 1 } (tok 5) (tok 7) true,
      node { firing with preds := [false], mark := 1 } (tok 5) (tok 7) true, node { firing with mark := 1 } (tok 5) (tok 7) true,
      node { firing with mark := 1 } ⟨0, true, 0, 0⟩ (tok 7) true],
    let i : Instr := .acc ⟨.q 0, .p 0, .l 2, .imm 1, 0x30, 0⟩
    MayRun s i (nodeEnv i) ∧ Here s (nodeEnv i) [.p 0, .l 2] ∧ (firingOf s (nodeEnv i)).isSome = true := by
  simp only [MayRun, Here]; decide

/-- MERGE whose port is taken late: with p0's mark 0 the firing's sideband stays, with mark 1 it changes. -/
theorem test_MergeAndMark_late : let i : Instr := .merge ⟨.q 0, .l 2, .p 0, .p 1, 0x30, 0⟩
    (∀ s ∈ [plainNode, node firing ⟨1, false, 0, 5⟩ ⟨1, false, 0, 7⟩ true], MayRun s i (nodeEnv i) ∧ Here s (nodeEnv i) [.l 2] ∧
      (readSrc s (nodeEnv i) (.l 2)).void = false ∧ nodeReads s 0 0 = false ∧
      (portHead (coreAt s 0) 0 1).isSome = true) ∧
    (let g := takePort 1 (coreAt plainNode 0) 0 1 firing
     g.mark = firing.mark ∧ g.tag = firing.tag ∧ g.poison = firing.poison) ∧
    (takePort 1 (coreAt (node firing ⟨1, false, 0, 5⟩ ⟨1, false, 0, 7⟩ true) 0) 0 1 firing).mark ≠ firing.mark := by
  simp only [MayRun, Here]; decide

/-- MARK in an action: of a byte parser, of one without a stream, of one with a stream. -/
theorem test_MergeAndMark_action : let i : Instr := .mark ⟨.x 0, .imm 3, .imm 1, .x 0, 0, 0⟩
    ∀ s ∈ [action fun z => { z with byte := true }, action fun z => { z with byte := true, hold := [1] }, action id, action fun z => { z with ag := some 0 }],
      MayRun s i (actionEnv i) ∧ (actionEnv i).agent = .parser 0 := by
  simp only [MayRun]; decide

/-- A stream node of one word with the two heads at its ports, and a token ready to leave. -/
def stream (w : DWord) (out : List (Fin 4 × Token)) (a b : Token) : State :=
  { board false fun k => { k with
      nodes := [{ nodeOf [w] firing with firing := none, shaper := { Shaper.zero with out := out } }]
      queues := [(.pe 0 0, [.tok a]), (.pe 0 1, [.tok b])] } with
    focus := some (.node 0 0) }

def sphdrForm : RegForm := ⟨.q 0, .p 0, .p 1, .x 0, 0, 0⟩
def cturnForm : RegForm := ⟨.q 0, .p 0, .imm 2, .x 0, 0, 0⟩

theorem test_StreamNodes_words : encode (.sphdr sphdrForm) = some 0x3C2C282900000000 ∧
    encode (.isect sphdrForm) = some 0x3D2C282900000000 ∧ encode (.cturn cturnForm) = some 0x3E2C288200000000 := by decide

theorem test_StreamNodes_can_run : ∀ x ∈ [(0x3C2C282900000000, Instr.sphdr sphdrForm), (0x3D2C282900000000, .isect sphdrForm),
      (0x3E2C288200000000, .cturn cturnForm)],
    MayRun (stream x.1 [] (tok 5) (tok 5)) x.2 (nodeEnv x.2) ∧ (nodeAt (coreAt (stream x.1 [] (tok 5) (tok 5)) 0) 0).isSome = true := by
  simp only [MayRun]; decide

theorem test_StreamNodes_send : (streamSend 0 (coreAt (stream 0x3C2C282900000000 [(0, tok 5)] (tok 5) (tok 5)) 0)
      { nodeOf [0x3C2C282900000000] firing with firing := none, shaper := { Shaper.zero with out := [(0, tok 5)] } }).isSome = true := by
  decide

theorem test_StreamNodes_take :
    let n (w : DWord) : Node := { nodeOf [w] firing with firing := none }
    let s (w : DWord) : State := stream w [] (tok 5) (tok 5)
    streamSend 0 (coreAt (s 0x3C2C282900000000) 0) (n 0x3C2C282900000000) = none ∧
    (sphdrTake false 0 1 0 (nodeEnv (.sphdr sphdrForm)) (coreAt (s 0x3C2C282900000000) 0) (n 0x3C2C282900000000)).isSome = true ∧
    (isectTake 0 1 (nodeEnv (.isect sphdrForm)) (coreAt (s 0x3D2C282900000000) 0) (n 0x3D2C282900000000)).isSome = true ∧
    Shaper.zero.out.length ≤ 2 * 2 ∧ portHead (coreAt (s 0x3E2C288200000000) 0) 0 0 = some (tok 5) := by decide

/-- BND of p0 to q0: not noted yet, and noted and free to go. -/
def bndForm : RegForm := ⟨.q 0, .p 0, .x 0, .x 0, 0, 0⟩
def bndState (w : List (Fin 8 × Nat)) : State :=
  { board false fun k => { k with
      nodes := [{ nodeOf [0x3B2C280000000000] firing with firing := none, bndWait := w }]
      queues := [(.pe 0 0, [.tok (tok 5)])] } with
    focus := some (.node 0 0) }

theorem test_BoundaryForwards_cases : (∀ w ∈ [[], [(0, 1)]], MayRun (bndState w) (.bnd bndForm) (nodeEnv (.bnd bndForm)) ∧
      portReady (coreAt (bndState w) 0) 0 0 = true ∧ (nodeAt (coreAt (bndState w) 0) 0).isSome = true) ∧
    portIndex bndForm.a = some 0 ∧ (let k := coreAt (bndState [(0, 1)]) 0
     domainReleased (bndState [(0, 1)]) 0 (feederDomain k 0 0 0) 1 (bndScope k (nodeOf [0x3B2C280000000000] firing) 0 0) = true) ∧
    (bndForward 0 placedLaunch (coreAt (bndState [(0, 1)]) 0) 0 0 0).isSome = true := by
  simp only [MayRun]; decide

/-! ## Memory words -/

/-- A word of 8 bytes at x2 = 0x20000 in CSM; of 64 bytes at x3 = 0x30000 on the versioned page. -/
def mf : RegForm := ⟨.x 5, .x 2, .imm 0, .x 0, 3, 0⟩

theorem reaches_at {va align loc : Nat} {want : Want} {home : Nat → Bool} (r : Rights) (i : Instr) (sys : Bool)
    (h : (va < 2 ^ 52 ∧ (inWindow va && (va - windowBase) / 2 ^ 23 % 2 == 1) = false ∧ va % align = 0) ∧ home loc = true ∧
      ∀ sys, translate (task sys) 0 0 va = .hit loc r ∧ allowed (task sys) want loc r = true) :
    Reaches (task sys) (taskEnv sys i) (.va va) align want home va loc :=
  ⟨rfl, h.1.1, h.1.2.1, h.1.2.2, r, (h.2.2 sys).1, (h.2.2 sys).2, h.2.1⟩

/-- Where 0x20000, 0x30000 and the base of the core-local window lie for core 0. -/
theorem test_reaches (sys : Bool) (i : Instr) :
    Reaches (task sys) (taskEnv sys i) (.va 0x20000) 8 .read anyHome 0x20000 0x4000000000 ∧
    Reaches (task sys) (taskEnv sys i) (.va 0x20000) 8 .both unitHome 0x20000 0x4000000000 ∧
    Reaches (task sys) (taskEnv sys i) (.va 0x20000) 16 .both isCsm 0x20000 0x4000000000 ∧
    Reaches (task sys) (taskEnv sys i) (.va 0x20000) 8 .write anyHome 0x20000 0x4000000000 ∧
    Reaches (task sys) (taskEnv sys i) (.va 0x30000) 64 .versioned anyHome 0x30000 0x4000010000 ∧
    Reaches (task sys) (taskEnv sys i) (.va windowBase) 4 .both unitHome windowBase (2 ^ 40) :=
  ⟨reaches_at ⟨true, true, false, false, false⟩ i sys (by decide), reaches_at ⟨true, true, false, false, false⟩ i sys (by decide),
   reaches_at ⟨true, true, false, false, false⟩ i sys (by decide), reaches_at ⟨true, true, false, false, false⟩ i sys (by decide),
   reaches_at ⟨true, true, false, true, false⟩ i sys (by decide), reaches_at windowRights i sys (by decide)⟩

theorem test_memory_can_run : ∀ i ∈ [Instr.ld mf, .ldi ⟨.x 5, .x 2, 3, 0⟩, .gath ⟨.x 5, .imm 3, .x 0, .x 0, 3, 0⟩,
      .gath ⟨.x 5, .imm 4, .x 0, .x 0, 3, 0⟩, .st ⟨.x 0, .x 2, .imm 0, .x 1, 3, 0⟩, .sti ⟨.x 1, .x 2, 3, 0⟩,
      .scat ⟨.x 0, .imm 3, .x 1, .x 0, 3, 0⟩, .scat ⟨.x 0, .imm 4, .x 1, .x 0, 3, 0⟩, .atom ⟨.x 5, .x 2, .x 1, .x 0, 3, 0⟩,
      .cas ⟨.x 5, .x 2, .x 1, .x 2, 3, 0⟩, .append ⟨.x 5, .x 2, .x 1, .x 0, 3, 0⟩, .ticket ⟨.x 5, .x 2, .x 1, .x 2, 3, 0⟩,
      .atom ⟨.x 5, .x 7, .x 1, .x 0, 2, 0⟩, .stv ⟨.x 0, .x 3, .x 1, .x 1, 2, 0⟩, .advv ⟨.x 0, .x 3, .x 1, .x 0, 2, 0⟩,
      .reclv ⟨.x 0, .x 3, .x 1, .x 0, 2, 0⟩, .ldv ⟨.x 0, .x 3, .x 1, .x 0, 2, 0⟩, .fence ⟨.x 0, .x 0, .x 0, .x 0, 0, 0⟩,
      .fence ⟨.x 0, .x 0, .x 0, .x 0, 0x28, 0⟩, .shape ⟨.x 0, .x 2, .imm 7, .x 0, 0, 0⟩],
    let s := task false
    let e := taskEnv false i
    MayRun s i e ∧ Here s e (operandsOf i) ∧ loadsFull s e = false ∧ storesFull s e = false ∧
      suppressed s e (operandsOf i) = false := by
  simp only [MayRun, Here]; decide

/-- The addresses that these words form, and the slot of the indexed ones: index 3 lies in it and 4 does not. -/
theorem test_memory_addresses : let i := Instr.ld mf
    let s := task false
    let e := taskEnv false i
    effAddr s e 0 (srcVal s e (.x 2)) (srcVal s e (.imm 0)) = .va 0x20000 ∧ effAddrImm e (srcVal s e (.x 2)) 0 = .va 0x20000 ∧
    effAddr s e 0 (srcVal s e (.x 3)) 0 = .va 0x30000 ∧ effAddr s e 0 (srcVal s e (.x 7)) 0 = .va windowBase ∧
    shapeOnItsWay s e 0 = false ∧ memSz 3 = (slotOf s e 0).esz ∧ (slotOf s e 0).count = 4 ∧
    (srcVal s e (.imm 3)).toNat % 2 ^ 32 = 3 ∧ (srcVal s e (.imm 4)).toNat % 2 ^ 32 = 4 ∧
    addrLocal (.va 0x20000) = false ∧ addrLocal (.va windowBase) = true ∧ mBytes 3 = 8 ∧ mBytes 2 = 4 := by decide

theorem test_VersionedFenceShape_cases :
    (reserveCont (task false) 0 0 .answer).isSome = true ∧ predicate (task false) (taskEnv false (.fence xf)) = true ∧
    (memScope 0).toNat = 0 ∧ (memScope 0x28).toNat = 5 ∧ (srcVal (task false) (taskEnv false (.shape xf)) (.imm 7)).toNat = 7 := by
  decide

/-- A firing that has begun again: its first word has run before, and its read brought 9. -/
def again : State := node { firing with redo := 1, memo := [(0, 9, .i32)] } (tok 5) (tok 7) true

theorem test_LoadWords_again : (∀ i ∈ [Instr.ld ⟨.l 1, .p 0, .imm 0, .x 0, 2, 0x80⟩, .ldi ⟨.l 1, .p 0, 2, 0⟩, .gath ⟨.l 1, .p 0, .x 0, .x 0, 2, 0⟩,
      .st ⟨.x 0, .p 0, .imm 0, .p 1, 2, 0x80⟩, .sti ⟨.p 1, .p 0, 2, 0⟩, .scat ⟨.x 0, .p 0, .p 1, .x 0, 2, 0⟩],
      MayRun again i (nodeEnv i) ∧ Here again (nodeEnv i) (operandsOf i) ∧ redone again (nodeEnv i) = true) ∧
    firing.idx < 1 ∧ [(0, (9 : Word), Fmt.i32)].find? (·.1 == firing.idx) = some (0, 9, .i32) := by
  simp only [MayRun, Here]; decide

theorem test_memory_first : ∀ i : Instr, redone (task false) (taskEnv false i) = false ∧ redone (action id) (actionEnv i) = false :=
  fun _ => ⟨rfl, rfl⟩

/-- An action's LDV and SHAPE at the address in a0. -/
def pointed : State := action fun z => { z with a := put z.a 0 0x30000 }

theorem test_VersionedFenceShape_action :
    (∀ i ∈ [Instr.ldv ⟨.a 1, .a 0, .imm 1, .x 0, 2, 0⟩, .shape ⟨.x 0, .a 0, .imm 0, .x 0, 0, 0⟩],
      MayRun pointed i (actionEnv i) ∧ Here pointed (actionEnv i) (operandsOf i) ∧
        suppressed pointed (actionEnv i) (operandsOf i) = false) ∧
    effAddr pointed (actionEnv (.ldv xf)) 0 (srcVal pointed (actionEnv (.ldv xf)) (.a 0)) 0 = .va 0x30000 := by
  simp only [MayRun, Here]; decide

theorem test_IssuedReadInTask_issues : ∃ t, issueRead (task false) (taskEnv false (.ld mf)) (.x 5) ⟨3, false, .raw⟩
    (wordAccess (task false) (taskEnv false (.ld mf)) 3 .load 0x20000 0x4000000000 8) = .done t := ⟨_, rfl⟩

/-- A node's address past the window, one above the space, one in the hole, a misaligned one, one without rights. -/
theorem test_AddressFaults_cases :
    effAddr plainNode (nodeEnv (.ld nf)) 0x80 0x800000 0 = .outside (windowBase + 0x800000) ∧
    (let e := taskEnv false (.ld mf)
     let at' (o : Operand) : AddrEnd := effAddr (task false) e 0 (srcVal (task false) e o) 0
     at' (.x 4) = .va (2 ^ 63) ∧ at' (.x 6) = .va 0xFFFFFFF800000 ∧ at' (.x 1) = .va 5 ∧ at' (.x 3) = .va 0x30000) ∧
    (inWindow 0xFFFFFFF800000 && (0xFFFFFFF800000 - windowBase) / 2 ^ 23 % 2 == 1) = true ∧ 5 % mBytes 3 ≠ 0 ∧
    translate (task false) 0 0 0x30000 = .hit 0x4000010000 ⟨true, true, false, true, false⟩ ∧
    allowed (task false) .read 0x4000010000 ⟨true, true, false, true, false⟩ = false ∧
    allowed (task false) .write 0x4000010000 ⟨true, true, false, true, false⟩ = false := by decide

theorem test_AddressFaults_can_run : (∀ i ∈ [Instr.ld ⟨.x 5, .x 4, .imm 0, .x 0, 3, 0⟩, .st ⟨.x 0, .x 4, .imm 0, .x 1, 3, 0⟩],
      MayRun (task false) i (taskEnv false i) ∧ Here (task false) (taskEnv false i) (operandsOf i)) ∧
    (let i := Instr.ld ⟨.l 1, .l 2, .imm 0, .x 0, 2, 0x83⟩; MayRun plainNode i (nodeEnv i) ∧ Here plainNode (nodeEnv i) (operandsOf i)) := by
  simp only [MayRun, Here]; decide

/-! ## Tasks and control -/

/-- F-REG with nothing in it. -/
def zf : RegForm := ⟨.x 0, .x 0, .x 0, .x 0, 0, 0⟩

/-- The words of tasks, in each of the cases that the statements tell apart. -/
def controlWords : List Instr :=
  [.nop zf, .br ⟨.x 0, .x 0, 0, 2⟩, .brc ⟨.x 1, .x 1, 0, 2⟩, .brc ⟨.x 1, .x 2, 5, 2⟩, .call ⟨.x 5, .x 0, 0, 2⟩,
   .ret { zf with a := .x 2 }, .ret { zf with a := .x 1 }, .jtab ⟨.x 0, .x 1, .x 2, .imm 5, 0, 7⟩,
   .jtab ⟨.x 0, .x 1, .x 2, .x 8, 0, 7⟩, .jtab ⟨.x 0, .x 1, .x 1, .x 8, 0, 7⟩, .trap ⟨.x 0, .x 0, 0, 9⟩, .tend zf, .done zf,
   .tpost { zf with b := .imm 63 }, .tpost { zf with b := .x 8, c := .x 28, x := 4 }, .msend { zf with a := .x 14, b := .imm 63 },
   .msend { zf with a := .x 9, b := .imm 0 }, .msend { zf with a := .x 10, b := .imm 0 }, .msend { zf with a := .x 14, b := .x 8 },
   .wait ⟨0xFF, 0, 0xFF, 0xFF, 0, 63, 0⟩, .seqwt { zf with a := .imm 3, b := .x 1 }, .seqwt { zf with a := .imm 4 },
   .barw { zf with a := .x 11 }, .barw { zf with a := .x 12 }, .barw zf, .range { zf with a := .imm 63 },
   .range { zf with a := .x 8 }, .bara { zf with a := .x 11, b := .x 13, c := .imm 4 }, .bara { zf with a := .imm 1, b := .imm 1, c := .imm 1 },
   .bara { zf with a := .imm 1, b := .imm 1, c := .imm 5 }, .gbar { zf with a := .imm 1, b := .imm 1, x := 0x0900 },
   .gbar { zf with a := .imm 1 }, .cntrd { zf with d := .x 5, a := .imm 7 }, .cntrd { zf with d := .x 5, a := .imm 8 },
   .mfs ⟨.x 5, .x 0, 0, 0x010⟩, .mfs ⟨.x 5, .x 0, 0, 0x006⟩, .mfs ⟨.x 5, .x 0, 0, 0x800⟩, .mfs ⟨.x 5, .x 0, 0, 0x808⟩,
   .mfs ⟨.x 5, .x 0, 0, 0x809⟩, .mts ⟨.x 0, .x 1, 0, 0x010⟩, .mts ⟨.x 0, .x 1, 0, 0x006⟩, .mts ⟨.x 0, .x 1, 0, 0x13F⟩,
   .mts ⟨.x 0, .x 1, 0, 0x808⟩, .mts ⟨.x 0, .x 1, 0, 0x809⟩]

theorem test_control_can_run : ∀ sys, ∀ i ∈ controlWords, MayRun (task sys) i (taskEnv sys i) := by simp only [MayRun]; decide

/-- The values on which their cases turn, at the ends of their ranges. -/
theorem test_control_values :
    let v (o : Operand) : Nat := (srcVal (task true) (taskEnv true (.nop zf)) o).toNat
    ([.imm 63, .x 8, .x 14, .x 9, .x 10, .x 11, .x 12].map v = [63, 64, 0, 255, 256, 1023, 1024]) ∧
    v (.x 2) % 8 = 0 ∧ v (.x 1) % 4 ≠ 0 ∧ v (.imm 5) ≤ v (.x 1) ∧ v (.x 1) < v (.x 8) := by decide

/-- The room and the releases that they ask for are there. -/
theorem test_control_room : let k := coreAt (task true) 0
    (k.outq.length < 16 ∧ storeUsed k < 256) ∧
    (([1, 5] : List Nat).all (released (task true) (taskEnv true (.nop zf)))) = true := by decide

/-- The task runs on a core of a launch that lives and has no stages; core 255 is none of its cores. -/
theorem test_control_launch : (∃ t, taskOf (task true) 0 = some t) ∧ launchBy (task true) 0 = some placedLaunch ∧
    isLive placedLaunch.phase = true ∧ nStages placedLaunch.recd = 0 ∧
    ([0, 255] : List CoreId).map placedLaunch.cores.contains = [true, false] := ⟨⟨_, rfl⟩, by decide⟩

/-- JTAB's entry 5 of the table at x2 can be read. -/
theorem test_BranchWords_entry : Reaches (task true) (taskEnv true (.nop zf)) (.va 0x20014) 4 .read anyHome 0x20014 0x4000000014 :=
  reaches_at ⟨true, true, false, false, false⟩ _ _ (by decide)

/-- The entry comes. -/
theorem test_BranchWords_arrival : ({ plainAccess (taskEnv true (.nop zf)).who (.bank 0) 0 .load 0 0 [] with dest := .jtab 0 } : Access).dest = .jtab 0 ∧
    taskOf (task true) 0 = some ⟨0, 0x10000, 0, 0, none⟩ := ⟨rfl, by decide⟩

theorem test_ReturnSetsPc_cases : encode (.ret { zf with a := .x 2 }) = some 0x5300020000000000 ∧
    (srcVal (task true) (taskEnv true (.nop zf)) (.x 2)).extractLsb' 0 3 = 0 ∧
    (srcVal (task true) (taskEnv true (.nop zf)) (.x 1)).extractLsb' 0 3 ≠ 0 := by decide

theorem test_TrapEndsLaunch_cases : encode (.trap ⟨.x 0, .x 0, 0, 9⟩) = some 0x5F00000000000009 ∧
    (let i := Instr.trap ⟨.x 1, .x 0, 0, 9⟩
     envOf (task false) i = some (taskEnv false i) ∧ heldAtIssue (task false) (taskEnv false i) = false ∧
      (taskEnv false i).kind = .task ∧ ¬(Operand.x 1 = .x 0 ∧ Operand.x 0 = .x 0 ∧ (0 : BitVec 8) = 0)) := by decide

/-- A store of bank 0 that has not left its queue: nothing of the bank is released. -/
def busy (sys : Bool) : State :=
  { task sys with
    nextId := 2
    accs := [{ plainAccess (taskEnv sys (.nop zf)).who (.bank 0) 0 .store 0x20000 0x4000000000 [1] with id := 1 }] }

theorem test_TaskEnds_waits : MayRun (busy true) (.done zf) (taskEnv true (.done zf)) ∧ released (busy true) (taskEnv true (.done zf)) 1 = false := by
  simp only [MayRun]; decide

/-- The launch owns range queue 63, and none of the others. -/
def ranged : State := modDie (task true) 0 fun d => { d with rqs := [(63, ⟨0, [(0, 4)], []⟩)] }

theorem test_SplitPhaseWords_ranges :
    ((dieAt ranged 0).rqs.any fun x => x.1 == 63 && x.2.launch == placedLaunch.id) = true ∧
    ((dieAt (task true) 0).rqs.any fun x => x.1 == 63 && x.2.launch == placedLaunch.id) = false ∧
    (∃ t, taskOf ranged 0 = some t) ∧ MayRun ranged (.range { zf with a := .imm 63 }) (taskEnv true (.range { zf with a := .imm 63 })) := by
  refine ⟨by decide, by decide, ⟨_, rfl⟩, ?_⟩
  simp only [MayRun]; decide

theorem test_BarrierWords_cases :
    barrierArgsOk 1023 65535 4 = true ∧ barrierArgsOk 1 1 1 = true ∧ barrierArgsOk 0 1 1 = false ∧ barrierArgsOk 1024 1 1 = false ∧
    barrierArgsOk 1 0 4 = false ∧ barrierArgsOk 1 65536 4 = false ∧ barrierArgsOk 1 1 0 = false ∧ barrierArgsOk 1 1 5 = false ∧
    barrierAt (coreAt (task true) 0) 1 = ⟨0, ⟨0, 0, 0⟩, ⟨0, 0, 0⟩⟩ ∧ partDone ⟨0, 0, 0⟩ = false ∧ partDone ⟨1, 1, 1⟩ = true ∧
    scopesClash (task true) placedLaunch 0 1 0 1 = false := by decide

theorem test_BarrierWords_completes : let s := task true
    (∀ i ∈ [Instr.bara { zf with d := .x 5, a := .imm 1, b := .imm 1, c := .imm 4 }, .gbar { zf with a := .imm 1, b := .imm 1, x := 0x0900 }],
      MayRun s i (taskEnv true i) ∧ released s (taskEnv true i) 4 = true) ∧
    barrierArgsOk 1 1 4 = true ∧ scopesClash s placedLaunch 0 1 0 4 = false ∧ (taskOf s 0).isSome = true ∧
    storeUsed (coreAt s 0) < 256 := by simp only [MayRun]; decide

/-- Both phases' parts are complete on the core: an arrival would open a third. -/
theorem test_BarrierWords_third : let x : Barrier := ⟨4, ⟨1, 1, 1⟩, ⟨1, 1, 1⟩⟩
    barrierAt (setBarrier (coreAt (task true) 0) 1 x) 1 = x ∧ partDone x.cur = true ∧ partDone x.nxt = true := by decide

/-- The first arrival expected another count, or a word of the bank has not been released. -/
theorem test_BarrierWords_differs : let x : Barrier := ⟨4, ⟨1, 3, 4⟩, ⟨0, 0, 0⟩⟩
    let s := modCore (task true) 0 fun k => setBarrier k 1 x
    barrierAt (coreAt s 0) 1 = x ∧ partDone x.cur = false ∧ x.cur.cnt ≠ 0 ∧ x.cur.e ≠ 1 ∧
    (∀ i ∈ [Instr.bara { zf with d := .x 5, a := .imm 1, b := .imm 1, c := .imm 4 }, .gbar { zf with a := .imm 1, b := .imm 1, x := 0x0900 }],
      MayRun s i (taskEnv true i) ∧ released s (taskEnv true i) 4 = true ∧
      MayRun (busy true) i (taskEnv true i) ∧ released (busy true) (taskEnv true i) 4 = false) := by simp only [MayRun]; decide

/-! ## Special registers -/

theorem test_SpecialRegisterWords_cases : let s := task true
    let e := taskEnv true (.nop zf)
    (readSpecial s e 0x010).isSome = true ∧ readSpecial s e 0x006 = none ∧ (∃ s1, writeSpecial s 0 0 0x010 5 = .ok s1) ∧
    writeSpecial s 0 0 0x006 5 = .bad ∧ (sysReg s 0 0x800).isSome = true ∧ (sysReg s 0 0x808).isSome = true ∧
    writeSpecial (modCore s 0 fun k => { k with chtab := put k.chtab 0 ⟨0, some (1, 4)⟩ }) 0 0 0x100 5 = .busy := by
  refine ⟨by decide, by decide, ⟨_, rfl⟩, by decide, by decide, by decide, by decide⟩

/-- A temperature that has been measured in this cycle, and none. -/
theorem test_SpecialRegisterWords_clkst : (taskEnv true (.nop zf)).kind = .system ∧ (dieAt (task true) 0).tempAt ≠ some (task true).now ∧
    (dieAt (modDie (task true) 0 fun d => { d with tempAt := some 0 }) 0).tempAt = some (task true).now := by decide

theorem test_SpecialReadFrame_reads : ∀ i ∈ [0x010, 0x031, 0x043, 0x050, 0x053], (readSpecial (task true) (taskEnv true (.nop zf)) i).isSome = true := by
  decide

/-- A cycle in which nothing has been set yet, and one that has set CONF. -/
theorem test_SpecialReadFrame_cycles : let k := coreAt { task true with now := 1 } 0
    k.flagsNow.1 ≠ 1 ∧ k.dropNow.1 ≠ 1 ∧ k.confAt ≠ some 1 ∧ (∀ p, (at' k.parsers p).recNow.1 ≠ 1) ∧
    (coreAt (task true) 0).flagsNow.1 = (task true).now ∧ (coreAt (task true) 0).dropNow.1 = (task true).now ∧
    (coreAt (modCore (task true) 0 fun k => { k with confAt := some 0 }) 0).confAt = some (task true).now := by decide

theorem test_SpecialWriteThenRead_ranges : ctxBy (task true) 0 = some (placedCtx true) ∧ field 14 3 0 = 14 ∧ field 15 3 0 = 15 ∧
    field 2 1 0 = 2 ∧ field 3 1 0 = 3 ∧ field 4 2 0 = 4 ∧ field 5 2 0 = 5 := by decide

theorem test_SpecialRegisterSteps_cases : holderOf (task true) 0 = some placedLaunch ∧ (at' (coreAt (task true) 0).chtab 5).next = none ∧
    (at' (coreAt (modCore (task true) 0 fun k => { k with chtab := put k.chtab 5 ⟨0, some (1, 4)⟩ }) 0).chtab 5).next = some (1, 4) ∧
    (writeSk (task true) 0 0 14).isSome = true ∧ writeSk (task true) 0 0 15 = none ∧ ((coreAt (task true) 0).task).isSome = true := by
  decide

/-! ## Engines -/

/-- A command that names registers x5, x2, x1 of a task, of class, handle or chain 0. -/
def ef (d a b c : Operand) : EngForm := ⟨d, a, b, c, false, false, 0, false, 0, 0⟩
def gf (d a : Operand) : GrmForm := ⟨d, a, 0, false, 0, 0, 0, 0, 0⟩

/-- Every engine and parser command, with operands r, p, q of the context's own kind. -/
def engineWords (d a b : Operand) : List Instr :=
  let z : Operand := .x 0
  [.sspec (ef z a z z), .sarm (ef z a z z), .copy (ef a b (.imm 8) z), .copyc (ef z a (.imm 1) z), .tld (ef (.t 0) a (.imm 1) (.imm 1)),
   .tst (ef a (.t 0) (.imm 1) (.imm 1)), .tclr (ef (.t 15) z z z), .mldb (ef a b (.imm 1) z), .spld (ef a b z z), .mma (ef z a z z),
   .mnorm (ef z a z z), .gload (ef z a z z), .gbind (ef z a z z), .gfree (ef z z z z), .gqry (ef d z z z),
   .skbld (ef z a (.imm 14) z), .skxch (ef z a b (.imm 1)), .sksub (ef d a b (.imm 1)), .skpeel (ef d a b (.imm 1)),
   .skrecon (ef z z z z), .skfix (ef d a (.imm 1) z), .gstart (gf z (.imm 0)), .gstop (gf z z), .gmask (gf d a), .gfeed (gf d a),
   .gstat (gf d z)]

theorem test_EngineWords_task : ∀ i ∈ engineWords (.x 5) (.x 2) (.x 1),
    MayRun (task false) i (taskEnv false i) ∧ (engQueue i).isSome = true ∧ (commandOperands i).isSome = true ∧
      catCount (at' (coreAt (task false) 0).banks 0) (waitCat i) < 64 := by
  simp only [MayRun]; decide

theorem test_EngineWords_action : ∀ i ∈ engineWords (.a 5) (.a 2) (.a 1) ++ [.gskip ⟨.a 1, .imm 0, 0, 0, 7⟩, .gskip ⟨.a 1, .imm 0, 5, 0, 1⟩],
    MayRun (action id) i (actionEnv i) := by
  simp only [MayRun]; decide

/-- A bank with 64 commands in its categories. -/
def loaded : State := modCore (task false) 0 fun k => modBank k 0 fun b => { b with cp := 64, tl := 64, gx := 64 }

theorem test_EngineWords_full : ∀ i ∈ [Instr.copyc (ef (.x 0) (.x 2) (.imm 1) (.x 0)), .mma (ef (.x 0) (.x 2) (.x 0) (.x 0)),
      .gfree (ef (.x 0) (.x 0) (.x 0) (.x 0))],
    MayRun loaded i (taskEnv false i) ∧ 64 ≤ catCount (at' (coreAt loaded 0).banks 0) (waitCat i) := by
  simp only [MayRun]; decide

/-- The state with one command, number 7, of the task. -/
def eng (i : Instr) (q : EngQ) (st : EngStage) (f : Eng → Eng) : Eng :=
  f { newEng (task false) (taskEnv false i) i q (.x 0) (.x 0) (.x 0) (.x 0) with id := 7, stage := st }
def withEng (g : Eng) : State := { task false with nextId := 8, engs := [g] }

/-- TCLR, GBIND at x2, SARM of a generator that is not armed, GSTART of a parser that runs. -/
def tclr : Instr := .tclr (ef (.t 0) (.x 0) (.x 0) (.x 0))
def gbind : Instr := .gbind (ef (.x 0) (.x 2) (.x 0) (.x 0))

theorem test_EngineSteps_accept : ∀ g ∈ [eng tclr (.chain 0) .offered id, eng gbind .graph .offered fun g => { g with a := 0x20000 }],
    let s := withEng g
    engBy s g.id = some g ∧ launchBy s g.who.launch = some placedLaunch ∧ mayStep placedLaunch.phase = true ∧ queueRoom s g = true ∧
      acquired s g = true ∧ g.a.toNat % 32 = 0 := by decide

/-- As long as every slot is of partition 0, that partition's requests are served in any cycle (R434). -/
theorem slotOpen_plain {s : State} {d : DieId} {ctx : Nat} (h : (dieAt s d).slotTable = 0) (hp : partOf s ctx = 0) :
    slotOpen s d ctx = true := by simp [slotOpen, h, hp, field]

theorem slotShut_plain {s : State} {c : CoreId} {ctx : Nat} {xs : List Piece} (h : ∀ d, (dieAt s d).slotTable = 0)
    (hp : partOf s ctx = 0) : slotShut s c ctx xs = false := by
  have e : ∀ d, slotsOf (dieAt s d) (partOf s ctx) = 16 := fun d => by simp only [slotsOf, h, hp]; rfl
  cases hx : xs.filterMap fun x => pathDie (some c) x.loc <;> simp [slotShut, diesOpen, hx, e, slotOpen]

theorem engRead_inl {s : State} {g : Eng} {va n : Nat} {xs : List Piece} (hx : engSpan s g .read va n = .inl xs)
    (hs : slotShut s g.who.core g.ctx xs = false) (hb : piecesBad s g.ctx xs = none) : ∃ bs, engRead s g va n = .inl bs :=
  ⟨_, by simp [engRead, hx, piecesHeld, hs, hb]; rfl⟩

theorem test_EngineSteps_bind : let g := eng gbind .graph .offered fun g => { g with a := 0x20000 }
    ∃ bs, engRead (withEng g) g g.a.toNat 32 = .inl bs :=
  engRead_inl (xs := [⟨0x20000, 0x4000000000, 32, ⟨true, true, false, false, false⟩⟩]) rfl (slotShut_plain (by decide) rfl) (by decide)

theorem test_EngineSteps_start : ∀ g ∈ [eng tclr (.chain 0) .queued id, eng (.sarm (ef (.x 0) (.x 0) (.x 0) (.x 0))) (.ag 0) .queued id],
    let s := withEng g
    mayStart s placedLaunch g = true ∧ isNext s g = true ∧ claimsOk g.id [] (coreAt s 0).claims = true ∧ acquired s g = true ∧
      regionBad s g = none := by decide

theorem test_EngineSteps_starts : (∃ t, startCommand (withEng (eng tclr (.chain 0) .queued id)) placedLaunch (eng tclr (.chain 0) .queued id) = .go t) ∧
    (let g := eng (.sarm (ef (.x 0) (.x 0) (.x 0) (.x 0))) (.ag 0) .queued id
     ∃ f, startCommand (withEng g) placedLaunch g = .trap f) ∧
    (let g := eng (.gstart (gf (.x 0) (.x 0))) (.parser 0) .queued id
     let s := modCore (withEng g) 0 fun k => { k with
      grammar := some ⟨false, false, 1, [], [], [], none, [0], []⟩
      parsers := put k.parsers 0 { Parser.zero with state := .run } }
     startCommand s placedLaunch g = .wait) := by
  refine ⟨⟨_, rfl⟩, ⟨_, rfl⟩, by decide⟩

theorem test_EngineSteps_complete :
    (let g := eng tclr (.chain 0) .landed id
     mayReport (withEng g) g = true ∧ g.follow = none ∧ writesDone (withEng g) g = true ∧ g.q ≠ .chisel) ∧
    (let g := eng (.sksub (ef (.x 0) (.x 0) (.x 0) (.x 0))) .chisel .landed id
     mayReport (withEng g) g = true ∧ writesDone (withEng g) g = true ∧ (chiselDone (withEng g) g ((unitOfCommand g.i).getD 16)).isSome = true) ∧
    (let g := eng (.copy { ef (.t 0) (.t 1) (.imm 8) (.x 2) with follow := true }) (.chain 0) .landed fun g => { g with follow := some 9 }
     mayReport (withEng g) g = true ∧ g.follow = some 9 ∧ engBy (withEng g) 9 = none ∧ queueRoom (withEng g) { g with q := .matrix } = true) ∧
    (let g := eng (.copy (ef (.x 0) (.x 0) (.imm 8) (.x 0))) (.chain 0) .started fun g => { g with desc := [0] }
     g.desc ≠ [] ∧ isLive placedLaunch.phase = true ∧ remoteFits g (.ok []) = true ∧ remoteFits g (.ok [1]) = false) := by decide

/-- A command whose flags do not concern memory; one that has named its regions, and one that names them at its start. -/
theorem test_EngineSteps_claims :
    touchesMemory (eng (.mnorm (ef (.x 0) (.x 0) (.x 0) (.x 0))) .matrix .queued id) = false ∧
    touchesMemory (eng tclr (.chain 0) .queued id) = true ∧ claimsAll (coreAt (withEng (eng tclr (.chain 0) .queued id)) 0) 7 = false ∧
    claimsAll (coreAt (modCore (withEng (eng gbind .graph .queued id)) 0 fun k => { k with
      claims := [⟨7, .every, true⟩] }) 0) 7 = true := by decide

/-- A graph bound to a lane and to a stream, with one vector in flight; ODST is d. -/
def bound (d : Nat) (src : Nat) : State :=
  let g := eng gbind .graph .started id
  modCore (withEng g) 0 fun k => { k with graphs := put k.graphs 0 (some ⟨[], 1, 1, 1, false, 0, 1, 0, 1,
    some ⟨7, put (put (Vector.replicate 4 0) (0 : Fin 4) (BitVec.ofNat 64 (src * 2 ^ 62 + d * 2 ^ 60))) (1 : Fin 4) 0x20000, 0, [], [], Place.zero, false,
      [⟨0, [1], 0, 0, 0, false⟩]⟩⟩) }

theorem test_EngineSteps_vectors :
    (∀ d ∈ [0, 1, 2], (at' (coreAt (bound d 0) 0).graphs 0).isSome = true ∧ coreSteps (bound d 0) 0 = true) ∧
    (∀ d ∈ [0, 1, 2], ∀ x, at' (coreAt (bound d 0) 0).graphs 0 = some x → ∀ b, x.bind = some b → bdDst b.desc = d ∧ b.fly.length = 1 ∧
      b.cmd = 7 ∧ flyMax x = 12) ∧
    canWrite (coreAt (bound 0 0) 0) (agRouter 0) 3 = true ∧
    (let s := bound 2 0
     ∃ t, resultMem s (eng gbind .graph .started id) (put (Vector.replicate 4 0) (1 : Fin 4) 0x20000) ⟨0, [1], 0, 0, 0, false⟩ = .inl t) := by
  refine ⟨by decide, ?_, by decide, _, rfl⟩
  intro d hd x hx b hb
  simp only [List.mem_cons, List.not_mem_nil, or_false] at hd
  rcases hd with rfl | rfl | rfl <;> cases hx <;> cases hb <;> decide

/-- A vector of a TILE run is ready in handle 0's turn; a lane's quantiser holds no group. -/
theorem test_EngineSteps_take :
    (let k := coreAt (modCore (bound 0 1) 0 fun k => { k with graphs := put k.graphs 0 ((at' k.graphs 0).map fun x =>
        { x with bind := x.bind.map fun b => { b with desc := put b.desc 0 (BitVec.ofNat 64 (2 ^ 62 + 2 ^ 31)) } }) }) 0
     nextTurn k.armTurn (handleReady k) = some 0) ∧
    (∀ x, at' (coreAt (bound 0 0) 0).graphs 0 = some x → ∀ b, x.bind = some b → vectorReady x b = false ∧ bdSrc b.desc = 0) ∧
    holderOf (bound 0 0) 0 = some placedLaunch ∧ mayStep placedLaunch.phase = true := by
  refine ⟨by decide +kernel, ?_, by decide, rfl⟩
  intro x hx b hb
  cases hx; cases hb; decide

/-- A side of class 0 whose peer is package 7, and one whose peer is class 1 of the same die. -/
def side (slot : Fin 16) (expert paired : Bool) : Side := ⟨slot, 7, (taskEnv false tclr).who, expert, 1, 1, 1, paired, 0⟩
def classOf (pkg slot : Nat) : Cls := ⟨0, put (Vector.replicate 4 0) (3 : Fin 4) (BitVec.ofNat 64 (pkg * 2 ^ 48 + slot * 2 ^ 42))⟩
def half (slot : Fin 16) (pkg peer : Nat) (expert paired : Bool) : Half := ⟨0, side slot expert paired, classOf pkg peer, 7⟩

def sessions (pkg : Nat) (expert paired : Bool) (x : Option Session) : State :=
  modDie (task false) 0 fun d => { d with
    classes := put (put d.classes 0 (some (classOf pkg 1))) 1 (some (classOf pkg 0))
    sides := if pkg = 0 then [side 0 expert paired, side 1 expert paired] else [side 0 expert paired]
    session := x }

/-- What a peer beyond the package says. -/
def peer (e : Nat) : PeerSide := ⟨clsCount (classOf 7 1), clsLesz (classOf 7 1), clsFb (classOf 7 1), clsWin (classOf 7 1), 1, e, 1, [], true⟩

theorem test_EngineSteps_pair :
    (let s := sessions 7 false false none
     let a := half 0 7 1 false false
     halfAt s 0 0 = some a ∧ a.side.paired = false ∧ sidePairs s a.side = true ∧ otherOf s a (some (peer 1)) = some (.beyond (peer 1)) ∧
      sidesAgree a (.beyond (peer 1)) = true) ∧
    (let s := sessions 0 false false none
     let a := half 0 0 1 false false
     let b := half 1 0 0 false false
     halfAt s 0 0 = some a ∧ sidePairs s b.side = true ∧ otherOf s a none = some (.here b) ∧ sidesAgree a (.here b) = true) := by
  decide

theorem test_EngineSteps_slot (pkg : Nat) (x : Option Session) :
    slotOpen (sessions pkg false true x) 0 (classOf pkg 1).ctx = true := slotOpen_plain rfl rfl

theorem test_EngineSteps_rounds : ∀ x ∈ [(true, false), (false, false), (false, true)],
    let s := sessions 7 x.1 true (some ⟨side 0 x.1 true, 0, 1, x.2, false, false⟩)
    let a := half 0 7 1 x.1 true
    let o : Other := .beyond (peer 1)
    currentHalf s 0 = some a ∧ otherOf s a (some (peer 1)) = some o ∧ sideLive s a.side = true ∧ otherLive s o = true ∧
      (openFor s a o).isSome = true := by decide

/-- The peer's class has no side any more. -/
def abandoned : State := modDie (sessions 0 false true none) 0 fun d => { d with sides := [side 0 false true] }

theorem test_EngineSteps_abort : ((dieAt abandoned 0).sides.filterMap fun y => halfAt abandoned 0 y.slot).find? (peerLost abandoned) =
    some (half 0 0 1 false true) := by decide

/-! ## System words -/

/-- The system words. -/
def systemWords : List Instr :=
  [.ctxsv { zf with d := .x 5, b := .x 14 }, .ctxld { zf with d := .x 5 }, .ctxld { zf with d := .x 5, b := .x 14 },
   .freeze { zf with d := .x 5, b := .imm 15 }, .rmark { zf with d := .x 5, b := .imm 1, c := .imm 1 }, .tlbi { zf with b := .x 2 },
   .tlbi { zf with x := 1 }, .tlbi { zf with x := 2 }, .cfgld { zf with d := .x 5, b := .imm 20 }, .jrnl { zf with d := .x 5, a := .x 2, b := .x 13 },
   .sema { zf with d := .x 5 }, .sret { zf with b := .x 1 }, .haltc { zf with d := .x 5, a := .x 9, b := .imm 1 },
   .attest { zf with a := .x 2, b := .x 2 }, .pgver { zf with d := .x 5 }, .partset { zf with d := .x 5, a := .x 9, b := .x 9 }]

/-- A large page of DRAM besides, and a launch held in the context, whose area at 0x200000 has its header. -/
def heldLaunch : Held := ⟨{ placedLaunch with id := 1, q := 0 }, [], [], [], []⟩
def system (held : Bool) : State :=
  { modDie (task true) 0 fun d => { d with tlb := d.tlb ++ [⟨0, 0x200000, 21, 0x200000, ⟨true, true, false, false, false⟩⟩] } with
    ctxs := [{ placedCtx true with held := if held then some heldLaunch else none, objs := [⟨0x50000, 0x10000, 1, [], false⟩] }]
    launches := [placedLaunch, { placedLaunch with id := 2, q := 1, cores := [1] }]
    mem := [⟨0x200027, 0x80⟩]
    cpsem := .sys 0
    frieze := [⟨0, 0x2F, .accepted, 0, 0, 0, 0, 0, []⟩]
    sysWork := [(.port 0, .sysrt)] }

theorem test_SystemWords_ready : ∀ i ∈ systemWords, MayRun (system true) i (taskEnv true i) ∧ SysReady (system true) (taskEnv true i) 0 := by
  simp only [MayRun, SysReady]; decide

theorem test_SystemWords_wait : ∀ i ∈ systemWords, MayRun (busy true) i (taskEnv true i) ∧ released (busy true) (taskEnv true i) 5 = false := by
  simp only [MayRun]; decide

/-- A command stands before the words; the page at 0x10000 of the large page's context does not translate. -/
theorem test_SystemWords_more :
    ({ system true with cmds := [(1, ⟨.A, 1, 0, 0, 0, 0, 0, 0, 0, 0⟩)] } : State).cmds ≠ [] ∧
    (at' (coreAt (system true) 0).banks 0).sysq = [] ∧
    codeFault (system true) 0 0x10000 = some (.translation, walkExtra (tableEntry (system true).mem 0 0) 3) := by decide +kernel

theorem test_SystemWords_user : ∀ i ∈ systemWords, envOf (task false) i = some (taskEnv false i) ∧
    heldAtIssue (task false) (taskEnv false i) = false ∧ (taskEnv false i).kind = .task := by decide

/-- A range that its context may write is written. -/
theorem sysWrite_writes {s : State} {e : Env} {im : Bool} {va n : Nat} {xs : List Piece} (bs : List Byte) (hn : bs.length = n)
    (h : sysSpan s e im .write va n = .inl xs) (hg : xs.find? (fun x => guardStands s e.launch.ctx x.loc) = none)
    (hs : slotShut s e.core e.launch.ctx xs = false) (hw : xs.any (fun x => rangeOwes s x.loc x.len) = false)
    (ho : outsideHeld s (xs.map fun x => (x.loc, x.len)) = false) : ∃ t, sysWrite s e im va bs = .inl t := by
  subst hn; exact ⟨_, by simp only [sysWrite, h, hg, hs, hw, ho]; rfl⟩

/-- A range that its context may read is read. -/
theorem sysRead_reads {s : State} {e : Env} {im : Bool} {va n loc : Nat} {r : Rights}
    (h : sysSpan s e im .read va n = .inl [⟨va, loc, n, r⟩]) (hs : slotShut s e.core e.launch.ctx [⟨va, loc, n, r⟩] = false)
    (hb : piecesBad s e.launch.ctx [⟨va, loc, n, r⟩] = none) : sysRead s e im va n = .inl (memGetN s.mem loc n) := by
  rw [sysRead, h]; simp [piecesHeld, hs, hb]

theorem sysRead_some {s : State} {e : Env} {im : Bool} {va n : Nat} {xs : List Piece} (h : sysSpan s e im .read va n = .inl xs)
    (hs : slotShut s e.core e.launch.ctx xs = false) (hb : piecesBad s e.launch.ctx xs = none) : ∃ bs, sysRead s e im va n = .inl bs :=
  ⟨_, by simp [sysRead, h, piecesHeld, hs, hb]; rfl⟩

theorem memGetN_take (m : Memory) (k : Nat) : ∀ n a, (memGetN m a (k + n)).take k = memGetN m a k := by
  induction k with
  | zero => simp [memGetN]
  | succ k ih => intro n a; rw [Nat.add_right_comm]; simp [memGetN, ih]

/-- The context of the held launch. -/
def heldCtx : Ctx := { placedCtx true with held := some heldLaunch, objs := [⟨0x50000, 0x10000, 1, [], false⟩] }

theorem test_SystemWords_save : ctxOperand (system true) 0 = some heldCtx ∧ heldCtx.held = some heldLaunch ∧ (0x200000 : Nat) % 4096 = 0 ∧
    ∃ t, sysWrite (system true) (taskEnv true (.ctxsv zf)) true 0x200000 (areaBytes heldCtx heldLaunch) = .inl t :=
  ⟨rfl, rfl, rfl, sysWrite_writes _ (areaBytes_length _ _ rfl) rfl rfl (slotShut_plain (by decide) rfl) rfl rfl⟩

theorem test_SystemWords_restore : mayRestore heldCtx = true ∧ areaLen heldLaunch.cores.length = 0x20000 ∧
    (∃ hd, sysRead (system true) (taskEnv true (.ctxld zf)) true 0x200000 4096 = .inl hd ∧ headerFits heldLaunch hd = true) ∧
    ∃ bs, sysRead (system true) (taskEnv true (.ctxld zf)) true 0x200000 0x20000 = .inl bs := by
  refine ⟨by decide, by decide, ⟨_, sysRead_reads rfl (slotShut_plain (by decide) rfl) rfl, ?_⟩, sysRead_some rfl (slotShut_plain (by decide) rfl) rfl⟩
  unfold headerFits
  rw [memGetN_take _ 48 4048]; decide

theorem test_SystemWords_stop : let s := system false
    ∀ x, ctxOperand s 0 = some x → (∀ k ∈ [none, some 1], stopOp s x 15 k (some 0) .nobody = .nothing) ∧
      ∀ k ∈ [none, some 1], ∃ t, stopOp s x 1 k (some 0) .nobody = .stopping t := by
  intro s x h; cases h
  refine ⟨by decide, ?_⟩
  intro k hk
  simp only [List.mem_cons, List.not_mem_nil, or_false] at hk
  rcases hk with rfl | rfl <;> exact ⟨_, rfl⟩

theorem test_SystemWords_values : let s := system true
    (∀ v ∈ [20, 34], (cfgOp s 0 v).isSome = true) ∧ (∀ v ∈ [24, 40], (cfgOp s 1 v).isSome = true) ∧
    (∀ op ∈ [0, 1, 2], (semaOp s (.sys 0) op).isSome = true) ∧ s.cpsem = .sys 0 ∧ (task true).cpsem ≠ .sys 0 ∧
    awaitsResult s 0 = true ∧ (ctxOperand s 0).isSome = true := by decide

theorem test_SystemWords_reads : (∃ bs, sysRead (system true) (taskEnv true (.jrnl zf)) false 0x20000 40 = .inl bs) ∧
    ∃ bs, sysRead (system true) (taskEnv true (.attest zf)) false 0x20000 64 = .inl bs :=
  ⟨sysRead_some rfl (slotShut_plain (by decide) rfl) rfl, sysRead_some rfl (slotShut_plain (by decide) rfl) rfl⟩

theorem test_SystemWords_report (nonce : List Byte) : ctxBy (system true) 0 = some heldCtx ∧
    ∃ t, sysWrite (system true) (taskEnv true (.attest zf)) false 0x20000 (reportBytes (system true) nonce [] heldCtx 0) = .inl t :=
  ⟨rfl, sysWrite_writes _ (reportBytes_length _ _ _ _ _) rfl rfl (slotShut_plain (by decide) rfl) rfl rfl⟩

/-- A CFGLD behind a word that has not completed, and a request that comes later in the order of its cycle. -/
theorem test_SystemWords_queued : let i : Instr := .cfgld { zf with d := .x 5, b := .imm 20 }
    let s := modCore (system true) 0 fun k => { k with banks := put k.banks 0 { at' k.banks 0 with sysq := [(9, 0, none)] } }
    let late := { system true with lastReach := (0, 1025) }
    (MayRun s i (taskEnv true i) ∧ SysReady s (taskEnv true i) 0 ∧ (at' (coreAt s 0).banks 0).sysq ≠ []) ∧
    MayRun late i (taskEnv true i) ∧ mayReach late (sysPlace (taskEnv true i)) = false := by
  simp only [MayRun, SysReady]; decide

/-- The page of a code object at 0x20000, which the tables map and whose check has passed. -/
def verified : State := { system true with
  mem := [⟨0, 1⟩, ⟨16, 1⟩, ⟨18, 2⟩, ⟨22, 0x20⟩, ⟨23, 7⟩]
  ctxs := [{ heldCtx with objs := [⟨0x50000, 0x20000, 1, [], false⟩], checked := [(0x20000, 0x20000)] }] }

theorem test_SystemWords_page : MayRun verified (.pgver { zf with d := .x 5 }) (taskEnv true (.pgver { zf with d := .x 5 })) ∧
    SysReady verified (taskEnv true (.pgver { zf with d := .x 5 })) 0 := by simp only [MayRun, SysReady]; decide

theorem test_SystemWords_passed : ∃ x o, ctxOperand verified 0 = some x ∧ objectAt x 0x20000 = some o ∧
    pageOp verified x o 0x20000 = some (0, verified) := by
  refine ⟨_, _, rfl, rfl, ?_⟩
  have h : walk verified 0 0x20000 = .leaf ⟨0, 0x20000, 16, 0x20000, ⟨true, true, true, false, false⟩⟩ := by decide +kernel
  simp [pageOp, pageHome, heldCtx, placedCtx, h]

/-! ## Memory steps -/

/-- An access of the task, number 1, and the state with these accesses. -/
def acc (k : AccKind) (loc stage : Nat) (f : Access → Access) : Access :=
  f { plainAccess (taskEnv true (.nop zf)).who (.bank 0) 0 k 0x20000 loc [1] with id := 1, stage := stage }
def withAccs (as : List Access) : State := { task true with nextId := 3, accs := as }
/-- The same with no task on the core. -/
def idle (s : State) : State := modCore s 0 fun k => { k with task := none }

/-- A store to CSM in its queue, at the first level and at its home's level, 3; a store that a guard stops; a load. -/
theorem test_MemoryPath_writes :
    (let a := acc .store 0x4000000000 0 id
     let s := withAccs [a]
     accBy s 1 = some a ∧ a.waiting = false ∧ isWriteKind a.kind = true ∧ launchIssues s a = true ∧ canLeave s a = true ∧
      crossesGuard s a = false) ∧
    (let a := acc .store 0x4000000000 1 id
     canMoveOn (withAccs [a]) a = true ∧ a.stage < homeLevel a.who.core a.loc) ∧
    (let a := acc .store 0x4000000000 3 id
     canMoveOn (withAccs [a]) a = true ∧ homeLevel a.who.core a.loc ≤ a.stage ∧ heldAtHome (withAccs [a]) a = false ∧
      bankOwes (withAccs [a]) a = false) ∧
    (let a := acc .store (2 ^ 40) 0 id
     crossesGuard (modCore (withAccs [a]) 0 fun k => { k with guardV := 0x01 }) a = true) := by decide

theorem test_MemoryPath_reads : let a := acc .load 0x4000000000 0 id
    let s := withAccs [a]
    isWriteKind a.kind = false ∧ launchIssues s a = true ∧ canLeave s a = true ∧ bankOwes s a = false := by decide

/-- A core's own tile, any location while every slot is of partition 0; a steering port with room, and one with 16 requests. -/
theorem test_MemoryPath_arrives (loc : Nat) :
    pathOpen (withAccs [acc .load loc 0 id]) 0 0 loc = true ∧
    (let s := withAccs (List.replicate 16 (acc .store (2 ^ 40) 1 fun a => { a with port := some 0 }))
     16 ≤ (atSteer s (tileOfLoc (2 ^ 40))).length) ∧
    (let a := acc .load (2 ^ 40) 0 id
     a.port = none ∧ isScratch a.loc = true ∧ (atSteer (withAccs [a]) (tileOfLoc a.loc)).length < 16 ∧ a.got = none ∧ a.exc = none) ∧
    isScratch 0x4000000000 = false := by
  refine ⟨?_, by decide, by decide, by decide⟩
  have (d : DieId) : slotOpen (withAccs [acc .load loc 0 id]) d 0 = true := by
    apply slotOpen_plain
    · fin_cases d <;> rfl
    · rfl
  simp [pathOpen, homeOpen, this]

/-- A woken request, an STV that waits, with the launch at rest for 4,096 cycles and for less. -/
def waiter (k : AccKind) : Access := acc k 0x4000010000 3 fun a => { a with size := 64, waiting := true, woken := true }

theorem test_BankTileWalkSteps_bank : let a := waiter .stv
    let s := idle (withAccs [a])
    let late : State := { s with now := 4096 }
    earliest (s.accs.filter fun x => x.waiting && x.woken && isCsm x.loc && bankOf x.loc == ⟨0, 256⟩) = some a ∧ heldAtHome s a = false ∧
    earliest (late.accs.filter fun x => x.waiting && x.kind == .stv && bankOf x.loc == ⟨0, 256⟩ && standsStill late x) = some a ∧
    (∀ x ∈ s.accs, (x.waiting && x.kind == .stv && bankOf x.loc == ⟨0, 256⟩ && standsStill s x) = false) ∧
    launchBy s a.who.launch = some placedLaunch ∧ onlyWaits late placedLaunch = true ∧ placedLaunch.progress + 4096 ≤ late.now ∧
    (∀ c ∈ placedLaunch.cores, (coreAt late c).lastAct + 4096 ≤ late.now) := by decide +kernel

/-- A void request at a stream port of MT 0, an access that has come to its steering port, a response to leave. -/
def tiled : State := modCore (task true) 0 fun k => { k with
  queues := [(.mt 0 0, [.tok ⟨0, true, 0, 0⟩])]
  mts := put k.mts 0 ⟨put (Vector.replicate 4 []) (1 : Fin 4) [tok 9], Vector.replicate 4 Place.zero, Vector.replicate 4 4, false⟩ }

/-- The first in turn comes first. -/
theorem nextTurn_first {n : Nat} {last : Fin (n + 1)} {ok : Fin (n + 1) → Bool} (h : ok (Fin.ofNat (n + 1) (last.val + 1)) = true) :
    nextTurn last ok = some (Fin.ofNat (n + 1) (last.val + 1)) := by
  rw [nextTurn, List.range_succ_eq_map, List.map_cons, List.find?_cons_of_pos h]

theorem tiled_wants : portWants tiled 0 0 0 0 = true := by
  have h : canSend (coreAt tiled 0) (mtRouter 0) 0 = true := by decide
  have h1 : mtHead (coreAt tiled 0) 0 0 = some ⟨0, true, 0, 0⟩ := by decide
  have h2 : (at' (at' (coreAt tiled 0).mts 0).rob 0).length < 16 ∧ coreSteps tiled 0 = true ∧ (at' (coreAt tiled 0).mts 0).frozen = false := by
    decide
  simp only [portWants, Fin.val_zero, Nat.zero_lt_succ, dif_pos, h2.2.1, h2.2.2]
  have h3 (p : Fin 4) (hp : p = 0) : mtWants (coreAt tiled 0) 0 0 p = true := by
    subst hp; simp only [mtWants, h1, h, h2.1]; simp
  exact h3 _ rfl

theorem test_BankTileWalkSteps_turn :
    nextTurn (at' (at' (coreAt tiled 0).mts 0).turn 0) (portWants tiled 0 0 0) = some (0 : Fin 4).castSucc := nextTurn_first tiled_wants

theorem test_BankTileWalkSteps_tile :
    coreSteps tiled 0 = true ∧ (at' (coreAt tiled 0).mts 0).frozen = false ∧ mtHead (coreAt tiled 0) 0 0 = some ⟨0, true, 0, 0⟩ ∧
    (∀ p : Fin 5, p ≠ 0 → portWants tiled 0 0 0 p = false) ∧
    (let a := acc .store (2 ^ 40) 1 fun a => { a with port := some 0 }
     let s := withAccs [a]
     nextTurn (at' (at' (coreAt s 0).mts 0).turn 0) (portWants s 0 0 0) = some 4 ∧ oldest (atSteer s (0, 0)) = some a) ∧
    (let a := acc .load (2 ^ 40) 1 fun a => { a with port := some 0, got := some (0, 0) }
     oldest (steerRob (withAccs [a]) (0, 0)) = some a) ∧
    nextTurn (at' (at' (coreAt (task true) 0).mts 0).turn 0) (portWants (task true) 0 0 0) = none ∧
    at' (at' (coreAt tiled 0).mts 0).rob 1 = [tok 9] ∧ canWrite (coreAt tiled 0) (mtRouter 0) 1 = true := by decide +kernel

theorem test_BankTileWalkSteps_open (d : DieId) : slotOpen (task true) d 0 = true :=
  slotOpen_plain (by fin_cases d <;> rfl) rfl

/-- A page table in which each level's first entry points to the table itself, and entry 2 maps the page at 0x20000. -/
def walked : State := modDie { task true with mem := [⟨0, 1⟩, ⟨16, 1⟩, ⟨18, 2⟩, ⟨22, 0x20⟩, ⟨23, 3⟩] } 0 fun d => { d with
  walks := [⟨0, 0x20000, (taskEnv true (.nop zf)).who, .element, 0, some 0⟩] }

theorem test_BankTileWalkSteps_walk : walk walked 0 0x20000 = .leaf ⟨0, 0x20000, 16, 0x20000, ⟨true, true, false, false, false⟩⟩ ∧
    walk (task true) 0 0x20000 = .bad 0 3 ∧ (dieAt walked 0).walks = [⟨0, 0x20000, (taskEnv true (.nop zf)).who, .element, 0, some 0⟩] := by decide +kernel

/-- A walk that fails in a table of zeros, for an element of a launch that runs. -/
def lost : State := modDie (task true) 0 fun d => { d with
  walks := [⟨0, 0x20000, (taskEnv true (.nop zf)).who, .element, 0, some 0⟩] }

theorem test_BankTileWalkSteps_bad : let w : Walk := ⟨0, 0x20000, (taskEnv true (.nop zf)).who, .element, 0, some 0⟩
    (let s1 := modDie lost 0 fun x => { x with walks := giveWalkers lost x lost.now [] x.walks }
     (dieAt s1 0).walks.filter (fun x => x.walker.isSome && slotOpen lost 0 x.ctx) = [w] ∧ (dieAt s1 0).walks = [w]) ∧
    walk lost 0 0x20000 = .bad 0 3 ∧ launchBy lost w.who.launch = some placedLaunch ∧ isLive placedLaunch.phase = true := by
  have h : slotOpen lost 0 0 = true := slotOpen_plain rfl rfl
  have hw : (dieAt (modDie lost 0 fun x => { x with walks := giveWalkers lost x lost.now [] x.walks }) 0).walks =
      [⟨0, 0x20000, (taskEnv true (.nop zf)).who, .element, 0, some 0⟩] := by decide +kernel
  refine ⟨?_, by decide +kernel, by decide, rfl⟩
  simp [hw, h]

/-- Of one alternative the free choice is that one. -/
theorem pickFree_one {α : Type} (s : State) (x : α) : pickFree s [x] = some x := by simp [pickFree, Nat.mod_one]

/-- One of two is chosen, where both may end. -/
theorem test_BankTileWalkSteps_two : let w (v : Nat) (n : Fin 256) : Walk := ⟨0, v, (taskEnv true (.nop zf)).who, .element, 0, some n⟩
    ∃ x ∈ [w 0x20000 0, w 0x30000 1], pickFree walked [w 0x20000 0, w 0x30000 1] = some x := by
  dsimp only [pickFree]
  exact ⟨_, List.getElem_mem _, List.getElem?_eq_getElem (Nat.mod_lt _ (by decide))⟩

/-- The walk ends: its walker and a slot of its partition are there; no walk stands in the die without misses. -/
theorem test_BankTileWalkSteps_ends :
    (let s1 := modDie walked 0 fun x => { x with walks := giveWalkers walked x walked.now [] x.walks }
     (dieAt s1 0).walks.filter (fun x => x.walker.isSome && slotOpen walked 0 x.ctx) =
      [⟨0, 0x20000, (taskEnv true (.nop zf)).who, .element, 0, some 0⟩]) ∧
    (let s1 := modDie (task true) 0 fun x => { x with walks := giveWalkers (task true) x (task true).now [] x.walks }
     (dieAt s1 0).walks.filter (fun x => x.walker.isSome && slotOpen (task true) 0 x.ctx) = []) := by
  have h : slotOpen walked 0 0 = true := slotOpen_plain rfl rfl
  constructor
  · have hw : (dieAt (modDie walked 0 fun x => { x with walks := giveWalkers walked x walked.now [] x.walks }) 0).walks =
        [⟨0, 0x20000, (taskEnv true (.nop zf)).who, .element, 0, some 0⟩] := by decide +kernel
    simp [hw, h]
  · have hw : (dieAt (modDie (task true) 0 fun x => { x with walks := giveWalkers (task true) x (task true).now [] x.walks }) 0).walks = [] := by
      decide +kernel
    simp [hw]

theorem test_AccessPerforms_ready : ∀ k ∈ [AccKind.load, .shape, .ldv, .fence, .store, .atom, .cas, .append],
    let a := acc k 0x4000000000 0 id
    let s := withAccs [a]
    Memory.wf s.mem = true ∧ allClasses s = [] ∧ badRange s a.loc a.size = false ∧ onCodeLoc s a.loc = false ∧
      a.data.length = a.size ∧ a.exc = none := by decide

/-- A store to the checked page, which lies at 0x10000. -/
theorem test_AccessPerforms_code : let s := task true
    isWriteKind .store = true ∧ onCodeLoc s 0x10000 = true ∧ onCodeLoc s 0x1FFFF = true ∧ onCodeLoc s 0x20000 = false := by decide

/-! ## Fabric, streams and parsers -/

theorem test_Steps : Steps (task true) 0 placedLaunch := by unfold Steps; decide

/-- A node of one MOV from p0, idle with a token there, and one whose word is done. -/
def movNode (f : Option Firing) : State :=
  modCore (task true) 0 fun k => { k with
    nodes := [{ nodeOf [0x1C2C280000300000] firing with firing := f }]
    queues := [(.pe 0 0, [.tok (tok 5)])] }

theorem test_FabricSteps_node :
    (nodeAt (coreAt (movNode none) 0) 0 = some { nodeOf [0x1C2C280000300000] firing with firing := none }) ∧
    isStreamNode (nodeOf [0x1C2C280000300000] firing) = false ∧
    (newFiring 1 (coreAt (movNode none) 0) { nodeOf [0x1C2C280000300000] firing with firing := none }).isSome = true ∧
    nodeAt (coreAt (movNode (some { firing with idx := 1 })) 0) 0 = some { nodeOf [0x1C2C280000300000] firing with firing := some { firing with idx := 1 } } := by
  decide

theorem test_FabricSteps_fold : foldTurn 1 (coreAt (movNode none) 0) 0 = true := by decide

/-- Router 0: port 4, VC 0 to output 1; a control entry of sub-port 0 to output 1; a token of each kind waits. -/
def swWord : Word := 0x80000000 ||| (4 <<< 28) ||| (1 <<< 16)
def ctWord : Word := 0x80000000 ||| (4 <<< 28) ||| (1 <<< 24)
def router (st : List (Nat × Shaper)) : Router := ⟨0, [swWord], Vector.replicate 4 [], [ctWord], st⟩
def routed (st : List (Nat × Shaper)) : State := modCore (task true) 0 fun k => { k with
  routers := [router st], queues := [(.link 0 4 0, [.tok (tok 5)])], cqueues := [(.ctl 0 4 0, [.bit true]), (.post 0, [.bit true])] }
def waits : List (Nat × Shaper) := [(outPlace 0, { Shaper.zero with fill := [tok 3] })]

theorem test_FabricSteps_router :
    routerAt (coreAt (routed []) 0) 0 = some (router []) ∧
    hopPending (coreAt (routed []) 0) (router []) (swFor (router []) 4 0) = none ∧
    (hopPending (coreAt (routed waits) 0) (router waits) (swFor (router waits) 4 0)).isSome = true ∧
    queueAt (coreAt (routed []) 0) (.link 0 4 0) = [.tok (tok 5)] ∧
    (hopHead 1 (coreAt (routed []) 0) (router []) 4 0 (tok 5)).isSome = true ∧
    cqueueAt (coreAt (routed []) 0) (.ctl 0 4 0) = [.bit true] ∧ ctEntry (router []) 4 0 = some ctWord ∧
    ((ctOuts ctWord).filterMap fun o => outCkey 0 o (ctOloc ctWord)).all (hasCroom (coreAt (routed []) 0)) = true ∧
    cqueueAt (coreAt (routed []) 0) (.post 0) = [.bit true] ∧ storeUsed (coreAt (routed []) 0) < 256 := by decide

/-- A ring of two slots: its last empty, full with room at the head, full without. -/
def ringed (last : Option Token) (n : Nat) : State := modCore (task true) 0 fun k => { k with
  rings := [⟨2, 0, 0, 0, 0, 0, [none, last]⟩], queues := [(.pe 0 0, List.replicate n (.tok (tok 1)))] }

theorem test_FabricSteps_ring :
    ((coreAt (ringed none 0) 0).rings[0]?).map (·.slots.getLast?) = some (some none) ∧
    ((coreAt (ringed (some (tok 2)) 0) 0).rings[0]?).map (·.slots.getLast?) = some (some (some (tok 2))) ∧
    hasRoom (coreAt (ringed (some (tok 2)) 3) 0) (.pe 0 0) = true ∧ hasRoom (coreAt (ringed (some (tok 2)) 4) 0) (.pe 0 0) = false ∧
    (coreAt (ringed none 0) 0).frozen.contains (.ring 0) = false := by decide

theorem test_FabricSteps_enlarge : let s : State := { ringed none 4 with now := 64 }
    waitsOutside s 0 = false ∧ (coreAt s 0).lastAct + 64 ≤ s.now ∧ smallestFull (coreAt s 0) = some (.pe 0 0) := by decide

/-- A descriptor of mode m, READ 0 or WRITE 1, with one level of one element. -/
def sdDesc (m : Nat) : Vector DWord 8 := put (Vector.replicate 8 0) (1 : Fin 8) (BitVec.ofNat 64 (m * 2 ^ 61 + 2 ^ 47))

/-- A generator with its walk. -/
def walking (m : Nat) (w : AgWalk) (f : Ag → Ag) : State := modCore (task true) 0 fun k => { k with
  ags := put k.ags 0 (f { Ag.zero with armed := true, walk := some w, desc := sdDesc m }) }
def walk0 : AgWalk := ⟨7, [0], false, 0, 0, []⟩

theorem test_FabricSteps_generator :
    (∀ m ∈ [0, 1], let g := at' (coreAt (walking m walk0 id) 0).ags 0
      g.walk = some walk0 ∧ g.stop = false ∧ (coreAt (walking m walk0 id) 0).frozen.contains (.ag 0) = false ∧ sdMode g.desc = m ∧
        sdRng g.desc = false ∧ walk0.slots = [] ∧ (!walk0.fin && (!sdRng g.desc || (rangeInHand (coreAt (walking m walk0 id) 0) g).isSome)) = true ∧
        g.skip = none) ∧
    (let w : AgWalk := { walk0 with slots := [⟨0, tok 5, 0, true⟩] }
     let g := at' (coreAt (walking 0 w id) 0).ags 0
     g.walk = some w ∧ agCanSend (coreAt (walking 0 w id) 0) 0 g = true) ∧
    (at' (coreAt (walking 1 walk0 fun g => { g with skip := some (1, 0) }) 0).ags 0).skip = some (1, 0) ∧
    (let w : AgWalk := { walk0 with fin := true }
     let s := walking 0 w id
     walkOver s 0 0 (at' (coreAt s 0).ags 0) w = true ∧ canSend (coreAt s 0) (agRouter 0) 0 = true) := by decide

/-! ## Stepping -/

/-- The task's word is next, of these bytes at 0x10000: ADD x1, x1, x2 or the word 0. -/
def fetching (m : List Host.Cell) : State := { task false with mem := m, agenda := [.task 0] }
def addCells : List Host.Cell := [⟨0x10004, 2⟩, ⟨0x10005, 1⟩, ⟨0x10006, 1⟩, ⟨0x10007, 1⟩]

theorem test_StepRunsFetchedWord : ∀ m ∈ [addCells, []],
    (coreAt (fetching m) 0).task = some ⟨0, 0x10000, 0, 0, none⟩ ∧ holderOf (fetching m) 0 = some placedLaunch ∧
    mayStep placedLaunch.phase = true ∧
    translate (fetching m) 0 0 0x10000 = .hit 0x10000 ⟨true, true, true, false, false⟩ ∧
    ctxBy (fetching m) 0 = some (placedCtx false) ∧ (placedCtx false).checked.contains (0x10000, 0x10000) = true ∧
    (fetching m).bad.contains 0x10000 = false := by decide

/-- Where every slot is partition 1's, none is partition 0's. -/
theorem slotOpen_other {s : State} {d : DieId} {ctx : Nat} (h : (dieAt s d).slotTable = 0x1111111111111111) (hp : partOf s ctx = 0) :
    slotOpen s d ctx = false := by
  have n : ∀ i : Fin 16, (field (dieAt s d).slotTable (4 * i.val + 3) (4 * i.val) == 0) = false := by rw [h]; decide
  have m : slotsOf (dieAt s d) 0 = 0 := by simp only [slotsOf, h]; decide
  simp only [slotOpen, hp, m, n]; rfl

/-- Every slot of the die is partition 0's, or none of them. -/
theorem test_StepRunsFetchedWord_slot :
    slotOpen (atMove (fetching addCells) [] (some (.task 0))) (locDie 0x10000) 0 = true ∧
    slotOpen (atMove (modDie (fetching addCells) 0 fun d => { d with slotTable := 0x1111111111111111 }) [] (some (.task 0)))
      (locDie 0x10000) 0 = false := by
  exact ⟨slotOpen_plain rfl rfl, slotOpen_other rfl rfl⟩

theorem test_StepRunsFetchedWord_words : dwordLE (memGetN addCells 0x10000 8) = 0x0101010200000000 ∧
    dwordLE (memGetN [] 0x10000 8) = 0 ∧
    decodeWord 0x0101010200000000 = some (.add ⟨.x 1, .x 1, .x 2, .x 0, 0, 0⟩) ∧ decodeWord 0 = none := by decide

/-- The next moves of a node, an action, a command and an event. -/
theorem test_StepRunsOtherMoves :
    nodeAt (coreAt (movNode (some firing)) 0) 0 = some (nodeOf [0x1C2C280000300000] firing) ∧
    isStreamNode (nodeOf [0x1C2C280000300000] firing) = false ∧
    (decodeWord 0x1C2C280000300000).isSome = true ∧
    (at' (coreAt (action id) 0).parsers 0).run = some ⟨0, 0, 1, false, 0⟩ ∧
    (coreAt (action id) 0).grammar = some ⟨false, false, 1, [], [], [], none, [0], []⟩ ∧
    (decodeWord 0x6000000000000000).isSome = true ∧
    (∀ k : Cmd, decodeCommand 1 k = some (.cmdNop k)) := ⟨by decide, by decide, by decide, by decide, by decide, by decide, fun _ => rfl⟩

/-- A stream node of one word (SPHDR), and a node of two BND words. -/
theorem test_StepRunsOtherMoves_stream :
    isStreamNode (nodeOf [0x3D2C28292B000000] firing) = true ∧ (decodeWord 0x3D2C28292B000000).isSome = true ∧
    isStreamNode (nodeOf [0x3C2C280000000000, 0x3C2D290000000000] firing) = true ∧ (decodeWord 0x3C2C280000000000).isSome = true ∧
    pickFree (atMove (task true) [] (some (.node 0 0))) [(0x3D2C28292B000000 : DWord)] = some 0x3D2C28292B000000 :=
  ⟨by decide, by decide, by decide, by decide, pickFree_one _ _⟩

/-- The action unit's turn is parser 0's where it alone has a word to run, and parser 1's where it does not; a command of no
known code. -/
theorem test_StepRunsOtherMoves_turns : actionTurn (action id) 0 0 = true ∧ actionTurn (action id) 0 1 = false ∧
    (∀ k : Cmd, decodeCommand 0x30 k = none) := ⟨by decide, by decide, fun _ => rfl⟩

/-- The task's ADD runs in a step and leaves x1 and the pc. -/
theorem test_step_add : (match step (fetching addCells) with
    | .next t => readX (at' (coreAt t 0).banks 0) 1 == 0x20005 && (coreAt t 0).task == some ⟨0, 0x10008, 0, 0, none⟩
    | _ => false) = true := by decide +kernel

theorem test_EveryStepCompletes :
    State.reset.powered = true ∧ (takeMove { State.reset with powered := false, agenda := [.command] }).1 ≠ .event .powerOnReset ∧
    (takeMove { State.reset with powered := false, agenda := [.event .powerOnReset] }).1 = .event .powerOnReset :=
  ⟨rfl, nofun, rfl⟩

theorem test_DecodeOfEncode : encode (.add ⟨.x 1, .x 1, .x 2, .x 0, 0, 0⟩) = some 0x0101010200000000 ∧
    decodeWord 0x0101010200000000 = some (.add ⟨.x 1, .x 1, .x 2, .x 0, 0, 0⟩) := by decide

theorem test_reset_memOk : State.reset.memOk := rfl

theorem test_WordsStoreNothing : ∃ w t, encode (.nop zf) = some w ∧ exec (.nop zf) (task false) = .next t :=
  ⟨0x6000000000000000, _, by decide, rfl⟩

/-! ## Parsers -/

/-- Nonterminal 0 makes M0 then any number of nonterminal 1, which makes M1. -/
def gram : Grammar := ⟨false, false, 2, [BitVec.ofNat 64 (2 * 2 ^ 40), BitVec.ofNat 64 (2 ^ 40 + 2 * 2 ^ 28)],
  [0, BitVec.ofNat 64 (2 ^ 55 + 2 ^ 49 + 2 ^ 47), BitVec.ofNat 64 (2 ^ 49)],
  (List.range 18).map fun i => if i = 0 then 0 else if i = 10 then 1 else 0xFFF, none, [0, 0], []⟩

/-- Parser 0 of core 0 has that grammar and a state. -/
def parsed (z : Parser) : State := modCore (task true) 0 fun k => { k with grammar := some gram, parsers := put k.parsers 0 z }

/-- A running parser with these items before it and its place in nonterminal 0's production. -/
def running (ts : List Nat) (eos : Bool) (pos : Option Nat) : Parser :=
  { Parser.zero with
    state := .run, eos := eos, items := ts.map fun t => ⟨t, [⟨tok 1, 0, none⟩]⟩
    stack := match pos with | some n => [⟨0, n, false, 1, 0⟩] | none => [] }

/-- What the parser's next step comes to. -/
def comesTo (z : Parser) : ParseMove := parseMove gram z.start z.stack z.accepted (look1 gram z) (lookBoth gram z)

theorem test_ParserSteps_moves :
    comesTo (running [] true none) = .finish ∧ comesTo (running [] false none) = .blocked ∧
    comesTo (running [0] false none) = .openSeq 0 ∧ comesTo (running [1] false none) = .mismatch false 0 ∧
    comesTo (running [1] false (some 0)) = .mismatch true 0 ∧
    comesTo (running [0] false (some 0)) = .accept [⟨0, 1, false, 1, 0⟩] ∧
    comesTo (running [0] false (some 1)) = .leave [⟨0, 2, false, 1, 0⟩] ∧
    comesTo (running [1] false (some 1)) = .open' [⟨0, 1, true, 1, 0⟩] 1 1 ∧
    comesTo (running [0] false (some 2)) = .close ∧
    (let z := at' (coreAt (parsed (running [0] false none)) 0).parsers 0
     z = running [0] false none ∧ z.frozen = false ∧ z.stopping = none ∧ feedOver z = none ∧ z.state = .run) ∧
    (coreAt (parsed (running [0] false none)) 0).grammar = some gram := by decide

theorem test_ParserSteps_rest :
    (nextItem { Parser.zero with fresh := [⟨⟨1, false, 0, 1⟩, 0, none⟩] }).isSome = true ∧
    (let z := at' (coreAt (parsed { running [0] false none with state := .discard }) 0).parsers 0
     z.state = .discard ∧ z.frozen = false ∧ z.items = [⟨0, [⟨tok 1, 0, none⟩]⟩]) ∧
    (let x : PendAct := ⟨0, false, none, [1], 0⟩
     let z := at' (coreAt (parsed { running [0] false (some 1) with state := .permit, pend := some x }) 0).parsers 0
     z.pend = some x ∧ z.state = .permit ∧ z.frozen = false ∧ z.run = none ∧ mayFire gram z x = true ∧ z.rel = []) ∧
    (let z := at' (coreAt (parsed { running [0] false none with rel := [⟨tok 1, 0, none⟩] }) 0).parsers 0
     z.byte = false ∧ z.rel = [⟨tok 1, 0, none⟩]) ∧ canWrite (coreAt (task true) 0) (agRouter 0) 0 = true := by decide

/-- A step that looks up the table: in parser 0's turn, and behind parser 3, which served last where parser 0 is not ready. -/
theorem test_ParserSteps_turn : needsTable gram (running [0] false none) = true ∧
    hasTable (coreAt (parsed (running [0] false none)) 0) gram 0 = true ∧
    hasTable (coreAt (parsed (running [] false none)) 0) gram 1 = false ∧ needsTable gram (running [] false none) = false := by
  decide +kernel

/-! ## Tasks, barriers, ranges -/

/-- A message, on channel 1, and in an outgoing queue. -/
def note : Msg := ⟨0, 1, 1, [7], 0, 0, none⟩
def sent : OutMsg := ⟨note, 0, .bank 0, 0, 1⟩

/-- Core 0 with no task, this message in its store, an entry for channel 1, and two continuations. -/
def told (entry : DWord) : State := modCore (task true) 0 fun k => { k with
  task := none, store := [note], outq := [sent], chtab := put k.chtab 1 ⟨entry, none⟩
  conts := [⟨1, 0, 0, 0, none, .counts 0 0 0 0 0⟩, ⟨2, 0, 0, 0, none, .ready [1]⟩] }

theorem test_TaskSteps :
    (let k := coreAt (told (BitVec.ofNat 64 (2 ^ 63 + 0x10000))) 0
     deliverable (told (BitVec.ofNat 64 (2 ^ 63 + 0x10000))) 0 [] k.outq = [sent] ∧ k.task = none ∧
     (∀ x ∈ k.store, readiness k x ≠ .noHandler) ∧ selectMsg k = some (note, BitVec.ofNat 64 (2 ^ 63 + 0x10000), false) ∧
     (∀ x ∈ k.conts, k.conts.find? (·.n == x.n) = some x ∧ (contWords k x).isSome = true)) ∧
    (let k := coreAt (told 0) 0
     k.store.find? (fun m => readiness k m == .noHandler) = some note) := by decide

/-- Barrier 1 of core 0 with one participant here, of whom none or one has arrived. -/
def barred (n : Nat) : State := modCore (task true) 0 fun k => { k with barriers := [(1, ⟨0, ⟨n, 1, 0⟩, ⟨0, 0, 0⟩⟩)] }

theorem test_BarrierAndRangeSteps_barrier :
    (let x := barrierAt (coreAt (barred 1) 0) 1
     partDone x.cur = true ∧ participants placedLaunch 0 x.cur.s = [0]) ∧
    (let x := barrierAt (coreAt (barred 0) 0) 1
     participants placedLaunch 0 x.cur.s = [0] ∧ partDone x.cur = false ∧ (coreAt (barred 0) 0).finished = false) ∧
    (coreAt (barred 1) 0).arrivals = [] := by decide

/-- A record whose stage 1 has a queue of two places. -/
def stagedRecord : Vector DWord 16 := Vector.ofFn fun i => if i.val = 9 then BitVec.ofNat 64 (2 * 2 ^ 10) else placedRecord[i]

/-- Range queue 63 of die 0, with a range or none, and the request of a continuation; the launch has a range that waits for
room in stage 1. -/
def askedRange (rs : List (Nat × Nat)) : State :=
  let l : Launch := { placedLaunch with stageQs := [[]], roomWaits := [(0, 0, 4, 2, 1)] }
  modDie { task true with launches := [l] } 0 fun d => { d with rqs := [(63, ⟨0, rs, [(0, 0, some 1)]⟩)] }

theorem test_BarrierAndRangeSteps_range : ∀ rs ∈ [[(0, 4)], []],
    let l : Launch := { placedLaunch with stageQs := [[]], roomWaits := [(0, 0, 4, 2, 1)] }
    let s := askedRange rs
    (dieAt s 0).rqs.find? (·.1 == 63) = some (63, ⟨0, rs, [(0, 0, some 1)]⟩) ∧ launchBy s 0 = some l ∧ nStages l.recd = 0 ∧
    Steps s 0 l ∧ asksInOrder [((0 : Nat), ((0 : CoreId), some 1))] = [(0, 0, some 1)] ∧ 0 < ({ s with now := 1 } : State).now ∧
    l.roomWaits = [] ++ (0, 0, 4, 2, 1) :: [] := by
  unfold Steps
  intro rs h
  refine ⟨?_, ?_, ?_, ?_, ?_, ?_, rfl⟩ <;> revert rs <;> decide

theorem test_BarrierAndRangeSteps_slot (rs : List (Nat × Nat)) : slotOpen (askedRange rs) 0 0 = true := slotOpen_plain rfl rfl

/-- The first request is a generator's of the one core's team. -/
theorem test_BarrierAndRangeSteps_team : asksInOrder [((0 : Nat), ((0 : CoreId), (none : Option Nat)))] = [(0, 0, none)] ∧
    (teamCores placedLaunch 0).Nodup ∧ isPersist placedLaunch.recd = false := by decide

/-- A pipelined launch of two stages with no minimum; core 0 asks in stage 0, whose input and stage 1's hold these ranges. It is
quiet where no task runs, and the range that it completed waits for room or not. -/
def pipeLaunch (r1 : List (Nat × Nat)) (waits : Bool) : Launch :=
  { placedLaunch with recd := put placedRecord 6 (BitVec.ofNat 64 (2 * 2 ^ 18)), stageQs := [r1], roomWaits := if waits then [(0, 0, 4, 2, 1)] else [] }
def piped (quiet : Bool) (r0 r1 : List (Nat × Nat)) (waits : Bool) : State :=
  modDie { board true (fun k => { k with task := if quiet then none else some ⟨0, 0x10000, 0, 0, none⟩ }) with
    launches := [pipeLaunch r1 waits] } 0 fun d => { d with rqs := [(0, ⟨0, r0, [(0, 0, some 1)]⟩)] }

theorem test_BarrierAndRangeSteps_stages : nStages (pipeLaunch [] false).recd = 2 ∧
    -- it moves: where its range waits for room, and where its own input is empty and another's is not
    moveTo (piped true [(0, 1)] [] true) (pipeLaunch [] true) 0 1 = some 1 ∧
    moveTo (piped true [] [(0, 1)] false) (pipeLaunch [(0, 1)] false) 0 1 = some 1 ∧
    -- it is served, is told that the stage is exhausted, and waits: not quiet, while its range waits, or another's is pending
    moveTo (piped true [(0, 1)] [] false) (pipeLaunch [] false) 0 1 = none ∧
    stageInput (piped true [(0, 1)] [] false) (pipeLaunch [] false) 0 = [(0, 1)] ∧
    moveTo (piped true [] [] false) (pipeLaunch [] false) 0 1 = none ∧
    exhausted (piped true [] [] false) (pipeLaunch [] false) 0 = true ∧ fullest (piped true [] [] false) (pipeLaunch [] false) = none ∧
    moveTo (piped false [] [] true) (pipeLaunch [] true) 0 1 = none ∧ waitsForRoom (pipeLaunch [] true) 0 1 = true ∧
    moveTo (piped false [] [(0, 1)] false) (pipeLaunch [(0, 1)] false) 0 1 = none ∧
    fullest (piped false [] [(0, 1)] false) (pipeLaunch [(0, 1)] false) = some 1 := by decide +kernel

/-- Stage 1's queue of two places has room with one range in it, and none with two. -/
theorem test_BarrierAndRangeSteps_room : let r := stagedRecord
    ([(0, 1)] : List (Nat × Nat)).length < stageCap r 1 ∧ ¬([(0, 1), (1, 1)] : List (Nat × Nat)).length < stageCap r 1 := by decide

/-! ## Launch queues and launches -/

/-- Context 0 with this queue 0, over the page table of `walked`; its ring of one record and its status ring lie in one page,
with a record of one level of 32 bits. -/
def queued0 (y : Queue) (m : List Host.Cell) : State :=
  { walked with
    mem := walked.mem ++ m
    ctxs := [{ placedCtx true with queues := put (placedCtx true).queues 0 y }] }
def oneRecord : Queue := { Queue.zero with v := true, rbase := 0x20000, sbase := 0x20080, tail := 1 }
def recordCells : List Host.Cell := [⟨0x20020, 0x20⟩, ⟨0x20024, 0x10⟩]

/-- Context 0 with that queue. -/
def queueCtx (y : Queue) : Ctx := { placedCtx true with queues := put (placedCtx true).queues 0 y }

theorem test_QueueSteps_head :
    (let y : Queue := { oneRecord with cancels := [0] }
     let s : State := { queued0 y [] with launches := [] }
     ctxBy s 0 = some (queueCtx y) ∧ goingAway s 0 = false ∧ y.v = true ∧ y.head < y.tail ∧ y.heldStatus = none ∧
      queueBusy s (queueCtx y) 0 = false ∧ y.cancels.contains y.head = true) ∧
    (let s : State := { task true with ctxs := [queueCtx oneRecord], launches := [] }
     headReady s (queueCtx oneRecord) 0 = true ∧ checkRecord s (queueCtx oneRecord) 0 = .status .imageInvalid) := by
  decide +kernel

theorem test_QueueSteps_pass :
    let s : State := { queued0 oneRecord recordCells with launches := [] }
    headReady s (queueCtx oneRecord) 0 = true ∧ checkRecord s (queueCtx oneRecord) 0 = .pass placedRecord [] none := by
  decide +kernel

/-- A record whose word at 0x20000 has bad check bits. -/
theorem test_QueueSteps_spoilt :
    let s : State := { queued0 oneRecord recordCells with launches := [], bad := [0x20000] }
    headReady s (queueCtx oneRecord) 0 = true ∧ checkRecord s (queueCtx oneRecord) 0 = .spoilt 0x20000 := by
  decide +kernel

/-- Queue 0 whose candidate depends on record 0 of queue 1. -/
def depends (given : List (Nat × Status)) : Ctx := { placedCtx true with
  queues := put (put (placedCtx true).queues 0 { oneRecord with
    cand := some (put placedRecord 5 (BitVec.ofNat 64 (2 ^ 52 + 2 ^ 48))) }) 1 { Queue.zero with given := given } }

theorem test_QueueSteps_dependence :
    (at' (depends []).queues 0).cand = some (put placedRecord 5 (BitVec.ofNat 64 (2 ^ 52 + 2 ^ 48))) ∧
    (at' (depends []).queues 0).depOk = false ∧
    (∀ gs ∈ [[], [(0, Status.complete)], [(0, Status.faulted)]], (at' (depends gs).queues 1).given = gs) := by decide

/-- A candidate of partition 0 whose dependence is resolved, of one core of die 0 (PERDIE); a held launch that is to be
restored. -/
def perDie : Vector DWord 16 := put (put placedRecord 4 (BitVec.ofNat 64 (2 ^ 61 + 2 ^ 36 + 32))) 6 1
def candidate : Ctx := queueCtx { oneRecord with cand := some perDie, depOk := true }
def stoppedLaunch : Held := ⟨placedLaunch, [(0, Core.zero)], [[]], [], []⟩
def stoppedCtx : Ctx := { placedCtx true with held := some stoppedLaunch, restore := some .nobody }
def admits (x : Ctx) : State := { State.reset with ctxs := [x] }

theorem test_QueueSteps_admit :
    (firstCandidate (admits candidate) 0).map (·.held) = some none ∧
    grantFor (admits candidate) candidate perDie = some [0] ∧
    grantFor (modDie (admits candidate) 0 fun d => { d with rqs := [(0, ⟨1, [], []⟩)] }) candidate perDie = none ∧
    (firstCandidate (admits stoppedCtx) 0).map (·.held) = some (some stoppedLaunch) := by
  decide +kernel

theorem test_QueueSteps_restore :
    (restoreCores (admits stoppedCtx) stoppedCtx (usesHalf (admits stoppedCtx) 0 placedRecord) false (gangSize placedRecord) [0] []).isSome = true := by
  decide +kernel

/-- A candidate whose code object has become untrusted. -/
theorem test_QueueSteps_untrusted : let r := put perDie 2 (0x50000 : DWord)
    let x : Ctx := { queueCtx { oneRecord with cand := some r, depOk := true } with objs := [⟨0x50000, 0x10000, 1, [], true⟩] }
    (firstCandidate (admits x) 0).map (fun k => (k.held, namesUntrusted k)) = some (none, true) ∧
    (firstCandidate (admits candidate) 0).map namesUntrusted = some false := by
  decide +kernel

/-- A status held while HALT is set, and once it is clear. -/
theorem test_QueueSteps_held : ∀ halt ∈ [false, true],
    let y : Queue := { oneRecord with halt := halt, heldStatus := some (0, .complete, 1) }
    ctxBy (admits (queueCtx y)) 0 = some (queueCtx y) ∧ (at' (queueCtx y).queues 0).heldStatus = some (0, .complete, 1) ∧
      (at' (queueCtx y).queues 0).halt = halt := by decide +kernel

/-- The launch of core 0 in a phase, with no task running. -/
def inPhase (p : LPhase) (f : Launch → Launch) (g : Core → Core) : State :=
  let s := modCore (task true) 0 fun k => g { k with task := none }
  { s with launches := [f { placedLaunch with phase := p }] }

/-- Its four images are absent; or its grammar image is where nothing is mapped. -/
theorem test_LaunchSteps_load :
    (let s := inPhase .loading id id
     launchBy s 0 = some { placedLaunch with phase := .loading } ∧ s.ctxs.any (fun y => y.restored == some 0) = false ∧
      ctxBy s 0 = some (placedCtx true) ∧
      (match loadImages s (placedCtx true) { placedLaunch with phase := .loading } with | .inr _ => true | .inl _ => false) = true) ∧
    (let l : Launch := { placedLaunch with phase := .loading, recd := put placedRecord 0 0x50000 }
     (match loadImages (inPhase .loading id id) (placedCtx true) l with | .inl st => st == .imageInvalid | .inr _ => false) = true) := by
  decide +kernel

theorem test_LaunchSteps_run :
    (let s := inPhase .running id id
     gangsOf (gangSize placedRecord) [0] = [[0]] ∧ teamEnds s placedLaunch [0] = true ∧
      launchBy s 0 = some placedLaunch) ∧
    (let s : State := { inPhase .running id id with now := 2 ^ 26 }
     placedLaunch.cores = [0] ∧ placedLaunch.progress + 2 ^ s.wdp.toNat ≤ s.now) := by decide +kernel

/-- No image has a bad word; a core stands still with a token at a port that nothing takes, and another works. -/
theorem test_LaunchSteps_loader : loaderBad (inPhase .loading id id) (placedCtx true) placedRecord = none := by decide +kernel

theorem test_LaunchSteps_stuck :
    (let l : Launch := { placedLaunch with progress := 1 }
     let s : State := { inPhase .running (fun _ => l) fun k => { k with queues := [(.pe 0 0, [.tok (tok 1)])] } with now := 2 ^ 26 }
     s.now < l.progress + 2 ^ s.wdp.toNat ∧ l.cores.find? (coreStuck s l) = some 0) ∧
    (∀ c ∈ placedLaunch.cores, coreStuck (inPhase .running id id) placedLaunch c = false) ∧
    statusHeld (inPhase .torn id id) 0 0 0 = false := by decide +kernel

theorem test_LaunchSteps_end :
    (∀ p ∈ [LPhase.ending, .torn, .written], launchBy (inPhase p (fun l => { l with status := some .complete }) id) 0 =
      some { placedLaunch with phase := p, status := some .complete }) ∧
    (∀ p ∈ [LPhase.torn, .written], allPerformed (inPhase p id id) 0 = true ∧ (coreAt (inPhase p id id) 0).holder = some 0) := by
  decide

/-! ## Pre-emption -/

theorem test_PreemptSteps_drain :
    (let s := inPhase (.draining 1 0) id id
     (coreAt s 0).holder = some 0 ∧ (drainElem s 0 .task).isSome = true ∧
      drainElem (task true) 0 .task = none ∧ s.now < 0 + 2 ^ s.wdp.toNat ∧ nothingOut s placedLaunch = true) ∧
    (let s := inPhase (.draining 1 0) id fun k => { k with frozen := configured k }
     allFrozen s placedLaunch = true) ∧
    0 + 2 ^ (task true).wdp.toNat ≤ ({ task true with now := 2 ^ 26 } : State).now := by decide +kernel

theorem test_PreemptSteps_freeze : freezeOver (inPhase .freezing id id) placedLaunch = true ∧
    freezeOver { inPhase .freezing id id with accs := [acc .load 0x4000000000 1 id] } placedLaunch = false := by decide +kernel

theorem test_PreemptSteps_restore :
    let x : Ctx := { stoppedCtx with restored := some 0 }
    let s : State := { inPhase .loading id id with ctxs := [x] }
    ctxBy s 0 = some x ∧ x.held = some stoppedLaunch ∧ launchBy s 0 = some { placedLaunch with phase := .loading } := by decide +kernel

/-- Context 0 with a code object of one page at 0x20000, whose check is awaited, over a page table that maps it. -/
def codeCtx (m : List Byte) : Ctx := { placedCtx true with
  objs := [⟨0x50000, 0x20000, 1, m, false⟩], checks := [(0x20000, (taskEnv true (.nop zf)).who)] }
def coded (m : List Byte) : State := { task true with
  mem := [⟨0, 1⟩, ⟨16, 1⟩, ⟨18, 2⟩, ⟨22, 0x20⟩, ⟨23, 7⟩], ctxs := [codeCtx m] }

theorem coded_span (m : List Byte) : ctxSpan (coded m) 0 .fetch 2 0x20000 65536 = some [(0x20000, 65536)] := by
  have hw : walk (coded m) 0 0x20000 = .leaf ⟨0, 0x20000, 16, 0x20000, ⟨true, true, true, false, false⟩⟩ := by
    rw [show walk (coded m) 0 0x20000 = walkFrom (coded []).mem [] 0 0x20000 3 0 from rfl]; decide +kernel
  have ha : allowed (coded m) .fetch 0x20000 ⟨true, true, true, false, false⟩ = true := rfl
  simp [ctxSpan, hw, ha, inWindow, windowBase]

/-- A page whose manifest begins with 64 bytes and the hash `y`. -/
theorem codeGood_first {s : State} {ctx page n : Nat} {xs : List (Nat × Nat)} {bs y : List Byte} (va : Nat)
    (h : ctxSpan s ctx .fetch 2 page 65536 = some xs) (hb : (xs.flatMap fun y => memGetN s.mem y.1 y.2) = bs) (hy : y.length ≤ 48) :
    codeGood s ctx ⟨va, page, n, List.replicate 64 0 ++ y, false⟩ page = some (sha384 bs == y) := by
  simp only [codeGood, h, Option.map_some, hb, Nat.sub_self, Nat.zero_div, Nat.mul_zero, Nat.add_zero]
  rw [List.drop_left' (by simp), List.take_of_length_le hy]

/-- The page's bytes: memory lists none of them. -/
def pageBytes : List Byte := memGetN (coded []).mem 0x20000 65536

/-- A manifest with the hash of the page, and one that has none. -/
theorem test_PreemptSteps_page (m : List Byte) :
    objectAt (codeCtx m) 0x20000 = some ⟨0x50000, 0x20000, 1, m, false⟩ ∧
    (m = List.replicate 64 0 ++ sha384 pageBytes → codeGood (coded m) 0 ⟨0x50000, 0x20000, 1, m, false⟩ 0x20000 = some true) ∧
    (m = List.replicate 64 0 → codeGood (coded m) 0 ⟨0x50000, 0x20000, 1, m, false⟩ 0x20000 = some false) := by
  have hb (m : List Byte) : (([(0x20000, 65536)] : List (Nat × Nat)).flatMap fun y => memGetN (coded m).mem y.1 y.2) = pageBytes := by
    simp only [List.flatMap_cons, List.flatMap_nil, List.append_nil, pageBytes]; rw [show (coded m).mem = (coded []).mem from rfl]
  refine ⟨by simp [objectAt, codeCtx], ?_, ?_⟩
  · intro h
    have := codeGood_first (n := 1) 0x50000 (coded_span m) (hb m) (Nat.le_of_eq (sha384_length pageBytes))
    rw [h] at this ⊢; simpa using this
  · intro h
    have := codeGood_first (n := 1) (y := []) 0x50000 (coded_span m) (hb m) (by decide)
    rw [h] at this ⊢
    have hn : (sha384 pageBytes == []) = false := by
      rw [beq_eq_false_iff_ne]; intro e; have := sha384_length pageBytes; rw [e] at this; cases this
    rw [hn] at this; simpa using this

/-- The page's words are good, or one of them is not. -/
theorem test_PreemptSteps_words (m : List Byte) : codeFault (coded m) 0 0x20000 = none ∧
    codeFault { coded m with bad := [0x20008] } 0 0x20000 = some (.uncorrectable, physAddr (coded m) 0x20008) := by
  have hw (bs : List Nat) (h : walkFrom (coded []).mem bs 0 0x20000 3 0 = .leaf ⟨0, 0x20000, 16, 0x20000, ⟨true, true, true, false, false⟩⟩) :
      walk { coded m with bad := bs } 0 0x20000 = .leaf ⟨0, 0x20000, 16, 0x20000, ⟨true, true, true, false, false⟩⟩ := h
  constructor
  · have h : walk (coded m) 0 0x20000 = _ := hw [] (by decide +kernel)
    simp [codeFault, h, grants, inWindow, windowBase, firstBad, show (coded m).bad = [] from rfl]
  · have h := hw [0x20008] (by decide +kernel)
    simp [codeFault, h, grants, inWindow, windowBase, firstBad]; rfl

/-! ## Faults -/

theorem test_FaultEndsLaunch :
    (let w := (taskEnv true (.nop zf)).who
     let f (n : Nat) : FaultRec := ⟨.trap, w, 0, 0, 0, n⟩
     launchBy (task true) w.launch = some placedLaunch ∧ isLive placedLaunch.phase = true ∧
     (∀ n ∈ [0, 1], launchBy (inPhase .ending (fun l => { l with fault := some (f n) }) id) 0 =
       some { placedLaunch with phase := .ending, fault := some (f n) }) ∧
     (inPhase .ending id id).now = (f 0).cycle ∧ (f 1).cycle ≠ (inPhase .ending id id).now ∧
     beforeWho w { w with unit := 2 } = true ∧ placedLaunch.raisers.contains (raiserOf w) = false ∧
     ({ placedLaunch with raisers := [raiserOf w] } : Launch).raisers.contains (raiserOf w) = true) := by decide

/-! ## The host attachment -/

/-- The package is up, job 1 is mapped to context 0 and its page at 0x20000. -/
def up : State := { walked with bootStep := 9, portsUp := put walked.portsUp 0 true, jobs := [(1, 0)] }

theorem test_PortSteps_rma :
    jobCtx up 1 = some 0 ∧ jobCtx up 2 = none ∧ ctxSpan up 0 .write 3 0x20000 8 = some [(0x20000, 8)] ∧
    ctxSpan up 0 .read 3 0x20000 8 = some [(0x20000, 8)] ∧ outsideHeld up [(0x20000, 8)] = false ∧ badRange up 0x20000 8 = false ∧
    ctxSpan up 0 .write 3 0x50000 8 = none ∧ ctxSpan up 0 .read 3 0x50000 8 = none := by decide +kernel

/-- A word that it reads has bad check bits. -/
theorem test_PortSteps_bad : jobCtx { up with bad := [0x20000] } 1 = some 0 ∧
    ctxSpan { up with bad := [0x20000] } 0 .read 3 0x20000 8 = some [(0x20000, 8)] ∧ badRange { up with bad := [0x20000] } 0x20000 8 = true := by
  decide +kernel

/-- A command sent again, a new one, and one of no known code. -/
def entry (n : Word) : FzEntry := ⟨0, 0x01, .accepted, 0, 0, 0, n, 0, []⟩
theorem test_PortSteps_command (k : Cmd) : sameCommand { up with frieze := [entry 5] } .A 5 = some (entry 5) ∧
    sameCommand up .A 5 = none ∧ up.bootStep = 9 ∧ mayTake up .A = true ∧
    decodeCommand 0x01 k = some (.cmdNop k) ∧ decodeCommand 0x30 k = none :=
  ⟨by decide +kernel, by decide +kernel, rfl, by decide +kernel, rfl, rfl⟩

/-- A command of port A with these dwords, and the state in which it is the next. -/
def ask (d0 d1 d2 d3 : DWord) : Cmd := ⟨.A, 1, 0, 0, d0, d1, d2, d3, 0, 0⟩
def asked (code : Nat) (k : Cmd) (s : State) : State := { s with cmds := [(code, k)] }

theorem test_NextCommand (code : Nat) (k : Cmd) (s : State) (h : s.cmds = []) : NextCommand (asked code k s) s code k :=
  ⟨[], rfl, by simp only [asked, ← h]⟩

/-- Port A holds CPSEM, context 0 has the held launch `h`, and a page table that maps its pages at 0x20000 and 0x30000. -/
def commanded (h : Option Held) : State := { task true with
  cpsem := .port .A
  ctxs := [{ placedCtx true with held := h }]
  mem := [⟨0, 1⟩, ⟨16, 1⟩, ⟨18, 2⟩, ⟨22, 0x20⟩, ⟨23, 3⟩, ⟨24, 1⟩, ⟨26, 3⟩, ⟨30, 0x20⟩, ⟨31, 3⟩, ⟨0x20027, 0x80⟩] }

/-- A context that does not exist; the payloads of an installing KEYSET and of a revoking one. -/
theorem test_ContextCommands_absent : ctxBy (commanded none) 5 = none ∧ bitOf 0 3 = false ∧ bitOf 8 3 = true := by decide

theorem test_DeviceCommands_values :
    let s := commanded none
    s.cmds = [] ∧ ctxBy s 0 = some (placedCtx true) ∧ s.cpsem = .port .A ∧ (∀ op ∈ [0, 1, 2], (semaOp s (.port .A) op).isSome = true) ∧
    (cfgOp s 0 20).isSome = true ∧ mapTakes s 0 0 = false ∧ mapTakes s 3 0xFFFFFFFFFFFFFFFF = false ∧
    at' s.keySlots 0 = .empty ∧ sysrtCore s 0 = some 0 ∧ storeUsed (coreAt s 0) < 256 ∧ (placedCtx true).sys = true ∧
    s.peers.length < 1024 ∧ (ctxRead s 0 0x20000 97).isSome = true ∧ (ctxRead s 0 0x20000 64).isSome = true := by decide +kernel

/-- FREEZE and DRAIN: of a queue that runs nothing, of one that runs, of one whose launch is being loaded. -/
theorem test_DeviceCommands_stop : let s := commanded none
    ∀ k ∈ [none, some 1], stopOp s (placedCtx true) 1 k none (.port 0) = .nothing ∧
      (match stopOp s (placedCtx true) 0 k none (.port 0) with | .stopping _ => true | _ => false) = true ∧
      stopOp (inPhase .loading id id) (placedCtx true) 0 k none (.port 0) = .wait := by decide +kernel

/-- A held launch without cores, whose area has been copied to 0x20000. -/
def coreless : Held := ⟨{ placedLaunch with cores := [] }, [], [], [], []⟩

theorem test_DeviceCommands_restore :
    let x : Ctx := { placedCtx true with held := some coreless }
    ctxBy (commanded (some coreless)) 0 = some x ∧ x.held = some coreless ∧ mayRestore x = true ∧ (0x20000 : Nat) % 4096 = 0 ∧
    ∃ bs, ctxRead (commanded (some coreless)) 0 0x20000 (areaLen coreless.cores.length) = some bs ∧ headerFits coreless bs = true := by
  refine ⟨by decide +kernel, rfl, by decide, by decide, ?_⟩
  have h : ctxSpan (commanded (some coreless)) 0 .read (areaLen 0 / 65536 + 2) 0x20000 (areaLen 0) = some [(0x20000, 65536), (0x30000, 65536)] := by
    decide +kernel
  refine ⟨_, by rw [ctxRead, show coreless.cores.length = 0 from rfl, h]; rfl, ?_⟩
  unfold headerFits
  simp only [List.flatMap_cons]
  rw [List.take_append_of_le_length (by rw [Laws.memGetN_length]; decide), memGetN_take _ 48 65488]
  decide

/-! ## Contexts and memory by command -/

/-- A map with no page written twice: the search for a free place succeeds where the region is large against the pages that
are taken. -/
theorem countP_lt {α : Type} {p q : α → Bool} {l : List α} (h : ∀ x ∈ l, q x = true → p x = true) {x : α} (hx : x ∈ l)
    (hp : p x = true) (hq : q x = false) : l.countP q < l.countP p := by
  induction l with
  | nil => cases hx
  | cons y ys ih =>
    have hm := List.countP_mono_left (l := ys) fun x hx => h x (List.mem_cons_of_mem _ hx)
    have hy := h y (List.mem_cons_self ..)
    rcases List.mem_cons.mp hx with rfl | hx
    · simp only [List.countP_cons, hp, hq, if_true]; simp; omega
    · have hi := ih (fun x hx => h x (List.mem_cons_of_mem _ hx)) hx
      simp only [List.countP_cons]
      cases hqy : q y <;> cases hpy : p y <;> simp_all

theorem findFree_isSome (s : State) (align len hi M : Nat) (ha : 0 < align) (hM : ∀ p ∈ s.pages, p.len ≤ M) :
    ∀ fuel base, (s.pages.countP fun p => decide (base < p.base + p.len)) < fuel → base + fuel * (len + M + align) + len ≤ hi →
      (findFree s align len hi fuel base).isSome = true := by
  intro fuel
  induction fuel with
  | zero => intro base h; exact absurd h (Nat.not_lt_zero _)
  | succ n ih =>
    intro base hc hb
    have hmul : (n + 1) * (len + M + align) = n * (len + M + align) + (len + M + align) := Nat.succ_mul ..
    rw [findFree, if_neg (by omega)]
    cases hf : s.pages.find? fun p => decide (p.base < base + len) && decide (base < p.base + p.len) with
    | none => rfl
    | some p =>
      have hp := List.mem_of_find?_eq_some hf
      have hq := List.find?_some hf
      simp only [Bool.and_eq_true, decide_eq_true_eq] at hq
      have hl : p.base + p.len ≤ alignUp (p.base + p.len) align := by
        have := Nat.div_add_mod (p.base + p.len + align - 1) align
        have := Nat.mod_lt (p.base + p.len + align - 1) ha
        simp only [alignUp, Nat.mul_comm _ align]; omega
      have hu : alignUp (p.base + p.len) align < p.base + p.len + align := by
        have := Nat.div_mul_le_self (p.base + p.len + align - 1) align
        simp only [alignUp]; omega
      have hm := hM p hp
      exact ih _ (Nat.lt_of_lt_of_le (countP_lt (fun x _ h => by simp only [decide_eq_true_eq] at h ⊢; omega) hp
        (by simpa using hq.2) (by simpa using hl)) (Nat.le_of_lt_succ hc)) (by omega)

/-- A place is found in a region whose pages all together are small against it. -/
theorem pickPlace_some (s : State) (n lo hi align len M : Nat) (ha : 0 < align) (hM : ∀ p ∈ s.pages, p.len ≤ M)
    (hr : lo + (s.pages.length + 1) * (len + M + align) + len ≤ hi) : ∃ b, pickPlace s n lo hi align len = some b := by
  rw [← Option.isSome_iff_exists, pickPlace, Option.isSome_or, Bool.or_eq_true]
  exact .inr (findFree_isSome s align len hi M ha hM _ _ (Nat.lt_succ_of_le List.countP_le_length) hr)

/-- What is found is taken. -/
theorem takePlace_some (s : State) (n lo hi align len M : Nat) (p : Nat → PageRec) (ha : 0 < align)
    (hM : ∀ p ∈ s.pages, p.len ≤ M) (hr : lo + (s.pages.length + 1) * (len + M + align) + len ≤ hi) :
    ∃ b t, takePlace s n lo hi align len p = some (b, t) ∧ t.pages = s.pages ++ [p b] := by
  obtain ⟨b, h⟩ := pickPlace_some s n lo hi align len M ha hM hr
  rw [takePlace, h]
  exact ⟨_, _, rfl, rfl⟩

/-- CTXNEW finds its pages while the package owns none. -/
theorem newCtxPages_some (s : State) (n maxc : Nat) (h : s.pages = []) (hl : areaLen maxc ≤ 2 ^ 33) :
    ∃ root save qtab t, newCtxPages s n maxc = some (root, save, qtab, t) := by
  unfold newCtxPages newTable
  generalize areaLen maxc = L at hl
  obtain ⟨b1, t1, h1, p1⟩ := takePlace_some s 1 0 0x4000000000 4096 4096 0 (fun base => ⟨some n, true, base, 4096, false, false⟩)
    (by decide) (by simp [h]) (by rw [h]; decide)
  rw [h, List.nil_append] at p1
  obtain ⟨b2, t2, h2, p2⟩ := takePlace_some t1 2 0 0x4000000000 4096 L 4096 (ownPage L) (by decide) (by simp [p1]) (by
    rw [p1, List.length_singleton]; omega)
  rw [p1] at p2
  obtain ⟨b3, t3, h3, -⟩ := takePlace_some t2 3 0 0x4000000000 4096 4096 (L + 4096) (ownPage 4096) (by decide)
    (by rw [p2]; intro p hp; simp only [List.cons_append, List.nil_append, List.mem_cons, List.not_mem_nil, or_false] at hp
        rcases hp with rfl | rfl
        · exact Nat.le_add_left ..
        · exact Nat.le_add_right ..) (by
    rw [p2, show ([(⟨some n, true, b1, 4096, false, false⟩ : PageRec)] ++ [ownPage L b2]).length = 2 from rfl]; omega)
  rw [h1, Option.bind_some, h2, Option.bind_some, h3]
  exact ⟨_, _, _, _, rfl⟩

theorem test_ContextCommands_pages : ∃ root save qtab t, newCtxPages State.reset 0 1 = some (root, save, qtab, t) :=
  newCtxPages_some _ _ _ rfl (by decide)

/-- Every context exists. -/
theorem test_ContextCommands_full : ∀ n < 1024,
    (ctxBy { State.reset with ctxs := (List.range 1024).map fun n => { placedCtx true with n := n } } n).isSome = true := by
  intro n h
  simp only [ctxBy, List.find?_isSome]
  exact ⟨_, List.mem_map.mpr ⟨n, List.mem_range.mpr h, rfl⟩, by simp⟩

/-- Where a page of the Plinth's own fills all memory no place is free. -/
theorem pickPlace_none {s : State} (n : Nat) (h : s.pages = [⟨none, false, 0, 2 ^ 40, false, false⟩]) :
    pickPlace s n 0x4000000000 0x4010000000 (2 ^ 16) (2 ^ 16) = none := by
  rw [show (2 : Nat) ^ 16 = 65536 from by decide]
  have hf : ∀ fuel base, base ≤ 0x4010000000 → findFree s 65536 65536 0x4010000000 fuel base = none := by
    intro fuel base hb
    cases fuel with
    | zero => rfl
    | succ n =>
      have : s.pages.find? (fun p => decide (p.base < base + 65536) && decide (base < p.base + p.len)) =
          some ⟨none, false, 0, 2 ^ 40, false, false⟩ := by
        have : base < 1099511627776 := by omega
        rw [h, List.find?_cons_of_pos]
        simp [this]
      rw [findFree, this]
      split
      · rfl
      · cases n with
        | zero => rfl
        | succ n =>
          show findFree s 65536 65536 0x4010000000 (n + 1) (alignUp (0 + 2 ^ 40) 65536) = none
          rw [findFree, if_pos (by decide)]
  have := Nat.mod_lt (Config.choice s.ticks n) (show 0 < (0x4010000000 - 0x4000000000) / 65536 + 1 by decide)
  rw [pickPlace, hf _ _ (by omega), hf _ _ (by decide)]; rfl

/-- The context and memory of `commanded`, where this page is taken; the map of one page of CSM at 0x10000. -/
def taken (ps : List PageRec) : State := { commanded none with pages := ps }
def mapped (s : State) : Option State := mapRange 0 0 true false false 3 1 0x10000 0x10000 s

theorem mapRange_one (ctx : Nat) (die : DieId) (csm ver cmp : Bool) (rights va len : Nat) (s : State) (h : len ≠ 0) :
    mapRange ctx die csm ver cmp rights 1 va len s = (mapOne s 100 ctx va len die csm ver cmp rights).map (·.2) := by
  rw [mapRange, if_neg h]
  cases mapOne s 100 ctx va len die csm ver cmp rights <;> rfl

theorem mapOne_small (s : State) (n ctx va len : Nat) (die : DieId) (csm ver cmp : Bool) (rights : Nat) (h : len < 2 ^ 21)
    (hv : va % 2 ^ 16 = 0) (hl : 2 ^ 16 ≤ len) :
    mapOne s n ctx va len die csm ver cmp rights = (takeData s n ctx die csm ver cmp 16).bind fun r =>
      (putGroup ctx va 0 1 (leafOf r.1 0 rights ver cmp) 1 r.2).map fun s1 => (2 ^ 16, s1) := by
  have p0 : pageBits 0 = 16 := rfl
  unfold mapOne
  rw [List.findSome?_cons, if_pos (.inr (show len < 2 ^ 30 by omega)), List.findSome?_cons, if_pos (.inr h), List.findSome?_cons]
  dsimp only
  rw [p0, if_neg (show ¬(va % 2 ^ 16 ≠ 0 ∨ len < 2 ^ 16) by omega), if_neg (show ¬(0 : Nat) = 2 by decide), if_pos rfl]
  cases takeData s n ctx die csm ver cmp 16 with
  | none => rfl
  | some r =>
    rw [Option.bind_some]
    cases putGroup ctx va 0 1 (leafOf r.1 0 rights ver cmp) 1 r.2 <;> rfl

theorem takeData_csm (s : State) (n ctx : Nat) (die : DieId) (ver cmp : Bool) (h : die = 0) : takeData s n ctx die true ver cmp 16 =
    takePlace s n 0x4000000000 0x4010000000 (2 ^ 16) (2 ^ 16) fun base => ⟨some ctx, false, base, 2 ^ 16, ver, cmp⟩ := by
  subst h
  rw [takeData, show dieRange 0 true = (0x4000000000, 0x4010000000) from by decide]

theorem mapped_eq (s : State) : mapped s =
    ((takePlace s 100 0x4000000000 0x4010000000 (2 ^ 16) (2 ^ 16) fun base => ⟨some 0, false, base, 2 ^ 16, false, false⟩).bind fun r =>
      (putGroup 0 0x10000 0 1 (leafOf r.1 0 3 false false) 1 r.2).map fun s1 => (2 ^ 16, s1)).map (·.2) := by
  rw [mapped, mapRange_one _ _ _ _ _ _ _ _ _ (by decide), mapOne_small _ _ _ _ _ _ _ _ _ _ (by decide) (by decide) (by decide),
    takeData_csm _ _ _ _ _ _ rfl]

theorem test_ContextCommands_map_full : mapped (taken [⟨none, false, 0, 2 ^ 40, false, false⟩]) = none := by
  rw [mapped_eq, takePlace, pickPlace_none _ rfl]; rfl

theorem findFree_ge (s : State) (align len hi : Nat) (ha : 0 < align) :
    ∀ fuel base b, findFree s align len hi fuel base = some b → base ≤ b := by
  intro fuel
  induction fuel with
  | zero => intro base b h; cases h
  | succ n ih =>
    intro base b h
    rw [findFree] at h
    split at h
    · cases h
    · split at h
      · cases h; exact Nat.le_refl _
      · rename_i p hf
        have hq := List.find?_some hf
        simp only [Bool.and_eq_true, decide_eq_true_eq] at hq
        have hl : p.base + p.len ≤ alignUp (p.base + p.len) align := by
          have := Nat.div_add_mod (p.base + p.len + align - 1) align
          have := Nat.mod_lt (p.base + p.len + align - 1) ha
          simp only [alignUp, Nat.mul_comm _ align]; omega
        exact Nat.le_trans (by omega) (ih _ _ h)

theorem pickPlace_ge {s : State} {n lo hi align len b : Nat} (ha : 0 < align) (h : pickPlace s n lo hi align len = some b) : lo ≤ b := by
  rw [pickPlace, Option.or_eq_some_iff] at h
  rcases h with h | h
  · exact Nat.le_trans (Nat.le_add_right ..) (findFree_ge s align len hi ha _ _ _ h)
  · exact findFree_ge s align len hi ha _ _ _ h.2

/-- The memory of `commanded` lies below CSM, so a page of CSM that is taken leaves it. -/
theorem memZero_above {m : Memory} {lo hi : Nat} (h : ∀ e ∈ m, e.1 < lo) : memZero m lo hi = m := by
  rw [memZero, List.filter_eq_self]; intro e he; simp [h e he]

/-- The page that was taken gets its leaf in the table that stands. -/
theorem mapped_some {b : Nat} {t : State} (ht : takePlace (taken []) 100 0x4000000000 0x4010000000 (2 ^ 16) (2 ^ 16)
      (fun base => ⟨some 0, false, base, 2 ^ 16, false, false⟩) = some (b, t))
    (hm : t.mem = (commanded none).mem) (hc : t.ctxs = (commanded none).ctxs) : ∃ u, mapped (taken []) = some u := by
  have h0 : ctxBy t 0 = some (placedCtx true) := by rw [ctxBy, hc]; decide +kernel
  have he : tableEntry t.mem 0 0 = 1 := by rw [hm]; decide
  have hl : levelIndex 0x10000 1 = 0 ∧ levelIndex 0x10000 2 = 0 ∧ levelIndex 0x10000 3 = 0 := by decide +kernel
  have hk : makeTables 64 0 0x10000 0 3 0 t = some (0, t) := by
    have down (l : Nat) (h : levelIndex 0x10000 (l + 1) = 0) : makeTables 64 0 0x10000 0 (l + 1) 0 t = makeTables 64 0 0x10000 0 l 0 t := by
      rw [makeTables, if_neg (Nat.succ_ne_zero l).symm, nextTable, h, he]
      rfl
    rw [down 2 hl.2.2, down 1 hl.2.1, down 0 hl.1]
    rfl
  rw [mapped_eq, ht]
  simp only [Option.bind_some, putGroup, h0, Nat.sub_self, Nat.zero_mul, Nat.add_zero]
  rw [show (placedCtx true).root = 0 from rfl]
  rw [hk]
  exact ⟨_, rfl⟩

theorem test_ContextCommands_map : ∃ t, mapped (taken []) = some t := by
  obtain ⟨b, hb⟩ := pickPlace_some (taken []) 100 0x4000000000 0x4010000000 (2 ^ 16) (2 ^ 16) 0 (by decide) (by simp [taken])
    (by simp [taken])
  have hg := pickPlace_ge (by decide) hb
  have ht := congrArg (Option.map fun base => (base, { taken [] with
    pages := (taken []).pages ++ [(⟨some 0, false, base, 2 ^ 16, false, false⟩ : PageRec)]
    mem := memZero (taken []).mem base (base + 2 ^ 16)
    bad := (taken []).bad.filter fun w => decide (w < base) || decide (base + 2 ^ 16 ≤ w) })) hb
  exact mapped_some ht (memZero_above fun e he => Nat.lt_of_lt_of_le
    ((by decide : ∀ e ∈ (commanded none).mem, e.1 < 0x4000000000) e he) hg) rfl

/-- What MAP asks: the page at 0x10000 is not mapped, that at 0x20000 is. -/
theorem test_ContextCommands_unmapped : unmapped (taken []) 0 0x10000 0x10000 = true ∧
    unmapped (taken []) 0 0x20000 0x10000 = false := by decide +kernel

/-- CTXDEL, with nothing running and with a launch; CTXSET and PTSET as the Plinth's pages stand. -/
theorem test_ContextCommands_contexts :
    (let s : State := { commanded none with launches := [] }
     let r := emptyQueues 0 (List.finRange 16) (cancelAll s 0)
     r.2 = true ∧ r.1.launches.length = 0) ∧
    (emptyQueues 0 (List.finRange 16) (cancelAll (commanded none) 0)).2 = false ∧
    (let s : State := { commanded none with launches := [] }
     ctxBusy s (placedCtx true) = false ∧
     ctxsetOk (placedCtx true) ⟨.A, 1, 0, 0, 0xC000000000000000, 0, 0, 1, 0, 0⟩ = true) ∧
    tableAtLevel (commanded none).mem 0x20000 0 3 0 = some 0 ∧
    (match checkedEntry (commanded none) 0 0 with | some (e, _) => e == 0 | none => false) = true := by decide +kernel

/-- Queues: a ring at 0x20000 of one entry, of a queue that runs nothing; one that is in use takes a record or loses one. -/
theorem test_ContextCommands_queues :
    (let s : State := { commanded none with launches := [] }
     let x := queueCtx oneRecord
     ringOkay 0x20000 0x20080 0 = true ∧ queueRuns s x 0 = false ∧ queueBusy s x 0 = false ∧
     (at' x.queues 0).head = (at' x.queues 0).done ∧ (at' x.queues 0).head ≤ 1 ∧ 1 - (at' x.queues 0).head ≤ 2 ^ 0 ∧
     (at' x.queues 0).v = true ∧ 0 < (at' x.queues 0).tail) ∧
    (let y : Queue := { oneRecord with tail := 0 }
     y.v = true ∧ y.tail + 1 - y.done ≤ 2 ^ y.lsize) := by decide +kernel

/-- A class descriptor at 0x20000: one element of 8 bytes; and a class of slot 1, out of session. -/
theorem test_ContextCommands_classes :
    (let s : State := { commanded none with mem := (commanded none).mem.take 9 ++ [⟨0x20013, 0x30⟩, ⟨0x20014, 1⟩] }
     match ctxRead s 0 0x20000 32 with
     | some bs => classFits s ⟨0, Vector.ofFn fun i => dw (dwordsOf bs) i.val⟩ 0 1
     | none => false) = true ∧
    at' (dieAt (commanded none) 0).classes 1 = none ∧ classPlace (ask 1 0 0 0) = (0, 1) ∧
    (let s := sessions 7 false false none
     (at' (dieAt s 0).classes 0).isSome = true ∧ inSession s 0 0 = false) := by decide +kernel

/-! ## The package -/

/-- A core that is being reset; power-on; the bring-up's steps. -/
theorem test_PackageSteps :
    (∀ n ∈ [0, 2 ^ 33], ({ commanded none with now := n } : State).cpsem = .port .A ∧ (commanded none).cpsemAt = 0) ∧
    (let a := acc .load 0x4000000000 0 id
     (withAccs [a]).accs.find? (·.id == a.id) = some a) ∧
    ({ task true with bootStep := 9 } : State).bad.contains (0x20000 / 8 * 8) = false ∧ ctxBy (task true) (placedCtx true).n = some (placedCtx true) ∧
    (let s : State := { State.reset with bootStep := 2 }
     (bringUp s true).isSome = true ∧ (bringUp s false).isSome = false) ∧
    (coreAt (modCore State.reset 0 fun k => { k with resetting := true }) 0).resetting = true ∧
    (let s : State := { State.reset with bootStep := 8 }
     s.bootStep = 8 ∧ s.frieze = [] ∧ s.fzseq = 0) := by decide +kernel

end Sys2Proof.Tests
end

section
/-! PROOFS. The frame of a word that computes a value in a task. -/

namespace Sys2Proof.Proofs
open Sys2Proof Sys2Proof.Machine Sys2Proof.Laws

/-! ## The core after a value word -/

/-- A bank after a value has gone to a destination: only an x register of the bank takes it (R217). -/
def destBank (d : Operand) (v : DWord) (y : RegBank) : RegBank :=
  match d with
  | .x r => writeX y r v
  | _ => y

theorem readX_destBank_other {d : Operand} {r : Fin 32} (v : DWord) (y : RegBank) (h : d ≠ .x r ∨ r = 0) :
    readX (destBank d v y) r = readX y r := by
  cases d with
  | x r' =>
    have hne : ¬(r = r' ∧ r' ≠ 0) := by
      rintro ⟨rfl, hr⟩
      exact h.elim (fun hd => hd rfl) hr
    rw [destBank, readX_writeX, if_neg hne]
  | _ => rfl

/-- A destination touches no field of a bank but the registers. -/
theorem destBank_rest (d : Operand) (v : DWord) (y : RegBank) : { destBank d v y with x := y.x } = y := by
  cases d with
  | x r =>
    simp only [destBank, writeX]
    split <;> rfl
  | _ => rfl

/-- A core after a value word of its bank `b`: D written, FLAGS merged, AMAX at `a`, and the pc at the next word. -/
def valueCore (now : Nat) (b : BankId) (d : Operand) (v : DWord) (fl : FlagBits) (a : DWord) (k : Core) : Core :=
  { k with
    banks := put k.banks b (destBank d v (at' k.banks b))
    task := k.task.map fun x => { x with pc := x.pc + 8 }
    blk := { k.blk with flags := k.blk.flags ||| fl, amax := a }
    flagsNow := setNow now k.flagsNow fl }

theorem writeDst_bank_eq {s : State} {e : Env} {b : BankId} (h : e.agent = .bank b) (d : Operand) (void : Bool)
    (v : DWord) (fmt : Fmt) :
    coreAt (writeDst s e d void v fmt) e.core = modBank (coreAt s e.core) b (destBank d v) := by
  rw [writeDst_bank h]
  cases d with
  | x r => exact coreAt_modCore_self ..
  | _ => simp only [modBank, destBank, put_at_self]

theorem writeDst_now (s : State) (e : Env) (d : Operand) (void : Bool) (v : DWord) (fmt : Fmt) :
    (writeDst s e d void v fmt).now = s.now := by
  unfold writeDst
  repeat' split
  all_goals rfl

theorem coreAt_written_bank {s : State} {e : Env} {b : BankId} (h : e.agent = .bank b) (d : Operand)
    (srcs : List Operand) (fmt : Fmt) (v : DWord) (fl : FlagBits) :
    coreAt (written s e d srcs fmt v fl) e.core =
      valueCore s.now b d v fl (coreAt s e.core).blk.amax (coreAt s e.core) := by
  rw [written, suppressed_bank h, if_neg (by decide), advance_bank h, mergeFlags, coreAt_modCore_self,
    coreAt_modCore_self, writeDst_bank_eq h, writeDst_now]
  rfl

theorem coreAt_converted_bank {s : State} {e : Env} {b : BankId} (h : e.agent = .bank b) (f : RegForm)
    (srcs : List Operand) (x : FVal) (r : DWord × FlagBits) :
    coreAt (converted s e f srcs x r) e.core =
      valueCore s.now b f.d r.1 r.2
        (if f.x.getLsbD 0 then amaxUpdate (coreAt s e.core).blk.amax x else (coreAt s e.core).blk.amax)
        (coreAt s e.core) := by
  simp only [converted]
  rw [suppressed_bank h, if_neg (by decide), advance_bank h, coreAt_modCore_self]
  cases f.x.getLsbD 0 with
  | true =>
    rw [if_pos rfl, if_pos rfl, coreAt_modCore_self, mergeFlags, coreAt_modCore_self, writeDst_bank_eq h, writeDst_now]
    rfl
  | false =>
    rw [if_neg (by decide), if_neg (by decide), mergeFlags, coreAt_modCore_self, writeDst_bank_eq h, writeDst_now]
    rfl

/-- The two shapes of a value word leave, for a bank, one form of core; without the amax option AMAX is as it was. -/
theorem valueShape_core {s t : State} {e : Env} {b : BankId} {d : Operand} {am : Bool} {srcs : List Operand}
    (h : e.agent = .bank b) (hs : ValueShape s e d am srcs t) :
    ∃ v fl a, (am = false → a = (coreAt s e.core).blk.amax) ∧
      coreAt t e.core = valueCore s.now b d v fl a (coreAt s e.core) := by
  cases hs with
  | w fmt v fl => exact ⟨v, fl, _, fun _ => rfl, coreAt_written_bank h d srcs fmt v fl⟩
  | c f x r hd hx =>
    subst hd
    refine ⟨r.1, r.2, _, fun hf => ?_, coreAt_converted_bank h f srcs x r⟩
    rw [← hx, hf, if_neg (by decide)]

theorem valueShape_outside {s t : State} {e : Env} {d : Operand} {am : Bool} {srcs : List Operand}
    (hs : ValueShape s e d am srcs t) : OutsideCore e.core s t := by
  cases hs with
  | w fmt v fl => exact outside_written ..
  | c f x r => exact outside_converted ..

/-- Settles O13: the core is that of `valueCore`, whose fields are read off one by one. -/
theorem taskValueFrame : Obligations.TaskValueFrame := by
  intro s t e b i d hd hm hb ht
  obtain ⟨u, hu, hshape⟩ := value_cases hd s e hm (here_bank hb _)
  obtain rfl : u = t := by simpa using hu.symm.trans ht
  obtain ⟨v, fl, a, ha, hk⟩ := valueShape_core hb hshape
  refine ⟨valueShape_outside hshape, ?_⟩
  rw [hk]
  have hbank : at' (valueCore s.now b d v fl a (coreAt s e.core)).banks b = destBank d v (at' (coreAt s e.core).banks b) :=
    at_put_self ..
  refine ⟨fun b' hne => at_put_ne _ _ _ _ (Ne.symm hne), fun r hr => ?_, ?_, rfl, fun n hn => ?_, ha,
    ⟨rfl, rfl, rfl, rfl, rfl, rfl, rfl⟩, rfl⟩
  · rw [hbank]
    exact readX_destBank_other v _ hr
  · rw [hbank]
    exact destBank_rest d v _
  · simp [valueCore, hn]

end Sys2Proof.Proofs
end

section
/-! PROOFS. What the read and the write of a special register leave. -/

namespace Sys2Proof.Proofs
open Sys2Proof Sys2Proof.Machine Sys2Proof.Laws

/-! ## Reading a special register -/

/-- A read that clears nothing leaves the state as it is. -/
theorem readSpecial_keeps {s s1 : State} {e : Env} {i : Nat} {v : DWord} (h : readSpecial s e i = some (v, s1))
    (hd : i ≠ 0x31) (hc : i ≠ 0x43) (hp : ¬(0x50 ≤ i ∧ i ≤ 0x53)) : s1 = s := by
  unfold readSpecial at h
  split at h
  case h_15 => exact absurd rfl hd -- IDXDROP
  case h_19 => exact absurd rfl hc -- SKSTAT
  case h_20 => -- the PSTATs, the channel table and the indices of no register
    rw [if_neg hp] at h
    split at h
    · simp only [Option.some.injEq, Prod.mk.injEq] at h
      exact h.2.symm
    · cases h
  all_goals
    simp only [Option.some.injEq, Prod.mk.injEq] at h
    exact h.2.symm

theorem readSpecial_idxdrop (s : State) (e : Env) : readSpecial s e 0x31 =
    some ((coreAt s e.core).blk.idxdrop, modCore s e.core (clearDrops s.now)) := rfl

theorem readSpecial_skstat (s : State) (e : Env) : readSpecial s e 0x43 =
    some ((coreAt s e.core).blk.skstat, modCore s e.core (clearConf s.now)) := rfl

theorem readSpecial_pstat (s : State) (e : Env) (p : ParserId) : readSpecial s e (0x50 + p.val) =
    some (pstatOf (at' (coreAt s e.core).parsers p), modCore s e.core fun k => modParser k p (clearRecn s.now)) := by
  fin_cases p <;> rfl

theorem readSpecial_outside {s s1 : State} {e : Env} {i : Nat} {v : DWord} (h : readSpecial s e i = some (v, s1)) :
    OutsideCore e.core s s1 := by
  by_cases hd : i = 0x31
  · subst hd
    obtain ⟨-, rfl⟩ := by simpa [readSpecial_idxdrop] using h
    exact outside_modCore ..
  by_cases hc : i = 0x43
  · subst hc
    obtain ⟨-, rfl⟩ := by simpa [readSpecial_skstat] using h
    exact outside_modCore ..
  by_cases hp : 0x50 ≤ i ∧ i ≤ 0x53
  · obtain ⟨p, rfl⟩ : ∃ p : ParserId, i = 0x50 + p.val := ⟨⟨i - 0x50, by omega⟩, by simp; omega⟩
    obtain ⟨-, rfl⟩ := by simpa [readSpecial_pstat] using h
    exact outside_modCore ..
  · rw [readSpecial_keeps h hd hc hp]
    exact outside_refl ..

theorem clearDrops_eq (now : Nat) (k : Core) : clearDrops now k = { k with blk := { k.blk with
    idxdrop := if k.dropNow.1 = now then
      BitVec.ofNat 64 (min k.dropNow.2.2 (2 ^ 32 - 1) * 2 ^ 32 + min k.dropNow.2.1 (2 ^ 32 - 1)) else 0 } } := by
  unfold clearDrops dropsNow
  split <;> rfl

theorem clearConf_now {now : Nat} {k : Core} (h : k.confAt = some now) : clearConf now k = k := if_pos h

theorem clearConf_earlier {now : Nat} {k : Core} (h : k.confAt ≠ some now) :
    clearConf now k = { k with blk := { k.blk with skstat := k.blk.skstat &&& ~~~ (1#64 <<< 58) } } := if_neg h

/-- A word with one bit cleared, bit by bit. -/
theorem getLsbD_clear_bit (w : DWord) (m n : Nat) :
    (w &&& ~~~ (1#64 <<< m)).getLsbD n = (w.getLsbD n && decide (n ≠ m)) := by
  rw [BitVec.getLsbD_and, BitVec.getLsbD_not, ← BitVec.twoPow_eq, BitVec.getLsbD_twoPow]
  by_cases hn : n < 64
  · by_cases hm : m = n
    · subst hm
      simp [hn]
    · simp [hn, hm, Ne.symm hm]
  · simp [BitVec.getLsbD_of_ge w n (by omega)]

/-- The 13 bits from bit 32 of a sum of fields. -/
theorem extract_13_at_32 (hi r : Nat) {lo : Nat} (hlo : lo < 2 ^ 32) :
    (BitVec.ofNat 64 (hi * 2 ^ 45 + r * 2 ^ 32 + lo)).extractLsb' 32 13 = BitVec.ofNat 13 r := by
  have hdiv : (hi * 2 ^ 45 + r * 2 ^ 32 + lo) / 2 ^ 32 = r + 2 ^ 13 * hi := by
    rw [show hi * 2 ^ 45 + r * 2 ^ 32 + lo = lo + 2 ^ 32 * (r + 2 ^ 13 * hi) by ring,
      Nat.add_mul_div_left _ _ (by decide), Nat.div_eq_of_lt hlo, Nat.zero_add]
  apply BitVec.eq_of_toNat_eq
  rw [BitVec.extractLsb'_toNat, BitVec.toNat_ofNat, BitVec.toNat_ofNat, Nat.shiftRight_eq_div_pow,
    show 2 ^ 64 = 2 ^ 32 * 2 ^ 32 from rfl, Nat.mod_mul_right_div_self, hdiv,
    Nat.mod_mod_of_dvd _ (by decide), Nat.add_mul_mod_self_left]

/-- What stands above RECN in PSTAT: STATE, DEPTH, START, LA2 and BYTE (R72). -/
def pstatHigh (z : Parser) : Nat :=
  (match z.state with | .idle => 0 | .run => 1 | .permit => 2 | .discard => 3 | .faulted => 4) * 2 ^ 16 +
    min z.stack.length 128 * 2 ^ 8 + z.start % 64 * 2 ^ 2 + (if z.la2 then 2 else 0) + (if z.byte then 1 else 0)

theorem pstatOf_fields (z : Parser) :
    pstatOf z = BitVec.ofNat 64 (pstatHigh z * 2 ^ 45 + min z.recn 8191 * 2 ^ 32 + min z.seqn (2 ^ 32 - 1)) := by
  unfold pstatOf pstatHigh
  simp only [Nat.add_mul, Nat.mul_assoc, ite_mul]
  rfl

/-- RECN is PSTAT[44:32] (R72). -/
theorem pstatOf_recn (z : Parser) : (pstatOf z).extractLsb' 32 13 = BitVec.ofNat 13 (min z.recn 8191) := by
  rw [pstatOf_fields]
  exact extract_13_at_32 _ _ (Nat.lt_of_le_of_lt (Nat.min_le_right ..) (by decide))

/-- Settles O36, by the equation of each register that has a read effect; the other reads keep the state. -/
theorem specialReadFrame : Obligations.SpecialReadFrame := by
  intro s s1 e i v h
  refine ⟨readSpecial_keeps h, readSpecial_outside h, ?_, ?_, ?_, ?_⟩
  · rintro rfl
    obtain ⟨rfl, rfl⟩ := by simpa [readSpecial_idxdrop] using h
    exact ⟨rfl, (coreAt_modCore_self ..).trans (clearDrops_eq ..)⟩
  · rintro rfl hc
    obtain ⟨rfl, rfl⟩ := by simpa [readSpecial_skstat] using h
    exact ⟨rfl, (coreAt_modCore_self ..).trans (clearConf_now hc)⟩
  · rintro rfl hc
    obtain ⟨rfl, rfl⟩ := by simpa [readSpecial_skstat] using h
    rw [coreAt_modCore_self, clearConf_earlier hc]
    refine ⟨rfl, ?_, fun n hn => ?_, rfl⟩
    · exact (getLsbD_clear_bit ..).trans (by simp)
    · exact (getLsbD_clear_bit ..).trans (by simp [hn])
  · rintro p rfl
    obtain ⟨rfl, rfl⟩ := by simpa [readSpecial_pstat] using h
    exact ⟨coreAt_modCore_self .., pstatOf_recn _⟩

/-! ## Writing a special register -/

theorem blk_modBlk (s : State) (c : CoreId) (f : RegBlock → RegBlock) :
    (coreAt (modBlk s c f) c).blk = f (coreAt s c).blk := by
  rw [modBlk, coreAt_modCore_self]

/-- A 1 written to FLAGS clears, but for a bit that this cycle has set (R7, R110). -/
theorem flags_writeFlags (s : State) (c : CoreId) (v : DWord) : (coreAt (writeFlags s c v) c).blk.flags =
    (coreAt s c).blk.flags &&&
      ~~~ (v.setWidth 6 &&& ~~~ (if (coreAt s c).flagsNow.1 = s.now then (coreAt s c).flagsNow.2 else 0)) := by
  rw [writeFlags, coreAt_modCore_self]

theorem amax_writeAmax (s : State) (c : CoreId) (v : DWord) :
    (coreAt (writeAmax s c v) c).blk.amax = amaxStored v := by
  rw [writeAmax, blk_modBlk]

theorem en_writeCnt (s : State) (c : CoreId) (v : DWord) : (coreAt (writeCnt s c v) c).blk.en = v.setWidth 8 := by
  rw [writeCnt, coreAt_modCore_self]

theorem ctr_writeCnt (s : State) (c : CoreId) (v : DWord) (n : Fin 8) : at' (coreAt (writeCnt s c v) c).blk.ctr n =
    if v.getLsbD (8 + n.val) then at' (countsNow s.now (coreAt s c)) n else at' (coreAt s c).blk.ctr n := by
  rw [writeCnt, coreAt_modCore_self]
  exact Vector.getElem_ofFn n.isLt

theorem readSpecial_flags (s : State) (e : Env) :
    readSpecial s e 0x010 = some ((coreAt s e.core).blk.flags.setWidth 64, s) := rfl
theorem readSpecial_policy (s : State) (e : Env) :
    readSpecial s e 0x011 = some ((coreAt s e.core).blk.policy.setWidth 64, s) := rfl
theorem readSpecial_amax (s : State) (e : Env) : readSpecial s e 0x012 = some ((coreAt s e.core).blk.amax, s) := rfl
theorem readSpecial_cnt (s : State) (e : Env) :
    readSpecial s e 0x030 = some ((coreAt s e.core).blk.en.setWidth 64, s) := rfl

/-- A write to a read-only register, or to one that only its read clears, is ignored (R5). -/
theorem writeSpecial_readOnly (s : State) (c : CoreId) (ctx : Nat) (v : DWord) : ∀ i ∈ [0x000, 0x001, 0x002, 0x003,
    0x004, 0x005, 0x020, 0x021, 0x022, 0x023, 0x031, 0x043, 0x050, 0x051, 0x052, 0x053],
    writeSpecial s c ctx i v = .ok s := by
  simp only [List.forall_mem_cons, List.not_mem_nil, false_implies, implies_true, and_true]
  exact ⟨rfl, rfl, rfl, rfl, rfl, rfl, rfl, rfl, rfl, rfl, rfl, rfl, rfl, rfl, rfl, rfl⟩

/-! The sizing registers SKCELLS, SKGROW and SKRND of a context, numbered 0 to 2 as in `writeSk` (R196). -/

/-- What sizing register `r` of a context reads. -/
def sizingOf (r : Fin 3) (x : Ctx) : DWord :=
  match r with
  | 0 => x.skcells.setWidth 64
  | 1 => x.skgrow.setWidth 64
  | 2 => x.skrnd.setWidth 64

theorem readSpecial_sizing {s : State} {e : Env} {x : Ctx} (hx : ctxBy s e.launch.ctx = some x) (r : Fin 3) :
    readSpecial s e (0x040 + r.val) = some (sizingOf r x, s) := by
  fin_cases r <;> simp [readSpecial, hx, sizingOf]

theorem writeSpecial_sizing (s : State) (c : CoreId) (ctx : Nat) (v : DWord) (r : Fin 3) :
    writeSpecial s c ctx (0x040 + r.val) v = (writeSk s ctx r.val v).elim .bad .ok := by
  fin_cases r
  all_goals
    simp only [writeSpecial]
    split
    all_goals
      next h => simp [h]

theorem writeSpecial_sizing_bad {s : State} {c : CoreId} {ctx : Nat} {v : DWord} (r : Fin 3)
    (h : writeSk s ctx r.val v = none) : writeSpecial s c ctx (0x040 + r.val) v = .bad := by
  rw [writeSpecial_sizing, h]
  rfl

/-- A sizing register in whose range the value lies reads what the write has made of its context. -/
theorem sizing_reads_back {s : State} {e : Env} {v y : DWord} {x : Ctx} {f : Ctx → Ctx}
    (hx : ctxBy s e.launch.ctx = some x) (r : Fin 3)
    (hw : writeSk s e.launch.ctx r.val v = some (modCtx s e.launch.ctx f)) (hn : ∀ x, (f x).n = x.n)
    (hy : sizingOf r (f x) = y) :
    ∃ s1, writeSpecial s e.core e.launch.ctx (0x040 + r.val) v = .ok s1 ∧
      (readSpecial s1 e (0x040 + r.val)).map (·.1) = some y := by
  have hx' : ctxBy (modCtx s e.launch.ctx f) e.launch.ctx = some (f x) := by
    rw [ctxBy_modCtx _ _ _ _ hn, if_pos rfl, hx]
    rfl
  exact ⟨_, by rw [writeSpecial_sizing, hw]; rfl, by rw [readSpecial_sizing hx', hy]; rfl⟩

/-- Settles O37: each write's effect on the register's field, put into the equation of its read. -/
theorem specialWriteThenRead : Obligations.SpecialWriteThenRead := by
  intro s e v x hx
  refine ⟨writeSpecial_readOnly s _ _ v, ⟨_, rfl, ?flags⟩, ⟨_, rfl, ?policy⟩, ⟨_, rfl, ?amax⟩, ⟨_, rfl, ?cnt⟩,
    ⟨_, rfl, ctr_writeCnt s _ v⟩,
    fun h => sizing_reads_back hx 0 (if_pos h) (fun _ => rfl) ?skcells, fun h => writeSpecial_sizing_bad 0 (if_neg h),
    fun h => sizing_reads_back hx 1 (if_pos h) (fun _ => rfl) ?skgrow, fun h => writeSpecial_sizing_bad 1 (if_neg h),
    fun h => sizing_reads_back hx 2 (if_pos h) (fun _ => rfl) ?skrnd, fun h => writeSpecial_sizing_bad 2 (if_neg h)⟩
  case flags => rw [readSpecial_flags, Option.map_some, flags_writeFlags]
  case policy => rw [readSpecial_policy, Option.map_some, blk_modBlk]
  case amax => rw [readSpecial_amax, Option.map_some, amax_writeAmax]
  case cnt => rw [readSpecial_cnt, Option.map_some, en_writeCnt]
  case skcells | skgrow | skrnd => exact BitVec.setWidth_ofNat_of_le_of_lt (by decide) (by omega)

end Sys2Proof.Proofs
end

section
/-! PROOFS. A fault ends its launch, and two faults of one cycle commute. -/

namespace Sys2Proof.Proofs
open Sys2Proof Sys2Proof.Machine Sys2Proof.Laws

/-! ## The order of elements (R21) -/

theorem beforeElem_iff {x y : CoreId × Nat × Nat} : beforeElem x y = true ↔
    x.1 < y.1 ∨ x.1 = y.1 ∧ (x.2.1 < y.2.1 ∨ x.2.1 = y.2.1 ∧ x.2.2 < y.2.2) := by
  simp [beforeElem]

theorem beforeElem_asymm {x y : CoreId × Nat × Nat} (h : beforeElem x y = true) : beforeElem y x = false := by
  rw [Bool.eq_false_iff]
  simp only [ne_eq, beforeElem_iff, Fin.lt_def, Fin.ext_iff] at *
  omega

theorem beforeElem_trans {x y z : CoreId × Nat × Nat} (hxy : beforeElem x y = true) (hyz : beforeElem y z = true) :
    beforeElem x z = true := by
  simp only [beforeElem_iff, Fin.lt_def, Fin.ext_iff] at *
  omega

theorem raiserOf_ne {a b : Who} (h : beforeWho a b = true) : raiserOf a ≠ raiserOf b := by
  intro he
  have hn := beforeElem_asymm h
  rw [beforeWho, he] at h
  rw [he] at hn
  exact Bool.false_ne_true (hn.symm.trans h)

theorem mem_addRaiser {x y : CoreId × Nat × Nat} {rs : List (CoreId × Nat × Nat)} :
    y ∈ addRaiser x rs ↔ y = x ∨ y ∈ rs := by
  induction rs with
  | nil => simp [addRaiser]
  | cons z zs ih =>
    rw [addRaiser]
    split
    · exact List.mem_cons
    · rw [List.mem_cons, ih, List.mem_cons, or_left_comm]

/-! ## What a fault makes of a launch, by cases -/

/-- The record kept of the fault `f` and the record `g` of the same cycle: the earlier element's, with one more discarded. -/
def keptFault (f g : FaultRec) : FaultRec :=
  { (if beforeWho f.who g.who then f else g) with ndisc := min 65535 (g.ndisc + 1) }

/-- The launch is FAULTED with the fault that ends it. -/
def endedBy (f : FaultRec) (now : Nat) (l : Launch) : Launch :=
  { l with phase := .ending, status := some .faulted, endedAt := now, fault := some f, raisers := [raiserOf f.who] }

/-- The launch has the record kept of the fault `f` and its own `g`, and one more raiser. -/
def joinedBy (f g : FaultRec) (l : Launch) : Launch :=
  { l with fault := some (keptFault f g), raisers := addRaiser (raiserOf f.who) l.raisers }

/-- A fault ends the launch: it is live, or its cancellation is of this cycle (R380). -/
def Endable (now : Nat) (l : Launch) : Prop :=
  isLive l.phase = true ∨ l.phase = .ending ∧ l.fault = none ∧ l.status = some .cancelled ∧ l.endedAt = now

/-- The launch has ended with the record `g` of this cycle, which another fault may still join. -/
def Collecting (now : Nat) (g : FaultRec) (l : Launch) : Prop :=
  l.phase = .ending ∧ l.fault = some g ∧ g.cycle = now

theorem isLive_ending : isLive .ending = false := rfl
theorem isLive_torn : isLive .torn = false := rfl
theorem isLive_written : isLive .written = false := rfl

theorem takeFault_endable {now : Nat} {l : Launch} (f : FaultRec) (h : Endable now l) :
    takeFault f now l = endedBy f now l := by
  rcases h with hlive | ⟨hphase, hnone, hstatus, hat⟩
  · exact if_pos hlive
  · unfold takeFault
    simp [endedBy, isLive_ending, hphase, hnone, hstatus, hat]

theorem takeFault_joins {f g : FaultRec} {now : Nat} {l : Launch} (h : Collecting now g l)
    (hr : raiserOf f.who ∉ l.raisers) : takeFault f now l = joinedBy f g l := by
  obtain ⟨hphase, hfault, hcycle⟩ := h
  unfold takeFault
  cases hb : beforeWho f.who g.who <;> simp [isLive_ending, joinedBy, keptFault, hphase, hfault, hcycle, hr, hb]

theorem takeFault_repeated {f g : FaultRec} {now : Nat} {l : Launch} (h : Collecting now g l)
    (hr : raiserOf f.who ∈ l.raisers) : takeFault f now l = l := by
  obtain ⟨hphase, hfault, -⟩ := h
  unfold takeFault
  simp [isLive_ending, hphase, hfault, hr]

theorem takeFault_discarded {now : Nat} {l : Launch} (f : FaultRec) (he : ¬Endable now l)
    (hc : ∀ g, ¬Collecting now g l) : takeFault f now l = l := by
  simp only [Endable, not_or, Bool.not_eq_true] at he
  obtain ⟨hlive, hcancel⟩ := he
  unfold takeFault
  rw [hlive, if_neg Bool.false_ne_true]
  split
  case h_1 hphase hnone => exact if_neg fun ⟨hstatus, hat⟩ => hcancel ⟨hphase, hnone, hstatus, hat⟩
  case h_2 g hphase hfault => exact if_neg fun ⟨hcycle, _⟩ => hc g ⟨hphase, hfault, hcycle⟩
  case h_3 => rfl

theorem collecting_endedBy {f : FaultRec} {now : Nat} (l : Launch) (hf : f.cycle = now) :
    Collecting now f (endedBy f now l) := ⟨rfl, rfl, hf⟩

theorem collecting_joinedBy {f g : FaultRec} {now : Nat} {l : Launch} (hf : f.cycle = now) (h : Collecting now g l) :
    Collecting now (keptFault f g) (joinedBy f g l) := by
  obtain ⟨hphase, -, hg⟩ := h
  refine ⟨hphase, rfl, ?_⟩
  unfold keptFault
  split
  · exact hf
  · exact hg

/-! ## Two faults of one cycle -/

/-- Of two fresh faults the record keeps the earlier element's, whichever was raised first. -/
theorem keptFault_swap {f g : FaultRec} (h : beforeWho f.who g.who = true) (hn : f.ndisc = g.ndisc) :
    keptFault g f = keptFault f g := by
  have hback : beforeWho g.who f.who = false := beforeElem_asymm h
  simp [keptFault, h, hback, hn]

/-- Two faults join a record in either order: the earliest of the three elements is kept. -/
theorem keptFault_comm {f f' : FaultRec} (h : beforeWho f.who f'.who = true) (g : FaultRec) :
    keptFault f' (keptFault f g) = keptFault f (keptFault f' g) := by
  have hback : beforeWho f'.who f.who = false := beforeElem_asymm h
  have htrans : beforeWho f'.who g.who = true → beforeWho f.who g.who = true := beforeElem_trans h
  unfold keptFault
  cases hf' : beforeWho f'.who g.who with
  | true => simp [htrans hf', h, hback]
  | false => cases hf : beforeWho f.who g.who <;> simp [hf, hf', hback]

theorem addRaiser_swap {a b : Who} (h : beforeWho a b = true) (rs : List (CoreId × Nat × Nat)) :
    addRaiser (raiserOf a) (addRaiser (raiserOf b) rs) = addRaiser (raiserOf b) (addRaiser (raiserOf a) rs) :=
  addRaiser_comm h (beforeElem_asymm h) (fun _ => beforeElem_trans h) rs

theorem joinedBy_endedBy_comm {f f' : FaultRec} (h : beforeWho f.who f'.who = true) (hn : f.ndisc = f'.ndisc)
    (now : Nat) (l : Launch) : joinedBy f' f (endedBy f now l) = joinedBy f f' (endedBy f' now l) := by
  have hr : addRaiser (raiserOf f'.who) [raiserOf f.who] = addRaiser (raiserOf f.who) [raiserOf f'.who] :=
    (addRaiser_swap h []).symm
  simp only [joinedBy, endedBy, keptFault_swap h hn, hr]

theorem joinedBy_joinedBy_comm {f f' : FaultRec} (h : beforeWho f.who f'.who = true) (g : FaultRec) (l : Launch) :
    joinedBy f' (keptFault f g) (joinedBy f g l) = joinedBy f (keptFault f' g) (joinedBy f' g l) := by
  simp only [joinedBy, keptFault_comm h, addRaiser_swap h]

/-- The faults of two elements in one cycle make the same of a launch in either order. -/
theorem takeFault_comm {f f' : FaultRec} {now : Nat} (h : beforeWho f.who f'.who = true) (hn : f.ndisc = f'.ndisc)
    (hc : f.cycle = now) (hc' : f'.cycle = now) (l : Launch) :
    takeFault f' now (takeFault f now l) = takeFault f now (takeFault f' now l) := by
  have hne := raiserOf_ne h
  by_cases he : Endable now l
  · rw [takeFault_endable f he, takeFault_endable f' he,
      takeFault_joins (collecting_endedBy l hc) (by simpa [endedBy] using hne.symm),
      takeFault_joins (collecting_endedBy l hc') (by simpa [endedBy] using hne)]
    exact joinedBy_endedBy_comm h hn now l
  by_cases hcol : ∃ g, Collecting now g l
  · obtain ⟨g, hg⟩ := hcol
    have hmem : raiserOf f'.who ∈ (joinedBy f g l).raisers ↔ raiserOf f'.who ∈ l.raisers := by
      simp [joinedBy, mem_addRaiser, hne.symm]
    have hmem' : raiserOf f.who ∈ (joinedBy f' g l).raisers ↔ raiserOf f.who ∈ l.raisers := by
      simp [joinedBy, mem_addRaiser, hne]
    by_cases hr : raiserOf f.who ∈ l.raisers <;> by_cases hr' : raiserOf f'.who ∈ l.raisers
    · rw [takeFault_repeated hg hr, takeFault_repeated hg hr', takeFault_repeated hg hr]
    · rw [takeFault_repeated hg hr, takeFault_joins hg hr',
        takeFault_repeated (collecting_joinedBy hc' hg) (hmem'.mpr hr)]
    · rw [takeFault_repeated hg hr', takeFault_joins hg hr,
        takeFault_repeated (collecting_joinedBy hc hg) (hmem.mpr hr')]
    · rw [takeFault_joins hg hr, takeFault_joins hg hr',
        takeFault_joins (collecting_joinedBy hc hg) (mt hmem.mp hr'),
        takeFault_joins (collecting_joinedBy hc' hg) (mt hmem'.mp hr)]
      exact joinedBy_joinedBy_comm h g l
  · have hdisc (f : FaultRec) : takeFault f now l = l := takeFault_discarded f he (not_exists.mp hcol)
    rw [hdisc f, hdisc f', hdisc f]

/-! ## The state -/

/-- Two changes of launches commute when they are of two launches, or commute on each. -/
theorem modLaunch_comm (s : State) {n m : Nat} {f g : Launch → Launch} (hf : ∀ l, (f l).id = l.id)
    (hg : ∀ l, (g l).id = l.id) (h : n = m → ∀ l, g (f l) = f (g l)) :
    modLaunch (modLaunch s n f) m g = modLaunch (modLaunch s m g) n f := by
  simp only [modLaunch, List.map_map]
  congr 2
  funext l
  by_cases hnm : n = m
  · subst hnm
    by_cases hn : l.id = n <;> simp [hn, hf, hg, h]
  by_cases hn : l.id = n
  · simp [hn, hnm, hf]
  by_cases hm : l.id = m
  · simp [hm, Ne.symm hnm, hg]
  · simp [hn, hm]

theorem raise_comm (code code' : FaultCode) {w w' : Who} (addr addr' extra extra' : DWord) (s : State)
    (h : beforeWho w w' = true) :
    raise code' w' addr' extra' (raise code w addr extra s) = raise code w addr extra (raise code' w' addr' extra' s) :=
  modLaunch_comm s (takeFault_id _ _) (takeFault_id _ _) fun _ => takeFault_comm h rfl rfl rfl

theorem launchBy_raise_other (code : FaultCode) (w : Who) (addr extra : DWord) (s : State) {id : Nat}
    (h : id ≠ w.launch) : launchBy (raise code w addr extra s) id = launchBy s id :=
  (launchBy_modLaunch _ _ _ _ (takeFault_id _ _)).trans (if_neg h)

theorem launchBy_raise_self (code : FaultCode) {w : Who} (addr extra : DWord) {s : State} {l : Launch}
    (h : launchBy s w.launch = some l) : launchBy (raise code w addr extra s) w.launch =
      some (takeFault ⟨code, w, addr, extra, 0, s.now⟩ s.now l) := by
  rw [launchBy_raise, h, Option.map_some, if_pos (launchBy_id h)]

/-- Settles O52: the launch by the cases of `takeFault`, and the two orders by `raise_comm`. -/
theorem faultEndsLaunch : Obligations.FaultEndsLaunch := by
  refine ⟨fun _ _ => beforeElem_iff, fun s code w addr extra => ⟨rfl, fun id hid => launchBy_raise_other _ _ _ _ _ hid,
    fun l hl => ?_, fun code' w' addr' extra' horder => ?_⟩⟩
  · rw [launchBy_raise_self _ _ _ hl]
    refine ⟨fun hlive => ?live, fun f hp hf hc hr => ?repeated, fun f hp hf hc hr => ?joins, fun f hp hf hc => ?later,
      fun hp => ?past⟩
    case live => exact congrArg some (takeFault_endable _ (.inl hlive))
    case repeated => exact congrArg some (takeFault_repeated ⟨hp, hf, hc⟩ (List.contains_iff_mem.mp hr))
    case joins => exact congrArg some (takeFault_joins ⟨hp, hf, hc⟩ (by simpa using hr))
    case later =>
      exact congrArg some (takeFault_discarded _ (by simp [Endable, isLive_ending, hp, hf]) (by simp [Collecting, hf, hc]))
    case past =>
      refine congrArg some (takeFault_discarded _ ?_ ?_) <;> rcases hp with hp | hp <;>
        simp [Endable, Collecting, isLive_torn, isLive_written, hp]
  · rcases horder with h | h
    · exact raise_comm code code' addr addr' extra extra' s h
    · exact (raise_comm code' code addr' addr extra' extra s h).symm

end Sys2Proof.Proofs
end

section
/-! PROOFS. The steps of the stream nodes SPHDR, ISECT and CTURN. -/

namespace Sys2Proof.Proofs
open Sys2Proof Sys2Proof.Machine Sys2Proof.Laws

section
variable {s : State} {e : Env} {pe : PeId} {n : Node} {k1 : Core} {i : Instr} {room : Shaper → Bool}
  {take : Env → Core → Node → Option Core}

/-- A token that finds room leaves before anything is taken in (R267). -/
theorem streamStep_sends (hm : MayRun s i e) (ha : e.agent = .node pe) (hn : nodeAt (coreAt s e.core) pe = some n)
    (hs : streamSend s.now (coreAt s e.core) n = some k1) :
    streamStep i s room take = .next (moved (modCore s e.core fun _ => k1) e.core) :=
  runWord_done hm (by simp only [ha, hn, hs, Option.some_or])

/-- With no token sent, the node takes from its inputs, where nothing waits to leave or there is room for more (R267). -/
theorem streamStep_takes (hm : MayRun s i e) (ha : e.agent = .node pe) (hn : nodeAt (coreAt s e.core) pe = some n)
    (hs : streamSend s.now (coreAt s e.core) n = none) (hr : n.shaper.out = [] ∨ room n.shaper = true)
    (ht : take e (coreAt s e.core) n = some k1) :
    streamStep i s room take = .next (moved (modCore s e.core fun _ => k1) e.core) := by
  have hroom : (n.shaper.out.isEmpty || room n.shaper) = true := by simpa using hr
  exact runWord_done hm (by simp only [ha, hn, hs, hroom, if_true, ht, Option.none_or])

end

/-- What CTURN with blocks of K rows takes: the head of its port, which makes the blocks behind it ready to leave (R41, R280). -/
def cturnTake (K : Nat) (p q : Fin 4) (e : Env) (k : Core) (n : Node) : Option Core :=
  (portHead k n.pe p).map fun t =>
    let r := cturnStep (levels e.launch.recd) K n.shaper t
    modNode (takeHead e.launch k n.pe p) n.pe fun n =>
      { n with shaper := { r.2 with out := n.shaper.out ++ r.1.map fun t => (q, t) } }

theorem execCturn_eq (f : RegForm) (s : State) : execCturn f s =
    streamStep (.cturn f) s (fun h => decide (h.out.length ≤ levelOf f.b * levelOf f.b))
      (cturnTake (levelOf f.b) (portNum f.a) (portNum f.d)) := by
  simp only [execCturn]
  congr 1
  funext e k n
  simp only [cturnTake]
  cases portHead k n.pe (portNum f.a) with
  | none => rfl
  | some t => rfl

/-- Settles O19: each of the three words is a `streamStep`, which sends or takes. -/
theorem streamNodes : Obligations.StreamNodes := by
  intro s e f pe n ha hn
  refine ⟨fun i k1 hi hm hs => ?send, fun k1 hm hs ho ht => ?sphdr, fun k1 hm hs ho ht => ?isect, fun t hm hs ho ht => ?cturn⟩
  case send =>
    rcases hi with rfl | rfl | rfl
    · exact (exec_sphdr f s).trans (streamStep_sends hm ha hn hs)
    · exact (exec_isect f s).trans (streamStep_sends hm ha hn hs)
    · exact ((exec_cturn f s).trans (execCturn_eq f s)).trans (streamStep_sends hm ha hn hs)
  case sphdr => exact (exec_sphdr f s).trans (streamStep_takes hm ha hn hs (.inl ho) ht)
  case isect => exact (exec_isect f s).trans (streamStep_takes hm ha hn hs (.inl ho) ht)
  case cturn =>
    rw [exec_cturn, execCturn_eq]
    exact streamStep_takes hm ha hn hs (.inr (decide_eq_true ho)) (by rw [cturnTake, ht]; rfl)

end Sys2Proof.Proofs
end

section
/-! PROOFS. The steps of the fabric and of the generators, on a core whose launch runs. -/

namespace Sys2Proof.Proofs
open Sys2Proof Sys2Proof.Machine Sys2Proof.Laws

/-! ## The launch of the core -/

theorem steps_maySteps {s : State} {c : CoreId} {l : Launch} (h : Steps s c l) : maySteps s l = true :=
  maySteps_of_phase s h.2

theorem steps_coreSteps {s : State} {c : CoreId} {l : Launch} (h : Steps s c l) : coreSteps s c = true := by
  simp only [coreSteps, h.1, steps_maySteps h]

/-! ## Nodes (R22, R74, R432) -/

section
variable {s : State} {c : CoreId} {l : Launch} {pe : PeId} {n : Node} {f : Firing}

theorem execPeFire_begins (h : Steps s c l) (hn : nodeAt (coreAt s c) pe = some n) (hz : n.frozen = false)
    (hi : isStreamNode n = false) (hf : n.firing = none) (hturn : foldTurn (levels l.recd) (coreAt s c) pe = true)
    (hnew : newFiring (levels l.recd) (coreAt s c) n = some f) :
    execPeFire c pe s = .next (moved (modCore s c (beginFiring · pe f)) c) := by
  simp [execPeFire, h.1, steps_maySteps h, hn, hz, hi, hf, hturn, hnew]

theorem execPeFire_ends (h : Steps s c l) (hn : nodeAt (coreAt s c) pe = some n) (hz : n.frozen = false)
    (hi : isStreamNode n = false) (hf : n.firing = some f) : execPeFire c pe s = .next (endFiring s c l n f) := by
  simp [execPeFire, h.1, steps_maySteps h, hn, hz, hi, hf]

end

/-! ## Routers (R35, R36, R40, R80) -/

section
variable {s : State} {c : CoreId} {l : Launch} {r : RouterId} {x : Router} {port : Fin 5} {vc : Fin 4} {k1 : Core}

theorem execRouterHop_pending (h : Steps s c l) (hx : routerAt (coreAt s c) r = some x)
    (hp : hopPending (coreAt s c) x (swFor x port vc) = some k1) :
    execRouterHop c r port vc s = .next (active (modCore s c fun _ => k1) c) := by
  simp [execRouterHop, h.1, steps_maySteps h, hx, hp]

theorem execRouterHop_head {t : Token} {ts : List Flit} {fl : FlagBits} (h : Steps s c l)
    (hx : routerAt (coreAt s c) r = some x) (hp : hopPending (coreAt s c) x (swFor x port vc) = none)
    (hq : queueAt (coreAt s c) (.link r port vc) = .tok t :: ts)
    (hh : hopHead (levels l.recd) (coreAt s c) x port vc t = some (k1, fl)) :
    execRouterHop c r port vc s = .next (mergeFlags (active (modCore s c fun _ => k1) c) c fl) := by
  simp [execRouterHop, h.1, steps_maySteps h, hx, hp, hq, hh]

/-- The queues to which a control entry of a router sends: one for each of its outputs (R80). -/
def ctlTargets (r : RouterId) (w : Word) : List QKey := (ctOuts w).filterMap fun o => outCkey r o (ctOloc w)

/-- A control token goes to all of its entry's outputs in one step (R80). -/
theorem execControlHop_goes {t : CFlit} {ts : List CFlit} {w : Word} (h : Steps s c l) (hx : routerAt (coreAt s c) r = some x)
    (hq : cqueueAt (coreAt s c) (.ctl r port (if port = 4 then vc else 0)) = t :: ts) (hw : ctEntry x port vc = some w)
    (hroom : (ctlTargets r w).all (hasCroom (coreAt s c)) = true) :
    execControlHop c r port vc s = .next (active (modCore s c fun k =>
      (ctlTargets r w).foldl (fun k q => pushCtl k q t) (popCtl k (.ctl r port (if port = 4 then vc else 0)))) c) := by
  simp only [ctlTargets] at hroom ⊢
  simp only [execControlHop, steps_coreSteps h, hx, hq, hw, hroom, Bool.and_self, if_true]

end

/-- A control token at an edge router's sub-port 2 posts a message on its generator's channel (R80, R303). -/
theorem execCtrlPost_posts {s : State} {c : CoreId} {l : Launch} {a : AgId} {b : Bool} {bs : List CFlit} (h : Steps s c l)
    (hq : cqueueAt (coreAt s c) (.post a) = .bit b :: bs) (hu : storeUsed (coreAt s c) < 256) :
    execCtrlPost c a s = .next (active (acceptMsg (modCore s c fun x => popCtl x (.post a)) c
      ⟨3, BitVec.ofNat 6 a.val, BitVec.ofNat 6 a.val, [], ctrlWid s c, c, none⟩) c) := by
  simp only [execCtrlPost, hq, steps_coreSteps h, hu, decide_true, Bool.and_self, if_true]

/-! ## Rings (R89) -/

/-- A core whose ring `n` has advanced by one slot: the last slot has left, and an empty one stands first. -/
def ringTurned (n : Nat) (k : Core) : Core := modRing k n fun x => { x with slots := none :: x.slots.dropLast }

section
variable {s : State} {c : CoreId} {l : Launch} {n : Nat} {r : Ring}

theorem execRingStep_enters {t : Token} (h : Steps s c l) (hr : (coreAt s c).rings[n]? = some r)
    (hz : (coreAt s c).frozen.contains (.ring n) = false) (ht : r.slots.getLast? = some (some t))
    (hroom : hasRoom (coreAt s c) (.pe r.head r.hport) = true) : execRingStep c n s =
      .next (active (modCore s c fun k => pushTok (ringTurned n k) (.pe r.head r.hport) (.tok t)) c) := by
  simp only [execRingStep, hr, steps_coreSteps h, hz, ht, hroom, Bool.not_true, Bool.or_self, Bool.false_eq_true, if_false,
    if_true, ringTurned]

theorem execRingStep_holds {t : Token} (h : Steps s c l) (hr : (coreAt s c).rings[n]? = some r)
    (hz : (coreAt s c).frozen.contains (.ring n) = false) (ht : r.slots.getLast? = some (some t))
    (hroom : hasRoom (coreAt s c) (.pe r.head r.hport) = false) : execRingStep c n s = .next s := by
  simp only [execRingStep, hr, steps_coreSteps h, hz, ht, hroom, Bool.not_true, Bool.or_self, Bool.false_eq_true, if_false]

/-- With no token in its last slot a ring turns; only where it carries a token has a unit moved. -/
theorem execRingStep_turns (h : Steps s c l) (hr : (coreAt s c).rings[n]? = some r)
    (hz : (coreAt s c).frozen.contains (.ring n) = false) (ht : r.slots.getLast? = some none) : execRingStep c n s =
      .next (if r.slots.any (·.isSome) then active (modCore s c (ringTurned n)) c else modCore s c (ringTurned n)) := by
  simp only [execRingStep, hr, steps_coreSteps h, hz, ht, Bool.not_true, Bool.or_self, Bool.false_eq_true, if_false]
  rfl

end

/-! ## The smallest full queue (R86) -/

theorem execQueueEnlarge_blocked {s : State} {c : CoreId} {l : Launch} {q : QKey} (h : Steps s c l)
    (ho : waitsOutside s c = false) (hu : unitSteps s c = false) (ha : (coreAt s c).lastAct + 64 ≤ s.now)
    (hq : smallestFull (coreAt s c) = some q) : execQueueEnlarge c s = .next
      (if (coreAt s c).pool < 16 then raise .queuePool (unitWho s c 0x0E 0) 0 (BitVec.ofNat 64 (coreAt s c).pool) s
       else modCore s c fun k => { k with pool := k.pool - 16, extra := k.extra ++ [(q, 16)], lastAct := s.now }) := by
  have hb : blockedFor s c 64 = true := by simp only [blockedFor, ho, hu, ha, decide_true, Bool.not_false, Bool.and_self]
  simp only [execQueueEnlarge, steps_coreSteps h, hb, hq, Bool.not_true, Bool.or_self, Bool.false_eq_true, if_false]

/-! ## Generators (R30, R31, R33, R336) -/

/-- The state after a ranged walk of generator `g` has asked for its team's next range, where it wants one (R33). -/
def rangeAsked (s : State) (c : CoreId) (l : Launch) (g : Ag) (w : AgWalk) : State :=
  if sdRng g.desc && wantsRange (coreAt s c) g w then askRange s l c (sdRq g.desc) else s

/-- A walk has a position in hand: it is not over, and, of a ranged walk, a range is in hand (R33). -/
def positionHere (k : Core) (g : Ag) (w : AgWalk) : Bool := !w.fin && (!sdRng g.desc || (rangeInHand k g).isSome)

/-- Generator `a` of core `c` holds `g`, which walks `w`, neither stopped at its marker nor frozen. -/
structure Walking (s : State) (c : CoreId) (l : Launch) (a : AgId) (g : Ag) (w : AgWalk) : Prop where
  steps : Steps s c l
  ag : at' (coreAt s c).ags a = g
  walk : g.walk = some w
  stop : g.stop = false
  frozen : (coreAt s c).frozen.contains (.ag a) = false

section
variable {s : State} {c : CoreId} {l : Launch} {a : AgId} {g : Ag} {w : AgWalk}

/-- The oldest element leaves once it has come and finds room (R30). -/
theorem execAgEmit_sends (h : Walking s c l a g w) {y : AgSlot} {ys : List AgSlot} (hm : sdMode g.desc ≠ 1)
    (hs : w.slots = y :: ys) (hy : y.ready = true) (hroom : agCanSend (coreAt s c) a g = true) :
    execAgEmit c a s = .next (agSendHead (rangeAsked s c l g w) l c a g w y) := by
  simp only [execAgEmit, h.steps.1, h.ag, h.walk, steps_maySteps h.steps, h.stop, h.frozen, hm, hs, hy, hroom,
    Bool.and_self, if_true, Bool.not_true, Bool.or_self, Bool.false_eq_true, if_false, rangeAsked]

/-- With no element on its way, the one of the position in hand is asked for (R30). -/
theorem execAgEmit_issues (h : Walking s c l a g w) (hm : sdMode g.desc ≠ 1) (hs : w.slots = [])
    (hh : positionHere (coreAt s c) g w = true) :
    execAgEmit c a s = .next (agIssue (rangeAsked s c l g w) l c a g w) := by
  unfold positionHere at hh
  simp only [execAgEmit, h.steps.1, h.ag, h.walk, steps_maySteps h.steps, h.stop, h.frozen, hm, hs, hh, if_true,
    Bool.not_true, Bool.or_self, Bool.false_eq_true, if_false, rangeAsked]

/-- A WRITE walk takes the head of its circuit for the position in hand (R31). -/
theorem execAgEmit_takes (h : Walking s c l a g w) (hm : sdMode g.desc = 1) (hh : positionHere (coreAt s c) g w = true)
    (hk : g.skip = none) : execAgEmit c a s = .next (agConsume (rangeAsked s c l g w) l c a g w) := by
  unfold positionHere at hh
  simp only [execAgEmit, h.steps.1, h.ag, h.walk, steps_maySteps h.steps, h.stop, h.frozen, hm, hh, hk, if_true,
    Bool.not_true, Bool.or_self, Bool.false_eq_true, if_false, rangeAsked]

/-- A WRITE walk passes over the positions of a group under poison (R27). -/
theorem execAgEmit_skips (h : Walking s c l a g w) {lv gid : Nat} (hm : sdMode g.desc = 1)
    (hh : positionHere (coreAt s c) g w = true) (hk : g.skip = some (lv, gid)) :
    execAgEmit c a s = .next (agSkip (rangeAsked s c l g w) l c a g w lv gid) := by
  unfold positionHere at hh
  simp only [execAgEmit, h.steps.1, h.ag, h.walk, steps_maySteps h.steps, h.stop, h.frozen, hm, hh, hk, if_true,
    Bool.not_true, Bool.or_self, Bool.false_eq_true, if_false, rangeAsked]

/-- With no element on its way and no position in hand, a walk does no more than ask for a range (R33). -/
theorem execAgEmit_idle (h : Walking s c l a g w) (hs : w.slots = []) (hh : positionHere (coreAt s c) g w = false) :
    execAgEmit c a s = .next (rangeAsked s c l g w) := by
  unfold positionHere at hh
  simp only [execAgEmit, h.steps.1, h.ag, h.walk, steps_maySteps h.steps, h.stop, h.frozen, hs, hh,
    Bool.not_true, Bool.not_false, Bool.or_self, Bool.false_eq_true, if_false, if_true, ite_self, rangeAsked]

/-- The core after a walk's end: the done token sent on sub-port 0, and the parser that the walk feeds given back, where it is
dropped, or told of the end (R33, R336). -/
def walkEnded (a : AgId) (g : Ag) (k : Core) : Core :=
  let k1 := sendLocal (modAg k a fun g => { g with walk := none, drop := false }) (agRouter a) 0 (.bit true)
  match g.gov with
  | some p => modParser k1 p fun z => if g.drop then { z with ag := none, eos := false } else { z with eos := true }
  | none => k1

/-- A walk that is over ends once its done token finds room, and its command has landed (R336). -/
theorem execAgWalkEnd_ends (h : Steps s c l) (hg : at' (coreAt s c).ags a = g) (hw : g.walk = some w)
    (hover : walkOver s c a g w = true) (hroom : canSend (coreAt s c) (agRouter a) 0 = true) :
    execAgWalkEnd c a s = .next (active (landed (modCore s c (walkEnded a g)) w.cmd) c) := by
  simp only [execAgWalkEnd, hg, hw, steps_coreSteps h, hover, hroom, Bool.not_true, Bool.or_self, Bool.false_eq_true,
    if_false]
  rfl

end

/-- Settles O45: each clause is a case of its step. -/
theorem fabricSteps : Obligations.FabricSteps := by
  refine ⟨fun s c l h => ⟨fun pe n f hn hz hi => ⟨fun hf hturn hnew => ?begins, fun hf => ?ends⟩,
    fun r x port vc hx => ⟨fun k1 hp => ?pending, fun t ts k1 fl hp hq hh => ?head, fun t ts w hq hw hroom => ?control⟩,
    fun n r hr hz => ⟨fun t ht hroom => ?enters, fun t ht hroom => ?holds, fun ht => ?turns⟩,
    fun a b bs hq hu => ?posts, fun q ho hu ha hq => ?enlarge⟩,
    fun s c l a w h hw => ⟨fun hstop hz => ?emit, fun hover hroom => ?walkEnd⟩⟩
  case begins => exact (exec_peFire ..).trans (execPeFire_begins h hn hz hi hf hturn hnew)
  case ends => exact (exec_peFire ..).trans (execPeFire_ends h hn hz hi hf)
  case pending => exact (exec_routerHop ..).trans (execRouterHop_pending h hx hp)
  case head => exact (exec_routerHop ..).trans (execRouterHop_head h hx hp hq hh)
  case control => exact (exec_controlHop ..).trans (execControlHop_goes h hx hq hw hroom)
  case enters => exact (exec_ringStep ..).trans (execRingStep_enters h hr hz ht hroom)
  case holds => exact (exec_ringStep ..).trans (execRingStep_holds h hr hz ht hroom)
  case turns =>
    refine ⟨_, (exec_ringStep ..).trans (execRingStep_turns h hr hz ht), ?_⟩
    split
    · simp only [active, coreAt_modCore_self]
      exact ⟨rfl, rfl⟩
    · rw [coreAt_modCore_self]
      exact ⟨rfl, rfl⟩
  case posts => exact (exec_ctrlPost ..).trans (execCtrlPost_posts h hq hu)
  case enlarge => exact (exec_queueEnlarge ..).trans (execQueueEnlarge_blocked h ho hu ha hq)
  case emit =>
    have hwalk : Walking s c l a _ w := ⟨h, rfl, hw, hstop, hz⟩
    exact ⟨fun y ys hm hs hy hroom => (exec_agEmit ..).trans (execAgEmit_sends hwalk hm hs hy hroom),
      fun hm hs hh => (exec_agEmit ..).trans (execAgEmit_issues hwalk hm hs hh),
      fun hm hh hk => (exec_agEmit ..).trans (execAgEmit_takes hwalk hm hh hk),
      fun lv gid hm hh hk => (exec_agEmit ..).trans (execAgEmit_skips hwalk hm hh hk),
      fun hs hh => (exec_agEmit ..).trans (execAgEmit_idle hwalk hs hh)⟩
  case walkEnd => exact (exec_agWalkEnd ..).trans (execAgWalkEnd_ends h rfl hw hover hroom)

end Sys2Proof.Proofs
end

section
/-! PROOFS. The frame of a word that computes a value in a node. -/

namespace Sys2Proof.Proofs
open Sys2Proof Sys2Proof.Machine Sys2Proof.Laws

/-! ## The node after a value word -/

/-- A node after a value word of its firing: D written, and the firing at its next word (R74, R238). -/
def nodeRan (d : Operand) (void : Bool) (v : Word) (fmt : Fmt) (n : Node) : Node :=
  { nodeWrite n d void v fmt with firing := (nodeWrite n d void v fmt).firing.map fun f => { f with idx := f.idx + 1 } }

theorem nodeRan_pe (d : Operand) (void : Bool) (v : Word) (fmt : Fmt) (n : Node) : (nodeRan d void v fmt n).pe = n.pe :=
  nodeWrite_pe ..

/-- The firing of `n'` is that of `n`, `f`, at its next word, with at most one more output; beside it the l registers alone
may differ. -/
def FiringAdvanced (f : Firing) (n n' : Node) : Prop :=
  ∃ f', n'.firing = some f' ∧ { n' with l := n.l, tag := n.tag, firing := some f } = n ∧
    { f' with idx := f.idx, outs := f.outs } = f ∧ f'.idx = f.idx + 1 ∧ ∃ os, f'.outs = f.outs ++ os ∧ os.length ≤ 1

section
variable {n : Node} {f : Firing}

/-- The three outcomes of a write in a firing: nothing, an l register, or an output. -/
theorem nodeWrite_cases (hf : n.firing = some f) (d : Operand) (void : Bool) (v : Word) (fmt : Fmt) :
    nodeWrite n d void v fmt = n ∨
    (∃ r, d = .l r ∧ void = false ∧ f.poison.isSome = false ∧
      nodeWrite n d void v fmt = { n with l := put n.l r v, tag := put n.tag r fmt }) ∨
    ∃ o, nodeWrite n d void v fmt = { n with firing := some (addOut f o) } := by
  unfold nodeWrite
  simp only [hf]
  cases d with
  | l r =>
    by_cases h : (void || f.poison.isSome) = true
    · exact .inl (if_pos h)
    · simp only [Bool.not_eq_true, Bool.or_eq_false_iff] at h
      exact .inr (.inl ⟨r, rfl, h.1, h.2, by simp [h.1, h.2]⟩)
  | q r => exact .inr (.inr ⟨_, rfl⟩)
  | e r => exact .inr (.inr ⟨_, rfl⟩)
  | _ => exact .inl rfl

theorem nodeRan_advances (hf : n.firing = some f) (d : Operand) (void : Bool) (v : Word) (fmt : Fmt) :
    FiringAdvanced f n (nodeRan d void v fmt n) := by
  have hn : { n with firing := some f } = n := by rw [← hf]
  unfold nodeRan
  rcases nodeWrite_cases hf d void v fmt with h | ⟨r, -, -, -, h⟩ | ⟨o, h⟩ <;> rw [h]
  · exact ⟨{ f with idx := f.idx + 1 }, by rw [hf]; rfl, hn, rfl, rfl, [], (List.append_nil _).symm, Nat.zero_le 1⟩
  · exact ⟨{ f with idx := f.idx + 1 }, by rw [hf]; rfl, hn, rfl, rfl, [], (List.append_nil _).symm, Nat.zero_le 1⟩
  · exact ⟨_, rfl, hn, rfl, rfl, [o], rfl, Nat.le_refl 1⟩

/-- An l register that is not D keeps its value and its tag, and so does D where the write is suppressed or under poison. -/
theorem nodeRan_keeps_l (hf : n.firing = some f) {d : Operand} {void : Bool} (v : Word) (fmt : Fmt) {r : Fin 8}
    (h : d ≠ .l r ∨ f.poison.isSome = true ∨ void = true) :
    at' (nodeRan d void v fmt n).l r = at' n.l r ∧ at' (nodeRan d void v fmt n).tag r = at' n.tag r := by
  unfold nodeRan
  rcases nodeWrite_cases hf d void v fmt with hw | ⟨r', rfl, hv, hp, hw⟩ | ⟨o, hw⟩ <;> rw [hw]
  · exact ⟨rfl, rfl⟩
  · have hne : r' ≠ r := by
      rintro rfl
      simp [hv, hp] at h
    exact ⟨at_put_ne _ _ _ _ hne, at_put_ne _ _ _ _ hne⟩
  · exact ⟨rfl, rfl⟩

end

/-! ## The core after a value word of a node -/

/-- What a value word may make of a register block: flags raised and AMAX seen, and nothing where it is suppressed (R77, R78,
R111). -/
structure BlockAfter (void : Bool) (b b' : RegBlock) : Prop where
  flags : ∀ m, b.flags.getLsbD m = true → b'.flags.getLsbD m = true
  same : SameBlock b b'
  kept : void = true → b' = b

theorem blockAfter_refl (void : Bool) (b : RegBlock) : BlockAfter void b b :=
  ⟨fun _ h => h, ⟨rfl, rfl, rfl, rfl, rfl, rfl, rfl⟩, fun _ => rfl⟩

theorem blockAfter_merged (b : RegBlock) (fl : FlagBits) (a : DWord) :
    BlockAfter false b { b with flags := b.flags ||| fl, amax := a } :=
  ⟨fun m h => by simp [h], ⟨rfl, rfl, rfl, rfl, rfl, rfl, rfl⟩, Bool.noConfusion⟩

/-- A core after a value word of the node at `pe`, with the register block and the flags of this cycle that it leaves. -/
def nodeCore (pe : PeId) (d : Operand) (void : Bool) (v : Word) (fmt : Fmt) (b : RegBlock) (now : Nat × FlagBits)
    (k : Core) : Core :=
  { modNode k pe (nodeRan d void v fmt) with blk := b, flagsNow := now }

theorem nodeAt_nodeCore (pe pe' : PeId) (d : Operand) (void : Bool) (v : Word) (fmt : Fmt) (b : RegBlock)
    (now : Nat × FlagBits) (k : Core) : nodeAt (nodeCore pe d void v fmt b now k) pe' =
      if pe' = pe then (nodeAt k pe).map (nodeRan d void v fmt) else nodeAt k pe' :=
  nodeAt_modNode k pe pe' _ (nodeRan_pe d void v fmt)

/-- Of the core, it changes the nodes, the register block and the flags of this cycle. -/
theorem nodeCore_rest (pe : PeId) (d : Operand) (void : Bool) (v : Word) (fmt : Fmt) (b : RegBlock) (now : Nat × FlagBits)
    (k : Core) : { nodeCore pe d void v fmt b now k with nodes := k.nodes, blk := k.blk, flagsNow := k.flagsNow } = k := rfl

/-- D written, the register block changed and the firing moved on make one change of the core. -/
theorem nodeCore_of_steps (pe : PeId) (d : Operand) (void : Bool) (v : Word) (fmt : Fmt) (b : RegBlock)
    (now : Nat × FlagBits) (k : Core) :
    modNode { modNode k pe (nodeWrite · d void v fmt) with blk := b, flagsNow := now } pe
      (fun n => { n with firing := n.firing.map fun f => { f with idx := f.idx + 1 } }) =
    nodeCore pe d void v fmt b now k := by
  simp only [nodeCore, modNode, List.map_map]
  congr 2
  funext n
  by_cases h : n.pe = pe
  · simp [h, nodeWrite_pe, nodeRan]
  · simp [h]

section
variable {s t : State} {e : Env} {pe : PeId}

theorem coreAt_written_node (h : e.agent = .node pe) (d : Operand) (srcs : List Operand) (fmt : Fmt) (v : DWord)
    (fl : FlagBits) : ∃ b now, BlockAfter (suppressed s e srcs) (coreAt s e.core).blk b ∧
      coreAt (written s e d srcs fmt v fl) e.core =
        nodeCore pe d (suppressed s e srcs) (v.setWidth 32) fmt b now (coreAt s e.core) := by
  unfold written
  cases suppressed s e srcs with
  | true =>
    rw [if_pos rfl, advance_node h, writeDst_node h, coreAt_modCore_self, coreAt_modCore_self]
    exact ⟨_, _, blockAfter_refl .., nodeCore_of_steps pe d true _ fmt (coreAt s e.core).blk (coreAt s e.core).flagsNow _⟩
  | false =>
    rw [if_neg Bool.false_ne_true, advance_node h, writeDst_node h, mergeFlags, coreAt_modCore_self, coreAt_modCore_self,
      coreAt_modCore_self]
    exact ⟨_, _, blockAfter_merged _ fl _, nodeCore_of_steps ..⟩

theorem coreAt_converted_node (h : e.agent = .node pe) (f : RegForm) (srcs : List Operand) (x : FVal)
    (r : DWord × FlagBits) : ∃ b now, BlockAfter (suppressed s e srcs) (coreAt s e.core).blk b ∧
      coreAt (converted s e f srcs x r) e.core =
        nodeCore pe f.d (suppressed s e srcs) (r.1.setWidth 32) (fmtField f.m) b now (coreAt s e.core) := by
  unfold converted
  cases suppressed s e srcs with
  | true =>
    rw [if_pos rfl, advance_node h, writeDst_node h, coreAt_modCore_self, coreAt_modCore_self]
    exact ⟨_, _, blockAfter_refl .., nodeCore_of_steps pe f.d true _ _ (coreAt s e.core).blk (coreAt s e.core).flagsNow _⟩
  | false =>
    rw [if_neg Bool.false_ne_true, advance_node h, writeDst_node h, mergeFlags, coreAt_modCore_self]
    cases f.x.getLsbD 0 with
    | true =>
      rw [if_pos rfl, coreAt_modCore_self, coreAt_modCore_self, coreAt_modCore_self]
      exact ⟨_, setNow s.now (coreAt s e.core).flagsNow r.2,
        blockAfter_merged _ r.2 (amaxUpdate (coreAt s e.core).blk.amax x),
        nodeCore_of_steps pe f.d false (r.1.setWidth 32) _ _ _ (coreAt s e.core)⟩
    | false =>
      rw [if_neg Bool.false_ne_true, coreAt_modCore_self, coreAt_modCore_self]
      exact ⟨_, _, blockAfter_merged _ r.2 _, nodeCore_of_steps ..⟩

/-- The two shapes of a value word leave, for a node, one form of core. -/
theorem valueShape_nodeCore {d : Operand} {am : Bool} {srcs : List Operand} (h : e.agent = .node pe)
    (hs : ValueShape s e d am srcs t) : ∃ v fmt b now, BlockAfter (suppressed s e srcs) (coreAt s e.core).blk b ∧
      coreAt t e.core = nodeCore pe d (suppressed s e srcs) v fmt b now (coreAt s e.core) := by
  cases hs with
  | w fmt v fl => exact ⟨_, _, coreAt_written_node h d srcs fmt v fl⟩
  | c f x r hd hx =>
    subst hd
    exact ⟨_, _, coreAt_converted_node h f srcs x r⟩

end

/-- Settles O14: the core is that of `nodeCore`, its node that of `nodeRan`. -/
theorem nodeValueFrame : Obligations.NodeValueFrame := by
  intro s t e pe n f i d hd hm ha hh hn hf ht
  obtain ⟨u, hu, hshape⟩ := value_cases hd s e hm hh
  obtain rfl : u = t := by simpa using hu.symm.trans ht
  obtain ⟨v, fmt, b, now, hb, hk⟩ := valueShape_nodeCore ha hshape
  refine ⟨valueShape_outside hshape, ?_⟩
  rw [hk]
  refine ⟨fun pe' hne => (nodeAt_nodeCore ..).trans (if_neg hne), ?node, hb.flags, hb.kept, hb.same, nodeCore_rest ..⟩
  case node =>
    obtain ⟨f', hf', hrest, hfrest, hidx, houts⟩ := nodeRan_advances hf d (suppressed s e (valueSources i)) v fmt
    refine ⟨_, f', ?_, hf', hrest, hfrest, hidx, houts, fun r => nodeRan_keeps_l hf v fmt⟩
    rw [nodeAt_nodeCore, if_pos rfl, hn, Option.map_some]

end Sys2Proof.Proofs
end

section
/-! PROOFS. BND: what it waits for, and the token that it forwards. -/

namespace Sys2Proof.Proofs
open Sys2Proof Sys2Proof.Machine Sys2Proof.Laws

/-- A node found at a PE is that PE's. -/
theorem nodeAt_pe {k : Core} {pe : PeId} {n : Node} (h : nodeAt k pe = some n) : n.pe = pe := by
  simpa using List.find?_some h

/-- A maximum taken over a list is at least where it began. -/
theorem le_foldl_max (xs : List Nat) (a : Nat) : a ≤ xs.foldl max a := by
  rw [List.foldl_max]
  exact Nat.le_max_left ..

/-- A BND releases at a scope no narrower than its feeder's domain's and its own (R90, R279). -/
theorem domainScope_le_bndScope (k : Core) (n : Node) (p : Fin 8) (out : Fin 4) :
    domainScope k (feederDomain k n.pe p n.dom.val) ≤ bndScope k n p out ∧
    domainScope k n.dom.val ≤ bndScope k n p out :=
  max_le_iff.mp (le_foldl_max ..)

section
variable {s : State} {e : Env} {f : RegForm} {pe : PeId} {n : Node} {p : Fin 8}

/-- A token not noted yet is noted with the next access's number (R279). -/
theorem execBnd_notes (hm : MayRun s (.bnd f) e) (ha : e.agent = .node pe) (hp : portIndex f.a = some p)
    (hn : nodeAt (coreAt s e.core) pe = some n) (hr : portReady (coreAt s e.core) pe p = true)
    (hw : n.bndWait.find? (·.1 == p) = none) : execBnd f s = .next (active (modCore s e.core fun k => modNode k pe fun n =>
      { n with bndWait := n.bndWait ++ [(p, s.nextId)] }) e.core) :=
  runWord_done hm (by simp only [ha, hp, hn, hr, hw, Bool.not_true, Bool.false_eq_true, if_false])

/-- A noted token leaves once its writes are visible and the way on has room (R90, R279). -/
theorem execBnd_forwards (hm : MayRun s (.bnd f) e) (ha : e.agent = .node pe) (hp : portIndex f.a = some p)
    (hn : nodeAt (coreAt s e.core) pe = some n) (hr : portReady (coreAt s e.core) pe p = true) {q : Fin 8} {seen : Nat}
    {k1 : Core} (hw : n.bndWait.find? (·.1 == p) = some (q, seen))
    (hd : domainReleased s e.core (feederDomain (coreAt s e.core) pe p n.dom.val) seen
      (bndScope (coreAt s e.core) n p (portNum f.d)) = true)
    (hf : bndForward s.now e.launch (coreAt s e.core) pe p (portNum f.d) = some k1) :
    execBnd f s = .next (moved (modCore s e.core fun _ => modNode k1 pe fun n =>
      { n with bndWait := n.bndWait.filter (·.1 != p) }) e.core) :=
  runWord_done hm (by simp only [ha, hp, hn, hr, hw, hd, hf, Bool.not_true, Bool.false_eq_true, if_false])

end

/-- Settles O20: BND notes a token that it has not noted, and forwards one that it has. -/
theorem boundaryForwards : Obligations.BoundaryForwards := by
  intro s e f pe n p ha hp hn hr hm
  have hscope := domainScope_le_bndScope (coreAt s e.core) n p (portNum f.d)
  rw [nodeAt_pe hn] at hscope
  exact ⟨hscope.1, hscope.2, fun hw => (exec_bnd f s).trans (execBnd_notes hm ha hp hn hr hw),
    fun q seen k1 hw hd hf => (exec_bnd f s).trans (execBnd_forwards hm ha hp hn hr hw hd hf)⟩

end Sys2Proof.Proofs
end

section
/-! PROOFS. The steps of banks, memory tiles and page walkers. -/

namespace Sys2Proof.Proofs
open Sys2Proof Sys2Proof.Machine Sys2Proof.Laws

/-! ## Banks (R135, R137) -/

theorem execBankWaitWake_performs {s : State} {b : Bank} {a : Access}
    (he : earliest (s.accs.filter fun x => x.waiting && x.woken && isCsm x.loc && bankOf x.loc == b) = some a)
    (hh : heldAtHome s a = false) (ho : slotOpen s b.die a.ctx = true) :
    execBankWaitWake b s = .next (performAccess s a) := by
  simp only [execBankWaitWake, he, hh, ho, Bool.not_true, Bool.or_self, Bool.false_eq_true, if_false]

/-- The launch of an access stands still when nothing of it but waits is outstanding and it has not progressed for 4,096
cycles. -/
theorem standsStill_iff {s : State} {a : Access} {l : Launch} (hl : launchBy s a.who.launch = some l)
    (hp : mayStep l.phase = true) :
    standsStill s a = true ↔ onlyWaits s l = true ∧ l.progress + 4096 ≤ s.now := by
  simp only [standsStill, hl, maySteps_of_phase s hp, Bool.true_and, Bool.and_eq_true, decide_eq_true_eq]

/-- On each core of a launch that only waits, no unit has moved for 4,096 cycles and none can. -/
theorem onlyWaits_core {s : State} {l : Launch} (h : onlyWaits s l = true) {c : CoreId} (hc : c ∈ l.cores) :
    (coreAt s c).lastAct + 4096 ≤ s.now ∧ unitSteps s c = false := by
  simp only [onlyWaits, Bool.and_eq_true] at h
  have hheld := List.all_eq_true.mp h.2 c hc
  simp only [onlyHeld, Bool.and_eq_true, decide_eq_true_eq, Bool.not_eq_true'] at hheld
  exact ⟨hheld.1.1, hheld.2⟩

/-- The STVs that wait at a bank and whose launches stand still. -/
def stillStvs (s : State) (b : Bank) : List Access :=
  s.accs.filter fun x => x.waiting && x.kind == .stv && bankOf x.loc == b && standsStill s x

theorem execStvDeadlock_faults {s : State} {b : Bank} {a : Access} (h : earliest (stillStvs s b) = some a) :
    execStvDeadlock b s = .next (homeFault .version (bankWho a) a
      (BitVec.ofNat 64 (field (recDword s.mem a.loc 0) 63 40 * 2 ^ 24 + a.a.toNat % 2 ^ 24)) s) := by
  unfold stillStvs at h
  simp only [execStvDeadlock, h]

theorem execStvDeadlock_none {s : State} {b : Bank} (h : stillStvs s b = []) : execStvDeadlock b s = .next s := by
  unfold stillStvs at h
  simp only [execStvDeadlock, h, earliest, List.foldl_nil]

/-! ## Memory tiles (R81 to R84) -/

section
variable {s : State} {c : CoreId} {m : MtId} {bank : Fin 4}

/-- Bank `bank` of a tile has served port `p`, whose turn is over (R82). -/
def turnTaken (c : CoreId) (m : MtId) (bank : Fin 4) (p : Fin 5) (s : State) : State :=
  modCore s c fun k => modMt k m fun x => { x with turn := put x.turn bank p }

/-- The port whose turn it is at a bank of a tile (R82). -/
def portInTurn (s : State) (c : CoreId) (m : MtId) (bank : Fin 4) : Option (Fin 5) :=
  nextTurn (at' (at' (coreAt s c).mts m).turn bank) (portWants s c m bank)

theorem execMtAccept_serves {p : Fin 5} (h : portInTurn s c m bank = some p) :
    execMtAccept c m bank s = .next (turnTaken c m bank p (servePort s c m bank p)) := by
  unfold portInTurn at h
  simp only [execMtAccept, h, turnTaken]

theorem execMtAccept_none (h : portInTurn s c m bank = none) : execMtAccept c m bank s = .next s := by
  unfold portInTurn at h
  simp only [execMtAccept, h]

theorem servePort_stream {p : Fin 4} {l : Launch} {t : Token} (hl : holderOf s c = some l)
    (ht : mtHead (coreAt s c) m p = some t) : servePort s c m bank p.castSucc = mtServe s l c m p t := by
  simp only [servePort, Fin.val_castSucc, p.isLt, dif_pos, hl, Fin.eta, ht]

/-- The access that the steering port presents is the oldest of those there (R83). -/
theorem steerWants_oldest {x : Access} (h : portWants s c m bank 4 = true) (hx : oldest (atSteer s (c, m)) = some x) :
    steerWants s c m bank = some x := by
  have hsome : (steerWants s c m bank).isSome = true := h
  unfold steerWants at hsome ⊢
  rw [hx] at hsome ⊢
  dsimp only at hsome ⊢
  split at hsome
  · exact if_pos ‹_›
  · cases hsome

theorem servePort_steer {x : Access} (h : steerWants s c m bank = some x) : servePort s c m bank 4 = steerServe s x := by
  have hport : ¬ (4 : Fin 5).val < 4 := by decide
  simp only [servePort, dif_neg hport, h]

theorem execMtResponse_stream {p : Fin 4} {r : Token} {rs : List Token} (hs : coreSteps s c = true)
    (hr : at' (at' (coreAt s c).mts m).rob p = r :: rs) (hw : canWrite (coreAt s c) (mtRouter m) p = true) :
    execMtResponse c m p.castSucc s = .next (modCore (active s c) c fun k => writeLocal
      (modMt k m fun x => { x with rob := put x.rob p rs }) (mtRouter m) p (.tok r)) := by
  simp only [execMtResponse, Fin.val_castSucc, p.isLt, dif_pos, Fin.eta, hr, hs, hw, Bool.and_self, if_true]

theorem execMtResponse_steer {x : Access} (h : oldest (steerRob s (c, m)) = some x) :
    execMtResponse c m 4 s = .next (steerReturn s x) := by
  have hport : ¬ (4 : Fin 5).val < 4 := by decide
  simp only [execMtResponse, dif_neg hport, h]

end

/-! ## Misses that leave a die (R386) -/

/-- What the cores of walks waited for outside them has come. -/
def heardEach (xs : List Walk) (s : State) : State := xs.foldl (fun s x => heard s x.who.launch x.who.core) s

theorem heard_rest (s : State) (launch : Nat) (c : CoreId) (cs : Vector Core 256) :
    { heard s launch c with cores := cs } = { s with cores := cs } := by
  unfold heard
  split <;> rfl

/-- It changes no more than cores. -/
theorem heardEach_eq (xs : List Walk) (s : State) : heardEach xs s = { s with cores := (heardEach xs s).cores } := by
  induction xs generalizing s with
  | nil => rfl
  | cons x xs ih => exact (ih _).trans (heard_rest ..)

section
variable (s : State) (d : DieId) (mine : List Walk)

/-- The state once these misses have left a die's queue. -/
def missesLeft : State := modDie s d fun x => { x with walks := x.walks.filter (!mine.contains ·) }

theorem walksDone_mem : (walksDone s d mine).mem = s.mem :=
  (congrArg State.mem (heardEach_eq mine (missesLeft s d mine)) :)

theorem walksDone_launches : (walksDone s d mine).launches = s.launches :=
  (congrArg State.launches (heardEach_eq mine (missesLeft s d mine)) :)

/-- Of its die, it takes away these misses and changes nothing else. -/
theorem dieAt_walksDone : dieAt (walksDone s d mine) d =
    { dieAt s d with walks := (dieAt s d).walks.filter (!mine.contains ·) } := by
  have hd : (walksDone s d mine).dies = (missesLeft s d mine).dies :=
    (congrArg State.dies (heardEach_eq mine (missesLeft s d mine)) :)
  rw [dieAt, hd]
  exact (dieAt_modDie ..).trans (if_pos rfl)

end

/-- To take away those of a list that a test accepts is to keep the others. -/
theorem filter_not_contains_filter (xs : List Walk) (p : Walk → Bool) :
    xs.filter (!(xs.filter p).contains ·) = xs.filter fun x => !p x := by
  refine List.filter_congr fun x hx => congrArg _ ?_
  rw [Bool.eq_iff_iff, List.contains_iff_mem, List.mem_filter]
  exact and_iff_right hx

/-! ## A walk that fails (R384, R391) -/

/-- One fault raised for each of a list, by its element and with its address. -/
def raiseEach {α : Type} (code : FaultCode) (extra : DWord) (who : α → Who) (addr : α → DWord) (xs : List α) (s : State) :
    State := xs.foldl (fun s x => raise code (who x) (addr x) extra s) s

section
variable {α : Type} (code : FaultCode) (extra : DWord) (who : α → Who) (addr : α → DWord)

theorem raiseEach_mem (xs : List α) (s : State) : (raiseEach code extra who addr xs s).mem = s.mem := by
  induction xs generalizing s with
  | nil => rfl
  | cons x xs ih => exact (ih _).trans (raise_mem ..)

theorem raiseEach_dies (xs : List α) (s : State) : (raiseEach code extra who addr xs s).dies = s.dies := by
  induction xs generalizing s with
  | nil => rfl
  | cons x xs ih => exact (ih _).trans (raise_dies ..)

/-- A launch of none of the elements is as it was. -/
theorem launchBy_raiseEach_other {id : Nat} (xs : List α) (s : State) (h : ∀ x ∈ xs, (who x).launch ≠ id) :
    launchBy (raiseEach code extra who addr xs s) id = launchBy s id := by
  induction xs generalizing s with
  | nil => rfl
  | cons x xs ih =>
    rw [List.forall_mem_cons] at h
    exact (ih _ h.2).trans (launchBy_raise_other _ _ _ _ _ h.1.symm)

end

/-- The launch has ended FAULTED with a record of which `P` holds. -/
structure EndedWith (P : FaultRec → Prop) (l : Launch) : Prop where
  phase : l.phase = .ending
  status : l.status = some .faulted
  fault : ∃ r, l.fault = some r ∧ P r

/-- A launch that has ended with such a record keeps one whatever such fault comes after: which of the two stays does not
matter (R21). -/
theorem takeFault_keeps_endedWith {P : FaultRec → Prop} (hP : ∀ r n, P r → P { r with ndisc := n }) {f : FaultRec}
    {now : Nat} {l : Launch} (hl : EndedWith P l) (hf : P f) : EndedWith P (takeFault f now l) := by
  obtain ⟨hphase, hstatus, g, hg, hPg⟩ := hl
  by_cases hc : g.cycle = now
  · by_cases hr : raiserOf f.who ∈ l.raisers
    · rw [takeFault_repeated ⟨hphase, hg, hc⟩ hr]
      exact ⟨hphase, hstatus, g, hg, hPg⟩
    · rw [takeFault_joins ⟨hphase, hg, hc⟩ hr]
      refine ⟨hphase, hstatus, _, rfl, hP _ _ ?_⟩
      split
      · exact hf
      · exact hPg
  · rw [takeFault_discarded f (by simp [Endable, isLive_ending, hphase, hg]) (by simp [Collecting, hg, hc])]
    exact ⟨hphase, hstatus, g, hg, hPg⟩

/-- A live launch of one of the elements ends with the record of one of them. -/
theorem launchBy_raiseEach_ended {α : Type} {code : FaultCode} {extra : DWord} {who : α → Who} {addr : α → DWord}
    {P : FaultRec → Prop} (hP : ∀ r n, P r → P { r with ndisc := n }) {id : Nat} (xs : List α) (s : State) (l : Launch)
    (hl : launchBy s id = some l)
    (hx : ∀ x ∈ xs, (who x).launch = id → ∀ now, P ⟨code, who x, addr x, extra, 0, now⟩)
    (h : EndedWith P l ∨ isLive l.phase = true ∧ ∃ x ∈ xs, (who x).launch = id) :
    ∃ l', launchBy (raiseEach code extra who addr xs s) id = some l' ∧ EndedWith P l' := by
  induction xs generalizing s l with
  | nil =>
    rcases h with h | ⟨-, x, hmem, -⟩
    · exact ⟨l, hl, h⟩
    · cases hmem
  | cons x xs ih =>
    rw [List.forall_mem_cons] at hx
    by_cases hw : (who x).launch = id
    · subst hw
      refine ih _ _ (launchBy_raise_self code (addr x) extra hl) hx.2 (.inl ?_)
      rcases h with h | ⟨hlive, -⟩
      · exact takeFault_keeps_endedWith hP h (hx.1 rfl _)
      · rw [takeFault_endable _ (.inl hlive)]
        exact ⟨rfl, rfl, _, rfl, hx.1 rfl _⟩
    · refine ih _ l ((launchBy_raise_other _ _ _ _ _ (Ne.symm hw)).trans hl) hx.2
        (h.imp_right fun ⟨hlive, y, hy, hyw⟩ => ?_)
      rcases List.mem_cons.mp hy with rfl | hy
      · exact absurd hyw hw
      · exact ⟨hlive, y, hy, hyw⟩

/-- An element that asked for a page, in the record of a fault of the walker that walked it (R391). -/
def asWalker (w x : Walk) : Who := { x.who with unit := 0x0C, elem := (w.walker.map (·.val)).getD 0 }

/-- A record of a walk that failed: TRANSLATION by a page walker, with the entry and its level, and an address of which `ok`
holds (R391). -/
def WalkRecord (extra : DWord) (ok : DWord → Prop) (r : FaultRec) : Prop :=
  r.code = .translation ∧ r.extra = extra ∧ r.who.unit = 0x0C ∧ ok r.addr

/-! ## Page walks (R384, R386) -/

/-- The state of a page walk once the misses of earlier cycles have taken the walkers that are free. -/
def walkersGiven (s : State) (d : DieId) : State := modDie s d fun x => { x with walks := giveWalkers s x s.now [] x.walks }

/-- The walks that may end: they have a walker, and a slot of their partition is open. -/
def walkEnds (s : State) (d : DieId) : List Walk :=
  (dieAt (walkersGiven s d) d).walks.filter fun x => x.walker.isSome && slotOpen s d x.ctx

/-- The elements that asked for the page of a walk. -/
def walkAskers (s : State) (d : DieId) (w : Walk) : List Walk :=
  ((dieAt (walkersGiven s d) d).walks.filter (samePage w)).filter (·.asker == .element)

theorem dieAt_walkersGiven_tlb (s : State) (d : DieId) : (dieAt (walkersGiven s d) d).tlb = (dieAt s d).tlb := by
  rw [walkersGiven, dieAt_modDie, if_pos rfl]

theorem pickFree_nil {α : Type} (s : State) : pickFree s ([] : List α) = none := rfl

/-- Of some alternatives the free choice is one. -/
theorem pickFree_mem {α : Type} (s : State) {xs : List α} (h : xs ≠ []) : ∃ x ∈ xs, pickFree s xs = some x :=
  have hlt := Nat.mod_lt (Config.choice s.ticks 0) (List.length_pos_iff.mpr h)
  ⟨_, List.getElem_mem hlt, List.getElem?_eq_getElem hlt⟩

section
variable {s : State} {d : DieId} {w : Walk}

theorem execPageWalk_none (h : walkEnds s d = []) : execPageWalk d s = .next (walkersGiven s d) := by
  have hpick : pickFree s (walkEnds s d) = none := by rw [h, pickFree_nil]
  unfold walkEnds walkersGiven at hpick
  simp only [execPageWalk, hpick, walkersGiven]

theorem execPageWalk_leaf {e : TlbEntry} (hp : pickFree s (walkEnds s d) = some w) (hw : walk s w.ctx w.va = .leaf e) :
    execPageWalk d s = .next (walksDone
      (modDie (walkersGiven s d) d fun x => { x with tlb := tlbFill s 16384 x.tlb e }) d
      ((dieAt (walkersGiven s d) d).walks.filter fun x => x == w || answersWalk e x)) := by
  unfold walkEnds walkersGiven at hp
  simp only [execPageWalk, hp, hw, walkersGiven]

theorem execPageWalk_bad {e : DWord} {n : Nat} (hp : pickFree s (walkEnds s d) = some w)
    (hw : walk s w.ctx w.va = .bad e n) : execPageWalk d s = .next (raiseEach .translation (walkExtra e n) (asWalker w)
      (fun x => BitVec.ofNat 64 x.va) (walkAskers s d w)
      (walksDone (walkersGiven s d) d ((dieAt (walkersGiven s d) d).walks.filter (samePage w)))) := by
  unfold walkEnds walkersGiven at hp
  simp only [execPageWalk, hp, hw]
  rfl

/-- A walk that ends brings its translation into the TLB, and the misses that it covers go. -/
theorem execPageWalk_leaf_leaves {e : TlbEntry} (hp : pickFree s (walkEnds s d) = some w)
    (hw : walk s w.ctx w.va = .leaf e) : ∃ u, execPageWalk d s = .next u ∧
      (dieAt u d).tlb = tlbFill s 16384 (dieAt s d).tlb e ∧
      (dieAt u d).walks = (dieAt (walkersGiven s d) d).walks.filter (fun y => !(y == w || answersWalk e y)) ∧
      u.mem = s.mem ∧ u.launches = s.launches := by
  refine ⟨_, execPageWalk_leaf hp hw, ?_, ?_, walksDone_mem .., walksDone_launches ..⟩
  · rw [dieAt_walksDone, dieAt_modDie, if_pos rfl, dieAt_walkersGiven_tlb]
  · rw [dieAt_walksDone, dieAt_modDie, if_pos rfl]
    exact filter_not_contains_filter ..

/-- A walk that fails brings nothing into the TLB, and the misses for its page go. -/
theorem execPageWalk_bad_leaves {e : DWord} {n : Nat} (hp : pickFree s (walkEnds s d) = some w)
    (hw : walk s w.ctx w.va = .bad e n) : ∃ u, execPageWalk d s = .next u ∧
      (dieAt u d).walks = (dieAt (walkersGiven s d) d).walks.filter (fun y => !samePage w y) ∧
      (dieAt u d).tlb = (dieAt s d).tlb ∧ u.mem = s.mem ∧
      ∀ id l, launchBy s id = some l →
        (isLive l.phase = true → (∃ y ∈ walkAskers s d w, y.who.launch = id) → ∃ l', launchBy u id = some l' ∧
          EndedWith (WalkRecord (walkExtra e n) fun a =>
            ∃ y ∈ walkAskers s d w, y.who.launch = id ∧ a = BitVec.ofNat 64 y.va) l') ∧
        ((∀ y ∈ walkAskers s d w, y.who.launch ≠ id) → launchBy u id = some l) := by
  refine ⟨_, execPageWalk_bad hp hw, ?walks, ?tlb, (raiseEach_mem ..).trans (walksDone_mem ..), fun id l hl => ?launches⟩
  case walks =>
    rw [dieAt, raiseEach_dies]
    exact (congrArg Die.walks (dieAt_walksDone ..)).trans (filter_not_contains_filter ..)
  case tlb =>
    rw [dieAt, raiseEach_dies]
    exact (congrArg Die.tlb (dieAt_walksDone ..)).trans (dieAt_walkersGiven_tlb s d)
  case launches =>
    have hl1 : launchBy (walksDone (walkersGiven s d) d ((dieAt (walkersGiven s d) d).walks.filter (samePage w))) id =
        some l := by
      rw [launchBy, walksDone_launches]
      exact hl
    refine ⟨fun hlive hask => ?_, fun hask => (launchBy_raiseEach_other _ _ (asWalker w) _ _ _ hask).trans hl1⟩
    exact launchBy_raiseEach_ended (fun _ _ h => h) _ _ l hl1
      (fun y hy hid _ => ⟨rfl, rfl, rfl, y, hy, hid, rfl⟩) (.inr ⟨hlive, hask⟩)

end

theorem mem_walkAskers {s : State} {d : DieId} {w y : Walk} : y ∈ walkAskers s d w ↔
    y ∈ (dieAt (walkersGiven s d) d).walks ∧ samePage w y = true ∧ y.asker = .element := by
  simp only [walkAskers, List.mem_filter, beq_iff_eq, and_assoc]

/-- Settles O43: each clause is a case of its step. -/
theorem bankTileWalkSteps : Obligations.BankTileWalkSteps := by
  refine ⟨fun s b a => ⟨fun he hh ho => ?wake, ⟨_, exec_waitStoreResend .., rfl, rfl⟩, fun l hl hp => standsStill_iff hl hp,
      fun l hl c hc => onlyWaits_core hl hc, fun he => ?deadlock, fun hnone => ?moves⟩,
    fun s c m bank => ⟨fun p l t hp hl ht => ?stream, fun x hp hx => ?steer, fun p hp => nextTurn_ready hp, fun hp => ?idle,
      fun p r rs hs hr hw => ?response, fun x hx => ?steerResponse,
      fun d => ⟨fun hnone => ?noWalk, fun hsome => pickFree_mem s hsome, fun w hw => ⟨fun e he => ?leaf, fun e n he => ?bad⟩⟩⟩⟩
  case wake => exact (exec_bankWaitWake ..).trans (execBankWaitWake_performs he hh ho)
  case deadlock => exact (exec_stvDeadlock ..).trans (execStvDeadlock_faults he)
  case moves =>
    refine (exec_stvDeadlock ..).trans (execStvDeadlock_none (List.filter_eq_nil_iff.mpr fun x hx => ?_))
    exact Bool.eq_false_iff.mp (hnone x hx)
  case stream =>
    refine (exec_mtAccept ..).trans ((execMtAccept_serves hp).trans ?_)
    rw [servePort_stream hl ht]
    rfl
  case steer =>
    refine (exec_mtAccept ..).trans ((execMtAccept_serves hp).trans ?_)
    rw [servePort_steer (steerWants_oldest (nextTurn_ready hp) hx)]
    rfl
  case idle => exact (exec_mtAccept ..).trans (execMtAccept_none hp)
  case response => exact (exec_mtResponse ..).trans (execMtResponse_stream hs hr hw)
  case steerResponse => exact (exec_mtResponse ..).trans (execMtResponse_steer hx)
  case noWalk => exact (exec_pageWalk ..).trans (execPageWalk_none hnone)
  case leaf => exact execPageWalk_leaf_leaves hw he
  case bad =>
    obtain ⟨u, hu, hwalks, htlb, hmem, hlaunch⟩ := execPageWalk_bad_leaves hw he
    refine ⟨u, (exec_pageWalk ..).trans hu, hwalks, htlb, hmem,
      fun l hl => ⟨fun ⟨y, hy, hsame, hel, hid⟩ hlive => ?_, fun hnone => ?_⟩⟩
    · obtain ⟨l', hl', hphase, hstatus, r, hr, hcode, hextra, hunit, z, hz, hzid, haddr⟩ :=
        (hlaunch _ l hl).1 hlive ⟨y, mem_walkAskers.mpr ⟨hy, hsame, hel⟩, hid⟩
      obtain ⟨hzmem, hzsame, hzel⟩ := mem_walkAskers.mp hz
      exact ⟨l', r, hl', hphase, hstatus, hr, hcode, hextra, hunit, z, ⟨hzmem, hzsame, hzel, hzid⟩, haddr⟩
    · refine (hlaunch _ l hl).2 fun y hy hid => hnone y ?_
      obtain ⟨hmem, hsame, hel⟩ := mem_walkAskers.mp hy
      exact ⟨hmem, hsame, hel, hid⟩

end Sys2Proof.Proofs
end

section
/-! PROOFS. The saturation of the integer results. -/

namespace Sys2Proof.Proofs
open Sys2Proof Sys2Proof.Machine Sys2Proof.Laws

/-! ## A result read back (R237, R238) -/

theorem widthOf_bounds (node : Bool) (f : Fmt) : 0 < widthOf node f ∧ widthOf node f ≤ 64 := by
  cases node <;> cases f <;> decide

theorem wrapTo_lt (w : Nat) (x : Int) : wrapTo w x < 2 ^ w := by
  rw [wrapTo, Int.toNat_lt (Int.emod_nonneg x (by positivity))]
  exact_mod_cast Int.emod_lt_of_pos x (by positivity)

theorem wrapTo_cast (w : Nat) (x : Int) : (wrapTo w x : Int) = x % 2 ^ w :=
  Int.toNat_of_nonneg (Int.emod_nonneg x (by positivity))

theorem signedOf_emod (w n : Nat) : signedOf w n % 2 ^ w = n % 2 ^ w := by
  unfold signedOf
  split
  · rfl
  · exact Int.sub_emod_right ..

/-- The extension of a result keeps its low bits, whichever way it extends. -/
theorem lowBits_extend {w n : Nat} (hw : w ≤ 64) (hn : n < 2 ^ w) (signed : Bool) :
    lowBits w (extend w signed n) = n := by
  have hdvd : 2 ^ w ∣ 2 ^ 64 := pow_dvd_pow 2 hw
  unfold lowBits extend
  cases signed with
  | false => rw [if_neg (by decide), BitVec.toNat_ofNat, Nat.mod_mod_of_dvd _ hdvd, Nat.mod_eq_of_lt hn]
  | true =>
    rw [if_pos rfl]
    zify
    rw [BitVec.toNat_ofInt, Int.toNat_of_nonneg (Int.emod_nonneg _ (by decide)),
      Int.emod_emod_of_dvd _ (by exact_mod_cast hdvd), signedOf_emod]
    exact_mod_cast Nat.mod_eq_of_lt hn

/-- A dword read in `w` bits is a number of the range of `w` bits (R99). -/
theorem reduced_mem_range {w : Nat} (hw : 0 < w) (uns : Bool) (v : DWord) :
    (rangeOf w uns).1 ≤ reduced w uns v ∧ reduced w uns v ≤ (rangeOf w uns).2 := by
  obtain ⟨n, rfl⟩ : ∃ n, w = n + 1 := ⟨w - 1, by omega⟩
  have hlt : lowBits (n + 1) v < 2 ^ (n + 1) := Nat.mod_lt _ (by positivity)
  have htop : (2 : Int) ^ (n + 1) = 2 * 2 ^ n := by ring
  cases uns <;> simp only [rangeOf, reduced, signedOf, Bool.false_eq_true, if_true, if_false, Nat.add_sub_cancel]
  · zify at hlt ⊢
    split <;> omega
  · zify at hlt
    omega

theorem reduced_emod (w : Nat) (uns : Bool) (v : DWord) : reduced w uns v % 2 ^ w = lowBits w v % 2 ^ w := by
  cases uns with
  | false => exact signedOf_emod ..
  | true => rfl

/-- What a wrapped result reads as agrees with the exact result modulo 2^W. -/
theorem reduced_extend_wrapTo_emod {w : Nat} (hw : w ≤ 64) (uns signed : Bool) (x : Int) :
    (reduced w uns (extend w signed (wrapTo w x)) - x) % 2 ^ w = 0 := by
  rw [← Int.emod_eq_emod_iff_emod_sub_eq_zero, reduced_emod, lowBits_extend hw (wrapTo_lt w x), wrapTo_cast,
    Int.emod_emod]

/-- A number of the range reads back as itself: the range has at most one number of each residue. -/
theorem reduced_extend_wrapTo_of_mem {w : Nat} (hw : 0 < w) (hw' : w ≤ 64) {uns : Bool} (signed : Bool) {x : Int}
    (hx : (rangeOf w uns).1 ≤ x ∧ x ≤ (rangeOf w uns).2) : reduced w uns (extend w signed (wrapTo w x)) = x := by
  obtain ⟨hlo, hhi⟩ := reduced_mem_range hw uns (extend w signed (wrapTo w x))
  have hspan : (rangeOf w uns).2 - (rangeOf w uns).1 < 2 ^ w := by
    obtain ⟨n, rfl⟩ : ∃ n, w = n + 1 := ⟨w - 1, by omega⟩
    have htop : (2 : Int) ^ (n + 1) = 2 * 2 ^ n := by ring
    cases uns <;> simp only [rangeOf, Nat.add_sub_cancel, Bool.false_eq_true, if_true, if_false] <;> omega
  refine Int.sub_eq_zero.mp (Int.eq_zero_of_abs_lt_dvd
    (Int.dvd_of_emod_eq_zero (reduced_extend_wrapTo_emod hw' uns signed x)) (abs_lt.mpr ⟨?_, ?_⟩)) <;> omega

/-! ## Clamping (R99, R241) -/

/-- The exact result under SAT or without it: clamped to the range, or as it is. -/
def clampIf (w : Nat) (uns sat : Bool) (x : Int) : Int :=
  if sat then max (rangeOf w uns).1 (min (rangeOf w uns).2 x) else x

theorem rangeOf_le (w : Nat) (uns : Bool) : (rangeOf w uns).1 ≤ (rangeOf w uns).2 := by
  have hw : (0 : Int) < 2 ^ w := by positivity
  have hhalf : (0 : Int) < 2 ^ (w - 1) := by positivity
  cases uns <;> simp only [rangeOf, Bool.false_eq_true, if_true, if_false] <;> omega

/-- `finishInt` wraps what is left after clamping, and raises SAT where it clamped. -/
theorem finishInt_eq (w : Nat) (uns sat : Bool) (x : Int) :
    finishInt w uns sat x = (wrapTo w (clampIf w uns sat x),
      if sat = true ∧ ¬((rangeOf w uns).1 ≤ x ∧ x ≤ (rangeOf w uns).2) then flSAT else 0) := by
  have hle := rangeOf_le w uns
  cases sat with
  | false => simp [finishInt, clampIf]
  | true =>
    simp only [finishInt, clampIf, Bool.true_and, decide_eq_true_eq, true_and, if_true]
    split
    · rw [if_pos (by omega)]; congr 2; omega
    · split
      · rw [if_pos (by omega)]; congr 2; omega
      · rw [if_neg (by omega)]; congr 2; omega

theorem clampIf_sat_mem (w : Nat) (uns : Bool) (x : Int) :
    (rangeOf w uns).1 ≤ clampIf w uns true x ∧ clampIf w uns true x ≤ (rangeOf w uns).2 := by
  have hle := rangeOf_le w uns
  simp only [clampIf, if_true]
  omega

/-- Settles O9: the result is the clamped or the exact number, wrapped, and reads back as `reduced` of its extension. -/
theorem integerSaturation : Obligations.IntegerSaturation := by
  intro k op a b x lo hi y v
  obtain ⟨hw, hw'⟩ : 0 < k.w ∧ k.w ≤ 64 := widthOf_bounds k.node k.f
  have hlo : lo = (rangeOf k.w k.uns).1 := by simp only [lo, rangeOf, apply_ite Prod.fst]
  have hhi : hi = (rangeOf k.w k.uns).2 := by simp only [hi, rangeOf, apply_ite Prod.snd]
  have hv : v = reduced k.w k.uns (k.put (wrapTo k.w (clampIf k.w k.uns k.sat x))) := by
    simp only [v, y, intExact, finishInt_eq, x]
  have hy : y.2 = if k.sat = true ∧ ¬(lo ≤ x ∧ x ≤ hi) then flSAT else 0 := by
    simp only [y, intExact, finishInt_eq, hlo, hhi, x]
  obtain ⟨hvlo, hvhi⟩ := reduced_mem_range hw k.uns y.1
  refine ⟨hlo ▸ hvlo, hhi ▸ hvhi, fun hs => ⟨?_, ?_⟩, fun hs => ⟨?_, ?_⟩⟩
  · rw [hv, hs, IntMode.put, reduced_extend_wrapTo_of_mem hw hw' _ (clampIf_sat_mem ..), hlo, hhi, clampIf, if_pos rfl]
  · simp only [hy, hs, true_and, ite_not]
  · rw [hv, hs]
    exact reduced_extend_wrapTo_emod hw' ..
  · rw [hy, hs, if_neg (by simp)]

end Sys2Proof.Proofs
end

section
/-! PROOFS. Rounding to an IEEE format of numbers that it holds, and of powers of two. -/

namespace Sys2Proof.Proofs
open Sys2Proof Sys2Proof.Machine Sys2Proof.Laws

/-! ## The dimensions of the formats (R100) -/

theorem ieeeDims_bounds (F : Fmt) : 7 ≤ (ieeeDims F).2 ∧ (ieeeDims F).2 ≤ 23 ∧ 15 ≤ ieeeBias F ∧ ieeeBias F ≤ 127 := by
  cases F <;> decide

/-- The greatest exponent field, that of infinity, is one more than twice the bias. -/
theorem two_pow_exponentBits (F : Fmt) : 2 ^ (ieeeDims F).1 = 2 * ieeeBias F + 2 := by
  cases F <;> decide

theorem widthOf_ieee {F : Fmt} (hF : isIeeeFmt F = true) : widthOf true F = 1 + ((ieeeDims F).1 + (ieeeDims F).2) := by
  revert hF
  cases F <;> decide

/-! ## Bit lengths -/

theorem bitLen_eq_of_bounds {n k : Nat} (hlo : 2 ^ k ≤ n) (hhi : n < 2 ^ (k + 1)) : bitLen n = k + 1 := by
  have hn : n ≠ 0 := (lt_of_lt_of_le (by positivity) hlo).ne'
  rw [bitLen, if_neg hn, (Nat.log2_eq_iff hn).mpr ⟨hlo, hhi⟩]

theorem bitLen_two_pow (n : Nat) : bitLen (2 ^ n) = n + 1 :=
  bitLen_eq_of_bounds le_rfl (Nat.pow_lt_pow_right (by decide) (Nat.lt_succ_self n))

theorem two_pow_le_of_bitLen {n : Nat} (hn : n ≠ 0) : 2 ^ (bitLen n - 1) ≤ n := by
  rw [bitLen, if_neg hn]
  exact Nat.log2_self_le hn

theorem lt_two_pow_bitLen (n : Nat) : n < 2 ^ bitLen n := by
  unfold bitLen
  split
  · omega
  · exact Nat.lt_log2_self

theorem bitLen_le_of_lt {n k : Nat} (h : n < 2 ^ k) : bitLen n ≤ k := by
  unfold bitLen
  split
  · omega
  · exact (Nat.log2_lt ‹_›).mpr h

theorem bitLen_mul_two_pow {n : Nat} (hn : n ≠ 0) (j : Nat) : bitLen (n * 2 ^ j) = bitLen n + j := by
  have hpos : 0 < bitLen n := by rw [bitLen, if_neg hn]; omega
  have hlo := Nat.mul_le_mul_right (2 ^ j) (two_pow_le_of_bitLen hn)
  have hhi := Nat.mul_lt_mul_of_pos_right (lt_two_pow_bitLen n) (Nat.two_pow_pos j)
  rw [← pow_add] at hlo hhi
  rw [bitLen_eq_of_bounds hlo (by rwa [show bitLen n - 1 + j + 1 = bitLen n + j by omega])]
  omega

/-! ## Rounding a value, not its mantissa and exponent (R101, R105) -/

/-- A mantissa with all the discarded bits 0 is not rounded. -/
theorem roundShift_exact (rnd : BitVec 2) (s : Bool) (k sh : Nat) :
    roundShift rnd s (k * 2 ^ sh) sh false = (k, false) := by
  have hhalf : (0 == if sh = 0 then 1 else 2 ^ (sh - 1)) = false := by
    rw [beq_eq_false_iff_ne]
    split <;> positivity
  simp only [roundShift, Nat.mul_div_left _ (Nat.two_pow_pos sh), Nat.mul_mod_left, hhalf]
  split <;> simp

/-- A common factor 2^j of mantissa and unit leaves the rounding as it is. -/
theorem roundShift_mul_two_pow (rnd : BitVec 2) (s : Bool) (m j : Nat) {sh : Nat} (hsh : sh ≠ 0) :
    roundShift rnd s (m * 2 ^ j) (sh + j) false = roundShift rnd s m sh false := by
  have hpos : 0 < 2 ^ j := Nat.two_pow_pos j
  have hhalf : 2 ^ (sh + j - 1) = 2 ^ (sh - 1) * 2 ^ j := by rw [← pow_add]; congr 1; omega
  have hgt : ∀ r h : Nat, decide (r * 2 ^ j > h * 2 ^ j) = decide (r > h) := fun r h => by simp [hpos]
  have heq : ∀ r h : Nat, (r * 2 ^ j == h * 2 ^ j) = (r == h) := fun r h => by simp
  have hne : ∀ r : Nat, (r * 2 ^ j != 0) = (r != 0) := fun r => by simp [bne]
  simp only [roundShift, pow_add, Nat.mul_div_mul_right _ _ hpos, Nat.mul_mod_mul_right, hhalf, hsh,
    show sh + j ≠ 0 by omega, if_false, hgt, heq, hne]

/-- Rounding to a unit depends on the value m · 2^(e+j) alone. -/
theorem roundUnit_mul_two_pow (rnd : BitVec 2) (s : Bool) (m j : Nat) (e q : Int) :
    roundUnit rnd s (m * 2 ^ j) e q false = roundUnit rnd s m (e + j) q false := by
  unfold roundUnit
  by_cases hle : q ≤ e
  · rw [if_pos hle, if_pos (by omega), mul_assoc, ← pow_add]
    congr 3
    omega
  · rw [if_neg hle]
    by_cases hle' : q ≤ e + j
    · rw [if_pos hle', ← roundShift_exact rnd s _ (q - e).toNat, mul_assoc, ← pow_add]
      congr 3
      omega
    · rw [if_neg hle', ← roundShift_mul_two_pow rnd s m j (by omega)]
      congr 1
      omega

/-- Rounding to a format depends on the value m · 2^(e+j) alone. -/
theorem roundIeee_mul_two_pow (md : FpMode) (F : Fmt) (rnd : BitVec 2) (sat s : Bool) (m j : Nat) (e : Int) :
    roundIeee md F rnd sat s (m * 2 ^ j) e false = roundIeee md F rnd sat s m (e + j) false := by
  by_cases hm : m = 0
  · simp [roundIeee, hm]
  · have htop : e + ((bitLen m + j : Nat) : Int) - 1 = e + j + bitLen m - 1 := by omega
    simp only [roundIeee, hm, Nat.mul_eq_zero, Nat.pow_eq_zero, bitLen_mul_two_pow hm, htop, roundUnit_mul_two_pow]
    simp

/-! ## Numbers that need no rounding (R101, R106, R108) -/

/-- A mantissa of the format's full length at an exponent not below the least one is packed as it is, or overflows. -/
theorem roundIeee_normalised (md : FpMode) (F : Fmt) (rnd : BitVec 2) (sat s : Bool) {m : Nat} {e : Int}
    (hlo : 2 ^ (ieeeDims F).2 ≤ m) (hhi : m < 2 ^ ((ieeeDims F).2 + 1))
    (he : 1 - (ieeeBias F : Int) - (ieeeDims F).2 ≤ e) :
    roundIeee md F rnd sat s m e false =
      if 2 * (ieeeBias F : Int) + 1 ≤ e + (ieeeDims F).2 + ieeeBias F then ieeeOverflow F rnd sat s
      else (ieeePack F s (e + (ieeeDims F).2 + ieeeBias F).toNat (m - 2 ^ (ieeeDims F).2), 0) := by
  have hm : m ≠ 0 := (lt_of_lt_of_le (by positivity) hlo).ne'
  have hq : max (e + ((bitLen m : Nat) : Int) - 1 - (ieeeDims F).2) (1 - (ieeeBias F : Int) - (ieeeDims F).2) = e := by
    rw [bitLen_eq_of_bounds hlo hhi]
    omega
  have hunit : roundUnit rnd s m e e false = (m, false) := by simp [roundUnit]
  have hexp : (2 : Int) ^ (ieeeDims F).1 - 1 = 2 * ieeeBias F + 1 := by
    have := two_pow_exponentBits F
    zify at this
    omega
  have hflag : ∀ tiny, (flagIf false flNX ||| flagIf (false && tiny) flUF) = 0 := by decide
  simp only [roundIeee, hm, if_false, hq, hunit, decide_eq_true_eq, Nat.not_le.mpr hhi, Nat.not_lt.mpr hlo, hexp,
    hflag, ge_iff_le]

/-- A value below the least normal number whose rounding to the least unit stays short is packed as a subnormal number. -/
theorem roundIeee_of_short (md : FpMode) (F : Fmt) {rnd : BitVec 2} (sat : Bool) {s : Bool} {m : Nat} {e : Int}
    {r : Nat × Bool} (hm : m ≠ 0) (htop : e + bitLen m ≤ 1 - ieeeBias F)
    (hr : roundUnit rnd s m e (1 - (ieeeBias F : Int) - (ieeeDims F).2) false = r) (hshort : r.1 < 2 ^ (ieeeDims F).2) :
    roundIeee md F rnd sat s m e false =
      if md.ftz && r.1 != 0 then (ieeeZero F s, flUF ||| flNX)
      else (ieeePack F s 0 r.1, flagIf r.2 (flUF ||| flNX)) := by
  have hq : max (e + (bitLen m : Int) - 1 - (ieeeDims F).2) (1 - (ieeeBias F : Int) - (ieeeDims F).2) =
      1 - (ieeeBias F : Int) - (ieeeDims F).2 := by omega
  have hcarry : ¬ 2 ^ ((ieeeDims F).2 + 1) ≤ r.1 := by omega
  simp only [roundIeee, hm, if_false, hq, hr, decide_eq_true_eq, hcarry, hshort, ge_iff_le, if_true]

/-- A mantissa shorter than the format's at the least exponent is packed as it is. -/
theorem roundIeee_subnormal {md : FpMode} (F : Fmt) (rnd : BitVec 2) (sat s : Bool) {m : Nat}
    (hm : m < 2 ^ (ieeeDims F).2) (hftz : md.ftz = false) :
    roundIeee md F rnd sat s m (1 - (ieeeBias F : Int) - (ieeeDims F).2) false = (ieeePack F s 0 m, 0) := by
  by_cases h0 : m = 0
  · simp [roundIeee, h0, ieeeZero]
  · have hlen := bitLen_le_of_lt hm
    rw [roundIeee_of_short md F sat h0 (by omega) (r := (m, false)) (by simp [roundUnit]) hm, hftz]
    rfl

/-! ## The numbers that a format holds (R100) -/

/-- A pattern is packed from its own sign, exponent and fraction. -/
theorem ieeePack_fields {F : Fmt} {bits : Nat} (h : bits < 2 ^ (1 + ((ieeeDims F).1 + (ieeeDims F).2))) :
    ieeePack F (bits / 2 ^ ((ieeeDims F).1 + (ieeeDims F).2) % 2 == 1) (bits / 2 ^ (ieeeDims F).2 % 2 ^ (ieeeDims F).1)
      (bits % 2 ^ (ieeeDims F).2) = bits := by
  have hsign : bits / 2 ^ (ieeeDims F).2 / 2 ^ (ieeeDims F).1 = bits / 2 ^ ((ieeeDims F).1 + (ieeeDims F).2) := by
    rw [Nat.div_div_eq_div_mul, ← pow_add, Nat.add_comm]
  have hfrac := Nat.div_add_mod' bits (2 ^ (ieeeDims F).2)
  have hexp := Nat.div_add_mod' (bits / 2 ^ (ieeeDims F).2) (2 ^ (ieeeDims F).1)
  have hbit : bits / 2 ^ ((ieeeDims F).1 + (ieeeDims F).2) < 2 := by
    rw [Nat.div_lt_iff_lt_mul (by positivity)]
    rwa [pow_add, pow_one] at h
  rw [hsign] at hexp
  rw [← hexp, Nat.add_mul, mul_assoc, ← pow_add] at hfrac
  conv_rhs => rw [← hfrac]
  simp only [ieeePack]
  congr 2
  generalize bits / 2 ^ ((ieeeDims F).1 + (ieeeDims F).2) = b at hbit
  interval_cases b <;> simp

/-- The fields of a packed number are those it was packed from. -/
theorem ieeeOf_ieeePack (F : Fmt) (s : Bool) {ex fr : Nat} (hfr : fr < 2 ^ (ieeeDims F).2) (hpos : 0 < ex)
    (hex : ex < 2 * ieeeBias F + 1) :
    ieeeOf F (ieeePack F s ex fr) = .fin s (2 ^ (ieeeDims F).2 + fr) ((ex : Int) - ieeeBias F - (ieeeDims F).2) := by
  have htop := two_pow_exponentBits F
  have hpack : fr + 2 ^ (ieeeDims F).2 * (ex + 2 ^ (ieeeDims F).1 * s.toNat) = ieeePack F s ex fr := by
    cases s <;> simp [ieeePack, pow_add] <;> ring
  obtain ⟨hrest, hfrac⟩ := (Nat.div_mod_unique (by positivity)).mpr ⟨hpack, hfr⟩
  obtain ⟨hs, hexp⟩ := (Nat.div_mod_unique (by positivity)).mpr ⟨hrest.symm, show ex < 2 ^ (ieeeDims F).1 by omega⟩
  have hsign : (ieeePack F s ex fr / 2 ^ ((ieeeDims F).1 + (ieeeDims F).2) % 2 == 1) = s := by
    rw [Nat.add_comm, pow_add, ← Nat.div_div_eq_div_mul, hs]
    cases s <;> rfl
  simp only [ieeeOf, hfrac, hexp, hsign]
  rw [if_neg (by omega), if_neg (by omega)]

/-- A finite pattern is a packed subnormal number or zero, or a packed normal number. -/
theorem ieeeOf_fin_cases {F : Fmt} {bits m : Nat} {sg : Bool} {e : Int} (hF : isIeeeFmt F = true)
    (hbits : bits < 2 ^ widthOf true F) (h : ieeeOf F bits = .fin sg m e) :
    (m < 2 ^ (ieeeDims F).2 ∧ e = 1 - (ieeeBias F : Int) - (ieeeDims F).2 ∧ bits = ieeePack F sg 0 m) ∨
    (∃ ex fr, fr < 2 ^ (ieeeDims F).2 ∧ 0 < ex ∧ ex < 2 * ieeeBias F + 1 ∧ m = 2 ^ (ieeeDims F).2 + fr ∧
      e = (ex : Int) - ieeeBias F - (ieeeDims F).2 ∧ bits = ieeePack F sg ex fr) := by
  rw [widthOf_ieee hF] at hbits
  have hpack := ieeePack_fields hbits
  have hfrac : bits % 2 ^ (ieeeDims F).2 < 2 ^ (ieeeDims F).2 := Nat.mod_lt _ (by positivity)
  have hexp : bits / 2 ^ (ieeeDims F).2 % 2 ^ (ieeeDims F).1 < 2 ^ (ieeeDims F).1 := Nat.mod_lt _ (by positivity)
  have htop := two_pow_exponentBits F
  simp only [ieeeOf] at h
  split at h
  · split at h <;> contradiction
  · split at h
    next hmax hzero =>
      obtain ⟨rfl, rfl, rfl⟩ := FVal.fin.inj h
      rw [hzero] at hpack
      exact .inl ⟨hfrac, rfl, hpack.symm⟩
    next hmax hzero =>
      obtain ⟨rfl, rfl, rfl⟩ := FVal.fin.inj h
      exact .inr ⟨_, _, hfrac, by omega, by omega, rfl, rfl, hpack.symm⟩

/-- Settles O12: what a finite pattern stands for is packed again, as a normal or as a subnormal number. -/
theorem roundingIsExact : Obligations.RoundingIsExact := by
  intro F bits rnd sat sg m e hF hbits h
  rcases ieeeOf_fin_cases hF hbits h with ⟨hm, rfl, rfl⟩ | ⟨ex, fr, hfr, hpos, hex, rfl, rfl, rfl⟩
  · exact roundIeee_subnormal F rnd sat sg hm rfl
  · rw [roundIeee_normalised _ F rnd sat sg (Nat.le_add_right ..) (by omega) (by omega), if_neg (by omega)]
    congr 2 <;> omega

end Sys2Proof.Proofs
end

section
/-! PROOFS. The special functions at their special values and at the numbers where they are exact. -/

namespace Sys2Proof.Proofs
open Sys2Proof Sys2Proof.Machine Sys2Proof.Laws

/-! ## Powers of two (R106, R108) -/

theorem roundIeee_two_pow (md : FpMode) (F : Fmt) (rnd : BitVec 2) (sat s : Bool) (n : Nat) (e : Int) :
    roundIeee md F rnd sat s (2 ^ n) e false = roundIeee md F rnd sat s 1 (e + n) false := by
  simpa using roundIeee_mul_two_pow md F rnd sat s 1 n e

/-- A power of two not below the least normal number is held exactly, or overflows. -/
theorem roundIeee_one_normal (md : FpMode) (F : Fmt) (rnd : BitVec 2) (sat s : Bool) {k : Int}
    (hk : 1 - (ieeeBias F : Int) ≤ k) :
    roundIeee md F rnd sat s 1 k false =
      if ieeeBias F < k then ieeeOverflow F rnd sat s else (ieeePack F s (k + ieeeBias F).toNat 0, 0) := by
  have h := roundIeee_two_pow md F rnd sat s (ieeeDims F).2 (k - (ieeeDims F).2)
  rw [sub_add_cancel] at h
  rw [← h, roundIeee_normalised md F rnd sat s le_rfl (Nat.pow_lt_pow_right (by decide) (Nat.lt_succ_self _)) (by omega),
    sub_add_cancel, Nat.sub_self]
  congr 1
  exact propext (by omega)

theorem roundIeee_one_subnormal {md : FpMode} (F : Fmt) (rnd : BitVec 2) (sat s : Bool) {j : Nat}
    (hj : j < (ieeeDims F).2) (hftz : md.ftz = false) :
    roundIeee md F rnd sat s 1 (1 - ieeeBias F - (ieeeDims F).2 + j) false = (ieeePack F s 0 (2 ^ j), 0) := by
  rw [← roundIeee_two_pow]
  exact roundIeee_subnormal F rnd sat s (Nat.pow_lt_pow_right (by decide) hj) hftz

theorem roundShift_le (rnd : BitVec 2) (s : Bool) (m sh : Nat) (sticky : Bool) :
    (roundShift rnd s m sh sticky).1 ≤ m / 2 ^ sh + 1 := by
  have hup : ∀ (up : Bool) (k : Nat), (if up then k + 1 else k) ≤ k + 1 := fun up k => by split <;> omega
  exact hup ..

/-- One, below half a unit, is rounded by its sign alone. -/
theorem roundShift_one (rnd : BitVec 2) (s : Bool) {sh : Nat} (hsh : 2 ≤ sh) :
    roundShift rnd s 1 sh false = roundShift rnd s 1 2 false := by
  have hhalf : 1 < 2 ^ (sh - 1) := Nat.one_lt_two_pow (by omega)
  have hunit : 1 < 2 ^ sh := Nat.one_lt_two_pow (by omega)
  have hne : (1 == 2 ^ (sh - 1)) = false := beq_eq_false_iff_ne.mpr hhalf.ne
  simp [roundShift, Nat.div_eq_of_lt hunit, Nat.mod_eq_of_lt hunit, hne, show sh ≠ 0 by omega]

/-- Below half the least number of the format every power of two rounds alike. -/
theorem roundIeee_one_tiny (md : FpMode) (F : Fmt) (rnd : BitVec 2) (sat s : Bool) {k : Int}
    (hk : k < -(ieeeBias F : Int) - (ieeeDims F).2) :
    roundIeee md F rnd sat s 1 k false =
      if md.ftz && (roundShift rnd s 1 2 false).1 != 0 then (ieeeZero F s, flUF ||| flNX)
      else (ieeePack F s 0 (roundShift rnd s 1 2 false).1, flagIf (roundShift rnd s 1 2 false).2 (flUF ||| flNX)) := by
  have hfb := (ieeeDims_bounds F).1
  have hle : (roundShift rnd s 1 2 false).1 ≤ 1 := roundShift_le ..
  refine roundIeee_of_short md F sat one_ne_zero (by rw [show bitLen 1 = 1 from rfl]; omega) ?_
    (hle.trans_lt (Nat.one_lt_two_pow (by omega)))
  rw [roundUnit, if_neg (by omega), roundShift_one rnd s (by omega)]

/-! ## The integer square root -/

theorem isqrtFrom_eq_sqrt {x : Nat} : ∀ {n r : Nat}, r * r ≤ x → x < (r + 2 ^ (n + 1)) * (r + 2 ^ (n + 1)) →
    isqrtFrom n x r = Nat.sqrt x
  | 0, r, hlo, hhi => by
    rw [isqrtFrom]
    split
    · exact Nat.eq_sqrt.mpr ⟨‹_›, hhi⟩
    · exact Nat.eq_sqrt.mpr ⟨hlo, by omega⟩
  | n + 1, r, hlo, hhi => by
    rw [isqrtFrom]
    by_cases h : (r + 2 ^ (n + 1)) * (r + 2 ^ (n + 1)) ≤ x
    · rw [if_pos h]
      refine isqrtFrom_eq_sqrt h ?_
      rwa [add_assoc, ← two_mul, ← pow_succ']
    · rw [if_neg h]
      exact isqrtFrom_eq_sqrt hlo (by omega)

theorem isqrt_eq_sqrt (x : Nat) : isqrt x = Nat.sqrt x := by
  refine isqrtFrom_eq_sqrt (Nat.zero_le x) ?_
  rw [Nat.zero_add, ← pow_add]
  exact (lt_two_pow_bitLen x).trans_le (Nat.pow_le_pow_right (by decide) (by omega))

theorem isqrt_two_pow (j : Nat) : isqrt (2 ^ (2 * j)) = 2 ^ j := by
  rw [isqrt_eq_sqrt, two_mul, pow_add, Nat.sqrt_eq]

/-! ## The functions at exact arguments (R257) -/

theorem nanOf_invalid (md : FpMode) (F : Fmt) : nanOf md F [] true = (ieeeNaN F, flNV) := rfl

/-- FRCP of a power of two: the quotient is exact. -/
theorem fpRcp_two_pow (md : FpMode) (F : Fmt) (rnd : BitVec 2) (sat sg : Bool) (n : Nat) (e : Int) :
    fpRcp md F rnd sat (.fin sg (2 ^ n) e) = roundIeee md F rnd sat sg 1 (-(n + e)) false := by
  have hpos : 2 ^ n ≠ 0 := by positivity
  have hsplit : 2 ^ (n + 1 + 32) = 2 ^ 33 * 2 ^ n := by ring
  simp only [-Nat.reducePow, fpRcp, hpos, if_false, bitLen_two_pow, hsplit, Nat.mul_div_left _ (Nat.two_pow_pos n),
    Nat.mul_mod_left, bne_self_eq_false]
  rw [roundIeee_two_pow, show -((n + 1 + 32 : Nat) : Int) - e + (33 : Nat) = -(n + e) by omega]

/-- FRSQ of an even power of two: the function moves an odd exponent's unit to the mantissa, which is then 2^(2a). -/
theorem fpRsq_two_pow (md : FpMode) (F : Fmt) (rnd : BitVec 2) (sat : Bool) {n : Nat} {e k : Int} (h : n + e = 2 * k) :
    fpRsq md F rnd sat (.fin false (2 ^ n) e) = roundIeee md F rnd sat false 1 (-k) false := by
  have hpos : 2 ^ n ≠ 0 := by positivity
  obtain ⟨a, hm, hh⟩ : ∃ a : Nat, (if e % 2 != 0 then 2 * 2 ^ n else 2 ^ n) = 2 ^ (2 * a) ∧
      (if e % 2 != 0 then e - 1 else e) / 2 = k - a := by
    by_cases hodd : e % 2 = 0
    · exact ⟨n / 2, by simp [hodd]; omega, by simp [hodd]; omega⟩
    · exact ⟨(n + 1) / 2, by simp [hodd, ← pow_succ']; omega, by simp [hodd]; omega⟩
  have hroot : isqrt (2 ^ (2 * (2 * a + 1 + 32)) / 2 ^ (2 * a)) = 2 ^ (a + 33) := by
    rw [Nat.pow_div (by omega) (by decide), show 2 * (2 * a + 1 + 32) - 2 * a = 2 * (a + 33) by omega, isqrt_two_pow]
  have hexact : 2 ^ (a + 33) * 2 ^ (a + 33) * 2 ^ (2 * a) = 2 ^ (2 * (2 * a + 1 + 32)) := by ring
  simp only [fpRsq, hpos, hm, hh, bitLen_two_pow, hroot, hexact, bne_self_eq_false, roundIeee_two_pow, if_false,
    Bool.false_eq_true]
  congr 1
  omega

/-- An integer beyond ±4,096 lies outside every format's exponents, as the bounds that FEXP2 puts in its place do. -/
theorem roundIeee_one_beyond (md : FpMode) (F : Fmt) (rnd : BitVec 2) (sat s : Bool) {k : Int} (hk : 4096 ≤ |k|) :
    (if k < 0 then roundIeee md F rnd sat s 1 (-5000) false else roundIeee md F rnd sat s 1 5000 false) =
      roundIeee md F rnd sat s 1 k false := by
  obtain ⟨-, hfb, -, hB⟩ := ieeeDims_bounds F
  split
  · rw [abs_of_neg ‹_›] at hk
    rw [roundIeee_one_tiny _ F _ _ _ (by omega), roundIeee_one_tiny _ F _ _ _ (by omega)]
  · rw [abs_of_nonneg (by omega)] at hk
    rw [roundIeee_one_normal _ F _ _ _ (by omega), roundIeee_one_normal _ F _ _ _ (by omega), if_pos (by omega),
      if_pos (by omega)]

/-- The mantissa that FEXP2 takes apart: at exponent 0, or at its own where that is negative. -/
theorem mantAt_exp2 (sg : Bool) (m : Nat) (e : Int) :
    (if e ≥ 0 then mantAt sg m e 0 else mantAt sg m e e) =
      if sg then -((m * 2 ^ e.toNat : Nat) : Int) else ((m * 2 ^ e.toNat : Nat) : Int) := by
  split
  · rw [mantAt, sub_zero]
  · rw [mantAt, sub_self, Int.toNat_of_nonpos (by omega : e ≤ 0)]
    rfl

/-- A number N with m · 2^e = N is at least 2^t where the top bit of m · 2^e is bit t or a higher one. -/
theorem two_pow_le_of_top {m N : Nat} {e : Int} (hm : m ≠ 0) (hval : m * 2 ^ e.toNat = N * 2 ^ (-e).toNat) {t : Nat}
    (htop : (t : Int) ≤ e + bitLen m - 1) : 2 ^ t ≤ N := by
  refine Nat.le_of_mul_le_mul_right ?_ (Nat.two_pow_pos (-e).toNat)
  calc 2 ^ t * 2 ^ (-e).toNat
    _ = 2 ^ (t + (-e).toNat) := (pow_add ..).symm
    _ ≤ 2 ^ (bitLen m - 1 + e.toNat) := Nat.pow_le_pow_right (by decide) (by omega)
    _ = 2 ^ (bitLen m - 1) * 2 ^ e.toNat := pow_add ..
    _ ≤ m * 2 ^ e.toNat := Nat.mul_le_mul_right _ (two_pow_le_of_bitLen hm)
    _ = N * 2 ^ (-e).toNat := hval

/-- FEXP2 of ±N, a nonzero integer. -/
theorem fpExp2_integer (md : FpMode) (F : Fmt) (rnd : BitVec 2) (sat sg : Bool) {m N : Nat} {e : Int} (hm : m ≠ 0)
    (hval : m * 2 ^ e.toNat = N * 2 ^ (-e).toNat) :
    fpExp2 md F rnd sat (.fin sg m e) = roundIeee md F rnd sat false 1 (if sg then -(N : Int) else N) false := by
  have hx : (if e ≥ 0 then mantAt sg m e 0 else mantAt sg m e e) = (if sg then -(N : Int) else N) * 2 ^ (-e).toNat := by
    rw [mantAt_exp2, hval]
    cases sg <;> simp
  have hdiv : ∀ a : Int, a * 2 ^ (-e).toNat / 2 ^ (-e).toNat = a := fun a => Int.mul_ediv_cancel _ (by positivity)
  simp only [fpExp2, hm, if_false, hx, hdiv, Int.mul_emod_left, Int.toNat_zero, if_true]
  split
  next htop =>
    have hN : 2 ^ 12 ≤ N := two_pow_le_of_top hm hval (t := 12) (by omega)
    have hsign : sg = true ↔ (if sg then -(N : Int) else N) < 0 := by
      cases sg <;> simp; omega
    refine (if_congr hsign rfl rfl).trans (roundIeee_one_beyond md F rnd sat false ?_)
    cases sg <;> simp <;> omega
  next => rfl

theorem fpLog2_two_pow (md : FpMode) (F : Fmt) (rnd : BitVec 2) (sat : Bool) (n : Nat) (e : Int) :
    fpLog2 md F rnd sat (.fin false (2 ^ n) e) = if n + e = 0 then (ieeeZero F false, 0)
      else roundIeee md F rnd sat (decide (n + e < 0)) (n + e).natAbs 0 false := by
  have hpos : 2 ^ n ≠ 0 := by positivity
  simp only [fpLog2, hpos, if_false, bitLen_two_pow, Nat.add_sub_cancel, if_true, Bool.false_eq_true, add_comm e]

/-- A number of at most eight bits is held exactly. -/
theorem roundIeee_byte (md : FpMode) (F : Fmt) (rnd : BitVec 2) (sat s : Bool) {x : Nat} (hx : x ≠ 0) (hx' : x ≤ 255) :
    ∃ bits m q : Nat, roundIeee md F rnd sat s x 0 false = (bits, 0) ∧ ieeeOf F bits = .fin s m (-(q : Int)) ∧
      m = x * 2 ^ q := by
  obtain ⟨hfb, -, hB, -⟩ := ieeeDims_bounds F
  have hlen : bitLen x ≤ 8 := bitLen_le_of_lt (by omega)
  obtain ⟨q, hq⟩ : ∃ q, bitLen x + q = (ieeeDims F).2 + 1 := ⟨(ieeeDims F).2 + 1 - bitLen x, by omega⟩
  have hfull : bitLen (x * 2 ^ q) = (ieeeDims F).2 + 1 := by rw [bitLen_mul_two_pow hx, hq]
  have hhi := lt_two_pow_bitLen (x * 2 ^ q)
  have hlo := two_pow_le_of_bitLen (n := x * 2 ^ q) (by positivity)
  rw [hfull] at hhi hlo
  rw [Nat.add_sub_cancel] at hlo
  have hround := roundIeee_mul_two_pow md F rnd sat s x q (-q)
  rw [neg_add_cancel, roundIeee_normalised md F rnd sat s hlo hhi (by omega), if_neg (by omega)] at hround
  refine ⟨_, _, q, hround.symm, ?_, rfl⟩
  rw [ieeeOf_ieeePack F s (by omega) (by omega) (by omega)]
  congr 1 <;> omega

/-- Settles O11: each special value is a case of its function, and each exact case is a rounding of one, or of a byte. -/
theorem specialFunctionValues : Obligations.SpecialFunctionValues := by
  intro md F rnd sat sg e _
  refine ⟨rfl, rfl, rfl, ?exp2Zero, rfl, rfl, rfl, rfl, rfl, rfl, fun m hm => ⟨?rsqNegative, ?log2Negative⟩,
    fun k hlo hhi => ?powNormal, fun j hj hftz => roundIeee_one_subnormal F rnd sat sg hj hftz,
    fun n => fpRcp_two_pow md F rnd sat sg n e, fun n k h => fpRsq_two_pow md F rnd sat h,
    fun m n hm => ⟨?exp2Whole, ?exp2Multiple⟩, fun n => ⟨fun hk => ?log2One, fun hk hbyte => ?log2⟩⟩
  case exp2Zero =>
    obtain ⟨-, -, hB, -⟩ := ieeeDims_bounds F
    refine (roundIeee_one_normal md F rnd sat false (k := 0) (by omega)).trans ?_
    rw [if_neg (by omega), zero_add, Int.toNat_natCast]
  case rsqNegative => simp only [fpSpecial, fpRsq, hm, if_false, if_true, nanOf_invalid]
  case log2Negative => simp only [fpSpecial, fpLog2, hm, if_false, if_true, nanOf_invalid]
  case powNormal =>
    refine (roundIeee_one_normal md F rnd sat sg hlo).trans ?_
    rw [if_neg (by omega)]
  case exp2Whole => exact fpExp2_integer md F rnd sat sg (by positivity) (by simp)
  case exp2Multiple =>
    refine (fpExp2_integer md F rnd sat sg (N := m * 2 ^ n) hm (by simp)).trans ?_
    cases sg <;> simp
  case log2One =>
    refine (fpLog2_two_pow md F rnd sat n e).trans ?_
    rw [if_pos hk]
  case log2 =>
    obtain ⟨bits, m, q, hround, hof, hm⟩ :=
      roundIeee_byte md F rnd sat (decide ((n : Int) + e < 0)) (Int.natAbs_ne_zero.mpr hk) hbyte
    exact ⟨bits, m, q, ((fpLog2_two_pow md F rnd sat n e).trans (if_neg hk)).trans hround, hof, hm⟩

end Sys2Proof.Proofs
end

section
/-! PROOFS. The path of an access to its home. -/

namespace Sys2Proof.Proofs
open Sys2Proof Sys2Proof.Machine Sys2Proof.Laws

section
variable {s : State} {a : Access}

theorem exec_memPropagate_of (h : accBy s a.id = some a) : exec (.memPropagate a.id) s = .next (propagateAccess s a) := by
  simp only [exec_memPropagate, execMemPropagate, h]

theorem exec_memPerform_of (h : accBy s a.id = some a) : exec (.memPerform a.id) s = .next (performNext s a) := by
  simp only [exec_memPerform, execMemPerform, h]

/-! ## At the home (R124, R434, R443) -/

theorem reachHome_shut (h : pathOpen s a.who.core a.ctx a.loc = false) : reachHome s a = s := by
  simp only [reachHome, h, Bool.not_false, if_true]

theorem reachHome_performs (h : pathOpen s a.who.core a.ctx a.loc = true) (ht : isScratch a.loc = false) :
    reachHome s a = performAccess s a := by
  simp only [reachHome, h, ht, Bool.not_true, Bool.false_eq_true, if_false]

theorem reachHome_steer (h : pathOpen s a.who.core a.ctx a.loc = true) (ht : isScratch a.loc = true) :
    reachHome s a = enterSteer s a := by
  simp only [reachHome, h, ht, Bool.not_true, Bool.false_eq_true, if_false, if_true]

theorem enterSteer_joins (hp : a.port = none) (h : (atSteer s (tileOfLoc a.loc)).length < 16) :
    enterSteer s a = modAcc s a.id fun x => { x with port := some s.ticks } := by
  simp only [enterSteer, hp, Option.isSome_none, Bool.false_or, decide_eq_true_eq, ge_iff_le, if_neg (Nat.not_le.mpr h)]

theorem enterSteer_full (h : 16 ≤ (atSteer s (tileOfLoc a.loc)).length) : enterSteer s a = s := by
  simp only [enterSteer, ge_iff_le, h, decide_true, Bool.or_true, if_true]

/-! ## A write on its way (R123, R125, R127, R433) -/

section
variable (hkind : isWriteKind a.kind = true) (hwaiting : a.waiting = false) (hgot : a.got = none)
include hkind hwaiting hgot

theorem propagateAccess_leaves (hstage : a.stage = 0) (hl : launchIssues s a = true) (hc : canLeave s a = true) :
    propagateAccess s a = if crossesGuard s a then dropAtGuard s a
      else modAcc s a.id fun x => { x with stage := 1, entered := s.ticks } := by
  simp only [propagateAccess, performed, hkind, hwaiting, hgot, hstage, hl, hc, Option.isSome_none, Bool.not_true,
    Bool.or_self, Bool.false_eq_true, if_false, if_true]

theorem propagateAccess_moves (hstage : a.stage ≠ 0) (hm : canMoveOn s a = true)
    (hlt : a.stage < homeLevel a.who.core a.loc) :
    propagateAccess s a = modAcc s a.id fun x => { x with stage := a.stage + 1, entered := s.ticks } := by
  simp only [propagateAccess, performed, hkind, hwaiting, hgot, hm, Option.isSome_none, Bool.not_true,
    Bool.or_self, Bool.false_eq_true, if_false, if_neg hstage, if_pos hlt]

theorem propagateAccess_arrives (hstage : a.stage ≠ 0) (hm : canMoveOn s a = true)
    (hle : homeLevel a.who.core a.loc ≤ a.stage) (hh : heldAtHome s a = false) (hb : bankOwes s a = false) :
    propagateAccess s a = reachHome s a := by
  simp only [propagateAccess, performed, hkind, hwaiting, hgot, hm, hh, hb, Option.isSome_none, Bool.not_true,
    Bool.or_self, Bool.false_eq_true, if_false, if_neg hstage, if_neg (Nat.not_lt.mpr hle)]

/-- At the end of its path a write performs by either step. -/
theorem performNext_write (hstage : a.stage ≠ 0) (hle : homeLevel a.who.core a.loc ≤ a.stage) :
    performNext s a = propagateAccess s a := by
  simp only [performNext, performed, hkind, hwaiting, hgot, Option.isSome_none, Bool.or_self, Bool.false_eq_true, if_false,
    if_true, if_pos (And.intro hstage hle)]

end

/-! ## A read (R124, R433) -/

theorem performNext_read (hkind : isWriteKind a.kind = false) (hwaiting : a.waiting = false) (hgot : a.got = none)
    (hl : launchIssues s a = true) (hc : canLeave s a = true) (hb : bankOwes s a = false) :
    performNext s a = if a.kind == .fence then performAccess s a
      else if crossesGuard s a then dropAtGuard s a else reachHome s a := by
  simp only [performNext, performed, hkind, hwaiting, hgot, hl, hc, hb, Option.isSome_none, Bool.not_true, Bool.or_self,
    Bool.false_eq_true, if_false]

end

/-- Settles O42: each clause is a branch of the two steps. -/
theorem memoryPath : Obligations.MemoryPath := by
  intro s a ha hwaiting hgot home up steer arrives
  have arrive (i : Instr) (h : exec i s = .next (reachHome s a)) : arrives i := by
    refine ⟨fun hshut => ?_, fun hopen ht => ?_, fun hopen ht hport => ⟨fun hroom => ?_, fun hfull => ?_⟩⟩
    · rw [h, reachHome_shut hshut]
    · rw [h, reachHome_performs hopen ht]
    · rw [h, reachHome_steer hopen ht, enterSteer_joins hport hroom]
    · rw [h, reachHome_steer hopen ht, enterSteer_full hfull]
  have hpropagate := exec_memPropagate_of ha
  have hperform := exec_memPerform_of ha
  refine ⟨fun hk h0 hl hc => ?leaves, fun hk h0 hm hlt => ?moves, fun hk h0 hm hle hh hb => ?home,
    fun hk hl hc hb => ⟨fun hf => ?fence, fun hf hg => ?guarded, fun hf hg => arrive _ ?read⟩⟩
  case leaves => rw [hpropagate, propagateAccess_leaves hk hwaiting hgot h0 hl hc]
  case moves => rw [hpropagate, propagateAccess_moves hk hwaiting hgot h0 hm hlt]
  case home =>
    have hreach := propagateAccess_arrives hk hwaiting hgot h0 hm hle hh hb
    refine ⟨arrive _ ?_, arrive _ ?_⟩
    · rw [hpropagate, hreach]
    · rw [hperform, performNext_write hk hwaiting hgot h0 hle, hreach]
  all_goals rw [hperform, performNext_read hk hwaiting hgot hl hc hb]
  case fence => simp only [hf, beq_self_eq_true, if_true]
  case guarded => simp only [hf, hg, beq_iff_eq, if_false, if_true]
  case read => simp only [hf, hg, beq_iff_eq, if_false, Bool.false_eq_true]

end Sys2Proof.Proofs
end

section
/-! PROOFS. GATH and SCAT outside their slot's bounds. -/

namespace Sys2Proof.Proofs
open Sys2Proof Sys2Proof.Machine Sys2Proof.Laws

section
variable {s : State} {e : Env} {f : RegForm} (hr : redone s e = false) (hshape : shapeOnItsWay s e f.x = false)
  (hsize : memSz f.m = (slotOf s e f.x).esz) (hbound : (slotOf s e f.x).count.toNat ≤ (srcVal s e f.a).toNat % 2 ^ 32)
include hr hshape hsize hbound

theorem execGath_outOfBounds (hm : MayRun s (.gath f) e) (hh : Here s e [f.d, f.a]) (hs : suppressed s e [f.a] = false)
    (hl : loadsFull s e = false) : execGath f s =
      .next (advance e true (countDrop (gathZero s e f.d (tfmt f.x)) e.core false)) := by
  have hidx : (nthSrc ([f.a].map (readSrc s e)) 0).toNat % 2 ^ 32 ≥ (slotOf s e f.x).count.toNat := hbound
  rw [execGath, memWord_run hm hh hr hs]
  simp only [hshape, hl, hsize, Bool.or_self, Bool.false_eq_true, ne_eq, not_true, if_false, if_pos hidx]

theorem execScat_outOfBounds (hm : MayRun s (.scat f) e) (hh : Here s e [f.a, f.b])
    (hs : suppressed s e [f.a, f.b] = false) (hst : storesFull s e = false) : execScat f s =
      .next (advance e true (countDrop s e.core true)) := by
  have hidx : (nthSrc ([f.a, f.b].map (readSrc s e)) 0).toNat % 2 ^ 32 ≥ (slotOf s e f.x).count.toNat := hbound
  rw [execScat, memWord_run hm hh hr hs]
  simp only [hshape, hst, hsize, Bool.or_self, Bool.false_eq_true, ne_eq, not_true, if_false, if_pos hidx]

end

/-- Settles O23: the index fails the bound, which is looked at before any address is formed. -/
theorem indexOutOfBounds : Obligations.IndexOutOfBounds := by
  intro s e f hr hshape hsize hbound
  refine ⟨fun hm hh hs hl => ?_, fun hm hh hs hst => ?_⟩
  · exact (exec_gath ..).trans (execGath_outOfBounds hr hshape hsize hbound hm hh hs hl)
  · exact (exec_scat ..).trans (execScat_outOfBounds hr hshape hsize hbound hm hh hs hst)

end Sys2Proof.Proofs
end

section
/-! PROOFS. Statements about the memory that a step leaves. -/

namespace Sys2Proof.Proofs
open Sys2Proof Sys2Proof.Machine Sys2Proof.Laws

/-- The memory of the state that a step leaves satisfies `Q`. -/
def OutMem (Q : Memory → Prop) : Out → Prop
  | .next t => Q t.mem
  | _ => True

/-- The memory of the state that a word's own meaning leaves satisfies `Q`. -/
def EffMem (Q : Memory → Prop) : Eff → Prop
  | .done t => Q t.mem
  | _ => True

/-- The memory of the state that the start of an engine command leaves satisfies `Q`. -/
def StartMem (Q : Memory → Prop) : Start → Prop
  | .go t => Q t.mem
  | _ => True

/-- The memory of the state that a command of a port leaves satisfies `Q`. -/
def CmdMem (Q : Memory → Prop) : CmdOut → Prop
  | .done t _ _ | .later t | .wait t => Q t.mem
  | .fail _ => True

section
variable (Q : Memory → Prop) (t : State)

@[simp] theorem outMem_next : OutMem Q (.next t) ↔ Q t.mem := Iff.rfl
@[simp] theorem effMem_done : EffMem Q (.done t) ↔ Q t.mem := Iff.rfl
@[simp] theorem effMem_trap (code a x) : EffMem Q (.trap code a x) := trivial
@[simp] theorem effMem_wait : EffMem Q .wait := trivial
@[simp] theorem startMem_go : StartMem Q (.go t) ↔ Q t.mem := Iff.rfl
@[simp] theorem startMem_trap (f) : StartMem Q (.trap f) := trivial
@[simp] theorem startMem_wait : StartMem Q .wait := trivial
@[simp] theorem cmdMem_done (v b) : CmdMem Q (.done t v b) ↔ Q t.mem := Iff.rfl
@[simp] theorem cmdMem_later : CmdMem Q (.later t) ↔ Q t.mem := Iff.rfl
@[simp] theorem cmdMem_wait : CmdMem Q (.wait t) ↔ Q t.mem := Iff.rfl
@[simp] theorem cmdMem_fail (e) : CmdMem Q (.fail e) := trivial
end

theorem OutMem.mono {P Q : Memory → Prop} {o : Out} (h : OutMem P o) (hpq : ∀ m, P m → Q m) : OutMem Q o := by
  cases o with
  | next t => exact hpq _ h
  | fault f => trivial
  | refused r => trivial

theorem startMem_ite {P : Prop} [Decidable P] {Q x y} (hx : StartMem Q x) (hy : StartMem Q y) :
    StartMem Q (if P then x else y) := by
  split <;> assumption

theorem foldl_mem {α : Type} {f : State → α → State} (h : ∀ s x, (f s x).mem = s.mem) (xs : List α) (s : State) :
    (xs.foldl f s).mem = s.mem := by
  induction xs generalizing s with
  | nil => rfl
  | cons x xs ih => exact (ih _).trans (h s x)

theorem runWord_mem {Q : Memory → Prop} {i s body} (h : Q s.mem) (hb : ∀ e, EffMem Q (body e)) :
    OutMem Q (runWord i s body) := by
  unfold runWord
  split
  · exact h
  · next e _ =>
    split
    · exact h
    · split
      · exact h
      · have he := hb e
        split <;> simp_all

end Sys2Proof.Proofs
end

section
/-! PROOFS. What the operations of a core leave of memory: all of it. -/

namespace Sys2Proof.Proofs
open Sys2Proof Sys2Proof.Machine Sys2Proof.Laws

/-! ## Notes of progress -/

@[simp] theorem fresh_mem (s) : (fresh s).2.mem = s.mem := rfl

@[simp] theorem progress_mem (s launch) : (progress s launch).mem = s.mem := rfl

@[simp] theorem active_mem (s c) : (active s c).mem = s.mem := rfl

@[simp] theorem progressOf_mem (s c) : (progressOf s c).mem = s.mem := by
  unfold progressOf
  split <;> simp

@[simp] theorem heard_mem (s launch c) : (heard s launch c).mem = s.mem := by
  unfold heard
  split <;> simp

@[simp] theorem moved_mem (s c) : (moved s c).mem = s.mem := by simp [moved]

@[simp] theorem reached_mem (s place) : (reached s place).mem = s.mem := rfl

@[simp] theorem countEvent_mem (s c n) : (countEvent s c n).mem = s.mem := rfl

@[simp] theorem mergeFlags_mem (s c f) : (mergeFlags s c f).mem = s.mem := rfl

@[simp] theorem wordDone_mem (s c p id) : (wordDone s c p id).mem = s.mem := rfl

@[simp] theorem advance_mem (e done s) : (advance e done s).mem = s.mem := by
  unfold advance
  split <;> simp

/-! ## Operands and what every word shares -/

@[simp] theorem writeDst_mem (s e o void v fmt) : (writeDst s e o void v fmt).mem = s.mem := by
  unfold writeDst
  repeat' split
  all_goals simp

theorem execValue_mem (i s d srcs fmt compute) : OutMem (· = s.mem) (execValue i s d srcs fmt compute) := by
  refine runWord_mem rfl fun e => ?_
  split
  · simp
  · dsimp only
    split <;> simp

theorem execInt2_mem (i f s op) : OutMem (· = s.mem) (execInt2 i f s op) := execValue_mem ..

theorem execIntI_mem (i f s op) : OutMem (· = s.mem) (execIntI i f s op) := execValue_mem ..

theorem execInt1_mem (i f s op) : OutMem (· = s.mem) (execInt1 i f s op) := execValue_mem ..

theorem execFp_mem (i f s srcs op) : OutMem (· = s.mem) (execFp i f s srcs op) := by
  unfold execFp
  exact execValue_mem ..

/-! ## Translation and fetching -/

@[simp] theorem addMiss_mem (s asker w ctx va) : (addMiss s asker w ctx va).mem = s.mem := rfl

@[simp] theorem recordMiss_mem (s w ctx va) : (recordMiss s w ctx va).mem = s.mem := rfl

theorem fetchTask_mem {s c l t s'} (h : fetchTask s c l t = .wait s') : s'.mem = s.mem := by
  unfold fetchTask at h
  dsimp only at h
  repeat' split at h
  all_goals cases h
  all_goals simp

/-! ## Accesses on their way -/

@[simp] theorem issue_mem (s a) : (issue s a).mem = s.mem := rfl

@[simp] theorem dropAcc_mem (s id) : (dropAcc s id).mem = s.mem := rfl

@[simp] theorem modAcc_mem (s id f) : (modAcc s id f).mem = s.mem := rfl

@[simp] theorem wakeWrites_mem (s all loc n) : (wakeWrites s all loc n).mem = s.mem := rfl

@[simp] theorem deliver_mem (s a v v2) : (deliver s a v v2).mem = s.mem := by
  unfold deliver
  repeat' split
  all_goals simp

@[simp] theorem countDown_mem (s a) : (countDown s a).mem = s.mem := by
  unfold countDown
  split <;> simp

@[simp] theorem finishAccess_mem (s a) : (finishAccess s a).mem = s.mem := by
  unfold finishAccess
  repeat' split
  all_goals simp

@[simp] theorem homeFault_mem (code w a extra s) : (homeFault code w a extra s).mem = s.mem := rfl

@[simp] theorem readBad_mem (s a) : (readBad s a).mem = s.mem := rfl

@[simp] theorem wakeRecord_mem (s loc horizon moved') : (wakeRecord s loc horizon moved').mem = s.mem := rfl

@[simp] theorem wakeTicket_mem (s loc next) : (wakeTicket s loc next).mem = s.mem := rfl

@[simp] theorem waitAtBank_mem (s a) : (waitAtBank s a).mem = s.mem := by
  unfold waitAtBank
  repeat' split
  all_goals simp

@[simp] theorem modExcs_mem (s d f) : (modExcs s d f).mem = s.mem := rfl

@[simp] theorem countBoundary_mem (s c) : (countBoundary s c).mem = s.mem := rfl

@[simp] theorem dropAtGuard_mem (s a) : (dropAtGuard s a).mem = s.mem := rfl

@[simp] theorem retranslate_mem (s a) : (retranslate s a).mem = s.mem := by
  unfold retranslate
  repeat' split
  all_goals simp

@[simp] theorem retranslateAll_mem (s mine) : (retranslateAll s mine).mem = s.mem := foldl_mem retranslate_mem ..

@[simp] theorem enterSteer_mem (s a) : (enterSteer s a).mem = s.mem := by
  unfold enterSteer
  split <;> simp

@[simp] theorem steerReturn_mem (s a) : (steerReturn s a).mem = s.mem := by
  unfold steerReturn
  split <;> simp

/-! ## The memory instructions -/

@[simp] theorem endTask_mem (s c) : (endTask s c).mem = s.mem := rfl

theorem reserveCont_mem {s c chan aw} : ∀ t ∈ (reserveCont s c chan aw), t.2.mem = s.mem := by
  unfold reserveCont
  dsimp only
  split <;> simp

@[simp] theorem resolve_mem {Q : Memory → Prop} {s e ad align want home body} (h : Q s.mem)
    (hb : ∀ va loc, EffMem Q (body va loc)) : EffMem Q (resolve s e ad align want home body) := by
  unfold resolve
  repeat' split
  all_goals simp [h, hb]

@[simp] theorem issueRead_mem {Q : Memory → Prop} {s e d p a} (h : Q s.mem) : EffMem Q (issueRead s e d p a) := by
  unfold issueRead
  dsimp only
  repeat' split
  all_goals simp [h]

@[simp] theorem issueWrite_mem {Q : Memory → Prop} {s e a} (h : Q s.mem) : EffMem Q (issueWrite s e a) := by
  unfold issueWrite
  split <;> simp [h]

@[simp] theorem performNothing_mem {Q : Memory → Prop} {s e d} (h : Q s.mem) : EffMem Q (performNothing s e d) := by
  unfold performNothing
  split <;> simp [h]

@[simp] theorem performAgain_mem {Q : Memory → Prop} {s e d} (h : Q s.mem) : EffMem Q (performAgain s e d) := by
  unfold performAgain
  dsimp only
  split <;> simp [h]

theorem memWord_mem {Q : Memory → Prop} {i s d srcs body} (h : Q s.mem) (hb : ∀ e xs, EffMem Q (body e xs)) :
    OutMem Q (memWord i s d srcs body) := by
  refine runWord_mem h fun e => ?_
  split
  · simp
  · split
    · simp [h]
    · dsimp only
      split
      · simp [h]
      · exact hb ..

theorem execLdv_mem (f s) : OutMem (· = s.mem) (execLdv f s) := by
  refine memWord_mem rfl fun e xs => resolve_mem rfl fun va loc => ?_
  split
  · split
    · simp
    · next hr =>
      have hmem := reserveCont_mem _ hr
      simpa using hmem
  · simp

@[simp] theorem countDrop_mem (s c scat) : (countDrop s c scat).mem = s.mem := rfl

@[simp] theorem gathZero_mem (s e d f) : (gathZero s e d f).mem = s.mem := by
  unfold gathZero
  split <;> simp

theorem failWalks_mem {s die w mine f} (h : ∀ w x s, (f w x s).mem = s.mem) : (failWalks s die w mine f).mem = s.mem := by
  rw [failWalks, foldl_mem fun _ _ => h ..]
  exact walksDone_mem ..

theorem execPageWalk_mem (die s) : OutMem (· = s.mem) (execPageWalk die s) := by
  unfold execPageWalk
  dsimp only
  split
  · rfl
  · split
    · exact walksDone_mem ..
    · exact failWalks_mem fun _ _ _ => rfl
    · exact failWalks_mem fun _ _ _ => raiseRead_mem ..

/-! ## Special registers -/

@[simp] theorem modBlk_mem (s c f) : (modBlk s c f).mem = s.mem := rfl

@[simp] theorem noteTemp_mem (s d t) : (noteTemp s d t).mem = s.mem := by
  unfold noteTemp
  dsimp only
  split <;> simp

@[simp] theorem measured_mem (s d) : (measured s d).mem = s.mem := by
  unfold measured
  split <;> simp

@[simp] theorem writeFlags_mem (s c v) : (writeFlags s c v).mem = s.mem := rfl

theorem readSpecial_mem {s e i} : ∀ t ∈ readSpecial s e i, t.2.mem = s.mem := by
  unfold readSpecial
  repeat' split
  all_goals simp only [Option.mem_def, Option.some.injEq, forall_eq', reduceCtorEq, false_implies, implies_true, modCore_mem]

@[simp] theorem writeAmax_mem (s c v) : (writeAmax s c v).mem = s.mem := rfl

@[simp] theorem writeCnt_mem (s c v) : (writeCnt s c v).mem = s.mem := rfl

theorem writeSk_mem {s ctx r v} : ∀ t ∈ (writeSk s ctx r v), t.mem = s.mem := by
  unfold writeSk
  split <;> simp

theorem writeChan_mem {s c n v} : ∀ t ∈ (writeChan s c n v), t.mem = s.mem := by simp [writeChan]

theorem writeSpecial_mem {s c ctx i v t} (h : writeSpecial s c ctx i v = .ok t) : t.mem = s.mem := by
  unfold writeSpecial at h
  split at h
  case h_17 | h_18 | h_19 =>
    split at h
    · cases h
      exact writeSk_mem _ ‹_›
    · cases h
  case h_20 =>
    split at h
    · cases h
      rfl
    · split at h
      · split at h
        · cases h
          exact writeChan_mem _ ‹_›
        · cases h
      · cases h
  all_goals
    cases h
    rfl

theorem execMfs_mem (f s) : OutMem (· = s.mem) (execMfs f s) := by
  refine runWord_mem rfl fun e => ?_
  dsimp only
  split
  · split
    · simp
    · split
      · split <;> simp
      · simp
  · split
    · next hr => simpa using readSpecial_mem _ hr
    · simp

theorem execMts_mem (f s) : OutMem (· = s.mem) (execMts f s) := by
  refine runWord_mem rfl fun e => ?_
  dsimp only
  split
  · split
    · simp
    · split <;> simp
  · split
    · next hw => simpa using writeSpecial_mem hw
    · simp
    · simp

theorem execChtabWrite_mem (c n v s) : OutMem (· = s.mem) (execChtabWrite c n v s) := by
  unfold execChtabWrite
  split
  · cases hw : writeChan s c n v with
    | none => rfl
    | some t => exact writeChan_mem _ hw
  · rfl

theorem execSksizeWrite_mem (c r v s) : OutMem (· = s.mem) (execSksizeWrite c r v s) := by
  unfold execSksizeWrite
  split
  · split
    · exact writeSk_mem _ ‹_›
    · split <;> simp
  · rfl

theorem execRegisterWrite_mem (c i v s) : OutMem (· = s.mem) (execRegisterWrite c i v s) := by
  unfold execRegisterWrite
  split
  · split
    · exact writeSpecial_mem ‹_›
    · rfl
  · rfl

/-! ## The task and control instructions -/

@[simp] theorem setPc_mem (s e pc) : (setPc s e pc).mem = s.mem := rfl

@[simp] theorem dropChain_mem (s c) : (dropChain s c).mem = s.mem := by
  unfold dropChain
  repeat' split
  all_goals simp

@[simp] theorem sendChainDone_mem (s h) : (sendChainDone s h).mem = s.mem := by
  unfold sendChainDone
  split <;> simp

theorem sendMessage_mem {s e kind target chan words} : ∀ t ∈ (sendMessage s e kind target chan words), t.mem = s.mem := by
  simp [sendMessage]

theorem execTpost_mem (f s) : OutMem (· = s.mem) (execTpost f s) := by
  refine runWord_mem rfl fun e => ?_
  dsimp only
  split
  · simp
  · split
    · simpa using sendMessage_mem _ ‹_›
    · simp

theorem execMsend_mem (f s) : OutMem (· = s.mem) (execMsend f s) := by
  refine runWord_mem rfl fun e => ?_
  dsimp only
  split
  · simp
  · split
    · simp
    · split
      · simpa using sendMessage_mem _ ‹_›
      · simp

@[simp] theorem acceptMsg_mem (s c m) : (acceptMsg s c m).mem = s.mem := rfl

@[simp] theorem postCont_mem (s c x ws) : (postCont s c x ws).mem = s.mem := by
  unfold postCont
  split <;> simp

@[simp] theorem postIfReady_mem (s c n) : (postIfReady s c n).mem = s.mem := by
  unfold postIfReady
  repeat' split
  all_goals simp

@[simp] theorem splitPhase_mem {Q : Memory → Prop} {s e chan aw} (h : Q s.mem) : EffMem Q (splitPhase s e chan aw) := by
  unfold splitPhase
  split
  · simp
  · next hr =>
    have hmem := reserveCont_mem _ hr
    dsimp only at hmem
    simpa [hmem] using h

@[simp] theorem completeRange_mem (s l c own) : (completeRange s l c own).mem = s.mem := by
  unfold completeRange
  dsimp only
  repeat' split
  all_goals simp

theorem execRange_mem (f s) : OutMem (· = s.mem) (execRange f s) := by
  refine runWord_mem rfl fun e => ?_
  dsimp only
  split
  · simp
  · split
    · simp
    · split
      · simp
      · split
        · simp
        · next hr => split <;> simpa using reserveCont_mem _ hr

theorem arrive_mem {s l c b e scope t ph} (h : arrive s l c b e scope = .joined t ph) : t.mem = s.mem := by
  unfold arrive at h
  dsimp only at h
  repeat' split at h
  all_goals cases h
  all_goals simp

@[simp] theorem barrierFault_mem (s e b ph) : (barrierFault s e b ph).mem = s.mem := rfl

theorem execBara_mem (f s) : OutMem (· = s.mem) (execBara f s) := by
  refine runWord_mem rfl fun e => ?_
  dsimp only
  split
  · simp
  · split
    · simp
    · split
      · simp
      · next ha =>
        split <;> simpa using arrive_mem ha

theorem execGbar_mem (f s) : OutMem (· = s.mem) (execGbar f s) := by
  refine runWord_mem rfl fun e => ?_
  dsimp only
  split
  · simp
  · split
    · simp
    · split
      · simp
      · exact splitPhase_mem (arrive_mem ‹_›)

@[simp] theorem releaseOn_mem (s b c) : (releaseOn s b c).mem = s.mem := by
  unfold releaseOn
  exact (foldl_mem (by simp) ..).trans (by simp)

theorem execBarrierRelease_mem (c b s) : OutMem (· = s.mem) (execBarrierRelease c b s) := by
  unfold execBarrierRelease
  dsimp only
  repeat' split
  any_goals exact foldl_mem (by simp) ..
  all_goals simp

@[simp] theorem discardLoads_mem (s c b) : (discardLoads s c b).mem = s.mem := rfl

end Sys2Proof.Proofs
end

section
/-! PROOFS. What commands, streams, the fabric and the parser leave of memory. -/

namespace Sys2Proof.Proofs
open Sys2Proof Sys2Proof.Machine Sys2Proof.Laws

/-! ## Engine commands -/

@[simp] theorem modEng_mem (s id f) : (modEng s id f).mem = s.mem := rfl

@[simp] theorem issueCommand_mem {Q : Memory → Prop} {s e i d a b c} (h : Q s.mem) : EffMem Q (issueCommand s e i d a b c) := by
  unfold issueCommand
  repeat' split
  all_goals simp [h]

theorem engWord_mem (i f s) : OutMem (· = s.mem) (engWord i f s) := runWord_mem rfl (by simp)

theorem grmWord_mem (i f s) : OutMem (· = s.mem) (grmWord i f s) := runWord_mem rfl (by simp)

@[simp] theorem engRaise_mem (s g f) : (engRaise s g f).mem = s.mem := by
  unfold engRaise
  repeat' split
  all_goals simp

@[simp] theorem engWrite_mem (s g va bs) : (engWrite s g va bs).mem = s.mem := by
  refine foldl_mem (fun s x => ?_) ..
  split <;> simp

@[simp] theorem badStart_mem (Q code addr) : StartMem Q (badStart code addr) := trivial

@[simp] theorem landed_mem (s id) : (landed s id).mem = s.mem := rfl

@[simp] theorem landedWith_mem (s id r f) : (landedWith s id r f).mem = s.mem := rfl

@[simp] theorem startedOn_mem (s id) : (startedOn s id).mem = s.mem := rfl

@[simp] theorem addClaims_mem (s c id rs) : (addClaims s c id rs).mem = s.mem := rfl

@[simp] theorem endClaims_mem (s c id) : (endClaims s c id).mem = s.mem := rfl

@[simp] theorem endReads_mem (s c id) : (endReads s c id).mem = s.mem := rfl

@[simp] theorem narrowClaims_mem (s c id rs) : (narrowClaims s c id rs).mem = s.mem := rfl

@[simp] theorem seqDone_mem (s c cls n) : (seqDone s c cls n).mem = s.mem := rfl

@[simp] theorem seqIssue_mem (s c i) : (seqIssue s c i).2.mem = s.mem := by
  unfold seqIssue
  split <;> simp

@[simp] theorem deliverResult_mem (s g) : (deliverResult s g).mem = s.mem := by
  unfold deliverResult
  repeat' split
  all_goals simp

@[simp] theorem completeCommand_mem (s g) : (completeCommand s g).mem = s.mem := by
  unfold completeCommand
  repeat' split
  all_goals simp

/-! ## Address generators -/

@[simp] theorem askRange_mem (s l c q) : (askRange s l c q).mem = s.mem := rfl

theorem startWalk_mem {s l c k id} : ∀ t ∈ (startWalk s l c k id), t.mem = s.mem := by
  unfold startWalk
  dsimp only
  split <;> simp

@[simp] theorem startSspec_mem {Q : Memory → Prop} {f s l g} (h : Q s.mem) : StartMem Q (startSspec f s l g) := by
  unfold startSspec
  dsimp only
  split
  · simp
  · split
    · simp
    · split
      · simp
      · split
        · simp
        · split
          · next hw => simpa [show _ = _ from startWalk_mem _ hw] using h
          · simp

@[simp] theorem startSarm_mem {Q : Memory → Prop} {f s l g} (h : Q s.mem) : StartMem Q (startSarm f s l g) := by
  unfold startSarm
  dsimp only
  refine startMem_ite (startMem_trap ..) (startMem_ite (startMem_trap ..) (startMem_ite (startMem_trap ..) ?_))
  split
  · next hw => simpa [show _ = _ from startWalk_mem _ hw] using h
  · simp

theorem agTranslate_mem {s c k w ctx va t} (h : agTranslate s c k w ctx va = .later t) : t.mem = s.mem := by
  unfold agTranslate at h
  repeat' split at h
  all_goals cases h
  all_goals simp

@[simp] theorem agSendHead_mem (s l c a g w x) : (agSendHead s l c a g w x).mem = s.mem := by simp [agSendHead]

@[simp] theorem agIssue_mem (s l c a g w) : (agIssue s l c a g w).mem = s.mem := by
  unfold agIssue
  dsimp only
  split
  · simp
  · split
    · simp
    · split
      · exact agTranslate_mem ‹_›
      · simp
      · split <;> simp

@[simp] theorem agConsume_mem (s l c a g w) : (agConsume s l c a g w).mem = s.mem := by
  unfold agConsume
  dsimp only
  split
  · split
    · simp
    · split
      · simp
      · split
        · exact agTranslate_mem ‹_›
        · simp
        · split <;> simp
  · rfl

@[simp] theorem agSkip_mem (s l c a g w lv gid) : (agSkip s l c a g w lv gid).mem = s.mem := by
  unfold agSkip
  dsimp only
  split <;> simp

/-! ## Messages of the device and the range server -/

@[simp] theorem postOwn_mem (s c chan words wid) : (postOwn s c chan words wid).mem = s.mem := rfl

@[simp] theorem postStage_mem (s l c stage) : (postStage s l c stage).mem = s.mem := rfl

@[simp] theorem popStage_mem (s l i) : (popStage s l i).mem = s.mem := by
  unfold popStage
  split <;> simp

@[simp] theorem moveCore_mem (s l c own b) : (moveCore s l c own b).mem = s.mem := rfl

@[simp] theorem answerRange_mem (s l c n start count) : (answerRange s l c n start count).mem = s.mem := rfl

theorem serveStage_mem {s l c n} : ∀ t ∈ (serveStage s l c n), t.mem = s.mem := by
  unfold serveStage
  dsimp only
  repeat' split
  all_goals simp

@[simp] theorem giveTeam_mem (s l c q r) : (giveTeam s l c q r).mem = s.mem := foldl_mem (by simp) ..

@[simp] theorem serveFirst_mem (s l die q x before rs) : (serveFirst s l die q x before rs).mem = s.mem := by
  induction rs generalizing before with
  | nil => simp [serveFirst]
  | cons r rest ih =>
    unfold serveFirst
    split
    · rfl
    · split
      · split <;> simp
      · split
        · split
          · next hs => simpa using serveStage_mem _ hs
          · exact ih ..
        · split <;> simp

/-! ## What the device keeps in a context -/

@[simp] theorem passRecord_mem (s ctx q seq st) : (passRecord s ctx q seq st).mem = s.mem := rfl

/-! ## The fabric -/

@[simp] theorem modFocusNode_mem (s e f) : (modFocusNode s e f).mem = s.mem := by
  unfold modFocusNode
  split <;> simp

@[simp] theorem modFiring_mem (s e f) : (modFiring s e f).mem = s.mem := by simp [modFiring]

@[simp] theorem writeTok_mem (s e o t) : (writeTok s e o t).mem = s.mem := by
  unfold writeTok
  split <;> simp

@[simp] theorem writeVoid_mem (s e o) : (writeVoid s e o).mem = s.mem := by simp [writeVoid]

theorem flowWord_mem {i s srcs body} (h : ∀ e f, (body e f).mem = s.mem) : OutMem (· = s.mem) (flowWord i s srcs body) := by
  refine runWord_mem rfl fun e => ?_
  split
  · simp
  · split <;> simp [h]

@[simp] theorem accSet_mem (s e r fmt idx v seen) : (accSet s e r fmt idx v seen).mem = s.mem := by simp [accSet]

@[simp] theorem endFiring_mem (s c l n f) : (endFiring s c l n f).mem = s.mem := by
  unfold endFiring
  repeat' split
  all_goals simp

theorem streamStep_mem (i s room take) : OutMem (· = s.mem) (streamStep i s room take) := by
  refine runWord_mem rfl fun e => ?_
  split
  · dsimp only
    split
    · simp
    · split <;> simp
  · simp

/-! ## The copy engine -/

@[simp] theorem storeBytes_mem (s g va loc bs) : (storeBytes s g va loc bs).mem = s.mem := foldl_mem (by simp) ..

@[simp] theorem writeBlock_mem (s g va loc block) : (writeBlock s g va loc block).mem = s.mem := rfl

@[simp] theorem writeBlocks_mem (s g fuel va loc bs) : (writeBlocks s g fuel va loc bs).mem = s.mem := by
  induction fuel generalizing s va loc bs with
  | zero => rfl
  | succ n ih =>
    unfold writeBlocks
    split <;> simp [ih]

@[simp] theorem writePieces_mem (g xs bs s) : (writePieces g xs bs s).mem = s.mem := by
  induction xs generalizing bs s with
  | nil => rfl
  | cons x xs ih =>
    unfold writePieces
    rw [ih]
    split <;> simp

@[simp] theorem startTst_mem {Q : Memory → Prop} {f s g} (h : Q s.mem) : StartMem Q (startTst f s g) := by
  unfold startTst
  dsimp only
  repeat' split
  all_goals simp [h]

/-! ## The matrix array -/

@[simp] theorem startMma_mem {Q : Memory → Prop} {s g} (h : Q s.mem) : StartMem Q (startMma s g) := by
  unfold startMma
  dsimp only
  split <;> simp [h]

@[simp] theorem storeRows_mem (s g rows) : (storeRows s g rows).mem = s.mem := foldl_mem (by simp) ..

@[simp] theorem startLoad_mem {Q : Memory → Prop} {s g x t} (h : Q s.mem) : StartMem Q (startLoad s g x t) := by
  unfold startLoad
  dsimp only
  repeat' split
  all_goals simp [h]

@[simp] theorem startNormMem_mem {Q : Memory → Prop} {s g x t} (h : Q s.mem) : StartMem Q (startNormMem s g x t) := by
  unfold startNormMem
  repeat' split
  all_goals simp [h]

@[simp] theorem startNormStream_mem {Q : Memory → Prop} {s g x t} (h : Q s.mem) : StartMem Q (startNormStream s g x t) := by
  simp [startNormStream, h]

@[simp] theorem normEmit_mem (s g) : (normEmit s g).mem = s.mem := by
  unfold normEmit
  dsimp only
  repeat' split
  all_goals simp

/-! ## The Armature -/

@[simp] theorem setGraph_mem (s c h g) : (setGraph s c h g).mem = s.mem := rfl

@[simp] theorem modBind_mem (s c h f) : (modBind s c h f).mem = s.mem := rfl

@[simp] theorem startGload_mem {Q : Memory → Prop} {f s g} (h : Q s.mem) : StartMem Q (startGload f s g) := by
  unfold startGload
  dsimp only
  repeat' split
  all_goals simp [h]

@[simp] theorem startGfree_mem {Q : Memory → Prop} {f s g} (h : Q s.mem) : StartMem Q (startGfree f s g) := by
  simp [startGfree, h]

@[simp] theorem freeGraph_mem (f s g) : (freeGraph f s g).mem = s.mem := by
  unfold freeGraph
  dsimp only
  repeat' split
  all_goals simp

@[simp] theorem startGqry_mem {Q : Memory → Prop} {f s g} (h : Q s.mem) : StartMem Q (startGqry f s g) := by
  simp [startGqry, h]

@[simp] theorem startGbind_mem {Q : Memory → Prop} {f s g} (h : Q s.mem) : StartMem Q (startGbind f s g) := by
  unfold startGbind
  dsimp only
  repeat' split
  all_goals simp [h]

@[simp] theorem enterVector_mem (s c h v) : (enterVector s c h v).mem = s.mem := rfl

@[simp] theorem acceptTile_mem (s c h x b) : (acceptTile s c h x b).mem = s.mem := by
  unfold acceptTile
  dsimp only
  split <;> simp

@[simp] theorem armPoison_mem (s c h edge place level) : (armPoison s c h edge place level).mem = s.mem := rfl

@[simp] theorem runGroup_mem (s c h x b ts) : (runGroup s c h x b ts).mem = s.mem := by
  unfold runGroup
  dsimp only
  split <;> simp

@[simp] theorem acceptLane_mem (s l c h x b) : (acceptLane s l c h x b).mem = s.mem := by
  unfold acceptLane
  dsimp only
  repeat' split
  all_goals simp

@[simp] theorem takeVector_mem (s c h x b) : (takeVector s c h x b).mem = s.mem := by
  unfold takeVector
  repeat' split
  all_goals simp

@[simp] theorem runDone_mem (s c h b) : (runDone s c h b).mem = s.mem := by
  unfold runDone
  split <;> simp

@[simp] theorem dropVec_mem (s c h) : (dropVec s c h).mem = s.mem := by
  unfold dropVec
  dsimp only
  split <;> simp

theorem resultMem_mem {s g d v} : ∀ t, (resultMem s g d v) = .inl t → t.mem = s.mem := by
  unfold resultMem
  dsimp only
  split <;> simp

/-! ## The parse sequencer -/

@[simp] theorem onParser_mem (s c p f) : (onParser s c p f).mem = s.mem := rfl

@[simp] theorem parseFault_mem (s c p code word) : (parseFault s c p code word).mem = s.mem := rfl

@[simp] theorem parseMismatch_mem (s c p g kind sym t) : (parseMismatch s c p g kind sym t).mem = s.mem := by
  unfold parseMismatch
  split <;> simp

@[simp] theorem parseEnd_mem (s c p g) : (parseEnd s c p g).mem = s.mem := by
  unfold parseEnd
  dsimp only
  repeat' split
  all_goals simp

@[simp] theorem stopDone_mem (s c p cmd) : (stopDone s c p cmd).mem = s.mem := by
  unfold stopDone
  dsimp only
  split <;> simp

@[simp] theorem parseOn_mem (s c p g) : (parseOn s c p g).mem = s.mem := by
  unfold parseOn
  dsimp only
  repeat' split
  all_goals simp

@[simp] theorem parseTurn_mem (s c p g) : (parseTurn s c p g).mem = s.mem := by
  unfold parseTurn
  dsimp only
  repeat' split
  all_goals simp

@[simp] theorem startGstart_mem {Q : Memory → Prop} {f s g} (h : Q s.mem) : StartMem Q (startGstart f s g) := by
  unfold startGstart
  dsimp only
  repeat' split
  all_goals simp [h]

@[simp] theorem dropToks_mem (s c p ts) : (dropToks s c p ts).mem = s.mem := by
  refine foldl_mem (fun s x => ?_) ..
  split <;> simp

@[simp] theorem abandonParse_mem (s l c p cmd) : (abandonParse s l c p cmd).mem = s.mem := by
  unfold abandonParse
  dsimp only
  repeat' split
  all_goals simp

@[simp] theorem startGstop_mem {Q : Memory → Prop} {f s l g} (h : Q s.mem) : StartMem Q (startGstop f s l g) := by
  unfold startGstop
  dsimp only
  repeat' split
  all_goals simp [h]

@[simp] theorem startGmask_mem {Q : Memory → Prop} {f s g} (h : Q s.mem) : StartMem Q (startGmask f s g) := by
  unfold startGmask
  dsimp only
  repeat' split
  all_goals simp [h]

@[simp] theorem startGfeed_mem {Q : Memory → Prop} {f s g} (h : Q s.mem) : StartMem Q (startGfeed f s g) := by
  unfold startGfeed
  dsimp only
  repeat' split
  all_goals simp [h]

@[simp] theorem startGstat_mem {Q : Memory → Prop} {f s g} (h : Q s.mem) : StartMem Q (startGstat f s g) := by
  unfold startGstat
  split <;> simp [h]

end Sys2Proof.Proofs
end

section
/-! PROOFS. What launches, sessions and the ports leave of memory. -/

namespace Sys2Proof.Proofs
open Sys2Proof Sys2Proof.Machine Sys2Proof.Laws

/-! ## The loader -/

@[simp] theorem placeTeam_mem (s l g team) : (placeTeam s l g team).mem = s.mem := foldl_mem (by simp) ..

@[simp] theorem startTeams_mem (s l gs n) : (startTeams s l gs n).mem = s.mem := by
  induction gs generalizing s n with
  | nil => rfl
  | cons g gs ih =>
    unfold startTeams
    split
    · simp [ih]
    · exact (ih ..).trans (foldl_mem (by simp) ..)

@[simp] theorem startLaunch_mem (s l) : (startLaunch s l).mem = s.mem := by
  unfold startLaunch
  split
  · exact foldl_mem (by simp) ..
  · split
    · exact foldl_mem (by simp) ..
    · simp

@[simp] theorem endLoad_mem (s id st) : (endLoad s id st).mem = s.mem := rfl

/-! ## Admission -/

@[simp] theorem movePointers_mem (s part k) : (movePointers s part k).mem = s.mem := rfl

@[simp] theorem takeCore_mem (x id s c) : (takeCore x id s c).mem = s.mem := rfl

@[simp] theorem admitRecord_mem (s k cs) : (admitRecord s k cs).mem = s.mem := by
  exact (foldl_mem (by simp) ..).trans (by simp)

@[simp] theorem admitHeld_mem (s k h cs) : (admitHeld s k h cs).mem = s.mem := by
  exact (foldl_mem (by simp) ..).trans (by simp)

/-! ## Answers of the master Plinth -/

@[simp] theorem modEntry_mem (s seq f) : (modEntry s seq f).mem = s.mem := rfl

@[simp] theorem settleEntry_mem (s seq st w block) : (settleEntry s seq st w block).mem = s.mem := by
  unfold settleEntry
  split <;> rfl

@[simp] theorem finishCmd_mem (s seq e v block) : (finishCmd s seq e v block).mem = s.mem := settleEntry_mem ..

theorem cfgOp_mem {s item v} : ∀ t ∈ (cfgOp s item v), t.2.mem = s.mem := by
  unfold cfgOp
  repeat' split
  all_goals simp

@[simp] theorem answerOne_mem (s a v) : (answerOne s a v).mem = s.mem := by
  unfold answerOne
  split <;> simp

@[simp] theorem serveCfg_mem (s) : (serveCfg s).mem = s.mem := by
  refine foldl_mem (fun s x => ?_) ..
  split
  · split
    · next h =>
      split at h
      · simpa using cfgOp_mem _ h
      · cases h
    · rfl
  · rfl

@[simp] theorem answer_mem (s a v) : (answer s a v).mem = s.mem := by simp [answer]

@[simp] theorem mapAskers_mem (s f) : (mapAskers s f).mem = s.mem := rfl

@[simp] theorem forgetAskers_mem (s cs) : (forgetAskers s cs).mem = s.mem := rfl

@[simp] theorem serveCore_mem (s c) : (serveCore s c).mem = s.mem := by
  refine foldl_mem (fun s x => ?_) ..
  repeat' split
  all_goals simp

@[simp] theorem modSk_mem (s w f) : (modSk s w f).mem = s.mem := by
  unfold modSk
  split <;> simp

@[simp] theorem freeClass_mem (s d slot) : (freeClass s d slot).mem = s.mem := (foldl_mem (by simp) ..).trans (by simp)

@[simp] theorem serveClasses_mem (s) : (serveClasses s).mem = s.mem := by
  refine foldl_mem (fun s x => ?_) ..
  repeat' split
  all_goals simp

/-! ## The Chisel engines -/

@[simp] theorem modSession_mem (s a o f) : (modSession s a o f).mem = s.mem := by
  unfold modSession
  repeat' split
  all_goals simp

theorem openFor_mem {s a o t x} (h : openFor s a o = some (t, x)) : t.mem = s.mem := by
  unfold openFor at h
  dsimp only at h
  repeat' split at h
  all_goals cases h
  all_goals simp

@[simp] theorem setSkBoth_mem (s a o v) : (setSkBoth s a o v).mem = s.mem := by
  unfold setSkBoth
  split <;> simp

@[simp] theorem clearBitmap_mem (s h g) : (clearBitmap s h g).mem = s.mem := by
  unfold clearBitmap
  split
  · rfl
  · refine foldl_mem (fun s x => ?_) ..
    split <;> simp

@[simp] theorem writeEntries_mem (s h g ws) : (writeEntries s h g ws).mem = s.mem := foldl_mem (by simp) ..

@[simp] theorem commitSide_mem (s h ws clear stat) : (commitSide s h ws clear stat).mem = s.mem := by
  unfold commitSide
  repeat' split
  all_goals simp

@[simp] theorem sideStop_mem (s h f) : (sideStop s h f).mem = s.mem := by
  unfold sideStop
  split <;> simp

@[simp] theorem bothFault_mem (s a o f) : (bothFault s a o f).mem = s.mem := by
  unfold bothFault
  split <;> simp

@[simp] theorem otherStop_mem (s o f) : (otherStop s o f).mem = s.mem := by
  unfold otherStop
  split <;> simp

@[simp] theorem commitBoth_mem (s s1 a o wa wb ca cb stat) (h : s1.mem = s.mem) :
    (commitBoth s s1 a o wa wb ca cb stat).mem = s.mem := by
  unfold commitBoth
  split
  · simp
  · simp
  · dsimp only
    split <;> simp [h]

theorem markBoth_mem {f : State → CoreId → State} (h : ∀ s c, (f s c).mem = s.mem) (s a o) :
    (markBoth f s a o).mem = s.mem := by
  unfold markBoth
  split <;> simp [h]

@[simp] theorem activeBoth_mem (s a o) : (activeBoth s a o).mem = s.mem := markBoth_mem active_mem ..

@[simp] theorem movedBoth_mem (s a o) : (movedBoth s a o).mem = s.mem := markBoth_mem moved_mem ..

@[simp] theorem exchange_mem (s a o ga gb) : (exchange s a o ga gb).mem = s.mem := by
  unfold exchange
  repeat' split
  all_goals simp

@[simp] theorem fixFails_mem (s ga gb) : (fixFails s ga gb).mem = s.mem := by
  unfold fixFails
  split <;> simp

@[simp] theorem fixBoth_mem (s a o ga gb) : (fixBoth s a o ga gb).mem = s.mem := by
  unfold fixBoth
  dsimp only
  repeat' split
  all_goals simp

@[simp] theorem expertRound_mem (s a o) : (expertRound s a o).mem = s.mem := by
  unfold expertRound
  dsimp only
  repeat' split
  all_goals simp

theorem onSession_mem {Q : Memory → Prop} {s d peer f} (h : Q s.mem)
    (hf : ∀ s1 a o x, s1.mem = s.mem → Q (f s1 a o x).mem) : Q (onSession s d peer f).mem := by
  unfold onSession
  split
  · exact h
  · split
    · exact h
    · split
      · exact h
      · split
        · exact h
        · next ho =>
          split
          · exact h
          · exact hf _ _ _ _ (openFor_mem ho)

@[simp] theorem fallbackRun_mem (s a o x) : (fallbackRun s a o x).mem = s.mem := by
  unfold fallbackRun
  split <;> simp

theorem execSessionFallback_mem (d peer s) : OutMem (· = s.mem) (execSessionFallback d peer s) := by
  refine onSession_mem (Q := (· = s.mem)) rfl fun s1 a o x h1 => ?_
  dsimp only
  repeat' split
  all_goals simp [h1]

@[simp] theorem pairSide_mem (s d slot) : (pairSide s d slot).mem = s.mem := rfl

@[simp] theorem enterWait_mem (s g x) : (enterWait s g x).mem = s.mem := by simp [enterWait]

@[simp] theorem startSkrecon_mem {Q : Memory → Prop} {f s g} (h : Q s.mem) : StartMem Q (startSkrecon f s g) := by
  unfold startSkrecon
  repeat' split
  all_goals simp [h]

theorem expertStart_mem {Q : Memory → Prop} {f s g sz run} (h : Q s.mem)
    (hr : ∀ s1 a, s1.mem = s.mem → StartMem Q (run s1 a)) : StartMem Q (expertStart f s g sz run) := by
  unfold expertStart
  split
  · simp
  · split
    · simp
    · split
      · simpa using h
      · split
        · simp
        · dsimp only
          split
          · simp
          · split
            · simp
            · next ho =>
              split
              · simp
              · exact hr _ _ (openFor_mem ho)

@[simp] theorem startSkbld_mem {Q : Memory → Prop} {f s g} (h : Q s.mem) : StartMem Q (startSkbld f s g) := by
  unfold startSkbld
  split
  · simp
  · refine expertStart_mem h fun s1 a h1 => ?_
    dsimp only
    repeat' split
    all_goals simp [h1, h]

@[simp] theorem startSkxch_mem {Q : Memory → Prop} {f s g} (h : Q s.mem) : StartMem Q (startSkxch f s g) := by
  unfold startSkxch
  split
  · simp
  · exact expertStart_mem h fun s1 a h1 => by simp [h1, h]

@[simp] theorem startSkfix_mem {Q : Memory → Prop} {f s g} (h : Q s.mem) : StartMem Q (startSkfix f s g) := by
  unfold startSkfix
  split
  · simp
  · exact expertStart_mem h fun s1 a h1 => by simp [h1, h]

@[simp] theorem startSksub_mem {Q : Memory → Prop} {s g} (h : Q s.mem) : StartMem Q (startSksub s g) := by
  unfold startSksub
  dsimp only
  repeat' split
  all_goals simp [h]

@[simp] theorem startSkpeel_mem {Q : Memory → Prop} {s g} (h : Q s.mem) : StartMem Q (startSkpeel s g) := by
  unfold startSkpeel
  dsimp only
  repeat' split
  all_goals simp [h]

/-! ## The life of an engine command -/

@[simp] theorem enterQueue_mem (s g ds) : (enterQueue s g ds).mem = s.mem := by
  unfold enterQueue
  split <;> simp

@[simp] theorem acceptBind_mem (s g) : (acceptBind s g).mem = s.mem := by
  unfold acceptBind
  repeat' split
  all_goals simp

@[simp] theorem settleClaims_mem (s g) : (settleClaims s g).mem = s.mem := by
  unfold settleClaims
  repeat' split
  all_goals simp

@[simp] theorem reportDone_mem (s g) : (reportDone s g).mem = s.mem := by
  unfold reportDone
  split <;> simp

/-! ## The end of launches -/

@[simp] theorem nextTeam_mem (s l g) : (nextTeam s l g).mem = s.mem := by
  unfold nextTeam
  split
  · simpa using foldl_mem (by simp) ..
  · exact foldl_mem (by simp) ..

@[simp] theorem completeIfOver_mem (s l) : (completeIfOver s l).mem = s.mem := by
  unfold completeIfOver
  split <;> simp

@[simp] theorem dropHeld_mem (s x) : (dropHeld s x).mem = s.mem := by
  unfold dropHeld
  split <;> simp

@[simp] theorem dropRestored_mem (s l) : (dropRestored s l).mem = s.mem := by
  unfold dropRestored
  repeat' split
  all_goals simp

@[simp] theorem recordFault_mem (s ctx r) : (recordFault s ctx r).mem = s.mem := rfl

@[simp] theorem blockBack_mem (s ctx c) : (blockBack s ctx c).mem = s.mem := rfl

@[simp] theorem releaseCore_mem (s c) : (releaseCore s c).mem = s.mem := by simp [releaseCore]

@[simp] theorem dropIfDone_mem (s l) : (dropIfDone s l).mem = s.mem := by
  unfold dropIfDone
  split <;> simp

/-! ## Pre-emption -/

@[simp] theorem saveAskers_mem (s l) : (saveAskers s l).mem = s.mem := rfl

@[simp] theorem holdLaunch_mem (s l became) : (holdLaunch s l became).mem = s.mem := by
  unfold holdLaunch
  rw [foldl_mem (by simp), foldl_mem (by simp)]
  simp

@[simp] theorem pagePassed_mem (s ctx page) : (pagePassed s ctx page).mem = s.mem := rfl

@[simp] theorem pageDistrusted_mem (s ctx page o) : (pageDistrusted s ctx page o).mem = s.mem := rfl

theorem execPageCheckComplete_mem (ctx s) : OutMem (· = s.mem) (execPageCheckComplete ctx s) := by
  have told (xs : List (Nat × Who)) (s : State) : (xs.foldl (fun s y => heard s y.2.launch y.2.core) s).mem = s.mem :=
    foldl_mem (by simp) ..
  unfold execPageCheckComplete
  dsimp only
  split
  · rfl
  · split
    · rfl
    · split
      · exact told ..
      · split
        · exact (foldl_mem (by simp) ..).trans (told ..)
        · exact told ..
        · exact told ..
        · exact told ..
        · exact (foldl_mem (by simp) ..).trans (by simp)

/-! ## The master Plinth -/

theorem stopOp_mem {s x q k own a t} (h : stopOp s x q k own a = .stopping t) : t.mem = s.mem := by
  unfold stopOp at h
  dsimp only at h
  repeat' split at h
  all_goals cases h
  all_goals simp

@[simp] theorem keepStreams_mem (s h) : (keepStreams s h).mem = s.mem := rfl

@[simp] theorem askRestore_mem (s ctx a) : (askRestore s ctx a).mem = s.mem := rfl

@[simp] theorem dropTlb_mem (s p) : (dropTlb s p).mem = s.mem := rfl

@[simp] theorem tlbiOp_mem (s mode ctx va) : (tlbiOp s mode ctx va).mem = s.mem := by
  unfold tlbiOp
  repeat' split
  all_goals simp

theorem semaOp_mem {s h op} : ∀ t ∈ (semaOp s h op), t.2.mem = s.mem := by
  unfold semaOp
  repeat' split
  all_goals simp

@[simp] theorem haltOp_mem (s c op a) : (haltOp s c op a).mem = s.mem := by
  unfold haltOp
  dsimp only
  repeat' split
  all_goals simp

@[simp] theorem guardOp_mem (s c v a) : (guardOp s c v a).mem = s.mem := by
  unfold guardOp
  dsimp only
  split <;> simp

theorem pageOp_mem {s x o page} : ∀ t ∈ pageOp s x o page, t.2.mem = s.mem := by
  unfold pageOp
  dsimp only
  split
  · simp
  · split
    · simp
    · simp
    · simp
    · simpa using (foldl_mem (by simp) ..).trans (by simp)

/-! ## The host attachment -/

@[simp] theorem respond_mem (s r) : (respond s r).mem = s.mem := rfl

@[simp] theorem renewLease_mem (s port) : (renewLease s port).mem = s.mem := by
  unfold renewLease
  split <;> simp

@[simp] theorem repeatCommand_mem (s port rid z) : (repeatCommand s port rid z).mem = s.mem := by
  unfold repeatCommand
  split <;> simp

theorem cmdRun_mem {Q : Memory → Prop} {code sem k s body} (h : Q s.mem)
    (hb : ∀ rest, CmdMem Q (body { s with cmds := rest })) : OutMem Q (cmdRun code sem k s body) := by
  unfold cmdRun
  split
  · exact h
  · next x rest _ =>
    split
    · exact h
    · dsimp only
      split
      · simpa using h
      · have hr := hb rest
        split <;> simp_all

theorem cmdCtx_mem {Q : Memory → Prop} {code sem k s body} (h : Q s.mem)
    (hb : ∀ rest x, CmdMem Q (body { s with cmds := rest } x)) : OutMem Q (cmdCtx code sem k s body) := by
  refine cmdRun_mem h fun rest => ?_
  split
  · exact hb ..
  · simp

/-! ## The commands of the ports -/

theorem execCmdSema_mem (k s) : OutMem (· = s.mem) (execCmdSema k s) := by
  refine cmdRun_mem rfl fun rest => ?_
  split
  · next h => exact semaOp_mem _ h
  · simp

@[simp] theorem cancelAll_mem (s n) : (cancelAll s n).mem = s.mem := rfl

@[simp] theorem cancelLaunch_mem (s id) : (cancelLaunch s id).mem = s.mem := rfl

@[simp] theorem dropCtx_mem (s x) : (dropCtx s x).mem = s.mem := by simp [dropCtx]

@[simp] theorem cancelRecord_waiting_mem (s x q seq y) : (cancelRecord.waiting s x q seq y).mem = s.mem := by
  unfold cancelRecord.waiting
  split <;> simp

@[simp] theorem cmdStop_mem {Q : Memory → Prop} {k s x level} (h : Q s.mem) : CmdMem Q (cmdStop k s x level) := by
  unfold cmdStop
  split
  · simpa using h
  · next hs => simpa [stopOp_mem hs] using h
  · simpa using h
  · simp

theorem execCmdCfg_mem (k s) : OutMem (· = s.mem) (execCmdCfg k s) := by
  refine cmdRun_mem rfl fun rest => ?_
  split
  · next h => exact cfgOp_mem _ h
  · simp

/-! ## The package -/

@[simp] theorem countCorrected_mem (s loc) : (countCorrected s loc).mem = s.mem := rfl

@[simp] theorem scrubWord_mem (s loc f) : (scrubWord s loc f).mem = s.mem := by
  unfold scrubWord
  dsimp only
  repeat' split
  all_goals simp

@[simp] theorem scrubFrieze_mem (s slot f) : (scrubFrieze s slot f).mem = s.mem := by
  unfold scrubFrieze
  split <;> simp

@[simp] theorem scrubContext_mem (s n f) : (scrubContext s n f).mem = s.mem := by
  unfold scrubContext
  split <;> simp

@[simp] theorem thermalStep_mem (die temp there s) : (thermalStep die temp there s).mem = s.mem := by
  unfold thermalStep
  split <;> simp

theorem execThermalStepDown_mem (die temp s) : OutMem (· = s.mem) (execThermalStepDown die temp s) := by
  simp [execThermalStepDown]

theorem execThermalStepUp_mem (die temp s) : OutMem (· = s.mem) (execThermalStepUp die temp s) := by
  simp [execThermalStepUp]

theorem execThermalTrip_mem (die temp s) : OutMem (· = s.mem) (execThermalTrip die temp s) := by simp [execThermalTrip]

/-! ## The value instructions -/

theorem execConvert_mem (i f s srcs scale) : OutMem (· = s.mem) (execConvert i f s srcs scale) := by
  refine runWord_mem rfl fun e => ?_
  split
  · simp
  · dsimp only
    split <;> split <;> simp

/-! ## The system instructions -/

theorem sysWord_mem {Q : Memory → Prop} {i s body} (h : Q s.mem) (hb : ∀ e b, EffMem Q (body e b)) :
    OutMem Q (sysWord i s body) := by
  refine runWord_mem h fun e => ?_
  repeat' split
  all_goals simp [hb]

@[simp] theorem issueSys_mem (s e b d) : (issueSys s e b d).2.mem = s.mem := by simp [issueSys]

@[simp] theorem sysDone_mem (Q s e b d v) : EffMem Q (sysDone s e b d v) ↔ Q s.mem := by simp [sysDone]

theorem sysAsk_mem {Q : Memory → Prop} {s e b d ask} (h : ∀ t a, t.mem = s.mem → Q (ask t a).mem) :
    EffMem Q (sysAsk s e b d ask) := h _ _ (issueSys_mem ..)

@[simp] theorem sysBad_mem (Q e) : EffMem Q (sysBad e) := trivial

@[simp] theorem sysStop_mem {Q : Memory → Prop} {s e f} (h : Q s.mem) : EffMem Q (sysStop s e f) := by
  unfold sysStop
  split <;> simp [h]

@[simp] theorem sysAlign_mem (Q va) : EffMem Q (sysAlign va) := trivial

@[simp] theorem stopWord_mem {Q : Memory → Prop} {s e b f k} (h : Q s.mem) : EffMem Q (stopWord s e b f k) := by
  unfold stopWord
  split
  · simp
  · dsimp only
    split
    · simp
    · split
      · simpa using h
      · next hs => simpa [stopOp_mem hs] using h
      · simp
      · simp

theorem execCfgld_mem (f s) : OutMem (· = s.mem) (execCfgld f s) := by
  refine sysWord_mem rfl fun e b => ?_
  dsimp only
  split
  · next hc =>
    split
    · simpa using cfgOp_mem _ hc
    · exact sysAsk_mem fun t a ht => ht
  · simp

theorem execSema_mem (f s) : OutMem (· = s.mem) (execSema f s) := by
  refine sysWord_mem rfl fun e b => ?_
  split
  · next h => simpa using semaOp_mem _ h
  · simp

theorem execHaltc_mem (f s) : OutMem (· = s.mem) (execHaltc f s) := by
  refine sysWord_mem rfl fun e b => ?_
  dsimp only
  split
  · simp
  · exact sysAsk_mem fun t a ht => by simp [ht]

theorem execPartset_mem (f s) : OutMem (· = s.mem) (execPartset f s) := by
  refine sysWord_mem rfl fun e b => ?_
  dsimp only
  split
  · simp
  · split
    · simp
    · exact sysAsk_mem fun t a ht => by simp [ht]

theorem execPgver_mem (f s) : OutMem (· = s.mem) (execPgver f s) := by
  refine sysWord_mem rfl fun e b => ?_
  dsimp only
  split
  · simp
  · split
    · simp
    · split
      · simp
      · split
        · next hp => simpa using pageOp_mem _ hp
        · split <;> simp

/-! ## The turn -/

@[simp] theorem setOut_mem (s c f a w) : (setOut s c f a w).mem = s.mem := by
  unfold setOut
  split <;> simp

theorem fetchFor_mem (s c) : (fetchFor s c).1.mem = s.mem := by
  unfold fetchFor
  repeat' split
  any_goals exact fetchTask_mem ‹_›
  all_goals simp [raise_mem, raiseRead_mem]

theorem beginMove_mem (m s) : (beginMove m s).1.mem = s.mem := by
  unfold beginMove
  dsimp only
  repeat' split
  all_goals simp [fetchFor_mem]

theorem takeMove_mem (s) : (takeMove s).2.mem = s.mem := by
  unfold takeMove
  dsimp only
  split <;> rfl

end Sys2Proof.Proofs
end

section
/-! PROOFS. Canonical memory, kept by every operation that writes it. -/

namespace Sys2Proof.Proofs
open Sys2Proof Sys2Proof.Machine Sys2Proof.Laws

/-- A memory in the model's canonical form. -/
def Canon (m : Memory) : Prop := Memory.wf m = true

theorem foldl_canon {α : Type} {f : State → α → State} (hf : ∀ s x, Canon s.mem → Canon (f s x).mem)
    (xs : List α) {s : State} (h : Canon s.mem) : Canon (xs.foldl f s).mem := by
  induction xs generalizing s with
  | nil => exact h
  | cons x xs ih => exact ih (hf s x h)

@[simp] theorem ite_canon {P : Prop} [Decidable P] {s t : State} :
    Canon (if P then s else t).mem ↔ if P then Canon s.mem else Canon t.mem := by
  split <;> rfl

theorem startMem_landed {Q : Memory → Prop} {s id c k} (h : Q s.mem) : StartMem Q (.go (endClaims (landed s id) c k)) := by
  simpa using h

@[simp] theorem rawStore_canon {s} (loc bs) (h : Canon s.mem) : Canon (rawStore s loc bs).mem := memSetN_wf loc h

@[simp] theorem setChangeBit_canon {s} (c key) (h : Canon s.mem) : Canon (setChangeBit s c key).mem := by
  unfold setChangeBit
  split
  · split <;> simp [h]
  · exact h

@[simp] theorem setChangeBits_canon {s} (own loc n) (h : Canon s.mem) : Canon (setChangeBits s own loc n).mem := by
  refine foldl_canon (fun s x h => ?_) _ h
  split
  · exact h
  · exact foldl_canon (fun _ _ h => setChangeBit_canon _ _ h) _ h

@[simp] theorem homeWrite_canon {s} (own all loc bs) (h : Canon s.mem) : Canon (homeWrite s own all loc bs).mem := by
  simp [homeWrite, h]

@[simp] theorem homeStore_canon {s} (loc bs) (h : Canon s.mem) : Canon (homeStore s loc bs).mem := homeWrite_canon _ _ _ _ h

@[simp] theorem performVersioned_canon {s} (a) (h : Canon s.mem) : Canon (performVersioned s a).mem := by
  unfold performVersioned
  dsimp only
  split
  · simp [h]
  · split
    · simp [h]
    · simp [h]
    · split <;> simp [h]

@[simp] theorem performTicket_canon {s} (a) (h : Canon s.mem) : Canon (performTicket s a).mem := by
  unfold performTicket
  dsimp only
  split
  · simp [h]
  · split <;> simp [h]

@[simp] theorem atomicStep_canon {s} (a) (h : Canon s.mem) : Canon (atomicStep s a).1.mem := by
  unfold atomicStep
  dsimp only
  simp [h]

@[simp] theorem homeStep_canon {s} (a) (h : Canon s.mem) : Canon (homeStep s a).1.mem := by
  unfold homeStep
  split <;> simp [h]

@[simp] theorem performSlot_canon {s} (a listed) (h : Canon s.mem) : Canon (performSlot s a listed).mem := by
  unfold performSlot
  dsimp only
  split
  · simp [deviceEvent_mem, raise_mem, h]
  · simp [h]

@[simp] theorem performAccess_canon {s} (a) (h : Canon s.mem) : Canon (performAccess s a).mem := by
  unfold performAccess
  split
  · simp [h]
  · split
    · simp [h]
    · split
      case h_6 => split <;> simp [h]
      all_goals simp [h]

@[simp] theorem steerServe_canon {s} (a) (h : Canon s.mem) : Canon (steerServe s a).mem := by
  unfold steerServe
  split <;> simp [h]

@[simp] theorem reachHome_canon {s} (a) (h : Canon s.mem) : Canon (reachHome s a).mem := by
  unfold reachHome
  repeat' split
  all_goals simp [h]

@[simp] theorem propagateAccess_canon {s} (a) (h : Canon s.mem) : Canon (propagateAccess s a).mem := by
  unfold propagateAccess
  repeat' split
  all_goals simp [h]

@[simp] theorem performNext_canon {s} (a) (h : Canon s.mem) : Canon (performNext s a).mem := by
  unfold performNext
  repeat' split
  all_goals simp [h]

@[simp] theorem mtServe_canon {s} (l c m p t) (h : Canon s.mem) : Canon (mtServe s l c m p t).mem := by
  unfold mtServe
  dsimp only
  split
  · simp [raise_mem, h]
  · split
    · simp [h]
    · split
      · simp [raiseRead_mem, h]
      · split <;> simp [h]

@[simp] theorem servePort_canon {s} (c m bank p) (h : Canon s.mem) : Canon (servePort s c m bank p).mem := by
  unfold servePort
  split
  · split <;> simp [h]
  · split <;> simp [h]

@[simp] theorem writeSpan_canon {s} (xs bs) (h : Canon s.mem) : Canon (writeSpan s xs bs).mem := by
  induction xs generalizing s bs with
  | nil => exact h
  | cons x xs ih => exact ih _ (homeStore_canon _ _ h)

theorem ctxWrite_canon {s ctx va bs} (h : Canon s.mem) : ∀ t ∈ ctxWrite s ctx va bs, Canon t.mem := by
  simp [ctxWrite, h]

@[simp] theorem giveStatus_canon {s} (ctx q seq st grant) (h : Canon s.mem) : Canon (giveStatus s ctx q seq st grant).mem := by
  unfold giveStatus
  split
  · exact h
  · dsimp only
    split
    · simp [h]
    · split
      · next hw => simpa using ctxWrite_canon h _ hw
      · simp [deviceEvent_mem, h]

@[simp] theorem writeTile_canon {s} (c t tag bs) (h : Canon s.mem) : Canon (writeTile s c t tag bs).mem := by
  simp [writeTile, h]

@[simp] theorem writeWeight_canon {s} (c off bs) (h : Canon s.mem) : Canon (writeWeight s c off bs).mem := by
  simp [writeWeight, h]

@[simp] theorem copySink_canon {s} (g o bs) (h : Canon s.mem) : Canon (copySink s g o bs).mem := by
  unfold copySink
  repeat' split
  all_goals simp [h]

@[simp] theorem runCopies_canon {s} (g os) (h : Canon s.mem) : Canon (runCopies g os s).mem := by
  induction os generalizing s with
  | nil => simp [runCopies, h]
  | cons o os ih =>
    unfold runCopies
    split
    · simp [h]
    · exact ih (copySink_canon _ _ _ h)

@[simp] theorem startCopy_canon {f s g} (h : Canon s.mem) : StartMem Canon (startCopy f s g) := by
  unfold startCopy
  dsimp only
  split
  · simp
  · split <;> simp [h]

@[simp] theorem startCopyc_canon {f s g} (h : Canon s.mem) : StartMem Canon (startCopyc f s g) := by
  unfold startCopyc
  dsimp only
  split
  · simp
  · split <;> simp [h]

@[simp] theorem remoteAnswer_canon {s} (g r) (h : Canon s.mem) : Canon (remoteAnswer s g r).mem := by
  unfold remoteAnswer
  dsimp only
  split
  · simp [h]
  · simp [raise_mem, h]
  · split <;> simp [h]

@[simp] theorem startTld_canon {f s g} (h : Canon s.mem) : StartMem Canon (startTld f s g) := by
  unfold startTld
  dsimp only
  split
  · simp
  · refine startMem_ite (by simp) ?_
    split
    · simp
    · exact startMem_landed (writeTile_canon _ _ _ _ h)

@[simp] theorem startTclr_canon {f s g} (h : Canon s.mem) : StartMem Canon (startTclr f s g) := by
  unfold startTclr
  split
  · simp
  · exact startMem_landed (writeTile_canon _ _ _ _ h)

@[simp] theorem startMldb_canon {f s g} (h : Canon s.mem) : StartMem Canon (startMldb f s g) := by
  unfold startMldb
  dsimp only
  generalize 0xC00000 = size -- as a numeral, it is unfolded when the branches are split
  split
  · simp
  · split
    · simp
    · split
      · simp
      · split
        · simp
        · exact startMem_landed (writeWeight_canon _ _ _ h)

@[simp] theorem startSpld_canon {f s g} (h : Canon s.mem) : StartMem Canon (startSpld f s g) := by
  unfold startSpld
  dsimp only
  generalize 0xC00000 = size
  split
  · simp
  · split
    · simp
    · split
      · simp
      · split
        · simp
        · exact startMem_landed (by simp [h])

@[simp] theorem startNormTile_canon {s g x t} (h : Canon s.mem) : StartMem Canon (startNormTile s g x t) := by
  simp only [startNormTile, startMem_go, endClaims_mem, landedWith_mem]
  exact foldl_canon (fun _ _ h => writeTile_canon _ _ _ _ h) _ h

@[simp] theorem startMnorm_canon {f s g} (h : Canon s.mem) : StartMem Canon (startMnorm f s g) := by
  unfold startMnorm
  dsimp only
  split
  · simp
  · repeat' refine startMem_ite ?_ ?_
    all_goals simp [h]

@[simp] theorem resultTile_canon {s} (c d v) (h : Canon s.mem) : Canon (resultTile s c d v).mem :=
  foldl_canon (fun _ _ h => by simp [h]) _ h

@[simp] theorem zeroCore_canon {s} (c) (h : Canon s.mem) : Canon (zeroCore s c).mem := zeroOwn_wf c h

@[simp] theorem fillArea_canon {s} (d parts held) (h : Canon s.mem) : Canon (fillArea s d parts held).mem := by
  unfold fillArea
  split
  · exact h
  · exact rawStore_canon _ _ (foldl_canon (fun _ _ h => rawStore_canon _ _ h) _ h)

@[simp] theorem wipeArea_canon {s} (d) (h : Canon s.mem) : Canon (wipeArea s d).mem := by
  unfold wipeArea
  split
  · exact h
  · exact memZero_wf _ _ (memZero_wf _ _ h)

@[simp] theorem dropSide_canon {s} (d slot other) (h : Canon s.mem) : Canon (dropSide s d slot other).mem := by
  unfold dropSide
  dsimp only
  rw [serveClasses_mem, modDie_mem]
  split
  · split <;> simp [h]
  · exact h

@[simp] theorem closeSession_canon {s} (a o) (h : Canon s.mem) : Canon (closeSession s a o).mem := by
  unfold closeSession
  split <;> simp [h]

@[simp] theorem roundsOver_canon {s} (a o n sz conf) (h : Canon s.mem) : Canon (roundsOver s a o n sz conf).mem := by
  unfold roundsOver
  split <;> simp [h]

@[simp] theorem fillBoth_canon {s} (a o sa sb p q fa fb) (h : Canon s.mem) : Canon (fillBoth s a o sa sb p q fa fb).mem := by
  unfold fillBoth
  dsimp only
  split
  · split <;> simp [h]
  · simp [h]

@[simp] theorem commitBoth_canon {s s1 : State} (a o wa wb ca cb stat) (h : Canon s.mem) (h1 : Canon s1.mem) :
    Canon (commitBoth s s1 a o wa wb ca cb stat).mem := by
  unfold commitBoth
  split
  · simp [h]
  · simp [h]
  · dsimp only
    split <;> simp [h1]

@[simp] theorem reconRound_canon {s} (a o x) (h : Canon s.mem) : Canon (reconRound s a o x).mem := by
  unfold reconRound
  split
  · simp [h]
  · simp [h]
  · dsimp only
    split
    · simp [h]
    · simp [h]
    · split
      · simp [h]
      · simp [h]
    · simp [h]

@[simp] theorem chiselDone_canon {s g k} (h : Canon s.mem) : ∀ t ∈ chiselDone s g k, Canon t.mem := by
  unfold chiselDone
  split
  · simp [h]
  · next a _ =>
    extract_lets o quiet res close ended leave
    have hclose (s) (h : Canon s.mem) : Canon (close s).mem := by
      refine closeSession_canon _ _ ?_
      cases o <;> simpa using h
    have hleave (s) (h : Canon s.mem) : Canon (leave s).mem := dropSide_canon _ _ _ (by simpa using h)
    split
    · split <;> simp [hclose, h]
    · split
      · split <;> simp [hleave, h]
      · split
        · simp
        · split
          · simp [hclose, h]
          · split <;> simp [hleave, h]
    · simp [h]

@[simp] theorem startCommand_canon {s l g} (h : Canon s.mem) : StartMem Canon (startCommand s l g) := by
  unfold startCommand
  split <;> simp [h]

@[simp] theorem dropSides_canon {s} (gone) (h : Canon s.mem) : Canon (dropSides s gone).mem :=
  foldl_canon (fun _ _ h => foldl_canon (fun _ _ h => dropSide_canon _ _ _ (by simp [h])) _ h) _ h

theorem answerEach_mem {α : Type} (xs : List (Asker × α)) (s : State) :
    (xs.foldl (fun s x => answer s x.1 0) s).mem = s.mem := foldl_mem (fun _ _ => answer_mem ..) ..

theorem stopCores_mem (cs : List CoreId) (s : State) : (cs.foldl (fun s c => modCore s c stoppedCore) s).mem = s.mem :=
  foldl_mem (fun _ _ => modCore_mem ..) ..

@[simp] theorem takeDown_canon {s} (l) (h : Canon s.mem) : Canon (takeDown s l).mem := by
  have h0 (gone) : Canon (dropSides (dropRestored s l) gone).mem := dropSides_canon _ (by simpa using h)
  simp only [takeDown, serveClasses_mem, modLaunch_mem, answerEach_mem, forgetAskers_mem, stopCores_mem, h0]

@[simp] theorem loadCore_canon {s} (x m id e) (h : Canon s.mem) : Canon (loadCore x m id s e).mem :=
  foldSet_wf _ _ (zeroCore_canon _ (by simp [h]))

@[simp] theorem resumeLaunch_canon {s} (x k l) (h : Canon s.mem) : Canon (resumeLaunch s x k l).mem := by
  have hl : Canon ((k.cores.zip k.mem).foldl (loadCore x (k.launch.cores.zip l.cores) l.id) s).mem :=
    foldl_canon (fun _ _ h => loadCore_canon _ _ _ _ h) _ h
  unfold resumeLaunch
  dsimp only
  split <;> simpa using hl

@[simp] theorem endSides_canon {s} (x k) (h : Canon s.mem) : Canon (endSides s x k).mem := dropSides_canon _ h

@[simp] theorem endHeld_canon {s} (x k st f) (h : Canon s.mem) : Canon (endHeld s x k st f).mem := by
  unfold endHeld
  dsimp only
  refine giveStatus_canon _ _ _ _ _ ?_
  split <;> simp [h]

@[simp] theorem restoreFrom_canon {s} (x k bs a) (h : Canon s.mem) : Canon (restoreFrom s x k bs a).mem := by
  unfold restoreFrom
  dsimp only
  split
  · rw [answer_mem]
    exact endHeld_canon _ _ _ _ h
  · exact h

theorem takePlace_canon {s n lo hi align len p} (h : Canon s.mem) : ∀ t ∈ takePlace s n lo hi align len p, Canon t.2.mem := by
  simp only [takePlace, Option.mem_def, Option.map_eq_some_iff]
  rintro _ ⟨base, -, rfl⟩
  exact memZero_wf _ _ h

theorem newTable_canon {s n ctx} (h : Canon s.mem) : ∀ t ∈ newTable s n ctx, Canon t.2.mem := takePlace_canon h

@[simp] theorem putEntry_canon {s} (page i e) (h : Canon s.mem) : Canon (putEntry s page i e).mem := rawStore_canon _ _ h

theorem nextTable_canon {s n ctx page i} (h : Canon s.mem) : ∀ t ∈ nextTable n ctx page i s, Canon t.2.mem := by
  unfold nextTable
  dsimp only
  split
  · split <;> simp [h]
  · simp only [Option.mem_def, Option.map_eq_some_iff]
    rintro _ ⟨r, hr, rfl⟩
    exact putEntry_canon _ _ _ (newTable_canon h _ hr)

theorem makeTables_canon {s n ctx va level l page} (h : Canon s.mem) :
    ∀ t ∈ makeTables n ctx va level l page s, Canon t.2.mem := by
  induction l generalizing s page with
  | zero => unfold makeTables; split <;> simp [h]
  | succ l ih =>
    unfold makeTables
    split
    · simp [h]
    · simp only [Option.mem_def, Option.bind_eq_some_iff]
      rintro t ⟨r, hr, ht⟩
      exact ih (nextTable_canon h _ hr) _ ht

theorem newCtxPages_canon {s n maxc} (h : Canon s.mem) : ∀ t ∈ newCtxPages s n maxc, Canon t.2.2.2.mem := by
  simp only [newCtxPages, Option.mem_def, Option.bind_eq_some_iff, Option.map_eq_some_iff]
  rintro _ ⟨r, hr, v, hv, q, hq, rfl⟩
  exact takePlace_canon (takePlace_canon (newTable_canon h _ hr) _ hv) _ hq

@[simp] theorem cancelRest_canon {s} (ctx q n) (h : Canon s.mem) : Canon (cancelRest ctx q n s).mem := by
  induction n generalizing s with
  | zero => exact h
  | succ n ih =>
    unfold cancelRest
    split
    · exact h
    · dsimp only
      split
      · exact ih (giveStatus_canon _ _ _ _ _ h)
      · exact h

@[simp] theorem emptyQueues_canon {s} (ctx qs) (h : Canon s.mem) : Canon (emptyQueues ctx qs s).1.mem := by
  induction qs generalizing s with
  | nil => exact h
  | cons q qs ih =>
    unfold emptyQueues
    split
    · simp [h]
    · split
      · exact h
      · next x _ =>
        extract_lets s1 y s2
        have h1 : Canon s1.mem := by
          unfold s1
          split <;> simp [h]
        split
        · dsimp only
          split
          · exact cancelRest_canon _ _ _ h1
          · exact ih (cancelRest_canon _ _ _ h1)
        · exact cancelRest_canon _ _ _ h1

theorem putGroup_canon {s ctx va level n e j} (h : Canon s.mem) : ∀ t ∈ putGroup ctx va level n e j s, Canon t.mem := by
  induction j generalizing s with
  | zero => simp [putGroup, h]
  | succ j ih =>
    unfold putGroup
    split
    · simp
    · dsimp only
      split
      · simp
      · next ht => exact ih (putEntry_canon _ _ _ (makeTables_canon h _ ht))

theorem takeData_canon {s n ctx die csm ver cmp bits} (h : Canon s.mem) :
    ∀ t ∈ takeData s n ctx die csm ver cmp bits, Canon t.2.mem := takePlace_canon h

theorem mapOne_canon {s n ctx va len die csm ver cmp rights} (h : Canon s.mem) :
    ∀ t ∈ mapOne s n ctx va len die csm ver cmp rights, Canon t.2.mem := by
  intro t ht
  obtain ⟨size, -, hs⟩ := List.exists_of_findSome?_eq_some ht
  dsimp only at hs
  split at hs
  · cases hs
  · simp only [Option.bind_eq_some_iff, Option.map_eq_some_iff] at hs
    obtain ⟨r, hr, s1, h1, rfl⟩ := hs
    exact putGroup_canon (takeData_canon h _ hr) _ h1

theorem mapRange_canon {s ctx die csm ver cmp rights fuel va len} (h : Canon s.mem) :
    ∀ t ∈ mapRange ctx die csm ver cmp rights fuel va len s, Canon t.mem := by
  induction fuel generalizing s va len with
  | zero => simp [mapRange, h]
  | succ fuel ih =>
    unfold mapRange
    split
    · simp [h]
    · split
      · simp
      · next hm => exact ih (mapOne_canon h _ hm)

theorem checkedEntry_canon {s ctx e} (h : Canon s.mem) : ∀ t ∈ checkedEntry s ctx e, Canon t.2.mem := by
  unfold checkedEntry
  dsimp only
  split
  · simp [h]
  · split
    · split <;> simp [h]
    · split
      · simp only [Option.mem_def, Option.map_eq_some_iff]
        rintro _ ⟨r, hr, rfl⟩
        exact newTable_canon h _ hr
      · split <;> simp [h]

@[simp] theorem cancelRecord_canon {s} (x q seq) (h : Canon s.mem) : Canon (cancelRecord s x q seq).mem := by
  unfold cancelRecord
  dsimp only
  split
  · exact h
  · split
    · split
      · exact endHeld_canon _ _ _ _ h
      · simpa using h
    · simpa using h

@[simp] theorem reserveAll_canon {s} (xs) (h : Canon s.mem) : Canon (reserveAll xs s).mem := by
  induction xs generalizing s with
  | nil => exact h
  | cons x xs ih =>
    obtain ⟨n, r, len⟩ := x
    unfold reserveAll
    split
    · next ht => exact ih (takePlace_canon h _ ht)
    · exact ih h

@[simp] theorem bootState_canon {s} (h : Canon s.mem) : Canon (bootState s).mem := reserveAll_canon _ h

theorem bringUp_canon {s ok} (h : Canon s.mem) : ∀ t ∈ bringUp s ok, Canon t.mem := by
  unfold bringUp
  split
  · split
    · simp
    · simp only [Option.mem_def, Option.map_eq_some_iff]
      rintro _ ⟨im, -, rfl⟩
      exact h
  · split
    · simp
    · rintro _ ⟨⟩
      exact filter_wf _ h
  · split
    · simp
    · rintro _ ⟨⟩
      exact filter_wf _ h
  · split <;> simp [h]
  · split <;> simp [h]
  · simp [h]
  · simp [h, journal_mem]
  · split <;> simp [h]

theorem sysWrite_canon {s e image va bs} (h : Canon s.mem) : ∀ t, sysWrite s e image va bs = .inl t → Canon t.mem := by
  intro t ht
  unfold sysWrite at ht
  split at ht
  · cases ht
  · dsimp only at ht
    split at ht
    · cases ht
    · split at ht
      · cases ht
      · cases ht
        exact writeSpan_canon _ _ h

end Sys2Proof.Proofs
end

section
/-! PROOFS. The steps that change memory keep it canonical. -/

namespace Sys2Proof.Proofs
open Sys2Proof Sys2Proof.Machine Sys2Proof.Laws

theorem execMemPropagate_canon {s acc} (h : Canon s.mem) : OutMem Canon (execMemPropagate acc s) := by
  unfold execMemPropagate
  split <;> simp [h]

theorem execMemPerform_canon {s acc} (h : Canon s.mem) : OutMem Canon (execMemPerform acc s) := by
  unfold execMemPerform
  split <;> simp [h]

theorem execBankWaitWake_canon {s b} (h : Canon s.mem) : OutMem Canon (execBankWaitWake b s) := by
  unfold execBankWaitWake
  split
  · split <;> simp [h]
  · exact h

theorem execMtAccept_canon {s c m bank} (h : Canon s.mem) : OutMem Canon (execMtAccept c m bank s) := by
  unfold execMtAccept
  split <;> simp [h]

theorem execRemoteAck_canon {s c id r} (h : Canon s.mem) : OutMem Canon (execRemoteAck c id r s) := by
  unfold execRemoteAck
  split
  · simp [h]
  · exact h

theorem execVectorResult_canon {s c n} (h : Canon s.mem) : OutMem Canon (execVectorResult c n s) := by
  unfold execVectorResult
  split
  · exact h
  · split
    · exact h
    · split
      · exact h
      · split
        · exact h
        · split
          · simp [h]
          · split
            · split
              · exact h
              · split
                · next hr => simpa [resultMem_mem _ hr] using h
                · simp [h]
            · dsimp only
              split
              · exact h
              · split <;> simp [h]

theorem execLaunchLoad_canon {s launch} (h : Canon s.mem) : OutMem Canon (execLaunchLoad launch s) := by
  unfold execLaunchLoad
  split
  · exact h
  · split
    · exact h
    · split
      · exact h
      · split
        · simp [raiseRead_mem, h]
        · split
          · simp [h]
          · simp only [outMem_next, startLaunch_mem, modLaunch_mem]
            exact foldl_canon (fun _ _ h => by simp [h]) _ h

theorem execRecordCandidate_canon {s ctx q} (h : Canon s.mem) : OutMem Canon (execRecordCandidate ctx q s) := by
  unfold execRecordCandidate
  split
  · exact h
  · dsimp only
    split
    · exact h
    · split
      · simp [h]
      · split
        · exact h
        · split
          · simp [h]
          · exact giveStatus_canon _ _ _ _ _ (by simp [deviceEvent_mem, h])
          · simp [h]

theorem execDependenceResolve_canon {s ctx q} (h : Canon s.mem) : OutMem Canon (execDependenceResolve ctx q s) := by
  unfold execDependenceResolve
  split
  · exact h
  · dsimp only
    split
    · exact h
    · split
      · exact h
      · split
        · exact h
        · split <;> simp [h]

theorem execAdmitLaunch_canon {s part} (h : Canon s.mem) : OutMem Canon (execAdmitLaunch part s) := by
  unfold execAdmitLaunch
  split
  · exact h
  · split
    · split
      · simp [h]
      · split <;> simp [h]
    · split <;> simp [h]

theorem execSketchRound_canon {s d peer} (h : Canon s.mem) : OutMem Canon (execSketchRound d peer s) := by
  refine onSession_mem h fun s1 a o x h1 => ?_
  rw [← h1] at h
  split
  · simp [h]
  · split <;> simp [h]

theorem execSessionPair_canon {s d slot peer} (h : Canon s.mem) : OutMem Canon (execSessionPair d slot peer s) := by
  unfold execSessionPair
  split
  · exact h
  · split
    · exact h
    · split
      · exact h
      · next o _ =>
        cases o with
        | here b =>
          dsimp only
          split
          · exact h
          · split <;> simp [h]
        | beyond q =>
          dsimp only
          split
          · exact h
          · split <;> simp [h]

theorem execSessionAbort_canon {s d} (h : Canon s.mem) : OutMem Canon (execSessionAbort d s) := by
  unfold execSessionAbort
  split
  · exact h
  · exact dropSide_canon _ _ _ (by simp [h])

theorem execEngineCommandStart_canon {s c id} (h : Canon s.mem) : OutMem Canon (execEngineCommandStart c id s) := by
  unfold execEngineCommandStart
  split
  · exact h
  · split
    · exact h
    · next g _ _ l _ =>
      have hg := startCommand_canon (l := l) (g := g) h
      split
      · exact h
      · split
        · simp [h]
        · split
          · exact h
          · split
            · exact h
            · simp [h]
            · next hs =>
              rw [hs, startMem_go] at hg
              split
              · simp [h]
              · split <;> simp [h, hg]

theorem execEngineCommandComplete_canon {s c id} (h : Canon s.mem) : OutMem Canon (execEngineCommandComplete c id s) := by
  unfold execEngineCommandComplete
  split
  · exact h
  · split
    · exact h
    · split
      · split <;> simp [h]
      · split
        · split
          · split
            · next hd => simpa using chiselDone_canon h _ hd
            · exact h
          · simp [h]
        · exact h

theorem execLaunchTeardown_canon {s launch} (h : Canon s.mem) : OutMem Canon (execLaunchTeardown launch s) := by
  unfold execLaunchTeardown
  split
  · exact h
  · split <;> simp [h]

theorem execStatusWrite_canon {s launch} (h : Canon s.mem) : OutMem Canon (execStatusWrite launch s) := by
  unfold execStatusWrite
  split
  · exact h
  · split
    · split
      · exact h
      · simp only [outMem_next, modLaunch_mem]
        refine giveStatus_canon _ _ _ _ _ ?_
        split <;> simp [h]
    · exact h

theorem execStatusHeldWrite_canon {s ctx q} (h : Canon s.mem) : OutMem Canon (execStatusHeldWrite ctx q s) := by
  unfold execStatusHeldWrite
  split
  · exact h
  · dsimp only
    split
    · split <;> simp [h]
    · exact h

theorem execRestoreResume_canon {s ctx} (h : Canon s.mem) : OutMem Canon (execRestoreResume ctx s) := by
  unfold execRestoreResume
  split
  · exact h
  · split
    · split
      · split <;> simp [h]
      · exact h
    · exact h

theorem execRmaWrite_canon {s job va data} (h : Canon s.mem) : OutMem Canon (execRmaWrite job va data s) := by
  unfold execRmaWrite
  split
  · exact h
  · split
    · simp [h]
    · split
      · simp [h]
      · split
        · simp [h]
        · split <;> simp [h]

theorem execCmdCtxnew_canon {s k} (h : Canon s.mem) : OutMem Canon (execCmdCtxnew k s) := by
  refine cmdRun_mem h fun rest => ?_
  dsimp only
  split
  · simp
  · split
    · simp
    · split
      · simp
      · next hp => exact newCtxPages_canon (s := { s with cmds := rest }) h _ hp

theorem execCmdCtxdel_canon {s k} (h : Canon s.mem) : OutMem Canon (execCmdCtxdel k s) := by
  refine cmdCtx_mem h fun rest x => ?_
  have he : Canon (emptyQueues x.n (List.finRange 16) (cancelAll { s with cmds := rest } x.n)).1.mem := emptyQueues_canon _ _ h
  dsimp only
  split <;> simpa using he

theorem execCmdMap_canon {s k} (h : Canon s.mem) : OutMem Canon (execCmdMap k s) := by
  refine cmdCtx_mem h fun rest x => ?_
  dsimp only
  split
  · simp
  · split
    · simp
    · split
      · simp
      · next hm => exact mapRange_canon (s := { s with cmds := rest }) h _ hm

theorem execCmdPtset_canon {s k} (h : Canon s.mem) : OutMem Canon (execCmdPtset k s) := by
  refine cmdCtx_mem h fun rest x => ?_
  dsimp only
  split
  · simp
  · split
    · next he => simpa using putEntry_canon _ _ _ (checkedEntry_canon (s := { s with cmds := rest }) h _ he)
    · simp

theorem execCmdCancel_canon {s k} (h : Canon s.mem) : OutMem Canon (execCmdCancel k s) := by
  refine cmdCtx_mem h fun rest x => ?_
  split <;> simp [h]

theorem execCmdRestore_canon {s k} (h : Canon s.mem) : OutMem Canon (execCmdRestore k s) := by
  refine cmdCtx_mem h fun rest x => ?_
  dsimp only
  split
  · simp
  · split
    · simp
    · split
      · simp [h]
      · split
        · simp
        · split
          · simp
          · split <;> simp [h]

theorem execPowerOnReset_canon {s} : OutMem Canon (execPowerOnReset s) := rfl

theorem execBringUpStep_canon {s ok} (h : Canon s.mem) : OutMem Canon (execBringUpStep ok s) := by
  unfold execBringUpStep
  split
  · exact h
  · split
    · next hb => simpa using bringUp_canon h _ hb
    · exact h

theorem execCoreResetDone_canon {s c} (h : Canon s.mem) : OutMem Canon (execCoreResetDone c s) := by
  unfold execCoreResetDone
  split <;> simp [h]

theorem execCtxsv_canon {s f} (h : Canon s.mem) : OutMem Canon (execCtxsv f s) := by
  refine sysWord_mem h fun e b => ?_
  dsimp only
  split
  · simp
  · split
    · simp
    · split
      · simp
      · split
        · simp [h]
        · next hw => simpa using sysWrite_canon h _ hw

theorem execCtxld_canon {s f} (h : Canon s.mem) : OutMem Canon (execCtxld f s) := by
  refine sysWord_mem h fun e b => ?_
  dsimp only
  split
  · simp
  · split
    · simp
    · split
      · simp
      · split
        · exact sysAsk_mem fun t a ht => by simp [ht, h]
        · split
          · simp
          · split
            · simp [h]
            · split
              · simp
              · split
                · simp [h]
                · exact sysAsk_mem fun t a ht => restoreFrom_canon _ _ _ _ (by simpa [ht] using h)

theorem execAttest_canon {s f} (h : Canon s.mem) : OutMem Canon (execAttest f s) := by
  refine sysWord_mem h fun e b => ?_
  dsimp only
  split
  · simp
  · split
    · simp
    · split
      · simp
      · split
        · simp [h]
        · split
          · simp [h]
          · next hw => simpa using sysWrite_canon h _ hw

end Sys2Proof.Proofs
end

section
/-! PROOFS. Which instructions change memory, and that every step keeps it canonical. -/

namespace Sys2Proof.Proofs
open Sys2Proof Sys2Proof.Machine Sys2Proof.Laws

/-- The instructions whose steps may change memory; every other leaves it as it is (`exec_mem`). -/
def writesMemory : Instr → Bool
  | .ctxsv .. | .ctxld .. | .attest .. | .memPropagate .. | .memPerform .. | .bankWaitWake .. | .mtAccept ..
  | .engineCommandStart .. | .engineCommandComplete .. | .vectorResult .. | .sessionPair .. | .sketchRound ..
  | .sessionAbort .. | .recordCandidate .. | .dependenceResolve .. | .admitLaunch .. | .launchLoad .. | .statusWrite ..
  | .statusHeldWrite .. | .launchTeardown .. | .restoreResume .. | .rmaWrite .. | .remoteAck .. | .cmdCtxnew ..
  | .cmdCtxdel .. | .cmdMap .. | .cmdPtset .. | .cmdCancel .. | .cmdRestore .. | .powerOnReset | .bringUpStep ..
  | .coreResetDone .. => true
  | _ => false

theorem exec_mem {i : Instr} (s : State) (h : writesMemory i = false) : OutMem (· = s.mem) (exec i s) := by
  unfold exec
  cases i with
  | add _ | sub _ | mul _ | mulh _ | div _ | rem _ | and _ | or _ | xor _ | andn _ | shl _ | shr _ | sar _ | min _
  | max _ => exact execInt2_mem ..
  | addi _ | muli _ | andi _ | ori _ | xori _ | shli _ | shri _ | sari _ => exact execIntI_mem ..
  | clz _ | popc _ => exact execInt1_mem ..
  | bfx _ | bfi _ | cmp _ | cmpi _ | mov _ | movi _ => exact execValue_mem ..
  | fadd _ | fsub _ | fmul _ | fma _ | fmin _ | fmax _ | frcp _ | frsq _ | fexp2 _ | flog2 _ | frnd _ =>
    exact execFp_mem ..
  | cvt _ | cvts _ => exact execConvert_mem ..
  | sspec _ | sarm _ | copy _ | copyc _ | tld _ | tst _ | tclr _ | mldb _ | spld _ | mma _ | mnorm _ | gload _
  | gbind _ | gfree _ | gqry _ | skbld _ | skxch _ | sksub _ | skpeel _ | skrecon _ | skfix _ => exact engWord_mem ..
  | gstart _ | gstop _ | gmask _ | gfeed _ | gstat _ => exact grmWord_mem ..
  | fcmp _ | fsgn _ | fcls _ | merge _ | mark _ | bnd _ | cturn _ | ret _ | jtab _ | barw _ | seqwt _ | cntrd _ =>
    refine runWord_mem rfl fun e => ?_
    dsimp only
    repeat' split
    all_goals simp
  | selt _ | tagchk _ | pushp _ | popp _ | void _ =>
    refine flowWord_mem fun e f => ?_
    simp
  | steer _ | emit _ | acc _ =>
    refine flowWord_mem fun e f => ?_
    dsimp only
    repeat' split
    all_goals simp
  | gate _ | tagset _ =>
    refine flowWord_mem fun e f => ?_
    repeat' split
    all_goals simp
  | sphdr _ | isect _ => exact streamStep_mem ..
  | ld _ | ldi _ | st _ | sti _ | stv _ | advv _ | reclv _ | append _ | ticket _ | fence _ | shape _ =>
    refine memWord_mem rfl fun e xs => ?_
    repeat' split
    all_goals simp
  | atom _ | cas _ | gath _ | scat _ =>
    refine memWord_mem rfl fun e xs => ?_
    dsimp only
    repeat' split
    all_goals simp
  | br _ | call _ | tend _ | wait _ | trap _ | nop _ =>
    refine runWord_mem rfl fun e => ?_
    simp
  | brc _ | done _ | gskip _ =>
    refine runWord_mem rfl fun e => ?_
    repeat' split
    all_goals simp
  | freeze _ | rmark _ =>
    refine sysWord_mem rfl fun e b => ?_
    simp
  | tlbi _ | jrnl _ | sret _ =>
    refine sysWord_mem rfl fun e b => ?_
    dsimp only
    repeat' split
    all_goals simp
  | chtabUpdate _ _ | peFire _ _ | ctrlPost _ _ | tapItem _ _ | messageAccept _ | engineCommandAccept _ _
  | vectorAccept _ _ | rangeServe _ _ | stageAppend _ _ | teamEnd _ _ | coreReturn _ | watchdog _
  | elementDrainFreeze _ _ | drainComplete _ | drainTimeout _ | freezeComplete _ | rmaRead _ _ _ | cpsemLeaseExpiry
  | scrub _ _ =>
    show OutMem _ (.next _)
    repeat' split
    all_goals simp
  | flagsClear _ _ | amaxWrite _ _ | cntWrite _ _ | stvDeadlock _ | continuationPost _ _ | unsupportedPacket
  | linkRetryExhausted _ =>
    show OutMem _ (.next _)
    split <;> simp
  | idxdropRead _ _ _ | pstatRead _ _ _ _ | skstatRead _ _ _ | waitStoreResend _ => exact rfl
  | mtResponse _ _ _ | routerHop _ _ _ _ | controlHop _ _ _ _ | ringStep _ _ | queueEnlarge _ | agEmit _ _
  | agWalkEnd _ _ | parseStep _ _ | recoveryDiscard _ _ | actionFire _ _ | gateRelease _ _ | taskStart _
  | followOnMmaIssue _ _ | commandAccept _ _ _ _ _ _ _ =>
    show OutMem _ (.next _)
    dsimp only
    repeat' split
    all_goals simp
  | cmdNop _ | cmdDevid _ | cmdDevstat _ =>
    refine cmdRun_mem rfl fun rest => ?_
    simp
  | cmdAttest _ | cmdFreeze _ | cmdDrain _ =>
    refine cmdCtx_mem rfl fun rest x => ?_
    simp
  | cmdJread _ | cmdTlbi _ | cmdSlots _ | cmdKeyset _ | cmdJobset _ | cmdPeerset _ | cmdSysrt _ =>
    refine cmdRun_mem rfl fun rest => ?_
    dsimp only
    repeat' split
    all_goals simp
  | cmdCtxset _ | cmdQnew _ | cmdFwupd _ =>
    refine cmdCtx_mem rfl fun rest x => ?_
    repeat' split
    all_goals simp
  | cmdQset _ | cmdEnq _ | cmdClsreg _ | cmdClsfree _ =>
    refine cmdCtx_mem rfl fun rest x => ?_
    dsimp only
    repeat' split
    all_goals simp
  | cmdPart _ | cmdHaltc _ =>
    refine cmdRun_mem rfl fun rest => ?_
    repeat' split
    all_goals simp
  | ldv _ => exact execLdv_mem ..
  | tpost _ => exact execTpost_mem ..
  | msend _ => exact execMsend_mem ..
  | bara _ => exact execBara_mem ..
  | gbar _ => exact execGbar_mem ..
  | mfs _ => exact execMfs_mem ..
  | mts _ => exact execMts_mem ..
  | range _ => exact execRange_mem ..
  | cfgld _ => exact execCfgld_mem ..
  | sema _ => exact execSema_mem ..
  | haltc _ => exact execHaltc_mem ..
  | pgver _ => exact execPgver_mem ..
  | partset _ => exact execPartset_mem ..
  | chtabWrite _ _ _ => exact execChtabWrite_mem ..
  | sksizeWrite _ _ _ => exact execSksizeWrite_mem ..
  | registerWrite _ _ _ => exact execRegisterWrite_mem ..
  | pageWalk _ => exact execPageWalk_mem ..
  | barrierRelease _ _ => exact execBarrierRelease_mem ..
  | sessionFallback _ _ => exact execSessionFallback_mem ..
  | pageCheckComplete _ => exact execPageCheckComplete_mem ..
  | cmdSema _ => exact execCmdSema_mem ..
  | cmdCfg _ => exact execCmdCfg_mem ..
  | thermalStepDown _ _ => exact execThermalStepDown_mem ..
  | thermalStepUp _ _ => exact execThermalStepUp_mem ..
  | thermalTrip _ _ => exact execThermalTrip_mem ..
  | _ => cases h

theorem exec_canon {i : Instr} {s : State} (h : Canon s.mem) : OutMem Canon (exec i s) := by
  cases hw : writesMemory i with
  | false => exact OutMem.mono (exec_mem s hw) fun _ e => e ▸ h
  | true =>
    cases i with
    | ctxsv _ => exact execCtxsv_canon h
    | ctxld _ => exact execCtxld_canon h
    | attest _ => exact execAttest_canon h
    | memPropagate _ => exact execMemPropagate_canon h
    | memPerform _ => exact execMemPerform_canon h
    | bankWaitWake _ => exact execBankWaitWake_canon h
    | mtAccept _ _ _ => exact execMtAccept_canon h
    | engineCommandStart _ _ => exact execEngineCommandStart_canon h
    | engineCommandComplete _ _ => exact execEngineCommandComplete_canon h
    | vectorResult _ _ => exact execVectorResult_canon h
    | sessionPair _ _ _ => exact execSessionPair_canon h
    | sketchRound _ _ => exact execSketchRound_canon h
    | sessionAbort _ => exact execSessionAbort_canon h
    | recordCandidate _ _ => exact execRecordCandidate_canon h
    | dependenceResolve _ _ => exact execDependenceResolve_canon h
    | admitLaunch _ => exact execAdmitLaunch_canon h
    | launchLoad _ => exact execLaunchLoad_canon h
    | statusWrite _ => exact execStatusWrite_canon h
    | statusHeldWrite _ _ => exact execStatusHeldWrite_canon h
    | launchTeardown _ => exact execLaunchTeardown_canon h
    | restoreResume _ => exact execRestoreResume_canon h
    | rmaWrite _ _ _ => exact execRmaWrite_canon h
    | remoteAck _ _ _ => exact execRemoteAck_canon h
    | cmdCtxnew _ => exact execCmdCtxnew_canon h
    | cmdCtxdel _ => exact execCmdCtxdel_canon h
    | cmdMap _ => exact execCmdMap_canon h
    | cmdPtset _ => exact execCmdPtset_canon h
    | cmdCancel _ => exact execCmdCancel_canon h
    | cmdRestore _ => exact execCmdRestore_canon h
    | powerOnReset => exact execPowerOnReset_canon
    | bringUpStep _ => exact execBringUpStep_canon h
    | coreResetDone _ => exact execCoreResetDone_canon h
    | _ => cases hw

theorem writesMemory_word {i w} (hw : encode i = some w) (hno : ∀ f, i ≠ .ctxsv f ∧ i ≠ .ctxld f ∧ i ≠ .attest f) :
    writesMemory i = false := by
  cases i with
  | ctxsv f => exact absurd rfl (hno f).1
  | ctxld f => exact absurd rfl (hno f).2.1
  | attest f => exact absurd rfl (hno f).2.2
  | memPropagate _ | memPerform _ | bankWaitWake _ | mtAccept _ _ _ | engineCommandStart _ _
  | engineCommandComplete _ _ | vectorResult _ _ | sessionPair _ _ _ | sketchRound _ _ | sessionAbort _
  | recordCandidate _ _ | dependenceResolve _ _ | admitLaunch _ | launchLoad _ | statusWrite _ | statusHeldWrite _ _
  | launchTeardown _ | restoreResume _ | rmaWrite _ _ _ | remoteAck _ _ _ | cmdCtxnew _ | cmdCtxdel _ | cmdMap _
  | cmdPtset _ | cmdCancel _ | cmdRestore _ | powerOnReset | bringUpStep _ | coreResetDone _ => cases hw
  | _ => rfl

/-- Settles O59: of the instructions whose steps change memory, only CTXSV, CTXLD and ATTEST are words; a step of any other
instruction leaves memory as it is. -/
theorem wordsStoreNothing : Obligations.WordsStoreNothing := by
  unfold Obligations.WordsStoreNothing
  intro i w s t hw he hno
  have hi := exec_mem s (writesMemory_word hw hno)
  rwa [he] at hi

theorem step_canon {s} (h : Canon s.mem) : OutMem Canon (step s) := by
  have h1 : Canon (takeMove s).2.mem := by rwa [takeMove_mem]
  unfold step
  dsimp only
  split
  · trivial
  · have h2 : Canon (beginMove (takeMove s).1 (takeMove s).2).1.mem := by rwa [beginMove_mem]
    split
    · next hb =>
      rw [hb] at h2
      exact exec_canon h2
    · next hb =>
      rw [hb] at h2
      exact h2

/-- Settles O58: every instruction keeps memory canonical, and choosing and fetching the next one leaves memory as it is. -/
theorem stepKeepsMemoryCanonical : Obligations.StepKeepsMemoryCanonical := by
  unfold Obligations.StepKeepsMemoryCanonical
  intro s t h hs
  have ht := step_canon h
  rwa [hs] at ht

end Sys2Proof.Proofs
end

section
/-! PROOFS. What performing an access does to memory and to its register. -/

namespace Sys2Proof.Proofs
open Sys2Proof Sys2Proof.Machine Sys2Proof.Laws

/-! ## Numbers in bytes -/

theorem natLE_lt (bs : List Byte) : natLE bs < 2 ^ (8 * bs.length) := by
  induction bs with
  | nil => exact Nat.one_pos
  | cons b bs ih =>
    have hb := b.isLt
    rw [natLE, List.length_cons, Nat.mul_succ, Nat.pow_add]
    omega

theorem natLE_bytesLE (n v : Nat) : natLE (bytesLE n v) = v % 2 ^ (8 * n) := by
  induction n generalizing v with
  | zero => rw [Nat.mul_zero, Nat.pow_zero, Nat.mod_one, bytesLE, natLE]
  | succ n ih =>
    rw [bytesLE, natLE, ih, BitVec.toNat_ofNat, Nat.mul_succ, Nat.add_comm (8 * n), Nat.pow_add, Nat.mod_mul]

/-! ## Writes at the home where no class is registered -/

section
variable {s : State} {loc : Nat}

theorem setChangeBits_none (h : allClasses s = []) (own : DieId → Fin 16 → Bool) (n : Nat) :
    setChangeBits s own loc n = s := by
  rw [setChangeBits, h, List.foldl_nil]

theorem homeWrite_mem_none (h : allClasses s = []) (own : DieId → Fin 16 → Bool) (all : Bool) (bs : List Byte) :
    (homeWrite s own all loc bs).mem = memSetN s.mem loc bs := by
  have hraw : allClasses (rawStore s loc bs) = [] := h
  rw [homeWrite, wakeWrites_mem, setChangeBits_none hraw]
  rfl

/-- A change of the exception tables registers no class. -/
theorem allClasses_modExcs (d : DieId) (f : List Nat → List Nat) : allClasses (modExcs s d f) = allClasses s := by
  have hd : ∀ d', (dieAt (modExcs s d f) d').classes = (dieAt s d').classes := by
    intro d'
    rw [modExcs, dieAt_modDie]
    split
    · next hd => rw [hd]
    · rfl
  simp only [allClasses, hd]

/-- In `t` the `n` bytes at `loc` hold the number `v`, cut to their width, and every other byte is as in `s`. -/
def RangeHolds (s t : State) (loc n v : Nat) : Prop :=
  (∀ x, (x < loc ∨ loc + n ≤ x) → memGet t.mem x = memGet s.mem x) ∧ natLE (memGetN t.mem loc n) = v % 2 ^ (8 * n)

theorem rangeHolds_homeStore (hm : s.memOk) (h : allClasses s = []) (n v : Nat) :
    RangeHolds s (homeStore s loc (bytesLE n v)) loc n v := by
  have hlen := bytesLE_length n v
  have hmem : (homeStore s loc (bytesLE n v)).mem = memSetN s.mem loc (bytesLE n v) := homeWrite_mem_none h _ _ _
  constructor
  · intro x hx
    rw [hmem, memGet_memSetN_out _ _ hm (by rwa [hlen])]
  · have hread := memGetN_memSetN (bs := bytesLE n v) loc hm
    rw [hlen] at hread
    rw [hmem, hread, natLE_bytesLE]

theorem rangeHolds_self (n : Nat) : RangeHolds s s loc n (natLE (memGetN s.mem loc n)) := by
  refine ⟨fun _ _ => rfl, (Nat.mod_eq_of_lt ?_).symm⟩
  have hlt := natLE_lt (memGetN s.mem loc n)
  rwa [memGetN_length] at hlt

end

/-! ## What an atomic leaves -/

section
variable {s : State} {a : Access} (hm : s.memOk) (hc : allClasses s = [])
include hm hc

theorem atomicStep_atom (hk : a.kind = .atom) : RangeHolds s (atomicStep s a).1 a.loc a.size
    (atomNew a.aop.toNat a.size a.u (homeLoad s a.loc a.size) (a.a.toNat % 2 ^ (8 * a.size))).1 := by
  simp only [atomicStep, hk]
  exact rangeHolds_homeStore hm hc ..

theorem atomicStep_append (hk : a.kind = .append) : RangeHolds s (atomicStep s a).1 a.loc a.size
    (homeLoad s a.loc a.size + a.a.toNat % 2 ^ (8 * a.size)) := by
  simp only [atomicStep, hk]
  obtain ⟨hout, hnew⟩ := rangeHolds_homeStore (loc := a.loc) hm hc a.size
    ((homeLoad s a.loc a.size + a.a.toNat % 2 ^ (8 * a.size)) % 2 ^ (8 * a.size))
  exact ⟨hout, hnew.trans (Nat.mod_mod ..)⟩

theorem atomicStep_cas (hk : a.kind = .cas) : RangeHolds s (atomicStep s a).1 a.loc a.size
    (if homeLoad s a.loc a.size = a.a.toNat % 2 ^ (8 * a.size) then a.b.toNat else homeLoad s a.loc a.size) := by
  simp only [atomicStep, hk, lowBits]
  by_cases heq : homeLoad s a.loc a.size = a.a.toNat % 2 ^ (8 * a.size)
  · obtain ⟨hout, hnew⟩ := rangeHolds_homeStore (loc := a.loc) hm hc a.size (a.b.toNat % 2 ^ (8 * a.size))
    simp only [heq, beq_self_eq_true, if_true]
    exact ⟨hout, hnew.trans (Nat.mod_mod ..)⟩
  · simp only [heq, beq_iff_eq, if_false]
    exact rangeHolds_self ..

end

/-! ## The registers of a bank after an access -/

section
variable (s : State) (a : Access) (c : CoreId) (b : BankId)

/-- The x registers of a bank. -/
def bankX : Vector DWord 32 := (at' (coreAt s c).banks b).x

theorem bankX_modCore (c' : CoreId) (f : Core → Core) (hf : ∀ k, (at' (f k).banks b).x = (at' k.banks b).x) :
    bankX (modCore s c' f) c b = bankX s c b := by
  unfold bankX
  rw [coreAt_modCore]
  split
  · next h => rw [hf, h]
  · rfl

theorem bankX_countDown : bankX (countDown s a) c b = bankX s c b := by
  unfold countDown
  split
  · rfl
  · refine bankX_modCore _ _ _ _ _ fun k => ?_
    rw [bank_modBank]
    split
    · next h =>
      rw [h]
      split <;> rfl
    · rfl

theorem bankX_heard (launch : Nat) (c' : CoreId) : bankX (heard s launch c') c b = bankX s c b := by
  unfold heard
  split
  · exact bankX_modCore _ _ _ _ _ fun _ => rfl
  · rfl

theorem bankX_modParser (c' : CoreId) (p : ParserId) (f : Parser → Parser) :
    bankX (modCore s c' fun k => modParser k p f) c b = bankX s c b := bankX_modCore _ _ _ _ _ fun _ => rfl

theorem bankX_wordDone (c' : CoreId) (p : ParserId) (id : Nat) : bankX (wordDone s c' p id) c b = bankX s c b :=
  bankX_modParser ..

theorem bankX_progress (launch : Nat) : bankX (progress s launch) c b = bankX s c b := rfl

theorem bankX_dropAcc (id : Nat) : bankX (dropAcc s id) c b = bankX s c b := rfl

theorem bankX_finishAccess : bankX (finishAccess s a) c b = bankX s c b := by
  have hs1 : bankX (heard (progress (countDown (dropAcc s a.id) a) a.who.launch) a.who.launch a.who.core) c b = bankX s c b := by
    rw [bankX_heard, bankX_progress, bankX_countDown, bankX_dropAcc]
  unfold finishAccess
  dsimp only
  split
  · split
    · rw [bankX_modParser, bankX_wordDone, hs1]
    · rw [bankX_wordDone, hs1]
  · exact hs1

end

/-- A value that has arrived in an x register is there, extended as its access says (R284). -/
theorem readX_delivered {s : State} {a : Access} {b : BankId} {r : Fin 32} {sz : BitVec 2} {u : Bool}
    (hd : a.dest = .xreg b r sz u) (hr : r ≠ 0) (v v2 : DWord) :
    readX (at' (coreAt (finishAccess (deliver s a v v2) a) a.who.core).banks b) r = loadExt sz u v := by
  have hx : bankX (finishAccess (deliver s a v v2) a) a.who.core b = bankX (deliver s a v v2) a.who.core b :=
    bankX_finishAccess ..
  unfold bankX at hx
  rw [readX, if_neg hr, hx]
  simp only [deliver, hd, coreAt_modCore_self, bank_modBank, if_true, arriveX, hr, if_false, at_put_self]

/-! ## Performing at the home -/

/-- Performing `a` leaves `v` in the x register, other than x0, that waits for it, extended as the access says (R284). -/
def Brings (s : State) (a : Access) (v : Nat) : Prop := ∀ b r sz u, a.dest = .xreg b r sz u → r ≠ 0 →
  readX (at' (coreAt (performAccess s a) a.who.core).banks b) r = loadExt sz u (BitVec.ofNat 64 v)

section
variable {s : State} {a : Access}

/-- The kinds that perform by `homeStep`: neither a ticket nor a versioned operation. -/
def atHome : AccKind → Bool
  | .ticket | .ldv | .stv | .advv | .reclv => false
  | _ => true

/-- An access whose write is allowed and whose bytes have good check bits performs by `homeStep`. -/
theorem performAccess_home (hk : atHome a.kind = true) (hw : isWriteKind a.kind = true → onCodeLoc s a.loc = false)
    (hb : badRange s a.loc a.size = false) (hx : a.exc = none) :
    performAccess s a = finishAccess (deliver (homeStep s a).1 a (homeStep s a).2.1 (homeStep s a).2.2) a := by
  have hcode : (isWriteKind a.kind && onCodeLoc s a.loc) = false := by
    cases h : isWriteKind a.kind with
    | true => rw [hw h]; rfl
    | false => rfl
  unfold performAccess
  rw [if_neg (by rw [hcode]; decide), if_neg (by rw [hb, Bool.and_false]; decide)]
  split
  · next h => rw [h] at hk; cases hk
  · next h => rw [h] at hk; cases hk
  · next h => rw [h] at hk; cases hk
  · next h => rw [h] at hk; cases hk
  · next h => rw [h] at hk; cases hk
  · rw [hx]

theorem performAccess_home_mem (hk : atHome a.kind = true) (hw : isWriteKind a.kind = true → onCodeLoc s a.loc = false)
    (hb : badRange s a.loc a.size = false) (hx : a.exc = none) : (performAccess s a).mem = (homeStep s a).1.mem := by
  rw [performAccess_home hk hw hb hx, finishAccess_mem, deliver_mem]

theorem performAccess_home_brings (hk : atHome a.kind = true) (hw : isWriteKind a.kind = true → onCodeLoc s a.loc = false)
    (hb : badRange s a.loc a.size = false) (hx : a.exc = none) {v : Nat} (hv : (homeStep s a).2.1 = BitVec.ofNat 64 v) :
    Brings s a v := by
  intro b r sz u hd hr
  rw [performAccess_home hk hw hb hx, readX_delivered hd hr, hv]

theorem homeStep_atomic (hk : a.kind = .atom ∨ a.kind = .cas ∨ a.kind = .append) :
    homeStep s a = ((atomicStep s a).1, BitVec.ofNat 64 (homeLoad s a.loc a.size), 0) := by
  rcases hk with hk | hk | hk <;> simp only [homeStep, hk] <;> rfl

/-- An atomic leaves what its step leaves, and brings the old value. -/
theorem performAccess_atomic (hk : a.kind = .atom ∨ a.kind = .cas ∨ a.kind = .append)
    (hw : isWriteKind a.kind = true → onCodeLoc s a.loc = false) (hb : badRange s a.loc a.size = false)
    (hx : a.exc = none) {v : Nat} (hv : RangeHolds s (atomicStep s a).1 a.loc a.size v) :
    RangeHolds s (performAccess s a) a.loc a.size v ∧ Brings s a (homeLoad s a.loc a.size) := by
  have hhome : atHome a.kind = true := by rcases hk with hk | hk | hk <;> rw [hk] <;> rfl
  have hstep := homeStep_atomic (s := s) hk
  refine ⟨?_, performAccess_home_brings hhome hw hb hx (by rw [hstep])⟩
  rw [RangeHolds, performAccess_home_mem hhome hw hb hx, hstep]
  exact hv

/-- A store, in a slot of a COMPRESS page or elsewhere, leaves its data. -/
theorem performAccess_store_mem (hk : a.kind = .store) (hc : allClasses s = []) (hw : onCodeLoc s a.loc = false)
    (hb : badRange s a.loc a.size = false) (hx : a.exc = none ∨ a.exc = some false) :
    (performAccess s a).mem = memSetN s.mem a.loc a.data := by
  rcases hx with hx | hx
  · rw [performAccess_home_mem (by rw [hk]; rfl) (fun _ => hw) hb hx]
    simp only [homeStep, hk]
    exact homeWrite_mem_none hc ..
  · have hslot : performAccess s a = performSlot s a false := by
      simp only [performAccess, hk, hx, hw, hb, Bool.and_false, Bool.false_eq_true, if_false]
    have hc1 : allClasses (modExcs s (locDie a.loc) fun xs => xs.filter (· != a.loc)) = [] := by rw [allClasses_modExcs, hc]
    rw [hslot]
    simp only [performSlot, Bool.false_and, Bool.false_eq_true, if_false, finishAccess_mem, homeStep, hk]
    rw [homeWrite_mem_none hc1]
    rfl

/-- An LDV changes no record. -/
theorem verOp_ldv_reads {r : VerRec} {v : Nat} {val : Word} {o x y : DWord} {r' : Option VerRec}
    (h : verOp .ldv r v val o = .done r' x y) : r' = none := by
  unfold verOp at h
  dsimp only at h
  repeat' split at h
  all_goals cases h
  all_goals rfl

/-- An LDV leaves memory as it is: it takes a version or waits. -/
theorem performVersioned_ldv_mem (hk : a.kind = .ldv) : (performVersioned s a).mem = s.mem := by
  unfold performVersioned
  dsimp only
  split
  · rw [homeFault_mem]
  · split
    · rw [homeFault_mem]
    · rw [waitAtBank_mem]
    · next h =>
      rw [hk] at h
      rw [finishAccess_mem, deliver_mem, verOp_ldv_reads h]

theorem performAccess_ldv_mem (hk : a.kind = .ldv) : (performAccess s a).mem = s.mem := by
  unfold performAccess
  split
  · exact homeFault_mem ..
  split
  · exact readBad_mem ..
  simp only [hk]
  exact performVersioned_ldv_mem hk

end

/-- Settles O44: an access performs by `homeStep` or, for an LDV and a slot of a COMPRESS page, by their own steps; the bytes
that it leaves are those of the store or of `atomicStep`. -/
theorem accessPerforms : Obligations.AccessPerforms := by
  unfold Obligations.AccessPerforms
  intro s a
  refine ⟨fun hw hc => by rw [performAccess, if_pos (by rw [hw, hc]; rfl)], ?_⟩
  intro hm hc hb hw hx
  dsimp only
  have hexc (h : a.kind ≠ .store) : a.exc = none := hx.elim id fun hs => absurd hs.1 h
  have hreads (h : a.kind ≠ .store) (hk : atHome a.kind = true) (hs : (homeStep s a).1 = s) (x : Nat) :
      memGet (performAccess s a).mem x = memGet s.mem x := by
    rw [performAccess_home_mem hk hw hb (hexc h), hs]
  refine ⟨?_, fun hk => ?_, fun hk hlen => ?_, fun hk => ?_, fun hk => ?_, fun hk => ?_⟩
  · rintro (hk | hk | hk | hk)
    · exact hreads (by rw [hk]; decide) (by rw [hk]; rfl) (by simp only [homeStep, hk])
    · exact hreads (by rw [hk]; decide) (by rw [hk]; rfl) (by simp only [homeStep, hk])
    · exact fun x => congrArg (memGet · x) (performAccess_ldv_mem hk)
    · exact hreads (by rw [hk]; decide) (by rw [hk]; rfl) (by simp only [homeStep, hk])
  · exact performAccess_home_brings (by rw [hk]; rfl) hw hb (hexc (by rw [hk]; decide)) (by simp only [homeStep, hk])
  · have hstored : (performAccess s a).mem = memSetN s.mem a.loc a.data :=
      performAccess_store_mem hk hc (hw (by rw [hk]; rfl)) hb (hx.imp_right (·.2))
    refine ⟨fun x hx => ?_, ?_⟩
    · rw [hstored, memGet_memSetN_out _ _ hm (by rwa [hlen])]
    · rw [hstored, ← hlen]
      exact memGetN_memSetN _ hm
  · obtain ⟨⟨hout, hnew⟩, hold⟩ :=
      performAccess_atomic (.inl hk) hw hb (hexc (by rw [hk]; decide)) (atomicStep_atom hm hc hk)
    exact ⟨hout, hnew, hold⟩
  · obtain ⟨⟨hout, hnew⟩, hold⟩ :=
      performAccess_atomic (.inr (.inl hk)) hw hb (hexc (by rw [hk]; decide)) (atomicStep_cas hm hc hk)
    exact ⟨hout, hnew, hold⟩
  · obtain ⟨⟨hout, hnew⟩, hold⟩ :=
      performAccess_atomic (.inr (.inr hk)) hw hb (hexc (by rw [hk]; decide)) (atomicStep_append hm hc hk)
    exact ⟨hout, hnew, hold⟩

end Sys2Proof.Proofs
end

section
/-! PROOFS. The decoder and the encoder undo each other. -/

namespace Sys2Proof.Proofs
open Sys2Proof Sys2Proof.Laws

theorem decodeWord_wordOf (op : BitVec 8) (r : BitVec 56) : decodeWord (wordOf op r) = decodeOp op.toNat r := by
  rw [decodeWord, wordOf, hi_append, lo_append]

theorem wordOf_parts (w : DWord) : wordOf (hiBits 8 56 w) (loBits 8 56 w) = w := @append_hi_lo 8 56 w

/-- The word of an instruction of one form decodes to it, where the form is read back from its bits (`inv`) and the decoder's row
of the opcode makes the instruction (`hd`). -/
theorem decodeWord_of_form {F : Type} {ofBits : BitVec 56 → F} {bits : F → BitVec 56} (inv : ∀ f, ofBits (bits f) = f)
    {mk : F → Instr} {op : BitVec 8} (hd : ∀ r, decodeOp op.toNat r = some (mk (ofBits r))) {f : F} {w : DWord}
    (h : some (wordOf op (bits f)) = some w) : decodeWord w = some (mk f) := by
  rw [← Option.some.inj h, decodeWord_wordOf, hd, inv]

/-- Settles O1: by the form of the instruction; a step of the device has no word. -/
theorem decodeOfEncode : Obligations.DecodeOfEncode := by
  unfold Obligations.DecodeOfEncode
  intro i w h
  cases i with
  | add f | sub f | mul f | mulh f | div f | rem f | and f | or f | xor f | andn f | shl f | shr f | sar f | min f
  | max f | clz f | popc f | bfx f | bfi f | cmp f | mov f | fadd f | fsub f | fmul f | fma f | fmin f | fmax f
  | fcmp f | fsgn f | frcp f | frsq f | fexp2 f | flog2 f | frnd f | cvt f | cvts f | fcls f | selt f | steer f
  | gate f | merge f | emit f | mark f | acc f | tagset f | tagchk f | pushp f | popp f | bnd f | sphdr f | isect f
  | cturn f | void f | ld f | st f | ldv f | stv f | advv f | reclv f | atom f | cas f | append f | ticket f
  | gath f | scat f | fence f | shape f | ret f | jtab f | tend f | tpost f | msend f | bara f | barw f | gbar f
  | range f | nop f | done f | seqwt f | cntrd f | ctxsv f | ctxld f | freeze f | rmark f | tlbi f | cfgld f
  | jrnl f | sema f | sret f | haltc f | attest f | pgver f | partset f =>
    exact decodeWord_of_form reg_of_bits (fun _ => rfl) h
  | addi f | muli f | andi f | ori f | xori f | shli f | shri f | sari f | cmpi f | movi f | ldi f | sti f | mfs f
  | mts f | trap f =>
    exact decodeWord_of_form imm_of_bits (fun _ => rfl) h
  | br f | brc f | call f =>
    exact decodeWord_of_form br_of_bits (fun _ => rfl) h
  | wait f =>
    exact decodeWord_of_form wait_of_bits (fun _ => rfl) h
  | sspec f | sarm f | copy f | tld f | tst f | mldb f | mma f | mnorm f | gload f | gbind f | gfree f | skbld f
  | skxch f | sksub f | skpeel f | skrecon f | skfix f | tclr f | spld f | copyc f | gqry f =>
    exact decodeWord_of_form eng_of_bits (fun _ => rfl) h
  | gstart f | gstop f | gmask f | gfeed f | gstat f =>
    exact decodeWord_of_form grm_of_bits (fun _ => rfl) h
  | gskip f =>
    exact decodeWord_of_form skip_of_bits (fun _ => rfl) h
  | _ => cases h

/-- Each row of the decoder has the encoder's opcode, and its form's bits are those that it was read from. -/
theorem encode_of_decodeOp {op : Nat} {r : BitVec 56} {i : Instr} (h : decodeOp op r = some i) :
    encode i = some (wordOf (BitVec.ofNat 8 op) r) := by
  unfold decodeOp at h
  split at h
  all_goals cases h
  all_goals
    simp only [encode, reg_to_bits, imm_to_bits, br_to_bits, wait_to_bits, eng_to_bits, grm_to_bits, skip_to_bits]
    rfl

/-- Settles O2: the opcode and the lower bits of a word make up the word. -/
theorem encodeOfDecode : Obligations.EncodeOfDecode := by
  unfold Obligations.EncodeOfDecode
  intro w i h
  rw [encode_of_decodeOp h, BitVec.ofNat_toNat, BitVec.setWidth_eq, wordOf_parts]

end Sys2Proof.Proofs
end

section
/-! PROOFS. What an issued read leaves in a task. -/

namespace Sys2Proof.Proofs
open Sys2Proof Sys2Proof.Machine Sys2Proof.Laws

section
variable {s : State} {e : Env} {b : BankId}

/-- A bank with one more outstanding load, of which `r` waits for the value. -/
def bankReads (r : Fin 32) (g : RegBank) : RegBank := setPending { g with ld := g.ld + 1 } r

/-- Only the marks of pending registers change beside the count. -/
theorem bankReads_rest (r : Fin 32) (g : RegBank) :
    { bankReads r g with pend := g.pend, come := g.come } = { g with ld := g.ld + 1 } := by
  unfold bankReads setPending
  split <;> rfl

theorem bankReads_pend (r : Fin 32) (g : RegBank) (n : Fin 32) :
    (bankReads r g).pend.getLsbD n.val = (g.pend.getLsbD n.val || (decide (n = r) && decide (r ≠ 0))) := by
  unfold bankReads setPending
  split
  · next h => simp [h]
  · next h =>
    have hbit : (1#32 <<< r.val).getLsbD n.val = decide (n = r) := by
      revert n r
      decide
    rw [BitVec.getLsbD_or, hbit]
    simp [h]

/-- A core whose task goes on to its next word. -/
def nextWordCore (k : Core) : Core := { k with task := k.task.map fun x => { x with pc := x.pc + 8 } }

@[simp] theorem coreAt_issue (s : State) (a : Access) (c : CoreId) : coreAt (issue s a) c = coreAt s c := rfl

theorem issueRead_bank (h : e.agent = .bank b) (r : Fin 32) (p : Placing) (a : Access) :
    issueRead s e (.x r) p a = .done (modCore
      (issue (modCore s e.core fun k => modBank k b (bankReads r))
        { a with dest := if r = 0 then .none else .xreg b r p.sz p.u }) e.core nextWordCore) := by
  simp only [issueRead, h, advance_bank h]
  rfl

end

/-- Settles O26: the access joins the accesses, and the core is the one before with its bank reading and its task at the next
word. -/
theorem issuedReadInTask : Obligations.IssuedReadInTask := by
  intro s t e b r p a h ht k k'
  rw [issueRead_bank h] at ht
  obtain rfl := Eff.done.inj ht
  have hk : k' = nextWordCore (modBank k b (bankReads r)) := by
    simp only [k', k, coreAt_modCore_self, coreAt_issue]
  have hbank : at' k'.banks b = bankReads r (at' k.banks b) := by
    rw [hk]
    exact at_put_self ..
  have hrest := bankReads_rest r (at' k.banks b)
  refine ⟨rfl, rfl, fun _ => rfl, fun c hc => ?_, fun b' hb => ?_, ?_, ?_, ?_, fun n => ?_, ?_, ?_⟩
  · simp only [coreAt_modCore_ne _ _ _ _ hc, coreAt_issue]
  · rw [hk]
    exact at_put_ne _ _ _ _ (Ne.symm hb)
  · rw [hbank]
    exact (congrArg RegBank.x hrest :)
  · rw [hbank]
    exact (congrArg RegBank.ld hrest :)
  · rw [hbank]
    exact (congrArg RegBank.st hrest :)
  · rw [hbank]
    exact bankReads_pend ..
  · rw [hk]
    rfl
  · rw [hk]
    rfl

end Sys2Proof.Proofs
end

section
/-! PROOFS. What a step runs: the word that its move fetches, or the command or event that its move is. -/

namespace Sys2Proof.Proofs
open Sys2Proof Sys2Proof.Machine Sys2Proof.Laws

/-! ## A step by its move -/

section
variable {s t : State} {m : Move} {rest : List Move} {i : Instr}

theorem takeMove_agenda (ha : s.agenda = m :: rest) : takeMove s = (m, atMove s rest s.focus) := by
  simp only [takeMove, ha]
  rfl

theorem step_runs (hp : s.powered = true) (ha : s.agenda = m :: rest)
    (hb : beginMove m (atMove s rest s.focus) = (t, some i)) : step s = exec i t := by
  have hpow : (atMove s rest s.focus).powered = true := hp
  simp only [step, takeMove_agenda ha, hpow, hb, Bool.true_eq_false, false_and, if_false]

theorem step_rests (hp : s.powered = true) (ha : s.agenda = m :: rest)
    (hb : beginMove m (atMove s rest s.focus) = (t, none)) : step s = .next t := by
  have hpow : (atMove s rest s.focus).powered = true := hp
  simp only [step, takeMove_agenda ha, hpow, hb, Bool.true_eq_false, false_and, if_false]

end

/-! ## Fetching -/

section
variable {s : State} {c : CoreId} {l : Launch} {t : Task} {x : Ctx} {loc : Nat} {r : Rights}

/-- A fetch from a page that has passed its check comes to its slot and its check bits (R434, R437). -/
theorem fetchTask_checked (hal : t.pc.toNat % 8 = 0) (htr : translate s c l.ctx t.pc.toNat = .hit loc r)
    (hg : grants .fetch r = true) (hx : ctxBy s l.ctx = some x)
    (hch : x.checked.contains (t.pc.toNat / 65536 * 65536, loc - t.pc.toNat % 65536) = true) :
    fetchTask s c l t = if slotOpen s (locDie loc) l.ctx = false then .wait s
      else if s.bad.contains (loc / 8 * 8) = true then .trap .uncorrectable (physAddr s loc)
      else .word (dwordLE (memGetN s.mem loc 8)) := by
  simp only [fetchTask, hal, htr, hg, hx, hch, ne_eq, not_true_eq_false, if_false, Bool.not_true, Bool.false_eq_true,
    Bool.not_eq_true']

theorem fetchFor_word {w : DWord} {i : Instr} (ht : (coreAt s c).task = some t) (hl : holderOf s c = some l)
    (hs : mayStep l.phase = true) (hf : fetchTask s c l t = .word w) (hd : decodeWord w = some i) :
    fetchFor s c = (setOut s c (.task c) (.bank t.bank) w, some i) := by
  simp only [fetchFor, ht, hl, maySteps_of_phase s hs, hf, hd, Bool.not_true, Bool.false_eq_true, if_false]

theorem fetchFor_unassigned {w : DWord} (ht : (coreAt s c).task = some t) (hl : holderOf s c = some l)
    (hs : mayStep l.phase = true) (hf : fetchTask s c l t = .word w) (hd : decodeWord w = none) :
    fetchFor s c = (raise .illegalOp (taskWho c l t w) t.pc 0 s, none) := by
  simp only [fetchFor, ht, hl, maySteps_of_phase s hs, hf, hd, Bool.not_true, Bool.false_eq_true, if_false]

theorem fetchFor_waits {u : State} (ht : (coreAt s c).task = some t) (hl : holderOf s c = some l)
    (hs : mayStep l.phase = true) (hf : fetchTask s c l t = .wait u) : fetchFor s c = (u, none) := by
  simp only [fetchFor, ht, hl, maySteps_of_phase s hs, hf, Bool.not_true, Bool.false_eq_true, if_false]

end

/-- Settles O3: the move of a task is its fetch, and the page's check, its slot and its check bits decide what comes of it. -/
theorem stepRunsFetchedWord : Obligations.StepRunsFetchedWord := by
  unfold Obligations.StepRunsFetchedWord
  refine ⟨fun s rest c t l x loc r i hp ha ht hl hs hal htr hg hx hch ho hb hd => ?_,
    fun s rest c t l x loc r hp ha ht hl hs hal htr hg hx hch ho hb hd => ?_,
    fun s rest c t l x loc r hp ha ht hl hs hal htr hg hx hch ho => ?_⟩
  · have hf := fetchTask_checked hal htr hg hx hch
    rw [if_neg (by rw [ho]; decide), if_neg (by rw [show (atMove s rest _).bad = s.bad from rfl, hb]; decide)] at hf
    exact step_runs hp ha (fetchFor_word ht hl hs hf hd)
  · have hf := fetchTask_checked hal htr hg hx hch
    rw [if_neg (by rw [ho]; decide), if_neg (by rw [show (atMove s rest _).bad = s.bad from rfl, hb]; decide)] at hf
    exact step_rests hp ha (fetchFor_unassigned ht hl hs hf hd)
  · have hf := fetchTask_checked hal htr hg hx hch
    rw [if_pos ho] at hf
    exact step_rests hp ha (fetchFor_waits ht hl hs hf)

/-! ## Nodes and actions -/

section
variable {s : State} {c : CoreId} {pe : PeId} {n : Node}

theorem pickFree_single {α : Type} (s : State) (x : α) : pickFree s [x] = some x := by
  simp only [pickFree, List.length_singleton, Nat.mod_one]
  rfl

/-- A stream node's word is a free one of its words; with one word, that one. -/
theorem nodeWord_stream (hn : nodeAt (coreAt s c) pe = some n) (hst : isStreamNode n = true) :
    nodeWord s c pe = pickFree s n.words := by
  simp only [nodeWord, hn, hst, if_true]
  split
  · next w hw => rw [hw, pickFree_single]
  · rfl

theorem nodeWord_firing {f : Firing} (hn : nodeAt (coreAt s c) pe = some n) (hst : isStreamNode n = false)
    (hf : n.firing = some f) : nodeWord s c pe = n.words[f.idx]? := by
  simp only [nodeWord, hn, hst, hf, Bool.false_eq_true, if_false]

theorem isStreamNode_words (hst : isStreamNode n = true) : n.words ≠ [] := by
  intro h
  simp [isStreamNode, h] at hst

theorem beginMove_node {rest : List Move} {w : DWord}
    (hw : nodeWord (atMove s rest (some (.node c pe))) c pe = some w) :
    beginMove (.node c pe) (atMove s rest s.focus) =
      (setOut (atMove s rest (some (.node c pe))) c (.node c pe) (.node pe) w, decodeWord w) := by
  have hfocus : { atMove s rest s.focus with focus := some (.node c pe) } = atMove s rest (some (.node c pe)) := rfl
  simp only [beginMove, hfocus, hw]

/-- An action in whose parser's turn it is goes on with its next action word. -/
theorem beginMove_action {rest : List Move} {p : ParserId} {r : ActRun} {g : Grammar} {w : DWord}
    (htu : actionTurn (atMove s rest none) c p = true) (hr : (at' (coreAt s c).parsers p).run = some r)
    (hg : (coreAt s c).grammar = some g) (hw : g.acts[r.word]? = some w) :
    beginMove (.action c p) (atMove s rest s.focus) =
      (setOut (modCore (atMove s rest (some (.action c p))) c fun k => { k with actTurn := p }) c (.action c p) (.parser p) w,
        decodeWord w) := by
  have hturn : actionTurn (atMove s rest s.focus) c p = true := htu
  have hword : actionWord (modCore (atMove s rest (some (.action c p))) c fun k => { k with actTurn := p }) c p = some w := by
    have hk : coreAt (atMove s rest (some (.action c p))) c = coreAt s c := rfl
    simp only [actionWord, coreAt_modCore_self, hk, hr, hg, hw]
  have hfocus : { atMove s rest s.focus with focus := some (.action c p) } = atMove s rest (some (.action c p)) := rfl
  simp only [beginMove, hturn, if_true, hfocus, hword]

theorem beginMove_command {rest : List Move} {code : Nat} {k : Cmd} {cs : List (Nat × Cmd)} {i : Instr}
    (hk : s.cmds = (code, k) :: cs) (hd : decodeCommand code k = some i) :
    beginMove .command (atMove s rest s.focus) = (atMove s rest none, some i) := by
  unfold beginMove
  dsimp only
  split
  · next h => cases hk.symm.trans h
  · next h =>
    cases hk.symm.trans h
    rw [hd]
    rfl

theorem beginMove_badCommand {rest : List Move} {code : Nat} {k : Cmd} {cs : List (Nat × Cmd)}
    (hk : s.cmds = (code, k) :: cs) (hd : decodeCommand code k = none) :
    beginMove .command (atMove s rest s.focus) =
      (finishCmd { atMove s rest none with cmds := cs } k.seq .badarg 0 [], none) := by
  unfold beginMove
  dsimp only
  split
  · next h => cases hk.symm.trans h
  · next h =>
    cases hk.symm.trans h
    rw [hd]
    rfl

end

/-- Settles O4: each kind of move hands over its word, command or event. -/
theorem stepRunsOtherMoves : Obligations.StepRunsOtherMoves := by
  unfold Obligations.StepRunsOtherMoves
  intro s rest hp
  refine ⟨fun c pe n f w i ha hn hst hf hw hd => ?_, fun c pe n ha hn hst => ?_,
    fun c p r g w i ha htu hr hg hw hd => ?_, fun c p ha htu => ?_, fun code k cs i ha hk hd => ?_,
    fun code k cs ha hk hd => ?_, fun i ha => ?_⟩
  · have hnode : nodeWord (atMove s rest (some (.node c pe))) c pe = some w :=
      (nodeWord_firing (s := atMove ..) hn hst hf).trans hw
    exact step_runs hp ha ((beginMove_node hnode).trans (by rw [hd]))
  · dsimp only
    refine ⟨pickFree_mem _ (isStreamNode_words hst), fun w i hw hd => ?_, fun w hw => ?_⟩
    · have hnode : nodeWord (atMove s rest (some (.node c pe))) c pe = some w :=
        (nodeWord_stream (s := atMove ..) hn hst).trans hw
      exact step_runs hp ha ((beginMove_node hnode).trans (by rw [hd]))
    · rw [hw, pickFree_single]
  · exact step_runs hp ha ((beginMove_action htu hr hg hw).trans (by rw [hd]))
  · have hturn : actionTurn (atMove s rest s.focus) c p = false := htu
    refine step_rests hp ha ?_
    simp only [beginMove, hturn, Bool.false_eq_true, if_false]
    rfl
  · exact step_runs hp ha (beginMove_command hk hd)
  · exact step_rests hp ha (beginMove_badCommand hk hd)
  · exact step_runs hp ha rfl

end Sys2Proof.Proofs
end

section
/-! PROOFS. The integer and bit words in all their forms. -/

namespace Sys2Proof.Proofs
open Sys2Proof Sys2Proof.Machine Sys2Proof.Laws

/-! ## The shared forms -/

section
variable {s : State} {e : Env} {i : Instr}

theorem leaves2_of_int2 {f : RegForm} {op : IntMode → DWord → DWord → DWord × FlagBits}
    (hx : exec i s = execInt2 i f s op) (hh : Here s e [f.d, f.a, f.b]) :
    Leaves2 s e i f (op (intMode e f.m) (srcVal s e f.a) (srcVal s e f.b)).1
      (op (intMode e f.m) (srcVal s e f.a) (srcVal s e f.b)).2 := by
  intro hm
  rw [hx, execInt2]
  exact execValue_done hm hh

theorem leaves2_of_noFlag {f : RegForm} {op : IntMode → DWord → DWord → DWord}
    (hx : exec i s = execInt2 i f s (noFlag op)) (hh : Here s e [f.d, f.a, f.b]) :
    Leaves2 s e i f (op (intMode e f.m) (srcVal s e f.a) (srcVal s e f.b)) 0 := leaves2_of_int2 (op := noFlag op) hx hh

theorem leavesI_of_intI {f : ImmForm} {op : IntMode → DWord → DWord → DWord × FlagBits}
    (hx : exec i s = execIntI i f s op) (hh : Here s e [f.d, f.a]) :
    LeavesI s e i f (op (intMode e f.m) (srcVal s e f.a) (immExt e f.imm)).1
      (op (intMode e f.m) (srcVal s e f.a) (immExt e f.imm)).2 := by
  intro hm
  rw [hx, execIntI]
  exact execValue_done hm hh

theorem leavesI_of_noFlag {f : ImmForm} {op : IntMode → DWord → DWord → DWord}
    (hx : exec i s = execIntI i f s (noFlag op)) (hh : Here s e [f.d, f.a]) :
    LeavesI s e i f (op (intMode e f.m) (srcVal s e f.a) (immExt e f.imm)) 0 := leavesI_of_intI (op := noFlag op) hx hh

theorem leaves_of_int1 {f : RegForm} {op : IntMode → DWord → DWord} (hx : exec i s = execInt1 i f s op)
    (hh : Here s e [f.d, f.a]) :
    Leaves s e i f.d [f.a] (fmtField f.m) (op (intMode e f.m) (srcVal s e f.a)) 0 := by
  intro hm
  rw [hx, execInt1]
  exact execValue_done hm hh

theorem leaves_of_value {d : Operand} {srcs : List Operand} {fmt : Fmt} {compute : Env → List Src → DWord × FlagBits}
    (hx : exec i s = execValue i s d srcs fmt compute) (hh : Here s e (d :: srcs)) :
    Leaves s e i d srcs fmt (compute e (srcs.map (readSrc s e))).1 (compute e (srcs.map (readSrc s e))).2 := by
  intro hm
  rw [hx]
  exact execValue_done hm hh

end

/-- The extension of IMM32 depends on the context alone (R212). -/
theorem immExt_eq (e : Env) (v : Word) :
    immExt e v = if e.kind = .node then v.setWidth 64 else v.signExtend 64 := by
  simp only [immExt, isNode, beq_iff_eq]

/-! ## MOV -/

section
variable {s : State} {e : Env} {f : RegForm}

theorem movTag_other (ha : ∀ r, f.a ≠ .l r) : movTag s f = fmtField f.m := by
  unfold movTag
  split
  · split
    · next h _ => exact absurd h (ha _)
    · rfl
  · rfl

theorem movTag_l {r : Fin 8} {c : CoreId} {pe : PeId} {n : Node} (ha : f.a = .l r)
    (hf : s.focus = some (.node c pe)) (hn : nodeAt (coreAt s c) pe = some n) : movTag s f = at' n.tag r := by
  simp only [movTag, hf, ha, hn]

theorem leaves_mov_other (hh : Here s e [f.d, f.a]) (ha : ∀ r, f.a ≠ .l r) :
    Leaves s e (.mov f) f.d [f.a] (fmtField f.m) (intMov (intMode e f.m) (srcVal s e f.a)) 0 := by
  intro hm
  rw [exec_mov, execMov, execValue_done hm hh, movTag_other ha]
  split
  · next r h => exact absurd h (ha r)
  · rfl

theorem leaves_mov_l {r : Fin 8} {c : CoreId} {pe : PeId} {n : Node} (hh : Here s e [f.d, f.a]) (ha : f.a = .l r)
    (hf : s.focus = some (.node c pe)) (hn : nodeAt (coreAt s c) pe = some n) :
    Leaves s e (.mov f) f.d [f.a] (at' n.tag r) (srcVal s e f.a) 0 := by
  intro hm
  rw [exec_mov, execMov, execValue_done hm hh, movTag_l ha hf hn]
  simp only [ha]
  rfl

end

/-- Settles O6: each word is one of the shared forms with its own operation; MOV is split by its source. -/
theorem integerForms : Obligations.IntegerForms := by
  unfold Obligations.IntegerForms
  dsimp only
  refine ⟨fun s e f hh => ?_, fun s e f hh => ?_, fun s e f hh => ?_⟩
  · exact ⟨leaves2_of_int2 (exec_add f s) hh, leaves2_of_int2 (exec_sub f s) hh, leaves2_of_int2 (exec_mul f s) hh,
      leaves2_of_noFlag (exec_mulh f s) hh, leaves2_of_noFlag (exec_div f s) hh, leaves2_of_noFlag (exec_rem f s) hh,
      leaves2_of_noFlag (exec_and f s) hh, leaves2_of_noFlag (exec_or f s) hh, leaves2_of_noFlag (exec_xor f s) hh,
      leaves2_of_noFlag (exec_andn f s) hh, leaves2_of_noFlag (exec_shl f s) hh, leaves2_of_noFlag (exec_shr f s) hh,
      leaves2_of_noFlag (exec_sar f s) hh, leaves2_of_noFlag (exec_min f s) hh, leaves2_of_noFlag (exec_max f s) hh⟩
  · rw [← immExt_eq]
    exact ⟨leavesI_of_intI (exec_addi f s) hh, leavesI_of_intI (exec_muli f s) hh, leavesI_of_noFlag (exec_andi f s) hh,
      leavesI_of_noFlag (exec_ori f s) hh, leavesI_of_noFlag (exec_xori f s) hh, leavesI_of_noFlag (exec_shli f s) hh,
      leavesI_of_noFlag (exec_shri f s) hh, leavesI_of_noFlag (exec_sari f s) hh, (leaves_of_value (exec_cmpi f s) hh :),
      (leaves_of_value (exec_movi f s) (here_of hh (by simp)) :)⟩
  · have hda : Here s e [f.d, f.a] := here_of hh (by simp)
    have hdab : Here s e [f.d, f.a, f.b] := here_of hh (by simp)
    exact ⟨(leaves_of_int1 (exec_clz f s) hda :), (leaves_of_int1 (exec_popc f s) hda :),
      (leaves_of_value (exec_bfx f s) hh :), (leaves_of_value (exec_bfi f s) (here_of hh (by simp)) :),
      (leaves_of_value (exec_cmp f s) hdab :), leaves_mov_other hda, fun r c pe n => leaves_mov_l hda⟩

end Sys2Proof.Proofs
end

section
/-! PROOFS. Words written out from the encoding tables. -/

namespace Sys2Proof.Proofs
open Sys2Proof

/-- Settles O60: the decoder is evaluated on each of the written words. -/
theorem decodedWords : Obligations.DecodedWords := by
  unfold Obligations.DecodedWords
  decide

end Sys2Proof.Proofs
end

section
/-! PROOFS. The system words: PRIVILEGE outside system context, the wait at issue, and what each does when it may act. -/

namespace Sys2Proof.Proofs
open Sys2Proof Sys2Proof.Machine Sys2Proof.Laws

/-! ## What every system word does -/

section
variable {s : State} {e : Env} {i : Instr} {b : BankId}

/-- A system word that is refused with PRIVILEGE in task context before any other check (R224). -/
def IsSysWord (s : State) (i : Instr) : Prop :=
  (∃ body, exec i s = sysWord i s body) ∧ checkStage .task false i = some .privilege

theorem isSysWord_tlbi (f : RegForm) : IsSysWord s (.tlbi f) := by
  refine ⟨⟨_, rfl⟩, ?_⟩
  show checkSys .task false (.tlbi f) = some .privilege
  simp only [checkSys]
  split <;> rfl

/-- The words of R405. -/
theorem isSysWord_all (f : RegForm) : ∀ i ∈ [Instr.ctxsv f, .ctxld f, .freeze f, .rmark f, .tlbi f, .cfgld f, .jrnl f, .sema f,
    .sret f, .haltc f, .attest f, .pgver f, .partset f], IsSysWord s i := by
  simp only [List.forall_mem_cons]
  exact ⟨⟨⟨_, rfl⟩, rfl⟩, ⟨⟨_, rfl⟩, rfl⟩, ⟨⟨_, rfl⟩, rfl⟩, ⟨⟨_, rfl⟩, rfl⟩, isSysWord_tlbi f, ⟨⟨_, rfl⟩, rfl⟩,
    ⟨⟨_, rfl⟩, rfl⟩, ⟨⟨_, rfl⟩, rfl⟩, ⟨⟨_, rfl⟩, rfl⟩, ⟨⟨_, rfl⟩, rfl⟩, ⟨⟨_, rfl⟩, rfl⟩, ⟨⟨_, rfl⟩, rfl⟩, ⟨⟨_, rfl⟩, rfl⟩,
    List.forall_mem_nil _⟩

theorem sysWaits_of_any (h : released s e 5 = false ∨ s.cmds ≠ [] ∨ mayReach s (sysPlace e) = false) : sysWaits s e = true := by
  rcases h with h | h | h
  · simp [sysWaits, h]
  · simp [sysWaits, h]
  · simp [sysWaits, h]

theorem isSysWord_waits (hi : IsSysWord s i) (hb : e.agent = .bank b)
    (h : released s e 5 = false ∨ s.cmds ≠ [] ∨ mayReach s (sysPlace e) = false) : Runs s e i s := by
  obtain ⟨⟨body, hx⟩, -⟩ := hi
  refine runs_wait hx ?_
  simp only [hb, sysWaits_of_any h, if_true]

theorem isSysWord_privilege (hi : IsSysWord s i) (he : envOf s i = some e) (hh : heldAtIssue s e = false)
    (hk : e.kind = .task) : exec i s = .next (raise .privilege e.who e.who.pc 0 s) := by
  obtain ⟨⟨body, hx⟩, hc⟩ := hi
  have hf : wordFault s e i = some .privilege := by rw [wordFault, hk, hc, Option.some_or]
  have hu : issueUnit e.kind .privilege i = none := rfl
  rw [hx, sysWord, runWord_fault he hh hf, hu, onEngine]

end

/-! ## Each word that may act -/

section
variable {s : State} {e : Env} {b : BankId} {f : RegForm} (hr : SysReady s e b)

/-- How the Plinth names a system word that it has yet to answer: by its bank and its number. -/
def sysAsker (s : State) (e : Env) (b : BankId) (f : RegForm) : Asker := .task e.core b (issueSys s e b (sysDest f)).1

/-- The chain of a core's task is told of the task's end, where the task has one (R311). -/
def chainTold (s : State) (c : CoreId) : State :=
  match (taskOf s c).bind (·.chain) with
  | some h => sendChainDone s h
  | none => s

/-- The state in which a system word is at the Plinth. -/
def sysIssued (s : State) (e : Env) (b : BankId) (f : RegForm) : State := (issueSys s e b (sysDest f)).2

include hr

theorem runs_ctxsv {x : Ctx} {h : Held} {t : State} (hx : ctxOperand s (srcVal s e f.a) = some x) (hh : x.held = some h)
    (hal : (srcVal s e f.b).toNat % 4096 = 0) (hw : sysWrite s e true (srcVal s e f.b).toNat (areaBytes x h) = .inl t) :
    Runs s e (.ctxsv f) (sysLeaves (keepStreams t h) e b f (BitVec.ofNat 64 (areaLen h.cores.length))) := by
  refine sysWord_runs hr (exec_ctxsv f s) ?_
  simp only [hx, hh, hal, hw, ne_eq, not_true_eq_false, if_false]
  rfl

theorem runs_ctxld_resume {x : Ctx} {h : Held} (hx : ctxOperand s (srcVal s e f.a) = some x) (hh : x.held = some h)
    (hm : mayRestore x = true) (hv : srcVal s e f.b = 0) :
    Runs s e (.ctxld f) (askRestore (sysIssued s e b f) x.n (sysAsker s e b f)) := by
  refine sysWord_runs hr (exec_ctxld f s) ?_
  simp only [hx, hh, hm, hv, Bool.not_true, Bool.false_eq_true, if_false, if_true]
  rfl

theorem runs_ctxld_area {x : Ctx} {h : Held} {hd bs : List Byte} (hx : ctxOperand s (srcVal s e f.a) = some x)
    (hh : x.held = some h) (hm : mayRestore x = true) (hv : srcVal s e f.b ≠ 0)
    (hal : (srcVal s e f.b).toNat % 4096 = 0) (hrd : sysRead s e true (srcVal s e f.b).toNat 4096 = .inl hd)
    (hfit : headerFits h hd = true) (hbs : sysRead s e true (srcVal s e f.b).toNat (areaLen h.cores.length) = .inl bs) :
    Runs s e (.ctxld f) (restoreFrom (sysIssued s e b f) x h bs (sysAsker s e b f)) := by
  refine sysWord_runs hr (exec_ctxld f s) ?_
  simp only [hx, hh, hm, hv, hal, hrd, hfit, hbs, Bool.not_true, Bool.false_eq_true, ne_eq, not_true_eq_false, if_false]
  rfl

omit hr in
/-- FREEZE and RMARK come to what their stop comes to. -/
theorem stopWord_eq {x : Ctx} {q : Fin 16} (hx : ctxOperand s (srcVal s e f.a) = some x)
    (hq : (srcVal s e f.b).toNat = q.val) (k : Option Nat) :
    stopWord s e b f k = match stopOp (sysIssued s e b f) x q k (some e.launch.id) (sysAsker s e b f) with
      | .nothing => sysDone s e b (sysDest f) 0
      | .stopping s1 => .done s1
      | .wait => .wait
      | .bad => sysBad e := by
  have hqv : Fin.ofNat 16 (srcVal s e f.b).toNat = q := by rw [hq]; exact Fin.ofNat_val_eq_self q
  have hle : ¬ (srcVal s e f.b).toNat > 15 := by omega
  simp only [stopWord, hx, hle, hqv, if_false]
  rfl

theorem runs_stopWord {i : Instr} {k : Env → Option Nat} {x : Ctx} {q : Fin 16}
    (hi : exec i s = sysWord i s fun e b => stopWord s e b f (k e)) (hx : ctxOperand s (srcVal s e f.a) = some x)
    (hq : (srcVal s e f.b).toNat = q.val) (t : State) :
    (stopOp (sysIssued s e b f) x q (k e) (some e.launch.id) (sysAsker s e b f) = .nothing →
      Runs s e i (sysLeaves s e b f 0)) ∧
    (stopOp (sysIssued s e b f) x q (k e) (some e.launch.id) (sysAsker s e b f) = .stopping t → Runs s e i t) := by
  refine ⟨fun hs => sysWord_runs hr hi ?_, fun hs => sysWord_runs hr hi ?_⟩
  · rw [stopWord_eq hx hq, hs]
    rfl
  · rw [stopWord_eq hx hq, hs]

theorem runs_tlbi (h : (f.x.extractLsb' 0 2).toNat = 2 ∨ (ctxOperand s (srcVal s e f.a)).isSome = true) :
    Runs s e (.tlbi f) (sysLeaves (tlbiOp s (f.x.extractLsb' 0 2).toNat (srcVal s e f.a).toNat (srcVal s e f.b).toNat) e b
      { f with d := .x 0 } 0) := by
  have hok : ¬((f.x.extractLsb' 0 2).toNat ≠ 2 ∧ (ctxOperand s (srcVal s e f.a)).isNone = true) := by
    rintro ⟨hne, hnone⟩
    rcases h with h | h
    · exact hne h
    · rw [Option.isNone_iff_eq_none.1 hnone] at h
      cases h
  refine sysWord_runs hr (exec_tlbi f s) ?_
  simp only [hok, if_false]
  rfl

theorem runs_cfgld_now {old : DWord} {t : State}
    (hc : cfgOp s (srcVal s e f.a).toNat (srcVal s e f.b).toNat = some (old, t))
    (hq : (at' (coreAt s e.core).banks b).sysq = []) : Runs s e (.cfgld f) (sysLeaves t e b f old) := by
  refine sysWord_runs hr (exec_cfgld f s) ?_
  simp only [hc, hq, List.isEmpty_nil, if_true]
  rfl

theorem runs_cfgld_later {old : DWord} {t : State}
    (hc : cfgOp s (srcVal s e f.a).toNat (srcVal s e f.b).toNat = some (old, t))
    (hq : (at' (coreAt s e.core).banks b).sysq ≠ []) :
    Runs s e (.cfgld f) { sysIssued s e b f with sysWork := (sysIssued s e b f).sysWork ++
      [(sysAsker s e b f, .cfg (srcVal s e f.a).toNat (srcVal s e f.b).toNat)] } := by
  refine sysWord_runs hr (exec_cfgld f s) ?_
  simp only [hc, List.isEmpty_iff, hq, if_false]
  rfl

theorem runs_jrnl {bs : List Byte} (ht : (srcVal s e f.b).toNat ≤ 0xFFFF) (hal : (srcVal s e f.a).toNat % 8 = 0)
    (hrd : sysRead s e false (srcVal s e f.a).toNat 40 = .inl bs) :
    Runs s e (.jrnl f) (sysLeaves (journal s 0xF0 .done 2 e.launch.ctx 0 (BitVec.ofNat 32 (srcVal s e f.b).toNat) 0
      (dwordsOf bs)) e b f (BitVec.ofNat 64 s.fzseq)) := by
  refine sysWord_runs hr (exec_jrnl f s) ?_
  simp only [hal, hrd, Nat.not_lt.2 ht, ne_eq, not_true_eq_false, if_false]
  rfl

theorem runs_sema {v : DWord} {t : State} (h : semaOp s (.sys e.launch.ctx) (srcVal s e f.a).toNat = some (v, t)) :
    Runs s e (.sema f) (sysLeaves t e b f v) := by
  refine sysWord_runs hr (exec_sema f s) ?_
  simp only [h]
  rfl

theorem runs_haltc {k : CoreId} (hk : (srcVal s e f.a).toNat = k.val) (hv : (srcVal s e f.b).toNat ≤ 1) :
    Runs s e (.haltc f) (haltOp (sysIssued s e b f) k (srcVal s e f.b).toNat (sysAsker s e b f)) := by
  have hok : ¬((srcVal s e f.a).toNat > 255 ∨ (srcVal s e f.b).toNat > 1) := by omega
  have hkv : Fin.ofNat 256 (srcVal s e f.a).toNat = k := by rw [hk]; exact Fin.ofNat_val_eq_self k
  refine sysWord_runs hr (exec_haltc f s) ?_
  simp only [hok, hkv, if_false]
  rfl

theorem runs_partset {k : CoreId} (hk : (srcVal s e f.a).toNat = k.val) (hv : (srcVal s e f.b).toNat ≤ 255)
    (hs : s.cpsem = .sys e.launch.ctx) :
    Runs s e (.partset f) (guardOp (sysIssued s e b f) k ((srcVal s e f.b).setWidth 8) (sysAsker s e b f)) := by
  have hok : ¬((srcVal s e f.a).toNat > 255 ∨ (srcVal s e f.b).toNat > 255) := by omega
  have hkv : Fin.ofNat 256 (srcVal s e f.a).toNat = k := by rw [hk]; exact Fin.ofNat_val_eq_self k
  refine sysWord_runs hr (exec_partset f s) ?_
  simp only [hok, hs, hkv, ne_eq, not_true_eq_false, if_false]
  rfl

theorem traps_partset {k : CoreId} (hk : (srcVal s e f.a).toNat = k.val) (hv : (srcVal s e f.b).toNat ≤ 255)
    (hs : s.cpsem ≠ .sys e.launch.ctx) : Traps s e (.partset f) .privilege e.who.pc 0 := by
  have hok : ¬((srcVal s e f.a).toNat > 255 ∨ (srcVal s e f.b).toNat > 255) := by omega
  refine sysWord_traps (by decide) hr (exec_partset f s) ?_
  simp only [hok, hs, ne_eq, not_false_eq_true, if_true, if_false]

theorem runs_attest {x : Ctx} {hm nonce : List Byte} {t : State} (hx : ctxBy s e.launch.ctx = some x)
    (hal : (srcVal s e f.b).toNat % 64 = 0) (hrd : sysRead s e false (srcVal s e f.a).toNat 64 = .inl nonce)
    (hh : (srcVal s e f.c).toNat = 0 ∧ hm = [] ∨
      (srcVal s e f.c).toNat ≠ 0 ∧ ∃ o, x.objs.find? (·.va == (srcVal s e f.c).toNat) = some o ∧ hm = sha384 o.manifest)
    (hw : sysWrite s e false (srcVal s e f.b).toNat (reportBytes s nonce hm x (dieOf e.core)) = .inl t) :
    Runs s e (.attest f) (sysLeaves t e b { f with d := .x 0 } 0) := by
  have hhash : (if (srcVal s e f.c).toNat = 0 then some [] else
      (x.objs.find? (·.va == (srcVal s e f.c).toNat)).map fun o => sha384 o.manifest) = some hm := by
    rcases hh with ⟨h0, rfl⟩ | ⟨h0, o, ho, rfl⟩
    · rw [if_pos h0]
    · rw [if_neg h0, ho, Option.map_some]
  refine sysWord_runs hr (exec_attest f s) ?_
  simp only [hx, hhash, hal, hrd, hw, ne_eq, not_true_eq_false, if_false]
  rfl

omit hr in
theorem page_of_aligned {n : Nat} (h : n % 65536 = 0) : n / 65536 * 65536 = n := by omega

theorem runs_pgver {x : Ctx} {o : CodeObj} {v : DWord} {t : State} (hx : ctxOperand s (srcVal s e f.b) = some x)
    (hal : (srcVal s e f.a).toNat % 65536 = 0) (ho : objectAt x (srcVal s e f.a).toNat = some o)
    (hp : pageOp s x o (srcVal s e f.a).toNat = some (v, t)) : Runs s e (.pgver f) (sysLeaves t e b f v) := by
  refine sysWord_runs hr (exec_pgver f s) ?_
  simp only [page_of_aligned hal, hx, ho, hal, hp, ne_eq, not_true_eq_false, if_false]
  rfl

omit hr in
theorem pageOp_fault {x : Ctx} {o : CodeObj} {page : Nat} {fault : FaultCode × DWord}
    (hn : (pageHome s x.n page).any (fun l => x.checked.contains (page, l)) = false)
    (hc : codeFault s x.n page = some fault) : pageOp s x o page = none := by
  simp only [pageOp, hn, hc, Bool.false_eq_true, if_false]

theorem traps_pgver {x : Ctx} {o : CodeObj} {code : FaultCode} {extra : DWord}
    (hx : ctxOperand s (srcVal s e f.b) = some x) (hal : (srcVal s e f.a).toNat % 65536 = 0)
    (ho : objectAt x (srcVal s e f.a).toNat = some o)
    (hn : (pageHome s x.n (srcVal s e f.a).toNat).any (fun l => x.checked.contains ((srcVal s e f.a).toNat, l)) = false)
    (hc : codeFault s x.n (srcVal s e f.a).toNat = some (code, extra)) (hu : code ≠ .uncorrectable) :
    Traps s e (.pgver f) code (srcVal s e f.a) extra := by
  refine sysWord_traps hu hr (exec_pgver f s) ?_
  simp only [page_of_aligned hal, hx, ho, hal, pageOp_fault hn hc, hc, ne_eq, not_true_eq_false, if_false]

theorem runs_sret (ha : awaitsResult s (srcVal s e f.a).toNat = true)
    (hq : (at' (coreAt s e.core).banks b).sysq = []) :
    let t := settleEntry { reached s (sysPlace e) with
        sysWork := s.sysWork.erase (.port (srcVal s e f.a).toNat, .sysrt) } (srcVal s e f.a).toNat
      (if field (srcVal s e f.b) 63 56 = 0 then .done else .failed) (srcVal s e f.b) []
    Runs s e (.sret f) (endTask (chainTold t e.core) e.core) := by
  refine sysWord_runs hr (exec_sret f s) ?_
  simp only [ha, hq, List.isEmpty_nil, Bool.not_true, Bool.false_eq_true, if_false]
  rfl

end

/-- Settles O41: the waits and PRIVILEGE are of the shape that all system words share, and each word that may act has its
operation. -/
theorem systemWords : Obligations.SystemWords := by
  unfold Obligations.SystemWords
  intro s e f b
  dsimp only
  refine ⟨fun i hi => ⟨isSysWord_waits (isSysWord_all f i hi), isSysWord_privilege (isSysWord_all f i hi)⟩, fun hr => ?_⟩
  refine ⟨fun x h t => runs_ctxsv hr,
    fun x h hx hh hm => ⟨runs_ctxld_resume hr hx hh hm, fun hd bs => runs_ctxld_area hr hx hh hm⟩,
    fun x q t hx hq => ?_, runs_tlbi hr, fun old t hc => ⟨runs_cfgld_now hr hc, runs_cfgld_later hr hc⟩, fun bs => runs_jrnl hr,
    fun r t => runs_sema hr, fun k => runs_haltc hr, fun k hk hv => ⟨runs_partset hr hk hv, traps_partset hr hk hv⟩,
    fun x hm nonce t => runs_attest hr, fun x o r t => runs_pgver hr, fun x o code extra => traps_pgver hr, runs_sret hr⟩
  obtain ⟨hnothing, hstops⟩ := runs_stopWord hr (exec_freeze f s) hx hq t
  obtain ⟨hnothing', hstops'⟩ := runs_stopWord hr (exec_rmark f s) hx hq t
  exact ⟨hnothing, hstops, hnothing', hstops'⟩

end Sys2Proof.Proofs
end

section
/-! PROOFS. The counts of bits. -/

namespace Sys2Proof.Proofs
open Sys2Proof Sys2Proof.Machine Sys2Proof.Laws

/-! ## The bits of a reduced source -/

theorem lowBits_lt (w : Nat) (v : DWord) : lowBits w v < 2 ^ w := Nat.mod_lt _ (Nat.two_pow_pos w)

/-- Below W the bits of a reduced source are those of the source (R237). -/
theorem testBit_lowBits {w i : Nat} (v : DWord) (hi : i < w) : (lowBits w v).testBit i = v.getLsbD i := by
  rw [lowBits, Nat.testBit_mod_two_pow, decide_eq_true hi, Bool.true_and, BitVec.getLsbD]

theorem testBit_bitLen_le {n i : Nat} (hi : bitLen n ≤ i) : n.testBit i = false :=
  Nat.testBit_lt_two_pow ((lt_two_pow_bitLen n).trans_le (Nat.pow_le_pow_right (by decide) hi))

theorem testBit_bitLen_pred {n : Nat} (hn : n ≠ 0) : n.testBit (bitLen n - 1) = true := by
  rw [bitLen, if_neg hn, Nat.add_sub_cancel, Nat.testBit_log2 hn]

/-- The recursion of `popCount` takes the bits from the lowest up. -/
theorem popCount_eq_countP (w n : Nat) : popCount w n = (List.range w).countP n.testBit := by
  induction w generalizing n with
  | zero => rfl
  | succ w ih =>
    rw [popCount, ih, List.range_succ_eq_map, List.countP_cons, List.countP_map, add_comm]
    congr 1
    · exact List.countP_congr fun i _ => by rw [Function.comp_apply, Nat.succ_eq_add_one, Nat.testBit_succ]
    · rw [Nat.testBit_zero]
      rcases Nat.mod_two_eq_zero_or_one n with h | h <;> rw [h] <;> rfl

/-- Settles O7: the count of CLZ is what the length of the reduced source leaves of W, and POPC counts its bits. -/
theorem countWords : Obligations.CountWords := by
  unfold Obligations.CountWords
  intro s e f hh k a
  have hda : Here s e [f.d, f.a] := here_of hh (by simp)
  have hlen : bitLen (lowBits k.w a) ≤ k.w := bitLen_le_of_lt (lowBits_lt k.w a)
  refine ⟨⟨k.w - bitLen (lowBits k.w a), Nat.sub_le .., fun i hlo hhi => ?_, fun hn => ?_,
    (leaves_of_int1 (exec_clz f s) hda :)⟩, ?_⟩
  · rw [← testBit_lowBits a hhi]
    exact testBit_bitLen_le (by omega)
  · have hpos : lowBits k.w a ≠ 0 := fun h => by simp [h, bitLen] at hn
    rw [show k.w - 1 - (k.w - bitLen (lowBits k.w a)) = bitLen (lowBits k.w a) - 1 by omega,
      ← testBit_lowBits a (show bitLen (lowBits k.w a) - 1 < k.w by omega)]
    exact testBit_bitLen_pred hpos
  · have hcount : popCount k.w (lowBits k.w a) = (List.range k.w).countP fun i => a.getLsbD i := by
      rw [popCount_eq_countP]
      exact List.countP_congr fun i hi => by rw [testBit_lowBits a (List.mem_range.mp hi)]
    rw [← hcount]
    exact (leaves_of_int1 (exec_popc f s) hda :)

end Sys2Proof.Proofs
end

section
/-! PROOFS. The integer operations at 64 bits as operations on dwords. -/

namespace Sys2Proof.Proofs
open Sys2Proof Sys2Proof.Machine Sys2Proof.Laws

/-! ## Numbers of 64 bits as bit vectors (R237, R238) -/

theorem signedOf_lowBits (w : Nat) (v : DWord) : signedOf w (lowBits w v) = (v.setWidth w).toInt := by
  rw [signedOf, lowBits, BitVec.toInt_eq_toNat_cond, BitVec.toNat_setWidth]
  push_cast
  rfl

theorem lowBits_dword (v : DWord) : lowBits 64 v = v.toNat := Nat.mod_eq_of_lt v.isLt

@[simp] theorem reduced_dword_signed (v : DWord) : reduced 64 false v = v.toInt := by
  rw [reduced, if_neg (by decide), signedOf_lowBits, BitVec.setWidth_eq]

@[simp] theorem reduced_dword_unsigned (v : DWord) : reduced 64 true v = v.toNat := by
  rw [reduced, if_pos rfl, lowBits_dword]

/-- Read as signed or as unsigned, a dword is the same modulo 2^64. -/
theorem ofInt_reduced_dword (uns : Bool) (v : DWord) : BitVec.ofInt 64 (reduced 64 uns v) = v := by
  cases uns with
  | false => rw [reduced_dword_signed, BitVec.ofInt_toInt]
  | true => rw [reduced_dword_unsigned, BitVec.ofInt_natCast, BitVec.ofNat_toNat, BitVec.setWidth_eq]

theorem ofNat_toNat_dword (v : DWord) : BitVec.ofNat 64 v.toNat = v := by
  rw [BitVec.ofNat_toNat, BitVec.setWidth_eq]

theorem ofNat_wrapTo (w : Nat) (x : Int) : BitVec.ofNat w (wrapTo w x) = BitVec.ofInt w x :=
  BitVec.eq_of_toNat_eq (by
    rw [BitVec.toNat_ofNat, BitVec.toNat_ofInt, Nat.mod_eq_of_lt (wrapTo_lt w x), wrapTo]
    push_cast
    rfl)

/-- At 64 bits no bit is left to extend. -/
theorem extend_dword (signed : Bool) (n : Nat) : extend 64 signed n = BitVec.ofNat 64 n := by
  cases signed with
  | false => rfl
  | true =>
    rw [extend, if_pos rfl, ← ofNat_wrapTo, wrapTo, signedOf_emod]
    exact (ofNat_wrapTo 64 n).trans (BitVec.ofInt_natCast ..)

/-! ## The modes of 64 bits -/

/-- The mode of a task's 64-bit words without SAT, signed or unsigned (R237). -/
def dwordMode (uns : Bool) : IntMode := ⟨false, .raw, uns, false⟩

section
variable (uns : Bool) (a b : DWord)

@[simp] theorem dwordMode_w : (dwordMode uns).w = 64 := rfl

@[simp] theorem dwordMode_uns : (dwordMode uns).uns = uns := Bool.or_false uns

@[simp] theorem dwordMode_put (n : Nat) : (dwordMode uns).put n = BitVec.ofNat 64 n := extend_dword ..

theorem intExact_dword (op : Int → Int → Int) :
    intExact op (dwordMode uns) a b = (BitVec.ofInt 64 (op (reduced 64 uns a) (reduced 64 uns b)), 0) := by
  rw [intExact, finishInt_eq, dwordMode_put, dwordMode_w, dwordMode_uns, ofNat_wrapTo]
  rfl

/-! ## Sums, differences and products (R241) -/

theorem add_dword : intExact (· + ·) (dwordMode uns) a b = (a + b, 0) := by
  rw [intExact_dword, BitVec.ofInt_add, ofInt_reduced_dword, ofInt_reduced_dword]

theorem sub_dword : intExact (· - ·) (dwordMode uns) a b = (a - b, 0) := by
  rw [intExact_dword, Int.sub_eq_add_neg, BitVec.ofInt_add, BitVec.ofInt_neg, ofInt_reduced_dword, ofInt_reduced_dword,
    BitVec.sub_eq_add_neg]

theorem mul_dword : intExact (· * ·) (dwordMode uns) a b = (a * b, 0) := by
  rw [intExact_dword, BitVec.ofInt_mul, ofInt_reduced_dword, ofInt_reduced_dword]

/-- The upper half of 128 bits is the quotient by 2^64. -/
theorem extractLsb'_ofInt_high (x : Int) : (BitVec.ofInt 128 x).extractLsb' 64 64 = BitVec.ofInt 64 (x / 2 ^ 64) := by
  apply BitVec.eq_of_toNat_eq
  rw [BitVec.extractLsb'_toNat, Nat.shiftRight_eq_div_pow, BitVec.toNat_ofInt, BitVec.toNat_ofInt]
  omega

theorem mulh_dword : intMulh (dwordMode uns) a b =
    (BitVec.ofInt 128 (reduced 64 uns a) * BitVec.ofInt 128 (reduced 64 uns b)).extractLsb' 64 64 := by
  rw [← BitVec.ofInt_mul, extractLsb'_ofInt_high, intMulh, dwordMode_put, dwordMode_w, dwordMode_uns, ofNat_wrapTo]

theorem mulh_dword_signed :
    intMulh (dwordMode false) a b = (a.signExtend 128 * b.signExtend 128).extractLsb' 64 64 := by
  rw [mulh_dword, reduced_dword_signed, reduced_dword_signed, BitVec.signExtend, BitVec.signExtend]

theorem mulh_dword_unsigned :
    intMulh (dwordMode true) a b = (a.setWidth 128 * b.setWidth 128).extractLsb' 64 64 := by
  rw [mulh_dword, reduced_dword_unsigned, reduced_dword_unsigned, BitVec.ofInt_natCast, BitVec.ofInt_natCast,
    BitVec.ofNat_toNat, BitVec.ofNat_toNat]

/-! ## Quotients and remainders (R242) -/

theorem reduced_dword_eq_zero : reduced 64 uns b = 0 ↔ b = 0 := by
  refine ⟨fun h => ?_, fun h => by subst h; cases uns <;> rfl⟩
  rw [← ofInt_reduced_dword uns b, h]
  rfl

theorem div_dword : intDiv (dwordMode uns) a b =
    if b = 0 then BitVec.allOnes 64 else BitVec.ofInt 64 ((reduced 64 uns a).tdiv (reduced 64 uns b)) := by
  simp only [intDiv, intQuot, dwordMode_put, dwordMode_w, dwordMode_uns, ofNat_wrapTo, reduced_dword_eq_zero]
  rw [apply_ite (BitVec.ofInt 64)]
  rfl

theorem rem_dword : intMod (dwordMode uns) a b =
    if b = 0 then a else BitVec.ofInt 64 ((reduced 64 uns a).tmod (reduced 64 uns b)) := by
  simp only [intMod, intRem, dwordMode_put, dwordMode_w, dwordMode_uns, ofNat_wrapTo, reduced_dword_eq_zero]
  rw [apply_ite (BitVec.ofInt 64), ofInt_reduced_dword]

theorem div_dword_signed : intDiv (dwordMode false) a b = if b = 0 then BitVec.allOnes 64 else a.sdiv b := by
  have hquot : BitVec.ofInt 64 (a.toInt.tdiv b.toInt) = a.sdiv b :=
    BitVec.eq_of_toInt_eq (by rw [BitVec.toInt_ofInt, BitVec.toInt_sdiv])
  rw [div_dword, reduced_dword_signed, reduced_dword_signed, hquot]

theorem div_dword_unsigned : intDiv (dwordMode true) a b = if b = 0 then BitVec.allOnes 64 else a / b := by
  rw [div_dword, reduced_dword_unsigned, reduced_dword_unsigned, ← Int.ofNat_tdiv, ← BitVec.toNat_udiv,
    BitVec.ofInt_natCast, ofNat_toNat_dword]

theorem rem_dword_signed : intMod (dwordMode false) a b = if b = 0 then a else a.srem b := by
  rw [rem_dword, reduced_dword_signed, reduced_dword_signed, ← BitVec.toInt_srem, BitVec.ofInt_toInt]

theorem rem_dword_unsigned : intMod (dwordMode true) a b = if b = 0 then a else a % b := by
  rw [rem_dword, reduced_dword_unsigned, reduced_dword_unsigned, ← Int.ofNat_tmod, ← BitVec.toNat_umod,
    BitVec.ofInt_natCast, ofNat_toNat_dword]

/-! ## Bits and shifts (R243, R244, R250) -/

theorem mov_dword : intMov (dwordMode uns) a = a := by
  rw [intMov, dwordMode_put, dwordMode_w, lowBits_dword, ofNat_toNat_dword]

theorem bits_dword (op : DWord → DWord → DWord) : intBits op (dwordMode uns) a b = op a b := mov_dword uns (op a b)

theorem shl_dword : intShl (dwordMode uns) a b = a <<< b.toNat := by
  simp only [intShl, dwordMode_put, dwordMode_w, lowBits_dword]
  split
  · next h => exact (BitVec.shiftLeft_eq_zero h).symm
  · apply BitVec.eq_of_toNat_eq
    rw [BitVec.toNat_shiftLeft, BitVec.toNat_ofNat, Nat.mod_mod, Nat.shiftLeft_eq]

theorem shr_dword : intShr (dwordMode uns) a b = a >>> b.toNat := by
  simp only [intShr, dwordMode_put, dwordMode_w, lowBits_dword]
  split
  · next h => exact (BitVec.ushiftRight_eq_zero h).symm
  · rw [← Nat.shiftRight_eq_div_pow, ← BitVec.toNat_ushiftRight, ofNat_toNat_dword]

/-- A number of `w` bits shifted by `w` or more leaves its sign. -/
theorem ediv_two_pow_min {w : Nat} {x : Int} (hlo : -2 ^ w ≤ x) (hhi : x < 2 ^ w) (n : Nat) :
    x / 2 ^ min n w = x / 2 ^ n := by
  rcases Nat.le_total n w with hn | hn
  · rw [Nat.min_eq_left hn]
  · have hpow : (2 : Int) ^ w ≤ 2 ^ n := pow_le_pow_right₀ (by decide) hn
    rw [Nat.min_eq_right hn]
    rcases lt_or_ge x 0 with hx | hx
    · rw [Int.ediv_eq_neg_one_of_neg_of_le hx (by omega), Int.ediv_eq_neg_one_of_neg_of_le hx (by omega)]
    · rw [Int.ediv_eq_zero_of_lt hx hhi, Int.ediv_eq_zero_of_lt hx (by omega)]

theorem sar_dword : intSar (dwordMode uns) a b = a.sshiftRight b.toNat := by
  have hlo := BitVec.le_toInt a
  have hhi := BitVec.toInt_lt (x := a)
  simp only [intSar, dwordMode_put, dwordMode_w, signedOf_lowBits, BitVec.setWidth_eq, ofNat_wrapTo]
  rw [ediv_two_pow_min (by omega) (by omega), BitVec.sshiftRight, Int.shiftRight_eq_div_pow]
  push_cast
  rfl

/-! ## MIN and MAX (R245) -/

theorem min_dword : intMin (dwordMode uns) a b = if reduced 64 uns a < reduced 64 uns b then a else b := by
  rw [intMin, dwordMode_put, dwordMode_w, dwordMode_uns, ofNat_wrapTo, min_def_lt, apply_ite (BitVec.ofInt 64),
    ofInt_reduced_dword, ofInt_reduced_dword]

theorem max_dword : intMax (dwordMode uns) a b = if reduced 64 uns a < reduced 64 uns b then b else a := by
  rw [intMax, dwordMode_put, dwordMode_w, dwordMode_uns, ofNat_wrapTo, max_def_lt, apply_ite (BitVec.ofInt 64),
    ofInt_reduced_dword, ofInt_reduced_dword]

theorem min_dword_signed : intMin (dwordMode false) a b = if a.slt b then a else b := by
  simp only [min_dword, reduced_dword_signed, BitVec.slt_iff_toInt_lt]

theorem max_dword_signed : intMax (dwordMode false) a b = if a.slt b then b else a := by
  simp only [max_dword, reduced_dword_signed, BitVec.slt_iff_toInt_lt]

theorem min_dword_unsigned : intMin (dwordMode true) a b = if a.ult b then a else b := by
  simp only [min_dword, reduced_dword_unsigned, BitVec.ult_iff_toNat_lt, Nat.cast_lt]

theorem max_dword_unsigned : intMax (dwordMode true) a b = if a.ult b then b else a := by
  simp only [max_dword, reduced_dword_unsigned, BitVec.ult_iff_toNat_lt, Nat.cast_lt]

end

/-- Settles O8: each operation at 64 bits is taken modulo 2^64, where the reduced source is the dword itself. -/
theorem taskDwordArithmetic : Obligations.TaskDwordArithmetic := by
  unfold Obligations.TaskDwordArithmetic
  intro a b
  exact ⟨add_dword false a b, sub_dword false a b, mul_dword false a b,
    add_dword true a b, sub_dword true a b, mul_dword true a b, mulh_dword_signed a b, mulh_dword_unsigned a b,
    div_dword_signed a b, div_dword_unsigned a b, rem_dword_signed a b, rem_dword_unsigned a b,
    bits_dword false a b _, bits_dword false a b _, bits_dword false a b _,
    shl_dword false a b, shr_dword false a b, sar_dword false a b,
    min_dword_signed a b, max_dword_signed a b, min_dword_unsigned a b, max_dword_unsigned a b, mov_dword false a⟩

end Sys2Proof.Proofs
end

section
/-! PROOFS. The floating-point words in all their forms. -/

namespace Sys2Proof.Proofs
open Sys2Proof Sys2Proof.Machine Sys2Proof.Laws

/-- The values that a floating-point word computes with (R251). -/
theorem fpSources_eq (s : State) (e : Env) (md : FpMode) (F : Fmt) (srcs : List Operand) :
    ((srcs.zip (srcs.map (readSrc s e))).map fun ox => fpOperand md F (isImm ox.1) ox.2.v) =
      srcs.map fun o => fpOperand md F (isImm o) (srcVal s e o) := by
  induction srcs with
  | nil => rfl
  | cons o os ih => rw [List.map_cons, List.zip_cons_cons, List.map_cons, ih]; rfl

section
variable {s : State} {e : Env} {i : Instr} {f : RegForm} {srcs : List Operand}

theorem leavesF_of_fp {op : FpMode → Fmt → BitVec 2 → Bool → List FVal → Nat × FlagBits}
    (hx : exec i s = execFp i f s srcs op) (hh : Here s e (f.d :: srcs)) :
    LeavesF s e i f srcs (op (fpMode s e) (fmtField f.m) (mRnd f.m) (mSat f.m)
      (srcs.map fun o => fpOperand (fpMode s e) (fmtField f.m) (isImm o) (srcVal s e o))) := by
  intro hm
  rw [hx, execFp, execValue_done hm hh, ← fpSources_eq]

end

/-- The scale of CVTS is the low half of B as a signed word, clamped (R260). -/
theorem scaleOf_eq (b : DWord) : scaleOf b = max (-1024) (min 1023 (b.setWidth 32).toInt) := by
  rw [scaleOf, signedOf_lowBits]

/-! ## FCMP, FSGN and FCLS (R255, R256, R261) -/

section
variable {s : State} {e : Env} {f : RegForm}

theorem leaves_fcmp (hh : Here s e [f.d, f.a, f.b]) :
    let cmp := fpCmp (mCc f.m).toNat (fpOperand (fpMode s e) (fmtField f.m) (isImm f.a) (srcVal s e f.a))
      (fpOperand (fpMode s e) (fmtField f.m) (isImm f.b) (srcVal s e f.b))
    Leaves s e (.fcmp f) f.d [f.a, f.b] .i32 (if cmp.1 then 1 else 0) cmp.2 := by
  intro cmp hm
  rw [exec_fcmp, execFcmp, execValue_done hm hh]
  rfl

theorem leaves_fcls (hh : Here s e [f.d, f.a]) :
    Leaves s e (.fcls f) f.d [f.a] .i32
      (BitVec.ofNat 64 (fpClass (fmtField f.m) (fpPattern (fmtField f.m) f.a (srcVal s e f.a)))) 0 := by
  intro hm
  rw [exec_fcls, execFcls, execValue_done hm hh]
  rfl

/-- In mode 3 FSGN has no second source, and the pattern in its place is 0. -/
theorem leaves_fsgn (hh : Here s e [f.d, f.a, f.b]) :
    let mode := (f.x.extractLsb' 0 2).toNat
    Leaves s e (.fsgn f) f.d (if mode = 3 then [f.a] else [f.a, f.b]) (fmtField f.m)
      (BitVec.ofNat 64 (fpSgn (widthOf true (fmtField f.m)) mode (fpPattern (fmtField f.m) f.a (srcVal s e f.a))
        (if mode = 3 then 0 else fpPattern (fmtField f.m) f.b (srcVal s e f.b)))) 0 := by
  intro mode hm
  rw [exec_fsgn, execFsgn, execValue_done hm (here_of hh (by split <;> simp))]
  by_cases hmode : mode = 3
  · simp only [mode, hmode, if_true]
    rfl
  · simp only [mode, hmode, if_false]
    rfl

end

/-- Settles O10: the arithmetic words are one shared form with their own operation, the conversions another; the other
words compute a value from their sources or from the patterns of these. -/
theorem floatingForms : Obligations.FloatingForms := by
  unfold Obligations.FloatingForms
  dsimp only
  refine ⟨fun s e f hh => ?_, fun s e f hh => ?_⟩
  · have hda : Here s e [f.d, f.a] := here_of hh (by simp)
    have hdab : Here s e [f.d, f.a, f.b] := here_of hh (by simp)
    exact ⟨(leavesF_of_fp (exec_fadd f s) hdab :), (leavesF_of_fp (exec_fsub f s) hdab :),
      (leavesF_of_fp (exec_fmul f s) hdab :), (leavesF_of_fp (exec_fma f s) hh :),
      (leavesF_of_fp (exec_fmin f s) hdab :), (leavesF_of_fp (exec_fmax f s) hdab :),
      (leavesF_of_fp (exec_frcp f s) hda :), (leavesF_of_fp (exec_frsq f s) hda :),
      (leavesF_of_fp (exec_fexp2 f s) hda :), (leavesF_of_fp (exec_flog2 f s) hda :),
      (leavesF_of_fp (exec_frnd f s) hda :)⟩
  · have hda : Here s e [f.d, f.a] := here_of hh (by simp)
    rw [← scaleOf_eq]
    exact ⟨leaves_fcmp hh, leaves_fsgn hh, leaves_fcls hda, fun hm => (exec_cvt f s).trans (execConvert_done hm hda),
      fun hm => (exec_cvts f s).trans (execConvert_done hm hh)⟩

end Sys2Proof.Proofs
end

section
/-! PROOFS. Loads, stores and atomics: the access that each issues, and what one that runs again leaves. -/

namespace Sys2Proof.Proofs
open Sys2Proof Sys2Proof.Machine Sys2Proof.Laws

/-! ## The outcome of a memory word -/

section
variable {i : Instr} {s : State} {e : Env} {d : Option Operand} {srcs : List Operand} {body : Env → List Src → Eff}

theorem memWord_done {t : State} (hm : MayRun s i e) (hh : Here s e (d.toList ++ srcs)) (hr : redone s e = false)
    (hs : suppressed s e srcs = false) (hb : body e (srcs.map (readSrc s e)) = .done t) : memWord i s d srcs body = .next t := by
  rw [memWord_run hm hh hr hs, hb]

theorem memWord_trap {code : FaultCode} {a x : DWord} (hm : MayRun s i e) (hh : Here s e (d.toList ++ srcs))
    (hr : redone s e = false) (hs : suppressed s e srcs = false) (hb : body e (srcs.map (readSrc s e)) = .trap code a x) :
    memWord i s d srcs body = .next (raiseRead code e.who a x e.launch.ctx s) := by
  rw [memWord_run hm hh hr hs, hb]

/-- A word that has run before in its firing leaves what `performAgain` does. -/
theorem memWord_again {t : State} (hm : MayRun s i e) (hh : Here s e (d.toList ++ srcs)) (hr : redone s e = true)
    (ht : performAgain s e d = .done t) : memWord i s d srcs body = .next t := by
  refine runWord_done hm ?_
  unfold Here at hh
  rw [if_neg (by simp [hh]), if_pos hr, ht]

theorem readIssues_of_body {o : Operand} {p : Placing} {a : Access} (hx : exec i s = memWord i s d srcs body) (hm : MayRun s i e)
    (hh : Here s e (d.toList ++ srcs)) (hr : redone s e = false) (hs : suppressed s e srcs = false)
    (hb : body e (srcs.map (readSrc s e)) = issueRead s e o p a) : ReadIssues s e i o p a := by
  obtain ⟨t, ht⟩ := issueRead_done (env_agent hm.1) o p a
  exact ⟨t, ht, hx.trans (memWord_done hm hh hr hs (hb.trans ht))⟩

theorem writeIssues_of_body {a : Access} (hx : exec i s = memWord i s d srcs body) (hm : MayRun s i e)
    (hh : Here s e (d.toList ++ srcs)) (hr : redone s e = false) (hs : suppressed s e srcs = false)
    (hb : body e (srcs.map (readSrc s e)) = issueWrite s e a) : WriteIssues s e i a :=
  ⟨_, rfl, hx.trans (memWord_done hm hh hr hs hb)⟩

end

section
variable {s : State} {e : Env}

/-- Run again, a word without a destination leaves the state alone (log entry 41). -/
theorem performAgain_none : performAgain s e none = .done (advance e true s) := rfl

/-- Run again, a load leaves in its destination what it has brought (log entry 41). -/
theorem performAgain_some {g : Firing} {x : Nat × Word × Fmt} (hg : firingOf s e = some g)
    (hx : g.memo.find? (·.1 == g.idx) = some x) (d : Operand) :
    performAgain s e (some d) = .done (advance e true (writeDst s e d false (x.2.1.setWidth 64) x.2.2)) := by
  simp only [performAgain, hg, Option.bind_some, hx, Option.map_some]

theorem redone_of_firing {g : Firing} (hg : firingOf s e = some g) (h : g.idx < g.redo) : redone s e = true := by
  simpa [redone, hg] using h

/-- A parser's word finds all of its values, for only a node's l register waits for a load (R285). -/
theorem here_parser {p : ParserId} (h : e.agent = .parser p) (os : List Operand) : Here s e os := by
  simp [Here, lPending, h]

theorem readSrc_parser_void {p : ParserId} (h : e.agent = .parser p) (o : Operand) : (readSrc s e o).void = false := by
  unfold readSrc
  cases o <;> simp [h, Src.plain]

theorem predicate_parser {p : ParserId} (h : e.agent = .parser p) : predicate s e = true := by
  simp [predicate, firingOf, h]

theorem suppressed_parser {p : ParserId} (h : e.agent = .parser p) (os : List Operand) : suppressed s e os = false := by
  simp [suppressed, readSrc_parser_void h, predicate_parser h]

/-- Of fewer sources none is void either. -/
theorem suppressed_of {os os' : List Operand} (h : suppressed s e os = false) (hs : ∀ o ∈ os', o ∈ os) :
    suppressed s e os' = false := by
  simp only [suppressed, Bool.or_eq_false_iff, List.any_eq_false] at *
  exact ⟨fun o ho => h.1 o (hs o ho), h.2⟩

/-! ## The access that a word issues (R283, R285, R295, R298) -/

variable {full : Bool} {ad : AddrEnd} {al : Nat} {want : Want} {home : Nat → Bool} {va loc : Nat} {body : Nat → Nat → Eff}

/-- Below its limit of outstanding accesses, with an address that passes its checks, a word comes to the issue of its access. -/
theorem resolve_belowLimit (hf : full = false) (h : Reaches s e ad al want home va loc) :
    (if full then .wait else resolve s e ad al want home body) = body va loc :=
  (if_neg (ne_true_of_eq_false hf)).trans (resolve_reaches h)

/-- So does an indexed word of its slot's size, with an index within its slot's bounds. -/
theorem resolve_inSlot {slot : Shape} {sz : BitVec 2} {idx : Nat} {wrongSize outside : Eff} (hf : full = false)
    (hsz : sz = slot.esz) (hidx : idx < slot.count.toNat) (h : Reaches s e ad al want home va loc) :
    (if full then .wait
      else if sz ≠ slot.esz then wrongSize
      else if idx ≥ slot.count.toNat then outside
      else resolve s e ad al want home body) = body va loc := by
  rw [if_neg (ne_true_of_eq_false hf), if_neg (not_not_intro hsz), if_neg (not_le_of_gt hidx), resolve_reaches h]

end

/-- Settles O21: run again, a load is answered from its firing's notes; else it is issued behind the checks of its address. -/
theorem loadWords : Obligations.LoadWords := by
  intro s e f g
  refine ⟨fun r x hg hlt hx => ?again, fun va loc hl hr => ⟨fun hm hh hs h => ?ld, fun hm hh hs h => ?ldi,
    fun hm hh hs hshape hsize hidx h => ?gath⟩⟩
  case again =>
    have hr : redone s e = true := redone_of_firing hg hlt
    have hp := performAgain_some hg hx
    exact ⟨fun hm hh => (exec_ld f s).trans (memWord_again hm hh hr (hp f.d)),
      fun hm hh => (exec_ldi g s).trans (memWord_again hm hh hr (hp g.d)),
      fun hm hh => (exec_gath f s).trans (memWord_again hm hh hr (hp f.d))⟩
  case ld => exact readIssues_of_body (exec_ld f s) hm hh hr hs (resolve_belowLimit hl h)
  case ldi => exact readIssues_of_body (exec_ldi g s) hm hh hr hs (resolve_belowLimit hl h)
  case gath =>
    exact readIssues_of_body (exec_gath f s) hm hh hr hs
      (resolve_inSlot (Bool.or_eq_false_iff.mpr ⟨hshape, hl⟩) hsize hidx h)

/-- Settles O22: run again, a store leaves the state alone; else it is issued behind the checks of its address. -/
theorem storeWords : Obligations.StoreWords := by
  intro s e f g
  refine ⟨fun hr => ?again, fun va loc hst hr => ⟨fun hm hh hs h => ?st, fun hm hh hs h => ?sti,
    fun hm hh hs hshape hsize hidx h => ?scat⟩⟩
  case again =>
    exact ⟨fun hm hh => (exec_st f s).trans (memWord_again hm hh hr performAgain_none),
      fun hm hh => (exec_sti g s).trans (memWord_again hm hh hr performAgain_none),
      fun hm hh => (exec_scat f s).trans (memWord_again hm hh hr performAgain_none)⟩
  case st => exact writeIssues_of_body (exec_st f s) hm hh hr hs (resolve_belowLimit hst h)
  case sti => exact writeIssues_of_body (exec_sti g s) hm hh hr hs (resolve_belowLimit hst h)
  case scat =>
    exact writeIssues_of_body (exec_scat f s) hm hh hr hs
      (resolve_inSlot (Bool.or_eq_false_iff.mpr ⟨hshape, hst⟩) hsize hidx h)

/-- Settles O24: each atomic is issued behind the checks of its address; those of ATOM and CAS begin with the 8-byte local one. -/
theorem atomicWords : Obligations.AtomicWords := by
  intro s e f va loc hl hr a b c ad p n
  refine ⟨fun hm hh hs hlocal h => ?atom, fun hm hh hs hlocal h => ?cas, fun hm hh hs h => ?append, fun hm hh hs h => ?ticket⟩
  case atom => exact readIssues_of_body (exec_atom f s) hm hh hr hs ((if_neg hlocal).trans (resolve_belowLimit hl h))
  case cas => exact readIssues_of_body (exec_cas f s) hm hh hr hs ((if_neg hlocal).trans (resolve_belowLimit hl h))
  case append => exact readIssues_of_body (exec_append f s) hm hh hr hs (resolve_belowLimit hl h)
  case ticket => exact readIssues_of_body (exec_ticket f s) hm hh hr hs (resolve_belowLimit hl h)

end Sys2Proof.Proofs
end

section
/-! PROOFS. The versioned words, FENCE and SHAPE. -/

namespace Sys2Proof.Proofs
open Sys2Proof Sys2Proof.Machine Sys2Proof.Laws

section
variable {s : State} {e : Env} {f : RegForm} {va loc : Nat}

/-- Outside a task LDV is issued as a load (R293). -/
theorem readIssues_ldv (hm : MayRun s (.ldv f) e) (hh : Here s e [f.d, f.a, f.b]) (hr : redone s e = false)
    (hs : suppressed s e [f.a, f.b] = false) (ha : ∀ b, e.agent ≠ .bank b)
    (h : Reaches s e (effAddr s e f.x (srcVal s e f.a) 0) 64 .versioned anyHome va loc) :
    ReadIssues s e (.ldv f) f.d ⟨2, memU f.m, tfmt f.x⟩
      { wordAccess s e f.m .ldv va loc 64 with a := srcVal s e f.b &&& 0xFFFFFF } := by
  refine readIssues_of_body (exec_ldv f s) hm hh hr hs ((resolve_reaches h).trans ?_)
  split
  · next b hb => exact absurd hb (ha b)
  · rfl

/-- In a task LDV ends it, and its answer goes to the continuation that it has reserved (R293). -/
theorem exec_ldv_bank {b : BankId} {n : Nat} {s1 : State} (hm : MayRun s (.ldv f) e) (hb : e.agent = .bank b)
    (h : Reaches s e (effAddr s e f.x (srcVal s e f.a) 0) 64 .versioned anyHome va loc)
    (hc : reserveCont s e.core (f.x.extractLsb' 8 6) .answer = some (n, s1)) :
    exec (.ldv f) s = .next (endTask (issue s1 { wordAccess s e f.m .ldv va loc 64 with
      a := srcVal s e f.b &&& 0xFFFFFF, word := none, dest := .cont n }) e.core) := by
  refine (exec_ldv f s).trans (memWord_done hm (here_bank hb _) (redone_bank hb) (suppressed_bank hb _)
    ((resolve_reaches h).trans ?_))
  simp only [hb, hc]
  rfl

theorem exec_fence_done (hm : MayRun s (.fence f) e) (hp : predicate s e = true) (hr : redone s e = false) :
    exec (.fence f) s = .next (if (memScope f.m).toNat = 0 then advance e true s
      else advance e false (issue s { baseAccess s e .fence 0 0 0 with scope := (memScope f.m).toNat, word := none })) := by
  refine (exec_fence f s).trans (memWord_done hm rfl hr (by simp [suppressed, hp]) ?_)
  split <;> rfl

/-- The access of a SHAPE: the load of its record for the slot that B names (R296). -/
def shapeAccess (s : State) (e : Env) (f : RegForm) (va loc : Nat) : Access :=
  { wordAccess s e f.m .shape va loc 16 with dest := .shape (Fin.ofNat 8 (srcVal s e f.b).toNat) }

theorem exec_shape_bank {b : BankId} (hm : MayRun s (.shape f) e) (hb : e.agent = .bank b)
    (hslot : (srcVal s e f.b).toNat ≤ 7) (hl : loadsFull s e = false)
    (h : Reaches s e (.va (srcVal s e f.a).toNat) 16 .read anyHome va loc) :
    exec (.shape f) s = .next (advance e false (issue
      (modCore s e.core fun k => modBank k b fun g => { g with ld := g.ld + 1 }) (shapeAccess s e f va loc))) := by
  refine (exec_shape f s).trans (memWord_done hm (here_bank hb _) (redone_bank hb) (suppressed_bank hb _)
    ((if_neg (not_lt_of_ge hslot)).trans ((resolve_belowLimit hl h).trans ?_)))
  simp only [hb]
  rfl

theorem exec_shape_parser {p : ParserId} (hm : MayRun s (.shape f) e) (hp : e.agent = .parser p)
    (hslot : (srcVal s e f.b).toNat ≤ 7) (hl : loadsFull s e = false)
    (h : Reaches s e (.va (srcVal s e f.a).toNat) 16 .read anyHome va loc) :
    exec (.shape f) s = .next (modCore (issue s (shapeAccess s e f va loc)) e.core fun k =>
      modParser k p fun y => { y with run := y.run.map fun g => { g with parked := true } }) := by
  refine (exec_shape f s).trans (memWord_done hm (here_parser hp _) (redone_parser hp) (suppressed_parser hp _)
    ((if_neg (not_lt_of_ge hslot)).trans ((resolve_belowLimit hl h).trans ?_)))
  simp only [hp]
  rfl

end

/-- Settles O25: each word comes to its own access behind the checks of its record's address, FENCE to one without an address. -/
theorem versionedFenceShape : Obligations.VersionedFenceShape := by
  refine ⟨fun s e f va loc h hr => ⟨fun hm hh hs hst => ?stv, fun hm hh hs hst => ?advv, fun hm hh hs hst => ?reclv,
    fun hm hh hs ha => ?ldv, fun b n s1 hm hb hc => ?ldvTask⟩,
    fun s e f => ⟨fun hm hp hr => ?fence, fun va loc hslot hl h => ⟨fun b hm hb => ?shapeTask, fun p hm hp => ?shapeAction⟩⟩⟩
  case stv => exact writeIssues_of_body (exec_stv f s) hm hh hr hs (resolve_belowLimit hst h)
  case advv => exact writeIssues_of_body (exec_advv f s) hm hh hr hs (resolve_belowLimit hst h)
  case reclv => exact writeIssues_of_body (exec_reclv f s) hm hh hr hs (resolve_belowLimit hst h)
  case ldv => exact readIssues_ldv hm hh hr hs ha h
  case ldvTask => exact exec_ldv_bank hm hb h hc
  case fence => exact exec_fence_done hm hp hr
  case shapeTask => exact exec_shape_bank hm hb hslot hl h
  case shapeAction => exact exec_shape_parser hm hp hslot hl h

end Sys2Proof.Proofs
end

section
/-! PROOFS. The faults of a bad address. -/

namespace Sys2Proof.Proofs
open Sys2Proof Sys2Proof.Machine Sys2Proof.Laws

section
variable {s : State} {e : Env} {al va : Nat} {want : Want} {home : Nat → Bool}

/-- The address check of a word with these requirements, whatever the word would do, raises `code` with ADDR `a`. -/
def AddressTraps (s : State) (e : Env) (ad : AddrEnd) (al : Nat) (want : Want) (home : Nat → Bool) (code : FaultCode)
    (a : Nat) : Prop :=
  ∀ body, resolve s e ad al want home body = .trap code (BitVec.ofNat 64 a) 0

theorem addressTraps_outside (a : Nat) : AddressTraps s e (.outside a) al want home .protection a := fun _ => rfl

theorem addressTraps_above (h : 2 ^ 52 ≤ va) : AddressTraps s e (.va va) al want home .translation va := fun _ => if_pos h

section
variable (h52 : va < 2 ^ 52)
include h52

theorem addressTraps_unmapped (hw : (inWindow va && (va - windowBase) / 2 ^ 23 % 2 == 1) = true) :
    AddressTraps s e (.va va) al want home .protection va :=
  fun _ => (if_neg (not_le_of_gt h52)).trans (if_pos hw)

variable (hw : (inWindow va && (va - windowBase) / 2 ^ 23 % 2 == 1) = false)
include hw

theorem addressTraps_misaligned (hal : va % al ≠ 0) : AddressTraps s e (.va va) al want home .align va :=
  fun _ => (if_neg (not_le_of_gt h52)).trans ((if_neg (ne_true_of_eq_false hw)).trans (if_pos hal))

/-- Past those checks, a translation with rights that the access may not use. -/
theorem addressTraps_denied {loc : Nat} {r : Rights} (hal : va % al = 0)
    (ht : translate s e.core e.launch.ctx va = .hit loc r) (hr : allowed s want loc r = false) :
    AddressTraps s e (.va va) al want home .protection va := by
  intro body
  refine (if_neg (not_le_of_gt h52)).trans ((if_neg (ne_true_of_eq_false hw)).trans ((if_neg (not_not_intro hal)).trans ?_))
  simp only [ht, hr, Bool.false_and, Bool.false_eq_true, if_false]

end

end

/-- LD and ST raise what the check of their address does. -/
theorem exec_access_trap {s : State} {e : Env} {f : RegForm} {w : Bool} {code : FaultCode} {a : Nat}
    (hm : MayRun s (if w then .st f else .ld f) e) (hh : Here s e [f.d, f.a, f.b, f.c]) (hr : redone s e = false)
    (hs : suppressed s e [f.a, f.b, f.c] = false) (hl : (if w then storesFull s e else loadsFull s e) = false)
    (ht : AddressTraps s e (effAddr s e f.x (srcVal s e f.a) (srcVal s e f.b)) (mBytes f.m) (if w then .write else .read)
      anyHome code a) :
    exec (if w then .st f else .ld f) s = .next (raiseRead code e.who (BitVec.ofNat 64 a) 0 e.launch.ctx s) := by
  cases w with
  | true =>
    exact (exec_st f s).trans (memWord_trap hm (here_of hh (by simp)) hr hs
      ((if_neg (ne_true_of_eq_false hl)).trans (ht _)))
  | false =>
    have hs' : suppressed s e [f.a, f.b] = false := suppressed_of hs (by simp)
    exact (exec_ld f s).trans (memWord_trap hm (here_of hh (by simp)) hr hs'
      ((if_neg (ne_true_of_eq_false hl)).trans (ht _)))

/-- Settles O27: the word raises what the first check of its address that fails raises. -/
theorem addressFaults : Obligations.AddressFaults := by
  intro s e f w i ad trap hm hh hr hs hl
  have raises {code a} (ht : AddressTraps s e ad (mBytes f.m) (if w then .write else .read) anyHome code a) : trap code a :=
    exec_access_trap hm hh hr hs hl ht
  refine ⟨fun a ha => raises ?_, fun va hva => ?_⟩
  · rw [ha]
    exact addressTraps_outside a
  · rw [hva] at raises
    exact ⟨fun h => raises (addressTraps_above h), fun h52 hw => raises (addressTraps_unmapped h52 hw),
      fun h52 hw hal => raises (addressTraps_misaligned h52 hw hal),
      fun h52 hw hal loc r ht hd => raises (addressTraps_denied h52 hw hal ht hd)⟩

end Sys2Proof.Proofs
end

section
/-! PROOFS. The node flow words of a firing, and MARK in an action. -/

namespace Sys2Proof.Proofs
open Sys2Proof Sys2Proof.Machine Sys2Proof.Laws

section
variable {s : State} {e : Env} {g : Firing}

/-- A node flow word leaves what its body makes of its firing. -/
theorem exec_flow_done {i : Instr} {srcs os : List Operand} {body : Env → Firing → State} {t : State}
    (hg : firingOf s e = some g) (hh : Here s e os) (hx : exec i s = flowWord i s srcs body) (hm : MayRun s i e)
    (hsub : ∀ o ∈ srcs, o ∈ os) (ht : body e g = t) : exec i s = .next (advance e true t) :=
  ht ▸ hx.trans (flowWord_done hm (here_of hh hsub) hg)

theorem lPending_of_here {o : Operand} (h : Here s e [o]) : lPending s e o = false := by
  simpa [Here] using h

end

/-- Settles O15: each word's body, read off. -/
theorem nodeFlowSimple : Obligations.NodeFlowSimple := by
  intro s e f g hg hh x sel b
  refine ⟨fun hm => exec_flow_done hg hh (exec_selt f s) hm (by simp) ?selt,
    fun hm => exec_flow_done hg hh (exec_tagchk f s) hm (by simp) ?tagchk,
    fun r hd hm => exec_flow_done hg hh (exec_tagset f s) hm (by simp) ?tagset,
    fun hm => exec_flow_done hg hh (exec_pushp f s) hm (by simp) ?pushp,
    fun hm => exec_flow_done hg hh (exec_popp f s) hm (by simp) ?popp,
    fun hm => exec_flow_done hg hh (exec_void f s) hm (by simp) ?void⟩
  case selt => rfl
  case tagchk => simp only [x, b, beq_iff_eq]
  case tagset => simp only [hd, x, Bool.or_eq_true, Bool.not_eq_true']
  case pushp => rfl
  case popp => rfl
  case void => rfl

/-- Whether a mark ends a level-k group (R272), as a proposition. -/
theorem endsGroup_iff (k : Nat) (mark : BitVec 3) : endsGroup k mark = true ↔ k ≤ mark.toNat ∧ mark.toNat ≤ 6 := by
  simp [endsGroup]

theorem not_endsGroup_iff (k : Nat) (mark : BitVec 3) :
    (!endsGroup k mark) = true ↔ ¬(k ≤ mark.toNat ∧ mark.toNat ≤ 6) := by
  rw [Bool.not_eq_true', ← Bool.not_eq_true, endsGroup_iff]

/-- A write that may have been made leaves the predicate stack alone. -/
theorem predicate_ite_writeDst {s : State} {e : Env} (c : Prop) [Decidable c] (o : Operand) (void : Bool) (v : DWord)
    (fmt : Fmt) : predicate (if c then writeDst s e o void v fmt else s) e = predicate s e := by
  split
  · exact predicate_writeDst ..
  · rfl

/-- Settles O16: each word's body, with its conditions read as propositions; the predicate that STEER looks at after its first
write is the one before it. -/
theorem nodeFlowRouting : Obligations.NodeFlowRouting := by
  intro s e f g hg hh v x p other k
  refine ⟨fun hm => exec_flow_done hg hh (exec_steer f s) hm (by simp) ?steer,
    fun hm => exec_flow_done hg hh (exec_gate f s) hm (by simp) ?gate,
    fun hm => exec_flow_done hg hh (exec_emit f s) hm (by simp) ?emit⟩
  case steer =>
    simp only [other, x, v, p, writeVoid, condBit, Bool.or_eq_true, bne_iff_ne, Bool.not_eq_true', or_assoc,
      predicate_writeDst, predicate_ite_writeDst]
    by_cases hc : (readSrc s e f.b).v.getLsbD 0 = true <;>
      simp only [hc, Bool.false_eq_true, if_true, if_false]
  case gate =>
    simp only [p, Bool.not_eq_true']
    rfl
  case emit =>
    simp only [not_endsGroup_iff, ite_not]
    rfl

/-! ## MERGE (R271) and MARK (R274) -/

theorem sameSideband_iff (g g1 : Firing) :
    sameSideband g g1 = true ↔ g1.mark = g.mark ∧ g1.tag = g.tag ∧ g1.poison = g.poison := by
  simp only [sameSideband, Bool.and_eq_true, beq_iff_eq, and_assoc]
  exact and_congr eq_comm (and_congr eq_comm eq_comm)

section
variable {s : State} {e : Env} {f : RegForm} {g : Firing} {pe : PeId} {r : Fin 4} {t : Token}

theorem exec_merge_void (hg : firingOf s e = some g) (hm : MayRun s (.merge f) e) (hh : Here s e [f.a])
    (hv : (readSrc s e f.a).void = true) :
    exec (.merge f) s = .next (advance e true (writeTok s e f.d
      ⟨if isPort f.a then (readSrc s e f.a).mark else g.mark, true, if isPort f.a then (readSrc s e f.a).tag else g.tag, 0⟩)) := by
  refine (exec_merge f s).trans (runWord_done hm ?_)
  simp only [lPending_of_here hh, hg, hv, Bool.false_eq_true, if_false, if_true]

variable (ha : e.agent = .node pe) (hg : firingOf s e = some g) (hm : MayRun s (.merge f) e) (hh : Here s e [f.a])
  (hv : (readSrc s e f.a).void = false) (hp : mergePort f g (readSrc s e f.a) = .p r)
  (ht : portHead (coreAt s e.core) pe r = some t)
include ha hg hm hh hv hp ht

/-- The head of the chosen port leaves, where its taking leaves the sideband of the firing as it was. -/
theorem exec_merge_takes (hs : sameSideband g (takePort (levels e.launch.recd) (coreAt s e.core) pe r g) = true) :
    let s1 := modFiring s e fun _ => takePort (levels e.launch.recd) (coreAt s e.core) pe r g
    exec (.merge f) s = .next (advance e true (
      if predicate s e then writeTok s1 e f.d { t with data := if t.void then 0 else t.data }
      else writeDst s1 e f.d true 0 .raw)) := by
  refine (exec_merge f s).trans (runWord_done hm ?_)
  simp only [lPending_of_here hh, hg, hv, hp, ha, ht, hs, Bool.not_true, Bool.false_eq_true, if_false]
  rfl

/-- Where it changes the sideband, the firing begins again with the port noted (log entry 41). -/
theorem exec_merge_restarts (hs : sameSideband g (takePort (levels e.launch.recd) (coreAt s e.core) pe r g) = false)
    (hn : nodeReads s e.core pe = false) :
    exec (.merge f) s = .next (modFocusNode s e
      (beginAgain r (takePort (levels e.launch.recd) (coreAt s e.core) pe r g))) := by
  refine (exec_merge f s).trans (runWord_done hm ?_)
  simp only [lPending_of_here hh, hg, hv, hp, ha, ht, hs, hn, Bool.not_false, Bool.false_eq_true, if_false, if_true]

end

section
variable {s : State} {e : Env} {f : RegForm}

theorem exec_mark_node {pe : PeId} {r : Fin 4} (ha : e.agent = .node pe) (hm : MayRun s (.mark f) e)
    (hh : Here s e [f.a, f.b]) (hd : f.d = .q r) :
    let x := readSrc s e f.a
    exec (.mark f) s = .next (advance e true (modFiring s e fun g => { g with
      touch := g.touch ++ [r]
      marks := if x.void = true ∨ x.v.setWidth 3 = 7#3 ∧ (readSrc s e f.b).void = true ∨ predicate s e = false then g.marks
        else g.marks ++ [(r, x.v.setWidth 3, clampLevel (levels e.launch.recd) ((srcVal s e f.b).toNat % 8))] })) := by
  unfold Here at hh
  refine (exec_mark f s).trans (runWord_done hm ?_)
  simp only [hh, ha, hd, Bool.false_eq_true, if_false, Bool.or_eq_true, Bool.and_eq_true, Bool.not_eq_true', beq_iff_eq,
    or_assoc]
  rfl

/-- The token that a MARK of an action makes. -/
def markTok (s : State) (e : Env) (f : RegForm) : Token :=
  let c := (srcVal s e f.a).setWidth 3
  if c = 7 then poisonTok 0 (clampLevel (levels e.launch.recd) ((srcVal s e f.b).toNat % 8)) else ⟨c, true, 0, 0⟩

theorem exec_mark_parser {p : ParserId} (ha : e.agent = .parser p) (hm : MayRun s (.mark f) e) :
    let z := at' (coreAt s e.core).parsers p
    let t : GTok := ⟨markTok s e f, z.lastWid, currentAct s e⟩
    exec (.mark f) s = .next (
      if z.byte then advance e false (modCore s e.core fun k => modParser k p fun z =>
        if z.hold = [] then { z with out := z.out ++ [(t, z.outEdge, z.outVc)] } else { z with late := z.late ++ [(z.hold.length, t)] })
      else if z.ag = none then advance e true s
      else advance e false (modCore s e.core fun k => modParser k p fun z => { z with rel := z.rel ++ [t] })) := by
  have hh : [f.a, f.b].any (lPending s e) = false := here_parser ha _
  refine (exec_mark f s).trans (runWord_done hm ?_)
  simp only [hh, ha, Bool.false_eq_true, if_false, List.isEmpty_iff, Option.isNone_iff_eq_none]
  split
  · rfl
  · split <;> rfl

end

/-- Settles O17: MERGE by its condition and by what the taking of its port changes, MARK by its agent. -/
theorem mergeAndMark : Obligations.MergeAndMark := by
  refine ⟨fun s e f g pe ha hg => ⟨fun hm hh hv => ?void, fun r t hm hh hv hp ht => ⟨fun hs => ?takes, fun hs hn => ?restarts⟩,
    fun r hm hh hd => ?mark⟩, fun s e f p ha hm => ?action⟩
  case void => exact exec_merge_void hg hm hh hv
  case takes => exact exec_merge_takes ha hg hm hh hv hp ht ((sameSideband_iff ..).mpr hs)
  case restarts =>
    exact exec_merge_restarts ha hg hm hh hv hp ht (Bool.eq_false_iff.mpr (mt (sameSideband_iff ..).mp hs)) hn
  case mark => exact exec_mark_node ha hm hh hd
  case action => exact exec_mark_parser ha hm

/-! ## ACC (R273) -/

/-- Settles O18: by poison, the predicate and the source, and then by whether the mark ends a group of the word's level. -/
theorem nodeAccumulate : Obligations.NodeAccumulate := by
  intro s e f g r hg hb hh hm k op F v old q ends mark reset folded
  refine ⟨fun hpo => exec_flow_done hg hh (exec_acc f s) hm (by simp) ?poison,
    fun hpo hpr => exec_flow_done hg hh (exec_acc f s) hm (by simp) ?masked,
    fun hpo hpr hv => exec_flow_done hg hh (exec_acc f s) hm (by simp) ?folds,
    fun hpo hpr hv => exec_flow_done hg hh (exec_acc f s) hm (by simp) ?keeps⟩
  case poison =>
    simp only [hb, hpo, if_true]
    rfl
  case masked =>
    simp only [hb, hpo, hpr, endsGroup_iff, Option.isSome_none, Bool.not_false, Bool.false_eq_true, if_false, if_true]
    rfl
  case folds =>
    simp only [v] at hv
    simp only [hb, hpo, hpr, hv, endsGroup_iff, Option.isSome_none, Bool.not_true, Bool.not_false, Bool.or_true,
      Bool.false_eq_true, if_false, if_true]
    rw [← hb]
    rfl
  case keeps =>
    simp only [v] at hv
    simp only [hb, hpo, hpr, hv, endsGroup_iff, Option.isSome_none, Bool.not_true, Bool.or_false, Bool.false_eq_true, if_false,
      if_true]
    rw [← hb]
    rfl

end Sys2Proof.Proofs
end

section
/-! PROOFS. RET and TRAP: their words, their checks, what they leave. -/

namespace Sys2Proof.Proofs
open Sys2Proof Sys2Proof.Machine Sys2Proof.Laws

/-! ## The checks of a word -/

theorem check_eq_none {α : Type} {c : Prop} [Decidable c] {a : α} {x : Option α} :
    (if c then some a else x) = none ↔ ¬c ∧ x = none := by
  split <;> simp [*]

/-- Checks 2 to 6 of R225 pass on an F-REG word. -/
theorem checkReg_eq_none {k : ExecCtx} {sh : RegShape} {f : RegForm} : checkReg k sh f = none ↔
    sh.ctxs.contains k = true ∧
      (roleOk k sh.d f.d = true ∧ roleOk k sh.a f.a = true ∧ roleOk k sh.b f.b = true ∧ roleOk k sh.c f.c = true) ∧
      f.x &&& ~~~ sh.x = 0 ∧ mZeroOk sh.m f.m = true ∧ mFmtOk k sh.m f.m = true := by
  simp only [checkReg, check_eq_none]
  simp [and_assoc]

/-- The same on an F-IMM word. -/
theorem checkImm_eq_none {k : ExecCtx} {ctxs : List ExecCtx} {d a : Role} {m : MUse} {f : ImmForm} :
    checkImm k ctxs d a m f = none ↔ ctxs.contains k = true ∧ (roleOk k d f.d = true ∧ roleOk k a f.a = true) ∧
      mZeroOk m f.m = true ∧ mFmtOk k m f.m = true := by
  simp only [checkImm, check_eq_none]
  simp

theorem roleOk_zero {k : ExecCtx} {o : Operand} : roleOk k .zero o = true ↔ o = .x 0 := by
  simp [roleOk, isZero]

/-- In task code an operand that may be an x register or an imm7, and is no imm7, is an x register. -/
theorem roleOk_ximm_register {o : Operand} :
    roleOk .task .ximm o = true ∧ checkTask.register o = none ↔ ∃ r, o = .x r := by
  cases o <;> simp [roleOk, checkTask.register]

theorem checkStage_ret (k : ExecCtx) (f : RegForm) : checkStage k true (.ret f) =
    (checkReg k (shCtl .zero .ximm .zero .zero 0) f).or (checkTask.register f.a) :=
  Option.or_none

/-- The checks on a RET word in task code. -/
theorem ret_wf_task (f : RegForm) : (Instr.ret f).wf .task = true ↔
    ∃ r, f = { d := .x 0, a := .x r, b := .x 0, c := .x 0, m := 0, x := 0 } := by
  obtain ⟨d, a, b, c, m, x⟩ := f
  rw [Instr.wf, checkWord, checkStage_ret, Option.isNone_iff_eq_none, Option.or_eq_none_iff, checkReg_eq_none]
  constructor
  · rintro ⟨⟨-, ⟨hd, ha, hb, hc⟩, hx, hm, -⟩, hreg⟩
    obtain ⟨r, rfl⟩ := roleOk_ximm_register.1 ⟨ha, hreg⟩
    obtain rfl := roleOk_zero.1 hd
    obtain rfl := roleOk_zero.1 hb
    obtain rfl := roleOk_zero.1 hc
    obtain rfl : m = 0 := by simpa [shCtl, mZeroOk] using hm
    obtain rfl : x = 0 := BitVec.and_allOnes.symm.trans hx
    exact ⟨r, rfl⟩
  · rintro ⟨r, hf⟩
    obtain ⟨rfl, rfl, rfl, rfl, rfl, rfl⟩ := RegForm.mk.inj hf
    exact ⟨⟨rfl, ⟨rfl, rfl, rfl, rfl⟩, BitVec.zero_and, rfl, rfl⟩, rfl⟩

/-! ## RET (R309) -/

/-- The low three bits of a dword are its remainder by 8. -/
theorem extract_low3_eq_zero (v : DWord) : v.extractLsb' 0 3 = 0 ↔ v.toNat % 8 = 0 := by
  rw [← BitVec.toNat_inj, BitVec.extractLsb'_toNat]
  simp

theorem taskOf_setPc (s : State) (e : Env) (pc : DWord) :
    taskOf (setPc s e pc) e.core = (taskOf s e.core).map fun x => { x with pc := pc } := by
  rw [taskOf, setPc, coreAt_modCore_self]
  rfl

theorem setPc_eq (s : State) (e : Env) (pc : DWord) :
    setPc s e pc = modCore s e.core fun k => { k with task := taskOf (setPc s e pc) e.core } := by
  rw [taskOf_setPc]
  rfl

/-- Settles O29: the word and its checks by its form, the pc by the body of RET. -/
theorem returnSetsPc : Obligations.ReturnSetsPc := by
  intro f
  refine ⟨fun w hw => (Option.some.inj hw).symm, ret_wf_task f, fun s e hm => ⟨fun hz => ?sets, fun hz => ?misaligned⟩⟩
  case sets =>
    refine ⟨setPc s e (srcVal s e f.a), runWord_done hm (if_neg ?_), taskOf_setPc .., setPc_eq ..⟩
    exact not_not_intro ((extract_low3_eq_zero _).1 hz)
  case misaligned =>
    refine traps_of (by decide) (exec_ret f s) (if_pos ?_) hm
    exact mt (extract_low3_eq_zero _).2 hz

/-! ## TRAP (R326) -/

theorem checkStage_trap (k : ExecCtx) (ent : Bool) (f : ImmForm) :
    checkStage k ent (.trap f) = checkImm k ctxTS .zero .zero .zero f :=
  Option.or_none

theorem checkImm_trap_eq_none {k : ExecCtx} {f : ImmForm} (hk : k = .task ∨ k = .system) :
    checkImm k ctxTS .zero .zero .zero f = none ↔ f.d = .x 0 ∧ f.a = .x 0 ∧ f.m = 0 := by
  have hctx : k ∈ ctxTS := by rcases hk with rfl | rfl <;> decide
  rw [checkImm_eq_none, roleOk_zero, roleOk_zero]
  simp [hctx, mZeroOk, mFmtOk, and_assoc]

/-- In the contexts where TRAP may stand its checks can only find an illegal operand. -/
theorem checkImm_trap_some {k : ExecCtx} {f : ImmForm} (hk : k = .task ∨ k = .system)
    (h : ¬(f.d = .x 0 ∧ f.a = .x 0 ∧ f.m = 0)) :
    checkImm k ctxTS .zero .zero .zero f = some .illegalOperand := by
  have hctx : ctxTS.contains k = true := by rcases hk with rfl | rfl <;> rfl
  rw [← checkImm_trap_eq_none hk] at h
  simp only [checkImm, hctx, mFmtOk, Bool.not_true, Bool.false_eq_true, if_false] at h ⊢
  split_ifs at h ⊢
  · rfl
  · rfl
  · exact absurd rfl h

theorem trap_wf_task (f : ImmForm) : (Instr.trap f).wf .task = true ↔ f.d = .x 0 ∧ f.a = .x 0 ∧ f.m = 0 := by
  rw [Instr.wf, checkWord, checkStage_trap, Option.isNone_iff_eq_none, checkImm_trap_eq_none (.inl rfl)]

theorem exec_trap_illegal {s : State} {e : Env} {f : ImmForm} (he : envOf s (.trap f) = some e)
    (hh : heldAtIssue s e = false) (hk : e.kind = .task ∨ e.kind = .system)
    (h : ¬(f.d = .x 0 ∧ f.a = .x 0 ∧ f.m = 0)) :
    exec (.trap f) s = .next (raise .illegalOperand e.who e.who.pc 0 s) := by
  have hf : wordFault s e (.trap f) = some .illegalOperand := by
    rw [wordFault, checkStage_trap, checkImm_trap_some hk h, Option.some_or]
  have hu : issueUnit e.kind .illegalOperand (.trap f) = none := by simp [issueUnit, engCodesOk, engShape]
  rw [exec_trap, execTrap, runWord_fault he hh hf, hu, onEngine]

/-- Settles O30: TRAP's body is its fault, and a live launch takes it. -/
theorem trapEndsLaunch : Obligations.TrapEndsLaunch := by
  intro f s e
  refine ⟨fun w hw => (Option.some.inj hw).symm, trap_wf_task f, traps_of (by decide) (exec_trap f s) rfl,
    fun l hl hlive => ?_, exec_trap_illegal⟩
  have hx : f.imm.setWidth 64 = 0#32 ++ f.imm := BitVec.setWidth_eq_append (by decide)
  rw [launchBy_raise_self _ _ _ hl, takeFault_endable _ (.inl hlive), hx]
  exact ⟨_, rfl, rfl, rfl, rfl⟩

end Sys2Proof.Proofs
end

section
/-! PROOFS. The words that end a task and the words that queue a message. -/

namespace Sys2Proof.Proofs
open Sys2Proof Sys2Proof.Machine Sys2Proof.Laws

/-- The number of a unit that a register holds. -/
theorem fin_ofNat_eq {n m : Nat} [NeZero n] {c : Fin n} (h : m = c.val) : Fin.ofNat n m = c := by
  rw [h, Fin.ofNat_val_eq_self]

/-! ## TEND and DONE (R311) -/

/-- Telling the founder of a chain marks activity on its core and nothing else (R86). -/
theorem active_rest (s : State) (d c : CoreId) :
    { coreAt (active s d) c with lastAct := (coreAt s c).lastAct } = coreAt s c := by
  rw [active, coreAt_modCore]
  split
  · next h => subst h; rfl
  · rfl

theorem dropChain_rest (s : State) (c : CoreId) : ∃ cs, dropChain s c = { s with cores := cs } ∧
    ∀ c', { coreAt (dropChain s c) c' with lastAct := (coreAt s c').lastAct } = coreAt s c' := by
  unfold dropChain
  split
  · next h _ =>
    split
    · exact ⟨s.cores, rfl, fun _ => rfl⟩
    · exact ⟨_, rfl, active_rest s h.core⟩
  · exact ⟨s.cores, rfl, fun _ => rfl⟩

theorem coreAt_endTask (s : State) (c : CoreId) : coreAt (endTask s c) c = match (coreAt s c).task with
    | some t => { coreAt s c with task := none, lastPc := t.pc }
    | none => coreAt s c :=
  coreAt_modCore_self ..

theorem taskOf_endTask (s : State) (c : CoreId) : taskOf (endTask s c) c = none := by
  rw [taskOf, coreAt_endTask]
  cases h : (coreAt s c).task with
  | none => exact h
  | some t => rfl

theorem banks_endTask (s : State) (c : CoreId) : (coreAt (endTask s c) c).banks = (coreAt s c).banks := by
  rw [coreAt_endTask]
  cases (coreAt s c).task <;> rfl

theorem runs_done {s : State} {e : Env} (f : RegForm) (h : released s e 1 = true) :
    Runs s e (.done f) (endTask (chainTold s e.core) e.core) := by
  refine runs_of (exec_done f s) ?_
  rw [h]
  rfl

/-- Settles O31, by the bodies of TEND and DONE and the fields that an ended task leaves. -/
theorem taskEnds : Obligations.TaskEnds := by
  intro s e f
  refine ⟨runs_of (exec_tend f s) rfl, dropChain_rest s e.core, runs_done f, fun h => ?waits, taskOf_endTask s e.core,
    banks_endTask s e.core, rfl, rfl, fun c hc => coreAt_modCore_ne _ _ _ _ hc⟩
  case waits =>
    refine runs_wait (exec_done f s) ?_
    rw [h]
    rfl

/-! ## TPOST and MSEND (R312) -/

section
variable {s : State} {e : Env} {f : RegForm}

theorem sendMessage_room (h : (coreAt s e.core).outq.length < 16) (kind : BitVec 3) (target : CoreId) (chan : BitVec 6)
    (words : List DWord) : sendMessage s e kind target chan words = some (queued s e kind target chan words) :=
  if_neg (Nat.not_le.2 h)

theorem runs_tpost (hch : (srcVal s e f.b).toNat ≤ 63) (h : (coreAt s e.core).outq.length < 16) :
    Runs s e (.tpost f) (advance e false
      (queued s e 0 e.core ((srcVal s e f.b).setWidth 6) (messageWords s e f.c f.x.toNat))) := by
  refine runs_of (exec_tpost f s) ?_
  simp only [Nat.not_lt.2 hch, sendMessage_room h, if_false]

theorem traps_tpost (hch : 63 < (srcVal s e f.b).toNat) : Traps s e (.tpost f) .illegalOperand e.who.pc 0 :=
  traps_of (by decide) (exec_tpost f s) (if_pos hch)

theorem runs_msend {c : CoreId} (hch : (srcVal s e f.b).toNat ≤ 63) (ht : (srcVal s e f.a).toNat = c.val)
    (hc : e.launch.cores.contains c = true) (h : (coreAt s e.core).outq.length < 16) :
    Runs s e (.msend f) (advance e false
      (queued s e 1 c ((srcVal s e f.b).setWidth 6) (messageWords s e f.c f.x.toNat))) := by
  have hle : ¬ 255 < (srcVal s e f.a).toNat := by omega
  refine runs_of (exec_msend f s) ?_
  simp only [Nat.not_lt.2 hch, hle, fin_ofNat_eq ht, hc, sendMessage_room h, or_self, Bool.not_true, Bool.false_eq_true,
    if_false]

theorem traps_msend_foreign {c : CoreId} (hch : (srcVal s e f.b).toNat ≤ 63) (ht : (srcVal s e f.a).toNat = c.val)
    (hc : e.launch.cores.contains c = false) : Traps s e (.msend f) .protection e.who.pc 0 := by
  have hle : ¬ 255 < (srcVal s e f.a).toNat := by omega
  refine traps_of (by decide) (exec_msend f s) ?_
  simp only [Nat.not_lt.2 hch, hle, fin_ofNat_eq ht, hc, or_self, Bool.not_false, if_true, if_false]

theorem traps_msend_range (h : 63 < (srcVal s e f.b).toNat ∨ 255 < (srcVal s e f.a).toNat) :
    Traps s e (.msend f) .illegalOperand e.who.pc 0 :=
  traps_of (by decide) (exec_msend f s) (if_pos h)

end

/-- Settles O32, by the body of each word. -/
theorem messageWords : Obligations.MessageWords := by
  intro s e f
  exact ⟨runs_tpost, traps_tpost, fun c => runs_msend, fun c => traps_msend_foreign, traps_msend_range⟩

end Sys2Proof.Proofs
end

section
/-! PROOFS. The words that reserve a continuation and end their task. -/

namespace Sys2Proof.Proofs
open Sys2Proof Sys2Proof.Machine Sys2Proof.Laws

section
variable {s : State} {e : Env} {f : RegForm}

/-- With room in the store the running task reserves its continuation (R303, R313). -/
theorem reserveCont_room {t : Task} (ht : taskOf s e.core = some t) (h : storeUsed (coreAt s e.core) < 256)
    (chan : BitVec 6) (aw : Awaits) : reserveCont s e.core chan aw = some (s.nextId, withCont s e.core t chan aw) := by
  have htask : (coreAt s e.core).task = some t := ht
  simp only [reserveCont, htask, ge_iff_le, Nat.not_le.2 h, if_false]
  rfl

theorem splitPhase_room {t : Task} (ht : taskOf s e.core = some t) (h : storeUsed (coreAt s e.core) < 256)
    (chan : BitVec 6) (aw : Awaits) : splitPhase s e chan aw = .done (splitFrom s e t chan aw) := by
  simp only [splitPhase, reserveCont_room ht h]
  rfl

theorem splits_seqwt {c : Fin 4} (h : (srcVal s e f.a).toNat = c.val) :
    Splits s e (.seqwt f) (chanOf f.x) (.seq c ((srcVal s e f.b).setWidth 32)) := by
  refine splits_of (exec_seqwt f s) ?_
  simp only [gt_iff_lt, show ¬ 3 < (srcVal s e f.a).toNat by omega, fin_ofNat_eq h, if_false]

theorem splits_barw {b : Fin 1024} (h : (srcVal s e f.a).toNat = b.val) (h0 : b ≠ 0) :
    Splits s e (.barw f) (chanOf f.x) (.barrier b ((srcVal s e f.b).setWidth 32)) := by
  have hok : ¬((srcVal s e f.a).toNat = 0 ∨ 1023 < (srcVal s e f.a).toNat) := by
    have : b.val ≠ 0 := fun h => h0 (Fin.ext h)
    omega
  refine splits_of (exec_barw f s) ?_
  simp only [gt_iff_lt, hok, fin_ofNat_eq h, if_false]

/-- Whether a queue of the die is the launch's own. -/
def ownsQueue (s : State) (l : Launch) (q : Fin 64) : Bool :=
  (dieAt s l.rdie).rqs.any fun x => x.1 == q && x.2.launch == l.id

theorem traps_range_foreign {q : Fin 64} (h : (srcVal s e f.a).toNat = q.val) (ho : ownsQueue s e.launch q = false) :
    Traps s e (.range f) .protection e.who.pc 0 := by
  refine traps_of (by decide) (exec_range f s) ?_
  rw [ownsQueue] at ho
  simp only [gt_iff_lt, show ¬ 63 < (srcVal s e f.a).toNat by omega, fin_ofNat_eq h, ho, Bool.not_false, if_true, if_false]

theorem runs_range {q : Fin 64} {t : Task} (h : (srcVal s e f.a).toNat = q.val) (ho : ownsQueue s e.launch q = true)
    (hr : nStages e.launch.recd ≠ 0 → released s e 4 = true) (ht : taskOf s e.core = some t)
    (hu : storeUsed (coreAt s e.core) < 256) :
    let s1 := endTask (withCont s e.core t (chanOf f.x) .answer) e.core
    let s2 := if nStages e.launch.recd ≠ 0 then completeRange s1 e.launch e.core s.nextId else s1
    Runs s e (.range f) (modDie s2 e.launch.rdie fun d =>
      modRq d q fun r => { r with asks := r.asks ++ [(s.now, e.core, some s.nextId)] }) := by
  have hrel : ¬(nStages e.launch.recd ≠ 0 ∧ (!released s e 4) = true) := fun ⟨hn, hw⟩ => by simp [hr hn] at hw
  refine runs_of (exec_range f s) ?_
  rw [ownsQueue] at ho
  simp only [gt_iff_lt, show ¬ 63 < (srcVal s e f.a).toNat by omega, fin_ofNat_eq h, ho, Bool.not_true, Bool.false_eq_true, hrel,
    reserveCont_room ht hu, if_false]

end

/-- Settles O33, by the body of each word. -/
theorem splitPhaseWords : Obligations.SplitPhaseWords := by
  intro s e f w
  exact ⟨splits_of (exec_wait w s) rfl, fun c => splits_seqwt, fun h => traps_of (by decide) (exec_seqwt f s) (if_pos h),
    fun b => splits_barw, fun h => traps_of (by decide) (exec_barw f s) (if_pos h),
    fun h => traps_of (by decide) (exec_range f s) (if_pos h),
    fun q hq => ⟨traps_range_foreign hq, fun t => runs_range hq⟩⟩

end Sys2Proof.Proofs
end

section
/-! PROOFS. What posting a message or a continuation leaves of a core. -/

namespace Sys2Proof.Proofs
open Sys2Proof Sys2Proof.Machine Sys2Proof.Laws

/-! ## Two changes of one core or die -/

theorem put_put {α : Type} {n : Nat} (v : Vector α n) (i : Fin n) (x y : α) : put (put v i x) i y = put v i y := by
  simp [put]

theorem modCore_modCore (s : State) (c : CoreId) (f g : Core → Core) :
    modCore (modCore s c f) c g = modCore s c fun k => g (f k) := by
  simp only [modCore, put_put, at_put_self]

theorem modDie_modDie (s : State) (d : DieId) (f g : Die → Die) :
    modDie (modDie s d f) d g = modDie s d fun x => g (f x) := by
  simp only [modDie, put_put, at_put_self]

/-! ## Messages (R303) -/

/-- Counting an event changes the register block and the counts of this cycle alone (R325). -/
theorem coreAt_countEvent (s : State) (c : CoreId) (n : Fin 8) :
    ∃ b v, coreAt (countEvent s c n) c = { coreAt s c with blk := b, cntNow := v } := by
  rw [countEvent, coreAt_modCore_self]
  dsimp only
  split
  · exact ⟨_, _, rfl⟩
  · exact ⟨_, _, rfl⟩

theorem coreAt_acceptMsg (s : State) (c : CoreId) (m : Msg) : ∃ b v, coreAt (acceptMsg s c m) c =
    { coreAt s c with store := (coreAt s c).store ++ [m], blk := b, cntNow := v } := by
  obtain ⟨b, v, h⟩ := coreAt_countEvent (modCore s c fun k => { k with store := k.store ++ [m] }) c 1
  exact ⟨b, v, by rw [acceptMsg, h, coreAt_modCore_self]⟩

/-! ## Continuations (R313) -/

/-- The CONT message of a continuation. -/
def contMsg (c : CoreId) (x : Cont) (ws : List DWord) : Msg := ⟨2, x.chan, x.chan, ws, x.wid, c, x.chain⟩

/-- A posted WAIT clears the pending bits of the registers that have arrived (R314). -/
def arrivedCleared (x : Cont) (k : Core) : Core :=
  match x.awaits with
  | .counts _ _ _ _ _ => modBank k x.bank fun b => { b with pend := b.pend &&& ~~~ b.come, come := 0 }
  | _ => k

/-- A core without its continuation `x`. -/
def withdrawn (x : Cont) (k : Core) : Core := { arrivedCleared x k with conts := k.conts.filter (·.n != x.n) }

theorem postCont_eq (s : State) (c : CoreId) (x : Cont) (ws : List DWord) :
    postCont s c x ws = active (countEvent (acceptMsg (modCore s c (withdrawn x)) c (contMsg c x ws)) c 7) c := by
  unfold postCont withdrawn arrivedCleared
  cases x.awaits with
  | counts =>
    simp only [modCore_modCore]
    rfl
  | _ => rfl

theorem arrivedCleared_store (x : Cont) (k : Core) : (arrivedCleared x k).store = k.store := by
  unfold arrivedCleared
  split <;> rfl

theorem arrivedCleared_task (x : Cont) (k : Core) : (arrivedCleared x k).task = k.task := by
  unfold arrivedCleared
  split <;> rfl

theorem arrivedCleared_barriers (x : Cont) (k : Core) : (arrivedCleared x k).barriers = k.barriers := by
  unfold arrivedCleared
  split <;> rfl

/-- A core that has posted its continuation `x`, but for the counts of events. -/
def postedCore (now : Nat) (c : CoreId) (x : Cont) (ws : List DWord) (k : Core) : Core :=
  { withdrawn x k with store := k.store ++ [contMsg c x ws], lastAct := now }

theorem coreAt_postCont (s : State) (c : CoreId) (x : Cont) (ws : List DWord) : ∃ b v,
    coreAt (postCont s c x ws) c = { postedCore s.now c x ws (coreAt s c) with blk := b, cntNow := v } := by
  obtain ⟨b, v, h⟩ := coreAt_acceptMsg (modCore s c (withdrawn x)) c (contMsg c x ws)
  obtain ⟨b', v', h'⟩ := coreAt_countEvent (acceptMsg (modCore s c (withdrawn x)) c (contMsg c x ws)) c 7
  refine ⟨b', v', ?_⟩
  rw [postCont_eq, coreAt_active, h', h, coreAt_modCore_self, withdrawn, arrivedCleared_store]
  rfl

theorem postIfReady_ready {s : State} {c : CoreId} {n : Nat} {x : Cont} {ws : List DWord}
    (hx : (coreAt s c).conts.find? (·.n == n) = some x) (hw : contWords (coreAt s c) x = some ws) :
    postIfReady s c n = postCont s c x ws := by
  simp only [postIfReady, hx, hw]

/-- A continuation is posted, or nothing happens. -/
theorem postIfReady_cases (s : State) (c : CoreId) (n : Nat) :
    postIfReady s c n = s ∨ ∃ x ws, postIfReady s c n = postCont s c x ws := by
  unfold postIfReady
  split
  · exact .inl rfl
  · split
    · exact .inl rfl
    · exact .inr ⟨_, _, rfl⟩

theorem postIfReady_barriers (s : State) (c : CoreId) (n : Nat) :
    (coreAt (postIfReady s c n) c).barriers = (coreAt s c).barriers := by
  rcases postIfReady_cases s c n with h | ⟨x, ws, h⟩
  · rw [h]
  · obtain ⟨b, v, hk⟩ := coreAt_postCont s c x ws
    rw [h, hk]
    exact arrivedCleared_barriers x _

theorem postIfReady_task (s : State) (c : CoreId) (n : Nat) :
    (coreAt (postIfReady s c n) c).task = (coreAt s c).task := by
  rcases postIfReady_cases s c n with h | ⟨x, ws, h⟩
  · rw [h]
  · obtain ⟨b, v, hk⟩ := coreAt_postCont s c x ws
    rw [h, hk]
    exact arrivedCleared_task x _

end Sys2Proof.Proofs
end

section
/-! PROOFS. The words that arrive at a barrier (R318, R320). -/

namespace Sys2Proof.Proofs
open Sys2Proof Sys2Proof.Machine Sys2Proof.Laws

/-! ## Barriers of a core -/

theorem barrierAt_setBarrier (k : Core) (b : Fin 1024) (x : Barrier) : barrierAt (setBarrier k b x) b = x := by
  have hnone : (k.barriers.filter (·.1 != b)).find? (·.1 == b) = none := by
    simp
  simp [barrierAt, setBarrier, List.find?_append, hnone]

theorem barrierAt_congr {k k' : Core} (h : k'.barriers = k.barriers) (b : Fin 1024) : barrierAt k' b = barrierAt k b := by
  rw [barrierAt, barrierAt, h]

theorem writeDst_barriers (s : State) (e : Env) (o : Operand) (void : Bool) (v : DWord) (fmt : Fmt) :
    (coreAt (writeDst s e o void v fmt) e.core).barriers = (coreAt s e.core).barriers := by
  unfold writeDst
  repeat' split
  all_goals simp [modBank, modParser, modNode]

theorem advance_barriers (s : State) (e : Env) (done : Bool) :
    (coreAt (advance e done s) e.core).barriers = (coreAt s e.core).barriers := by
  unfold advance
  split
  all_goals simp [modParser, modNode]

theorem endTask_barriers (s : State) (c : CoreId) : (coreAt (endTask s c) c).barriers = (coreAt s c).barriers := by
  rw [coreAt_endTask]
  split <;> rfl

/-- A split-phase word touches no barrier. -/
theorem splitFrom_barriers (s : State) (e : Env) (t : Task) (chan : BitVec 6) (aw : Awaits) :
    (coreAt (splitFrom s e t chan aw) e.core).barriers = (coreAt s e.core).barriers := by
  rw [splitFrom, postIfReady_barriers, endTask_barriers, withCont, coreAt_modCore_self]
  rfl

theorem taskOf_splitFrom (s : State) (e : Env) (t : Task) (chan : BitVec 6) (aw : Awaits) :
    taskOf (splitFrom s e t chan aw) e.core = none :=
  (postIfReady_task ..).trans (taskOf_endTask ..)

/-! ## An arrival -/

/-- An arrival at barrier `x` with count `n` at scope `sc` meets phase `ph` with the counts `p`, and makes `y` of the barrier
where it joins. -/
def Meets (x : Barrier) (n sc : Nat) (ph : Word) (p : Phase) (y : Barrier) : Prop :=
  (partDone x.cur = false ∧ ph = x.phase ∧ p = x.cur ∧ y = { x with cur := ⟨x.cur.cnt + 1, n, sc⟩ }) ∨
  (partDone x.cur = true ∧ partDone x.nxt = false ∧ ph = x.phase + 1 ∧ p = x.nxt ∧
    y = { x with nxt := ⟨x.nxt.cnt + 1, n, sc⟩ })

/-- The counts `p` of phase `ph` and the other cores let an arrival join. -/
def Agrees (s : State) (l : Launch) (c : CoreId) (b : Fin 1024) (n sc : Nat) (ph : Word) (p : Phase) : Prop :=
  (p.cnt = 0 ∨ p.e = n ∧ p.s = sc) ∧ scopesClash s l c b ph sc = false

/-- The counts `p` of phase `ph` were opened with another count or scope, or another core is at another scope. -/
def Differs (s : State) (l : Launch) (c : CoreId) (b : Fin 1024) (n sc : Nat) (ph : Word) (p : Phase) : Prop :=
  p.cnt ≠ 0 ∧ (p.e ≠ n ∨ p.s ≠ sc) ∨ scopesClash s l c b ph sc = true

theorem meets_cur {x : Barrier} {n sc : Nat} (h : partDone x.cur = false) :
    Meets x n sc x.phase x.cur { x with cur := ⟨x.cur.cnt + 1, n, sc⟩ } := .inl ⟨h, rfl, rfl, rfl⟩

/-- Of the two phases that a barrier holds, the first whose part is not complete. -/
theorem meets_of_mem {x y : Barrier} {n sc : Nat} {ph : Word}
    (h : (true, ph, y) ∈ [(!partDone x.cur, x.phase, { x with cur := ⟨x.cur.cnt + 1, n, sc⟩ }),
      (partDone x.cur && !partDone x.nxt, x.phase + 1, { x with nxt := ⟨x.nxt.cnt + 1, n, sc⟩ })]) :
    Meets x n sc ph (if ph = x.phase then x.cur else x.nxt) y := by
  have hne : x.phase + 1 ≠ x.phase := by simp
  simp only [List.mem_cons, Prod.mk.injEq, List.not_mem_nil, or_false] at h
  rcases h with ⟨hopen, rfl, rfl⟩ | ⟨hopen, rfl, rfl⟩
  · exact .inl ⟨by simpa using hopen.symm, rfl, if_pos rfl, rfl⟩
  · obtain ⟨hcur, hnxt⟩ : partDone x.cur = true ∧ partDone x.nxt = false := by simpa using hopen.symm
    exact .inr ⟨hcur, hnxt, rfl, if_neg hne, rfl⟩

section
variable {s : State} {l : Launch} {c : CoreId} {b : Fin 1024} {x y : Barrier} {n sc : Nat} {ph : Word} {p : Phase}

theorem arrive_joins (hx : barrierAt (coreAt s c) b = x) (hm : Meets x n sc ph p y) (h : Agrees s l c b n sc ph p) :
    arrive s l c b n sc = .joined (modCore s c fun k => setBarrier k b y) ph := by
  obtain ⟨hcounts, hscope⟩ := h
  have hok : ¬(p.cnt ≠ 0 ∧ (p.e ≠ n ∨ p.s ≠ sc)) := by
    rintro ⟨h0, hd⟩
    rcases hcounts with h | ⟨he, hs⟩
    · exact h0 h
    · exact hd.elim (· he) (· hs)
  rcases hm with ⟨hcur, rfl, rfl, rfl⟩ | ⟨hcur, hnxt, rfl, rfl, rfl⟩
  · simp only [arrive, hx, hcur, hok, hscope, Bool.not_false, Bool.false_eq_true, if_true, if_false]
  · simp only [arrive, hx, hcur, hnxt, hok, hscope, Bool.not_false, Bool.not_true, Bool.false_eq_true, if_true, if_false]

theorem arrive_differs (hx : barrierAt (coreAt s c) b = x) (hm : Meets x n sc ph p y) (h : Differs s l c b n sc ph p) :
    arrive s l c b n sc = .clash ph := by
  have hclash (z : Arrival) : (if p.cnt ≠ 0 ∧ (p.e ≠ n ∨ p.s ≠ sc) then Arrival.clash ph
      else if scopesClash s l c b ph sc then .clash ph else z) = .clash ph := by
    rcases h with h | h
    · exact if_pos h
    · rw [h, if_pos rfl, ite_self]
  rcases hm with ⟨hcur, rfl, rfl, rfl⟩ | ⟨hcur, hnxt, rfl, rfl, rfl⟩
  · simp only [arrive, hx, hcur, Bool.not_false, if_true]
    exact hclash _
  · simp only [arrive, hx, hcur, hnxt, Bool.not_true, Bool.not_false, Bool.false_eq_true, if_true, if_false]
    exact hclash _

/-- A third phase does not open. -/
theorem arrive_third (hx : barrierAt (coreAt s c) b = x) (hcur : partDone x.cur = true) (hnxt : partDone x.nxt = true) :
    arrive s l c b n sc = .clash (x.phase + 2) := by
  simp only [arrive, hx, hcur, hnxt, Bool.not_true, Bool.false_eq_true, if_false]

end

/-! ## BARA and GBAR -/

section
variable {s : State} {e : Env} {f : RegForm} {b : Fin 1024}

/-- The word `i` arrives at barrier `b` with count `n` at scope `sc`: it waits for its release, and raises BARRIER where its
arrival clashes. -/
def IsArrival (s : State) (e : Env) (i : Instr) (b : Fin 1024) (n sc : Nat) : Prop :=
  (released s e sc = false → Runs s e i s) ∧
  (released s e sc = true → ∀ ph, arrive s e.launch e.core b n sc = .clash ph → Runs s e i (barrierFault s e b ph))

theorem isArrival_bara (ha : (srcVal s e f.a).toNat = b.val)
    (hok : barrierArgsOk b.val (srcVal s e f.b).toNat (srcVal s e f.c).toNat = true) :
    IsArrival s e (.bara f) b (srcVal s e f.b).toNat (srcVal s e f.c).toNat := by
  refine ⟨fun hr => runs_wait (exec_bara f s) ?_, fun hr ph h => runs_of (exec_bara f s) ?_⟩
  · simp only [ha, hok, hr, Bool.not_true, Bool.not_false, Bool.false_eq_true, if_true, if_false]
  · simp only [ha, hok, hr, fin_ofNat_eq rfl, h, Bool.not_true, Bool.false_eq_true, if_false]

theorem isArrival_gbar (ha : (srcVal s e f.a).toNat = b.val) (hok : barrierArgsOk b.val (srcVal s e f.b).toNat 4 = true) :
    IsArrival s e (.gbar f) b (srcVal s e f.b).toNat 4 := by
  refine ⟨fun hr => runs_wait (exec_gbar f s) ?_, fun hr ph h => runs_of (exec_gbar f s) ?_⟩
  · simp only [ha, hok, hr, Bool.not_true, Bool.not_false, Bool.false_eq_true, if_true, if_false]
  · simp only [ha, hok, hr, fin_ofNat_eq rfl, h, Bool.not_true, Bool.false_eq_true, if_false]

theorem traps_bara (ha : (srcVal s e f.a).toNat = b.val)
    (hok : barrierArgsOk b.val (srcVal s e f.b).toNat (srcVal s e f.c).toNat = false) :
    Traps s e (.bara f) .illegalOperand e.who.pc 0 := by
  refine traps_of (by decide) (exec_bara f s) ?_
  simp only [ha, hok, Bool.not_false, if_true]

theorem traps_gbar (ha : (srcVal s e f.a).toNat = b.val) (hok : barrierArgsOk b.val (srcVal s e f.b).toNat 4 = false) :
    Traps s e (.gbar f) .illegalOperand e.who.pc 0 := by
  refine traps_of (by decide) (exec_gbar f s) ?_
  simp only [ha, hok, Bool.not_false, if_true]

/-- What a BARA leaves that has joined phase `ph`, before it goes on: D written, and of an action the word noted that is done
with the phase (R63). -/
def baraJoined (s : State) (e : Env) (d : Operand) (b : Fin 1024) (ph : Word) (s1 : State) : State :=
  let s2 := writeDst s1 e d false (ph.setWidth 64) .raw
  match e.agent, currentAct s e with
  | .parser p, some a => modCore s2 e.core fun k => { k with arrivals := k.arrivals ++ [(p, a, b, ph)] }
  | _, _ => s2

theorem runs_bara_joined {s1 : State} {ph : Word} (ha : (srcVal s e f.a).toNat = b.val)
    (hok : barrierArgsOk b.val (srcVal s e f.b).toNat (srcVal s e f.c).toNat = true)
    (hr : released s e (srcVal s e f.c).toNat = true)
    (h : arrive s e.launch e.core b (srcVal s e f.b).toNat (srcVal s e f.c).toNat = .joined s1 ph) :
    Runs s e (.bara f) (advance e false (baraJoined s e f.d b ph s1)) := by
  refine runs_of (exec_bara f s) ?_
  simp only [ha, hok, hr, fin_ofNat_eq rfl, h, Bool.not_true, Bool.false_eq_true, if_false]
  rfl

theorem barrierAt_baraJoined (d : Operand) (ph : Word) (s1 : State) :
    barrierAt (coreAt (advance e false (baraJoined s e d b ph s1)) e.core) b = barrierAt (coreAt s1 e.core) b := by
  apply barrierAt_congr
  rw [advance_barriers, baraJoined, ← writeDst_barriers s1 e d false (ph.setWidth 64) .raw]
  split
  · rw [coreAt_modCore_self]
  · rfl

theorem readX_baraJoined {d : BankId} {r : Fin 32} (hb : e.agent = .bank d) (hr : r ≠ 0) (ph : Word) (s1 : State) :
    readX (at' (coreAt (advance e false (baraJoined s e (.x r) b ph s1)) e.core).banks d) r = ph.setWidth 64 := by
  have hj : baraJoined s e (.x r) b ph s1 = writeDst s1 e (.x r) false (ph.setWidth 64) .raw := by
    rw [baraJoined, hb]
  rw [hj, advance_bank hb, coreAt_modCore_self, writeDst_bank_eq hb]
  show readX (at' (modBank _ d _).banks d) r = _
  rw [bank_modBank, if_pos rfl, destBank, readX_writeX, if_pos ⟨rfl, hr⟩]

theorem runs_gbar_joined {t : Task} {y : Barrier} {ph : Word} (ha : (srcVal s e f.a).toNat = b.val)
    (hok : barrierArgsOk b.val (srcVal s e f.b).toNat 4 = true) (hr : released s e 4 = true)
    (ht : taskOf s e.core = some t) (hu : storeUsed (coreAt s e.core) < 256)
    (h : arrive s e.launch e.core b (srcVal s e f.b).toNat 4 = .joined (modCore s e.core fun k => setBarrier k b y) ph) :
    Runs s e (.gbar f) (splitFrom (modCore s e.core fun k => setBarrier k b y) e t (chanOf f.x) (.barrier b ph)) := by
  have ht' : taskOf (modCore s e.core fun k => setBarrier k b y) e.core = some t := by
    rw [taskOf, coreAt_modCore_self]
    exact ht
  have hu' : storeUsed (coreAt (modCore s e.core fun k => setBarrier k b y) e.core) < 256 := by
    rw [coreAt_modCore_self]
    exact hu
  refine runs_of (exec_gbar f s) ?_
  simp only [ha, hok, hr, fin_ofNat_eq rfl, h, Bool.not_true, Bool.false_eq_true, if_false]
  exact splitPhase_room ht' hu' ..

end

/-- Settles O34: what the arrival comes to decides, by the phase that it meets. -/
theorem barrierWords : Obligations.BarrierWords := by
  intro s e f b x n scope hx ha joins arrived at1 differs clashes
  have hclashes (i : Instr) (sc : Nat) (h : barrierArgsOk b.val n sc = true → IsArrival s e i b n sc) : clashes i sc := by
    intro hok
    obtain ⟨hwait, hfault⟩ := h hok
    exact ⟨hwait, fun hr => ⟨fun ph y hy hd => hfault hr ph (arrive_differs hx (meets_of_mem hy) hd),
      fun hcur hnxt => hfault hr _ (arrive_third hx hcur hnxt)⟩⟩
  refine ⟨hclashes _ _ (isArrival_bara ha), hclashes _ _ (isArrival_gbar ha), traps_bara ha, traps_gbar ha,
    fun hok hr ph y hy hj => runs_bara_joined ha hok hr (arrive_joins hx (meets_of_mem hy) hj),
    fun hok hr t ht hu ph y hy hj => runs_gbar_joined ha hok hr ht hu (arrive_joins hx (meets_of_mem hy) hj),
    fun hcur => ⟨fun hm hok hr hj => ?bara, fun k hm hok hr hk hu hj => ?gbar⟩⟩
  case bara =>
    refine ⟨_, runs_bara_joined ha hok hr (arrive_joins hx (meets_cur hcur) hj) hm, ?_, fun d r hd hf h0 => ?_⟩
    · rw [barrierAt_baraJoined, coreAt_modCore_self, barrierAt_setBarrier]
    · rw [hf]
      exact readX_baraJoined hd h0 _ _
  case gbar =>
    refine ⟨_, runs_gbar_joined ha hok hr hk hu (arrive_joins hx (meets_cur hcur) hj) hm, ?_, taskOf_splitFrom ..⟩
    rw [barrierAt_congr (splitFrom_barriers ..), coreAt_modCore_self, barrierAt_setBarrier]

end Sys2Proof.Proofs
end

section
/-! PROOFS. CNTRD, MFS and MTS. -/

namespace Sys2Proof.Proofs
open Sys2Proof Sys2Proof.Machine Sys2Proof.Laws

/-! ## CLKST (R418, R439) -/

/-- CLKST: whether the clock is stepped down, and the temperature. -/
def clkst (stepped : Bool) (temp : BitVec 8) : DWord := BitVec.ofNat 64 ((if stepped then 1 else 0) + temp.toNat * 256)

theorem sysReg_clkst (s : State) (c : CoreId) :
    sysReg s c 0x808 = some (clkst (dieAt s (dieOf c)).stepped (dieAt s (dieOf c)).temp) := rfl

/-- No system register stands above CLKST. -/
theorem sysReg_above (s : State) (c : CoreId) {i : Nat} (h : 0x809 ≤ i) : sysReg s c i = none := by
  unfold sysReg
  dsimp only
  split
  case h_10 => rfl -- every index but those of the nine registers
  all_goals omega

/-- Whether the clock is stepped down after a temperature: the thresholds of R439. -/
def stepsDown (t : BitVec 8) (was : Bool) : Bool := if 100 ≤ t.toNat then true else if t.toNat < 95 then false else was

theorem noteTemp_eq (s : State) (d : DieId) (t : BitVec 8) :
    noteTemp s d t = modDie { s with powered := s.powered && t.toNat < 110 } d fun x =>
      { x with stepped := stepsDown t (dieAt s d).stepped, temp := t, tempAt := some s.now } := by
  unfold noteTemp
  by_cases ht : 110 ≤ t.toNat
  · simp only [ht, if_true, Nat.not_lt.2 ht, decide_false, Bool.and_false]
    rfl
  · simp only [ht, if_false, Nat.not_le.1 ht, decide_true, Bool.and_true]
    rfl

theorem measured_known {s : State} {d : DieId} (h : (dieAt s d).tempAt = some s.now) : measured s d = s := if_pos h

theorem measured_new {s : State} {d : DieId} (h : (dieAt s d).tempAt ≠ some s.now) :
    measured s d = noteTemp s d (Config.temp d s.now) := if_neg h

section
variable {s : State} {e : Env} {f : ImmForm} {g : RegForm}

/-! ## CNTRD (R325) -/

theorem runs_cntrd {k : Fin 8} (h : (srcVal s e g.a).toNat = k.val) : Runs s e (.cntrd g)
    (advance e true (writeDst s e g.d false (at' (coreAt s e.core).blk.ctr k) .raw)) := by
  refine runs_of (exec_cntrd g s) ?_
  simp only [gt_iff_lt, show ¬ 7 < (srcVal s e g.a).toNat by omega, fin_ofNat_eq h, if_false]

/-! ## MFS and MTS below 0x800 -/

/-- What an MFS leaves that has read `v`. -/
def mfsLeaves (e : Env) (f : ImmForm) (s1 : State) (v : DWord) : State := advance e true (writeDst s1 e f.d false v .raw)

theorem runs_mfs_special {v : DWord} {s1 : State} (hi : f.imm.toNat < 0x800)
    (h : readSpecial s e f.imm.toNat = some (v, s1)) : Runs s e (.mfs f) (mfsLeaves e f s1 v) := by
  refine runs_of (exec_mfs f s) ?_
  simp only [ge_iff_le, Nat.not_le.2 hi, h, if_false]
  rfl

theorem traps_mfs_special (hi : f.imm.toNat < 0x800) (h : readSpecial s e f.imm.toNat = none) :
    Traps s e (.mfs f) .illegalOperand e.who.pc 0 := by
  refine traps_of (by decide) (exec_mfs f s) ?_
  simp only [ge_iff_le, Nat.not_le.2 hi, h, if_false]

theorem runs_mts_special {s1 : State} (hi : f.imm.toNat < 0x800)
    (h : writeSpecial s e.core e.launch.ctx f.imm.toNat (srcVal s e f.a) = .ok s1) :
    Runs s e (.mts f) (advance e true s1) := by
  refine runs_of (exec_mts f s) ?_
  simp only [ge_iff_le, Nat.not_le.2 hi, h, if_false]

theorem traps_mts_special (hi : f.imm.toNat < 0x800)
    (h : writeSpecial s e.core e.launch.ctx f.imm.toNat (srcVal s e f.a) = .bad) :
    Traps s e (.mts f) .illegalOperand e.who.pc 0 := by
  refine traps_of (by decide) (exec_mts f s) ?_
  simp only [ge_iff_le, Nat.not_le.2 hi, h, if_false]

theorem runs_mts_busy (hi : f.imm.toNat < 0x800)
    (h : writeSpecial s e.core e.launch.ctx f.imm.toNat (srcVal s e f.a) = .busy) : Runs s e (.mts f) s := by
  refine runs_wait (exec_mts f s) ?_
  simp only [ge_iff_le, Nat.not_le.2 hi, h, if_false]

/-! ## The system registers -/

theorem traps_privilege (hi : 0x800 ≤ f.imm.toNat) (hk : e.kind ≠ .system) :
    Traps s e (.mfs f) .privilege e.who.pc 0 ∧ Traps s e (.mts f) .privilege e.who.pc 0 := by
  refine ⟨traps_of (by decide) (exec_mfs f s) ?_, traps_of (by decide) (exec_mts f s) ?_⟩
  · simp only [ge_iff_le, hi, hk, ne_eq, not_false_eq_true, if_true]
  · simp only [ge_iff_le, hi, hk, ne_eq, not_false_eq_true, if_true]

theorem runs_mfs_system {v : DWord} (hk : e.kind = .system) (hi : 0x800 ≤ f.imm.toNat) (hc : f.imm.toNat ≠ 0x808)
    (h : sysReg s e.core f.imm.toNat = some v) : Runs s e (.mfs f) (mfsLeaves e f s v) := by
  refine runs_of (exec_mfs f s) ?_
  simp only [ge_iff_le, hi, hk, hc, h, ne_eq, not_true_eq_false, if_true, if_false]
  rfl

/-- A read of CLKST measures the die's temperature. -/
theorem runs_mfs_clkst (hk : e.kind = .system) (hc : f.imm.toNat = 0x808) : Runs s e (.mfs f)
    (mfsLeaves e f (measured s (dieOf e.core)) (clkst (dieAt (measured s (dieOf e.core)) (dieOf e.core)).stepped
      (dieAt (measured s (dieOf e.core)) (dieOf e.core)).temp)) := by
  refine runs_of (exec_mfs f s) ?_
  simp only [ge_iff_le, hk, hc, sysReg_clkst, ne_eq, not_true_eq_false, Nat.reduceLeDiff, if_true, if_false]
  rfl

theorem runs_mfs_clkst_known (hk : e.kind = .system) (hc : f.imm.toNat = 0x808)
    (h : (dieAt s (dieOf e.core)).tempAt = some s.now) : Runs s e (.mfs f)
    (mfsLeaves e f s (clkst (dieAt s (dieOf e.core)).stepped (dieAt s (dieOf e.core)).temp)) := by
  have hr := runs_mfs_clkst (s := s) hk hc
  rwa [measured_known h] at hr

theorem runs_mfs_clkst_new (hk : e.kind = .system) (hc : f.imm.toNat = 0x808)
    (h : (dieAt s (dieOf e.core)).tempAt ≠ some s.now) :
    let t := Config.temp (dieOf e.core) s.now
    let b := stepsDown t (dieAt s (dieOf e.core)).stepped
    Runs s e (.mfs f) (mfsLeaves e f (modDie { s with powered := s.powered && t.toNat < 110 } (dieOf e.core) fun x =>
      { x with stepped := b, temp := t, tempAt := some s.now }) (clkst b t)) := by
  intro t b
  have hr := runs_mfs_clkst (s := s) hk hc
  rw [measured_new h, noteTemp_eq, dieAt_modDie, if_pos rfl] at hr
  exact hr

theorem runs_mts_system (hk : e.kind = .system) (hi : 0x800 ≤ f.imm.toNat) (hle : f.imm.toNat ≤ 0x808) :
    Runs s e (.mts f) (advance e true s) := by
  refine runs_of (exec_mts f s) ?_
  simp only [ge_iff_le, hi, hk, show ¬ 0x809 ≤ f.imm.toNat by omega, ne_eq, not_true_eq_false, if_true, if_false]

theorem traps_system_above (hk : e.kind = .system) (hi : 0x809 ≤ f.imm.toNat) :
    Traps s e (.mfs f) .illegalOperand e.who.pc 0 ∧ Traps s e (.mts f) .illegalOperand e.who.pc 0 := by
  have hsys : 0x800 ≤ f.imm.toNat := by omega
  refine ⟨traps_of (by decide) (exec_mfs f s) ?_, traps_of (by decide) (exec_mts f s) ?_⟩
  · simp only [ge_iff_le, hsys, hk, sysReg_above _ _ hi, ne_eq, not_true_eq_false, if_true, if_false]
  · simp only [ge_iff_le, hsys, hk, hi, ne_eq, not_true_eq_false, if_true, if_false]

end

/-- Settles O35, by the range that the index lies in. -/
theorem specialRegisterWords : Obligations.SpecialRegisterWords := by
  intro s e f g
  exact ⟨fun k => runs_cntrd, fun h => traps_of (by decide) (exec_cntrd g s) (if_pos h),
    fun hi => ⟨fun v s1 => runs_mfs_special hi, traps_mfs_special hi, fun s1 => runs_mts_special hi, traps_mts_special hi,
      runs_mts_busy hi⟩,
    traps_privilege,
    fun hk => ⟨fun v => runs_mfs_system hk, fun hc => ⟨runs_mfs_clkst_known hk hc, runs_mfs_clkst_new hk hc⟩,
      runs_mts_system hk, traps_system_above hk⟩⟩

end Sys2Proof.Proofs
end

section
/-! PROOFS. The words that hand a command to an engine or a parser, and GSKIP. -/

namespace Sys2Proof.Proofs
open Sys2Proof Sys2Proof.Machine Sys2Proof.Laws

/-- The commands with a queue are those with operands. -/
theorem engQueue_isSome (i : Instr) : (engQueue i).isSome = (commandOperands i).isSome := by
  cases i <;> rfl

section
variable {s : State} {e : Env} {i : Instr} {q : EngQ} {o : Operand × Operand × Operand × Operand}

/-- A task counts the command in its category and marks its result's register (R314, R332). -/
theorem runs_command_bank {b : BankId} (hq : engQueue i = some q) (ho : commandOperands i = some o) (hb : e.agent = .bank b)
    (h : catCount (at' (coreAt s e.core).banks b) (waitCat i) < 64) :
    Runs s e i (advance e false (modCore (offered s e i q o) e.core fun k => modBank k b fun y =>
      setPending (modCat y (waitCat i) (· + 1)) (resultReg i))) := by
  refine runs_of (engine_word i q o s hq ho) ?_
  simp only [issueCommand, hq, hb, ge_iff_le, Nat.not_le.2 h, if_false]
  rfl

theorem runs_command_full {b : BankId} (hq : engQueue i = some q) (ho : commandOperands i = some o) (hb : e.agent = .bank b)
    (h : 64 ≤ catCount (at' (coreAt s e.core).banks b) (waitCat i)) : Runs s e i s := by
  refine runs_wait (engine_word i q o s hq ho) ?_
  simp only [issueCommand, hq, hb, ge_iff_le, h, if_true]

/-- An action goes on, or parks at a word with a result (R332). -/
theorem runs_command_parser {p : ParserId} (hq : engQueue i = some q) (ho : commandOperands i = some o)
    (hp : e.agent = .parser p) : Runs s e i (
      if (resultOperand i).isSome then modCore (offered s e i q o) e.core fun k => modParser k p fun y =>
        { y with run := y.run.map fun g => { g with parked := true } }
      else advance e false (offered s e i q o)) := by
  refine runs_of (engine_word i q o s hq ho) ?_
  simp only [issueCommand, hq, hp]
  cases (resultOperand i).isSome <;> rfl

/-- A parser whose action has done `n` words at once. -/
def skipsWords (n : Nat) (z : Parser) : Parser :=
  match z.run with
  | some r => actAdvance (actDone z r.id n) n
  | none => z

theorem runs_gskip {p : ParserId} (f : SkipForm) (hp : e.agent = .parser p) :
    Runs s e (.gskip f) (modCore s e.core fun k => modParser k p
      (skipsWords (if condHolds f.cc.toNat (srcVal s e f.a) (srcVal s e f.b) then 1 + f.n.toNat else 1))) := by
  refine runs_of (exec_gskip f s) ?_
  simp only [hp]
  rfl

end

/-- Settles O39: a command word hands its command over, whose end its agent decides. -/
theorem engineWords : Obligations.EngineWords := by
  refine ⟨engQueue_isSome, fun s e i q o f => ⟨fun p => runs_gskip f, fun hq ho => ⟨fun b => runs_command_bank hq ho,
    fun b => runs_command_full hq ho, fun p => runs_command_parser hq ho⟩⟩⟩

end Sys2Proof.Proofs
end

section
/-! PROOFS. The steps of the task unit. -/

namespace Sys2Proof.Proofs
open Sys2Proof Sys2Proof.Machine Sys2Proof.Laws

/-! ## The message that is selected (R301) -/

/-- What the selection keeps of the messages looked at so far: the ready one of the most urgent priority. -/
def IsMostUrgent (k : Core) (ms : List Msg) : Option (Msg × DWord × Bool) → Prop
  | none => ∀ m ∈ ms, ∀ h r, readiness k m ≠ .go h r
  | some (m, h, r) => m ∈ ms ∧ readiness k m = .go h r ∧
      ∀ m' h' r', m' ∈ ms → readiness k m' = .go h' r' → field h 61 59 ≤ field h' 61 59

/-- One message looked at by the selection. -/
def moreUrgent (k : Core) (best : Option (Msg × DWord × Bool)) (m : Msg) : Option (Msg × DWord × Bool) :=
  match readiness k m with
  | .go h r => match best with
    | none => some (m, h, r)
    | some (_, h', _) => if field h 61 59 < field h' 61 59 then some (m, h, r) else best
  | _ => best

theorem selectMsg_eq (k : Core) : selectMsg k = k.store.foldl (moreUrgent k) none := rfl

section
variable {k : Core} {ms : List Msg} {best : Option (Msg × DWord × Bool)} {m : Msg}

/-- A message that is not ready changes nothing. -/
theorem isMostUrgent_skip (hb : IsMostUrgent k ms best) (hm : ∀ h r, readiness k m ≠ .go h r) :
    IsMostUrgent k (ms ++ [m]) best := by
  match best, hb with
  | none, hb =>
    intro x hx
    rcases List.mem_append.1 hx with hx | hx
    · exact hb x hx
    · rw [List.mem_singleton.1 hx]
      exact hm
  | some (b, hd, r), ⟨hmem, hready, hmin⟩ =>
    refine ⟨List.mem_append_left _ hmem, hready, fun m' h' r' hm' hr' => ?_⟩
    rcases List.mem_append.1 hm' with hm' | hm'
    · exact hmin m' h' r' hm' hr'
    · rw [List.mem_singleton.1 hm'] at hr'
      exact absurd hr' (hm h' r')

/-- A ready message that is at least as urgent as every earlier one. -/
theorem isMostUrgent_new {h : DWord} {r : Bool} (hm : readiness k m = .go h r)
    (hmin : ∀ m' h' r', m' ∈ ms → readiness k m' = .go h' r' → field h 61 59 ≤ field h' 61 59) :
    IsMostUrgent k (ms ++ [m]) (some (m, h, r)) := by
  refine ⟨by simp, hm, fun m' h' r' hm' hr' => ?_⟩
  rcases List.mem_append.1 hm' with hm' | hm'
  · exact hmin m' h' r' hm' hr'
  · rw [List.mem_singleton.1 hm', hm] at hr'
    rw [(Ready.go.inj hr').1]

/-- A ready message that is no more urgent than the one kept. -/
theorem isMostUrgent_keep {b : Msg} {h h' : DWord} {r r' : Bool} (hb : IsMostUrgent k ms (some (b, h', r')))
    (hm : readiness k m = .go h r) (hle : field h' 61 59 ≤ field h 61 59) :
    IsMostUrgent k (ms ++ [m]) (some (b, h', r')) := by
  obtain ⟨hmem, hready, hmin⟩ := hb
  refine ⟨List.mem_append_left _ hmem, hready, fun m2 h2 r2 hm2 hr2 => ?_⟩
  rcases List.mem_append.1 hm2 with hm2 | hm2
  · exact hmin m2 h2 r2 hm2 hr2
  · rw [List.mem_singleton.1 hm2, hm] at hr2
    rwa [← (Ready.go.inj hr2).1]

theorem isMostUrgent_step (hb : IsMostUrgent k ms best) : IsMostUrgent k (ms ++ [m]) (moreUrgent k best m) := by
  cases hm : readiness k m with
  | busy =>
    simp only [moreUrgent, hm]
    exact isMostUrgent_skip hb (by simp [hm])
  | noHandler =>
    simp only [moreUrgent, hm]
    exact isMostUrgent_skip hb (by simp [hm])
  | go h r =>
    match best, hb with
    | none, hb =>
      simp only [moreUrgent, hm]
      exact isMostUrgent_new hm fun m' h' r' hm' hr' => absurd hr' (hb m' hm' h' r')
    | some (b, h', r'), hb =>
      simp only [moreUrgent, hm]
      split
      · next hlt =>
        obtain ⟨-, -, hmin⟩ := hb
        exact isMostUrgent_new hm fun m2 h2 r2 hm2 hr2 => (Nat.le_of_lt hlt).trans (hmin m2 h2 r2 hm2 hr2)
      · next hge => exact isMostUrgent_keep hb hm (Nat.not_lt.1 hge)

end

/-- The selection looks at every message of the store. -/
theorem selectMsg_isMostUrgent (k : Core) : IsMostUrgent k k.store (selectMsg k) := by
  rw [selectMsg_eq]
  induction k.store using List.reverseRecOn with
  | nil => exact fun _ hm => absurd hm (List.not_mem_nil)
  | append_singleton ms m ih =>
    rw [List.foldl_append]
    exact isMostUrgent_step ih

/-! ## Acceptance and continuations -/

section
variable {s : State} {c : CoreId} {l : Launch}

theorem pickFree_singleton {α : Type} (s : State) (x : α) : pickFree s [x] = some x := by
  simp [pickFree, Nat.mod_one]

theorem execMessageAccept_accepts {m : OutMsg} (h : Steps s c l) (hm : deliverable s c [] (coreAt s c).outq = [m]) :
    execMessageAccept c s = .next (active (active
      (acceptMsg (modCore s c fun k => { k with outq := k.outq.erase m }) m.target m.msg) m.target) c) := by
  simp only [execMessageAccept, steps_coreSteps h, hm, pickFree_singleton, Bool.not_true, Bool.false_eq_true, if_false]

theorem execContinuationPost_posts {x : Cont} {ws : List DWord} (h : Steps s c l)
    (hx : (coreAt s c).conts.find? (·.n == x.n) = some x) (hw : contWords (coreAt s c) x = some ws) :
    execContinuationPost c x.n s = .next (postCont s c x ws) := by
  rw [execContinuationPost, if_pos (steps_coreSteps h), postIfReady_ready hx hw]

/-- The bank of a posted WAIT has no arrived register pending. -/
theorem arrivedCleared_pend {x : Cont} {ld st cp tl gx : BitVec 8} (hx : x.awaits = .counts ld st cp tl gx) (k : Core) :
    (at' (arrivedCleared x k).banks x.bank).pend = (at' k.banks x.bank).pend &&& ~~~ (at' k.banks x.bank).come := by
  rw [arrivedCleared, hx]
  show (at' (modBank k x.bank _).banks x.bank).pend = _
  rw [bank_modBank, if_pos rfl]

/-! ## Starting a task (R301, R302, R305) -/

theorem execTaskStart_noHandler {m : Msg} (h : Steps s c l) (ht : (coreAt s c).task = none) (hp : l.phase = .running)
    (hm : ((coreAt s c).store.find? fun m => readiness (coreAt s c) m == .noHandler) = some m) :
    execTaskStart c s = .next
      (raise .handler ⟨l.id, c, 1, 0, m.wid, 0, 0⟩ (m.och.setWidth 64) (mstatOf m (m.chan != 0)) s) := by
  simp only [execTaskStart, h.1, hp, ht, hm, ne_eq, not_true_eq_false, false_and, Option.isSome_none, Bool.false_eq_true,
    or_self, if_false]

/-- The bank in which the task of an entry starts. -/
def entryBank (h : DWord) : BankId := Fin.ofNat 4 (field h 58 57)

/-- The task that a message starts at an entry. -/
def startedTask (m : Msg) (h : DWord) (r : Bool) : Task :=
  ⟨entryBank h, BitVec.ofNat 64 (field h 51 0), m.wid, mstatOf m r, m.chain⟩

/-- A core in which a message has started its task. -/
def startedCore (m : Msg) (h : DWord) (r : Bool) (k : Core) : Core :=
  { modBank k (entryBank h) (Machine.loadWords · m.words) with store := k.store.erase m, task := some (startedTask m h r) }

/-- A state in which a message has started its task. -/
def taskStarted (s : State) (c : CoreId) (m : Msg) (h : DWord) (r : Bool) : State :=
  let s2 := countEvent (modCore (discardLoads s c (entryBank h)) c (startedCore m h r)) c 0
  moved (if r then countEvent s2 c 2 else s2) c

theorem execTaskStart_starts {m : Msg} {hd : DWord} {r : Bool} (h : Steps s c l) (ht : (coreAt s c).task = none)
    (hp : l.phase = .running) (hn : ∀ x ∈ (coreAt s c).store, readiness (coreAt s c) x ≠ .noHandler)
    (hm : selectMsg (coreAt s c) = some (m, hd, r)) : execTaskStart c s = .next (taskStarted s c m hd r) := by
  have hnone : ((coreAt s c).store.find? fun m => readiness (coreAt s c) m == .noHandler) = none := by
    rw [List.find?_eq_none]
    exact fun x hx => by simpa using hn x hx
  simp only [execTaskStart, h.1, hp, ht, hnone, hm, ne_eq, not_true_eq_false, false_and, Option.isSome_none,
    Bool.false_eq_true, or_self, if_false]
  rfl

theorem coreAt_moved (s : State) (c : CoreId) : coreAt (moved s c) c = { coreAt s c with lastAct := s.now } := by
  rw [← coreAt_active, moved, progressOf]
  split <;> rfl

theorem coreAt_taskStarted (s : State) (c : CoreId) (m : Msg) (h : DWord) (r : Bool) : ∃ b v a,
    coreAt (taskStarted s c m h r) c = { startedCore m h r (coreAt s c) with blk := b, cntNow := v, lastAct := a } := by
  let s1 := modCore (discardLoads s c (entryBank h)) c (startedCore m h r)
  obtain ⟨b, v, hk⟩ := coreAt_countEvent s1 c 0
  obtain ⟨b', v', hk'⟩ := coreAt_countEvent (countEvent s1 c 0) c 2
  have h1 : coreAt s1 c = startedCore m h r (coreAt s c) := coreAt_modCore_self ..
  rw [taskStarted, coreAt_moved]
  cases r with
  | false => exact ⟨b, v, (countEvent s1 c 0).now, by rw [if_neg Bool.false_ne_true, hk, h1]⟩
  | true => exact ⟨b', v', (countEvent (countEvent s1 c 0) c 2).now, by rw [if_pos rfl, hk', hk, h1]⟩

theorem taskStarted_mem (s : State) (c : CoreId) (m : Msg) (h : DWord) (r : Bool) : (taskStarted s c m h r).mem = s.mem := by
  rw [taskStarted, moved_mem]
  split
  · rw [countEvent_mem, countEvent_mem, modCore_mem, discardLoads_mem]
  · rw [countEvent_mem, modCore_mem, discardLoads_mem]

theorem readX_loadWords (b : RegBank) (ws : List DWord) (n : Fin 32) : readX (Machine.loadWords b ws) n =
    if 1 ≤ n.val ∧ n.val ≤ 4 then (ws[n.val - 1]?).getD 0 else readX b n := by
  by_cases h0 : n = 0
  · subst h0
    rfl
  · simp [readX, h0, Machine.loadWords]

end

/-- Settles O47, by the move of each unit; the selected message by what the selection keeps. -/
theorem taskSteps : Obligations.TaskSteps := by
  constructor
  · intro s c l h k
    refine ⟨fun m => execMessageAccept_accepts h, fun hp ht => ⟨fun m => execTaskStart_noHandler h ht hp,
      fun m hd r hn hm => ?starts⟩, fun x ws hx hw => ?posts⟩
    case starts =>
      obtain ⟨b, v, a, hk⟩ := coreAt_taskStarted s c m hd r
      refine ⟨_, execTaskStart_starts h ht hp hn hm, ?_⟩
      rw [hk]
      have hbank (b' : BankId) := bank_modBank k (entryBank hd) b' (Machine.loadWords · m.words)
      refine ⟨rfl, rfl, fun n => ?_, fun b' hb => (hbank b').trans (if_neg hb), taskStarted_mem ..⟩
      exact (congrArg (readX · n) ((hbank _).trans (if_pos rfl))).trans (readX_loadWords ..)
    case posts =>
      obtain ⟨b, v, hk⟩ := coreAt_postCont s c x ws
      refine ⟨_, execContinuationPost_posts h hx hw, ?_⟩
      rw [hk]
      exact ⟨rfl, rfl, arrivedCleared_task x k, fun ld st cp tl gx ha => arrivedCleared_pend ha k⟩
  · intro k m h r hsel
    have hmost := selectMsg_isMostUrgent k
    rw [hsel] at hmost
    exact hmost

end Sys2Proof.Proofs
end

section
/-! PROOFS. The release of a barrier (R317). -/

namespace Sys2Proof.Proofs
open Sys2Proof Sys2Proof.Machine Sys2Proof.Laws

section
variable {s : State} {c : CoreId} {l : Launch} {b : Fin 1024}

/-- A core lets the current phase of core `c`'s barrier release: its own part is complete, or it has no further team to run at
scope 2 or above. -/
def LetsRelease (s : State) (c : CoreId) (b : Fin 1024) (c' : CoreId) : Prop :=
  let x := barrierAt (coreAt s c) b
  let y := barrierAt (coreAt s c') b
  (y.phase = x.phase ∧ partDone y.cur = true ∧ y.cur.s = x.cur.s) ∨ ((coreAt s c').finished = true ∧ 2 ≤ x.cur.s)

/-- The test of BARRIER_RELEASE on each participant. -/
theorem all_letsRelease (cs : List CoreId) : (cs.all fun c' =>
      ((barrierAt (coreAt s c') b).phase == (barrierAt (coreAt s c) b).phase && partDone (barrierAt (coreAt s c') b).cur &&
        (barrierAt (coreAt s c') b).cur.s == (barrierAt (coreAt s c) b).cur.s) ||
      ((coreAt s c').finished && decide (2 ≤ (barrierAt (coreAt s c) b).cur.s))) = true ↔
    ∀ c' ∈ cs, LetsRelease s c b c' := by
  simp [LetsRelease, and_assoc]

theorem execBarrierRelease_ready (h : Steps s c l) (hd : partDone (barrierAt (coreAt s c) b).cur = true)
    (hr : ∀ c' ∈ participants l c (barrierAt (coreAt s c) b).cur.s, LetsRelease s c b c') :
    execBarrierRelease c b s = .next (progress
      ((participants l c (barrierAt (coreAt s c) b).cur.s).foldl (releaseOn · b) s) l.id) := by
  simp only [execBarrierRelease, h.1, steps_maySteps h, hd, (all_letsRelease _).2 hr, Bool.not_true, Bool.or_self,
    Bool.false_eq_true, if_true, if_false]

theorem execBarrierRelease_waits (h : Steps s c l)
    (hr : ∃ c' ∈ participants l c (barrierAt (coreAt s c) b).cur.s, ¬LetsRelease s c b c') :
    execBarrierRelease c b s = .next s := by
  obtain ⟨c', hc', hn⟩ := hr
  have hnot := Bool.eq_false_iff.2 (mt (all_letsRelease _).1 fun hall => hn (hall c' hc'))
  simp only [execBarrierRelease, h.1, hnot, Bool.false_eq_true, if_false, ite_self]

/-- Without an arrival of an action to tell, a release changes the barrier alone. -/
theorem releaseOn_quiet (h : (coreAt s c).arrivals = []) : releaseOn s b c = modCore s c fun k =>
    { setBarrier k b ⟨(barrierAt (coreAt s c) b).phase + 1, (barrierAt (coreAt s c) b).nxt, ⟨0, 0, 0⟩⟩ with
      arrivals := k.arrivals.filter fun a => !(a.2.2.1 == b && a.2.2.2 == (barrierAt (coreAt s c) b).phase) } := by
  rw [releaseOn, h]
  rfl

end

end Sys2Proof.Proofs
end

section
/-! PROOFS. The order in which a range server takes requests (R377). -/

namespace Sys2Proof.Proofs
open Sys2Proof Sys2Proof.Machine Sys2Proof.Laws

/-- One request is taken no later than another: an earlier cycle, or the same and no higher core. -/
def AskBefore (x y : Ask) : Prop := x.1 < y.1 ∨ x.1 = y.1 ∧ x.2.1 ≤ y.2.1

theorem askBefore_trans {x y z : Ask} (h : AskBefore x y) (g : AskBefore y z) : AskBefore x z := by
  unfold AskBefore at *
  rcases h with h | ⟨h, h'⟩ <;> rcases g with g | ⟨g, g'⟩
  · exact .inl (h.trans g)
  · exact .inl (g ▸ h)
  · exact .inl (h ▸ g)
  · exact .inr ⟨h.trans g, h'.trans g'⟩

theorem askBefore_total (x y : Ask) : AskBefore x y ∨ AskBefore y x := by
  unfold AskBefore
  rcases Nat.lt_trichotomy x.1 y.1 with h | h | h
  · exact .inl (.inl h)
  · exact (le_total x.2.1 y.2.1).imp (fun hc => .inr ⟨h, hc⟩) fun hc => .inr ⟨h.symm, hc⟩
  · exact .inr (.inl h)

/-- An insertion goes past the requests that come before it. -/
theorem insertAsk_cons (a b : Ask) (bs : List Ask) :
    (AskBefore b a → insertAsk a (b :: bs) = b :: insertAsk a bs) ∧
    (¬AskBefore b a → insertAsk a (b :: bs) = a :: b :: bs) := by
  have hiff : (b.1 < a.1 || (b.1 == a.1 && b.2.1.val ≤ a.2.1.val)) = true ↔ AskBefore b a := by
    simp [AskBefore]
  rw [← hiff]
  exact ⟨fun h => if_pos h, fun h => if_neg h⟩

theorem insertAsk_perm (a : Ask) (bs : List Ask) : (insertAsk a bs).Perm (a :: bs) := by
  induction bs with
  | nil => exact .refl _
  | cons b bs ih =>
    by_cases h : AskBefore b a
    · rw [(insertAsk_cons a b bs).1 h]
      exact (ih.cons b).trans (.swap a b bs)
    · rw [(insertAsk_cons a b bs).2 h]

theorem insertAsk_pairwise (a : Ask) {bs : List Ask} (h : bs.Pairwise AskBefore) : (insertAsk a bs).Pairwise AskBefore := by
  induction bs with
  | nil => exact List.pairwise_singleton _ _
  | cons b bs ih =>
    obtain ⟨hb, hbs⟩ := List.pairwise_cons.1 h
    by_cases hba : AskBefore b a
    · rw [(insertAsk_cons a b bs).1 hba]
      refine List.pairwise_cons.2 ⟨fun y hy => ?_, ih hbs⟩
      rcases List.mem_cons.1 ((insertAsk_perm a bs).subset hy) with rfl | hy
      · exact hba
      · exact hb y hy
    · have hab : AskBefore a b := (askBefore_total b a).resolve_left hba
      rw [(insertAsk_cons a b bs).2 hba]
      refine List.pairwise_cons.2 ⟨fun y hy => ?_, h⟩
      rcases List.mem_cons.1 hy with rfl | hy
      · exact hab
      · exact askBefore_trans hab (hb y hy)

theorem asksInOrder_append (asks : List Ask) (a : Ask) :
    asksInOrder (asks ++ [a]) = insertAsk a (asksInOrder asks) := by
  simp only [asksInOrder, List.foldl_append, List.foldl_cons, List.foldl_nil]

theorem asksInOrder_perm (asks : List Ask) : (asksInOrder asks).Perm asks := by
  induction asks using List.reverseRecOn with
  | nil => exact .refl _
  | append_singleton asks a ih =>
    rw [asksInOrder_append]
    exact (insertAsk_perm a _).trans ((ih.cons a).trans (List.perm_append_singleton a asks).symm)

theorem asksInOrder_pairwise (asks : List Ask) : (asksInOrder asks).Pairwise AskBefore := by
  induction asks using List.reverseRecOn with
  | nil => exact .nil
  | append_singleton asks a ih =>
    rw [asksInOrder_append]
    exact insertAsk_pairwise a ih

end Sys2Proof.Proofs
end

section
/-! PROOFS. The range server. -/

namespace Sys2Proof.Proofs
open Sys2Proof Sys2Proof.Machine Sys2Proof.Laws

/-! ## The queue after a request has been served -/

theorem modRq_modRq (d : Die) (q : Fin 64) (f g : RangeQ → RangeQ) :
    modRq (modRq d q f) q g = modRq d q fun r => g (f r) := by
  simp only [modRq, List.map_map]
  congr 2
  funext e
  by_cases he : e.1 = q <;> simp [he]

/-- A queue whose first request has been dropped. -/
def askDropped (s : State) (d : DieId) (q : Fin 64) (rest : List Ask) : State :=
  modDie s d fun y => modRq y q fun z => { z with asks := rest }

/-- A queue whose first request has taken a range, of which `rs` are left. -/
def rangeTaken (s : State) (d : DieId) (q : Fin 64) (rest : List Ask) (rs : List (Nat × Nat)) : State :=
  modDie s d fun y => modRq y q fun z => { z with asks := rest, ranges := rs }

theorem rangeTaken_eq (s : State) (d : DieId) (q : Fin 64) (rest : List Ask) (rs : List (Nat × Nat)) :
    modDie (askDropped s d q rest) d (modRq · q fun z => { z with ranges := rs }) = rangeTaken s d q rest rs := by
  simp only [askDropped, rangeTaken, modDie_modDie, modRq_modRq]

/-! ## A range handed to a team (R33) -/

/-- A change of the cores of a list, one after another. -/
theorem coreAt_foldl_modCore (f : Nat → Core → Core) (cs : List CoreId) (hn : cs.Nodup) (s : State) (c : CoreId) :
    coreAt (cs.foldl (fun s c' => modCore s c' (f s.now)) s) c = if c ∈ cs then f s.now (coreAt s c) else coreAt s c := by
  induction cs generalizing s with
  | nil => rfl
  | cons x xs ih =>
    obtain ⟨hx, hxs⟩ := List.nodup_cons.1 hn
    rw [List.foldl_cons, ih hxs, modCore_now]
    by_cases hc : c = x
    · subst hc
      simp [hx]
    · simp [hc, coreAt_modCore_ne]

theorem foldl_modCore_dies (f : Nat → Core → Core) (cs : List CoreId) (s : State) :
    (cs.foldl (fun s c' => modCore s c' (f s.now)) s).dies = s.dies := by
  induction cs generalizing s with
  | nil => rfl
  | cons x xs ih => exact (ih _).trans rfl

/-- What a team has drawn from a queue after one more answer: a range, or that the queue is exhausted. -/
def drawnWith (d : List (Nat × Nat) × Bool) : Option (Nat × Nat) → List (Nat × Nat) × Bool
  | some x => (d.1 ++ [x], d.2)
  | none => (d.1, true)

/-- A core of a team to which a range server has answered. -/
def teamAnswered (l : Launch) (q : Fin 64) (r : Option (Nat × Nat)) (now : Nat) (k : Core) : Core :=
  { (match r with | some x => drawTeam l k x.1 | none => k) with
    lastAct := now
    drawn := (k.drawn.filter (·.1 != q)) ++ [(q, drawnWith (drawnOf k q) r)] }

theorem giveTeam_eq (s : State) (l : Launch) (c : CoreId) (q : Fin 64) (r : Option (Nat × Nat)) :
    giveTeam s l c q r = (teamCores l c).foldl (fun s c' => modCore s c' (teamAnswered l q r s.now)) s := by
  cases r <;> rfl

theorem giveTeam_dies (s : State) (l : Launch) (c : CoreId) (q : Fin 64) (r : Option (Nat × Nat)) :
    (giveTeam s l c q r).dies = s.dies := by
  rw [giveTeam_eq, foldl_modCore_dies]

theorem coreAt_giveTeam {l : Launch} {c : CoreId} (hn : (teamCores l c).Nodup) (s : State) (q : Fin 64)
    (r : Option (Nat × Nat)) (c' : CoreId) : coreAt (giveTeam s l c q r) c' =
      if c' ∈ teamCores l c then teamAnswered l q r s.now (coreAt s c') else coreAt s c' := by
  rw [giveTeam_eq, coreAt_foldl_modCore _ _ hn]

theorem drawnOf_teamAnswered (l : Launch) (q : Fin 64) (r : Option (Nat × Nat)) (now : Nat) (k : Core) :
    drawnOf (teamAnswered l q r now k) q = drawnWith (drawnOf k q) r := by
  have hnone : (k.drawn.filter (·.1 != q)).find? (·.1 == q) = none := by
    simp
  have hdrawn : (teamAnswered l q r now k).drawn = (k.drawn.filter (·.1 != q)) ++ [(q, drawnWith (drawnOf k q) r)] := rfl
  rw [drawnOf, hdrawn]
  simp [List.find?_append, hnone]

theorem team_teamAnswered {l : Launch} (hp : isPersist l.recd = true) (q : Fin 64) (x : Nat × Nat) (now : Nat) (k : Core) :
    (teamAnswered l q (some x) now k).team = x.1 := by
  simp only [teamAnswered, drawTeam, hp, if_true]

/-! ## The first request of a queue -/

section
variable {s : State} {l : Launch} {d : DieId} {q : Fin 64} {r : RangeQ} {t0 : Nat} {c : CoreId} {who : Option Nat} {rest : List Ask}

theorem execRangeServe_eq (hr : (dieAt s d).rqs.find? (·.1 == q) = some (q, r)) (hl : launchBy s r.launch = some l)
    (hm : maySteps s l = true) (ho : slotOpen s d l.ctx = true) (ha : asksInOrder r.asks = (t0, c, who) :: rest) :
    execRangeServe d q s = .next (serveFirst s l d q r [] ((t0, c, who) :: rest)) := by
  simp only [execRangeServe, hr, hl, hm, ho, ha, Bool.and_self, if_true]

/-- The requests of the running cycle wait until it is over. -/
theorem serveFirst_running (h : s.now ≤ t0) : serveFirst s l d q r [] ((t0, c, who) :: rest) = s := if_pos h

section
variable {n : Nat} (ht : t0 < s.now)
include ht

theorem serveFirst_range {y : Nat × Nat} {ys : List (Nat × Nat)} (hst : nStages l.recd = 0) (hy : r.ranges = y :: ys) :
    serveFirst s l d q r [] ((t0, c, some n) :: rest) =
      progress (answerRange (rangeTaken s d q rest ys) l c n y.1 y.2) l.id := by
  simp only [serveFirst, ge_iff_le, Nat.not_le.2 ht, hst, hy, ne_eq, not_true_eq_false, if_false]
  rw [← rangeTaken_eq]
  rfl

theorem serveFirst_noRange (hst : nStages l.recd = 0) (hy : r.ranges = []) :
    serveFirst s l d q r [] ((t0, c, some n) :: rest) = answerRange (askDropped s d q rest) l c n 0 0 := by
  simp only [serveFirst, ge_iff_le, Nat.not_le.2 ht, hst, hy, ne_eq, not_true_eq_false, if_false]
  rfl

theorem serveFirst_teamRange {y : Nat × Nat} {ys : List (Nat × Nat)} (hy : r.ranges = y :: ys) :
    serveFirst s l d q r [] ((t0, c, none) :: rest) =
      progress (giveTeam (rangeTaken s d q rest ys) l c q (some y)) l.id := by
  simp only [serveFirst, ge_iff_le, Nat.not_le.2 ht, hy, if_false]
  rw [← rangeTaken_eq]
  rfl

theorem serveFirst_teamNone (hy : r.ranges = []) :
    serveFirst s l d q r [] ((t0, c, none) :: rest) = giveTeam (askDropped s d q rest) l c q none := by
  simp only [serveFirst, ge_iff_le, Nat.not_le.2 ht, hy, if_false]
  rfl

theorem serveFirst_stage {t : State} (hst : nStages l.recd ≠ 0) (hs : serveStage s l c n = some t) :
    serveFirst s l d q r [] ((t0, c, some n) :: rest) = askDropped t d q rest := by
  simp only [serveFirst, ge_iff_le, Nat.not_le.2 ht, hst, hs, ne_eq, not_false_eq_true, if_true, if_false]
  rfl

theorem serveFirst_stageWaits (hst : nStages l.recd ≠ 0) (hs : serveStage s l c n = none) :
    serveFirst s l d q r [] [(t0, c, some n)] = s := by
  simp only [serveFirst, ge_iff_le, Nat.not_le.2 ht, hst, hs, ne_eq, not_false_eq_true, if_true, if_false]

end

end

theorem coreAt_answerRange (s t : State) (l : Launch) (c : CoreId) (n start count : Nat) (h : coreAt t c = coreAt s c) :
    coreAt (answerRange t l c n start count) c = coreAt (answerRange s l c n start count) c := by
  rw [answerRange, answerRange, coreAt_modCore_self, coreAt_modCore_self, h]

/-! ## The stages of a pipelined launch (R378, R379) -/

section
variable {s : State} {l : Launch} {c : CoreId} {n : Nat}

theorem serveStage_moves {x : Nat} (h : moveTo s l c n = some x) : serveStage s l c n = some (moveCore s l c n x) := by
  unfold serveStage
  simp only [h]

section
variable (h : moveTo s l c n = none)
include h

theorem serveStage_range {y : Nat × Nat} {ys : List (Nat × Nat)} (hw : waitsForRoom l c n = false)
    (hy : stageInput s l (coreAt s c).stage = y :: ys) : serveStage s l c n = some (progress (modCore
      (answerRange (popStage s l (coreAt s c).stage) l c n y.1 y.2) c fun k => { k with inRange := some y }) l.id) := by
  unfold serveStage
  simp only [h, hw, hy, Bool.false_eq_true, if_false]

theorem serveStage_exhausted (hw : waitsForRoom l c n = false) (hy : stageInput s l (coreAt s c).stage = [])
    (he : exhausted s l (coreAt s c).stage = true) (hf : fullest s l = none) :
    serveStage s l c n = some (answerRange s l c n 0 0) := by
  unfold serveStage
  simp only [h, hw, hy, he, hf, Option.isNone_none, Bool.and_self, Bool.false_eq_true, if_true, if_false]

theorem serveStage_waits (hw : waitsForRoom l c n = true ∨ stageInput s l (coreAt s c).stage = [] ∧
    ¬(exhausted s l (coreAt s c).stage = true ∧ fullest s l = none)) : serveStage s l c n = none := by
  cases hroom : waitsForRoom l c n with
  | true =>
    unfold serveStage
    simp only [h, hroom, if_true]
  | false =>
    obtain ⟨hy, hn⟩ := hw.resolve_left (by simp [hroom])
    have hb : (exhausted s l (coreAt s c).stage && (fullest s l).isNone) = false := by
      rw [← Bool.not_eq_true, Bool.and_eq_true, Option.isNone_iff_eq_none]
      exact hn
    unfold serveStage
    simp only [h, hroom, hy, hb, Bool.false_eq_true, if_false]

end

/-- When and where the scheduler moves a core. -/
theorem moveTo_iff (s : State) (l : Launch) (c : CoreId) (n x : Nat) : moveTo s l c n = some x ↔
    quietBut s l c (some n) = true ∧
      stageMin l.recd (coreAt s c).stage ≤
        (l.cores.filter fun c' => c' != c && (coreAt s c').stage == (coreAt s c).stage).length ∧
      (waitsForRoom l c n = true ∧ x = (coreAt s c).stage + 1 ∨
        waitsForRoom l c n = false ∧ stageInput s l (coreAt s c).stage = [] ∧ fullest s l = some x) := by
  cases hq : quietBut s l c (some n) with
  | false => simp [moveTo, hq]
  | true =>
    by_cases hm : (l.cores.filter fun c' => c' != c && (coreAt s c').stage == (coreAt s c).stage).length <
        stageMin l.recd (coreAt s c).stage
    · simp [moveTo, hq, hm, Nat.not_le.2 hm]
    · cases hw : waitsForRoom l c n with
      | true => simpa [moveTo, hq, hm, hw, Nat.not_lt.1 hm] using eq_comm
      | false =>
        by_cases hi : stageInput s l (coreAt s c).stage = [] <;> simp [moveTo, hq, hm, hw, hi, Nat.not_lt.1 hm]

/-! ### The stage with the most ranges pending -/

/-- What the choice keeps of the stages below `m`: the one with the most of `pending`, the lowest on a tie. -/
def IsFullest (pending : Nat → Nat) (m : Nat) : Option Nat → Prop
  | none => ∀ i < m, pending i = 0
  | some x => x < m ∧ 0 < pending x ∧ ∀ i < m, pending i ≤ pending x ∧ (i < x → pending i < pending x)

/-- One stage looked at by the choice. -/
def fuller (pending : Nat → Nat) (best : Option Nat) (i : Nat) : Option Nat :=
  if pending i = 0 then best
  else match best with
    | none => some i
    | some j => if pending j < pending i then some i else best

theorem isFullest_step {pending : Nat → Nat} {m : Nat} {best : Option Nat} (h : IsFullest pending m best) :
    IsFullest pending (m + 1) (fuller pending best m) := by
  unfold fuller
  by_cases h0 : pending m = 0
  · rw [if_pos h0]
    match best, h with
    | none, h =>
      intro i hi
      rcases Nat.lt_succ_iff_lt_or_eq.1 hi with hi | rfl
      · exact h i hi
      · exact h0
    | some x, ⟨hx, hpos, hmax⟩ =>
      refine ⟨by omega, hpos, fun i hi => ?_⟩
      rcases Nat.lt_succ_iff_lt_or_eq.1 hi with hi | rfl
      · exact hmax i hi
      · exact ⟨by omega, by omega⟩
  · rw [if_neg h0]
    match best, h with
    | none, h =>
      refine ⟨by omega, by omega, fun i hi => ?_⟩
      rcases Nat.lt_succ_iff_lt_or_eq.1 hi with hi | rfl
      · have := h i hi
        omega
      · exact ⟨le_rfl, by omega⟩
    | some x, ⟨hx, hpos, hmax⟩ =>
      dsimp only
      split
      · next hlt =>
        refine ⟨by omega, by omega, fun i hi => ?_⟩
        rcases Nat.lt_succ_iff_lt_or_eq.1 hi with hi | rfl
        · have := hmax i hi
          omega
        · exact ⟨le_rfl, by omega⟩
      · next hge =>
        refine ⟨by omega, hpos, fun i hi => ?_⟩
        rcases Nat.lt_succ_iff_lt_or_eq.1 hi with hi | rfl
        · exact hmax i hi
        · exact ⟨by omega, by omega⟩

theorem isFullest_foldl (pending : Nat → Nat) (m : Nat) :
    IsFullest pending m ((List.range m).foldl (fuller pending) none) := by
  induction m with
  | zero => exact fun i hi => absurd hi (Nat.not_lt_zero i)
  | succ m ih =>
    rw [List.range_succ, List.foldl_append]
    exact isFullest_step ih

theorem fullest_isFullest (s : State) (l : Launch) :
    IsFullest (fun i => (stageInput s l i).length) (nStages l.recd) (fullest s l) :=
  isFullest_foldl _ _

/-! ### Ranges that wait for room -/

/-- A range of core `c` that waits for room in the next stage's queue enters it. -/
def Enters (l : Launch) (c : CoreId) (w : CoreId × Nat × Nat × Nat × Nat) : Prop :=
  w.1 = c ∧ ((l.stageQs[w.2.1]?).getD []).length < stageCap l.recd (w.2.1 + 1)

theorem enters_iff (l : Launch) (c : CoreId) (w : CoreId × Nat × Nat × Nat × Nat) :
    (w.1 == c && stageRoom l w.2.1) = true ↔ Enters l c w := by
  simp [Enters, stageRoom]

theorem execStageAppend_first {before after : List (CoreId × Nat × Nat × Nat × Nat)} {w : CoreId × Nat × Nat × Nat × Nat}
    (hl : launchBy s l.id = some l) (hm : maySteps s l = true) (hw : l.roomWaits = before ++ w :: after)
    (hb : ∀ v ∈ before, ¬Enters l c v) (he : Enters l c w) :
    execStageAppend l.id c s = .next (modLaunch s l.id fun l => { l with
      stageQs := l.stageQs.modify w.2.1 (· ++ [(w.2.2.1, w.2.2.2.1)]), roomWaits := l.roomWaits.erase w }) := by
  have hfind : (l.roomWaits.find? fun w => w.1 == c && stageRoom l w.2.1) = some w := by
    rw [List.find?_eq_some_iff_append]
    refine ⟨(enters_iff l c w).2 he, before, after, hw, fun v hv => ?_⟩
    rw [Bool.not_eq_true', ← Bool.not_eq_true, enters_iff]
    exact hb v hv
  simp only [execStageAppend, hl, hfind, hm, if_true]

theorem execStageAppend_none (hl : launchBy s l.id = some l) (hn : ∀ w ∈ l.roomWaits, ¬Enters l c w) :
    execStageAppend l.id c s = .next s := by
  have hfind : (l.roomWaits.find? fun w => w.1 == c && stageRoom l w.2.1) = none := by
    rw [List.find?_eq_none]
    exact fun w hw => mt (enters_iff l c w).1 (hn w hw)
  simp only [execStageAppend, hl, hfind]

end

end Sys2Proof.Proofs
end

section
/-! PROOFS. Barriers and ranges as steps. -/

namespace Sys2Proof.Proofs
open Sys2Proof Sys2Proof.Machine Sys2Proof.Laws

/-- Every core of the team of a served request has the answer, and no other core has changed (R33). -/
theorem giveTeam_leaves {s t : State} {l : Launch} {c : CoreId} {q : Fin 64} (hn : (teamCores l c).Nodup)
    (ht : t.cores = s.cores) (x : Option (Nat × Nat)) :
    (∀ c', c' ∉ teamCores l c → coreAt (giveTeam t l c q x) c' = coreAt s c') ∧
    ∀ c' ∈ teamCores l c, drawnOf (coreAt (giveTeam t l c q x) c') q = drawnWith (drawnOf (coreAt s c') q) x ∧
      ∀ y, x = some y → isPersist l.recd = true → (coreAt (giveTeam t l c q x) c').team = y.1 := by
  have hcore (c' : CoreId) : coreAt t c' = coreAt s c' := by rw [coreAt, coreAt, ht]
  refine ⟨fun c' hc => ?_, fun c' hc => ⟨?_, ?_⟩⟩
  · rw [coreAt_giveTeam hn, if_neg hc, hcore]
  · rw [coreAt_giveTeam hn, if_pos hc, drawnOf_teamAnswered, hcore]
  · rintro y rfl hp
    rw [coreAt_giveTeam hn, if_pos hc, team_teamAnswered hp]

/-- Settles O48: the barrier by its test, the server by its first request, the stages by what the scheduler chooses. -/
theorem barrierAndRangeSteps : Obligations.BarrierAndRangeSteps := by
  intro s c l b h x ready
  have hm := steps_maySteps h
  refine ⟨execBarrierRelease_ready h, execBarrierRelease_waits h, fun p hq => ?quiet,
    fun asks => ⟨asksInOrder_perm asks, asksInOrder_pairwise asks⟩, fun d q r t0 who rest hr hl ho ha => ?server,
    fun n x => moveTo_iff s l c n x, ?fullest,
    fun hl => ⟨fun before w after hw hb he => execStageAppend_first hl hm hw hb he, execStageAppend_none hl⟩⟩
  case quiet =>
    rw [releaseOn_quiet hq, coreAt_modCore_self]
    exact ⟨barrierAt_setBarrier (coreAt s c) b _, rfl⟩
  case fullest =>
    have hf := fullest_isFullest s l
    refine ⟨fun x hx => ?_, fun hx => ?_⟩
    · rw [hx] at hf
      exact hf
    · rw [hx] at hf
      exact hf
  case server =>
    intro dropped left
    rw [exec_rangeServe, execRangeServe_eq hr hl hm ho ha]
    refine ⟨fun hnow => by rw [serveFirst_running hnow], fun n ht hw hst => ?task, fun ht hw hn => ?team,
      fun n ht hw hst => ?stage⟩
    case task =>
      subst hw
      refine ⟨fun y ys hy => ⟨_, congrArg _ (serveFirst_range ht hst hy), rfl, ?_⟩,
        fun hy => ⟨_, congrArg _ (serveFirst_noRange ht hst hy), rfl, ?_⟩⟩
      · exact coreAt_answerRange s (rangeTaken s d q rest ys) l c n _ _ rfl
      · exact coreAt_answerRange s (askDropped s d q rest) l c n 0 0 rfl
    case team =>
      subst hw
      refine ⟨fun y ys hy => ⟨_, congrArg _ (serveFirst_teamRange ht hy), giveTeam_dies .., ?_⟩,
        fun hy => ⟨_, congrArg _ (serveFirst_teamNone ht hy), giveTeam_dies .., ?_⟩⟩
      · obtain ⟨hother, hteam⟩ := giveTeam_leaves (t := rangeTaken s d q rest ys) (q := q) hn rfl (some y)
        exact ⟨hother, fun c' hc => ⟨(hteam c' hc).1, (hteam c' hc).2 y rfl⟩⟩
      · obtain ⟨hother, hteam⟩ := giveTeam_leaves (t := askDropped s d q rest) (q := q) hn rfl none
        exact ⟨hother, fun c' hc => (hteam c' hc).1⟩
    case stage =>
      subst hw
      have hserves {t : State} (hs : serveStage s l c n = some t) :
          Host.Outcome.next (serveFirst s l d q r [] ((t0, c, some n) :: rest)) = (.next (dropped t) : Out) := by
        rw [serveFirst_stage ht hst hs]
        rfl
      refine ⟨fun x hx => hserves (serveStage_moves hx), fun hx hroom => ⟨fun y ys hy => hserves (serveStage_range hx hroom hy),
        fun hy he hf => hserves (serveStage_exhausted hx hroom hy he hf)⟩, fun hrest hx hwait => ?_⟩
      subst hrest
      rw [serveFirst_stageWaits ht hst (serveStage_waits hx hwait)]

end Sys2Proof.Proofs
end
